-- ==== Sys2Proof/Word.lean ====
section
/-! DEFINITION. The word type of the part: one character of the command link. Every other quantity of the 2400 is an integer carried in a stated unit (00_scope.md 1.7), so it is a Nat or an Int. -/

namespace Sys2Proof

/-- One character of the link: 8 data bits (11_the_command_link.md). -/
abbrev Byte := BitVec 8

end Sys2Proof
end

