-- ==== Sys2Proof/Syntax.lean ====
section
/-! DEFINITION. The commands and events of spec/opcode_table.json, one constructor of `Instr` per row, with the types their operands are made of. -/

namespace Sys2Proof

/-- A hose-reel line (00_scope.md 1.5). -/
inductive Line where
  | one | two
deriving DecidableEq, Repr

/-- One value for each line. -/
structure Pair (α : Type) where
  one : α
  two : α
deriving DecidableEq, Repr

/-- A phase of a line's pulser (R55). -/
inductive PulserPhase where
  | a | b
deriving DecidableEq, Repr

/-- Kind of an order (R3). -/
inductive OrderKind where
  | fill | volume | amount
deriving DecidableEq, Repr

/-- State of a record (R3). -/
inductive RecState where
  | planned | held | bound | ticketed | issued | damaged
deriving DecidableEq, Repr

/-- How a command names a record: by stop, or by slot in the SLOT form (R1). -/
inductive Target where
  | stop (n : Nat)
  | slot (n : Nat)
deriving DecidableEq, Repr

/-- The fields of ORD.AMEND after the stop (R11). -/
structure Amend where
  price : Option Nat
  noPrice : Bool
  credit : Option Nat
  noCredit : Bool
  kind : Option OrderKind
  preset : Option Nat
  dpreset : Option (Nat × Nat)
deriving DecidableEq, Repr

/-- The fields of PRD.PUT after the product code (R125). -/
structure PrdFields where
  name : Option (List Byte)
  price : Option Int
  tax : Option Int
  define : Bool
  undefine : Bool
deriving DecidableEq, Repr

/-- One pair of SET.PUT: a setting word and its value (R166). -/
inductive SetItem where
  | noFlow (v : Int)
  | autoClose (v : Int)
  | deadman (v : Int)
  | slowStart (v : Int)
  | slowDown (v : Int)
  | step (v : Int)
  | antic1 (v : Int)
  | antic2 (v : Int)
  | attn (high : Bool)
deriving DecidableEq, Repr

/-- The bands of a calibration set: upper bound and meter factor of every band but the last, then the last band's meter factor (R71, R163). -/
structure CalSet where
  upper : List (Nat × Nat)
  last : Nat
deriving DecidableEq, Repr

/-- What a line's temperature channel reports (R72): a temperature in centi-degrees, or a failed probe circuit. -/
inductive Reading where
  | temp (t : Int)
  | openCircuit
  | shorted
deriving DecidableEq, Repr, Inhabited

/-- Result of a read of a slot's content (section 2.4): clean, corrected at a byte offset, or uncorrectable. -/
inductive ReadResult where
  | clean
  | corrected (offset : Nat)
  | uncorrectable
deriving DecidableEq, Repr

/-- Condition carried by a slot header (R28, R29). -/
inductive HeaderCond where
  | free
  | inUse (stop seq : Nat)
  | retired
deriving DecidableEq, Repr

/-- One copy of a slot header (R28). -/
structure Header where
  program : Nat
  corr : Nat
  cond : HeaderCond
deriving DecidableEq, Repr

/-- The three copies of a slot header (R28). -/
structure Headers where
  first : Header
  second : Header
  third : Header
deriving DecidableEq, Repr

/-- What a restart scan finds in one slot: the three header copies where they no longer read as written, the content's result, and the account that an uncorrectable content still shows (R47). -/
structure SlotReads where
  slot : Nat
  headers : Option Headers
  content : ReadResult
  account : Nat
deriving DecidableEq, Repr

/-- Result of reading a system area (R50). -/
inductive AreaRead where
  | good | corrected | bad
deriving DecidableEq, Repr

/-- What a restart's reads find in the store (R47, R50); a slot not listed reads clean. -/
structure RestartReads where
  slots : List SlotReads
  settings : AreaRead
  load : AreaRead
  route : AreaRead
deriving DecidableEq, Repr

/-- A date and time to the second (R186, R197). -/
structure DateTime where
  year : Nat
  month : Nat
  day : Nat
  hour : Nat
  minute : Nat
  second : Nat
deriving DecidableEq, Repr, Inhabited

/-- Which deadline of the flush has passed: 120 ms for block writes, 138 ms for slot writes and releases (R179). -/
inductive Deadline where
  | blocks | slots
deriving DecidableEq, Repr

/-- The commands and events of spec/opcode_table.json, in the table's order. Line, stop, compartment and product operands of commands are plain numbers, because their ranges are the commands' own checks (R2). -/
inductive Instr where
  | ordNew (stop account product : Nat) (kind : OrderKind) (preset price credit : Option Nat)
  | ordDrop (stop k : Nat) (tank cap preset : Option Nat) (noCap noPreset : Bool)
  | ordDropClear (stop : Nat)
  | ordGet (target : Target)
  | ordFind (account : Nat) (start : Option Nat)
  | ordList (state : RecState) (start : Option Nat)
  | ordAmend (stop : Nat) (a : Amend)
  | ordHold (stop : Nat)
  | ordRelease (stop : Nat)
  | ordCancel (stop : Nat)
  | ordRetire (target : Target)
  | tktGet (stop : Nat)
  | tktIssue (stop : Nat)
  | lnArm (line stop : Nat) (comp : Option Nat) (purge : Bool)
  | lnDisarm (line : Nat)
  | lnStart (line : Nat)
  | lnNext (line : Nat)
  | lnResume (line : Nat)
  | lnPause (line : Nat)
  | lnEnddrop (line : Nat)
  | lnClose (line : Nat)
  | lnRunPrime (line : Nat) (comp : Option Nat)
  | lnRunProve (line : Nat) (comp : Option Nat)
  | lnSetup (line : Nat)
  | lnAck (line : Nat)
  | lnStat (line : Nat)
  | cmpLoad (comp product volume : Nat) (empty : Bool)
  | cmpGet (comp : Option Nat)
  | hoseEmpty (line : Nat)
  | prdPut (code : Nat) (f : PrdFields)
  | prdGet (code : Option Nat)
  | setPut (items : List SetItem)
  | setGet (latched : Option Nat)
  | calPutPr (line pr : Nat)
  | calPutHose (line volume : Nat)
  | calPutSet (line product : Nat) (bands : Option CalSet)
  | calPutAlpha (product alpha : Nat)
  | calPutComp (product : Nat) (on : Bool)
  | calPutCap (comp capacity : Nat)
  | calGet (set : Option (Nat × Nat))
  | rteOpen (number : Nat)
  | rteClose
  | rteTotals
  | clkSet (value : Nat)
  | clkGet
  | status
  | ident
  | store (slot : Option Nat)
  | capClear
  | commandLine
  | lineGapTimeout
  | replyLineSent
  | breakBegin (wake : Pair Reading)
  | linkReset (reads : RestartReads)
  | linkWake (wake : Pair Reading)
  | pulserEdge (line : Line) (phase : PulserPhase) (us : Nat)
  | phaseError (line : Line)
  | periodOverflow (line : Line)
  | quietTimerExpiry (line : Line)
  | temperatureSample (line : Line) (reading : Reading)
  | windowExpiry (line : Line)
  | stepExpiry (line : Line)
  | settleExpiry (line : Line)
  | noFlowExpiry (line : Line)
  | deadmanExpiry (line : Line)
  | autoCloseExpiry (line : Line)
  | checkpointExpiry (line : Line)
  | permitDeasserted
  | permitAsserted
  | ignitionLow
  | ignitionHigh (wake : Pair Reading)
  | airAsserted (line : Line)
  | airDeasserted (line : Line)
  | deadmanPress
  | sealOpens
  | sealCloses
  | powerFailAsserted
  | flushDeadline (which : Deadline)
  | powerOnRestart (reads : RestartReads)
  | sleepEntry
  | clockTick
  | recordWriteComplete (read : ReadResult) (agrees : Bool)
  | blockWriteComplete (agrees : Bool)
  | releaseComplete
  | patrolIdleExpiry
  | patrolReadComplete (read : ReadResult)
  | characterReceived (c : Byte)
  | breakEnd
  | deadmanRelease
deriving DecidableEq, Repr

end Sys2Proof
end

