-- ==== Sys2Proof/Config.lean ====
section
/-! DEFINITION. What an implementation fixes, and the free values: constants without a body, of which nothing can be proved. Config.checkWord stands in Machine/State.lean, beside the type it reads. -/

namespace Sys2Proof

/-- Firmware level reported by IDENT (R196): fixed by the implementation, not given by the spec (log 34). -/
opaque Config.firmwareLevel : Nat

/-- Serial number reported by IDENT (R196): fixed at manufacture; the model brings it into 1 to 99,999,999 (log 34). -/
opaque Config.serialNumber : Nat

/-- Free value: the pulser resolution a line works at while it holds none (log 8). Line number, draw number. -/
opaque Config.absentPr : Nat → Nat → Nat

/-- Free value: the meter factor of a batch whose calibration set is absent (log 9). Line number, draw number. -/
opaque Config.absentFactor : Nat → Nat → Nat

/-- Free value: the band of a rate whose calibration set is absent (log 9). Line number, rate. -/
opaque Config.absentBand : Nat → Nat → Nat

/-- Free value: the hose volume used at the end of a run on a line that holds none (log 10). Line number, draw number. -/
opaque Config.absentHose : Nat → Nat → Nat

/-- Free value: what a count or volume holds when its exact value lies past its stated range and no saturation is stated (log 11). Draw number, exact value. -/
opaque Config.outOfRange : Nat → Nat → Nat

/-- Free value: the clock's date and time one second after 20991231235959 (log 12). -/
opaque Config.clockAfterRange : DateTime

/-- Free value: the reading of the sample taken at a wake whose row carries none (log 13). Line number, draw number. -/
opaque Config.wakeReading : Nat → Nat → Reading

/-- Free value: the program count of a slot whose header copies all differ (log 20). -/
opaque Config.lostProgram : Nat → Nat

/-- Free value: the correction count of a slot whose header copies all differ (log 20). -/
opaque Config.lostCorr : Nat → Nat

end Sys2Proof
end

