-- ==== Sys2Proof/Machine/Words.lean ====
section
/-! DEFINITION. The words of the command link: command words (11.3), reply codes (R192), and flag words, each with its spelling. -/

namespace Sys2Proof.Machine

/-- The command words of section 11.3; a dot is written "_". -/
inductive CmdWord where
  | ORD_NEW | ORD_DROP | ORD_GET | ORD_FIND | ORD_LIST | ORD_AMEND | ORD_HOLD | ORD_RELEASE | ORD_CANCEL | ORD_RETIRE
  | TKT_GET | TKT_ISSUE | LN_ARM | LN_DISARM | LN_START | LN_NEXT | LN_RESUME | LN_PAUSE | LN_ENDDROP | LN_CLOSE
  | LN_RUN | LN_SETUP | LN_ACK | LN_STAT | CMP_LOAD | CMP_GET | HOSE_EMPTY | PRD_PUT | PRD_GET | SET_PUT
  | SET_GET | CAL_PUT | CAL_GET | RTE_OPEN | RTE_CLOSE | RTE_TOTALS | CLK_SET | CLK_GET | STATUS | IDENT
  | STORE | CAP_CLEAR
deriving DecidableEq, Repr

/-- The codes a reply may carry (table of R192). -/
inductive Code where
  | FORMAT | CHECK | UNKNOWN | BUSY | RANGE | NOT_FOUND | EXISTS | STATE | FULL | LINE_BUSY
  | PUMP_BUSY | NO_PRODUCT | HOSE_MISMATCH | HOSE_EMPTY | NO_CAL | SEAL_OPEN | SEALED | INTERLOCK | NO_ROUTE | TOO_LATE
  | LIMIT_ZERO | FAULT | STORE_FAIL | TICKETS_EXHAUSTED
deriving DecidableEq, Repr

/-- The flag words of commands and replies. Words the spec spells are spelled so; the item words of replies whose words the spec does not give are the model's own (log 14). -/
inductive Kw where
  | STOP | ACCOUNT | STATE | PRODUCT | KIND | PRESET | NOPRESET | PRICE | NOPRICE | CREDIT | NOCREDIT | DPRESET
  | DROP | TANK | CAP | NOCAP | CLEAR | SLOT | FROM | MORE | LINE | COMP | PURGE | ATTEMPTS
  | RESTORED | ISSUES | UNSAVED | UNRELIABLE | GROSS | NET | GATED | TGROSS | TNET | CAUSE | ESTIMATE | TICKET
  | ROUTE | TIME | CALCOUNT | FLAGS | LINES | AMOUNT | TAX | TOTAL | TEMP | HOSE | PLANNED | HELD
  | BOUND | TICKETED | ISSUED | DAMAGED | PENDING | ACTIVE | DONE | SKIPPED | FILL | VOLUME | LIMIT | DRIVER
  | TIMEOUT | FINAL | CHECKPOINT | YES | NO | NONE | CHANGEOVER | MIXED | EMPTY | TEMP_HELD | TEMP_NONE | GROSS_ONLY
  | REVERSE_DEDUCTED | RESTORED_CHECKPOINT | AIR_GATED | OVERDRAWN | TIME_UNKNOWN | SETUP | IDLE | ARMED | FLOWING | STOPPING | SETTLING | PAUSED
  | FAULT | ORDER | PRIME | PROVE | NO_FLOW | DROP_END | INTERLOCK | AIR | REVERSE | DEADMAN | IGNITION | POWER
  | PULSER | STORE | ENDDROP | CLOSE | PAUSE | CREEP | RATE | BAND | PERIOD | SEEK_DISCARD | DISCARD | SEEK
  | MEASURE | SAMPLE | OK | RANGE | OPEN | SHORT | LASTVALID | OUTLETS | PHASEERR | QUIET | RUNNING | EXPIRED
  | FORWARD | BACK | RUNGATED | RUN | INTENT | CUT | REMAINING | UNLIMITED | LIVE | LOW | HIGH | OUTLOW
  | OUTHIGH | ON | OFF | CLOSED | ANTIC | WINDOW | STEP | SETTLE | NOFLOW | AUTOCLOSE | RUNGROSS | RUNNET
  | RESULT | PERMIT | PUMP | LATCHES | CAPACITY | LOADED | DRAWN | UNBOUND | LINE1 | LINE2 | NAME | ALPHA
  | DEFINED | DEFINE | UNDEFINE | UNDEFINED | SLOWSTART | SLOWDOWN | ANTIC1 | ANTIC2 | ATTN | LATCHED | WORKING | PR
  | SET | SEAL | SESSION | COUNT | LOST | CALLOST | SETS | TICKETS | PRIMED | BALANCE | COUNTER | COPY
  | APPLIED | LOAD | GOOD | FAILED | SETTINGS | CLOCK | VALID | INVALID | MODE | SLEEP | RESERVED | POWER_ON
  | LINK_RESET | REAPPLIED | TANDEKO | EGMARA | SLOTS | PRODUCTS | COMPARTMENTS | FREE | INUSE | CONDEMNED | RETIRED | RECORDS
  | QUEUE | FLIGHT | RECORD | BLOCK | RELEASE | PATROL | PROGRAM | CORRECTIONS | LATEST | FIRST | NUMBER
  | GROSSREM | NETREM | REVBAL | LASTVCF
deriving DecidableEq, Repr

/-- Spelling of a command word (11.3). -/
def CmdWord.spell : CmdWord → List Char
  | .ORD_NEW => ['O', 'R', 'D', '.', 'N', 'E', 'W']
  | .ORD_DROP => ['O', 'R', 'D', '.', 'D', 'R', 'O', 'P']
  | .ORD_GET => ['O', 'R', 'D', '.', 'G', 'E', 'T']
  | .ORD_FIND => ['O', 'R', 'D', '.', 'F', 'I', 'N', 'D']
  | .ORD_LIST => ['O', 'R', 'D', '.', 'L', 'I', 'S', 'T']
  | .ORD_AMEND => ['O', 'R', 'D', '.', 'A', 'M', 'E', 'N', 'D']
  | .ORD_HOLD => ['O', 'R', 'D', '.', 'H', 'O', 'L', 'D']
  | .ORD_RELEASE => ['O', 'R', 'D', '.', 'R', 'E', 'L', 'E', 'A', 'S', 'E']
  | .ORD_CANCEL => ['O', 'R', 'D', '.', 'C', 'A', 'N', 'C', 'E', 'L']
  | .ORD_RETIRE => ['O', 'R', 'D', '.', 'R', 'E', 'T', 'I', 'R', 'E']
  | .TKT_GET => ['T', 'K', 'T', '.', 'G', 'E', 'T']
  | .TKT_ISSUE => ['T', 'K', 'T', '.', 'I', 'S', 'S', 'U', 'E']
  | .LN_ARM => ['L', 'N', '.', 'A', 'R', 'M']
  | .LN_DISARM => ['L', 'N', '.', 'D', 'I', 'S', 'A', 'R', 'M']
  | .LN_START => ['L', 'N', '.', 'S', 'T', 'A', 'R', 'T']
  | .LN_NEXT => ['L', 'N', '.', 'N', 'E', 'X', 'T']
  | .LN_RESUME => ['L', 'N', '.', 'R', 'E', 'S', 'U', 'M', 'E']
  | .LN_PAUSE => ['L', 'N', '.', 'P', 'A', 'U', 'S', 'E']
  | .LN_ENDDROP => ['L', 'N', '.', 'E', 'N', 'D', 'D', 'R', 'O', 'P']
  | .LN_CLOSE => ['L', 'N', '.', 'C', 'L', 'O', 'S', 'E']
  | .LN_RUN => ['L', 'N', '.', 'R', 'U', 'N']
  | .LN_SETUP => ['L', 'N', '.', 'S', 'E', 'T', 'U', 'P']
  | .LN_ACK => ['L', 'N', '.', 'A', 'C', 'K']
  | .LN_STAT => ['L', 'N', '.', 'S', 'T', 'A', 'T']
  | .CMP_LOAD => ['C', 'M', 'P', '.', 'L', 'O', 'A', 'D']
  | .CMP_GET => ['C', 'M', 'P', '.', 'G', 'E', 'T']
  | .HOSE_EMPTY => ['H', 'O', 'S', 'E', '.', 'E', 'M', 'P', 'T', 'Y']
  | .PRD_PUT => ['P', 'R', 'D', '.', 'P', 'U', 'T']
  | .PRD_GET => ['P', 'R', 'D', '.', 'G', 'E', 'T']
  | .SET_PUT => ['S', 'E', 'T', '.', 'P', 'U', 'T']
  | .SET_GET => ['S', 'E', 'T', '.', 'G', 'E', 'T']
  | .CAL_PUT => ['C', 'A', 'L', '.', 'P', 'U', 'T']
  | .CAL_GET => ['C', 'A', 'L', '.', 'G', 'E', 'T']
  | .RTE_OPEN => ['R', 'T', 'E', '.', 'O', 'P', 'E', 'N']
  | .RTE_CLOSE => ['R', 'T', 'E', '.', 'C', 'L', 'O', 'S', 'E']
  | .RTE_TOTALS => ['R', 'T', 'E', '.', 'T', 'O', 'T', 'A', 'L', 'S']
  | .CLK_SET => ['C', 'L', 'K', '.', 'S', 'E', 'T']
  | .CLK_GET => ['C', 'L', 'K', '.', 'G', 'E', 'T']
  | .STATUS => ['S', 'T', 'A', 'T', 'U', 'S']
  | .IDENT => ['I', 'D', 'E', 'N', 'T']
  | .STORE => ['S', 'T', 'O', 'R', 'E']
  | .CAP_CLEAR => ['C', 'A', 'P', '.', 'C', 'L', 'E', 'A', 'R']

/-- Every command word of section 11.3. -/
def CmdWord.all : List CmdWord :=
  [.ORD_NEW, .ORD_DROP, .ORD_GET, .ORD_FIND, .ORD_LIST, .ORD_AMEND, .ORD_HOLD, .ORD_RELEASE,
   .ORD_CANCEL, .ORD_RETIRE, .TKT_GET, .TKT_ISSUE, .LN_ARM, .LN_DISARM, .LN_START, .LN_NEXT,
   .LN_RESUME, .LN_PAUSE, .LN_ENDDROP, .LN_CLOSE, .LN_RUN, .LN_SETUP, .LN_ACK, .LN_STAT,
   .CMP_LOAD, .CMP_GET, .HOSE_EMPTY, .PRD_PUT, .PRD_GET, .SET_PUT, .SET_GET, .CAL_PUT,
   .CAL_GET, .RTE_OPEN, .RTE_CLOSE, .RTE_TOTALS, .CLK_SET, .CLK_GET, .STATUS, .IDENT,
   .STORE, .CAP_CLEAR]

/-- Spelling of a reply code (R192). -/
def Code.spell : Code → List Char
  | .FORMAT => ['F', 'O', 'R', 'M', 'A', 'T']
  | .CHECK => ['C', 'H', 'E', 'C', 'K']
  | .UNKNOWN => ['U', 'N', 'K', 'N', 'O', 'W', 'N']
  | .BUSY => ['B', 'U', 'S', 'Y']
  | .RANGE => ['R', 'A', 'N', 'G', 'E']
  | .NOT_FOUND => ['N', 'O', 'T', '_', 'F', 'O', 'U', 'N', 'D']
  | .EXISTS => ['E', 'X', 'I', 'S', 'T', 'S']
  | .STATE => ['S', 'T', 'A', 'T', 'E']
  | .FULL => ['F', 'U', 'L', 'L']
  | .LINE_BUSY => ['L', 'I', 'N', 'E', '_', 'B', 'U', 'S', 'Y']
  | .PUMP_BUSY => ['P', 'U', 'M', 'P', '_', 'B', 'U', 'S', 'Y']
  | .NO_PRODUCT => ['N', 'O', '_', 'P', 'R', 'O', 'D', 'U', 'C', 'T']
  | .HOSE_MISMATCH => ['H', 'O', 'S', 'E', '_', 'M', 'I', 'S', 'M', 'A', 'T', 'C', 'H']
  | .HOSE_EMPTY => ['H', 'O', 'S', 'E', '_', 'E', 'M', 'P', 'T', 'Y']
  | .NO_CAL => ['N', 'O', '_', 'C', 'A', 'L']
  | .SEAL_OPEN => ['S', 'E', 'A', 'L', '_', 'O', 'P', 'E', 'N']
  | .SEALED => ['S', 'E', 'A', 'L', 'E', 'D']
  | .INTERLOCK => ['I', 'N', 'T', 'E', 'R', 'L', 'O', 'C', 'K']
  | .NO_ROUTE => ['N', 'O', '_', 'R', 'O', 'U', 'T', 'E']
  | .TOO_LATE => ['T', 'O', 'O', '_', 'L', 'A', 'T', 'E']
  | .LIMIT_ZERO => ['L', 'I', 'M', 'I', 'T', '_', 'Z', 'E', 'R', 'O']
  | .FAULT => ['F', 'A', 'U', 'L', 'T']
  | .STORE_FAIL => ['S', 'T', 'O', 'R', 'E', '_', 'F', 'A', 'I', 'L']
  | .TICKETS_EXHAUSTED => ['T', 'I', 'C', 'K', 'E', 'T', 'S', '_', 'E', 'X', 'H', 'A', 'U', 'S', 'T', 'E', 'D']

/-- Spelling of a flag word. -/
def Kw.spell : Kw → List Char
  | .STOP => ['S', 'T', 'O', 'P']
  | .ACCOUNT => ['A', 'C', 'C', 'O', 'U', 'N', 'T']
  | .STATE => ['S', 'T', 'A', 'T', 'E']
  | .PRODUCT => ['P', 'R', 'O', 'D', 'U', 'C', 'T']
  | .KIND => ['K', 'I', 'N', 'D']
  | .PRESET => ['P', 'R', 'E', 'S', 'E', 'T']
  | .NOPRESET => ['N', 'O', 'P', 'R', 'E', 'S', 'E', 'T']
  | .PRICE => ['P', 'R', 'I', 'C', 'E']
  | .NOPRICE => ['N', 'O', 'P', 'R', 'I', 'C', 'E']
  | .CREDIT => ['C', 'R', 'E', 'D', 'I', 'T']
  | .NOCREDIT => ['N', 'O', 'C', 'R', 'E', 'D', 'I', 'T']
  | .DPRESET => ['D', 'P', 'R', 'E', 'S', 'E', 'T']
  | .DROP => ['D', 'R', 'O', 'P']
  | .TANK => ['T', 'A', 'N', 'K']
  | .CAP => ['C', 'A', 'P']
  | .NOCAP => ['N', 'O', 'C', 'A', 'P']
  | .CLEAR => ['C', 'L', 'E', 'A', 'R']
  | .SLOT => ['S', 'L', 'O', 'T']
  | .FROM => ['F', 'R', 'O', 'M']
  | .MORE => ['M', 'O', 'R', 'E']
  | .LINE => ['L', 'I', 'N', 'E']
  | .COMP => ['C', 'O', 'M', 'P']
  | .PURGE => ['P', 'U', 'R', 'G', 'E']
  | .ATTEMPTS => ['A', 'T', 'T', 'E', 'M', 'P', 'T', 'S']
  | .RESTORED => ['R', 'E', 'S', 'T', 'O', 'R', 'E', 'D']
  | .ISSUES => ['I', 'S', 'S', 'U', 'E', 'S']
  | .UNSAVED => ['U', 'N', 'S', 'A', 'V', 'E', 'D']
  | .UNRELIABLE => ['U', 'N', 'R', 'E', 'L', 'I', 'A', 'B', 'L', 'E']
  | .GROSS => ['G', 'R', 'O', 'S', 'S']
  | .NET => ['N', 'E', 'T']
  | .GATED => ['G', 'A', 'T', 'E', 'D']
  | .TGROSS => ['T', 'G', 'R', 'O', 'S', 'S']
  | .TNET => ['T', 'N', 'E', 'T']
  | .CAUSE => ['C', 'A', 'U', 'S', 'E']
  | .ESTIMATE => ['E', 'S', 'T', 'I', 'M', 'A', 'T', 'E']
  | .TICKET => ['T', 'I', 'C', 'K', 'E', 'T']
  | .ROUTE => ['R', 'O', 'U', 'T', 'E']
  | .TIME => ['T', 'I', 'M', 'E']
  | .CALCOUNT => ['C', 'A', 'L', 'C', 'O', 'U', 'N', 'T']
  | .FLAGS => ['F', 'L', 'A', 'G', 'S']
  | .LINES => ['L', 'I', 'N', 'E', 'S']
  | .AMOUNT => ['A', 'M', 'O', 'U', 'N', 'T']
  | .TAX => ['T', 'A', 'X']
  | .TOTAL => ['T', 'O', 'T', 'A', 'L']
  | .TEMP => ['T', 'E', 'M', 'P']
  | .HOSE => ['H', 'O', 'S', 'E']
  | .PLANNED => ['P', 'L', 'A', 'N', 'N', 'E', 'D']
  | .HELD => ['H', 'E', 'L', 'D']
  | .BOUND => ['B', 'O', 'U', 'N', 'D']
  | .TICKETED => ['T', 'I', 'C', 'K', 'E', 'T', 'E', 'D']
  | .ISSUED => ['I', 'S', 'S', 'U', 'E', 'D']
  | .DAMAGED => ['D', 'A', 'M', 'A', 'G', 'E', 'D']
  | .PENDING => ['P', 'E', 'N', 'D', 'I', 'N', 'G']
  | .ACTIVE => ['A', 'C', 'T', 'I', 'V', 'E']
  | .DONE => ['D', 'O', 'N', 'E']
  | .SKIPPED => ['S', 'K', 'I', 'P', 'P', 'E', 'D']
  | .FILL => ['F', 'I', 'L', 'L']
  | .VOLUME => ['V', 'O', 'L', 'U', 'M', 'E']
  | .LIMIT => ['L', 'I', 'M', 'I', 'T']
  | .DRIVER => ['D', 'R', 'I', 'V', 'E', 'R']
  | .TIMEOUT => ['T', 'I', 'M', 'E', 'O', 'U', 'T']
  | .FINAL => ['F', 'I', 'N', 'A', 'L']
  | .CHECKPOINT => ['C', 'H', 'E', 'C', 'K', 'P', 'O', 'I', 'N', 'T']
  | .YES => ['Y', 'E', 'S']
  | .NO => ['N', 'O']
  | .NONE => ['N', 'O', 'N', 'E']
  | .CHANGEOVER => ['C', 'H', 'A', 'N', 'G', 'E', 'O', 'V', 'E', 'R']
  | .MIXED => ['M', 'I', 'X', 'E', 'D']
  | .EMPTY => ['E', 'M', 'P', 'T', 'Y']
  | .TEMP_HELD => ['T', 'E', 'M', 'P', '_', 'H', 'E', 'L', 'D']
  | .TEMP_NONE => ['T', 'E', 'M', 'P', '_', 'N', 'O', 'N', 'E']
  | .GROSS_ONLY => ['G', 'R', 'O', 'S', 'S', '_', 'O', 'N', 'L', 'Y']
  | .REVERSE_DEDUCTED => ['R', 'E', 'V', 'E', 'R', 'S', 'E', '_', 'D', 'E', 'D', 'U', 'C', 'T', 'E', 'D']
  | .RESTORED_CHECKPOINT => ['R', 'E', 'S', 'T', 'O', 'R', 'E', 'D', '_', 'C', 'H', 'E', 'C', 'K', 'P', 'O', 'I', 'N', 'T']
  | .AIR_GATED => ['A', 'I', 'R', '_', 'G', 'A', 'T', 'E', 'D']
  | .OVERDRAWN => ['O', 'V', 'E', 'R', 'D', 'R', 'A', 'W', 'N']
  | .TIME_UNKNOWN => ['T', 'I', 'M', 'E', '_', 'U', 'N', 'K', 'N', 'O', 'W', 'N']
  | .SETUP => ['S', 'E', 'T', 'U', 'P']
  | .IDLE => ['I', 'D', 'L', 'E']
  | .ARMED => ['A', 'R', 'M', 'E', 'D']
  | .FLOWING => ['F', 'L', 'O', 'W', 'I', 'N', 'G']
  | .STOPPING => ['S', 'T', 'O', 'P', 'P', 'I', 'N', 'G']
  | .SETTLING => ['S', 'E', 'T', 'T', 'L', 'I', 'N', 'G']
  | .PAUSED => ['P', 'A', 'U', 'S', 'E', 'D']
  | .FAULT => ['F', 'A', 'U', 'L', 'T']
  | .ORDER => ['O', 'R', 'D', 'E', 'R']
  | .PRIME => ['P', 'R', 'I', 'M', 'E']
  | .PROVE => ['P', 'R', 'O', 'V', 'E']
  | .NO_FLOW => ['N', 'O', '_', 'F', 'L', 'O', 'W']
  | .DROP_END => ['D', 'R', 'O', 'P', '_', 'E', 'N', 'D']
  | .INTERLOCK => ['I', 'N', 'T', 'E', 'R', 'L', 'O', 'C', 'K']
  | .AIR => ['A', 'I', 'R']
  | .REVERSE => ['R', 'E', 'V', 'E', 'R', 'S', 'E']
  | .DEADMAN => ['D', 'E', 'A', 'D', 'M', 'A', 'N']
  | .IGNITION => ['I', 'G', 'N', 'I', 'T', 'I', 'O', 'N']
  | .POWER => ['P', 'O', 'W', 'E', 'R']
  | .PULSER => ['P', 'U', 'L', 'S', 'E', 'R']
  | .STORE => ['S', 'T', 'O', 'R', 'E']
  | .ENDDROP => ['E', 'N', 'D', 'D', 'R', 'O', 'P']
  | .CLOSE => ['C', 'L', 'O', 'S', 'E']
  | .PAUSE => ['P', 'A', 'U', 'S', 'E']
  | .CREEP => ['C', 'R', 'E', 'E', 'P']
  | .RATE => ['R', 'A', 'T', 'E']
  | .BAND => ['B', 'A', 'N', 'D']
  | .PERIOD => ['P', 'E', 'R', 'I', 'O', 'D']
  | .SEEK_DISCARD => ['S', 'E', 'E', 'K', '_', 'D', 'I', 'S', 'C', 'A', 'R', 'D']
  | .DISCARD => ['D', 'I', 'S', 'C', 'A', 'R', 'D']
  | .SEEK => ['S', 'E', 'E', 'K']
  | .MEASURE => ['M', 'E', 'A', 'S', 'U', 'R', 'E']
  | .SAMPLE => ['S', 'A', 'M', 'P', 'L', 'E']
  | .OK => ['O', 'K']
  | .RANGE => ['R', 'A', 'N', 'G', 'E']
  | .OPEN => ['O', 'P', 'E', 'N']
  | .SHORT => ['S', 'H', 'O', 'R', 'T']
  | .LASTVALID => ['L', 'A', 'S', 'T', 'V', 'A', 'L', 'I', 'D']
  | .OUTLETS => ['O', 'U', 'T', 'L', 'E', 'T', 'S']
  | .PHASEERR => ['P', 'H', 'A', 'S', 'E', 'E', 'R', 'R']
  | .QUIET => ['Q', 'U', 'I', 'E', 'T']
  | .RUNNING => ['R', 'U', 'N', 'N', 'I', 'N', 'G']
  | .EXPIRED => ['E', 'X', 'P', 'I', 'R', 'E', 'D']
  | .FORWARD => ['F', 'O', 'R', 'W', 'A', 'R', 'D']
  | .BACK => ['B', 'A', 'C', 'K']
  | .RUNGATED => ['R', 'U', 'N', 'G', 'A', 'T', 'E', 'D']
  | .RUN => ['R', 'U', 'N']
  | .INTENT => ['I', 'N', 'T', 'E', 'N', 'T']
  | .CUT => ['C', 'U', 'T']
  | .REMAINING => ['R', 'E', 'M', 'A', 'I', 'N', 'I', 'N', 'G']
  | .UNLIMITED => ['U', 'N', 'L', 'I', 'M', 'I', 'T', 'E', 'D']
  | .LIVE => ['L', 'I', 'V', 'E']
  | .LOW => ['L', 'O', 'W']
  | .HIGH => ['H', 'I', 'G', 'H']
  | .OUTLOW => ['O', 'U', 'T', 'L', 'O', 'W']
  | .OUTHIGH => ['O', 'U', 'T', 'H', 'I', 'G', 'H']
  | .ON => ['O', 'N']
  | .OFF => ['O', 'F', 'F']
  | .CLOSED => ['C', 'L', 'O', 'S', 'E', 'D']
  | .ANTIC => ['A', 'N', 'T', 'I', 'C']
  | .WINDOW => ['W', 'I', 'N', 'D', 'O', 'W']
  | .STEP => ['S', 'T', 'E', 'P']
  | .SETTLE => ['S', 'E', 'T', 'T', 'L', 'E']
  | .NOFLOW => ['N', 'O', 'F', 'L', 'O', 'W']
  | .AUTOCLOSE => ['A', 'U', 'T', 'O', 'C', 'L', 'O', 'S', 'E']
  | .RUNGROSS => ['R', 'U', 'N', 'G', 'R', 'O', 'S', 'S']
  | .RUNNET => ['R', 'U', 'N', 'N', 'E', 'T']
  | .GROSSREM => ['G', 'R', 'O', 'S', 'S', 'R', 'E', 'M']
  | .NETREM => ['N', 'E', 'T', 'R', 'E', 'M']
  | .REVBAL => ['R', 'E', 'V', 'B', 'A', 'L']
  | .LASTVCF => ['L', 'A', 'S', 'T', 'V', 'C', 'F']
  | .RESULT => ['R', 'E', 'S', 'U', 'L', 'T']
  | .PERMIT => ['P', 'E', 'R', 'M', 'I', 'T']
  | .PUMP => ['P', 'U', 'M', 'P']
  | .LATCHES => ['L', 'A', 'T', 'C', 'H', 'E', 'S']
  | .CAPACITY => ['C', 'A', 'P', 'A', 'C', 'I', 'T', 'Y']
  | .LOADED => ['L', 'O', 'A', 'D', 'E', 'D']
  | .DRAWN => ['D', 'R', 'A', 'W', 'N']
  | .UNBOUND => ['U', 'N', 'B', 'O', 'U', 'N', 'D']
  | .LINE1 => ['L', 'I', 'N', 'E', '1']
  | .LINE2 => ['L', 'I', 'N', 'E', '2']
  | .NAME => ['N', 'A', 'M', 'E']
  | .ALPHA => ['A', 'L', 'P', 'H', 'A']
  | .DEFINED => ['D', 'E', 'F', 'I', 'N', 'E', 'D']
  | .DEFINE => ['D', 'E', 'F', 'I', 'N', 'E']
  | .UNDEFINE => ['U', 'N', 'D', 'E', 'F', 'I', 'N', 'E']
  | .UNDEFINED => ['U', 'N', 'D', 'E', 'F', 'I', 'N', 'E', 'D']
  | .SLOWSTART => ['S', 'L', 'O', 'W', 'S', 'T', 'A', 'R', 'T']
  | .SLOWDOWN => ['S', 'L', 'O', 'W', 'D', 'O', 'W', 'N']
  | .ANTIC1 => ['A', 'N', 'T', 'I', 'C', '1']
  | .ANTIC2 => ['A', 'N', 'T', 'I', 'C', '2']
  | .ATTN => ['A', 'T', 'T', 'N']
  | .LATCHED => ['L', 'A', 'T', 'C', 'H', 'E', 'D']
  | .WORKING => ['W', 'O', 'R', 'K', 'I', 'N', 'G']
  | .PR => ['P', 'R']
  | .SET => ['S', 'E', 'T']
  | .SEAL => ['S', 'E', 'A', 'L']
  | .SESSION => ['S', 'E', 'S', 'S', 'I', 'O', 'N']
  | .COUNT => ['C', 'O', 'U', 'N', 'T']
  | .LOST => ['L', 'O', 'S', 'T']
  | .CALLOST => ['C', 'A', 'L', 'L', 'O', 'S', 'T']
  | .SETS => ['S', 'E', 'T', 'S']
  | .TICKETS => ['T', 'I', 'C', 'K', 'E', 'T', 'S']
  | .PRIMED => ['P', 'R', 'I', 'M', 'E', 'D']
  | .BALANCE => ['B', 'A', 'L', 'A', 'N', 'C', 'E']
  | .COUNTER => ['C', 'O', 'U', 'N', 'T', 'E', 'R']
  | .COPY => ['C', 'O', 'P', 'Y']
  | .APPLIED => ['A', 'P', 'P', 'L', 'I', 'E', 'D']
  | .LOAD => ['L', 'O', 'A', 'D']
  | .GOOD => ['G', 'O', 'O', 'D']
  | .FAILED => ['F', 'A', 'I', 'L', 'E', 'D']
  | .SETTINGS => ['S', 'E', 'T', 'T', 'I', 'N', 'G', 'S']
  | .CLOCK => ['C', 'L', 'O', 'C', 'K']
  | .VALID => ['V', 'A', 'L', 'I', 'D']
  | .INVALID => ['I', 'N', 'V', 'A', 'L', 'I', 'D']
  | .MODE => ['M', 'O', 'D', 'E']
  | .SLEEP => ['S', 'L', 'E', 'E', 'P']
  | .RESERVED => ['R', 'E', 'S', 'E', 'R', 'V', 'E', 'D']
  | .POWER_ON => ['P', 'O', 'W', 'E', 'R', '_', 'O', 'N']
  | .LINK_RESET => ['L', 'I', 'N', 'K', '_', 'R', 'E', 'S', 'E', 'T']
  | .REAPPLIED => ['R', 'E', 'A', 'P', 'P', 'L', 'I', 'E', 'D']
  | .TANDEKO => ['T', 'A', 'N', 'D', 'E', 'K', 'O']
  | .EGMARA => ['E', 'G', 'M', 'A', 'R', 'A']
  | .SLOTS => ['S', 'L', 'O', 'T', 'S']
  | .PRODUCTS => ['P', 'R', 'O', 'D', 'U', 'C', 'T', 'S']
  | .COMPARTMENTS => ['C', 'O', 'M', 'P', 'A', 'R', 'T', 'M', 'E', 'N', 'T', 'S']
  | .FREE => ['F', 'R', 'E', 'E']
  | .INUSE => ['I', 'N', 'U', 'S', 'E']
  | .CONDEMNED => ['C', 'O', 'N', 'D', 'E', 'M', 'N', 'E', 'D']
  | .RETIRED => ['R', 'E', 'T', 'I', 'R', 'E', 'D']
  | .RECORDS => ['R', 'E', 'C', 'O', 'R', 'D', 'S']
  | .QUEUE => ['Q', 'U', 'E', 'U', 'E']
  | .FLIGHT => ['F', 'L', 'I', 'G', 'H', 'T']
  | .RECORD => ['R', 'E', 'C', 'O', 'R', 'D']
  | .BLOCK => ['B', 'L', 'O', 'C', 'K']
  | .RELEASE => ['R', 'E', 'L', 'E', 'A', 'S', 'E']
  | .PATROL => ['P', 'A', 'T', 'R', 'O', 'L']
  | .PROGRAM => ['P', 'R', 'O', 'G', 'R', 'A', 'M']
  | .CORRECTIONS => ['C', 'O', 'R', 'R', 'E', 'C', 'T', 'I', 'O', 'N', 'S']
  | .LATEST => ['L', 'A', 'T', 'E', 'S', 'T']
  | .FIRST => ['F', 'I', 'R', 'S', 'T']
  | .NUMBER => ['N', 'U', 'M', 'B', 'E', 'R']

/-- The characters of a spelling as they stand on the link. -/
def charBytes (cs : List Char) : List Byte :=
  cs.map (fun c => BitVec.ofNat 8 c.toNat)

end Sys2Proof.Machine
end

