-- ==== Sys2Proof/Machine/State.lean ====
section
/-! DEFINITION. The whole state of the 2400 as plain data, the outcomes of a step, and the state after reset. -/

namespace Sys2Proof.Machine

/-! ## Records and tickets (chapter 1) -/

/-- End cause of a drop and close cause of a ticket (R4, R5). -/
inductive EndCause where
  | limit | driver | timeout
deriving DecidableEq, Repr

/-- Restored marker of a record (R3). -/
inductive Restored where
  | none | final | checkpoint
deriving DecidableEq, Repr

/-- A drop's accumulators in µL and its air-gated edge count, present from ACTIVE and kept in DONE (R4). -/
structure Acc where
  gross : Nat
  net : Nat
  gated : Nat
deriving DecidableEq, Repr

/-- Drop state with the fields present in it (R4): ticketed volumes in cL and the end cause in DONE only. -/
inductive DropState where
  | pending
  | active (acc : Acc)
  | done (acc : Acc) (tGross tNet : Nat) (cause : EndCause)
  | skipped
deriving DecidableEq, Repr

/-- A drop entry (R4). -/
structure Drop where
  tank : Nat
  cap : Option Nat
  preset : Option Nat
  st : DropState
deriving DecidableEq, Repr

/-- The flags of R7, gathered by a run and carried to its ticket. -/
structure RunFlags where
  tempHeld : Bool
  tempNone : Bool
  grossOnly : Bool
  reverseDeducted : Bool
  restoredCheckpoint : Bool
  airGated : Bool
  overdrawn : Bool
  timeUnknown : Bool
deriving DecidableEq, Repr

/-- No flag set. -/
def RunFlags.empty : RunFlags := ⟨false, false, false, false, false, false, false, false⟩

/-- What a hose holds (R137). -/
inductive HoseContent where
  | product (p : Nat)
  | mixed
  | empty
deriving DecidableEq, Repr

/-- Product of a ticket line (R6): a product, or MIXED. -/
inductive LineProduct where
  | product (p : Nat)
  | mixed
deriving DecidableEq, Repr

/-- Kind of a ticket line (R6); a DROP line names its drop's tank. -/
inductive TicketLineKind where
  | changeover
  | drop (tank : Nat)
deriving DecidableEq, Repr

/-- One priced entry of a ticket (R6). -/
structure TicketLine where
  kind : TicketLineKind
  product : LineProduct
  gross : Option Nat
  net : Nat
  price : Nat
  amount : Nat
  tax : Nat
deriving DecidableEq, Repr

/-- The ticket part (R5). -/
structure Ticket where
  number : Nat
  route : Nat
  time : Option DateTime
  cause : EndCause
  calCount : Nat
  line : Line
  comp : Nat
  product : Nat
  lines : List TicketLine
  gross : Nat
  net : Nat
  amount : Nat
  tax : Nat
  total : Nat
  temp : Option Int
  flags : RunFlags
  hose : HoseContent
deriving DecidableEq, Repr

/-- The line, compartment and purge field a record gains at arming (R3, R15). -/
structure Binding where
  line : Line
  comp : Nat
  purge : Bool
deriving DecidableEq, Repr

/-- An order record (R3). `flags` are the run flags carried in the record's image beside its drop list (R93). -/
structure Record where
  stop : Nat
  account : Nat
  state : RecState
  product : Nat
  kind : OrderKind
  preset : Option Nat
  price : Option Nat
  credit : Option Nat
  drops : List Drop
  binding : Option Binding
  attempts : Nat
  restored : Restored
  ticket : Option Ticket
  issues : Nat
  flags : RunFlags
deriving DecidableEq, Repr

/-! ## The record store (chapter 2) -/

/-- What a slot in service holds: a record, or the stop and account of a DAMAGED one (R3). -/
inductive Occupant where
  | record (r : Record)
  | damaged (stop account : Nat)
deriving DecidableEq, Repr

/-- Condition of a slot with its occupant (R28, R30). -/
inductive SlotState where
  | free
  | inUse (o : Occupant)
  | condemned (r : Record)
  | retired
deriving DecidableEq, Repr

/-- A record slot: its working condition and counts, whether its durable copy was found lost (R40), whether its release has been asked for (R37), and what the medium holds: three header copies and the content as last written (R28). -/
structure Slot where
  st : SlotState
  program : Nat
  corr : Nat
  relocate : Bool
  leaving : Bool
  headers : Headers
  content : Option Record
deriving DecidableEq, Repr

/-- The system blocks (00_scope.md 1.5). -/
inductive Block where
  | settings | load | route
deriving DecidableEq, Repr

/-- An entry of the write queue (R32): a record by stop, a block, a release by slot. -/
inductive Key where
  | record (stop : Nat)
  | block (b : Block)
  | release (slot : Nat)
deriving DecidableEq, Repr

/-- Entries of the queue that something waits for; `flying` when one of them is in flight (R32). -/
structure Waiter where
  keys : List Key
  flying : Bool
deriving DecidableEq, Repr

/-- The correction capture set (R39): slot and byte offset. -/
structure Captures where
  latest : Option (Nat × Nat)
  first : List (Nat × Nat)
deriving DecidableEq, Repr

/-- The failed marks of the blocks (R46). -/
structure FailedMarks where
  settings : Bool
  load : Bool
  route : Bool
deriving DecidableEq, Repr

/-! ## Settings, load and route blocks (chapters 6, 8, 9) -/

/-- The part of a product record that a line latches (R98, R124). -/
structure TableEntry where
  name : List Byte
  price : Nat
  tax : Nat
  defined : Bool
deriving DecidableEq, Repr

/-- A product record (R124). -/
structure Product where
  entry : TableEntry
  alpha : Nat
  compOn : Bool
deriving DecidableEq, Repr

/-- The run settings (R166): s, min, s, cL, cL, ms. -/
structure RunSettings where
  noFlow : Nat
  autoClose : Nat
  deadman : Nat
  slowStart : Nat
  slowDown : Nat
  step : Nat
deriving DecidableEq, Repr

/-- The line items of the settings block (R155). -/
structure LineItems where
  pr : Option Nat
  hose : Option Nat
  antic : Nat
deriving DecidableEq, Repr

/-- The settings block (R155). `sets` holds the six calibration sets of each line, by product. -/
structure Settings where
  lines : Pair LineItems
  sets : Pair (List (Option CalSet))
  products : List Product
  caps : List Nat
  run : RunSettings
  attnHigh : Bool
  calCount : Nat
  countLost : Bool
  session : Bool
  calLost : Bool
deriving DecidableEq, Repr

/-- A line's latched copy of the non-sealed settings (R98). -/
structure Latched where
  run : RunSettings
  table : List TableEntry
deriving DecidableEq, Repr

/-- A compartment's account (R127). -/
structure Comp where
  product : Option Nat
  loaded : Nat
  drawn : Nat
deriving DecidableEq, Repr

/-- The load block (chapter 6). -/
structure LoadBlock where
  comps : List Comp
  hoses : Pair HoseContent
  lastApplied : Nat
deriving DecidableEq, Repr

/-- One product's route totals (R169). -/
structure Totals where
  tickets : Nat
  net : Nat
  amount : Nat
  tax : Nat
  drawn : Nat
  primed : Nat
deriving DecidableEq, Repr

/-- The route block (R169). -/
structure RouteBlock where
  isOpen : Bool
  number : Option Nat
  openTime : Option DateTime
  totals : List Totals
  counterCopy : Nat
  lastApplied : Nat
deriving DecidableEq, Repr

/-- The image of a block as a block write carries it (R33, R46). -/
inductive BlockImage where
  | settings (b : Settings)
  | load (b : LoadBlock)
  | route (b : RouteBlock)
deriving DecidableEq, Repr

/-- A block as its area holds it: its items, and its own check word (R50), which for the settings block is the fingerprint (R155). -/
structure Stored (α : Type) where
  block : α
  check : Nat
deriving DecidableEq, Repr

end Sys2Proof.Machine

namespace Sys2Proof

/-- Free value: the check word over a whole block (R50), for the settings block its fingerprint (R155); the spec gives no computation of it (log 24). -/
opaque Config.checkWord : Machine.BlockImage → Nat

end Sys2Proof

namespace Sys2Proof.Machine

/-- How a record entry is made (R35, R36, R41). -/
inductive WriteKind where
  | inPlace | relocation | move
deriving DecidableEq, Repr

/-- A record write in flight: the record's stop, its image as it stood when the write began, the slot being written, and how it is made. -/
structure SlotWrite where
  stop : Nat
  image : Record
  target : Nat
  kind : WriteKind
deriving DecidableEq, Repr

/-- The operation in flight (R33). -/
inductive Flight where
  | record (w : SlotWrite)
  | block (image : BlockImage) (second : Bool)
  | release (slot : Nat)
  | patrol (slot : Nat)
deriving DecidableEq, Repr

/-! ## Meter lines and delivery controllers (chapters 3, 4, 5) -/

/-- Period measurement (R68), with the µs since the reference edge. -/
inductive Period where
  | seekDiscard
  | discard (us : Nat)
  | seek
  | measure (us : Nat)
deriving DecidableEq, Repr

/-- Temperature status of a batch (R59). -/
inductive TempStatus where
  | fresh | held | none
deriving DecidableEq, Repr

/-- State of a meter line (R54). The signed edge sum of the window batch is `batchFwd` less `batchRev`. -/
structure Meter where
  levelA : Bool
  levelB : Bool
  batchFwd : Nat
  batchRev : Nat
  batchGated : Nat
  fwdTotal : Nat
  revTotal : Nat
  runGated : Nat
  phaseErrors : Nat
  quiet : Nat
  creep : Nat
  latchCreep : Bool
  latchPulser : Bool
  period : Period
  rate : Nat
  band : Nat
  sample : Option Reading
  lastValid : Option Int
deriving DecidableEq, Repr

/-- Line state (R93). -/
inductive LineState where
  | setup | idle | armed | flowing | stopping | settling | paused | fault
deriving DecidableEq, Repr

/-- Run kind (R93). -/
inductive RunKind where
  | order | prime | prove
deriving DecidableEq, Repr

/-- Pause cause (R93). -/
inductive PauseCause where
  | driver | noFlow | dropEnd | interlock | air | reverse | deadman | ignition | power | pulser | store
deriving DecidableEq, Repr

/-- Stop intent (R93). -/
inductive StopIntent where
  | limit | enddrop | close | pause | noFlow | store
deriving DecidableEq, Repr

/-- Cut cause (R93). -/
inductive CutCause where
  | interlock | air | deadman | reverse | ignition | pulser
deriving DecidableEq, Repr

/-- Drop limit in cL of net, or UNLIMITED (R93, R100). -/
inductive Limit where
  | unlimited
  | cl (v : Int)
deriving DecidableEq, Repr

/-- Result of a PROVE run (R122). -/
structure ProveResult where
  raw : Int
  nominal : Nat
  temp : Option Int
deriving DecidableEq, Repr

/-- A line's timers: stopped, or the µs left (R93). -/
structure Timers where
  window : Option Nat
  step : Option Nat
  settle : Option Nat
  noFlow : Option Nat
  deadman : Option Nat
  autoClose : Option Nat
  checkpoint : Option Nat
deriving DecidableEq, Repr

/-- Every timer stopped. -/
def Timers.stopped : Timers := ⟨none, none, none, none, none, none, none⟩

/-- The line context of a delivery controller (R93) with its run accumulators (R76). -/
structure LineCtx where
  st : LineState
  kind : Option RunKind
  bound : Option Nat
  cause : Option PauseCause
  intent : Option StopIntent
  cut : Option CutCause
  limit : Option Limit
  slowBase : Nat
  stopNet : Option Nat
  lowAlone : Bool
  cmdLow : Bool
  cmdHigh : Bool
  latched : Option Latched
  antic : Nat
  runFlags : RunFlags
  timers : Timers
  prove : Option ProveResult
  grossRem : Nat
  netRem : Nat
  reverse : Nat
  lastVcf : Option Nat
  runGross : Option Nat
  runNet : Option Nat
  lastTemp : Option Int
  lastStatus : Option TempStatus
  reserved : Bool
  held : Option EndCause
  endWaits : List Waiter
deriving DecidableEq, Repr

/-- The pump binding when BOUND: its compartment and the lines that draw on it (R134). -/
structure PumpBinding where
  comp : Nat
  lines : Pair Bool
deriving DecidableEq, Repr

/-! ## Inputs, power, clock and link (chapters 7, 10, 11) -/

/-- Levels of the field inputs. -/
structure Inputs where
  permit : Bool
  ignition : Bool
  deadman : Bool
  air : Pair Bool
  sealOpen : Bool
  powerFail : Bool
deriving DecidableEq, Repr

/-- Power mode (R183, R187). -/
inductive PowerMode where
  | run | sleep
deriving DecidableEq, Repr

/-- Why a flush runs: POWER-FAIL, with what a restart already asked for will read, or a link reset, with what its restart will read (R178, R182, log 22, log 23). -/
inductive FlushKind where
  | powerFail (next : Option RestartReads)
  | linkReset (reads : RestartReads)
deriving DecidableEq, Repr

/-- A flush in progress: µs since the assertion, the deadlines that have passed (R179), and whether it stopped a restart, so that it completes the operation in flight and begins no other (R181). -/
structure Flush where
  kind : FlushKind
  elapsed : Nat
  blocksPast : Bool
  slotsPast : Bool
  only : Bool
deriving DecidableEq, Repr

/-- Whether the part works, is on the restart path with its first nine steps taken and the last to come (R181, R183, log 44), flushes, or holds in reset (R178 to R182). -/
inductive Phase where
  | active
  | restart
  | flush (f : Flush)
  | hold
deriving DecidableEq, Repr

/-- Cause of a restart (R183). -/
inductive RestartCause where
  | powerOn | linkReset
deriving DecidableEq, Repr

/-- The reset cause record (R183). -/
structure ResetCause where
  cause : RestartCause
  loadApplied : Nat
  routeApplied : Nat
  restoredLines : Nat
deriving DecidableEq, Repr

/-- The clock (R186). -/
structure Clock where
  now : DateTime
  valid : Bool
deriving DecidableEq, Repr

/-- The receiver (R189): WAITING (`none`) or COLLECTING, the discarding of a waking character's line (R188), the µs since the last character, and the µs a break has lasted (R182). -/
structure Receiver where
  buf : Option (List Byte)
  discard : Bool
  gap : Nat
  brk : Option Nat
deriving DecidableEq, Repr

/-- The receiver WAITING and empty (R189). -/
def Receiver.waiting : Receiver := ⟨none, false, 0, none⟩

/-- One token of a reply: a number, a flag word, a product name, a date and time. -/
inductive Tok where
  | num (v : Int)
  | kw (k : Kw)
  | name (b : List Byte)
  | time (d : DateTime)
deriving DecidableEq, Repr

/-- Status of a reply line (R192). -/
inductive ReplyStatus where
  | ok
  | okMore
  | no (c : Code)
deriving DecidableEq, Repr

/-- A reply line (R192): the word answered, the status, the fields, and whether it ends the command in progress (R191). -/
structure ReplyLine where
  word : List Byte
  status : ReplyStatus
  fields : List Tok
  ends : Bool
deriving DecidableEq, Repr

/-- What the reply of the command in progress will carry: lines of tokens already decided, the slot counts as they stand when its writes have completed (R14, R23), or the outcome of a run that has yet to end (R111). -/
inductive Plan where
  | ready (segments : List (List Tok))
  | freeCount
  | freeRetired
  | awaitEnd (line : Line)
deriving DecidableEq, Repr

/-- The command in progress (R191). `sent` once its reply lines have gone to the transmitter. -/
structure InProgress where
  word : CmdWord
  plan : Plan
  waits : Waiter
  sent : Bool
deriving DecidableEq, Repr

/-- The rows that each take a moment of their own, so that two of one kind cannot come in one moment (log 5). -/
inductive TimeRow where
  | edge (l : Line) | overflow (l : Line) | quiet (l : Line) | sample (l : Line)
  | window (l : Line) | step (l : Line) | settle (l : Line) | noFlow (l : Line) | autoClose (l : Line) | checkpoint (l : Line)
  | lineGap | patrolIdle | clock
deriving DecidableEq, Repr

/-- A press of DEADMAN that may be of the present moment: the lines whose running timer it reloaded, and the rows of this moment taken since (R149, log 5). -/
structure PressMark where
  lines : Pair Bool
  seen : List TimeRow
deriving DecidableEq, Repr

/-- No press of DEADMAN is of the present moment. -/
def PressMark.none : PressMark := ⟨⟨false, false⟩, []⟩

/-- The state of the 2400. -/
structure State where
  pending : List Instr
  counter : Nat
  slots : List Slot
  queue : List Key
  flight : Option Flight
  unsaved : List Nat
  captures : Captures
  seq : Nat
  patrolCursor : Nat
  patrolIdle : Nat
  areaSettings : Option (Stored Settings)
  areaLoad : Option (Stored LoadBlock)
  areaRoute : Option (Stored RouteBlock)
  failed : FailedMarks
  settings : Settings
  load : LoadBlock
  route : RouteBlock
  meters : Pair Meter
  lines : Pair LineCtx
  pump : Option PumpBinding
  inputs : Inputs
  ignitionLow : Nat
  sleepDue : Bool
  clock : Clock
  mode : PowerMode
  phase : Phase
  resetCause : ResetCause
  rx : Receiver
  cmd : Option InProgress
  tx : List ReplyLine
  attention : Pair Bool
  press : PressMark
  fresh : Nat
deriving DecidableEq, Repr

/-- Why a step ends in a fault: the spec gives every row an effect, and what a rule refuses is answered in a reply, so there is no fault and nothing raises one. Safe. -/
inductive Fault : Type
deriving DecidableEq, Repr

/-- Why a step is refused. -/
inductive Refusal where
  /-- A command that has no meaning yet. Raised by a refused arm of exec only; none is left. Safe. -/
  | notModelled (mnemonic : String)
deriving DecidableEq, Repr

/-! ## Reset -/

/-- A header as it leaves the factory (R28). -/
def factoryHeader : Header := ⟨0, 0, .free⟩

/-- A slot as it leaves the factory (R28). -/
def Slot.factory : Slot :=
  { st := .free, program := 0, corr := 0, relocate := false, leaving := false
    headers := ⟨factoryHeader, factoryHeader, factoryHeader⟩, content := none }

/-- The settings a rebuilt settings block carries (table of R156, defaults of R166). -/
def Settings.default : Settings :=
  { lines := ⟨⟨none, none, 50⟩, ⟨none, none, 50⟩⟩
    sets := ⟨List.replicate 6 none, List.replicate 6 none⟩
    products := List.replicate 6 ⟨⟨[], 1, 0, false⟩, 0, false⟩
    caps := [0, 0, 0, 0]
    run := ⟨20, 15, 0, 300, 1000, 300⟩
    attnHigh := true, calCount := 0, countLost := true, session := false, calLost := true }

/-- The load block with its factory values (R127, R137). -/
def LoadBlock.factory : LoadBlock :=
  { comps := List.replicate 4 ⟨none, 0, 0⟩, hoses := ⟨.empty, .empty⟩, lastApplied := 0 }

/-- A product's totals at zero (R169). -/
def Totals.zero : Totals := ⟨0, 0, 0, 0, 0, 0⟩

/-- The route block with its factory values (R169). -/
def RouteBlock.factory : RouteBlock :=
  { isOpen := false, number := none, openTime := none, totals := List.replicate 6 .zero
    counterCopy := 0, lastApplied := 0 }

/-- A meter line after a restart (last column of R54), with the levels its decoder first sees. -/
def Meter.restart (levelA levelB : Bool) : Meter :=
  { levelA := levelA, levelB := levelB, batchFwd := 0, batchRev := 0, batchGated := 0
    fwdTotal := 0, revTotal := 0, runGated := 0, phaseErrors := 0, quiet := 1000000, creep := 0
    latchCreep := false, latchPulser := false, period := .seekDiscard, rate := 0, band := 1
    sample := none, lastValid := none }

/-- A line context at rest in a given state with a given working anticipation, nothing bound and nothing running (R94). The run gross and run net are absent (DESIGN CHOICE, log 57). -/
def LineCtx.atRest (st : LineState) (antic : Nat) : LineCtx :=
  { st := st, kind := none, bound := none, cause := none, intent := none, cut := none, limit := none
    slowBase := 0, stopNet := none, lowAlone := false, cmdLow := false, cmdHigh := false
    latched := none, antic := antic, runFlags := .empty, timers := .stopped, prove := none
    grossRem := 0, netRem := 0, reverse := 0, lastVcf := none, runGross := none, runNet := none
    lastTemp := none, lastStatus := none, reserved := false, held := none, endWaits := [] }

/-- Every field input at its inactive level (DESIGN CHOICE, log 2). -/
def Inputs.quiet : Inputs :=
  { permit := false, ignition := false, deadman := false, air := ⟨false, false⟩
    sealOpen := false, powerFail := false }

/-- The clock after a power-on restart (R197). -/
def Clock.powerOn : Clock := ⟨⟨2000, 1, 1, 0, 0, 0⟩, false⟩

/-- The machine right after reset: a factory part right after its first power-on restart (R28, R155, R156, R183; log 1, log 2, log 3). -/
def State.reset : State :=
  { pending := [], counter := 0, slots := List.replicate 80 .factory
    queue := [.block .load, .block .route]
    flight := some (.block (.settings .default) false)
    unsaved := [], captures := ⟨none, []⟩, seq := 1, patrolCursor := 1, patrolIdle := 0
    areaSettings := none, areaLoad := none, areaRoute := none, failed := ⟨true, true, true⟩
    settings := .default, load := .factory, route := .factory
    meters := ⟨.restart false false, .restart false false⟩
    lines := ⟨.atRest .setup 50, .atRest .setup 50⟩
    pump := none, inputs := .quiet, ignitionLow := 0, sleepDue := false
    clock := .powerOn, mode := .run, phase := .active, resetCause := ⟨.powerOn, 0, 0, 0⟩
    rx := .waiting, cmd := none, tx := [], attention := ⟨false, false⟩, press := .none
    fresh := 0 }

end Sys2Proof.Machine
end

