-- ==== Sys2Proof/Machine/Arith.lean ====
section
/-! DEFINITION. Integer arithmetic of 00_scope.md 1.7, saturation and clamping, the calendar of R197, and updates of lists and of pairs of lines. -/

namespace Sys2Proof

/-- The value of one line. -/
def Pair.get {α : Type} (p : Pair α) (l : Line) : α :=
  match l with
  | .one => p.one
  | .two => p.two

/-- The pair with one line's value replaced. -/
def Pair.set {α : Type} (p : Pair α) (l : Line) (x : α) : Pair α :=
  match l with
  | .one => { p with one := x }
  | .two => { p with two := x }

/-- The pair with one line's value changed. -/
def Pair.modify {α : Type} (p : Pair α) (l : Line) (f : α → α) : Pair α :=
  p.set l (f (p.get l))

/-- Both lines' values changed. -/
def Pair.map {α β : Type} (p : Pair α) (f : α → β) : Pair β := ⟨f p.one, f p.two⟩

/-- The number of a line. -/
def Line.num : Line → Nat
  | .one => 1
  | .two => 2

/-- The line with a number; a command's line field is 1 or 2 (R97). -/
def Line.ofNum (n : Nat) : Option Line :=
  if n = 1 then some .one else if n = 2 then some .two else none

/-- The other line. -/
def Line.other : Line → Line
  | .one => .two
  | .two => .one

namespace Machine

/-- rhu(num / den): to the nearest integer, a half rounded up (1.7). -/
def rhu (num den : Nat) : Nat := (2 * num + den) / (2 * den)

/-- x / den rounded half away from zero (1.7). -/
def halfAway (x : Int) (den : Nat) : Int :=
  if x < 0 then -((rhu x.natAbs den : Nat) : Int) else ((rhu x.natAbs den : Nat) : Int)

/-- Addition that saturates at a greatest value. -/
def satAdd (top a b : Nat) : Nat := min top (a + b)

/-- The nearest bound of lo to hi where x lies outside it (1.7, clamped). -/
def clamp (lo hi : Nat) (x : Int) : Nat :=
  if x < lo then lo else if (hi : Int) < x then hi else x.toNat

/-- µL floored to whole cL (R83). -/
def floorCl (microlitres : Nat) : Nat := microlitres / 10000

/-- lo ≤ x ≤ hi. -/
def within (lo hi x : Nat) : Bool := decide (lo ≤ x) && decide (x ≤ hi)

/-- An optional value lies in its range where it is given. -/
def withinOpt (lo hi : Nat) : Option Nat → Bool
  | none => true
  | some x => within lo hi x

/-- An exact value held in a field of 0 to `top`: a free value past the range (log 11). -/
def inRange (top draw exact : Nat) : Nat :=
  if exact ≤ top then exact else Config.outOfRange draw exact % (top + 1)

/-- The list with its element at an index from 0 changed. -/
def modNth {α : Type} : List α → Nat → (α → α) → List α
  | [], _, _ => []
  | x :: xs, 0, f => f x :: xs
  | x :: xs, n + 1, f => x :: modNth xs n f

/-- The element numbered from 1. -/
def nth1 {α : Type} (xs : List α) (n : Nat) : Option α :=
  if n = 0 then none else xs[n - 1]?

/-- The list with its element numbered from 1 changed. -/
def modNth1 {α : Type} (xs : List α) (n : Nat) (f : α → α) : List α :=
  if n = 0 then xs else modNth xs (n - 1) f

/-- Insertion of a number into an ascending list. -/
def insertAsc (n : Nat) : List Nat → List Nat
  | [] => [n]
  | x :: xs => if n ≤ x then n :: x :: xs else x :: insertAsc n xs

/-- Numbers in ascending order. -/
def ascending : List Nat → List Nat
  | [] => []
  | x :: xs => insertAsc x (ascending xs)

/-- Sum of a list. -/
def sumNat (xs : List Nat) : Nat := xs.foldr (· + ·) 0

/-! ## Calendar (R186, R197) -/

/-- Leap years of 2000 to 2099: those divisible by 4. -/
def leapYear (y : Nat) : Bool := y % 4 == 0

/-- Days of a month. -/
def daysIn (y m : Nat) : Nat :=
  if m = 2 then (if leapYear y then 29 else 28)
  else if m = 4 ∨ m = 6 ∨ m = 9 ∨ m = 11 then 30 else 31

/-- A date and time that exists, in a year of 2000 to 2099 (R197). -/
def dateValid (d : DateTime) : Bool :=
  within 2000 2099 d.year && within 1 12 d.month && within 1 (daysIn d.year d.month) d.day
    && decide (d.hour ≤ 23) && decide (d.minute ≤ 59) && decide (d.second ≤ 59)

/-- The date and time of a 14-digit field (11.1). -/
def dateOfNum (v : Nat) : DateTime :=
  { year := v / 10000000000, month := v / 100000000 % 100, day := v / 1000000 % 100
    hour := v / 10000 % 100, minute := v / 100 % 100, second := v % 100 }

/-- The 14-digit field of a date and time (11.1). -/
def numOfDate (d : DateTime) : Nat :=
  d.year * 10000000000 + d.month * 100000000 + d.day * 1000000 + d.hour * 10000 + d.minute * 100 + d.second

/-- The date and time one second later (R186); a free value past 2099 (log 12). -/
def nextSecond (d : DateTime) : DateTime :=
  if d.second < 59 then { d with second := d.second + 1 }
  else if d.minute < 59 then { d with minute := d.minute + 1, second := 0 }
  else if d.hour < 23 then { d with hour := d.hour + 1, minute := 0, second := 0 }
  else if d.day < daysIn d.year d.month then { d with day := d.day + 1, hour := 0, minute := 0, second := 0 }
  else if d.month < 12 then { d with month := d.month + 1, day := 1, hour := 0, minute := 0, second := 0 }
  else if d.year < 2099 then ⟨d.year + 1, 1, 1, 0, 0, 0⟩
  else Config.clockAfterRange

end Machine

end Sys2Proof
end

