-- ==== Sys2Proof/Machine/Ops.lean ====
section
/-! DEFINITION. Accessors and named updates of the state: lines, meters, slots and records, the write queue and those who wait for it. -/

namespace Sys2Proof.Machine

/-! ## Lines -/

/-- The context of a line. -/
def State.line (s : State) (l : Line) : LineCtx := s.lines.get l

/-- The meter line of a line. -/
def State.meter (s : State) (l : Line) : Meter := s.meters.get l

/-- A line context changed. -/
def State.modLine (s : State) (l : Line) (f : LineCtx → LineCtx) : State :=
  { s with lines := s.lines.modify l f }

/-- A meter line changed. -/
def State.modMeter (s : State) (l : Line) (f : Meter → Meter) : State :=
  { s with meters := s.meters.modify l f }

/-- The settings image changed. -/
def State.modSettings (s : State) (f : Settings → Settings) : State :=
  { s with settings := f s.settings }

/-- The load image changed. -/
def State.modLoad (s : State) (f : LoadBlock → LoadBlock) : State :=
  { s with load := f s.load }

/-- The route image changed. -/
def State.modRoute (s : State) (f : RouteBlock → RouteBlock) : State :=
  { s with route := f s.route }

/-- The line items of the settings block. -/
def State.items (s : State) (l : Line) : LineItems := s.settings.lines.get l

/-- The states in which a line credits edges (R57). -/
def LineState.crediting : LineState → Bool
  | .flowing | .stopping | .settling => true
  | _ => false

/-- The states in which a line is at rest: IDLE, SETUP, FAULT (R171). -/
def LineState.resting : LineState → Bool
  | .idle | .setup | .fault => true
  | _ => false

/-- Some line credits (R187). -/
def State.anyCrediting (s : State) : Bool :=
  s.lines.one.st.crediting || s.lines.two.st.crediting

/-- A line's working anticipation (R93, R167): it follows the settings block in SETUP, IDLE and FAULT. -/
def State.workingAntic (s : State) (l : Line) : Nat :=
  if (s.line l).st.resting then (s.items l).antic else (s.line l).antic

/-- The settings as a line latches them (R98). -/
def Settings.latch (x : Settings) : Latched := ⟨x.run, x.products.map (·.entry)⟩

/-- The latched settings a line follows. -/
def State.latchedOf (s : State) (l : Line) : Latched :=
  ((s.line l).latched).getD s.settings.latch

/-- A product's table entry; the default entry of R156 for a number that names none. -/
def Latched.entry (x : Latched) (p : Nat) : TableEntry := (nth1 x.table p).getD ⟨[], 1, 0, false⟩

/-- A product record; the default record of R156 for a number that names none. -/
def Settings.product (x : Settings) (p : Nat) : Product := (nth1 x.products p).getD ⟨⟨[], 1, 0, false⟩, 0, false⟩

/-- The calibration set of a line and product (R155). -/
def Settings.calSet (x : Settings) (l : Line) (p : Nat) : Option CalSet := ((nth1 (x.sets.get l) p).join)

/-- Some calibration set is present for a line. -/
def Settings.anySet (x : Settings) (l : Line) : Bool := (x.sets.get l).any (·.isSome)

/-- A compartment of the load block. -/
def LoadBlock.comp (x : LoadBlock) (c : Nat) : Comp := (nth1 x.comps c).getD ⟨none, 0, 0⟩

/-- A compartment's remaining volume (R127). -/
def Comp.remaining (c : Comp) : Nat := c.loaded - c.drawn

/-- A compartment is overdrawn (R127). -/
def Comp.overdrawn (c : Comp) : Bool := decide (c.loaded < c.drawn)

/-- The pulser resolution a line works at; a free value of the stated range where it holds none (log 8). -/
def State.prOf (s : State) (l : Line) : Nat :=
  match (s.items l).pr with
  | some p => p
  | none => 40 + Config.absentPr l.num s.fresh % 3961

/-- The hose volume used at the end of a run; a free value of the stated range where the line holds none (log 10). -/
def State.hoseOf (s : State) (l : Line) : Nat :=
  match (s.items l).hose with
  | some h => h
  | none => Config.absentHose l.num s.fresh % 20001

/-! ## Slots and records (R1, R28 to R31) -/

/-- The record a slot is the home of. -/
def Slot.record? (x : Slot) : Option Record :=
  match x.st with
  | .inUse (.record r) => some r
  | .condemned r => some r
  | _ => none

/-- The slot is the home of the record with a stop. -/
def Slot.holds (stop : Nat) (x : Slot) : Bool :=
  match x.record? with
  | some r => r.stop == stop
  | none => false

/-- The slot is FREE. -/
def Slot.isFree (x : Slot) : Bool :=
  match x.st with
  | .free => true
  | _ => false

/-- The slot is IN USE. -/
def Slot.isInUse (x : Slot) : Bool :=
  match x.st with
  | .inUse _ => true
  | _ => false

/-- The slot is CONDEMNED. -/
def Slot.isCondemned (x : Slot) : Bool :=
  match x.st with
  | .condemned _ => true
  | _ => false

/-- The slot is RETIRED. -/
def Slot.isRetired (x : Slot) : Bool :=
  match x.st with
  | .retired => true
  | _ => false

/-- The slot is due for retirement (R35). -/
def Slot.due (x : Slot) : Bool := decide (100000 ≤ x.program) || decide (2 ≤ x.corr)

/-- The slot's record changed, where it is the home of the record with a stop. -/
def Slot.modRecord (stop : Nat) (f : Record → Record) (x : Slot) : Slot :=
  match x.st with
  | .inUse (.record r) => if r.stop = stop then { x with st := .inUse (.record (f r)) } else x
  | .condemned r => if r.stop = stop then { x with st := .condemned (f r) } else x
  | _ => x

/-- The value held by at least two of three header copies (R28). -/
def Headers.majority (h : Headers) : Option Header :=
  if h.first = h.second ∨ h.first = h.third then some h.first
  else if h.second = h.third then some h.second
  else none

/-- The condition a slot's header records durably; RETIRED where its three copies all differ (R28). -/
def Slot.headerCond (x : Slot) : HeaderCond := ((Headers.majority x.headers).map (·.cond)).getD .retired

/-- A header write: all three copies take the slot's counts and a condition (R28, R38). -/
def Slot.writeHeader (c : HeaderCond) (x : Slot) : Slot :=
  { x with headers := ⟨⟨x.program, x.corr, c⟩, ⟨x.program, x.corr, c⟩, ⟨x.program, x.corr, c⟩⟩ }

/-- The slot taken out of service, in condition and header (R28). -/
def Slot.retire (x : Slot) : Slot :=
  { x with st := .retired, relocate := false, leaving := false }.writeHeader .retired

/-- The slot made the CONDEMNED home of a record, its header already marked retired (R28, R43). -/
def Slot.condemn (r : Record) (x : Slot) : Slot :=
  { x with st := .condemned r, relocate := false }.writeHeader .retired

/-- The number, from `n` up, of the first slot that satisfies a test. -/
def findSlot (p : Slot → Bool) : List Slot → Nat → Option Nat
  | [], _ => none
  | x :: xs, n => if p x then some n else findSlot p xs (n + 1)

/-- The home slot of the record with a stop. -/
def State.homeOf (s : State) (stop : Nat) : Option Nat := findSlot (Slot.holds stop) s.slots 1

/-- The live record, not DAMAGED, that carries a stop, in slots. -/
def recordIn (stop : Nat) : List Slot → Option Record
  | [] => none
  | x :: xs =>
    match x.record? with
    | some r => if r.stop = stop then some r else recordIn stop xs
    | none => recordIn stop xs

/-- The live record, not DAMAGED, that carries a stop (R1). -/
def State.recOf (s : State) (stop : Nat) : Option Record := recordIn stop s.slots

/-- Every live record that is not DAMAGED, in slot order. -/
def State.records (s : State) : List Record := s.slots.filterMap Slot.record?

/-- A slot by its number. -/
def State.slot (s : State) (n : Nat) : Option Slot := nth1 s.slots n

/-- A slot changed. -/
def State.modSlot (s : State) (n : Nat) (f : Slot → Slot) : State :=
  { s with slots := modNth1 s.slots n f }

/-- A record's image changed; its store write is queued by its rule, not here. -/
def State.modRec (s : State) (stop : Nat) (f : Record → Record) : State :=
  { s with slots := s.slots.map (Slot.modRecord stop f) }

/-- The record's image is unsaved (R43). -/
def State.isUnsaved (s : State) (stop : Nat) : Bool := s.unsaved.contains stop

/-- Count of slots that satisfy a test. -/
def State.countSlots (s : State) (p : Slot → Bool) : Nat := s.slots.countP p

/-- The slot a record write in flight is being made to (R33). -/
def State.flightTarget (s : State) : Option Nat :=
  match s.flight with
  | some (.record w) => some w.target
  | _ => none

/-- The FREE slot of lowest program count, then lowest number, other than `except` (R31). -/
def bestFree (except : Option Nat) : List Slot → Nat → Option (Nat × Nat) → Option Nat
  | [], _, best => best.map (·.2)
  | x :: xs, n, best =>
    if x.isFree ∧ except ≠ some n then
      match best with
      | none => bestFree except xs (n + 1) (some (x.program, n))
      | some (p, m) =>
        if x.program < p then bestFree except xs (n + 1) (some (x.program, n))
        else bestFree except xs (n + 1) (some (p, m))
    else bestFree except xs (n + 1) best

/-- The slot R31 allocates, other than `except`. -/
def State.allocate (s : State) (except : Option Nat) : Option Nat := bestFree except s.slots 1 none

/-! ## The moment of a press of DEADMAN (R149) -/

/-- A row of a kind comes: the press may still be of its moment where this is the first of that kind since, and is past with a second one (R149, log 5). -/
def PressMark.row (k : TimeRow) (m : PressMark) : PressMark :=
  if (m.lines.one || m.lines.two) && !m.seen.contains k then { m with seen := k :: m.seen } else .none

/-- A row of a kind that takes a moment of its own has come (R149, log 5). -/
def State.timeRow (s : State) (k : TimeRow) : State := { s with press := s.press.row k }

/-! ## The write queue (R32, R34) -/

/-- An entry asked for: none is added where it already waits (R32). -/
def State.enqueue (s : State) (k : Key) : State :=
  if s.queue.contains k then s else { s with queue := s.queue ++ [k] }

/-- A block entry moved to, or added at, the tail (R34). -/
def State.requeue (s : State) (k : Key) : State := { s with queue := s.queue.erase k ++ [k] }

/-- A record's image changed and its store write queued (R2). -/
def State.changeRec (s : State) (stop : Nat) (f : Record → Record) : State :=
  (s.modRec stop f).enqueue (.record stop)

/-- A waiter for entries, none in flight. -/
def Waiter.on (keys : List Key) : Waiter := ⟨keys, false⟩

/-- The waiter when an entry's operation begins. -/
def Waiter.begun (k : Key) (w : Waiter) : Waiter :=
  if w.keys.contains k then ⟨w.keys.filter (· != k), true⟩ else w

/-- The waiter when the operation in flight completes. -/
def Waiter.landed (w : Waiter) : Waiter := ⟨w.keys, false⟩

/-- The waiter when an entry takes another name (a release whose slot has changed, log 18). -/
def Waiter.rename (old new : Key) (w : Waiter) : Waiter :=
  ⟨w.keys.map (fun k => if k = old then new else k), w.flying⟩

/-- Every entry waited for has completed. -/
def Waiter.over (w : Waiter) : Bool := w.keys.isEmpty && !w.flying

/-- Every waiter of the state changed: the command in progress and the run ends of both lines. -/
def State.mapWaiters (s : State) (f : Waiter → Waiter) : State :=
  { s with
    cmd := s.cmd.map (fun c => { c with waits := f c.waits })
    lines := s.lines.map (fun c => { c with endWaits := c.endWaits.map f }) }

/-- One more free value drawn, where a condition says one was (log 8 to log 13). -/
def State.drew (s : State) (b : Bool) : State := if b then { s with fresh := s.fresh + 1 } else s

end Sys2Proof.Machine
end

