-- ==== Sys2Proof/Machine/Flags.lean ====
section
/-! DEFINITION. Conditions and outputs computed from the state: store trouble, the attention set and ATTN, valve stages, outlets and PUMP, fault kinds, and the run flags. -/

namespace Sys2Proof.Machine

/-- The part works: no restart, no flush, no hold in reset. -/
def State.isActive (s : State) : Bool :=
  match s.phase with
  | .active => true
  | _ => false

/-- The part works, or is on the restart path with its first nine steps taken: no flush, no hold in reset (R183, log 44). -/
def State.isUp (s : State) : Bool :=
  match s.phase with
  | .active => true
  | .restart => true
  | _ => false

/-- Store trouble (R45): an unsaved image, or a block marked failed. -/
def State.storeTrouble (s : State) : Bool :=
  !s.unsaved.isEmpty || s.failed.settings || s.failed.load || s.failed.route

/-- A word, where a condition holds. -/
def wordIf (b : Bool) (k : Kw) : List Kw := if b then [k] else []

/-- The attention set in the order of R195; STORE, SETTINGS and CLOCK follow their conditions (R193). -/
def State.attentionSet (s : State) : List Kw :=
  wordIf s.attention.one .LINE1 ++ wordIf s.attention.two .LINE2 ++ wordIf s.storeTrouble .STORE
    ++ wordIf s.settings.calLost .SETTINGS ++ wordIf (!s.clock.valid) .CLOCK

/-- ATTN is active: the set holds an item, and no flush or hold runs (R178, R183, R194). -/
def State.attnActive (s : State) : Bool := s.isUp && !s.attentionSet.isEmpty

/-- ATTN output is at the high level (R167, R194). -/
def State.attnOut (s : State) : Bool := s.attnActive == s.settings.attnHigh

/-- A line's attention item is added (R193). -/
def State.setAttention (s : State) (l : Line) : State := { s with attention := s.attention.set l true }

/-- PERMIT asserted and IGNITION high. -/
def State.interlock (s : State) : Bool := s.inputs.permit && s.inputs.ignition

/-- The inputs and the power let outputs come on (R96, R136, R178, R182, R183). -/
def State.outputsEnabled (s : State) : Bool := s.interlock && !s.inputs.powerFail && s.isActive

/-- LOW stage output (R96). -/
def State.outLow (s : State) (l : Line) : Bool :=
  s.outputsEnabled && (s.line l).cmdLow
    && ((s.line l).st == .flowing || (s.line l).st == .stopping)

/-- HIGH stage output (R96). -/
def State.outHigh (s : State) (l : Line) : Bool :=
  s.outputsEnabled && (s.line l).cmdHigh && (s.line l).st == .flowing

/-- A line draws on the pump (R136). -/
def LineState.drawing : LineState → Bool
  | .flowing | .stopping => true
  | _ => false

/-- PUMP output (R136). -/
def State.outPump (s : State) : Bool :=
  s.outputsEnabled && s.mode == .run && (s.lines.one.st.drawing || s.lines.two.st.drawing)

/-- Output of a compartment's outlet (R136, R183). -/
def State.outOutlet (s : State) (c : Nat) : Bool :=
  !s.inputs.powerFail && s.isUp && s.mode == .run
    && (match s.pump with
        | some b => b.comp == c
        | none => false)

/-- A fault is latched (R54). -/
def Meter.latched (m : Meter) : Bool := m.latchCreep || m.latchPulser

/-- The kinds latched (R54, R66). -/
def Meter.faultKinds (m : Meter) : List Kw := wordIf m.latchCreep .CREEP ++ wordIf m.latchPulser .PULSER

/-- The quiet timer has expired (R63). -/
def Meter.isQuiet (m : Meter) : Bool := decide (1000000 ≤ m.quiet)

/-- Flag words in the order of R7. -/
def RunFlags.words (f : RunFlags) : List Kw :=
  wordIf f.tempHeld .TEMP_HELD ++ wordIf f.tempNone .TEMP_NONE ++ wordIf f.grossOnly .GROSS_ONLY
    ++ wordIf f.reverseDeducted .REVERSE_DEDUCTED ++ wordIf f.restoredCheckpoint .RESTORED_CHECKPOINT
    ++ wordIf f.airGated .AIR_GATED ++ wordIf f.overdrawn .OVERDRAWN ++ wordIf f.timeUnknown .TIME_UNKNOWN

/-- The flags a batch calls for (R74, R81): its status, whether its edge sum is above 0, whether it converted edges without compensation. -/
def RunFlags.batch (status : TempStatus) (positive uncompensated : Bool) (f : RunFlags) : RunFlags :=
  { f with
    tempHeld := f.tempHeld || (positive && status == .held)
    tempNone := f.tempNone || (positive && status == .none)
    grossOnly := f.grossOnly || uncompensated }

/-- The drop is ACTIVE. -/
def Drop.isActive (d : Drop) : Bool :=
  match d.st with
  | .active _ => true
  | _ => false

/-- The drop is PENDING. -/
def Drop.isPending (d : Drop) : Bool :=
  match d.st with
  | .pending => true
  | _ => false

/-- The drop is DONE. -/
def Drop.isDone (d : Drop) : Bool :=
  match d.st with
  | .done _ _ _ _ => true
  | _ => false

/-- Air-gated count of a drop (R4). -/
def Drop.gated (d : Drop) : Nat :=
  match d.st with
  | .active a => a.gated
  | .done a _ _ _ => a.gated
  | _ => 0

/-- Ticketed net of a DONE drop (R4), 0 for any other. -/
def Drop.tNet (d : Drop) : Nat :=
  match d.st with
  | .done _ _ n _ => n
  | _ => 0

/-- Ticketed gross of a DONE drop (R4), 0 for any other. -/
def Drop.tGross (d : Drop) : Nat :=
  match d.st with
  | .done _ g _ _ => g
  | _ => 0

/-- Floored live net of an ACTIVE drop (R83), 0 for any other. -/
def Drop.live (d : Drop) : Nat :=
  match d.st with
  | .active a => floorCl a.net
  | _ => 0

/-- Number and entry of the first drop that satisfies a test, numbered from `n`. -/
def findDrop (p : Drop → Bool) : List Drop → Nat → Option (Nat × Drop)
  | [], _ => none
  | d :: ds, n => if p d then some (n, d) else findDrop p ds (n + 1)

/-- The ACTIVE drop of a record (R4). -/
def Record.active (r : Record) : Option (Nat × Drop) := findDrop Drop.isActive r.drops 1

/-- The first PENDING drop of a record. -/
def Record.firstPending (r : Record) : Option (Nat × Drop) := findDrop Drop.isPending r.drops 1

/-- Every drop of the record is PENDING (R99). -/
def Record.allPending (r : Record) : Bool := r.drops.all Drop.isPending

/-- Sum of the ticketed nets of the DONE drops (R100). -/
def Record.doneNet (r : Record) : Nat := sumNat (r.drops.map Drop.tNet)

/-- Sum of the ticketed gross of the DONE drops (R5). -/
def Record.doneGross (r : Record) : Nat := sumNat (r.drops.map Drop.tGross)

/-- Floored live net of the ACTIVE drop. -/
def Record.liveNet (r : Record) : Nat := sumNat (r.drops.map Drop.live)

/-- The record's ACTIVE drop changed. -/
def Record.modActive (r : Record) (f : Acc → Acc) : Record :=
  { r with
    drops := r.drops.map (fun d =>
      match d.st with
      | .active a => { d with st := .active (f a) }
      | _ => d) }

/-- The record bound to a line (R93). -/
def State.boundRec (s : State) (l : Line) : Option Record := (s.line l).bound.bind s.recOf

/-- The run flags of a line: in the record's image for an ORDER run, else in the line context (R93). -/
def State.runFlags (s : State) (l : Line) : RunFlags :=
  match s.boundRec l with
  | some r => r.flags
  | none => (s.line l).runFlags

/-- The live net of a line's run in cL (R83). -/
def State.liveNet (s : State) (l : Line) : Nat :=
  match (s.line l).kind with
  | some .order => ((s.boundRec l).map Record.liveNet).getD 0
  | some _ => floorCl ((s.line l).runNet.getD 0)
  | none => 0

/-- The limit less the live net (R100). -/
def Limit.less (x : Limit) (live : Nat) : Limit :=
  match x with
  | .unlimited => .unlimited
  | .cl v => .cl (v - (live : Int))

/-- The remaining volume of a line's run (R100, R121); UNLIMITED where no limit is held. -/
def State.remaining (s : State) (l : Line) : Limit := ((s.line l).limit.getD .unlimited).less (s.liveNet l)

/-- A remaining volume at or below a figure; UNLIMITED is above every figure (R100). -/
def Limit.atMost (x : Limit) (n : Nat) : Bool :=
  match x with
  | .unlimited => false
  | .cl v => decide (v ≤ (n : Int))

/-- The bound record of a line is unsaved (R119). -/
def State.boundIsUnsaved (s : State) (l : Line) : Bool :=
  match (s.line l).bound with
  | some n => s.isUnsaved n
  | none => false

/-- A restored record: its restored marker becomes CHECKPOINT (R118). -/
def Record.checkpointed (r : Record) : Record := { r with restored := .checkpoint }

end Sys2Proof.Machine
end

