-- ==== Sys2Proof/Machine/Money.lean ====
section
/-! DEFINITION. The volume unit and the money of chapter 4: conversion of batches (R78 to R82), prices (R88), the amount cap (R90, R91), the drop limit (R100), the reverse deduction (R84, R85) and ticket lines (R86, R87). -/

namespace Sys2Proof.Machine

/-! ## Conversion -/

/-- First stage (R78): a batch's edges settled against the reverse balance; the new balance and the credited count. -/
def settleReverse (balance fwd rev : Nat) : Nat × Nat :=
  if fwd < rev then (satAdd 4294967295 balance (rev - fwd), 0)
  else (balance - min (fwd - rev) balance, (fwd - rev) - min (fwd - rev) balance)

/-- Second stage (R80): gross increment in µL and the new gross remainder. -/
def grossStage (pr mf remainder n : Nat) : Nat × Nat :=
  if n = 0 then (0, remainder) else ((remainder + n * mf * 10) / pr, (remainder + n * mf * 10) % pr)

/-- Third stage (R81): the VCF of a temperature in centi-degrees. -/
def vcfOf (alpha : Nat) (compOn : Bool) (t : Int) : Nat :=
  if compOn then (1000000 - halfAway ((alpha : Int) * (t - 1500)) 100).toNat else 1000000

/-- Fourth stage (R82): net increment in µL and the new net remainder. -/
def netStage (vcf remainder g : Nat) : Nat × Nat :=
  ((remainder + g * vcf) / 1000000, (remainder + g * vcf) % 1000000)

/-- Band of a rate in bounds, from band `n` on (R71). -/
def bandIn : List (Nat × Nat) → Nat → Nat → Nat
  | [], _, n => n
  | (u, _) :: xs, rate, n => if rate ≤ u then n else bandIn xs rate (n + 1)

/-- The band a calibration set gives a rate (R71). -/
def bandOfSet (x : CalSet) (rate : Nat) : Nat := bandIn x.upper rate 1

/-- The meter factor of a band (R71, R77). -/
def factorIn (x : CalSet) (band : Nat) : Nat :=
  match nth1 x.upper band with
  | some (_, mf) => mf
  | none => x.last

/-- Rate in dL/min of a completed period of P µs (R70). -/
def rateOf (pr period : Nat) : Nat := 2400000000 / (pr * period)

/-! ## Prices -/

/-- Amount of a line in cents (R88). -/
def amountOf (net price : Nat) : Nat := rhu (net * price) 1000

/-- Tax of an amount (R88). -/
def taxOf (amount bp : Nat) : Nat := rhu (amount * bp) 10000

/-- Single-line total of a volume (R90). -/
def lineTotal (v price bp : Nat) : Nat := amountOf v price + taxOf (amountOf v price) bp

/-- The amount cap of a record (R90). -/
def Record.amountCap (r : Record) : Option Nat :=
  match (if r.kind = .amount then r.preset else none), r.credit with
  | some a, some b => some (min a b)
  | some a, none => some a
  | none, c => c

/-- Bit by bit from bit `k`, the largest volume not above 2,000,000 cL whose total is within the cap. -/
def vmaxFrom (price bp cap : Nat) : Nat → Nat → Nat
  | 0, v => v
  | k + 1, v =>
    if v + 2 ^ k ≤ 2000000 ∧ lineTotal (v + 2 ^ k) price bp ≤ cap then vmaxFrom price bp cap k (v + 2 ^ k)
    else vmaxFrom price bp cap k v

/-- The volume cap Vmax (R91). -/
def vmax (price bp cap : Nat) : Nat := vmaxFrom price bp cap 21 0

/-! ## Drop limit (R100) -/

/-- The lesser of two terms, taking those present. -/
def lesser : Option Int → Option Int → Option Int
  | some a, some b => some (min a b)
  | some a, none => some a
  | none, b => b

/-- The volume term of R100. -/
def Record.volumeTerm (r : Record) : Option Int :=
  if r.kind = .volume then r.preset.map (fun p => (p : Int) - (r.doneNet : Int)) else none

/-- The amount term of R100, at a price and a tax rate. -/
def Record.amountTerm (r : Record) (price bp : Nat) : Option Int :=
  r.amountCap.map (fun cap => (vmax price bp cap : Int) - (r.doneNet : Int))

/-- The drop limit of a drop of a record, at a price and a tax rate (R100). -/
def Record.limitOf (r : Record) (d : Drop) (price bp : Nat) : Limit :=
  match lesser (lesser (d.preset.map Int.ofNat) (d.cap.map Int.ofNat))
      (lesser r.volumeTerm (r.amountTerm price bp)) with
  | some v => .cl v
  | none => .unlimited

/-- The price of a record, or its product's in the line's latched settings (R15, R24, R100; that a ticket too bills the latter is log 73). -/
def State.priceOf (s : State) (l : Line) (r : Record) : Nat :=
  r.price.getD ((s.latchedOf l).entry r.product).price

/-- The tax rate of a record's product in the line's latched settings (R90). -/
def State.rateBp (s : State) (l : Line) (r : Record) : Nat := ((s.latchedOf l).entry r.product).tax

/-- The drop limit of a drop on a line (R100). -/
def State.dropLimit (s : State) (l : Line) (r : Record) (d : Drop) : Limit :=
  r.limitOf d (s.priceOf l r) (s.rateBp l r)

/-! ## Factors of a run (R77) -/

/-- The product whose calibration set a run names (R71, R77); none in a PROVE run. -/
def State.runProduct (s : State) (l : Line) : Option Nat :=
  match (s.line l).kind with
  | some .order => (s.boundRec l).map (·.product)
  | some .prime => s.pump.bind (fun b => (s.load.comp b.comp).product)
  | _ => none

/-- The calibration set of a run (R71). -/
def State.runSet (s : State) (l : Line) : Option CalSet := (s.runProduct l).bind (s.settings.calSet l)

/-- The meter factor of a band of a run (R77); a free value of the stated range where the set is absent (log 9). -/
def State.factorOf (s : State) (l : Line) (band : Nat) : Nat :=
  if (s.line l).kind = some .prove then 100000
  else
    match s.runSet l with
    | some x => factorIn x band
    | none => 95000 + Config.absentFactor l.num s.fresh % 10001

/-- The VCF of a run at a temperature (R77, R81). -/
def State.vcfAt (s : State) (l : Line) (t : Int) : Nat :=
  match s.runProduct l with
  | some p => vcfOf (s.settings.product p).alpha (s.settings.product p).compOn t
  | none => 1000000

/-- The run converts without compensation (R81); a PROVE run sets no flag for it. -/
def State.uncompensated (s : State) (l : Line) : Bool :=
  match s.runProduct l with
  | some p => !(s.settings.product p).compOn
  | none => false

/-- A conversion on a line draws a free value: it lacks a pulser resolution or a calibration set (log 8, log 9). -/
def State.lacksFactors (s : State) (l : Line) : Bool :=
  (s.items l).pr.isNone || ((s.line l).kind != some .prove && (s.runSet l).isNone)

/-- The band of a run at a rate (R71): 1 in a PROVE run and at rate 0; a free value of 1 to 5 where the set is absent (log 9). -/
def State.bandFor (s : State) (l : Line) (rate : Nat) : Nat :=
  if (s.line l).kind = some .prove ∨ rate = 0 then 1
  else
    match s.runSet l with
    | some x => bandOfSet x rate
    | none => 1 + Config.absentBand l.num rate % 5

/-! ## Temperature (R72 to R74) -/

/-- A sample's temperature where it is valid (R72). -/
def validTemp : Reading → Option Int
  | .temp t => if -4000 ≤ t ∧ t ≤ 6000 then some t else none
  | _ => none

/-- A sample replaces the latest sample, and where valid the last valid temperature (R72, R73). -/
def Meter.take (m : Meter) (r : Reading) : Meter :=
  { m with
    sample := some r
    lastValid :=
      match validTemp r with
      | some t => some t
      | none => m.lastValid }

/-- Temperature and status of a batch (R74). -/
def Meter.batchTemp (m : Meter) : Int × TempStatus :=
  match m.sample.bind validTemp with
  | some t => (t, .fresh)
  | none =>
    match m.lastValid with
    | some t => (t, .held)
    | none => (1500, .none)

/-! ## A batch taken (R58, R59, R78 to R82) -/

/-- Credited count of the batch a line would hand over now (R78). -/
def State.credited (s : State) (l : Line) : Nat :=
  (settleReverse (s.line l).reverse (s.meter l).batchFwd (s.meter l).batchRev).2

/-- The batch a line would hand over now reports a reverse excess (R79). -/
def State.excess (s : State) (l : Line) : Bool :=
  decide ((s.meter l).batchFwd < (s.meter l).batchRev)
    && decide (s.prOf l / 2 < (settleReverse (s.line l).reverse (s.meter l).batchFwd (s.meter l).batchRev).1)

/-- Gross increment of the batch a line would hand over now, with the new gross remainder (R80). -/
def State.batchGross (s : State) (l : Line) : Nat × Nat :=
  grossStage (s.prOf l) (s.factorOf l (s.meter l).band) (s.line l).grossRem (s.credited l)

/-- VCF of the batch a line would hand over now (R81). -/
def State.batchVcf (s : State) (l : Line) : Nat := s.vcfAt l (s.meter l).batchTemp.1

/-- Net increment of the batch a line would hand over now, with the new net remainder (R82). -/
def State.batchNet (s : State) (l : Line) : Nat × Nat :=
  netStage (s.batchVcf l) (s.line l).netRem (s.batchGross l).1

/-- The flags the batch a line would hand over now calls for (R74, R81). -/
def State.batchFlags (s : State) (l : Line) (f : RunFlags) : RunFlags :=
  f.batch (s.meter l).batchTemp.2 (decide ((s.meter l).batchRev < (s.meter l).batchFwd))
    (decide (0 < s.credited l) && s.uncompensated l)

/-- A meter line after a handover (R58 to R60): the batch emptied, the run edge totals raised, and in a run without a record the run air-gated count. -/
def Meter.handedOver (m : Meter) (ownGated : Bool) : Meter :=
  { m with
    batchFwd := 0, batchRev := 0, batchGated := 0
    fwdTotal := satAdd 4294967295 m.fwdTotal m.batchFwd
    revTotal := satAdd 4294967295 m.revTotal m.batchRev
    runGated := if ownGated then satAdd 65535 m.runGated m.batchGated else m.runGated }

/-- A drop's accumulators after a batch (R60, R82). -/
def Acc.credit (gross net gated : Nat) (a : Acc) : Acc :=
  ⟨a.gross + gross, a.net + net, satAdd 65535 a.gated gated⟩

/-- The line context after a batch (R76, R78 to R82); run volumes only where the run has no record, and a run volume past its range is a free value (DESIGN CHOICE, log 11). -/
def State.batchCtx (s : State) (l : Line) (c : LineCtx) : LineCtx :=
  { c with
    reverse := (settleReverse c.reverse (s.meter l).batchFwd (s.meter l).batchRev).1
    grossRem := (s.batchGross l).2
    netRem := (s.batchNet l).2
    lastVcf := some (s.batchVcf l)
    lastTemp := some (s.meter l).batchTemp.1
    lastStatus := some (s.meter l).batchTemp.2
    runGross := c.runGross.map (fun g => inRange 999999999999 s.fresh (g + (s.batchGross l).1))
    runNet := c.runNet.map (fun g => inRange 999999999999 s.fresh (g + (s.batchNet l).1))
    runFlags := if c.kind = some .order then c.runFlags else s.batchFlags l c.runFlags }

/-- The batch gathered on a line is taken and converted (R58, R78 to R82). -/
def State.convert (s : State) (l : Line) : State :=
  let t := (s.modMeter l (fun m => m.handedOver ((s.line l).kind != some .order))).modLine l (s.batchCtx l)
  let u :=
    match (s.line l).kind, (s.line l).bound with
    | some .order, some stop =>
      t.modRec stop (fun r =>
        { r.modActive (Acc.credit (s.batchGross l).1 (s.batchNet l).1 (s.meter l).batchGated) with
          flags := s.batchFlags l r.flags })
    | _, _ => t
  u.drew (s.lacksFactors l)

/-! ## Reverse deduction (R84, R85) -/

/-- Gross deducted for a reverse balance at a meter factor (R84). -/
def grossSub (balance mf pr : Nat) : Nat := balance * mf * 10 / pr

/-- Net deducted for a gross (R84). -/
def netSub (gross vcf : Nat) : Nat := gross * vcf / 1000000

/-- The last DONE drop of a list changed (R84). -/
def modLastDone (f : Drop → Drop) : List Drop → List Drop
  | [] => []
  | d :: ds => if d.isDone && !(ds.any Drop.isDone) then f d :: ds else d :: modLastDone f ds

/-- A DONE drop lowered by a deduction, clamped at 0, its ticketed volumes floored again (R84). -/
def Drop.deduct (gross net : Nat) (d : Drop) : Drop :=
  match d.st with
  | .done a _ _ c =>
    { d with st := .done ⟨a.gross - gross, a.net - net, a.gated⟩ (floorCl (a.gross - gross)) (floorCl (a.net - net)) c }
  | _ => d

/-! ## Ticket lines (R86 to R89) -/

/-- A priced line (R88). -/
def priced (kind : TicketLineKind) (product : LineProduct) (gross : Option Nat) (net price bp : Nat) : TicketLine :=
  { kind := kind, product := product, gross := gross, net := net, price := price
    amount := amountOf net price, tax := taxOf (amountOf net price) bp }

/-- Product, price and tax rate of a changeover line (R87): the hose's content, the latched settings, the record's price, and its product's rate. An EMPTY hose, of which R87's table has no row, is billed as MIXED (DESIGN CHOICE, log 58). -/
def changeoverTerms (hose : HoseContent) (x : Latched) (price bp : Nat) : LineProduct × Nat × Nat :=
  match hose with
  | .product q => if (x.entry q).defined then (.product q, (x.entry q).price, (x.entry q).tax) else (.mixed, price, bp)
  | _ => (.mixed, price, bp)

/-- The DROP lines of the drops, the first lowered by the changeover net; lines of 0 cL are left out (R6, R86). -/
def dropLines (product price bp : Nat) : Nat → List Drop → List TicketLine
  | _, [] => []
  | changeover, d :: ds =>
    (if d.isDone ∧ d.tNet - changeover ≠ 0 then
        [priced (.drop d.tank) (.product product) (some d.tGross) (d.tNet - changeover) price bp]
      else [])
      ++ dropLines product price bp 0 ds

/-- The changeover net (R86): the lesser of the hose volume and drop 1's ticketed net, where purge is set. -/
def changeoverNet (purge : Bool) (hose : Nat) (drops : List Drop) : Nat :=
  if purge then min hose ((drops.head?.map Drop.tNet).getD 0) else 0

/-- The ticket lines of a record (R86, R87). -/
def ticketLines (r : Record) (purge : Bool) (hose : Nat) (content : HoseContent) (x : Latched) (price bp : Nat) :
    List TicketLine :=
  let net := changeoverNet purge hose r.drops
  let terms := changeoverTerms content x price bp
  (if net = 0 then [] else [priced .changeover terms.1 none net terms.2.1 terms.2.2])
    ++ dropLines r.product price bp net r.drops

end Sys2Proof.Machine
end

