-- ==== Sys2Proof/Machine/Control.lean ====
section
/-! DEFINITION. The delivery controller's shared operations (chapters 5 to 7, 9): the pump binding, entries to FLOWING, SETTLING, PAUSED and rest, stops and cuts, drops, tickets and their application, and the end of a run. -/

namespace Sys2Proof.Machine

/-! ## Pump arbiter (R134, R135) -/

/-- The pump arbiter would grant a compartment (R134). -/
def State.pumpGrants (s : State) (c : Nat) : Bool :=
  match s.pump with
  | none => true
  | some b => b.comp == c

/-- A line joins the binding (R134). -/
def State.joinPump (s : State) (l : Line) (c : Nat) : State :=
  match s.pump with
  | none => { s with pump := some ⟨c, (Pair.mk false false).set l true⟩ }
  | some b => { s with pump := some { b with lines := b.lines.set l true } }

/-- A line leaves the binding, which becomes UNBOUND when no line is left (R135). -/
def State.leavePump (s : State) (l : Line) : State :=
  match s.pump with
  | none => s
  | some b =>
    if ((b.lines.set l false).one || (b.lines.set l false).two) = true then
      { s with pump := some { b with lines := b.lines.set l false } }
    else { s with pump := none }

/-! ## Entries of line states -/

/-- A meter line at each entry to FLOWING from another state (R58, R69). -/
def Meter.forFlowing (m : Meter) : Meter :=
  { m with batchFwd := 0, batchRev := 0, batchGated := 0, period := .seekDiscard, rate := 0, band := 1 }

/-- A meter line when its line leaves SETTLING (R58, R69). -/
def Meter.leftSettling (m : Meter) : Meter :=
  { m with batchFwd := 0, batchRev := 0, batchGated := 0, period := .seekDiscard, rate := 0, band := 1 }

/-- A meter line when a run begins (R59 to R61, R64). -/
def Meter.forRun (m : Meter) (ownGated : Bool) : Meter :=
  { m with
    fwdTotal := 0, revTotal := 0, phaseErrors := 0, creep := 0
    runGated := if ownGated then 0 else m.runGated }

/-- A meter line with its phase-error and creep counts at 0 (R61, R64). -/
def Meter.cleared (m : Meter) : Meter := { m with phaseErrors := 0, creep := 0 }

/-- The line context on entry to FLOWING (R96, R101, R109, R115, R148). -/
def LineCtx.toFlowing (x : RunSettings) (base : Nat) (c : LineCtx) : LineCtx :=
  { c with
    st := .flowing, cause := none, intent := none, cut := none, stopNet := none, lowAlone := false
    cmdLow := true, cmdHigh := false, slowBase := base
    timers :=
      { window := some 100000, step := none, settle := none, noFlow := some (x.noFlow * 1000000)
        deadman := if x.deadman = 0 then none else some (x.deadman * 1000000)
        autoClose := none
        checkpoint := if c.kind = some .order then some 5000000 else none } }

/-- A line enters FLOWING with a slow-start base; its deadman timer is loaded, and by no press (R148, log 5). -/
def State.enterFlowing (s : State) (l : Line) (base : Nat) : State :=
  { (s.modMeter l Meter.forFlowing).modLine l (LineCtx.toFlowing (s.latchedOf l).run base) with
    press := { s.press with lines := s.press.lines.set l false } }

/-- The line context when a run of a kind begins (R76, R93). -/
def LineCtx.forRun (k : RunKind) (c : LineCtx) : LineCtx :=
  { c with
    kind := some k, runFlags := .empty, prove := none
    grossRem := 0, netRem := 0, reverse := 0, lastVcf := none
    runGross := if k = .order then none else some 0
    runNet := if k = .order then none else some 0
    lastTemp := none, lastStatus := none }

/-- A run of a kind begins on a line, at its first entry to FLOWING (R59, R61, R64, R76). -/
def State.beginRun (s : State) (l : Line) (k : RunKind) : State :=
  (s.modMeter l (fun m => m.forRun (k != .order))).modLine l (LineCtx.forRun k)

/-- The line context on entry to SETTLING (R96, R106, R143). -/
def LineCtx.toSettling (c : LineCtx) : LineCtx :=
  { c with
    st := .settling, cmdLow := false, cmdHigh := false
    timers := { c.timers with settle := some 2000000, step := none, noFlow := none, deadman := none } }

/-- A checkpoint write of the record bound to a line (R118). -/
def State.checkpoint (s : State) (l : Line) : State :=
  match (s.line l).bound with
  | some stop => s.changeRec stop Record.checkpointed
  | none => s

/-- The line context on entry to PAUSED (R93, R96, R114). -/
def LineCtx.toPaused (x : RunSettings) (cause : PauseCause) (c : LineCtx) : LineCtx :=
  { c with
    st := .paused, cause := some cause, intent := none, cut := none, stopNet := none, lowAlone := false
    cmdLow := false, cmdHigh := false
    timers := { Timers.stopped with autoClose := some (x.autoClose * 60000000) } }

/-- Entry to PAUSED with a cause (R114). -/
def State.enterPaused (s : State) (l : Line) (cause : PauseCause) : State :=
  ((s.modLine l (LineCtx.toPaused (s.latchedOf l).run cause)).checkpoint l).setAttention l

/-! ## Stops and cuts (R104, R106, R143) -/

/-- The line context when a stop begins (R104). -/
def LineCtx.stopped (x : RunSettings) (i : StopIntent) (live : Nat) (c : LineCtx) : LineCtx :=
  if c.cmdHigh then
    { c with
      intent := some i, stopNet := some live, lowAlone := false, st := .stopping, cmdHigh := false
      timers := { c.timers with step := some (x.step * 1000) } }
  else { c with intent := some i, stopNet := some live, lowAlone := (i == StopIntent.limit) }.toSettling

/-- A stop begins with an intent on a line in FLOWING (R104). -/
def State.beginStop (s : State) (l : Line) (i : StopIntent) : State :=
  s.modLine l (LineCtx.stopped (s.latchedOf l).run i (s.liveNet l))

/-- A cut cause recorded; a recorded PULSER stays (R104). -/
def LineCtx.recordCut (x : CutCause) (c : LineCtx) : LineCtx :=
  { c with cut := if c.cut = some .pulser then some .pulser else some x }

/-- An immediate cut in FLOWING or STOPPING; other states are not reached (R104, R143). -/
def LineCtx.cutNow (x : CutCause) (c : LineCtx) : LineCtx :=
  match c.st with
  | .flowing | .stopping => (c.recordCut x).toSettling
  | _ => c

/-- A cut that also records its cause in SETTLING (R62, R102, R144, R150). -/
def LineCtx.cutOrRecord (x : CutCause) (c : LineCtx) : LineCtx :=
  match c.st with
  | .flowing | .stopping => (c.recordCut x).toSettling
  | .settling => c.recordCut x
  | _ => c

/-- HIGH's command as R103 sets it. -/
def LineCtx.decideHigh (x : RunSettings) (live : Nat) (rem : Limit) (c : LineCtx) : LineCtx :=
  if rem.atMost x.slowDown then { c with cmdHigh := false }
  else if c.slowBase + x.slowStart ≤ live then { c with cmdHigh := true }
  else c

/-- The HIGH decision of a line (R103). -/
def State.decideHigh (s : State) (l : Line) : State :=
  s.modLine l (LineCtx.decideHigh (s.latchedOf l).run (s.liveNet l) (s.remaining l))

/-- The stage decisions in FLOWING from the remaining volume: a limit stop, or HIGH's command (R102 to R104, R120). The stop is judged first, with HIGH's command as it stands, at an amendment too (the model's reading, log 67). -/
def State.stageDecisions (s : State) (l : Line) : State :=
  if (s.remaining l).atMost (s.line l).antic then s.beginStop l .limit else s.decideHigh l

/-! ## Drops (R4, R108) -/

/-- A PENDING drop made ACTIVE with its accumulators at 0 (R4). -/
def Drop.activate (d : Drop) : Drop := { d with st := .active ⟨0, 0, 0⟩ }

/-- An ACTIVE drop made DONE with an end cause, its volumes floored (R4, R83, R108). -/
def Drop.finish (cause : EndCause) (d : Drop) : Drop :=
  match d.st with
  | .active a => { d with st := .done a (floorCl a.gross) (floorCl a.net) cause }
  | _ => d

/-- A drop back to PENDING (R17). -/
def Drop.reset (d : Drop) : Drop := { d with st := .pending }

/-- A PENDING drop made SKIPPED (R18). -/
def Drop.skip (d : Drop) : Drop :=
  match d.st with
  | .pending => { d with st := .skipped }
  | _ => d

/-- The ACTIVE drop of a line ends (R108); the drop limit, slow-start base and stop-began net are discarded. -/
def State.endDrop (s : State) (l : Line) (cause : EndCause) : State :=
  let t := s.modLine l (fun c => { c with limit := none, slowBase := 0, stopNet := none })
  match (s.line l).bound with
  | some stop => t.modRec stop (fun r => { r with drops := r.drops.map (Drop.finish cause) })
  | none => t

/-! ## Coming to rest (R112, R135) -/

/-- The line context at rest: run, record and stop removed, timers stopped, stages closed, accumulators discarded. The run volumes, the run flags of a run without a record and the PROVE result stay (R76, R93). -/
def LineCtx.rest (st : LineState) (c : LineCtx) : LineCtx :=
  { c with
    st := st, kind := none, bound := none, cause := none, intent := none, cut := none, limit := none
    slowBase := 0, stopNet := none, lowAlone := false, cmdLow := false, cmdHigh := false
    latched := none, timers := .stopped
    grossRem := 0, netRem := 0, reverse := 0, lastVcf := none, reserved := false, held := none }

/-- A line comes to rest in a state and leaves the pump binding (R135). -/
def State.toRest (s : State) (l : Line) (st : LineState) : State :=
  (s.modLine l (LineCtx.rest st)).leavePump l

/-- The state in which a run leaves its line (R66, R112). -/
def State.restState (s : State) (l : Line) : LineState :=
  if (s.meter l).latched then .fault else if s.settings.calLost then .setup else .idle

/-- A run ends on a line: it comes to rest, its counts cleared unless it enters FAULT (R57, R61, R64, R66, R112). -/
def State.restAfterRun (s : State) (l : Line) : State :=
  let st := s.restState l
  (s.toRest l st).modMeter l (fun m => if st = .fault then m else m.cleared)

/-- A record back to PLANNED from an arming (R15). -/
def Record.unbound (r : Record) : Record :=
  { r with state := .planned, binding := none, restored := .none, flags := .empty }

/-- A record back to PLANNED from a zero-net end (R17). -/
def Record.returned (r : Record) : Record :=
  { r.unbound with attempts := satAdd 255 r.attempts 1, drops := r.drops.map Drop.reset }

/-- The record bound to a line returns to PLANNED from an arming, and the line comes to rest (R62, R65, R99). -/
def State.disarm (s : State) (l : Line) (st : LineState) : State :=
  match (s.line l).bound with
  | some stop => (s.changeRec stop Record.unbound).toRest l st
  | none => s.toRest l st

/-! ## Applying a ticket (R172 to R174) -/

/-- The load block applies a ticket beyond its last applied number (R172, R173). -/
def LoadBlock.apply (x : LoadBlock) (draw : Nat) (t : Ticket) : LoadBlock :=
  if x.lastApplied < t.number then
    { comps := modNth1 x.comps t.comp (fun c => { c with drawn := inRange 4000000000 draw (c.drawn + t.net) })
      hoses := x.hoses.set t.line t.hose
      lastApplied := t.number }
  else x

/-- A product's totals raised, each saturating (R169). -/
def Totals.add (tickets net amount tax drawn primed : Nat) (x : Totals) : Totals :=
  ⟨satAdd 99999999 x.tickets tickets, satAdd 999999999999 x.net net, satAdd 999999999999 x.amount amount,
    satAdd 999999999999 x.tax tax, satAdd 999999999999 x.drawn drawn, satAdd 999999999999 x.primed primed⟩

/-- The product a ticket line's figures are attributed to (R174). -/
def lineOwner (ordered : Nat) : LineProduct → Nat
  | .product q => q
  | .mixed => ordered

/-- A ticket line's figures added to the totals (R174). -/
def addLine (ordered : Nat) (totals : List Totals) (x : TicketLine) : List Totals :=
  modNth1 totals (lineOwner ordered x.product) (Totals.add 0 x.net x.amount x.tax 0 0)

/-- The route block applies a ticket beyond its last applied number (R172, R174). -/
def RouteBlock.apply (x : RouteBlock) (t : Ticket) : RouteBlock :=
  if x.lastApplied < t.number then
    { x with
      totals := t.lines.foldl (addLine t.product) (modNth1 x.totals t.product (Totals.add 1 0 0 0 t.net 0))
      counterCopy := t.number
      lastApplied := t.number }
  else x

/-! ## The end of a run (R17, R18, R112) -/

/-- What the end of a run gives: the state, the outcome its reply carries (R111), and the entries its writes queued. -/
structure RunEnd where
  st : State
  fields : List Tok
  keys : List Key

/-- The reverse balance deducted from the last DONE drop of a line's record (R84). -/
def State.deductOrder (s : State) (l : Line) (stop : Nat) : State :=
  if (s.line l).reverse = 0 then s
  else
    let g := grossSub (s.line l).reverse (s.factorOf l 1) (s.prOf l)
    let n := netSub g ((s.line l).lastVcf.getD 1000000)
    (s.modRec stop (fun r =>
      { r with
        drops := modLastDone (Drop.deduct g n) r.drops
        flags := { r.flags with reverseDeducted := r.flags.reverseDeducted || r.drops.any Drop.isDone } })).drew
      (s.lacksFactors l)

/-- The reverse balance deducted from the run volumes of a PRIME or PROVE run (R85). -/
def State.deductRun (s : State) (l : Line) : State :=
  if (s.line l).reverse = 0 then s
  else
    let g := grossSub (s.line l).reverse (s.factorOf l 1) (s.prOf l)
    let n := netSub g ((s.line l).lastVcf.getD 1000000)
    (s.modLine l (fun c => { c with runGross := c.runGross.map (· - g), runNet := c.runNet.map (· - n) })).drew
      (s.lacksFactors l)

/-- The flags set at a close (R7, R133): AIR_GATED, OVERDRAWN, TIME_UNKNOWN. -/
def State.closeFlags (s : State) (r : Record) (comp : Nat) : RunFlags :=
  { r.flags with
    airGated := r.flags.airGated || r.drops.any (fun d => decide (0 < d.gated))
    overdrawn := r.flags.overdrawn
      || decide ((s.load.comp comp).loaded < (s.load.comp comp).drawn + r.doneNet)
    timeUnknown := r.flags.timeUnknown || !s.clock.valid }

/-- Hose content after delivery (R139). -/
def hoseAfter (product : Nat) (purge : Bool) (hose net : Nat) : HoseContent :=
  if purge = false ∨ hose ≤ net then .product product else .mixed

/-- The ticket part of a closing run (R5 to R7, R18, R86 to R89). Its number is the counter plus one, past 99,999,999 too (the model's choice, log 72), and a record that carries no price of its own is billed at the latched price of its product (the model's choice, log 73). -/
def State.buildTicket (s : State) (l : Line) (r : Record) (b : Binding) (cause : EndCause) : Ticket :=
  let flags := s.closeFlags r b.comp
  let lines := ticketLines r b.purge (s.hoseOf l) (s.load.hoses.get l) (s.latchedOf l) (s.priceOf l r) (s.rateBp l r)
  let net := sumNat (lines.map (·.net))
  { number := s.counter + 1
    route := s.route.number.getD 1
    time := if flags.timeUnknown then none else some s.clock.now
    cause := cause
    calCount := s.settings.calCount
    line := l, comp := b.comp, product := r.product
    lines := lines
    gross := r.doneGross
    net := net
    amount := sumNat (lines.map (·.amount))
    tax := sumNat (lines.map (·.tax))
    total := sumNat (lines.map (·.amount)) + sumNat (lines.map (·.tax))
    temp := if flags.tempNone then none else (s.line l).lastTemp
    flags := flags
    hose := hoseAfter r.product b.purge (s.hoseOf l) net }

/-- A record frozen into a ticket (R18 steps 2 to 4). -/
def Record.ticketed (t : Ticket) (r : Record) : Record :=
  { r with state := .ticketed, restored := .none, ticket := some t, flags := t.flags, drops := r.drops.map Drop.skip }

/-- A closing record handed to the order table (R18): the number assigned, the record frozen and queued, the ticket applied to the load block and then the route block, their entries kept behind it (R34). -/
def State.closeIntoTicket (s : State) (l : Line) (stop : Nat) (t : Ticket) : State :=
  let s1 := ({ s with counter := t.number }.changeRec stop (Record.ticketed t)).modLine l
    (fun c => { c with reserved := false })
  let s2 :=
    if s.load.lastApplied < t.number then
      (s1.modLoad (fun x => x.apply s.fresh t)).requeue (.block .load)
    else s1
  let s3 :=
    if s.route.lastApplied < t.number then (s2.modRoute (fun x => x.apply t)).requeue (.block .route) else s2
  s3.drew ((s.items l).hose.isNone)

/-- The entries a close queues (R18, R172). -/
def State.closeKeys (s : State) (stop : Nat) (t : Ticket) : List Key :=
  [.record stop] ++ (if s.load.lastApplied < t.number then [.block .load] else [])
    ++ (if s.route.lastApplied < t.number then [.block .route] else [])

/-- The binding of a bound record; the pump's compartment where it carries none. -/
def State.bindingOf (s : State) (l : Line) (r : Record) : Binding :=
  r.binding.getD ⟨l, (s.pump.map (·.comp)).getD 1, false⟩

/-- The end of an ORDER run (R17, R18, R112). Its ACTIVE drop has ended. -/
def State.endOrder (s : State) (l : Line) (stop : Nat) (cause : EndCause) : RunEnd :=
  let s1 := s.deductOrder l stop
  match s1.recOf stop with
  | none => ⟨s1.restAfterRun l, [], []⟩
  | some r =>
    if r.doneNet = 0 then
      let s2 := (s1.changeRec stop Record.returned).restAfterRun l
      ⟨s2, [.kw .PLANNED, .num (satAdd 255 r.attempts 1)], [.record stop]⟩
    else
      let t := s1.buildTicket l r (s1.bindingOf l r) cause
      ⟨(s1.closeIntoTicket l stop t).restAfterRun l, [.kw .TICKETED, .num t.number], s1.closeKeys stop t⟩

/-- The compartment a line without a record draws from, and its product. -/
def State.drawnComp (s : State) (l : Line) : Option (Nat × Nat) :=
  match s.pump with
  | some b => if b.lines.get l then (s.load.comp b.comp).product.map (fun p => (b.comp, p)) else none
  | none => none

/-- The net of a PRIME run booked to its compartment and its product's primed total, load block first (R140, R175). -/
def State.bookPrime (s : State) (comp product net : Nat) : State :=
  if net = 0 then s
  else
    ((s.modLoad (fun x =>
        { x with comps := modNth1 x.comps comp (fun c => { c with drawn := inRange 4000000000 s.fresh (c.drawn + net) }) })).modRoute
      (fun x => { x with totals := modNth1 x.totals product (Totals.add 0 0 0 0 0 net) }))

/-- The end of a PRIME run (R85, R140, R175). -/
def State.endPrime (s : State) (l : Line) : RunEnd :=
  let s1 := s.deductRun l
  let gross := floorCl ((s1.line l).runGross.getD 0)
  let net := floorCl ((s1.line l).runNet.getD 0)
  let fields := [.kw .PRIME, .kw .GROSS, .num gross, .kw .NET, .num net]
  match s1.drawnComp l with
  | none => ⟨s1.restAfterRun l, fields, []⟩
  | some (comp, product) =>
    let s2 := s1.bookPrime comp product net
    let s3 :=
      if s1.hoseOf l ≤ net then s2.modLoad (fun x => { x with hoses := x.hoses.set l (.product product) }) else s2
    if net = 0 then ⟨(s3.drew (s.items l).hose.isNone).restAfterRun l, fields, []⟩
    else
      ⟨(((s3.enqueue (.block .load)).enqueue (.block .route)).drew (s.items l).hose.isNone).restAfterRun l, fields,
        [.block .load, .block .route]⟩

/-- Hose content at the end of a PROVE run (R140). -/
def hoseAfterProve (old : HoseContent) (product hose net : Nat) : HoseContent :=
  if hose ≤ net ∨ old = .product product then .product product else .mixed

/-- The PROVE result of a line (R122). -/
def State.proveResult (s : State) (l : Line) : ProveResult :=
  { raw := ((s.meter l).fwdTotal : Int) - ((s.meter l).revTotal : Int)
    nominal := floorCl ((s.line l).runGross.getD 0)
    temp := if (s.line l).lastStatus = some .none then none else (s.line l).lastTemp }

/-- A PROVE result as a reply carries it. -/
def ProveResult.fields (x : ProveResult) : List Tok :=
  [.kw .PROVE, .kw .RESULT, .num x.raw, .kw .GROSS, .num x.nominal]
    ++ (match x.temp with
        | some t => [.kw .TEMP, .num t]
        | none => [])

/-- The end of a PROVE run (R85, R122, R140). -/
def State.endProve (s : State) (l : Line) : RunEnd :=
  let s1 := s.deductRun l
  let x := s1.proveResult l
  let s2 := s1.modLine l (fun c => { c with prove := some x })
  match s1.drawnComp l with
  | none => ⟨s2.restAfterRun l, x.fields, []⟩
  | some (_, product) =>
    let net := floorCl ((s1.line l).runNet.getD 0)
    let s3 := (s2.modLoad (fun b =>
      { b with hoses := b.hoses.set l (hoseAfterProve (b.hoses.get l) product (s1.hoseOf l) net) })).enqueue
        (.block .load)
    ⟨(s3.drew (s.items l).hose.isNone).restAfterRun l, x.fields, [.block .load]⟩

/-- The end of a line's run with a close cause (R112). -/
def State.endRun (s : State) (l : Line) (cause : EndCause) : RunEnd :=
  match (s.line l).kind, (s.line l).bound with
  | some .prime, _ => s.endPrime l
  | some .prove, _ => s.endProve l
  | _, some stop => s.endOrder l stop cause
  | _, none => ⟨s.restAfterRun l, [], []⟩

/-- The run closes: an ACTIVE drop first ends with the cause, then the run ends (R108, R111, R117). -/
def State.closeRun (s : State) (l : Line) (cause : EndCause) : RunEnd := (s.endDrop l cause).endRun l cause

/-- The command in progress is an LN.CLOSE that waits for the end of a line's run. -/
def State.closeAwaits (s : State) (l : Line) : Bool :=
  match s.cmd with
  | some c => c.plan == .awaitEnd l
  | none => false

/-- A run's end not answered by the command being judged: it answers a waiting LN.CLOSE, and its attention item waits for its writes where R193 asks for one (`always` for a close held under R119). -/
def RunEnd.report (e : RunEnd) (l : Line) (always : Bool) : State :=
  let awaited := e.st.closeAwaits l
  let s1 :=
    if awaited then
      { e.st with cmd := e.st.cmd.map (fun c => { c with plan := .ready [e.fields], waits := .on e.keys }) }
    else e.st
  if always ∨ awaited = false ∨ (e.st.line l).st = .fault then
    s1.modLine l (fun c => { c with endWaits := c.endWaits ++ [.on e.keys] })
  else s1

/-- A run's end answered by the command being judged: an attention item only where the line enters FAULT (R193). -/
def RunEnd.byCommand (e : RunEnd) (l : Line) : State :=
  if (e.st.line l).st = .fault then e.st.modLine l (fun c => { c with endWaits := c.endWaits ++ [.on e.keys] })
  else e.st

/-! ## The end of a settle (R106, R107) -/

/-- The line context when it leaves SETTLING for a run's end or a pause: stop and cut removed, timers stopped (R93). -/
def LineCtx.leftSettling (c : LineCtx) : LineCtx :=
  { c with
    intent := none, cut := none, stopNet := none, lowAlone := false
    timers := { c.timers with window := none, settle := none, checkpoint := none } }

/-- New anticipation from the old and an overrun (R107). -/
def learned (old : Nat) (overrun : Int) : Nat := clamp 0 2000 ((old : Int) + halfAway (overrun - (old : Int)) 4)

/-- Anticipation learned at the end of a settle, where R107 requires it. -/
def State.learn (s : State) (l : Line) : State :=
  match (s.line l).lowAlone, (s.line l).stopNet, (s.line l).kind with
  | true, some began, some k =>
    if k = .prove then s
    else
      let a := learned (s.line l).antic ((s.liveNet l : Int) - (began : Int))
      ((s.modLine l (fun c => { c with antic := a })).modSettings
        (fun x => { x with lines := x.lines.modify l (fun i => { i with antic := a }) })).enqueue (.block .settings)
  | _, _, _ => s

/-- The pause cause a cut gives (R106). -/
def CutCause.pause : CutCause → PauseCause
  | .interlock => .interlock
  | .air => .air
  | .deadman => .deadman
  | .reverse => .reverse
  | .ignition => .ignition
  | .pulser => .pulser

/-- The drop in hand is the last of the record, or the run has no record (R106). -/
def State.onLastDrop (s : State) (l : Line) : Bool :=
  match (s.line l).kind, s.boundRec l with
  | some .order, some r =>
    match r.active with
    | some (n, _) => n == r.drops.length
    | none => true
  | _, _ => true

/-- A close that is the outcome of a settle: made, or held in PAUSED(STORE) while the record is unsaved (R106, R119). -/
def State.settleClose (s : State) (l : Line) (cause : EndCause) (dropEnds : Bool) : State :=
  let s1 := if dropEnds then s.endDrop l cause else s
  if s.boundIsUnsaved l then (s1.modLine l (fun c => { c with held := some cause })).enterPaused l .store
  else (s1.closeRun l cause).report l false

/-- A drop that ends at a settle and is not the last (R106, R108). -/
def State.settleDropEnd (s : State) (l : Line) (cause : EndCause) (cut : Option CutCause) : State :=
  (s.endDrop l cause).enterPaused l (if cut = some .pulser then .pulser else .dropEnd)

/-- The outcome of a settle (table of R106), after the last batch and the learning. -/
def State.settleOutcome (s : State) (l : Line) (intent : Option StopIntent) (cut : Option CutCause) : State :=
  match intent with
  | some .close => s.settleClose l .driver false
  | some .limit => if s.onLastDrop l then s.settleClose l .limit true else s.settleDropEnd l .limit cut
  | some .enddrop => if s.onLastDrop l then s.settleClose l .driver true else s.settleDropEnd l .driver cut
  | some .pause => s.enterPaused l (cut.elim .driver CutCause.pause)
  | some .noFlow => s.enterPaused l (cut.elim .noFlow CutCause.pause)
  | some .store => s.enterPaused l (cut.elim .store CutCause.pause)
  | none => s.enterPaused l (cut.elim .driver CutCause.pause)

/-- The settle of a line ends (R106): last batch, reverse excess (R102), learning, outcome. -/
def State.settleEnd (s : State) (l : Line) : State :=
  let s1 := s.convert l
  let s2 := if s.excess l then s1.modLine l (LineCtx.cutOrRecord .reverse) else s1
  let s3 := s2.learn l
  ((s3.modLine l LineCtx.leftSettling).modMeter l Meter.leftSettling).settleOutcome l
    (s3.line l).intent (s3.line l).cut

/-! ## Fault latches (R62, R65, R66) -/

/-- What a line does when a fault is latched at rest, armed or paused; PULSER also cuts a crediting line. -/
def State.faultLatched (s : State) (l : Line) (pulser : Bool) : State :=
  match (s.line l).st with
  | .idle => ((s.modLine l (LineCtx.rest .fault)).leavePump l).setAttention l
  | .armed => (s.disarm l .fault).setAttention l
  | .flowing | .stopping | .settling => if pulser then s.modLine l (LineCtx.cutOrRecord .pulser) else s
  | .paused => if pulser then s.modLine l (fun c => { c with cause := some .pulser }) else s
  | _ => s

/-! ## A bound record unsaved and saved again (R119) -/

/-- A line's answer to its record becoming unsaved (R119). -/
def State.lineUnsaved (s : State) (l : Line) : State :=
  match (s.line l).st with
  | .flowing => s.beginStop l .store
  | .stopping | .settling =>
    if (s.line l).intent = some .pause ∨ (s.line l).intent = some .noFlow then
      s.modLine l (fun c => { c with intent := some .store })
    else s
  | .paused => s.modLine l (fun c => { c with cause := some .store })
  | _ => s

/-- A line's answer to its record being saved again (R119). In STOPPING and SETTLING an intent STORE stays (DESIGN CHOICE, log 68). -/
def State.lineSaved (s : State) (l : Line) : State :=
  if (s.line l).st = .paused then
    match (s.line l).held with
    | some cause => (s.closeRun l cause).report l true
    | none =>
      if (s.line l).cause = some .store then
        (s.modLine l (fun c =>
          { c with
            cause := some
              (if (s.meter l).latchPulser then .pulser
               else
                match s.boundRec l with
                | some r => if r.active.isNone ∧ r.firstPending.isSome then .dropEnd else .driver
                | none => .driver) })).setAttention l
      else s
  else s

/-- A record's change of saving told to the line that holds it, while the part works or is on the restart path (log 46). -/
def State.tellBound (s : State) (stop : Nat) (f : State → Line → State) : State :=
  if s.isUp then
    if s.lines.one.bound = some stop then f s .one
    else if s.lines.two.bound = some stop then f s .two
    else s
  else s

end Sys2Proof.Machine
end

