-- ==== Sys2Proof/Machine/Store.lean ====
section
/-! DEFINITION. The record store at work (chapter 2): beginning the entries of the write queue, corrections, and the ends of record writes, block writes, releases and patrol reads. -/

namespace Sys2Proof.Machine

/-! ## Deadlines of the flush (R179) -/

/-- Kinds of operation that a deadline tells apart: slot writes and releases, and block writes. -/
inductive OpKind where
  | slot | block
deriving DecidableEq, Repr

/-- The kind of operation an entry asks for. -/
def Key.opKind : Key → OpKind
  | .block _ => .block
  | _ => .slot

/-- An operation may begin (R179): always while the part works, restarts or flushes for a link reset, before its deadline in a power-fail flush, never in the hold. -/
def State.mayBegin (s : State) (k : OpKind) : Bool :=
  match s.phase with
  | .active => true
  | .restart => true
  | .hold => false
  | .flush f =>
    match f.kind, k with
    | .linkReset _, _ => true
    | .powerFail _, .block => !f.blocksPast && decide (f.elapsed ≤ 120000)
    | .powerFail _, .slot => !f.slotsPast && decide (f.elapsed ≤ 138000)

/-- The entry at the head of the queue may be begun: not in the flush of a POWER-FAIL that stopped a restart (R181). -/
def State.mayTake (s : State) (k : OpKind) : Bool :=
  s.mayBegin k
    && match s.phase with
       | .flush f => !f.only
       | _ => true

/-- What a power-on restart already asked for will read, in a power-fail flush (log 22). -/
def State.restartAsked (s : State) : Option RestartReads :=
  match s.phase with
  | .flush f =>
    match f.kind with
    | .powerFail n => n
    | .linkReset _ => none
  | _ => none

/-! ## Corrections (R38, R39) -/

/-- A correction entered in the capture set (R39). -/
def Captures.record (slot offset : Nat) (c : Captures) : Captures :=
  { latest := some (slot, offset % 256)
    first := if c.first.length < 3 ∧ c.first.all (fun p => p.1 != slot) then c.first ++ [(slot, offset % 256)] else c.first }

/-- A corrected read of a slot counted (R38). -/
def State.countCorrection (s : State) (n offset : Nat) : State :=
  { s.modSlot n (fun x => { x with corr := min 2 (x.corr + 1) }) with captures := s.captures.record n offset }

/-- The correction of a read, where it needed one. -/
def State.countRead (s : State) (n : Nat) (r : ReadResult) : State :=
  match r with
  | .corrected offset => s.countCorrection n offset
  | _ => s

/-- The read raised the slot's correction count to 2 (R38). -/
def State.raisedToTwo (s : State) (n : Nat) (r : ReadResult) : Bool :=
  match r, s.slot n with
  | .corrected _, some x => x.corr == 1
  | _, _ => false

/-- A record entry for the record of a slot, unless that record is leaving the table (R38, log 18). -/
def State.askMove (s : State) (n : Nat) : State :=
  match s.slot n with
  | some x =>
    match x.record? with
    | some r => if x.leaving then s else s.enqueue (.record r.stop)
    | none => s
  | none => s

/-! ## Unsaved images (R43, R44) -/

/-- A record becomes unsaved: added to the list, and its line told (R43, R119). -/
def State.becomeUnsaved (s : State) (stop : Nat) : State :=
  if s.isUnsaved stop then s
  else ({ s with unsaved := s.unsaved ++ [stop] }).tellBound stop State.lineUnsaved

/-- A record entry for the first unsaved image, where a slot is FREE (R44). -/
def State.queueUnsaved (s : State) : State :=
  match s.unsaved with
  | stop :: _ => if s.slots.any Slot.isFree then s.enqueue (.record stop) else s
  | [] => s

/-- A record that was unsaved has a durable copy again (R44, R119). The next record queued is the first that remains in the list, whichever was saved (DESIGN CHOICE, log 64). -/
def State.becomeSaved (s : State) (stop : Nat) : State :=
  if s.isUnsaved stop then
    (({ s with unsaved := s.unsaved.erase stop }).queueUnsaved).tellBound stop State.lineSaved
  else s

/-! ## Beginning an operation (R33, R35, R36, R41, R43) -/

/-- The write of a record in flight to a slot. -/
def State.flyRecord (s : State) (r : Record) (target : Nat) (kind : WriteKind) : State :=
  { s with flight := some (.record ⟨r.stop, r, target, kind⟩) }

/-- A record entry's operation begins, or the entry completes at once with the record unsaved (R35, R36, R41, R43). A home both due for retirement and found uncorrectable is left by a move (DESIGN CHOICE, log 53). -/
def State.beginRecord (s : State) (stop : Nat) : State :=
  match s.homeOf stop, s.recOf stop with
  | some home, some r =>
    match s.slot home with
    | none => s
    | some x =>
      if x.isInUse = true ∧ x.due = false ∧ x.relocate = false then s.flyRecord r home .inPlace
      else
        match s.allocate none with
        | some t => s.flyRecord r t (if x.isInUse = true ∧ x.due = true then .move else .relocation)
        | none => (s.modSlot home (Slot.condemn r)).becomeUnsaved stop
  | _, _ => s

/-- A block's image as it stands. -/
def State.blockImage (s : State) : Block → BlockImage
  | .settings => .settings s.settings
  | .load => .load s.load
  | .route => .route s.route

/-- An entry's operation begins. -/
def State.beginKey (s : State) (k : Key) : State :=
  match k with
  | .record stop => s.beginRecord stop
  | .block b => { s with flight := some (.block (s.blockImage b) false) }
  | .release n => { s with flight := some (.release n) }

/-- The operation in flight has ended. -/
def State.landed (s : State) : State :=
  { s with flight := none, patrolIdle := 0 }.mapWaiters Waiter.landed

/-- The part holds in reset, with nothing of the flush left (R181). -/
def State.holdInReset (s : State) : State := { s with flight := none, queue := [], phase := .hold }

/-- The deadline has refused an operation: the store begins no further one (R179); what ends the flush then, the hold or the restart asked for, follows (R181, log 22). -/
def State.giveUp (s : State) : State := { s with flight := none, queue := [] }

/-- The oldest entry taken from the queue and begun; one that completes at once lands at once (R33, R43). -/
def State.takeEntry (s : State) (k : Key) (q : List Key) : State :=
  let t := ({ s with queue := q, patrolIdle := 0 }.mapWaiters (Waiter.begun k)).beginKey k
  if t.flight.isNone then t.mapWaiters Waiter.landed else t

/-- The store takes entries until one is in flight, the queue is empty, or a deadline refuses (R33, R179). -/
def storeRun : Nat → State → State
  | 0, s => s
  | n + 1, s =>
    match s.flight, s.queue with
    | none, k :: q => if s.mayTake k.opKind then storeRun n (s.takeEntry k q) else s
    | _, _ => s

/-! ## End of a record write (R35, R36, R41, R43, R44) -/

/-- A slot made the home of a record by a verified write of an image (R29, R35). -/
def Slot.receive (stop seq draw : Nat) (image current : Record) (x : Slot) : Slot :=
  { x with
    st := .inUse (.record current), program := inRange 100000 draw (x.program + 1)
    relocate := false, content := some image }.writeHeader (.inUse stop seq)

/-- The release entry of a record whose home has changed names the new slot (log 18). -/
def State.retarget (s : State) (old new : Nat) : State :=
  { s with
    queue :=
      if s.queue.contains (Key.release new) then s.queue.erase (.release old)
      else s.queue.map (fun k => if k = Key.release old then Key.release new else k) }.mapWaiters
    (Waiter.rename (.release old) (.release new))

/-- The next write sequence number taken (R29). -/
def State.nextSeq (s : State) : State := { s with seq := inRange 4294967295 s.fresh (s.seq + 1) }

/-- A verified write into the record's home (R35). -/
def State.verifiedInPlace (s : State) (w : SlotWrite) (r : Record) : State :=
  (s.modSlot w.target (Slot.receive w.stop s.seq s.fresh w.image r)).nextSeq

/-- A verified write into a new slot: the new slot is the home, the old one RETIRED (R36, R41). -/
def State.verifiedNew (s : State) (w : SlotWrite) (home : Nat) (leaving : Bool) (r : Record) : State :=
  ((((s.modSlot w.target (Slot.receive w.stop s.seq s.fresh w.image r)).modSlot w.target
    (fun x => { x with leaving := leaving })).modSlot home Slot.retire).retarget home w.target).nextSeq

/-- A record write that verifies completes its entry. The write of a record that has left the table takes no write sequence number (the model's reading, log 17). -/
def State.recordVerified (s : State) (w : SlotWrite) (askMove : Bool) : State :=
  match s.homeOf w.stop, s.recOf w.stop with
  | some home, some r =>
    let s1 :=
      if home = w.target then s.verifiedInPlace w r
      else s.verifiedNew w home ((s.slot home).elim false (·.leaving)) r
    let s2 := s1.landed
    (if askMove then s2.askMove w.target else s2).becomeSaved w.stop
  | _, _ =>
    (s.modSlot w.target (fun x =>
      { x with program := inRange 100000 s.fresh (x.program + 1), content := some w.image }.writeHeader .free)).landed

/-- The further slot write of a relocation or move that has met a failure (R36), or the end of the flush where the deadline refuses it (R179). -/
def State.tryNext (s : State) (w : SlotWrite) (next : Nat) (kind : WriteKind) : State :=
  if s.mayBegin .slot then { s with flight := some (.record { w with target := next, kind := kind }) }
  else s.giveUp

/-- No FREE slot remains after a failed write: the record becomes unsaved (R36, R41, R43). -/
def State.exhausted (s : State) (w : SlotWrite) (home : Nat) (r : Record) : State :=
  let s1 :=
    if home = w.target ∨ w.kind = .move then
      (if home = w.target then s else s.modSlot w.target Slot.retire).modSlot home (Slot.condemn r)
    else
      (((s.modSlot w.target (Slot.condemn r)).modSlot w.target
        (fun x => { x with leaving := (s.slot home).elim false (·.leaving) })).modSlot home Slot.retire).retarget
          home w.target
  s1.landed.becomeUnsaved w.stop

/-- A record write that fails verify (R36, R41). -/
def State.recordFailed (s : State) (w : SlotWrite) : State :=
  match s.homeOf w.stop, s.recOf w.stop with
  | some home, some r =>
    if home = w.target then
      match s.allocate none with
      | some t => (s.modSlot home (fun x => { x with relocate := true })).tryNext w t .relocation
      | none => s.exhausted w home r
    else
      match s.allocate (some w.target) with
      | some t => (s.modSlot w.target Slot.retire).tryNext w t w.kind
      | none => s.exhausted w home r
  | _, _ => (s.modSlot w.target Slot.retire).landed

/-- A record slot write and its read-back end (R35, R36, R38). -/
def State.recordWriteEnd (s : State) (w : SlotWrite) (read : ReadResult) (agrees : Bool) : State :=
  let s1 := s.countRead w.target read
  if agrees = true ∧ read ≠ .uncorrectable then s1.recordVerified w (s.raisedToTwo w.target read)
  else s1.recordFailed w

/-! ## End of a block write (R46) -/

/-- A block as a write leaves it in its area: its check word is computed anew over the whole block (R50, R155). -/
def Stored.write {α : Type} (image : α → BlockImage) (b : α) : Stored α := ⟨b, Config.checkWord (image b)⟩

/-- The area of a block holds an image with its check word (R46, R155). -/
def State.setArea (s : State) : BlockImage → State
  | .settings b => { s with areaSettings := some (.write .settings b) }
  | .load b => { s with areaLoad := some (.write .load b) }
  | .route b => { s with areaRoute := some (.write .route b) }

/-- The failed mark of a block (R46). -/
def State.setFailed (s : State) (i : BlockImage) (v : Bool) : State :=
  match i with
  | .settings _ => { s with failed := { s.failed with settings := v } }
  | .load _ => { s with failed := { s.failed with load := v } }
  | .route _ => { s with failed := { s.failed with route := v } }

/-- A block write and its read-back end (R46). After a second failure the area keeps the image it held (DESIGN CHOICE, log 52). -/
def State.blockWriteEnd (s : State) (image : BlockImage) (second agrees : Bool) : State :=
  if agrees then ((s.setArea image).setFailed image false).landed
  else if second then (s.setFailed image true).landed
  else if s.mayBegin .block then { s with flight := some (.block image true) }
  else s.giveUp

/-! ## End of a release (R37, R44) -/

/-- A slot whose release completes (R37): RETIRED where due or where it held a DAMAGED record, else FREE with its program count raised. -/
def Slot.release (draw : Nat) (x : Slot) : Slot :=
  match x.st with
  | .inUse (.record _) =>
    if x.due then x.retire
    else
      { x with
        st := .free, program := inRange 100000 draw (x.program + 1)
        relocate := false, leaving := false }.writeHeader .free
  | .free => x
  | _ => x.retire

/-- A release ends (R37, R44). -/
def State.releaseEnd (s : State) (n : Nat) : State :=
  let s1 :=
    match (s.slot n).bind Slot.record? with
    | some r => { s with unsaved := s.unsaved.erase r.stop }
    | none => s
  let s2 := (s1.modSlot n (Slot.release s.fresh)).landed
  if (s2.slot n).elim false Slot.isFree then s2.queueUnsaved else s2

/-! ## Patrol reads (R40) -/

/-- A slot a patrol read may read: IN USE with a record that is not DAMAGED. -/
def Slot.patrolled (x : Slot) : Bool :=
  match x.st with
  | .inUse (.record _) => true
  | _ => false

/-- The first patrolled slot from a number on, going back to the lowest after the highest (R40). -/
def State.patrolFrom (s : State) (n : Nat) : Option Nat :=
  match findSlot Slot.patrolled (s.slots.drop (n - 1)) (n - 1 + 1) with
  | some m => some m
  | none => findSlot Slot.patrolled s.slots 1

/-- A patrol read begins (R40). -/
def State.patrolBegin (s : State) : State :=
  if s.isActive = true ∧ s.mode = .run ∧ s.queue = [] ∧ s.flight = none then
    match s.patrolFrom s.patrolCursor with
    | some n => { s with flight := some (.patrol n), patrolIdle := 0 }.timeRow .patrolIdle
    | none => { s with patrolIdle := 0 }.timeRow .patrolIdle
  else s

/-- The patrol cursor moved past a slot (R40). -/
def State.patrolMove (s : State) (n : Nat) : State :=
  { s with patrolCursor := (s.patrolFrom (n + 1)).getD 1 }

/-- A patrol read ends (R38, R40). -/
def State.patrolEnd (s : State) (n : Nat) (read : ReadResult) : State :=
  let s1 := (s.patrolMove n).landed
  match read with
  | .clean => s1
  | .corrected offset =>
    let s2 := (s1.countCorrection n offset).modSlot n (fun x => x.writeHeader x.headerCond)
    if s.raisedToTwo n read then s2.askMove n else s2
  | .uncorrectable => (s1.modSlot n (fun x => { x with relocate := true })).askMove n

/-! ## Removal of a record (R37) -/

/-- An entry removed from the queue, and no longer waited for. -/
def State.dropEntry (s : State) (k : Key) : State :=
  { s with queue := s.queue.erase k }.mapWaiters (fun w => { w with keys := w.keys.filter (· != k) })

/-- A write in flight of a record that has left the table belongs to no record any more: stop 0 is no record's (log 17). -/
def orphaned (stop : Nat) : Flight → Flight
  | .record w => if w.stop = stop then .record { w with stop := 0 } else .record w
  | f => f

/-- A record with a CONDEMNED home leaves the table at once (R37). -/
def State.discard (s : State) (n stop : Nat) : State :=
  let t := (s.dropEntry (.record stop)).modSlot n Slot.retire
  { t with unsaved := t.unsaved.erase stop, flight := t.flight.map (orphaned stop) }

/-- A release of a slot asked for (R37). -/
def State.askRelease (s : State) (n : Nat) : State :=
  let t :=
    match (s.slot n).bind Slot.record? with
    | some r => s.dropEntry (.record r.stop)
    | none => s
  (t.modSlot n (fun x => { x with leaving := true })).enqueue (.release n)

end Sys2Proof.Machine
end

