-- ==== Sys2Proof/Machine/Restart.lean ====
section
/-! DEFINITION. The restart path (R183) with the restart scan (R47, R48, R50), the counter recovery and re-application (R184), the rebuilding of blocks (R185), and the restoration of lines and pump (R94, R135); the close of a sealing session (R158). -/

namespace Sys2Proof.Machine

/-! ## Settings and seal (R156, R158) -/

/-- The settings when a sealing session closes (R158, R160). -/
def Settings.sealClosed (x : Settings) : Settings :=
  { x with
    calCount := if x.session then satAdd 65535 x.calCount 1 else x.calCount
    calLost := if x.session && (x.anySet .one || x.anySet .two) then false else x.calLost
    countLost := false
    session := false }

/-- A sealing session closes; the block's write is queued where an item changed (R158). -/
def State.closeSession (s : State) : State :=
  if s.settings.sealClosed = s.settings then s
  else (s.modSettings Settings.sealClosed).enqueue (.block .settings)

/-- The block an area holds matches its own check word (R50), its fingerprint (R156). -/
def Stored.good {α : Type} (image : α → BlockImage) (c : Stored α) : Bool := c.check == Config.checkWord (image c.block)

/-- A block as its area reads: what it holds, where the area can be read and the block matches its check word (R50, R156; what the read finds is the row's operand, log 24). A blank area holds no block that matches (R155). -/
def readArea {α : Type} (image : α → BlockImage) (area : Option (Stored α)) (r : AreaRead) : Option α :=
  if r = .bad then none else (area.filter (Stored.good image)).map (·.block)

/-- A block entry follows a read that needed a correction or found no good block (R50). -/
def areaNeedsWrite {α : Type} (found : Option α) (r : AreaRead) : Bool := found.isNone || r == .corrected

/-- Step 2 of R183, from what the settings area reads as (R156): the settings block, or its defaults with the block marked failed and written; and a session left open settled (R158). -/
def State.readSettings (s : State) (found : Option Settings) (r : AreaRead) : State :=
  let s1 := { s with settings := found.getD .default, failed := { s.failed with settings := found.isNone } }
  let s2 := if areaNeedsWrite found r then s1.enqueue (.block .settings) else s1
  if s2.settings.session = true ∧ s2.inputs.sealOpen = false then s2.closeSession else s2

/-! ## The scan (R47, R48) -/

/-- What the scan finds in a slot (R47). -/
inductive Found where
  | free
  | retired
  | good (r : Record) (seq : Nat)
  | damaged (stop account seq : Nat)
deriving DecidableEq, Repr

/-- The reads of a slot; one not listed reads clean. -/
def readsOf (n : Nat) : List SlotReads → SlotReads
  | [] => ⟨n, none, .clean, 0⟩
  | x :: xs => if x.slot = n then x else readsOf n xs

/-- Counts of a slot as its header reads; free values where no majority exists (log 20). -/
def headerCounts (n : Nat) (h : Option Header) : Nat × Nat :=
  match h with
  | some h => (h.program, h.corr)
  | none => (Config.lostProgram n % 100001, Config.lostCorr n % 3)

/-- What a slot's header and content give (R47). A header that reads IN USE over a slot whose content was never written gives a damaged copy, whether the read is said to be clean or corrected, and no correction is counted for it (the model's choice, log 70). -/
def foundIn (x : Slot) (h : Option Header) (r : SlotReads) : Found :=
  match h with
  | none => .retired
  | some h =>
    match h.cond with
    | .free => .free
    | .retired => .retired
    | .inUse stop seq =>
      match r.content, x.content with
      | .uncorrectable, _ => .damaged stop r.account seq
      | _, some c => .good c seq
      | _, none => .damaged stop r.account seq

/-- A slot's content was read and needed a correction, at a byte offset (R47). -/
def correctedAt (f : Found) (r : ReadResult) : Option Nat :=
  match f, r with
  | .good _ _, .corrected offset => some offset
  | _, _ => none

/-- One slot scanned: the slot with its counts as read, and what was found (R47). -/
def scanSlot (n : Nat) (reads : List SlotReads) (x : Slot) : Slot × Found :=
  let r := readsOf n reads
  let hs := r.headers.getD x.headers
  let h := Headers.majority hs
  let f := foundIn x h r
  let c := headerCounts n h
  ({ x with
      st := .free, program := c.1, relocate := false, leaving := false, headers := hs
      corr := if (correctedAt f r.content).isSome then min 2 (c.2 + 1) else c.2 }, f)

/-- Every slot scanned, from number `n` on (R47). -/
def scanSlots (reads : List SlotReads) : Nat → List Slot → List (Slot × Found)
  | _, [] => []
  | n, x :: xs => scanSlot n reads x :: scanSlots reads (n + 1) xs

/-- The captures of the scan's corrected reads, in slot order (R47). -/
def scanCaptures (reads : List SlotReads) : Nat → List (Slot × Found) → Captures → Captures
  | _, [], c => c
  | n, (_, f) :: xs, c =>
    scanCaptures reads (n + 1) xs
      (match correctedAt f (readsOf n reads).content with
       | some offset => c.record n offset
       | none => c)

/-- The sequence number of a copy in an IN USE slot. -/
def Found.seq : Found → Nat
  | .good _ q => q
  | .damaged _ _ q => q
  | _ => 0

/-- Among copies numbered from `m` on, a good copy of a stop that R48 puts before one in slot `n`: of a higher sequence number, or, of the same number, in a lower slot (log 51). -/
def newerGood (stop seq n : Nat) : Nat → List (Slot × Found) → Bool
  | _, [] => false
  | m, (_, f) :: xs =>
    (match f with
     | .good r q => r.stop == stop && (decide (seq < q) || (seq == q && decide (m < n)))
     | _ => false) || newerGood stop seq n (m + 1) xs

/-- A slot released by the scan (R48): RETIRED where due, else FREE, with its program count as the scan read it (R53, log 19). -/
def Slot.scanRelease (x : Slot) : Slot :=
  if x.due then x.retire else { x with st := .free }.writeHeader .free

/-- Slot `n` settled against every copy found (R48). A DAMAGED copy yields to a good copy of a higher sequence number only. -/
def settleSlot (all : List (Slot × Found)) (n : Nat) (p : Slot × Found) : Slot :=
  match p.2 with
  | .free => { p.1 with st := .free }
  | .retired => { p.1 with st := .retired }
  | .good r q => if newerGood r.stop q n 1 all then p.1.scanRelease else { p.1 with st := .inUse (.record r) }
  | .damaged stop account q =>
    if newerGood stop q 0 1 all then p.1.retire else { p.1 with st := .inUse (.damaged stop account) }

/-- Every slot settled, from number `n` on (R48). -/
def settleSlots (all : List (Slot × Found)) : Nat → List (Slot × Found) → List Slot
  | _, [] => []
  | n, p :: ps => settleSlot all n p :: settleSlots all (n + 1) ps

/-- The stops whose home has a correction count of 2, in slot order (R48). -/
def movesDue (xs : List Slot) : List Nat :=
  xs.filterMap (fun x => if 2 ≤ x.corr then x.record?.map (·.stop) else none)

/-- Step 3 of R183 for the slots: scan and settlement (R29, R47, R48). -/
def State.scan (s : State) (reads : List SlotReads) : State :=
  let found := scanSlots reads 1 s.slots
  let slots := settleSlots found 1 found
  (movesDue slots).foldl (fun t stop => t.enqueue (.record stop))
    { s with
      slots := slots
      captures := scanCaptures reads 1 found s.captures
      seq := 1 + (found.map (fun p => p.2.seq)).foldr max 0 }

/-! ## Tickets, counter and blocks (R184, R185) -/

/-- A ticket put into a list in ascending number. -/
def insertTicket (t : Ticket) : List Ticket → List Ticket
  | [] => [t]
  | x :: xs => if t.number ≤ x.number then t :: x :: xs else x :: insertTicket t xs

/-- The tickets of the TICKETED and ISSUED records, in ascending number (R184). -/
def State.tickets (s : State) : List Ticket :=
  (s.records.filterMap (fun r => if r.state = .ticketed ∨ r.state = .issued then r.ticket else none)).foldr
    insertTicket []

/-- The recovered ticket counter (R184), from the blocks that read good and the tickets. -/
def recoverCounter (load : Option LoadBlock) (route : Option RouteBlock) (tickets : List Ticket) : Nat :=
  max (max ((route.map (·.counterCopy)).getD 0) ((load.map (·.lastApplied)).getD 0))
    ((tickets.map (·.number)).foldr max 0)

/-- Hose content of a line in a rebuilt load block (R185); the tickets are in ascending number. -/
def rebuiltHose (tickets : List Ticket) (l : Line) : HoseContent :=
  (((tickets.filter (fun t => t.line == l)).getLast?).map (·.hose)).getD .mixed

/-- A rebuilt load block (R185). -/
def rebuiltLoad (tickets : List Ticket) (counter : Nat) : LoadBlock :=
  { comps := List.replicate 4 ⟨none, 0, 0⟩
    hoses := ⟨rebuiltHose tickets .one, rebuiltHose tickets .two⟩
    lastApplied := counter }

/-- A rebuilt route block (R185). -/
def rebuiltRoute (anyBound : Bool) (tickets : List Ticket) (counter : Nat) : RouteBlock :=
  { isOpen := anyBound, number := some ((tickets.getLast?.map (·.route)).getD 1), openTime := none
    totals := List.replicate 6 .zero, counterCopy := counter, lastApplied := counter }

/-- Steps 3 and 4 of R183 for the load and route areas and the counter (R50, R184, R185); from what the two areas read as; a blank area is one that cannot be read good (log 3). -/
def State.readBlocks (s : State) (load : Option LoadBlock) (route : Option RouteBlock) (rl rr : AreaRead) : State :=
  let counter := recoverCounter load route s.tickets
  let s1 :=
    { s with
      counter := counter
      load := load.getD (rebuiltLoad s.tickets counter)
      route := route.getD (rebuiltRoute (s.records.any (fun r => r.state == .bound)) s.tickets counter)
      failed := { s.failed with load := load.isNone, route := route.isNone } }
  let s2 := if areaNeedsWrite load rl then s1.enqueue (.block .load) else s1
  if areaNeedsWrite route rr then s2.enqueue (.block .route) else s2

/-- Step 5 of R183: tickets beyond each block's last applied number are applied (R184). -/
def State.reapply (s : State) : State :=
  let forLoad := s.tickets.filter (fun t => decide (s.load.lastApplied < t.number))
  let forRoute := s.tickets.filter (fun t => decide (s.route.lastApplied < t.number))
  let s1 :=
    { s with
      load := forLoad.foldl (fun x t => x.apply s.fresh t) s.load
      route := forRoute.foldl (fun x t => x.apply t) s.route
      resetCause := { s.resetCause with loadApplied := forLoad.length, routeApplied := forRoute.length } }
  let s2 := if forLoad.isEmpty then s1 else s1.enqueue (.block .load)
  if forRoute.isEmpty then s2 else s2.enqueue (.block .route)

/-! ## Lines and pump (R94, R135) -/

/-- The record read BOUND for a line; of two, the one in the lowest slot (DESIGN CHOICE, log 63). -/
def State.recordFor (s : State) (l : Line) : Option Record :=
  s.records.find? (fun r => r.state == .bound && r.binding.any (fun b => b.line == l))

/-- The state of a line that comes up with no bound record (R94). -/
def State.upState (s : State) (l : Line) : LineState :=
  if s.settings.calLost || !s.settings.anySet l then .setup else .idle

/-- A line that comes up with no bound record (R94). -/
def State.upUnbound (s : State) (l : Line) : State :=
  s.modLine l (fun _ => .atRest (s.upState l) (s.items l).antic)

/-- A restored record's run flags: RESTORED_CHECKPOINT where its marker was read CHECKPOINT (R94). -/
def Record.restoredFlags (r : Record) : Record :=
  { r with
    flags := { r.flags with restoredCheckpoint := r.flags.restoredCheckpoint || r.restored == .checkpoint } }

/-- A line restored with its record in PAUSED(POWER) (R94, R114, R183). It takes a reservation (R19, R27) whatever the counter stands at (the model's choice, log 72). -/
def State.upBound (s : State) (l : Line) (r : Record) : State :=
  let s1 := (s.modRec r.stop Record.restoredFlags).modLine l (fun _ =>
    { LineCtx.atRest .paused (s.items l).antic with
      kind := some .order, bound := some r.stop, latched := some s.settings.latch, reserved := true })
  let s2 := s1.modLine l (fun c => { c with limit := r.active.map (fun d => s1.dropLimit l r d.2) })
  s2.enterPaused l .power

/-- Step 7 of R183 for one line. -/
def State.bringUp (s : State) (l : Line) : State :=
  match s.recordFor l with
  | some r =>
    let s1 := s.upBound l r
    { s1 with resetCause := { s1.resetCause with restoredLines := s1.resetCause.restoredLines + 1 } }
  | none => s.upUnbound l

/-- The compartment of a restored line's record. -/
def State.restoredComp (s : State) (l : Line) : Option Nat :=
  ((s.boundRec l).bind (·.binding)).map (·.comp)

/-- Line 2's record returned to PLANNED where the two records name different compartments (R135). The attention set formed at the restart's end leaves its item out: line 2 is then in IDLE or SETUP and holds no restored record (the model's reading of R183 and R193, log 71). -/
def State.yieldLineTwo (s : State) (stop : Nat) : State :=
  let s1 := (s.changeRec stop Record.returned).upUnbound .two
  { s1 with attention := s1.attention.set .two false }

/-- Step 8 of R183: the pump binding rebuilt (R135). -/
def State.rebuildPump (s : State) : State :=
  match s.restoredComp .one, s.restoredComp .two with
  | none, none => { s with pump := none }
  | some c, none => { s with pump := some ⟨c, ⟨true, false⟩⟩ }
  | none, some c => { s with pump := some ⟨c, ⟨false, true⟩⟩ }
  | some c, some d =>
    if c = d then { s with pump := some ⟨c, ⟨true, true⟩⟩ }
    else
      match s.lines.two.bound with
      | some stop => { s with pump := some ⟨c, ⟨true, false⟩⟩ }.yieldLineTwo stop
      | none => { s with pump := some ⟨c, ⟨true, false⟩⟩ }

/-! ## The restart -/

/-- Step 1 of R183, with the link, the queue and the lists as a restart leaves them (R53, R183, R189, R191). -/
def State.restartBegin (s : State) (cause : RestartCause) : State :=
  { s with
    mode := .run, phase := .restart, sleepDue := false, ignitionLow := 0
    resetCause := ⟨cause, 0, 0, 0⟩
    clock := if cause = .powerOn then .powerOn else s.clock
    captures := if cause = .powerOn then ⟨none, []⟩ else s.captures
    inputs := { s.inputs with powerFail := false }
    queue := [], flight := none, unsaved := [], patrolCursor := 1, patrolIdle := 0
    rx := .waiting, cmd := none, tx := [], attention := ⟨false, false⟩, press := .none
    lines := ⟨.atRest .setup 0, .atRest .setup 0⟩, pump := none }

/-- Step 6 of R183: the meter lines take their restart values, and the levels that stand (R54). -/
def State.restartMeters (s : State) : State :=
  { s with meters := s.meters.map (fun m => .restart m.levelA m.levelB) }

/-- Steps 1 to 9 of R183, from what the three areas read as. -/
def State.restartFrom (s : State) (cause : RestartCause) (r : RestartReads) (settings : Option Settings)
    (load : Option LoadBlock) (route : Option RouteBlock) : State :=
  ((((((((s.restartBegin cause).readSettings settings r.settings).scan r.slots).readBlocks load route r.load
    r.route).reapply).restartMeters).bringUp .one).bringUp .two).rebuildPump

/-- Steps 1 to 9 of R183, taken together: each area is read and compared with its block's check word; the part is then on the restart path with its last step to come (log 44). -/
def State.restart (s : State) (cause : RestartCause) (r : RestartReads) : State :=
  s.restartFrom cause r (readArea .settings s.areaSettings r.settings) (readArea .load s.areaLoad r.load)
    (readArea .route s.areaRoute r.route)

/-- Step 10 of R183: the restart path ends and the part works (log 44). -/
def State.comesUp (s : State) : State :=
  match s.phase with
  | .restart => { s with phase := .active }
  | _ => s

end Sys2Proof.Machine
end

