-- ==== Sys2Proof/Machine/Reply.lean ====
section
/-! DEFINITION. Reply lines (R191, R192): the characters of a token and of a line, the split of a reply into lines, and the transmitter. -/

namespace Sys2Proof.Machine

/-! ## Characters -/

/-- Decimal digits of a number, most significant first. -/
def decDigits : Nat → Nat → List Nat
  | 0, _ => []
  | f + 1, n => if n < 10 then [n] else decDigits f (n / 10) ++ [n % 10]

/-- Characters of a natural number. -/
def natBytes (n : Nat) : List Byte := (decDigits 40 n).map (fun d => BitVec.ofNat 8 (48 + d))

/-- Characters of a number, with a leading "-" where negative (11.1). -/
def intBytes (v : Int) : List Byte := if v < 0 then 45#8 :: natBytes v.natAbs else natBytes v.natAbs

/-- Characters of a token. -/
def Tok.bytes : Tok → List Byte
  | .num v => intBytes v
  | .kw k => charBytes k.spell
  | .name b => if b.isEmpty then charBytes Kw.NONE.spell else b
  | .time d => natBytes (numOfDate d)

/-- Upper-case hex digit of a number below 16. -/
def hexByte (n : Nat) : Byte := BitVec.ofNat 8 (if n < 10 then 48 + n else 55 + n)

/-- XOR of characters (11.1). -/
def xorAll (cs : List Byte) : Byte := cs.foldl (· ^^^ ·) 0#8

/-- The check field of characters (11.1). -/
def checkField (cs : List Byte) : List Byte :=
  [42#8, hexByte ((xorAll cs).toNat / 16), hexByte ((xorAll cs).toNat % 16)]

/-- Characters of a reply status (R192). -/
def ReplyStatus.bytes : ReplyStatus → List Byte
  | .ok => charBytes ['O', 'K']
  | .okMore => charBytes ['O', 'K', '+']
  | .no c => charBytes ['N', 'O', ' '] ++ charBytes c.spell

/-- Characters of fields, each preceded by one space (11.1). -/
def fieldBytes (ts : List Tok) : List Byte := ts.flatMap (fun t => 32#8 :: t.bytes)

/-- The characters of a reply line, from "<" to the carriage return (11.1, R192). -/
def ReplyLine.bytes (r : ReplyLine) : List Byte :=
  let body := r.word ++ 32#8 :: r.status.bytes ++ fieldBytes r.fields
  60#8 :: body ++ checkField body ++ [13#8]

/-! ## Splitting (R192, log 15) -/

/-- Characters a token takes with its space. -/
def Tok.width (t : Tok) : Nat := t.bytes.length + 1

/-- Characters fields take. -/
def widths (ts : List Tok) : Nat := sumNat (ts.map Tok.width)

/-- The longest run of tokens that fits a room, and the rest. -/
def takeFit : Nat → List Tok → List Tok × List Tok
  | _, [] => ([], [])
  | room, t :: ts =>
    if t.width ≤ room then
      match takeFit (room - t.width) ts with
      | (a, b) => (t :: a, b)
    else ([], t :: ts)

/-- Room for fields in a line of 160 characters after "<word OK" and before the check field and carriage return. -/
def fieldRoom (word : List Byte) : Nat := 160 - (word.length + 8)

/-- A segment cut into lines; the first argument bounds their number. -/
def chopSegment : Nat → Nat → List Tok → List (List Tok)
  | 0, _, _ => []
  | n + 1, room, ts =>
    if widths ts ≤ room then [ts]
    else
      match takeFit (room - 1) ts with
      | ([], _) => [ts]
      | (a, b) => a :: chopSegment n room b

/-- The fields of the lines of a reply: every segment begins a new line, a segment without fields too, whose line then carries none (the model's choice, log 15); a segment that is not the last keeps room for "OK+". -/
def replyFields (room : Nat) : List (List Tok) → List (List Tok)
  | [] => [[]]
  | [x] => chopSegment (x.length + 1) room x
  | x :: y :: xs => chopSegment (x.length + 1) (room - 1) x ++ replyFields room (y :: xs)

/-- Lines with their status: OK+ but for the last (R192). -/
def statusLines (word : List Byte) : List (List Tok) → List ReplyLine
  | [] => [⟨word, .ok, [], true⟩]
  | [x] => [⟨word, .ok, x, true⟩]
  | x :: y :: xs => ⟨word, .okMore, x, false⟩ :: statusLines word (y :: xs)

/-- The lines of an OK reply (R192). -/
def okLines (word : List Byte) (segments : List (List Tok)) : List ReplyLine :=
  statusLines word (replyFields (fieldRoom word) segments)

/-- The characters of a command word. -/
def CmdWord.bytes (w : CmdWord) : List Byte := charBytes w.spell

/-! ## The transmitter (R191) -/

/-- Reply lines become ready together. -/
def State.ready (s : State) (xs : List ReplyLine) : State := { s with tx := s.tx ++ xs }

/-- A refusal of a line that does not become the command in progress (R190, R191). -/
def State.turnAway (s : State) (word : List Byte) (c : Code) : State := s.ready [⟨word, .no c, [], false⟩]

/-- The segments of a plan whose writes have completed (R14, R23). -/
def State.planSegments (s : State) : Plan → Option (List (List Tok))
  | .ready xs => some xs
  | .freeCount => some [[.kw .FREE, .num (s.countSlots Slot.isFree)]]
  | .freeRetired =>
    some [[.kw .FREE, .num (s.countSlots Slot.isFree), .kw .RETIRED, .num (s.countSlots Slot.isRetired)]]
  | .awaitEnd _ => none

/-- The reply of the command in progress becomes ready when its outcome is decided and its writes have completed (R191). -/
def State.deliverReply (s : State) : State :=
  match s.cmd with
  | none => s
  | some c =>
    if c.sent = false ∧ c.waits.over = true then
      match s.planSegments c.plan with
      | some xs => { s with cmd := some { c with sent := true } }.ready (okLines c.word.bytes xs)
      | none => s
    else s

/-- A run's end whose writes have all completed adds its line's item (R193). -/
def State.deliverAttention (s : State) (l : Line) : State :=
  let s1 := if (s.line l).endWaits.any Waiter.over then s.setAttention l else s
  s1.modLine l (fun c => { c with endWaits := c.endWaits.filter (fun w => !w.over) })

/-- Replies and attention items that have become due. -/
def State.deliver (s : State) : State :=
  if s.isActive then (s.deliverReply.deliverAttention .one).deliverAttention .two else s

end Sys2Proof.Machine
end

