-- ==== Sys2Proof/Machine/Commit.lean ====
section
/-! DEFINITION. What follows every command and event: the store takes entries, a flush ends, replies and attention items become due, a sleep that was put off is entered; and the arrival of a whole command line. -/

namespace Sys2Proof.Machine

/-! ## Power (R178 to R182, R187, R188) -/

/-- The end of a flush, where one runs and the store begins nothing more: hold in reset, or a restart (R179, R181, R182). -/
def State.finishFlush (s : State) : State :=
  match s.phase, s.flight with
  | .flush f, none =>
    match f.kind with
    | .linkReset reads => s.restart .linkReset reads
    | .powerFail (some reads) => s.restart .powerOn reads
    | .powerFail none => s.holdInReset
  | _, _ => s

/-- The part may enter SLEEP (R187): it works in RUN, IGNITION is low, no line credits and no command is in progress. -/
def State.maySleep (s : State) : Bool :=
  s.isActive && s.mode == .run && !s.inputs.ignition && !s.anyCrediting && s.cmd.isNone

/-- Entry to SLEEP (R187, R189). The store's idle time begins anew (DESIGN CHOICE, log 65). -/
def State.enterSleep (s : State) : State :=
  { s with mode := .sleep, sleepDue := false, rx := { s.rx with buf := none, gap := 0 }, patrolIdle := 0 }

/-- A sleep put off until a settle or a command ended is entered (R187). -/
def State.trySleep (s : State) : State := if s.sleepDue = true ∧ s.maySleep = true then s.enterSleep else s

/-- The part wakes (R188): RUN, a sample of each line, the time of IGNITION low anew, and the store's idle time too (DESIGN CHOICE, log 65). -/
def State.wake (s : State) (samples : Pair Reading) : State :=
  { s with
    mode := .run, ignitionLow := 0, patrolIdle := 0
    meters := ⟨s.meters.one.take samples.one, s.meters.two.take samples.two⟩ }

/-- The part wakes by a row that carries no samples: their readings are free values (log 13). -/
def State.wakeUnseen (s : State) : State :=
  (s.wake ⟨Config.wakeReading 1 s.fresh, Config.wakeReading 2 s.fresh⟩).drew true

/-- The store goes on with its queue; each entry taken either stays in flight or lands at once (R33). -/
def State.runStore (s : State) : State := storeRun (s.queue.length + 1) s

/-- A flush whose store begins nothing more has ended: the restart's entries then begin (R181 to R183). -/
def State.settleFlush (s : State) : State := if s.isActive then s else s.finishFlush.runStore

/-- What follows every command and event. -/
def commit (s : State) : State := s.runStore.settleFlush.deliver.trySleep

/-! ## Arrival of a command line (R188 to R191) -/

/-- A command taken: the state with its changes made, its reply, and the entries that carry its changes. -/
structure Taken where
  st : State
  plan : Plan
  keys : List Key

/-- A command taken that changes nothing and is answered at once with some segments. -/
def report (s : State) (segments : List (List Tok)) : Except Code Taken := .ok ⟨s, .ready segments, []⟩

/-- A command judged by its owning block: in progress, or refused with a code (R190, R191). -/
def State.judged (s : State) (w : CmdWord) (r : Except Code Taken) : State :=
  match r with
  | .error c =>
    { s with cmd := some ⟨w, .ready [], .on [], true⟩ }.ready [⟨w.bytes, .no c, [], true⟩]
  | .ok t => { t.st with cmd := some ⟨w, t.plan, .on t.keys, false⟩ }

/-- The link takes characters: the part works in RUN, no break holds the line (R178, R182, R183). -/
def State.linkOpen (s : State) : Bool := s.isActive && s.mode == .run && s.rx.brk.isNone

/-- A whole good line of a word arrives (log 6): it wakes a sleeping part and is discarded (R188), is part of a line being discarded, is turned away with BUSY (R191), or is judged. -/
def arrive (w : CmdWord) (judge : State → Except Code Taken) (s : State) : State :=
  if s.linkOpen then
    if s.rx.discard then { s with rx := .waiting }
    else if s.cmd.isSome then { s with rx := .waiting }.turnAway w.bytes .BUSY
    else { s with rx := .waiting }.judged w (judge { s with rx := .waiting })
  else if s.isActive = true ∧ s.mode = .sleep then s.wakeUnseen
  else s

/-- The outcome of a command row: a restart under way ends (log 44), the line arrives, then what follows. -/
def take (w : CmdWord) (judge : State → Except Code Taken) (s : State) : Host.Outcome State Fault Refusal :=
  .next (commit (arrive w judge s.comesUp))

/-- The outcome of an event row: a restart under way ends (log 44), a change, then what follows. -/
def event (f : State → State) (s : State) : Host.Outcome State Fault Refusal := .next (commit (f s.comesUp))

/-- The outcome of an event row that acts only while the part works, not in a flush or a hold (R178, log 25). -/
def activeEvent (f : State → State) (s : State) : Host.Outcome State Fault Refusal :=
  event (fun s => if s.isActive then f s else s) s

end Sys2Proof.Machine
end

