-- ==== Sys2Proof/Machine/Reports.lean ====
section
/-! DEFINITION. The contents of replies and reports (R24 to R26, R51, R75, R123, R126, R131, R165, R168, R176, R195, R196, R198), as tokens. The item words the spec does not give are chosen (log 14), and so is the order of items where none is stated (log 37). -/

namespace Sys2Proof.Machine

/-! ## Items -/

/-- A natural number as a token. -/
def nat (n : Nat) : Tok := .num n

/-- An item: a word and a number. -/
def item (k : Kw) (n : Nat) : List Tok := [.kw k, nat n]

/-- An optional item, left out where absent (R192). -/
def optItem (k : Kw) : Option Nat → List Tok
  | some n => item k n
  | none => []

/-- A word item. -/
def kwItem (k v : Kw) : List Tok := [.kw k, .kw v]

/-- A yes or no item. -/
def yesItem (k : Kw) (b : Bool) : List Tok := kwItem k (if b then .YES else .NO)

/-- An on or off item. -/
def onItem (k : Kw) (b : Bool) : List Tok := kwItem k (if b then .ON else .OFF)

/-- A signed number or the word NONE (R192). -/
def intOrNone : Option Int → Tok
  | some v => .num v
  | none => .kw .NONE

/-- A number or the word NONE (R192). -/
def natOrNone : Option Nat → Tok
  | some v => nat v
  | none => .kw .NONE

/-- Words as tokens. -/
def kwToks (ks : List Kw) : List Tok := ks.map Tok.kw

/-! ## Words of enumerations -/

/-- Word of a kind (R3). -/
def kindKw : OrderKind → Kw
  | .fill => .FILL
  | .volume => .VOLUME
  | .amount => .AMOUNT

/-- Word of a record state (R3). -/
def recStateKw : RecState → Kw
  | .planned => .PLANNED
  | .held => .HELD
  | .bound => .BOUND
  | .ticketed => .TICKETED
  | .issued => .ISSUED
  | .damaged => .DAMAGED

/-- Word of an end cause (R4). -/
def EndCause.kw : EndCause → Kw
  | .limit => .LIMIT
  | .driver => .DRIVER
  | .timeout => .TIMEOUT

/-- Word of a restored marker (R3). -/
def Restored.kw : Restored → Kw
  | .none => .NONE
  | .final => .FINAL
  | .checkpoint => .CHECKPOINT

/-- Word of a line state (R93). -/
def LineState.kw : LineState → Kw
  | .setup => .SETUP
  | .idle => .IDLE
  | .armed => .ARMED
  | .flowing => .FLOWING
  | .stopping => .STOPPING
  | .settling => .SETTLING
  | .paused => .PAUSED
  | .fault => .FAULT

/-- Word of a run kind (R93). -/
def RunKind.kw : RunKind → Kw
  | .order => .ORDER
  | .prime => .PRIME
  | .prove => .PROVE

/-- Word of a pause cause (R93). -/
def PauseCause.kw : PauseCause → Kw
  | .driver => .DRIVER
  | .noFlow => .NO_FLOW
  | .dropEnd => .DROP_END
  | .interlock => .INTERLOCK
  | .air => .AIR
  | .reverse => .REVERSE
  | .deadman => .DEADMAN
  | .ignition => .IGNITION
  | .power => .POWER
  | .pulser => .PULSER
  | .store => .STORE

/-- Word of a stop intent (R93). -/
def StopIntent.kw : StopIntent → Kw
  | .limit => .LIMIT
  | .enddrop => .ENDDROP
  | .close => .CLOSE
  | .pause => .PAUSE
  | .noFlow => .NO_FLOW
  | .store => .STORE

/-- Hose content as a token (R137). -/
def HoseContent.tok : HoseContent → Tok
  | .product p => nat p
  | .mixed => .kw .MIXED
  | .empty => .kw .EMPTY

/-- Ticket line product as a token (R198). -/
def LineProduct.tok : LineProduct → Tok
  | .product p => nat p
  | .mixed => .kw .MIXED

/-- A date and time, or a word where absent. -/
def timeOr (k : Kw) : Option DateTime → Tok
  | some d => .time d
  | none => .kw k

/-! ## Records and tickets (R24, R198) -/

/-- A drop entry's accumulators and what follows them (R4, R24). -/
def DropState.toks : DropState → List Tok
  | .pending => kwItem .STATE .PENDING
  | .active a => kwItem .STATE .ACTIVE ++ item .GROSS a.gross ++ item .NET a.net ++ item .GATED a.gated ++ item .TNET (floorCl a.net)
  | .done a g n c =>
    kwItem .STATE .DONE ++ item .GROSS a.gross ++ item .NET a.net ++ item .GATED a.gated ++ item .TGROSS g ++ item .TNET n
      ++ kwItem .CAUSE c.kw
  | .skipped => kwItem .STATE .SKIPPED

/-- A drop list, numbered (R24). -/
def dropToks : Nat → List Drop → List Tok
  | _, [] => []
  | n, d :: ds =>
    item .DROP n ++ item .TANK d.tank ++ optItem .CAP d.cap ++ optItem .PRESET d.preset ++ d.st.toks ++ dropToks (n + 1) ds

/-- Binding fields of a record (R3). -/
def Binding.toks (b : Binding) : List Tok := item .LINE b.line.num ++ item .COMP b.comp ++ yesItem .PURGE b.purge

/-- The order fields of a record (R3, R11): every field but the drop list and the ticket part. -/
def Record.orderToks (r : Record) : List Tok :=
  item .STOP r.stop ++ item .ACCOUNT r.account ++ kwItem .STATE (recStateKw r.state) ++ item .PRODUCT r.product
    ++ kwItem .KIND (kindKw r.kind) ++ optItem .PRESET r.preset ++ optItem .PRICE r.price ++ optItem .CREDIT r.credit
    ++ (r.binding.map Binding.toks).getD [] ++ item .ATTEMPTS r.attempts ++ kwItem .RESTORED r.restored.kw
    ++ item .ISSUES r.issues

/-- A ticket line's positional fields (R198). -/
def TicketLine.toks (x : TicketLine) : List Tok :=
  (match x.kind with
    | .changeover => [.kw .CHANGEOVER, .kw .NONE]
    | .drop tank => [.kw .DROP, nat tank])
    ++ [x.product.tok, natOrNone x.gross, nat x.net, nat x.price, nat x.amount, nat x.tax]

/-- A ticket line as named items, an absent tank or gross left out (R24, R192). -/
def TicketLine.items (x : TicketLine) : List Tok :=
  (match x.kind with
    | .changeover => kwItem .KIND .CHANGEOVER
    | .drop tank => kwItem .KIND .DROP ++ item .TANK tank)
    ++ [.kw .PRODUCT, x.product.tok] ++ optItem .GROSS x.gross ++ item .NET x.net ++ item .PRICE x.price
    ++ item .AMOUNT x.amount ++ item .TAX x.tax

/-- Flags as a count and words (R198). -/
def RunFlags.toks (f : RunFlags) : List Tok := nat f.words.length :: kwToks f.words

/-- A ticket part as named items (R5, R24). Its line, compartment and product are not given again: the record's LINE, COMP and PRODUCT items carry them (DESIGN CHOICE, log 55). -/
def Ticket.items (t : Ticket) : List Tok :=
  item .TICKET t.number ++ item .ROUTE t.route ++ (match t.time with | some d => [.kw .TIME, .time d] | none => [])
    ++ kwItem .CAUSE t.cause.kw ++ item .CALCOUNT t.calCount
    ++ item .LINES t.lines.length ++ t.lines.flatMap TicketLine.items
    ++ item .GROSS t.gross ++ item .NET t.net ++ item .AMOUNT t.amount ++ item .TAX t.tax ++ item .TOTAL t.total
    ++ (match t.temp with | some v => [.kw .TEMP, .num v] | none => [])
    ++ .kw .FLAGS :: t.flags.toks ++ [.kw .HOSE, t.hose.tok]

/-- A record's fields (R24). -/
def Record.toks (r : Record) : List Tok :=
  r.orderToks ++ dropToks 1 r.drops ++ (r.ticket.map Ticket.items).getD []

/-- The line that holds a record. -/
def State.lineOf (s : State) (stop : Nat) : Option Line :=
  if s.lines.one.bound = some stop then some .one else if s.lines.two.bound = some stop then some .two else none

/-- The live amount estimate of a BOUND record (R24). -/
def State.estimate (s : State) (r : Record) : List Tok :=
  match s.lineOf r.stop with
  | some l => item .ESTIMATE (lineTotal (r.doneNet + r.liveNet) (s.priceOf l r) (s.rateBp l r))
  | none => []

/-- The whole report of a record in a slot (R24). -/
def State.recordReport (s : State) (n : Nat) (r : Record) : List Tok :=
  r.toks ++ s.estimate r ++ (if s.isUnsaved r.stop then [.kw .UNSAVED] else item .SLOT n)

/-- The report of a DAMAGED record (R24). -/
def damagedReport (n stop account : Nat) : List Tok :=
  item .SLOT n ++ kwItem .STATE .DAMAGED ++ item .STOP stop ++ item .ACCOUNT account ++ [.kw .UNRELIABLE]

/-- The ticket lines, each a segment, the first behind their count, the last before the closing fields (R198). -/
def lineSegments (closing : List Tok) : List TicketLine → List (List Tok)
  | [] => [closing]
  | [x] => [x.toks ++ closing]
  | x :: y :: xs => x.toks :: lineSegments closing (y :: xs)

/-- A token put before the first segment. -/
def headSegment (t : Tok) : List (List Tok) → List (List Tok)
  | [] => [[t]]
  | x :: xs => (t :: x) :: xs

/-- The segments of TKT.GET (R198). -/
def Ticket.reply (t : Ticket) (stop account issues : Nat) : List (List Tok) :=
  ([nat t.number, nat stop, nat account, nat t.route, timeOr .NONE t.time, .kw t.cause.kw, nat t.line.num, nat t.comp,
      nat t.calCount] ++ t.flags.toks ++ [intOrNone t.temp, nat t.gross, nat t.net, nat t.amount, nat t.tax, nat t.total])
    :: headSegment (nat t.lines.length) (lineSegments [t.hose.tok, nat issues] t.lines)

/-! ## Lists (R25, R26) -/

/-- At most 40 numbers, then MORE and the first not carried (R25, R26). -/
def page (xs : List Nat) : List Tok :=
  (xs.take 40).map nat ++ (match xs.drop 40 with | [] => [] | x :: _ => item .MORE x)

/-- Numbers at or above FROM. -/
def startingAt (start : Option Nat) (xs : List Nat) : List Nat :=
  xs.filter (fun n => decide (start.getD 0 ≤ n))

/-- Stops of an account, ascending, from FROM on (R25). -/
def State.stopsOf (s : State) (account : Nat) (start : Option Nat) : List Nat :=
  ascending (startingAt start ((s.records.filter (fun r => r.account == account)).map (·.stop)))

/-- Numbers of the slots that satisfy a test, ascending. -/
def slotNumbers (p : Slot → Bool) : Nat → List Slot → List Nat
  | _, [] => []
  | n, x :: xs => if p x then n :: slotNumbers p (n + 1) xs else slotNumbers p (n + 1) xs

/-- The slot of a DAMAGED record. -/
def Slot.isDamaged (x : Slot) : Bool :=
  match x.st with
  | .inUse (.damaged _ _) => true
  | _ => false

/-- The numbers ORD.LIST carries for a state (R26). -/
def State.inState (s : State) (st : RecState) (start : Option Nat) : List Nat :=
  startingAt start
    (if st = .damaged then slotNumbers Slot.isDamaged 1 s.slots
     else ascending ((s.records.filter (fun r => r.state == st)).map (·.stop)))

/-! ## Lines (R75, R123, R154) -/

/-- A limit as tokens, signed or UNLIMITED. -/
def Limit.tok : Limit → Tok
  | .unlimited => .kw .UNLIMITED
  | .cl v => .num v

/-- The period measurement's word (R68). -/
def Period.kw : Period → Kw
  | .seekDiscard => .SEEK_DISCARD
  | .discard _ => .DISCARD
  | .seek => .SEEK
  | .measure _ => .MEASURE

/-- The latest sample, with its probe state (R72, R75); left out where absent (R192). -/
def sampleToks : Option Reading → List Tok
  | none => []
  | some (.temp t) => [.kw .SAMPLE, .kw (if -4000 ≤ t ∧ t ≤ 6000 then .OK else .RANGE), .num t]
  | some .openCircuit => kwItem .SAMPLE .OPEN
  | some .shorted => kwItem .SAMPLE .SHORT

/-- An optional signed item, left out where absent (R192). -/
def optInt (k : Kw) : Option Int → List Tok
  | some v => [.kw k, .num v]
  | none => []

/-- The meter line's report (R75). -/
def Meter.toks (m : Meter) : List Tok :=
  item .RATE m.rate ++ item .BAND m.band ++ kwItem .PERIOD m.period.kw ++ sampleToks m.sample
    ++ optInt .LASTVALID m.lastValid ++ item .PHASEERR m.phaseErrors ++ kwItem .QUIET (if m.isQuiet then .EXPIRED else .RUNNING) ++ item .CREEP m.creep
    ++ .kw .LATCHES :: nat m.faultKinds.length :: kwToks m.faultKinds
    ++ item .FORWARD m.fwdTotal ++ item .BACK m.revTotal ++ item .RUNGATED m.runGated

/-- Time left on the running timers (R123), in µs (DESIGN CHOICE, log 56). -/
def Timers.toks (t : Timers) : List Tok :=
  optItem .WINDOW t.window ++ optItem .STEP t.step ++ optItem .SETTLE t.settle ++ optItem .NOFLOW t.noFlow
    ++ optItem .DEADMAN t.deadman ++ optItem .AUTOCLOSE t.autoClose ++ optItem .CHECKPOINT t.checkpoint

/-- A word item where present. -/
def optKw (k : Kw) : Option Kw → List Tok
  | some v => kwItem k v
  | none => []

/-- The four compartment outlets and PUMP, as they stand (R136, R154). -/
def State.outputToks (s : State) : List Tok :=
  onItem .PUMP s.outPump ++ .kw .OUTLETS :: [1, 2, 3, 4].map (fun c => .kw (if s.outOutlet c then .ON else .OFF))

/-- A line's stage outputs, as they stand (R96, R154). -/
def State.stageToks (s : State) (l : Line) : List Tok := onItem .OUTLOW (s.outLow l) ++ onItem .OUTHIGH (s.outHigh l)

/-- The run accumulators of a line (R75, R76): the remainders and the reverse balance always, 0 where no run is in hand (DESIGN CHOICE, log 56); the last VCF and the run volumes left out where absent (R192). -/
def LineCtx.accumulatorToks (c : LineCtx) : List Tok :=
  item .GROSSREM c.grossRem ++ item .NETREM c.netRem ++ item .REVBAL c.reverse ++ optItem .LASTVCF c.lastVcf
    ++ optItem .RUNGROSS c.runGross ++ optItem .RUNNET c.runNet

/-- The delivery context's report (R123), with the run accumulators and the PROVE result (R75). The live net is always given, 0 where no drop is ACTIVE and no run is in hand (DESIGN CHOICE, log 56). -/
def State.contextToks (s : State) (l : Line) : List Tok :=
  let c := s.line l
  kwItem .LINE c.st.kw ++ optKw .RUN (c.kind.map RunKind.kw) ++ optKw .CAUSE (c.cause.map PauseCause.kw)
    ++ optKw .INTENT (c.intent.map StopIntent.kw) ++ optKw .CUT (c.cut.map (fun x => x.pause.kw))
    ++ optItem .STOP c.bound ++ optItem .DROP ((s.boundRec l).bind (fun r => r.active.map (·.1)))
    ++ (match c.limit with
        | some x => [.kw .LIMIT, x.tok, .kw .REMAINING, (x.less (s.liveNet l)).tok]
        | none => [])
    ++ item .LIVE (s.liveNet l)
    ++ kwItem .LOW (if c.cmdLow then .OPEN else .CLOSED) ++ kwItem .HIGH (if c.cmdHigh then .OPEN else .CLOSED)
    ++ s.stageToks l
    ++ item .ANTIC (s.workingAntic l) ++ c.timers.toks ++ .kw .FLAGS :: (s.runFlags l).toks
    ++ c.accumulatorToks ++ (c.prove.map ProveResult.fields).getD []

/-- An input level. -/
def levelItem (k : Kw) (b : Bool) : List Tok := kwItem k (if b then .ON else .OFF)

/-- LN.STAT's report (R75, R76, R123, R154). -/
def State.lineReport (s : State) (l : Line) : List Tok :=
  s.contextToks l ++ (s.meter l).toks ++ levelItem .PERMIT s.inputs.permit
    ++ kwItem .IGNITION (if s.inputs.ignition then .HIGH else .LOW) ++ levelItem .DEADMAN s.inputs.deadman
    ++ levelItem .AIR (s.inputs.air.get l) ++ s.outputToks

/-! ## Compartments, products, settings, calibration -/

/-- A compartment's account: product, loaded, drawn, remaining, the OVERDRAWN mark (R127, R131, R176). -/
def Comp.toks (x : Comp) : List Tok :=
  [.kw .PRODUCT, natOrNone x.product] ++ item .LOADED x.loaded ++ item .DRAWN x.drawn ++ item .REMAINING x.remaining
    ++ (if x.overdrawn then [.kw .OVERDRAWN] else [])

/-- A compartment's report: its capacity and its account (R131). -/
def State.compToks (s : State) (c : Nat) : List Tok :=
  item .COMP c ++ item .CAPACITY ((nth1 s.settings.caps c).getD 0) ++ (s.load.comp c).toks

/-- A compartment in RTE.TOTALS: its account, without the capacity (R176). -/
def State.accountToks (s : State) (c : Nat) : List Tok := item .COMP c ++ (s.load.comp c).toks

/-- The pump binding (R131, R134, R195). -/
def State.pumpToks (s : State) : List Tok :=
  match s.pump with
  | none => [.kw .UNBOUND]
  | some b => item .BOUND b.comp ++ kwToks (wordIf b.lines.one .LINE1 ++ wordIf b.lines.two .LINE2)

/-- Both hoses' contents (R131). -/
def State.hoseToks (s : State) : List Tok :=
  [.kw .HOSE, nat 1, s.load.hoses.one.tok, .kw .HOSE, nat 2, s.load.hoses.two.tok]

/-- A product record's report (R126). -/
def State.productToks (s : State) (p : Nat) : List Tok :=
  let x := s.settings.product p
  item .PRODUCT p ++ [.kw .NAME, .name x.entry.name] ++ item .PRICE x.entry.price ++ item .TAX x.entry.tax
    ++ item .ALPHA x.alpha ++ onItem .COMP x.compOn ++ [.kw (if x.entry.defined then .DEFINED else .UNDEFINED)]

/-- The run settings (R166). -/
def RunSettings.toks (x : RunSettings) : List Tok :=
  item .NOFLOW x.noFlow ++ item .AUTOCLOSE x.autoClose ++ item .DEADMAN x.deadman ++ item .SLOWSTART x.slowStart
    ++ item .SLOWDOWN x.slowDown ++ item .STEP x.step

/-- SET.GET's report (R168). -/
def State.settingsToks (s : State) : List Tok :=
  s.settings.run.toks ++ item .ANTIC1 s.settings.lines.one.antic ++ item .ANTIC2 s.settings.lines.two.antic
    ++ kwItem .ATTN (if s.settings.attnHigh then .HIGH else .LOW)
    ++ [.kw .WORKING, nat (s.workingAntic .one), nat (s.workingAntic .two)]

/-- A latched product table, numbered (R98, R168). -/
def tableToks : Nat → List TableEntry → List Tok
  | _, [] => []
  | n, e :: es =>
    item .PRODUCT n ++ [.kw .NAME, .name e.name] ++ item .PRICE e.price ++ item .TAX e.tax
      ++ [.kw (if e.defined then .DEFINED else .UNDEFINED)] ++ tableToks (n + 1) es

/-- SET.GET LATCHED's report (R168). -/
def Latched.toks (x : Latched) : List Tok := x.run.toks ++ tableToks 1 x.table

/-- The products for which a set is present, numbered (R165). -/
def presentSets : Nat → List (Option CalSet) → List Tok
  | _, [] => []
  | n, x :: xs => (if x.isSome then [nat n] else []) ++ presentSets (n + 1) xs

/-- A line's sealed items (R165), an absent one left out (R192); the products with a set behind their count (DESIGN CHOICE, log 69). -/
def State.calLineToks (s : State) (l : Line) : List Tok :=
  item .LINE l.num ++ optItem .PR (s.items l).pr ++ optItem .HOSE (s.items l).hose
    ++ .kw .SETS :: nat ((s.settings.sets.get l).countP (·.isSome)) :: presentSets 1 (s.settings.sets.get l)

/-- The products' sealed items, numbered (R165). -/
def alphaToks : Nat → List Product → List Tok
  | _, [] => []
  | n, p :: ps => item .PRODUCT n ++ item .ALPHA p.alpha ++ onItem .COMP p.compOn ++ alphaToks (n + 1) ps

/-- The calibration event counter with its LOST mark (R160, R165, R196). -/
def State.countToks (s : State) : List Tok :=
  nat s.settings.calCount :: (if s.settings.countLost then [.kw .LOST] else [])

/-- CAL.GET's report (R165). -/
def State.calToks (s : State) : List Tok :=
  kwItem .SEAL (if s.inputs.sealOpen then .OPEN else .CLOSED) ++ yesItem .SESSION s.settings.session
    ++ .kw .COUNT :: s.countToks ++ (if s.settings.calLost then [.kw .CALLOST] else [])
    ++ s.calLineToks .one ++ s.calLineToks .two ++ alphaToks 1 s.settings.products
    ++ .kw .CAP :: s.settings.caps.map nat

/-- A calibration set's bands (R165). -/
def setToks : Option CalSet → List Tok
  | none => [.kw .NONE]
  | some x => x.upper.flatMap (fun p => [nat p.1, nat p.2]) ++ [nat x.last]

/-! ## Route, status, store -/

/-- A block's condition (R51, R176). -/
def markKw (failed : Bool) : Kw := if failed then .FAILED else .GOOD

/-- A product's totals with the route balance (R176, R177); nothing where all are 0. -/
def Totals.toks (p : Nat) (x : Totals) : List Tok :=
  if x = .zero then []
  else
    item .PRODUCT p ++ item .TICKETS x.tickets ++ item .NET x.net ++ item .AMOUNT x.amount ++ item .TAX x.tax
      ++ item .DRAWN x.drawn ++ item .PRIMED x.primed
      ++ [.kw .BALANCE, .num ((x.drawn : Int) + (x.primed : Int) - (x.net : Int))]

/-- Totals of the products, numbered (R176). -/
def totalsToks : Nat → List Totals → List Tok
  | _, [] => []
  | n, x :: xs => x.toks n ++ totalsToks (n + 1) xs

/-- Route state and number (R176, R195), an absent number left out (R192). -/
def State.routeToks (s : State) : List Tok :=
  kwItem .ROUTE (if s.route.isOpen then .OPEN else .CLOSED) ++ optItem .NUMBER s.route.number

/-- A line's hose content and hose volume (R176), an absent volume left out (R192). -/
def State.lineHoseToks (s : State) (l : Line) : List Tok :=
  [.kw .HOSE, nat l.num, (s.load.hoses.get l).tok] ++ optItem .VOLUME (s.items l).hose

/-- RTE.TOTALS's report (R176). Where the totals of every product are 0, their segment is empty and still has its line, with no fields (the model's choice, log 15). -/
def State.totalsReport (s : State) : List (List Tok) :=
  [s.routeToks ++ [.kw .TIME, timeOr .TIME_UNKNOWN s.route.openTime] ++ item .COUNTER s.counter
      ++ item .COPY s.route.counterCopy ++ item .APPLIED s.route.lastApplied ++ item .LOAD s.load.lastApplied,
    totalsToks 1 s.route.totals,
    s.accountToks 1 ++ s.accountToks 2 ++ s.accountToks 3 ++ s.accountToks 4,
    s.lineHoseToks .one ++ s.lineHoseToks .two ++ kwItem .LOAD (markKw s.failed.load) ++ kwItem .ROUTE (markKw s.failed.route)]

/-- A line in STATUS, with its stage outputs (R154, R195). -/
def State.statusLine (s : State) (l : Line) : List Tok :=
  item .LINE l.num ++ [.kw (s.line l).st.kw]
    ++ (if (s.line l).st = .paused then ((s.line l).cause.map (fun c => [Tok.kw c.kw])).getD [] else [])
    ++ (if (s.line l).st = .fault then kwToks (s.meter l).faultKinds else [])
    ++ optItem .STOP (s.line l).bound ++ s.stageToks l

/-- Count of ticket number reservations (R19). -/
def State.reservations (s : State) : Nat :=
  (if s.lines.one.reserved then 1 else 0) + (if s.lines.two.reserved then 1 else 0)

/-- The attention set as STATUS carries it (R195). -/
def State.attentionToks (s : State) : List Tok :=
  if s.attentionSet.isEmpty then [.kw .NONE] else kwToks s.attentionSet

/-- STATUS's report (R136, R154, R183, R195). -/
def State.statusReport (s : State) : List Tok :=
  s.attentionToks ++ s.statusLine .one ++ s.statusLine .two
    ++ levelItem .PERMIT s.inputs.permit ++ kwItem .IGNITION (if s.inputs.ignition then .HIGH else .LOW)
    ++ levelItem .DEADMAN s.inputs.deadman ++ s.outputToks
    ++ s.pumpToks ++ s.routeToks ++ item .COUNTER s.counter ++ item .RESERVED s.reservations
    ++ kwItem .CLOCK (if s.clock.valid then .VALID else .INVALID)
    ++ kwItem .MODE (match s.mode with | .run => .RUN | .sleep => .SLEEP)
    ++ [.kw (match s.resetCause.cause with | .powerOn => .POWER_ON | .linkReset => .LINK_RESET), .kw .REAPPLIED,
        nat s.resetCause.loadApplied, nat s.resetCause.routeApplied] ++ item .RESTORED s.resetCause.restoredLines

/-- IDENT's report (R196). -/
def State.identReport (s : State) : List Tok :=
  [.kw .TANDEKO, .kw .EGMARA, nat 2400, nat Config.firmwareLevel, nat (1 + Config.serialNumber % 99999999)] ++ s.countToks
    ++ [.kw .SLOTS, nat 80, nat 2, nat 6, nat 4]

/-- The capture set, absent parts omitted (R51, R52). -/
def Captures.toks (c : Captures) : List Tok :=
  (match c.latest with | some p => [.kw .LATEST, nat p.1, nat p.2] | none => [])
    ++ (if c.first.isEmpty then [] else .kw .FIRST :: c.first.flatMap (fun p => [nat p.1, nat p.2]))

/-- The kind of operation in flight (R51). -/
def flightKw : Option Flight → Kw
  | none => .NONE
  | some (.record _) => .RECORD
  | some (.block _ _) => .BLOCK
  | some (.release _) => .RELEASE
  | some (.patrol _) => .PATROL

/-- A slot holds a live record (R30). -/
def Slot.isLive (x : Slot) : Bool := x.isInUse || x.isCondemned

/-- The greatest program count among the slots not RETIRED (R51). -/
def State.topProgram (s : State) : Nat := ((s.slots.filter (fun x => !x.isRetired)).map (·.program)).foldr max 0

/-- STORE's report (R51). -/
def State.storeReport (s : State) : List Tok :=
  item .FREE (s.countSlots Slot.isFree) ++ item .INUSE (s.countSlots Slot.isInUse)
    ++ item .CONDEMNED (s.countSlots Slot.isCondemned) ++ item .RETIRED (s.countSlots Slot.isRetired)
    ++ item .RECORDS (s.countSlots Slot.isLive) ++ item .QUEUE s.queue.length ++ kwItem .FLIGHT (flightKw s.flight)
    ++ kwItem .SETTINGS (markKw s.failed.settings) ++ kwItem .LOAD (markKw s.failed.load)
    ++ kwItem .ROUTE (markKw s.failed.route) ++ .kw .UNSAVED :: s.unsaved.map nat
    ++ item .PROGRAM s.topProgram ++ s.captures.toks

/-- Word of a slot's condition (R28). -/
def Slot.conditionKw (x : Slot) : Kw :=
  match x.st with
  | .free => .FREE
  | .inUse _ => .INUSE
  | .condemned _ => .CONDEMNED
  | .retired => .RETIRED

/-- The stop of the record a slot is home of (R51). -/
def Slot.stop? (x : Slot) : Option Nat :=
  match x.st with
  | .inUse (.record r) => some r.stop
  | .inUse (.damaged stop _) => some stop
  | .condemned r => some r.stop
  | _ => none

/-- STORE SLOT's report (R51). -/
def Slot.report (n : Nat) (x : Slot) : List Tok :=
  item .SLOT n ++ [.kw x.conditionKw] ++ item .PROGRAM x.program ++ item .CORRECTIONS x.corr ++ optItem .STOP x.stop?

end Sys2Proof.Machine
end

