-- ==== Sys2Proof/Machine/Orders.lean ====
section
/-! DEFINITION. The order and ticket commands (R1, R2, R8 to R14, R20 to R26), with amendments while bound (R12, R120). -/

namespace Sys2Proof.Machine

/-! ## Ranges (R3, R4) -/

/-- A stop number (1.5). -/
def stopOk (n : Nat) : Bool := within 1 9999 n

/-- An account number (1.5). -/
def accountOk (n : Nat) : Bool := within 1 9999999999 n

/-- An order preset of a kind (R3): required for VOLUME and AMOUNT, forbidden for FILL. -/
def presetOk (k : OrderKind) : Option Nat → Bool
  | none => k == .fill
  | some p =>
    match k with
    | .fill => false
    | .volume => within 1 2000000 p
    | .amount => within 100 9999999 p

/-- A price (R3). -/
def priceOk (p : Option Nat) : Bool := withinOpt 1 99999 p

/-- A credit limit (R3). -/
def creditOk (p : Option Nat) : Bool := withinOpt 0 9999999 p

/-- A drop's cap or preset (R4). -/
def dropVolumeOk (p : Option Nat) : Bool := withinOpt 1 2000000 p

/-- A PLANNED or HELD record. -/
def Record.isShapable (r : Record) : Bool := r.state == .planned || r.state == .held

/-- A TICKETED or ISSUED record. -/
def Record.isFrozen (r : Record) : Bool := r.state == .ticketed || r.state == .issued

/-- The checks that come first for a command that names a stop: its fields, then the lookup (R1, R2). -/
def withRecord (s : State) (stop : Nat) (fields : Bool) (k : Record → Except Code Taken) : Except Code Taken :=
  if fields = true ∧ stopOk stop = true then
    match s.recOf stop with
    | some r => k r
    | none => .error .NOT_FOUND
  else .error .RANGE

/-- A record changed by a command: its write queued and waited for, the reply decided (R2). -/
def taken (s : State) (stop : Nat) (fields : List Tok) : Except Code Taken := .ok ⟨s, .ready [fields], [.record stop]⟩

/-! ## ORD.NEW (R8) -/

/-- A new record (R8). -/
def newRecord (stop account product : Nat) (kind : OrderKind) (preset price credit : Option Nat) : Record :=
  { stop := stop, account := account, state := .planned, product := product, kind := kind, preset := preset
    price := price, credit := credit, drops := [⟨1, none, none, .pending⟩], binding := none, attempts := 0
    restored := .none, ticket := none, issues := 0, flags := .empty }

/-- The fields of ORD.NEW are in range and its product is defined (R8). -/
def ordNewOk (s : State) (stop account product : Nat) (kind : OrderKind) (preset price credit : Option Nat) : Bool :=
  stopOk stop && accountOk account && within 1 6 product && (s.settings.product product).entry.defined
    && presetOk kind preset && priceOk price && creditOk credit

/-- Judgement of ORD.NEW (R8, R31). The reply's FREE count is taken when the command is taken, its own slot already IN USE (DESIGN CHOICE, log 54). -/
def judgeOrdNew (stop account product : Nat) (kind : OrderKind) (preset price credit : Option Nat) (s : State) :
    Except Code Taken :=
  if ordNewOk s stop account product kind preset price credit then
    if (s.recOf stop).isSome then .error .EXISTS
    else if s.countSlots Slot.isFree < 5 then .error .FULL
    else
      match s.allocate s.flightTarget with
      | none => .error .FULL
      | some n =>
        let t := (s.modSlot n (fun x =>
          { x with st := .inUse (.record (newRecord stop account product kind preset price credit)) })).enqueue
            (.record stop)
        taken t stop (item .STOP stop ++ item .FREE (t.countSlots Slot.isFree))
  else .error .RANGE

/-- ORD.NEW (R8). -/
def execOrdNew (stop account product : Nat) (kind : OrderKind) (preset price credit : Option Nat) (s : State) :
    Host.Outcome State Fault Refusal :=
  take .ORD_NEW (judgeOrdNew stop account product kind preset price credit) s

/-! ## ORD.DROP (R9, R10) -/

/-- The named fields of a drop entry replaced (R9). -/
def Drop.amended (tank cap preset : Option Nat) (noCap noPreset : Bool) (d : Drop) : Drop :=
  { d with
    tank := tank.getD d.tank
    cap := if noCap then none else if cap.isSome then cap else d.cap
    preset := if noPreset then none else if preset.isSome then preset else d.preset }

/-- A record with its drop k set or added (R9). -/
def Record.setDrop (k : Nat) (tank cap preset : Option Nat) (noCap noPreset : Bool) (r : Record) : Record :=
  if k ≤ r.drops.length then { r with drops := modNth1 r.drops k (Drop.amended tank cap preset noCap noPreset) }
  else { r with drops := r.drops ++ [⟨tank.getD k, cap, preset, .pending⟩] }

/-- Judgement of ORD.DROP with a number (R9). -/
def judgeOrdDrop (stop k : Nat) (tank cap preset : Option Nat) (noCap noPreset : Bool) (s : State) : Except Code Taken :=
  withRecord s stop
    (within 1 3 k && withinOpt 1 9 tank && dropVolumeOk cap && dropVolumeOk preset
      && !(cap.isSome && noCap) && !(preset.isSome && noPreset))
    (fun r =>
      if r.drops.length + 1 < k then .error .RANGE
      else if r.isShapable then
        taken (s.changeRec stop (Record.setDrop k tank cap preset noCap noPreset)) stop
          (dropToks 1 (r.setDrop k tank cap preset noCap noPreset).drops)
      else .error .STATE)

/-- ORD.DROP with a drop number (R9). -/
def execOrdDrop (stop k : Nat) (tank cap preset : Option Nat) (noCap noPreset : Bool) (s : State) :
    Host.Outcome State Fault Refusal :=
  take .ORD_DROP (judgeOrdDrop stop k tank cap preset noCap noPreset) s

/-- A record without its last drop (R10). -/
def Record.dropLast (r : Record) : Record := { r with drops := r.drops.dropLast }

/-- Judgement of ORD.DROP CLEAR (R10). -/
def judgeOrdDropClear (stop : Nat) (s : State) : Except Code Taken :=
  withRecord s stop true (fun r =>
    if r.drops.length ≤ 1 then .error .RANGE
    else if r.isShapable then taken (s.changeRec stop Record.dropLast) stop (dropToks 1 r.dropLast.drops)
    else .error .STATE)

/-- ORD.DROP CLEAR (R10). -/
def execOrdDropClear (stop : Nat) (s : State) : Host.Outcome State Fault Refusal :=
  take .ORD_DROP (judgeOrdDropClear stop) s

/-! ## ORD.GET, ORD.FIND, ORD.LIST (R24 to R26) -/

/-- The occupant a SLOT form finds (R1): not a free or retired slot, nor the slot of an unsaved image. -/
def State.bySlot (s : State) (n : Nat) : Except Code Occupant :=
  if within 1 80 n then
    match s.slot n with
    | some x =>
      match x.st with
      | .inUse o => .ok o
      | _ => .error .NOT_FOUND
    | none => .error .NOT_FOUND
  else .error .RANGE

/-- Judgement of ORD.GET (R1, R24). -/
def judgeOrdGet (target : Target) (s : State) : Except Code Taken :=
  match target with
  | .stop n => withRecord s n true (fun r => report s [s.recordReport ((s.homeOf n).getD 0) r])
  | .slot n =>
    match s.bySlot n with
    | .ok (.record r) => report s [s.recordReport n r]
    | .ok (.damaged stop account) => report s [damagedReport n stop account]
    | .error c => .error c

/-- ORD.GET (R24). -/
def execOrdGet (target : Target) (s : State) : Host.Outcome State Fault Refusal := take .ORD_GET (judgeOrdGet target) s

/-- Judgement of ORD.FIND (R25). -/
def judgeOrdFind (account : Nat) (start : Option Nat) (s : State) : Except Code Taken :=
  if accountOk account = true ∧ withinOpt 1 9999 start = true then
    if s.stopsOf account start = [] then .error .NOT_FOUND else report s [page (s.stopsOf account start)]
  else .error .RANGE

/-- ORD.FIND (R25). -/
def execOrdFind (account : Nat) (start : Option Nat) (s : State) : Host.Outcome State Fault Refusal :=
  take .ORD_FIND (judgeOrdFind account start) s

/-- Judgement of ORD.LIST (R26). -/
def judgeOrdList (st : RecState) (start : Option Nat) (s : State) : Except Code Taken :=
  if withinOpt 1 (if st = .damaged then 80 else 9999) start then
    report s [nat ((s.inState st start).take 40).length :: page (s.inState st start)]
  else .error .RANGE

/-- ORD.LIST (R26). -/
def execOrdList (st : RecState) (start : Option Nat) (s : State) : Host.Outcome State Fault Refusal :=
  take .ORD_LIST (judgeOrdList st start) s

/-! ## ORD.AMEND (R11, R12, R120) -/

/-- The fields of an amendment that need no record are in range and do not contradict each other (R11). -/
def Amend.fieldsOk (a : Amend) : Bool :=
  (a.price.isSome || a.noPrice || a.credit.isSome || a.noCredit || a.kind.isSome || a.preset.isSome || a.dpreset.isSome)
    && priceOk a.price && creditOk a.credit && !(a.price.isSome && a.noPrice) && !(a.credit.isSome && a.noCredit)
    && withinOpt 1 9999999 a.preset
    && (match a.kind with
        | some k => a.preset.isNone || presetOk k a.preset
        | none => true)
    && (match a.dpreset with
        | some (k, p) => within 1 3 k && within 1 2000000 p
        | none => true)

/-- A record as it would stand with an amendment made (R11). -/
def Amend.apply (a : Amend) (r : Record) : Record :=
  { r with
    price := if a.noPrice then none else if a.price.isSome then a.price else r.price
    credit := if a.noCredit then none else if a.credit.isSome then a.credit else r.credit
    kind := a.kind.getD r.kind
    preset := if a.preset.isSome then a.preset else if a.kind = some .fill then none else r.preset
    drops :=
      match a.dpreset with
      | some (k, p) => modNth1 r.drops k (fun d => { d with preset := some p })
      | none => r.drops }

/-- The record may stand as amended (R11). -/
def Amend.recordOk (a : Amend) (r : Record) : Bool :=
  presetOk (Amend.apply a r).kind (Amend.apply a r).preset
    && (match a.kind with
        | some k => k == r.kind || k == .fill || a.preset.isSome
        | none => true)
    && (match a.dpreset with
        | some (k, _) => (nth1 r.drops k).isSome
        | none => true)

/-- The amendment names only what a BOUND record accepts, and no DONE drop (R12). -/
def Amend.boundOk (a : Amend) (r : Record) : Bool :=
  a.price.isNone && !a.noPrice && a.credit.isNone && !a.noCredit && a.kind.isNone
    && (match a.dpreset with
        | some (k, _) => !((nth1 r.drops k).any Drop.isDone)
        | none => true)

/-- A record amended and its write queued. -/
def amendTaken (s : State) (stop : Nat) (r : Record) : Except Code Taken := taken s stop r.orderToks

/-- The limit of a line's ACTIVE drop computed again (R100, R120). -/
def State.relimit (s : State) (l : Line) : State :=
  match s.boundRec l with
  | some r =>
    match r.active with
    | some d => s.modLine l (fun c => { c with limit := some (s.dropLimit l r d.2) })
    | none => s
  | none => s

/-- The delivery controller's judgement of an amendment of its bound record (R120). -/
def judgeBoundAmend (l : Line) (stop : Nat) (a : Amend) (r : Record) (s : State) : Except Code Taken :=
  match (s.line l).st with
  | .armed => amendTaken (s.changeRec stop (Amend.apply a)) stop (Amend.apply a r)
  | .flowing => amendTaken (((s.changeRec stop (Amend.apply a)).relimit l).stageDecisions l) stop (Amend.apply a r)
  | .paused => amendTaken ((s.changeRec stop (Amend.apply a)).relimit l) stop (Amend.apply a r)
  | _ => .error .TOO_LATE

/-- Judgement of ORD.AMEND (R11, R12). -/
def judgeOrdAmend (stop : Nat) (a : Amend) (s : State) : Except Code Taken :=
  withRecord s stop (Amend.fieldsOk a) (fun r =>
    if r.isFrozen then .error .STATE
    else if Amend.recordOk a r = false then .error .RANGE
    else if r.isShapable then amendTaken (s.changeRec stop (Amend.apply a)) stop (Amend.apply a r)
    else if Amend.boundOk a r then
      match s.lineOf stop with
      | some l => judgeBoundAmend l stop a r s
      | none => .error .STATE
    else .error .STATE)

/-- ORD.AMEND (R11). -/
def execOrdAmend (stop : Nat) (a : Amend) (s : State) : Host.Outcome State Fault Refusal :=
  take .ORD_AMEND (judgeOrdAmend stop a) s

/-! ## ORD.HOLD, ORD.RELEASE, ORD.CANCEL, ORD.RETIRE (R13, R14, R23) -/

/-- A record moved from one state to another, and refused in any other (R13). -/
def moveState (before after : RecState) (stop : Nat) (s : State) : Except Code Taken :=
  withRecord s stop true (fun r =>
    if r.state = before then taken (s.changeRec stop (fun r => { r with state := after })) stop [.kw (recStateKw after)]
    else .error .STATE)

/-- ORD.HOLD (R13). -/
def execOrdHold (stop : Nat) (s : State) : Host.Outcome State Fault Refusal := take .ORD_HOLD (moveState .planned .held stop) s

/-- ORD.RELEASE (R13). -/
def execOrdRelease (stop : Nat) (s : State) : Host.Outcome State Fault Refusal :=
  take .ORD_RELEASE (moveState .held .planned stop) s

/-- A record removed from the table: discarded at once where its home is CONDEMNED, else by a release (R37). -/
def removal (s : State) (n stop : Nat) (condemned : Bool) (plan : Plan) : Except Code Taken :=
  if condemned then .ok ⟨s.discard n stop, plan, []⟩ else .ok ⟨s.askRelease n, plan, [.release n]⟩

/-- Judgement of ORD.CANCEL (R14). -/
def judgeOrdCancel (stop : Nat) (s : State) : Except Code Taken :=
  withRecord s stop true (fun r =>
    if r.isShapable then
      match s.homeOf stop with
      | some n => removal s n stop ((s.slot n).elim false Slot.isCondemned) .freeCount
      | none => .error .NOT_FOUND
    else .error .STATE)

/-- ORD.CANCEL (R14). -/
def execOrdCancel (stop : Nat) (s : State) : Host.Outcome State Fault Refusal := take .ORD_CANCEL (judgeOrdCancel stop) s

/-- Judgement of ORD.RETIRE (R1, R23). -/
def judgeOrdRetire (target : Target) (s : State) : Except Code Taken :=
  match target with
  | .stop stop =>
    withRecord s stop true (fun r =>
      if r.state = .issued then
        match s.homeOf stop with
        | some n => removal s n stop ((s.slot n).elim false Slot.isCondemned) .freeRetired
        | none => .error .NOT_FOUND
      else .error .STATE)
  | .slot n =>
    match s.bySlot n with
    | .ok (.record r) => if r.state = .issued then removal s n r.stop false .freeRetired else .error .STATE
    | .ok (.damaged _ _) => removal s n 0 false .freeRetired
    | .error c => .error c

/-- ORD.RETIRE (R23). -/
def execOrdRetire (target : Target) (s : State) : Host.Outcome State Fault Refusal :=
  take .ORD_RETIRE (judgeOrdRetire target) s

/-! ## TKT.GET, TKT.ISSUE (R21, R22) -/

/-- Judgement of TKT.GET (R21, R198). -/
def judgeTktGet (stop : Nat) (s : State) : Except Code Taken :=
  withRecord s stop true (fun r =>
    match r.isFrozen, r.ticket with
    | true, some t => report s (t.reply r.stop r.account r.issues)
    | _, _ => .error .STATE)

/-- TKT.GET (R21). -/
def execTktGet (stop : Nat) (s : State) : Host.Outcome State Fault Refusal := take .TKT_GET (judgeTktGet stop) s

/-- A ticket confirmed (R22). -/
def Record.confirmed (r : Record) : Record :=
  { r with state := .issued, issues := if r.state = .issued then satAdd 255 r.issues 1 else 1 }

/-- Judgement of TKT.ISSUE (R22). -/
def judgeTktIssue (stop : Nat) (s : State) : Except Code Taken :=
  withRecord s stop true (fun r =>
    if r.isFrozen then taken (s.changeRec stop Record.confirmed) stop [nat r.confirmed.issues] else .error .STATE)

/-- TKT.ISSUE (R22). -/
def execTktIssue (stop : Nat) (s : State) : Host.Outcome State Fault Refusal := take .TKT_ISSUE (judgeTktIssue stop) s

end Sys2Proof.Machine
end

