-- ==== Sys2Proof/Machine/LineCommands.lean ====
section
/-! DEFINITION. The line commands (R67, R95, R97 to R101, R109 to R111, R113, R115, R121 to R123). -/

namespace Sys2Proof.Machine

/-- The check of a command's line number (R97). -/
def withLine (n : Nat) (k : Line → Except Code Taken) : Except Code Taken :=
  match Line.ofNum n with
  | some l => k l
  | none => .error .RANGE

/-! ## LN.ARM (R97, R98, R132, R138) -/

/-- A compartment's product is a product. -/
def State.compHolds (s : State) (c p : Nat) : Bool := (s.load.comp c).product == some p

/-- The compartment chosen for a product (R132). -/
def State.chooseComp (s : State) (p : Nat) (comp : Option Nat) : Option Nat :=
  if (s.settings.product p).entry.defined then
    match comp with
    | some c => if s.compHolds c p then some c else none
    | none => [1, 2, 3, 4].find? (fun c => s.compHolds c p && decide (0 < (s.load.comp c).remaining))
  else none

/-- The hose test (R138): a refusal, or the purge field. A line without a hose volume is tested as any other (log 10). -/
def State.hoseTest (s : State) (l : Line) (p : Nat) (purge : Bool) : Except Code Bool :=
  if (s.items l).hose = some 0 then .ok false
  else
    match s.load.hoses.get l with
    | .empty => .error .HOSE_EMPTY
    | .product q => if q = p then .ok false else if purge then .ok true else .error .HOSE_MISMATCH
    | .mixed => if purge then .ok true else .error .HOSE_MISMATCH

/-- A record bound to a line (R15). -/
def Record.boundTo (l : Line) (comp : Nat) (purge : Bool) (r : Record) : Record :=
  { r with state := .bound, binding := some ⟨l, comp, purge⟩ }

/-- The line context when LN.ARM is taken (R98). -/
def LineCtx.armed (stop antic : Nat) (x : Latched) (c : LineCtx) : LineCtx :=
  { c with st := .armed, bound := some stop, latched := some x, antic := antic }

/-- LN.ARM taken (R15, R98, R134). -/
def State.arm (s : State) (l : Line) (stop comp : Nat) (purge : Bool) : State :=
  ((s.changeRec stop (Record.boundTo l comp purge)).modLine l
    (LineCtx.armed stop (s.items l).antic s.settings.latch)).joinPump l comp

/-- The checks of LN.ARM after the record's state, in the order of R97. -/
def armChecks (s : State) (l : Line) (r : Record) (comp : Option Nat) (purge : Bool) : Except Code (Nat × Bool) :=
  if s.route.isOpen = false then .error .NO_ROUTE
  else if s.inputs.sealOpen then .error .SEAL_OPEN
  else if s.storeTrouble then .error .STORE_FAIL
  else if s.settings.calLost = true ∨ (s.settings.calSet l r.product).isNone = true then .error .NO_CAL
  else
    match s.chooseComp r.product comp with
    | none => .error .NO_PRODUCT
    | some c =>
      match s.hoseTest l r.product purge with
      | .error e => .error e
      | .ok p => if s.pumpGrants c then .ok (c, p) else .error .PUMP_BUSY

/-- Judgement of LN.ARM (R97). -/
def judgeLnArm (line stop : Nat) (comp : Option Nat) (purge : Bool) (s : State) : Except Code Taken :=
  withLine line (fun l =>
    if withinOpt 1 4 comp = false then .error .RANGE
    else if (s.line l).st ≠ .idle then .error .STATE
    else
      match s.recOf stop with
      | none => .error .NOT_FOUND
      | some r =>
        if r.state ≠ .planned then .error .STATE
        else
          match armChecks s l r comp purge with
          | .error e => .error e
          | .ok (c, p) =>
            taken (s.arm l stop c p) stop (item .LINE l.num ++ item .STOP stop ++ item .COMP c ++ yesItem .PURGE p))

/-- LN.ARM (R97). -/
def execLnArm (line stop : Nat) (comp : Option Nat) (purge : Bool) (s : State) : Host.Outcome State Fault Refusal :=
  take .LN_ARM (judgeLnArm line stop comp purge) s

/-! ## LN.DISARM (R99) -/

/-- The line stands ARMED, or PAUSED(POWER) with every drop of its record PENDING (R99, R101). -/
def State.unstarted (s : State) (l : Line) : Bool :=
  (s.line l).st == .armed
    || ((s.line l).st == .paused && (s.line l).cause == some .power && (s.boundRec l).any Record.allPending)

/-- LN.DISARM taken: the line enters IDLE, or FAULT with its item where a fault is latched; the phase-error and creep counts stay, no run having begun (the model's reading, log 29). -/
def State.release (s : State) (l : Line) : State :=
  if (s.meter l).latched then (s.disarm l .fault).setAttention l else s.disarm l .idle

/-- Judgement of LN.DISARM (R99). -/
def judgeLnDisarm (line : Nat) (s : State) : Except Code Taken :=
  withLine line (fun l =>
    if s.unstarted l then
      match (s.line l).bound with
      | some stop => taken (s.release l) stop (item .LINE l.num ++ item .STOP stop ++ [.kw .PLANNED])
      | none => .error .STATE
    else .error .STATE)

/-- LN.DISARM (R99). -/
def execLnDisarm (line : Nat) (s : State) : Host.Outcome State Fault Refusal := take .LN_DISARM (judgeLnDisarm line) s

/-! ## Checks shared by the commands that start flow (R101, R109, R115, R144, R146, R157) -/

/-- PERMIT and IGNITION, then the air sensor, then the calibration; then what follows. -/
def flowChecks (s : State) (l : Line) (k : Except Code Taken) : Except Code Taken :=
  if s.interlock = false then .error .INTERLOCK
  else if s.inputs.air.get l then .error .STATE
  else if s.settings.calLost then .error .NO_CAL
  else k

/-! ## LN.START (R101) -/

/-- The record at its first start (R4, R15, R101, R118). -/
def Record.started (price : Nat) (r : Record) : Record :=
  { r with price := some price, drops := modNth r.drops 0 Drop.activate, restored := .checkpoint, flags := .empty }

/-- A ticket number reservation can be taken, or is held (R19): a record that holds one from its restoration may start whatever the counter stands at (the model's choice, log 72). -/
def State.canReserve (s : State) (l : Line) : Bool :=
  (s.line l).reserved || decide (s.counter + s.reservations < 99999999)

/-- LN.START taken (R101). -/
def State.start (s : State) (l : Line) (stop : Nat) (r : Record) (limit : Limit) : State :=
  (((s.changeRec stop (Record.started (s.priceOf l r))).beginRun l .order).modLine l
    (fun c => { c with reserved := true, limit := some limit })).enterFlowing l 0

/-- Judgement of LN.START (R19, R101, R119). -/
def judgeLnStart (line : Nat) (s : State) : Except Code Taken :=
  withLine line (fun l =>
    if s.unstarted l = false then .error .STATE
    else if s.boundIsUnsaved l then .error .STORE_FAIL
    else
      match s.boundRec l with
      | none => .error .STATE
      | some r =>
        match r.firstPending with
        | none => .error .STATE
        | some d =>
          flowChecks s l
            (if (s.dropLimit l r d.2).atMost 0 then .error .LIMIT_ZERO
             else if s.canReserve l = false then .error .TICKETS_EXHAUSTED
             else taken (s.start l r.stop r (s.dropLimit l r d.2)) r.stop [.kw .LIMIT, (s.dropLimit l r d.2).tok]))

/-- LN.START (R101). -/
def execLnStart (line : Nat) (s : State) : Host.Outcome State Fault Refusal := take .LN_START (judgeLnStart line) s

/-! ## LN.NEXT, LN.RESUME (R109, R115) -/

/-- The line's pause cause is PULSER or STORE, or its record is unsaved (R109, R110, R115, R119). -/
def State.faultPaused (s : State) (l : Line) : Bool :=
  (s.line l).cause == some .pulser || (s.line l).cause == some .store || s.boundIsUnsaved l

/-- LN.NEXT taken for a drop (R109). It begins no run and gives the record no price, also on a line restored with every drop PENDING, whose run no LN.START has begun (the model's choice, log 73). -/
def State.next (s : State) (l : Line) (stop n : Nat) (limit : Limit) : State :=
  ((s.changeRec stop (fun r => { r with drops := modNth1 r.drops n Drop.activate })).modLine l
    (fun c => { c with limit := some limit })).enterFlowing l 0

/-- Judgement of LN.NEXT (R109). -/
def judgeLnNext (line : Nat) (s : State) : Except Code Taken :=
  withLine line (fun l =>
    if (s.line l).st ≠ .paused then .error .STATE
    else if s.faultPaused l then .error .FAULT
    else
      match s.boundRec l with
      | none => .error .STATE
      | some r =>
        match r.active, r.firstPending with
        | none, some (n, d) =>
          flowChecks s l
            (if (s.dropLimit l r d).atMost 0 then .error .LIMIT_ZERO
             else taken (s.next l r.stop n (s.dropLimit l r d)) r.stop (item .DROP n ++ [.kw .LIMIT, (s.dropLimit l r d).tok]))
        | _, _ => .error .STATE)

/-- LN.NEXT (R109). -/
def execLnNext (line : Nat) (s : State) : Host.Outcome State Fault Refusal := take .LN_NEXT (judgeLnNext line) s

/-- The run may be resumed: it has no record, or an ACTIVE drop (R115). -/
def State.resumable (s : State) (l : Line) : Bool :=
  match (s.line l).kind with
  | some .order => (s.boundRec l).any (fun r => r.active.isSome)
  | some _ => true
  | none => false

/-- Judgement of LN.RESUME (R115). -/
def judgeLnResume (line : Nat) (s : State) : Except Code Taken :=
  withLine line (fun l =>
    if (s.line l).st ≠ .paused then .error .STATE
    else if s.faultPaused l then .error .FAULT
    else if s.resumable l = false then .error .STATE
    else
      flowChecks s l
        (if (s.remaining l).atMost 0 then .error .LIMIT_ZERO
         else report (s.enterFlowing l (s.liveNet l)) [item .LINE l.num ++ [.kw .FLOWING]]))

/-- LN.RESUME (R115). -/
def execLnResume (line : Nat) (s : State) : Host.Outcome State Fault Refusal := take .LN_RESUME (judgeLnResume line) s

/-! ## LN.PAUSE, LN.ENDDROP, LN.CLOSE (R110, R111, R113) -/

/-- A stop begun by a command that is answered at once, with the state the line then holds. -/
def stopNow (s : State) (l : Line) (i : StopIntent) : Except Code Taken :=
  report (s.beginStop l i) [item .LINE l.num ++ [.kw ((s.beginStop l i).line l).st.kw]]

/-- Judgement of LN.PAUSE (R113). -/
def judgeLnPause (line : Nat) (s : State) : Except Code Taken :=
  withLine line (fun l => if (s.line l).st = .flowing then stopNow s l .pause else .error .STATE)

/-- LN.PAUSE (R113). -/
def execLnPause (line : Nat) (s : State) : Host.Outcome State Fault Refusal := take .LN_PAUSE (judgeLnPause line) s

/-- A run ended at once by a command: its reply carries the outcome and waits for the writes (R111). -/
def endNow (e : RunEnd) (l : Line) : Except Code Taken := .ok ⟨e.byCommand l, .ready [e.fields], e.keys⟩

/-- LN.ENDDROP in PAUSED on a drop that is not the last (R110). -/
def endDropPaused (s : State) (l : Line) (stop : Nat) : Except Code Taken :=
  taken ((s.endDrop l .driver).enterPaused l .dropEnd) stop (item .LINE l.num ++ [.kw .DROP_END])

/-- LN.ENDDROP in PAUSED (R110, log 32). -/
def endDropInPause (s : State) (l : Line) : Except Code Taken :=
  if s.faultPaused l then .error .FAULT
  else if (s.line l).kind = some .order then
    match s.boundRec l with
    | none => .error .STATE
    | some r =>
      if r.active.isNone then .error .STATE
      else if s.onLastDrop l then endNow (s.closeRun l .driver) l
      else endDropPaused s l r.stop
  else endNow (s.closeRun l .driver) l

/-- Judgement of LN.ENDDROP (R110, R119). -/
def judgeLnEnddrop (line : Nat) (s : State) : Except Code Taken :=
  withLine line (fun l =>
    match (s.line l).st with
    | .flowing => if s.boundIsUnsaved l then .error .FAULT else stopNow s l .enddrop
    | .paused => endDropInPause s l
    | .stopping => if s.boundIsUnsaved l then .error .FAULT else .error .TOO_LATE
    | .settling => if s.boundIsUnsaved l then .error .FAULT else .error .TOO_LATE
    | _ => .error .STATE)

/-- LN.ENDDROP (R110). -/
def execLnEnddrop (line : Nat) (s : State) : Host.Outcome State Fault Refusal :=
  take .LN_ENDDROP (judgeLnEnddrop line) s

/-- LN.CLOSE waits for the end of the run (R111). -/
def closeLater (s : State) (l : Line) : Except Code Taken := .ok ⟨s, .awaitEnd l, []⟩

/-- Judgement of LN.CLOSE (R111, R119). -/
def judgeLnClose (line : Nat) (s : State) : Except Code Taken :=
  withLine line (fun l =>
    match (s.line l).st with
    | .flowing => if s.boundIsUnsaved l then .error .STORE_FAIL else closeLater (s.beginStop l .close) l
    | .stopping =>
      if s.boundIsUnsaved l then .error .STORE_FAIL
      else closeLater (s.modLine l (fun c => { c with intent := some .close })) l
    | .settling =>
      if s.boundIsUnsaved l then .error .STORE_FAIL
      else closeLater (s.modLine l (fun c => { c with intent := some .close })) l
    | .paused => if s.boundIsUnsaved l then .error .STORE_FAIL else endNow (s.closeRun l .driver) l
    | _ => .error .STATE)

/-- LN.CLOSE (R111). -/
def execLnClose (line : Nat) (s : State) : Host.Outcome State Fault Refusal := take .LN_CLOSE (judgeLnClose line) s

/-! ## LN.RUN (R121, R122) -/

/-- The line context when a PRIME or PROVE run latches its settings (R98, R121). -/
def LineCtx.latching (antic : Nat) (x : Latched) (limit : Limit) (c : LineCtx) : LineCtx :=
  { c with latched := some x, antic := antic, limit := some limit }

/-- A PRIME or PROVE run taken (R121, R122, R134). -/
def State.runFrom (s : State) (l : Line) (k : RunKind) (comp : Nat) (limit : Limit) : State :=
  (((s.beginRun l k).modLine l (LineCtx.latching (s.items l).antic s.settings.latch limit)).enterFlowing l 0).joinPump l comp

/-- The first checks of LN.RUN: the compartment, then the line's state (R121). -/
def runChecks (line : Nat) (comp : Option Nat) (s : State) (k : Line → Nat → Except Code Taken) : Except Code Taken :=
  withLine line (fun l =>
    match comp with
    | none => .error .RANGE
    | some c => if within 1 4 c = false then .error .RANGE else if (s.line l).st ≠ .idle then .error .STATE else k l c)

/-- The reply of LN.RUN. -/
def runReply (l : Line) (k : RunKind) (comp : Nat) : List Tok := item .LINE l.num ++ [.kw k.kw] ++ item .COMP comp

/-- The last checks of LN.RUN PRIME (R121, R157). -/
def primeChecks (s : State) (l : Line) (c p : Nat) : Except Code Taken :=
  if s.settings.calLost = true ∨ (s.settings.calSet l p).isNone = true then .error .NO_CAL
  else if s.load.hoses.get l ≠ .empty then .error .HOSE_MISMATCH
  else if ((s.items l).hose.getD 0) = 0 then .error .LIMIT_ZERO
  else if s.pumpGrants c = false then .error .PUMP_BUSY
  else report (s.runFrom l .prime c (.cl ((s.items l).hose.getD 0))) [runReply l .prime c]

/-- Judgement of LN.RUN PRIME (R121). -/
def judgeLnRunPrime (line : Nat) (comp : Option Nat) (s : State) : Except Code Taken :=
  runChecks line comp s (fun l c =>
    if s.route.isOpen = false then .error .NO_ROUTE
    else if s.inputs.sealOpen then .error .SEAL_OPEN
    else if s.interlock = false then .error .INTERLOCK
    else if s.inputs.air.get l then .error .STATE
    else
      match (s.load.comp c).product with
      | none => .error .NO_PRODUCT
      | some p => primeChecks s l c p)

/-- LN.RUN PRIME (R121). -/
def execLnRunPrime (line : Nat) (comp : Option Nat) (s : State) : Host.Outcome State Fault Refusal :=
  take .LN_RUN (judgeLnRunPrime line comp) s

/-- Judgement of LN.RUN PROVE (R122). -/
def judgeLnRunProve (line : Nat) (comp : Option Nat) (s : State) : Except Code Taken :=
  runChecks line comp s (fun l c =>
    if s.inputs.sealOpen = false then .error .SEALED
    else if s.interlock = false then .error .INTERLOCK
    else if s.inputs.air.get l then .error .STATE
    else if (s.load.comp c).product.isNone then .error .NO_PRODUCT
    else if s.pumpGrants c = false then .error .PUMP_BUSY
    else report (s.runFrom l .prove c .unlimited) [runReply l .prove c])

/-- LN.RUN PROVE (R122). -/
def execLnRunProve (line : Nat) (comp : Option Nat) (s : State) : Host.Outcome State Fault Refusal :=
  take .LN_RUN (judgeLnRunProve line comp) s

/-! ## LN.SETUP, LN.ACK, LN.STAT (R67, R95, R123) -/

/-- A line moved between IDLE and SETUP, its counts at 0 (R57, R61, R64, R95). -/
def State.setupTo (s : State) (l : Line) (st : LineState) : State :=
  (s.modLine l (fun c => { c with st := st })).modMeter l Meter.cleared

/-- Judgement of LN.SETUP (R95). -/
def judgeLnSetup (line : Nat) (s : State) : Except Code Taken :=
  withLine line (fun l =>
    match (s.line l).st with
    | .idle => report (s.setupTo l .setup) [item .LINE l.num ++ [.kw .SETUP]]
    | .setup =>
      if (s.items l).pr.isSome = true ∧ (s.items l).hose.isSome = true then
        report (s.setupTo l .idle) [item .LINE l.num ++ [.kw .IDLE]]
      else .error .NO_CAL
    | _ => .error .STATE)

/-- LN.SETUP (R95). -/
def execLnSetup (line : Nat) (s : State) : Host.Outcome State Fault Refusal := take .LN_SETUP (judgeLnSetup line) s

/-- A fault acknowledged (R67). -/
def State.acknowledge (s : State) (l : Line) : State :=
  (s.modLine l (fun c => { c with st := .idle })).modMeter l
    (fun m => { m.cleared with latchCreep := false, latchPulser := false })

/-- Judgement of LN.ACK (R67). -/
def judgeLnAck (line : Nat) (s : State) : Except Code Taken :=
  withLine line (fun l =>
    if (s.line l).st ≠ .fault then .error .STATE
    else if (s.meter l).latchPulser = true ∧ (s.meter l).isQuiet = false then .error .FAULT
    else
      report (s.acknowledge l)
        [kwToks (s.meter l).faultKinds ++ item .PHASEERR (s.meter l).phaseErrors ++ item .CREEP (s.meter l).creep])

/-- LN.ACK (R67). -/
def execLnAck (line : Nat) (s : State) : Host.Outcome State Fault Refusal := take .LN_ACK (judgeLnAck line) s

/-- Judgement of LN.STAT (R75, R123). -/
def judgeLnStat (line : Nat) (s : State) : Except Code Taken := withLine line (fun l => report s [s.lineReport l])

/-- LN.STAT (R123). -/
def execLnStat (line : Nat) (s : State) : Host.Outcome State Fault Refusal := take .LN_STAT (judgeLnStat line) s

end Sys2Proof.Machine
end

