-- ==== Sys2Proof/Machine/Truck.lean ====
section
/-! DEFINITION. The truck commands: compartments and hoses (R128, R129, R131, R141), products (R125, R126) and the non-sealed settings (R166 to R168). -/

namespace Sys2Proof.Machine

/-- A block changed by a command: its write queued and waited for (R32). -/
def blockTaken (s : State) (b : Block) (fields : List Tok) : Except Code Taken :=
  .ok ⟨s.enqueue (.block b), .ready [fields], [.block b]⟩

/-! ## CMP.LOAD, CMP.GET, HOSE.EMPTY -/

/-- A compartment's account changed. -/
def State.modComp (s : State) (c : Nat) (f : Comp → Comp) : State :=
  s.modLoad (fun x => { x with comps := modNth1 x.comps c f })

/-- The pump arbiter is bound to a compartment (R128). -/
def State.pumpOn (s : State) (c : Nat) : Bool :=
  match s.pump with
  | some b => b.comp == c
  | none => false

/-- A top-up (R128). -/
def Comp.topUp (volume : Nat) (c : Comp) : Comp := { c with loaded := c.loaded + volume }

/-- A product change (R129). -/
def Comp.change (product volume : Nat) (_ : Comp) : Comp := ⟨some product, volume, 0⟩

/-- CMP.LOAD taken with a change of the account. -/
def loadTaken (s : State) (c : Nat) (f : Comp → Comp) : Except Code Taken :=
  blockTaken (s.modComp c f) .load ((s.modComp c f).compToks c)

/-- Judgement of CMP.LOAD (R128). A top-up of 0 cL is taken whatever the capacity, as the rule's prose and R156 say (log 59). -/
def judgeCmpLoad (comp product volume : Nat) (empty : Bool) (s : State) : Except Code Taken :=
  if (within 1 4 comp && within 1 6 product && (s.settings.product product).entry.defined && within 0 2000000 volume) = false
  then .error .RANGE
  else if s.pumpOn comp then .error .PUMP_BUSY
  else if (s.load.comp comp).product = some product then
    if volume ≠ 0 ∧ (nth1 s.settings.caps comp).getD 0 < (s.load.comp comp).loaded + volume then .error .RANGE
    else loadTaken s comp (Comp.topUp volume)
  else if (s.load.comp comp).remaining ≠ 0 ∧ empty = false then .error .STATE
  else if (nth1 s.settings.caps comp).getD 0 < volume then .error .RANGE
  else loadTaken s comp (Comp.change product volume)

/-- CMP.LOAD (R128). -/
def execCmpLoad (comp product volume : Nat) (empty : Bool) (s : State) : Host.Outcome State Fault Refusal :=
  take .CMP_LOAD (judgeCmpLoad comp product volume empty) s

/-- Judgement of CMP.GET (R131). -/
def judgeCmpGet (comp : Option Nat) (s : State) : Except Code Taken :=
  match comp with
  | none => report s [s.compToks 1 ++ s.compToks 2 ++ s.compToks 3 ++ s.compToks 4 ++ .kw .PUMP :: s.pumpToks ++ s.hoseToks]
  | some c =>
    if within 1 4 c then report s [s.compToks c ++ .kw .PUMP :: s.pumpToks ++ s.hoseToks] else .error .RANGE

/-- CMP.GET (R131). -/
def execCmpGet (comp : Option Nat) (s : State) : Host.Outcome State Fault Refusal := take .CMP_GET (judgeCmpGet comp) s

/-- Judgement of HOSE.EMPTY (R141). -/
def judgeHoseEmpty (line : Nat) (s : State) : Except Code Taken :=
  withLine line (fun l =>
    if (s.line l).st = .idle then
      blockTaken (s.modLoad (fun x => { x with hoses := x.hoses.set l .empty })) .load [.kw .HOSE, nat l.num, .kw .EMPTY]
    else .error .STATE)

/-- HOSE.EMPTY (R141). -/
def execHoseEmpty (line : Nat) (s : State) : Host.Outcome State Fault Refusal := take .HOSE_EMPTY (judgeHoseEmpty line) s

/-! ## PRD.PUT, PRD.GET -/

/-- The command names a field (R125). -/
def namesField (f : PrdFields) : Bool := f.name.isSome || f.price.isSome || f.tax.isSome || f.define || f.undefine

/-- A character of a name: an upper-case letter, a digit or "_" (R124). -/
def nameChar (b : Byte) : Bool := within 48 57 b.toNat || within 65 90 b.toNat || b == 95#8

/-- A name as a field of the link can carry it (R124, 11.1). -/
def nameOk : Option (List Byte) → Bool
  | none => true
  | some b => b.all nameChar

/-- A name as stored: its first 12 characters, NONE as the empty name (R125). -/
def storedName (b : List Byte) : List Byte := if b = charBytes Kw.NONE.spell then [] else b.take 12

/-- A product record with the fields given, clamped (R125). -/
def Product.put (f : PrdFields) (p : Product) : Product :=
  { p with
    entry :=
      { name :=
          match f.name with
          | some b => storedName b
          | none => p.entry.name
        price :=
          match f.price with
          | some v => clamp 1 99999 v
          | none => p.entry.price
        tax :=
          match f.tax with
          | some v => clamp 0 3000 v
          | none => p.entry.tax
        defined := !f.undefine } }

/-- Judgement of PRD.PUT (R125). -/
def judgePrdPut (code : Nat) (f : PrdFields) (s : State) : Except Code Taken :=
  if (within 1 6 code && !(f.define && f.undefine) && namesField f && nameOk f.name) = true then
    let t := s.modSettings (fun x => { x with products := modNth1 x.products code (Product.put f) })
    blockTaken t .settings (t.productToks code)
  else .error .RANGE

/-- PRD.PUT (R125). -/
def execPrdPut (code : Nat) (f : PrdFields) (s : State) : Host.Outcome State Fault Refusal :=
  take .PRD_PUT (judgePrdPut code f) s

/-- Judgement of PRD.GET (R126). -/
def judgePrdGet (code : Option Nat) (s : State) : Except Code Taken :=
  match code with
  | none => report s [[1, 2, 3, 4, 5, 6].flatMap s.productToks]
  | some p => if within 1 6 p then report s [s.productToks p] else .error .RANGE

/-- PRD.GET (R126). -/
def execPrdGet (code : Option Nat) (s : State) : Host.Outcome State Fault Refusal := take .PRD_GET (judgePrdGet code) s

/-! ## SET.PUT, SET.GET -/

/-- The deadman interval as stored (R166). -/
def clampDeadman (v : Int) : Nat := if v ≤ 0 then 0 else clamp 30 600 v

/-- One setting stored, clamped (R166). -/
def putSetting (x : Settings) (i : SetItem) : Settings :=
  match i with
  | .noFlow v => { x with run := { x.run with noFlow := clamp 5 120 v } }
  | .autoClose v => { x with run := { x.run with autoClose := clamp 1 60 v } }
  | .deadman v => { x with run := { x.run with deadman := clampDeadman v } }
  | .slowStart v => { x with run := { x.run with slowStart := clamp 0 5000 v } }
  | .slowDown v => { x with run := { x.run with slowDown := clamp 0 10000 v } }
  | .step v => { x with run := { x.run with step := clamp 100 2000 v } }
  | .antic1 v => { x with lines := x.lines.modify .one (fun c => { c with antic := clamp 0 2000 v }) }
  | .antic2 v => { x with lines := x.lines.modify .two (fun c => { c with antic := clamp 0 2000 v }) }
  | .attn high => { x with attnHigh := high }

/-- The word of a setting (R166). -/
def settingKw : SetItem → Kw
  | .noFlow _ => .NOFLOW
  | .autoClose _ => .AUTOCLOSE
  | .deadman _ => .DEADMAN
  | .slowStart _ => .SLOWSTART
  | .slowDown _ => .SLOWDOWN
  | .step _ => .STEP
  | .antic1 _ => .ANTIC1
  | .antic2 _ => .ANTIC2
  | .attn _ => .ATTN

/-- A setting's item as the reply carries it, with the value stored (R166). -/
def storedToks (x : Settings) (i : SetItem) : List Tok :=
  match i with
  | .noFlow _ => item .NOFLOW x.run.noFlow
  | .autoClose _ => item .AUTOCLOSE x.run.autoClose
  | .deadman _ => item .DEADMAN x.run.deadman
  | .slowStart _ => item .SLOWSTART x.run.slowStart
  | .slowDown _ => item .SLOWDOWN x.run.slowDown
  | .step _ => item .STEP x.run.step
  | .antic1 _ => item .ANTIC1 x.lines.one.antic
  | .antic2 _ => item .ANTIC2 x.lines.two.antic
  | .attn _ => kwItem .ATTN (if x.attnHigh then .HIGH else .LOW)

/-- No word is named twice. -/
def distinctWords : List Kw → Bool
  | [] => true
  | k :: ks => !ks.contains k && distinctWords ks

/-- Judgement of SET.PUT (R166). -/
def judgeSetPut (items : List SetItem) (s : State) : Except Code Taken :=
  if items = [] ∨ distinctWords (items.map settingKw) = false then .error .RANGE
  else
    let t := s.modSettings (fun x => items.foldl putSetting x)
    blockTaken t .settings (items.flatMap (storedToks t.settings))

/-- SET.PUT (R166). -/
def execSetPut (items : List SetItem) (s : State) : Host.Outcome State Fault Refusal := take .SET_PUT (judgeSetPut items) s

/-- Judgement of SET.GET (R168). -/
def judgeSetGet (latched : Option Nat) (s : State) : Except Code Taken :=
  match latched with
  | none => report s [s.settingsToks]
  | some n =>
    withLine n (fun l =>
      match (s.line l).latched with
      | some x => report s [x.toks]
      | none => report s [[.kw .NONE]])

/-- SET.GET (R168). -/
def execSetGet (latched : Option Nat) (s : State) : Host.Outcome State Fault Refusal := take .SET_GET (judgeSetGet latched) s

end Sys2Proof.Machine
end

