-- ==== Sys2Proof/Machine/Calibration.lean ====
section
/-! DEFINITION. The calibration commands (R159 to R165). -/

namespace Sys2Proof.Machine

/-- The first check of CAL.PUT (R160, R161), then the item's values, then its use. -/
def calPut (s : State) (valuesOk free : Bool) (t : State) (fields : List Tok) : Except Code Taken :=
  if s.inputs.sealOpen = false ∨ 65535 ≤ s.settings.calCount then .error .SEALED
  else if valuesOk = false then .error .RANGE
  else if free = false then .error .LINE_BUSY
  else blockTaken (t.modSettings (fun x => { x with session := true })) .settings fields

/-- The line is in SETUP or IDLE (R162, R163). -/
def State.lineFree (s : State) (l : Line) : Bool := (s.line l).st == .setup || (s.line l).st == .idle

/-- A line's items changed. -/
def Settings.modItems (l : Line) (f : LineItems → LineItems) (x : Settings) : Settings :=
  { x with lines := x.lines.modify l f }

/-- The state with a pulser resolution written; a write in IDLE sets the creep count to 0 (R162). -/
def State.writePr (s : State) (l : Line) (pr : Nat) : State :=
  (s.modSettings (Settings.modItems l (fun i => { i with pr := some pr }))).modMeter l
    (fun m => if (s.line l).st = .idle then { m with creep := 0 } else m)

/-- Judgement of CAL.PUT PR (R161, R162). -/
def judgeCalPutPr (line pr : Nat) (s : State) : Except Code Taken :=
  match Line.ofNum line with
  | none => calPut s false true s []
  | some l => calPut s (within 40 4000 pr) (s.lineFree l) (s.writePr l pr) (.kw .PR :: nat l.num :: [nat pr])

/-- CAL.PUT PR (R162). -/
def execCalPutPr (line pr : Nat) (s : State) : Host.Outcome State Fault Refusal := take .CAL_PUT (judgeCalPutPr line pr) s

/-- Judgement of CAL.PUT HOSE (R161, R162). -/
def judgeCalPutHose (line volume : Nat) (s : State) : Except Code Taken :=
  match Line.ofNum line with
  | none => calPut s false true s []
  | some l =>
    calPut s (within 0 20000 volume) (s.lineFree l)
      (s.modSettings (Settings.modItems l (fun i => { i with hose := some volume })))
      (.kw .HOSE :: nat l.num :: [nat volume])

/-- CAL.PUT HOSE (R162). -/
def execCalPutHose (line volume : Nat) (s : State) : Host.Outcome State Fault Refusal :=
  take .CAL_PUT (judgeCalPutHose line volume) s

/-- Bounds rise strictly from a figure on and lie in range, and the meter factors lie in range (R163). -/
def boundsOk : Nat → List (Nat × Nat) → Bool
  | _, [] => true
  | before, (u, mf) :: xs => within 1 20000 u && decide (before < u) && within 95000 105000 mf && boundsOk u xs

/-- A calibration set as R163 requires it: 1 to 5 bands, bounds and factors in range. -/
def calSetOk (x : CalSet) : Bool := decide (x.upper.length ≤ 4) && boundsOk 0 x.upper && within 95000 105000 x.last

/-- A calibration set replaced or removed (R163). -/
def Settings.putSet (l : Line) (p : Nat) (x : Option CalSet) (y : Settings) : Settings :=
  { y with sets := y.sets.modify l (fun xs => modNth1 xs p (fun _ => x)) }

/-- Judgement of CAL.PUT SET (R161, R163). -/
def judgeCalPutSet (line product : Nat) (bands : Option CalSet) (s : State) : Except Code Taken :=
  match Line.ofNum line with
  | none => calPut s false true s []
  | some l =>
    calPut s (within 1 6 product && (match bands with | some x => calSetOk x | none => true)) (s.lineFree l)
      (s.modSettings (Settings.putSet l product bands)) (.kw .SET :: nat l.num :: nat product :: setToks bands)

/-- CAL.PUT SET (R163). -/
def execCalPutSet (line product : Nat) (bands : Option CalSet) (s : State) : Host.Outcome State Fault Refusal :=
  take .CAL_PUT (judgeCalPutSet line product bands) s

/-- α and compensation of a product are in use by a line (R164). -/
def State.usesFactors (s : State) (l : Line) (p : Nat) : Bool :=
  match (s.line l).kind, (s.line l).st with
  | some .prime, _ => s.runProduct l == some p
  | some .prove, _ => false
  | _, .armed => (s.boundRec l).any (fun r => r.product == p)
  | some .order, _ => (s.boundRec l).any (fun r => r.product == p)
  | _, _ => false

/-- Neither line uses a product's α and compensation (R164). -/
def State.productFree (s : State) (p : Nat) : Bool := !(s.usesFactors .one p || s.usesFactors .two p)

/-- A product record changed. -/
def Settings.modProduct (p : Nat) (f : Product → Product) (x : Settings) : Settings :=
  { x with products := modNth1 x.products p f }

/-- Judgement of CAL.PUT ALPHA (R161, R164). -/
def judgeCalPutAlpha (product alpha : Nat) (s : State) : Except Code Taken :=
  calPut s (within 1 6 product && within 0 2000 alpha) (s.productFree product)
    (s.modSettings (Settings.modProduct product (fun p => { p with alpha := alpha })))
    (.kw .ALPHA :: nat product :: [nat alpha])

/-- CAL.PUT ALPHA (R164). -/
def execCalPutAlpha (product alpha : Nat) (s : State) : Host.Outcome State Fault Refusal :=
  take .CAL_PUT (judgeCalPutAlpha product alpha) s

/-- Judgement of CAL.PUT COMP (R161, R164). -/
def judgeCalPutComp (product : Nat) (on : Bool) (s : State) : Except Code Taken :=
  calPut s (within 1 6 product) (s.productFree product)
    (s.modSettings (Settings.modProduct product (fun p => { p with compOn := on })))
    (.kw .COMP :: nat product :: [.kw (if on then .ON else .OFF)])

/-- CAL.PUT COMP (R164). -/
def execCalPutComp (product : Nat) (on : Bool) (s : State) : Host.Outcome State Fault Refusal :=
  take .CAL_PUT (judgeCalPutComp product on) s

/-- Judgement of CAL.PUT CAP (R161, R164). -/
def judgeCalPutCap (comp capacity : Nat) (s : State) : Except Code Taken :=
  calPut s (within 1 4 comp && within 0 2000000 capacity) true
    (s.modSettings (fun x => { x with caps := modNth1 x.caps comp (fun _ => capacity) }))
    (.kw .CAP :: nat comp :: [nat capacity])

/-- CAL.PUT CAP (R164). -/
def execCalPutCap (comp capacity : Nat) (s : State) : Host.Outcome State Fault Refusal :=
  take .CAL_PUT (judgeCalPutCap comp capacity) s

/-- Judgement of CAL.GET (R165). -/
def judgeCalGet (set : Option (Nat × Nat)) (s : State) : Except Code Taken :=
  match set with
  | none => report s [s.calToks]
  | some (line, product) =>
    withLine line (fun l =>
      if within 1 6 product then report s [setToks (s.settings.calSet l product)] else .error .RANGE)

/-- CAL.GET (R165). -/
def execCalGet (set : Option (Nat × Nat)) (s : State) : Host.Outcome State Fault Refusal := take .CAL_GET (judgeCalGet set) s

end Sys2Proof.Machine
end

