-- ==== Sys2Proof/Machine/Route.lean ====
section
/-! DEFINITION. The route commands (R170, R171, R176, R177). -/

namespace Sys2Proof.Machine

/-- A route opened (R170). -/
def RouteBlock.opened (number : Nat) (time : Option DateTime) (x : RouteBlock) : RouteBlock :=
  { x with isOpen := true, number := some number, openTime := time, totals := List.replicate 6 .zero }

/-- Judgement of RTE.OPEN (R170). -/
def judgeRteOpen (number : Nat) (s : State) : Except Code Taken :=
  if within 1 65535 number = false then .error .RANGE
  else if s.route.isOpen then .error .STATE
  else if s.lines.one.bound.isSome = true ∨ s.lines.two.bound.isSome = true then .error .LINE_BUSY
  else
    let time := if s.clock.valid then some s.clock.now else none
    blockTaken (s.modRoute (RouteBlock.opened number time)) .route [nat number, timeOr .TIME_UNKNOWN time]

/-- RTE.OPEN (R170). -/
def execRteOpen (number : Nat) (s : State) : Host.Outcome State Fault Refusal := take .RTE_OPEN (judgeRteOpen number) s

/-- Judgement of RTE.CLOSE (R171). -/
def judgeRteClose (s : State) : Except Code Taken :=
  if s.route.isOpen = false then .error .STATE
  else if s.lines.one.st.resting = true ∧ s.lines.two.st.resting = true then
    blockTaken (s.modRoute (fun x => { x with isOpen := false })) .route [natOrNone s.route.number]
  else .error .LINE_BUSY

/-- RTE.CLOSE (R171). -/
def execRteClose (s : State) : Host.Outcome State Fault Refusal := take .RTE_CLOSE judgeRteClose s

/-- RTE.TOTALS (R176). -/
def execRteTotals (s : State) : Host.Outcome State Fault Refusal := take .RTE_TOTALS (fun t => report t t.totalsReport) s

end Sys2Proof.Machine
end

