-- ==== Sys2Proof/Machine/LinkCommands.lean ====
section
/-! DEFINITION. The commands of the clock, the part and the store's reports (R51, R52, R195 to R197). -/

namespace Sys2Proof.Machine

/-- Judgement of CLK.SET (R197). -/
def judgeClkSet (value : Nat) (s : State) : Except Code Taken :=
  if dateValid (dateOfNum value) then
    report { s with clock := ⟨dateOfNum value, true⟩ } [[.time (dateOfNum value)]]
  else .error .RANGE

/-- CLK.SET (R197). -/
def execClkSet (value : Nat) (s : State) : Host.Outcome State Fault Refusal := take .CLK_SET (judgeClkSet value) s

/-- Judgement of CLK.GET (R197). -/
def judgeClkGet (s : State) : Except Code Taken :=
  report s [[.time s.clock.now, .kw (if s.clock.valid then .VALID else .INVALID)]]

/-- CLK.GET (R197). -/
def execClkGet (s : State) : Host.Outcome State Fault Refusal := take .CLK_GET judgeClkGet s

/-- Judgement of STATUS: its report, and LINE1 and LINE2 removed (R195). -/
def judgeStatus (s : State) : Except Code Taken := report { s with attention := ⟨false, false⟩ } [s.statusReport]

/-- STATUS (R195). -/
def execStatus (s : State) : Host.Outcome State Fault Refusal := take .STATUS judgeStatus s

/-- IDENT (R196). -/
def execIdent (s : State) : Host.Outcome State Fault Refusal := take .IDENT (fun t => report t [t.identReport]) s

/-- Judgement of STORE (R51). -/
def judgeStore (slot : Option Nat) (s : State) : Except Code Taken :=
  match slot with
  | none => report s [s.storeReport]
  | some n =>
    if within 1 80 n then
      match s.slot n with
      | some x => report s [x.report n]
      | none => .error .RANGE
    else .error .RANGE

/-- STORE (R51). -/
def execStore (slot : Option Nat) (s : State) : Host.Outcome State Fault Refusal := take .STORE (judgeStore slot) s

/-- Judgement of CAP.CLEAR (R52). -/
def judgeCapClear (s : State) : Except Code Taken := report { s with captures := ⟨none, []⟩ } [s.captures.toks]

/-- CAP.CLEAR (R52). -/
def execCapClear (s : State) : Host.Outcome State Fault Refusal := take .CAP_CLEAR judgeCapClear s

end Sys2Proof.Machine
end

