-- ==== Sys2Proof/Machine/Operands.lean ====
section
/-! DEFINITION. The operand forms of command lines (11.1, R190): characters, words, the check field, fields, and the commands that fields spell. -/

namespace Sys2Proof.Machine

/-- A field of a command line, as its characters. -/
abbrev Field := List Byte

/-- A decimal digit. -/
def isDigit (b : Byte) : Bool := decide (48 ≤ b.toNat) && decide (b.toNat ≤ 57)

/-- An upper-case letter. -/
def isUpper (b : Byte) : Bool := decide (65 ≤ b.toNat) && decide (b.toNat ≤ 90)

/-- A character of a command word (11.1). -/
def isCmdChar (b : Byte) : Bool := isUpper b || isDigit b || b == 46#8

/-- A character of a flag word (11.1). -/
def isFlagChar (b : Byte) : Bool := isUpper b || isDigit b || b == 95#8

/-- The value of decimal digits. -/
def digitsValue (f : Field) : Nat := f.foldl (fun a b => a * 10 + (b.toNat - 48)) 0

/-- A field has the form of a number or of a flag word (11.1). -/
def fieldForm (f : Field) : Bool :=
  match f with
  | [] => false
  | b :: bs => if b = 45#8 then !bs.isEmpty && bs.all isDigit else isFlagChar b && bs.all isFlagChar

/-- The number a field spells. -/
def intField (f : Field) : Option Int :=
  match f with
  | [] => none
  | b :: bs =>
    if b = 45#8 then (if bs.isEmpty || !bs.all isDigit then none else some (-(digitsValue bs : Int)))
    else if isDigit b && bs.all isDigit then some (digitsValue (b :: bs) : Int)
    else none

/-- The number a field spells, where it is not negative. -/
def natField (f : Field) : Option Nat :=
  match intField f with
  | some (.ofNat n) => some n
  | _ => none

/-- A field is a flag word. -/
def isKw (k : Kw) (f : Field) : Bool := f == charBytes k.spell

/-- The characters up to a space or "*", and the rest (R190). -/
def splitWord : List Byte → List Byte × List Byte
  | [] => ([], [])
  | b :: bs =>
    if b = 32#8 ∨ b = 42#8 then ([], b :: bs)
    else
      match splitWord bs with
      | (w, r) => (b :: w, r)

/-- A word meets the form of the syntax table (11.1, R190). -/
def wordReadable (w : List Byte) : Bool := decide (1 ≤ w.length) && decide (w.length ≤ 11) && w.all isCmdChar

/-- Fields of the characters after the word: each preceded by one space (11.1). The accumulator holds the field being read. -/
def splitFields : List Byte → Field → List Field
  | [], f => [f]
  | b :: bs, f => if b = 32#8 then f :: splitFields bs [] else splitFields bs (f ++ [b])

/-- The fields of the characters between the word and the check field; a rest that does not begin with a space is no field (R190). -/
def fieldsOf (rest : List Byte) : Option (List Field) :=
  match rest with
  | [] => some []
  | b :: bs => if b = 32#8 then (if (splitFields bs []).all fieldForm then some (splitFields bs []) else none) else none

/-- Value of an upper-case hex digit (11.1). -/
def hexValue (b : Byte) : Option Nat :=
  if isDigit b then some (b.toNat - 48)
  else if 65 ≤ b.toNat ∧ b.toNat ≤ 70 then some (b.toNat - 55)
  else none

/-- The characters between ">" and "*" of a body that ends with a check field that agrees with them (11.1, R190). -/
def checkedBody (body : List Byte) : Option (List Byte) :=
  match body.drop (body.length - 3) with
  | [star, h, l] =>
    match hexValue h, hexValue l with
    | some x, some y =>
      if star = 42#8 ∧ ((body.take (body.length - 3)).foldl (· ^^^ ·) 0#8).toNat = 16 * x + y then
        some (body.take (body.length - 3))
      else none
    | _, _ => none
  | _ => none

/-- The command word some characters spell (11.3). -/
def findWord (w : List Byte) : Option CmdWord := CmdWord.all.find? (fun c => charBytes c.spell == w)

/-! ## Fields of commands -/

/-- A keyed number taken out of fields. -/
def takeNum (k : Kw) : List Field → Option (Option Nat × List Field)
  | [] => some (none, [])
  | f :: rest =>
    if isKw k f then
      match rest with
      | v :: r => (natField v).map (fun n => (some n, r))
      | [] => none
    else (takeNum k rest).map (fun p => (p.1, f :: p.2))

/-- A flag word taken out of fields. -/
def takeFlag (k : Kw) : List Field → Bool × List Field
  | [] => (false, [])
  | f :: rest =>
    if isKw k f then (true, rest)
    else
      match takeFlag k rest with
      | (b, r) => (b, f :: r)

/-- A kind word (R3). -/
def kindField (f : Field) : Option OrderKind :=
  if isKw .FILL f then some .fill
  else if isKw .VOLUME f then some .volume
  else if isKw .AMOUNT f then some .amount
  else none

/-- A keyed kind taken out of fields. -/
def takeKind : List Field → Option (Option OrderKind × List Field)
  | [] => some (none, [])
  | f :: rest =>
    if isKw .KIND f then
      match rest with
      | v :: r => (kindField v).map (fun n => (some n, r))
      | [] => none
    else (takeKind rest).map (fun p => (p.1, f :: p.2))

/-- A keyed pair of numbers taken out of fields (DPRESET, R11). -/
def takePair (k : Kw) : List Field → Option (Option (Nat × Nat) × List Field)
  | [] => some (none, [])
  | f :: rest =>
    if isKw k f then
      match rest with
      | a :: b :: r =>
        match natField a, natField b with
        | some x, some y => some (some (x, y), r)
        | _, _ => none
      | _ => none
    else (takePair k rest).map (fun p => (p.1, f :: p.2))

/-- A result whose fields are all used. -/
def whole {α : Type} (x : α) (rest : List Field) : Option α := if rest.isEmpty then some x else none

/-- A state word (R26). -/
def stateField (f : Field) : Option RecState :=
  if isKw .PLANNED f then some .planned
  else if isKw .HELD f then some .held
  else if isKw .BOUND f then some .bound
  else if isKw .TICKETED f then some .ticketed
  else if isKw .ISSUED f then some .issued
  else if isKw .DAMAGED f then some .damaged
  else none

/-- Fields of ORD.NEW (R8). -/
def parseOrdNew : List Field → Option Instr
  | a :: b :: c :: d :: rest => do
    let stop ← natField a
    let account ← natField b
    let product ← natField c
    let kind ← kindField d
    let (preset, rest) ← takeNum .PRESET rest
    let (price, rest) ← takeNum .PRICE rest
    let (credit, rest) ← takeNum .CREDIT rest
    whole (.ordNew stop account product kind preset price credit) rest
  | _ => none

/-- Fields of ORD.DROP (R9, R10). -/
def parseOrdDrop : List Field → Option Instr
  | a :: b :: rest => do
    let stop ← natField a
    if isKw .CLEAR b then whole (.ordDropClear stop) rest
    else
      let k ← natField b
      let (tank, rest) ← takeNum .TANK rest
      let (cap, rest) ← takeNum .CAP rest
      let (preset, rest) ← takeNum .PRESET rest
      let (noCap, rest) := takeFlag .NOCAP rest
      let (noPreset, rest) := takeFlag .NOPRESET rest
      whole (.ordDrop stop k tank cap preset noCap noPreset) rest
  | _ => none

/-- A stop, or SLOT with a number (R1). -/
def parseTarget : List Field → Option Target
  | [a] => (natField a).map .stop
  | [a, b] => if isKw .SLOT a then (natField b).map .slot else none
  | _ => none

/-- Fields of ORD.FIND (R25). -/
def parseOrdFind : List Field → Option Instr
  | a :: rest => do
    let account ← natField a
    let (start, rest) ← takeNum .FROM rest
    whole (.ordFind account start) rest
  | _ => none

/-- Fields of ORD.LIST (R26). -/
def parseOrdList : List Field → Option Instr
  | a :: rest => do
    let st ← stateField a
    let (start, rest) ← takeNum .FROM rest
    whole (.ordList st start) rest
  | _ => none

/-- Fields of ORD.AMEND (R11). -/
def parseOrdAmend : List Field → Option Instr
  | a :: rest => do
    let stop ← natField a
    let (price, rest) ← takeNum .PRICE rest
    let (noPrice, rest) := takeFlag .NOPRICE rest
    let (credit, rest) ← takeNum .CREDIT rest
    let (noCredit, rest) := takeFlag .NOCREDIT rest
    let (kind, rest) ← takeKind rest
    let (preset, rest) ← takeNum .PRESET rest
    let (dpreset, rest) ← takePair .DPRESET rest
    whole (.ordAmend stop ⟨price, noPrice, credit, noCredit, kind, preset, dpreset⟩) rest
  | _ => none

/-- One number. -/
def parseOne (f : Nat → Instr) : List Field → Option Instr
  | [a] => (natField a).map f
  | _ => none

/-- An optional number. -/
def parseOpt (f : Option Nat → Instr) : List Field → Option Instr
  | [] => some (f none)
  | [a] => (natField a).map (fun n => f (some n))
  | _ => none

/-- An optional keyed number. -/
def parseKeyed (k : Kw) (f : Option Nat → Instr) : List Field → Option Instr
  | [] => some (f none)
  | [a, b] => if isKw k a then (natField b).map (fun n => f (some n)) else none
  | _ => none

/-- No field. -/
def parseNone (i : Instr) (fs : List Field) : Option Instr := whole i fs

/-- Fields of LN.ARM (R97). -/
def parseLnArm : List Field → Option Instr
  | a :: b :: rest => do
    let line ← natField a
    let stop ← natField b
    match rest with
    | [] => some (.lnArm line stop none false)
    | [c] => if isKw .PURGE c then some (.lnArm line stop none true) else (natField c).map (fun n => .lnArm line stop (some n) false)
    | [c, d] => if isKw .PURGE d then (natField c).map (fun n => .lnArm line stop (some n) true) else none
    | _ => none
  | _ => none

/-- Fields of LN.RUN (R121, R122). -/
def parseLnRun : List Field → Option Instr
  | a :: b :: rest => do
    let line ← natField a
    let comp ←
      match rest with
      | [] => some none
      | [c] => (natField c).map some
      | _ => none
    if isKw .PRIME b then some (.lnRunPrime line comp)
    else if isKw .PROVE b then some (.lnRunProve line comp)
    else none
  | _ => none

/-- Fields of CMP.LOAD (R128). -/
def parseCmpLoad : List Field → Option Instr
  | a :: b :: c :: rest => do
    let comp ← natField a
    let product ← natField b
    let volume ← natField c
    let (empty, rest) := takeFlag .EMPTY rest
    whole (.cmpLoad comp product volume empty) rest
  | _ => none

/-- The pairs and words of PRD.PUT (R125); none is named twice. -/
def parsePrdFields : List Field → PrdFields → Option PrdFields
  | [], f => some f
  | [w], f =>
    if isKw .DEFINE w && !f.define then some { f with define := true }
    else if isKw .UNDEFINE w && !f.undefine then some { f with undefine := true }
    else none
  | w :: v :: rest, f =>
    if isKw .NAME w && f.name.isNone then parsePrdFields rest { f with name := some v }
    else if isKw .PRICE w && f.price.isNone then
      match intField v with
      | some n => parsePrdFields rest { f with price := some n }
      | none => none
    else if isKw .TAX w && f.tax.isNone then
      match intField v with
      | some n => parsePrdFields rest { f with tax := some n }
      | none => none
    else if isKw .DEFINE w && !f.define then parsePrdFields (v :: rest) { f with define := true }
    else if isKw .UNDEFINE w && !f.undefine then parsePrdFields (v :: rest) { f with undefine := true }
    else none

/-- Fields of PRD.PUT (R125). -/
def parsePrdPut : List Field → Option Instr
  | a :: rest => do
    let code ← natField a
    let f ← parsePrdFields rest ⟨none, none, none, false, false⟩
    some (.prdPut code f)
  | _ => none

/-- One pair of SET.PUT (R166). -/
def setItem (w v : Field) : Option SetItem :=
  if isKw .NOFLOW w then (intField v).map .noFlow
  else if isKw .AUTOCLOSE w then (intField v).map .autoClose
  else if isKw .DEADMAN w then (intField v).map .deadman
  else if isKw .SLOWSTART w then (intField v).map .slowStart
  else if isKw .SLOWDOWN w then (intField v).map .slowDown
  else if isKw .STEP w then (intField v).map .step
  else if isKw .ANTIC1 w then (intField v).map .antic1
  else if isKw .ANTIC2 w then (intField v).map .antic2
  else if isKw .ATTN w then
    (if isKw .HIGH v then some (.attn true) else if isKw .LOW v then some (.attn false) else none)
  else none

/-- The pairs of SET.PUT (R166). -/
def parseSetItems : List Field → Option (List SetItem)
  | [] => some []
  | [_] => none
  | w :: v :: rest =>
    match setItem w v, parseSetItems rest with
    | some x, some xs => some (x :: xs)
    | _, _ => none

/-- Every field a number. -/
def parseNats : List Field → Option (List Nat)
  | [] => some []
  | f :: fs =>
    match natField f, parseNats fs with
    | some n, some ns => some (n :: ns)
    | _, _ => none

/-- Bands in band order, the last without a bound (R163). -/
def bandsOf : List Nat → Option CalSet
  | [] => none
  | [mf] => some ⟨[], mf⟩
  | u :: mf :: rest => (bandsOf rest).map (fun x => ⟨(u, mf) :: x.upper, x.last⟩)

/-- Fields of CAL.PUT (R161 to R164). -/
def parseCalPut : List Field → Option Instr
  | w :: a :: b :: rest =>
    if isKw .COMP w then
      match natField a, rest with
      | some p, [] => if isKw .ON b then some (.calPutComp p true) else if isKw .OFF b then some (.calPutComp p false) else none
      | _, _ => none
    else
      match natField a, natField b with
      | some x, some y =>
        if isKw .PR w then whole (.calPutPr x y) rest
        else if isKw .HOSE w then whole (.calPutHose x y) rest
        else if isKw .ALPHA w then whole (.calPutAlpha x y) rest
        else if isKw .CAP w then whole (.calPutCap x y) rest
        else if isKw .SET w then
          (match rest with
            | [n] => if isKw .NONE n then some (.calPutSet x y none) else (parseNats rest).bind bandsOf |>.map (fun s => .calPutSet x y (some s))
            | _ => (parseNats rest).bind bandsOf |>.map (fun s => .calPutSet x y (some s)))
        else none
      | _, _ => none
  | _ => none

/-- Fields of CAL.GET (R165). -/
def parseCalGet : List Field → Option Instr
  | [] => some (.calGet none)
  | [w, a, b] =>
    if isKw .SET w then
      match natField a, natField b with
      | some x, some y => some (.calGet (some (x, y)))
      | _, _ => none
    else none
  | _ => none

/-- The command a word and its fields spell; none where a field is missing, extra or unknown (R190). -/
def parseCommand (w : CmdWord) (fs : List Field) : Option Instr :=
  match w with
  | .ORD_NEW => parseOrdNew fs
  | .ORD_DROP => parseOrdDrop fs
  | .ORD_GET => (parseTarget fs).map .ordGet
  | .ORD_FIND => parseOrdFind fs
  | .ORD_LIST => parseOrdList fs
  | .ORD_AMEND => parseOrdAmend fs
  | .ORD_HOLD => parseOne .ordHold fs
  | .ORD_RELEASE => parseOne .ordRelease fs
  | .ORD_CANCEL => parseOne .ordCancel fs
  | .ORD_RETIRE => (parseTarget fs).map .ordRetire
  | .TKT_GET => parseOne .tktGet fs
  | .TKT_ISSUE => parseOne .tktIssue fs
  | .LN_ARM => parseLnArm fs
  | .LN_DISARM => parseOne .lnDisarm fs
  | .LN_START => parseOne .lnStart fs
  | .LN_NEXT => parseOne .lnNext fs
  | .LN_RESUME => parseOne .lnResume fs
  | .LN_PAUSE => parseOne .lnPause fs
  | .LN_ENDDROP => parseOne .lnEnddrop fs
  | .LN_CLOSE => parseOne .lnClose fs
  | .LN_RUN => parseLnRun fs
  | .LN_SETUP => parseOne .lnSetup fs
  | .LN_ACK => parseOne .lnAck fs
  | .LN_STAT => parseOne .lnStat fs
  | .CMP_LOAD => parseCmpLoad fs
  | .CMP_GET => parseOpt .cmpGet fs
  | .HOSE_EMPTY => parseOne .hoseEmpty fs
  | .PRD_PUT => parsePrdPut fs
  | .PRD_GET => parseOpt .prdGet fs
  | .SET_PUT => (parseSetItems fs).map .setPut
  | .SET_GET => parseKeyed .LATCHED .setGet fs
  | .CAL_PUT => parseCalPut fs
  | .CAL_GET => parseCalGet fs
  | .RTE_OPEN => parseOne .rteOpen fs
  | .RTE_CLOSE => parseNone .rteClose fs
  | .RTE_TOTALS => parseNone .rteTotals fs
  | .CLK_SET => parseOne .clkSet fs
  | .CLK_GET => parseNone .clkGet fs
  | .STATUS => parseNone .status fs
  | .IDENT => parseNone .ident fs
  | .STORE => parseKeyed .SLOT .store fs
  | .CAP_CLEAR => parseNone .capClear fs

end Sys2Proof.Machine
end

