-- ==== Sys2Proof/Machine/Link.lean ====
section
/-! DEFINITION. The events of the command link (R182, R188 to R191). -/

namespace Sys2Proof.Machine

/-! ## Judging a completed line (R190) -/

/-- The judgement of a command a line spells, by its owning block. -/
def judgeCommand (i : Instr) (s : State) : Except Code Taken :=
  match i with
  | .ordNew a b c d e f g => judgeOrdNew a b c d e f g s
  | .ordDrop a b c d e f g => judgeOrdDrop a b c d e f g s
  | .ordDropClear a => judgeOrdDropClear a s
  | .ordGet a => judgeOrdGet a s
  | .ordFind a b => judgeOrdFind a b s
  | .ordList a b => judgeOrdList a b s
  | .ordAmend a b => judgeOrdAmend a b s
  | .ordHold a => moveState .planned .held a s
  | .ordRelease a => moveState .held .planned a s
  | .ordCancel a => judgeOrdCancel a s
  | .ordRetire a => judgeOrdRetire a s
  | .tktGet a => judgeTktGet a s
  | .tktIssue a => judgeTktIssue a s
  | .lnArm a b c d => judgeLnArm a b c d s
  | .lnDisarm a => judgeLnDisarm a s
  | .lnStart a => judgeLnStart a s
  | .lnNext a => judgeLnNext a s
  | .lnResume a => judgeLnResume a s
  | .lnPause a => judgeLnPause a s
  | .lnEnddrop a => judgeLnEnddrop a s
  | .lnClose a => judgeLnClose a s
  | .lnRunPrime a b => judgeLnRunPrime a b s
  | .lnRunProve a b => judgeLnRunProve a b s
  | .lnSetup a => judgeLnSetup a s
  | .lnAck a => judgeLnAck a s
  | .lnStat a => judgeLnStat a s
  | .cmpLoad a b c d => judgeCmpLoad a b c d s
  | .cmpGet a => judgeCmpGet a s
  | .hoseEmpty a => judgeHoseEmpty a s
  | .prdPut a b => judgePrdPut a b s
  | .prdGet a => judgePrdGet a s
  | .setPut a => judgeSetPut a s
  | .setGet a => judgeSetGet a s
  | .calPutPr a b => judgeCalPutPr a b s
  | .calPutHose a b => judgeCalPutHose a b s
  | .calPutSet a b c => judgeCalPutSet a b c s
  | .calPutAlpha a b => judgeCalPutAlpha a b s
  | .calPutComp a b => judgeCalPutComp a b s
  | .calPutCap a b => judgeCalPutCap a b s
  | .calGet a => judgeCalGet a s
  | .rteOpen a => judgeRteOpen a s
  | .rteClose => judgeRteClose s
  | .rteTotals => report s s.totalsReport
  | .clkSet a => judgeClkSet a s
  | .clkGet => judgeClkGet s
  | .status => judgeStatus s
  | .ident => report s [s.identReport]
  | .store a => judgeStore a s
  | .capClear => judgeCapClear s
  | _ => .error .RANGE

/-- Fields that spell no command of their word: RANGE, but for CAL.PUT whose first check is the seal (R161, R190). -/
def judgeUnread (w : CmdWord) (s : State) : Except Code Taken :=
  if w = .CAL_PUT then calPut s false true s [] else .error .RANGE

/-- The judgement of a word with its fields. -/
def judgeFields (w : CmdWord) (fs : List Field) (s : State) : Except Code Taken :=
  match parseCommand w fs with
  | some i => judgeCommand i s
  | none => judgeUnread w s

/-- A completed line judged by R190's six checks; its characters from ">" to before the carriage return. -/
def judgeLine (chars : List Byte) (s : State) : State :=
  let body := chars.drop 1
  let word := (splitWord body).1
  let shown := if wordReadable word then word else [63#8]
  if 160 ≤ chars.length then s.turnAway shown .FORMAT
  else if wordReadable word = false then s.turnAway shown .FORMAT
  else
    match checkedBody body with
    | none => s.turnAway shown .CHECK
    | some checked =>
      if s.cmd.isSome then s.turnAway shown .BUSY
      else
        match findWord word with
        | none => s.turnAway shown .UNKNOWN
        | some w =>
          match fieldsOf (checked.drop word.length) with
          | none => s.turnAway shown .FORMAT
          | some fs => s.judged w (judgeFields w fs s)

/-- A carriage return: it completes a line being collected, or ends the discarding of a waking character's line (R188, R189). -/
def State.carriageReturn (s : State) : State :=
  match s.rx.discard, s.rx.buf with
  | true, _ => { s with rx := .waiting }
  | false, some chars => judgeLine chars { s with rx := .waiting }
  | false, none => { s with rx := .waiting }

/-- A character that is not a carriage return (R189). Every one restarts the 500 ms gap, a discarded one, such as a line feed, too (the model's choice, log 62). -/
def Receiver.add (c : Byte) (r : Receiver) : Receiver :=
  if r.discard then { r with gap := 0 }
  else if c = 62#8 then { r with buf := some [62#8], gap := 0 }
  else
    match r.buf with
    | none => { r with gap := 0 }
    | some chars =>
      if c = 10#8 ∨ 160 ≤ chars.length then { r with gap := 0 } else { r with buf := some (chars ++ [c]), gap := 0 }

/-- A waking character: it and those following it are discarded up to and including the next carriage return (R188), a carriage return that wakes the part being no next one (log 61). -/
def State.wakeByCharacter (s : State) (samples : Pair Reading) : State :=
  { s.wake samples with rx := { Receiver.waiting with discard := true } }

/-- A character wakes the part by a row that carries no samples: their readings are free values (R188, log 13). -/
def State.wakeByCharacterUnseen (s : State) : State :=
  (s.wakeByCharacter ⟨Config.wakeReading 1 s.fresh, Config.wakeReading 2 s.fresh⟩).drew true

/-- COMMAND_LINE (R188, R190, log 35): the carriage return of a line arrives. -/
def execCommandLine (s : State) : Host.Outcome State Fault Refusal :=
  event (fun s =>
    if s.linkOpen then s.carriageReturn
    else if s.isActive = true ∧ s.mode = .sleep then s.wakeByCharacterUnseen
    else s) s

/-- CHARACTER_RECEIVED (R188, R189, log 35). -/
def execCharacterReceived (c : Byte) (s : State) : Host.Outcome State Fault Refusal :=
  event (fun s =>
    if s.linkOpen then (if c = 13#8 then s.carriageReturn else { s with rx := s.rx.add c })
    else if s.isActive = true ∧ s.mode = .sleep then s.wakeByCharacterUnseen
    else s) s

/-- LINE_GAP_TIMEOUT (R188, R189): a partial line, or the discarding of one, ends. -/
def execLineGapTimeout (s : State) : Host.Outcome State Fault Refusal :=
  activeEvent (fun s => { s with rx := { s.rx with buf := none, discard := false, gap := 0 } }.timeRow .lineGap) s

/-- The first reply line has been sent; where it ends the command in progress, none is in progress (R191). -/
def State.lineSent (s : State) : State :=
  match s.tx with
  | [] => s
  | x :: xs => { s with tx := xs, cmd := if x.ends then none else s.cmd }

/-- REPLY_LINE_SENT (R191). -/
def execReplyLineSent (s : State) : Host.Outcome State Fault Refusal := activeEvent State.lineSent s

/-- A break begins (R182, R189): the partial line is discarded, and a sleeping part wakes (R188). -/
def State.beginBreak (s : State) (samples : Pair Reading) : State :=
  let t := if s.mode = .sleep then s.wake samples else s
  { t with rx := { Receiver.waiting with brk := some 0 } }

/-- BREAK_BEGIN (R182). -/
def execBreakBegin (wake : Pair Reading) (s : State) : Host.Outcome State Fault Refusal :=
  activeEvent (fun s => if s.rx.brk.isSome then s else s.beginBreak wake) s

/-- BREAK_END (R182). -/
def execBreakEnd (s : State) : Host.Outcome State Fault Refusal :=
  activeEvent (fun s => if s.rx.brk.isSome then { s with rx := .waiting } else s) s

/-- LINK_WAKE (R188): a character wakes the part. -/
def execLinkWake (wake : Pair Reading) (s : State) : Host.Outcome State Fault Refusal :=
  activeEvent (fun s => if s.mode = .sleep then s.wakeByCharacter wake else s) s

end Sys2Proof.Machine
end

