-- ==== Sys2Proof/Machine/Meter.lean ====
section
/-! DEFINITION. The events of the meter lines (R55 to R57, R60 to R65, R68 to R73). -/

namespace Sys2Proof.Machine

/-! ## Decoder (R55, R56) -/

/-- Levels after a change of one phase (R55). -/
def Meter.toggle (p : PulserPhase) (m : Meter) : Meter :=
  match p with
  | .a => { m with levelA := !m.levelA }
  | .b => { m with levelB := !m.levelB }

/-- The change of one phase is a forward edge (table of R55); the levels are those before it. -/
def Meter.isForward (m : Meter) (p : PulserPhase) : Bool :=
  match p with
  | .a => !m.levelA != m.levelB
  | .b => !m.levelB == m.levelA

/-- The change is a forward rise of phase A (first row of R55's table). -/
def Meter.isRise (m : Meter) (p : PulserPhase) : Bool := p == .a && !m.levelA && !m.levelB

/-! ## Period measurement (R68) -/

/-- 16,777,216 µs have passed since the reference: the rate becomes 0, band 1, and SEEK follows (R68, R71). -/
def Meter.overflow (m : Meter) : Meter := { m with period := .seek, rate := 0, band := 1 }

/-- Time passed since the reference edge (R68). -/
def Meter.elapse (us : Nat) (m : Meter) : Meter :=
  match m.period with
  | .discard t => if 16777216 ≤ t + us then m.overflow else { m with period := .discard (t + us) }
  | .measure t => if 16777216 ≤ t + us then m.overflow else { m with period := .measure (t + us) }
  | _ => m

/-- The measurement at a credited edge (R68): a rise or a reverse edge moves it; `pr` and `band` serve a completed period. -/
def Meter.measureEdge (forward rise : Bool) (pr : Nat) (band : Nat → Nat) (m : Meter) : Meter :=
  if forward = false then { m with period := .seekDiscard }
  else if rise then
    match m.period with
    | .seekDiscard => { m with period := .discard 0 }
    | .discard _ => { m with period := .measure 0 }
    | .seek => { m with period := .measure 0 }
    | .measure t => { m with period := .measure 0, rate := rateOf pr t, band := band (rateOf pr t) }
  else m

/-- A completed period at a rise (R70). -/
def Meter.completes (rise : Bool) (m : Meter) : Bool :=
  match m.period with
  | .measure _ => rise
  | _ => false

/-! ## Destinations (R57) -/

/-- An edge sent into the window batch (R58). -/
def Meter.batchEdge (forward : Bool) (m : Meter) : Meter :=
  if forward then { m with batchFwd := m.batchFwd + 1 } else { m with batchRev := m.batchRev + 1 }

/-- An edge gated by air (R60). The batch's own count stays 65,535 there (DESIGN CHOICE, log 66). -/
def Meter.gateEdge (m : Meter) : Meter := { m with batchGated := satAdd 65535 m.batchGated 1 }

/-- An edge sent to the creep count (R64). -/
def Meter.creepEdge (forward : Bool) (m : Meter) : Meter :=
  { m with creep := if forward then satAdd 65535 m.creep 1 else m.creep - 1 }

/-- A credited edge on a line (R58, R68, R70, R71). -/
def State.creditEdge (s : State) (l : Line) (forward rise : Bool) : State :=
  (s.modMeter l (fun m => (m.batchEdge forward).measureEdge forward rise (s.prOf l) (s.bandFor l))).drew
    ((s.meter l).completes rise && (s.items l).pr.isNone)

/-- An edge of a line at rest (R64, R65). -/
def State.restEdge (s : State) (l : Line) (forward : Bool) : State :=
  let s1 := s.modMeter l (Meter.creepEdge forward)
  if forward = true ∧ s.prOf l < (s1.meter l).creep ∧ (s1.meter l).latchCreep = false then
    ((s1.modMeter l (fun m => { m with latchCreep := true })).faultLatched l false).drew (s.items l).pr.isNone
  else s1.drew (s.items l).pr.isNone

/-- A change of one phase on a line of a working part, `us` µs after the event before it (R55, R57, R68), a row of its own moment (log 5). -/
def State.edge (s : State) (l : Line) (p : PulserPhase) (us : Nat) : State :=
  let forward := (s.meter l).isForward p
  let rise := (s.meter l).isRise p
  let s1 := (s.timeRow (.edge l)).modMeter l (Meter.toggle p)
  if (s.line l).st = .setup then s1
  else if (s.line l).st.crediting then
    let s2 := s1.modMeter l (Meter.elapse (max us 1))
    if s.inputs.air.get l then s2.modMeter l Meter.gateEdge else s2.creditEdge l forward rise
  else s1.restEdge l forward

/-- PULSER_EDGE (R55); in a flush or the hold only the levels follow (log 25). -/
def execPulserEdge (l : Line) (p : PulserPhase) (us : Nat) (s : State) : Host.Outcome State Fault Refusal :=
  event (fun s => if s.isActive then s.edge l p us else s.modMeter l (Meter.toggle p)) s

/-- Both phases changed: the levels taken (R56). -/
def Meter.toggleBoth (m : Meter) : Meter := { m with levelA := !m.levelA, levelB := !m.levelB }

/-- A phase error on a line of a working part (R56, R57, R62). -/
def State.phaseError (s : State) (l : Line) : State :=
  let s1 := s.modMeter l (fun m => { m.toggleBoth with quiet := 0 })
  if (s.line l).st = .setup then s1
  else
    let s2 := s1.modMeter l (fun m => { m with phaseErrors := satAdd 65535 m.phaseErrors 1 })
    if 16 < (s2.meter l).phaseErrors ∧ (s2.meter l).latchPulser = false then
      (s2.modMeter l (fun m => { m with latchPulser := true })).faultLatched l true
    else s2

/-- PHASE_ERROR (R56); in a flush or the hold only the levels follow (log 25). -/
def execPhaseError (l : Line) (s : State) : Host.Outcome State Fault Refusal :=
  event (fun s => if s.isActive then s.phaseError l else s.modMeter l Meter.toggleBoth) s

/-- A reference edge is held (R68). -/
def Period.timed : Period → Bool
  | .discard _ => true
  | .measure _ => true
  | _ => false

/-- PERIOD_OVERFLOW (R68). -/
def execPeriodOverflow (l : Line) (s : State) : Host.Outcome State Fault Refusal :=
  activeEvent (fun s =>
    if (s.line l).st.crediting = true ∧ (s.meter l).period.timed = true then (s.modMeter l Meter.overflow).timeRow (.overflow l) else s) s

/-- QUIET_TIMER_EXPIRY (R63). -/
def execQuietTimerExpiry (l : Line) (s : State) : Host.Outcome State Fault Refusal :=
  activeEvent (fun s => (s.modMeter l (fun m => { m with quiet := 1000000 })).timeRow (.quiet l)) s

/-- TEMPERATURE_SAMPLE (R72, R73): in RUN only. -/
def execTemperatureSample (l : Line) (r : Reading) (s : State) : Host.Outcome State Fault Refusal :=
  activeEvent (fun s => if s.mode = .run then (s.modMeter l (fun m => m.take r)).timeRow (.sample l) else s) s

end Sys2Proof.Machine
end

