-- ==== Sys2Proof/Machine/Timers.lean ====
section
/-! DEFINITION. The expiries of a line's timers (R102, R105, R106, R116 to R118, R149). An expiry of a stopped timer changes nothing, and an expiry of a deadman timer that came together with the press that reloaded it does not happen (log 5). -/

namespace Sys2Proof.Machine

/-- A line's timers changed. -/
def State.modTimers (s : State) (l : Line) (f : Timers → Timers) : State :=
  s.modLine l (fun c => { c with timers := f c.timers })

/-- The window expires: the batch is converted, and the four steps of R102 follow in order. -/
def State.windowEnd (s : State) (l : Line) : State :=
  let s1 := (s.convert l).modTimers l (fun t => { t with window := some 100000 })
  let s2 :=
    if 0 < s.credited l ∧ (s.line l).st = .flowing then
      s1.modTimers l (fun t => { t with noFlow := some ((s.latchedOf l).run.noFlow * 1000000) })
    else s1
  let s3 :=
    if (s.line l).st = .flowing ∧ (s2.remaining l).atMost (s2.line l).antic = true then s2.beginStop l .limit else s2
  let s4 := if s.excess l then s3.modLine l (LineCtx.cutOrRecord .reverse) else s3
  if (s4.line l).st = .flowing then s4.decideHigh l else s4

/-- WINDOW_EXPIRY (R102). -/
def execWindowExpiry (l : Line) (s : State) : Host.Outcome State Fault Refusal :=
  activeEvent (fun s =>
    if (s.line l).timers.window.isSome = true ∧ (s.line l).st.crediting = true then (s.windowEnd l).timeRow (.window l) else s) s

/-- STEP_EXPIRY (R105). -/
def execStepExpiry (l : Line) (s : State) : Host.Outcome State Fault Refusal :=
  activeEvent (fun s =>
    if (s.line l).timers.step.isSome = true ∧ (s.line l).st = .stopping then (s.modLine l LineCtx.toSettling).timeRow (.step l) else s) s

/-- SETTLE_EXPIRY (R106). -/
def execSettleExpiry (l : Line) (s : State) : Host.Outcome State Fault Refusal :=
  activeEvent (fun s =>
    if (s.line l).timers.settle.isSome = true ∧ (s.line l).st = .settling then (s.settleEnd l).timeRow (.settle l) else s) s

/-- The no-flow timer expires in FLOWING or STOPPING (R116). -/
def State.noFlowEnd (s : State) (l : Line) : State :=
  let s1 := s.modTimers l (fun t => { t with noFlow := none })
  match (s.line l).st with
  | .flowing => s1.beginStop l .noFlow
  | .stopping =>
    if (s.line l).intent = some .pause then s1.modLine l (fun c => { c with intent := some .noFlow }) else s1
  | _ => s1

/-- NO_FLOW_EXPIRY (R116). -/
def execNoFlowExpiry (l : Line) (s : State) : Host.Outcome State Fault Refusal :=
  activeEvent (fun s => if (s.line l).timers.noFlow.isSome then (s.noFlowEnd l).timeRow (.noFlow l) else s) s

/-- A running deadman timer expires: the line is cut (R149), and a press that reloaded the other line's timer is past (log 5). -/
def State.deadmanEnd (s : State) (l : Line) : State :=
  { (s.modTimers l (fun t => { t with deadman := none })).modLine l (LineCtx.cutNow .deadman) with press := .none }

/-- DEADMAN_EXPIRY (R149). Where a press taken first has reloaded the timer, the expiry that came together with it does not happen; it uses up the mark of that press (log 5). -/
def execDeadmanExpiry (l : Line) (s : State) : Host.Outcome State Fault Refusal :=
  activeEvent (fun s =>
    if (s.line l).timers.deadman.isNone then s
    else if s.press.lines.get l then { s with press := { s.press with lines := s.press.lines.set l false } }
    else s.deadmanEnd l) s

/-- The auto-close timer expires in PAUSED: the run ends with TIMEOUT, or the expiry is held while the record is unsaved (R117, R119, log 41). -/
def State.autoCloseEnd (s : State) (l : Line) : State :=
  let s1 := s.modTimers l (fun t => { t with autoClose := none })
  if s.boundIsUnsaved l then s1.modLine l (fun c => { c with held := some (c.held.getD .timeout) })
  else (s1.closeRun l .timeout).report l false

/-- AUTO_CLOSE_EXPIRY (R117); the timer is frozen in SLEEP (R94). -/
def execAutoCloseExpiry (l : Line) (s : State) : Host.Outcome State Fault Refusal :=
  activeEvent (fun s =>
    if (s.line l).timers.autoClose.isSome = true ∧ (s.line l).st = .paused ∧ s.mode = .run then (s.autoCloseEnd l).timeRow (.autoClose l) else s) s

/-- CHECKPOINT_EXPIRY (R118). -/
def execCheckpointExpiry (l : Line) (s : State) : Host.Outcome State Fault Refusal :=
  activeEvent (fun s =>
    if (s.line l).timers.checkpoint.isSome = true ∧ (s.line l).st.crediting = true then
      ((s.modTimers l (fun t => { t with checkpoint := some 5000000 })).checkpoint l).timeRow (.checkpoint l)
    else s) s

end Sys2Proof.Machine
end

