-- ==== Sys2Proof/Machine/Inputs.lean ====
section
/-! DEFINITION. The safety inputs and the seal (R142 to R151, R158). An event that finds its input already at its level changes nothing (log 5); in a flush or the hold only the level follows (log 25). -/

namespace Sys2Proof.Machine

/-- The levels of the inputs changed. -/
def State.modInputs (s : State) (f : Inputs → Inputs) : State := { s with inputs := f s.inputs }

/-- Both line contexts changed. -/
def State.modBothLines (s : State) (f : LineCtx → LineCtx) : State := { s with lines := s.lines.map f }

/-- A change of an input, and what it does while the part works (R142, R178). -/
def inputEvent (changes : Bool) (f : Inputs → Inputs) (acts : State → State) (s : State) : State :=
  if changes then (if s.isActive then acts (s.modInputs f) else s.modInputs f) else s

/-- PERMIT_DEASSERTED (R144). -/
def execPermitDeasserted (s : State) : Host.Outcome State Fault Refusal :=
  event (fun s => inputEvent s.inputs.permit (fun i => { i with permit := false })
    (fun t => t.modBothLines (LineCtx.cutOrRecord .interlock)) s) s

/-- PERMIT_ASSERTED (R145). -/
def execPermitAsserted (s : State) : Host.Outcome State Fault Refusal :=
  event (fun s => inputEvent (!s.inputs.permit) (fun i => { i with permit := true }) id s) s

/-- IGNITION_LOW (R142, R150). -/
def execIgnitionLow (s : State) : Host.Outcome State Fault Refusal :=
  event (fun s => inputEvent s.inputs.ignition (fun i => { i with ignition := false })
    (fun t => { t.modBothLines (LineCtx.cutOrRecord .ignition) with ignitionLow := 0 }) s) s

/-- IGNITION becomes high in a working part: a sleep put off is forgotten, and a sleeping part wakes (R151, R187, R188). -/
def State.ignitionRises (s : State) (samples : Pair Reading) : State :=
  let t := { s with ignitionLow := 0, sleepDue := false }
  if t.mode = .sleep then t.wake samples else t

/-- IGNITION_HIGH (R151). -/
def execIgnitionHigh (wake : Pair Reading) (s : State) : Host.Outcome State Fault Refusal :=
  event (fun s => inputEvent (!s.inputs.ignition) (fun i => { i with ignition := true })
    (fun t => t.ignitionRises wake) s) s

/-- AIR_ASSERTED (R146). -/
def execAirAsserted (l : Line) (s : State) : Host.Outcome State Fault Refusal :=
  event (fun s => inputEvent (!s.inputs.air.get l) (fun i => { i with air := i.air.set l true })
    (fun t => t.modLine l (LineCtx.cutNow .air)) s) s

/-- AIR_DEASSERTED (R147). -/
def execAirDeasserted (l : Line) (s : State) : Host.Outcome State Fault Refusal :=
  event (fun s => inputEvent (s.inputs.air.get l) (fun i => { i with air := i.air.set l false }) id s) s

/-- A running deadman timer loaded anew; a stopped one stays stopped (R148). -/
def Timers.reload (interval : Nat) (t : Timers) : Timers :=
  if t.deadman.isSome then { t with deadman := some (interval * 1000000) } else t

/-- A line's running deadman timer loaded anew by a press (R148). -/
def State.reloadDeadman (s : State) (l : Line) : State := s.modTimers l (Timers.reload (s.latchedOf l).run.deadman)

/-- A press reloads every running deadman timer, and marks their lines (R148, R149, log 5). -/
def State.pressDeadman (s : State) : State :=
  { (s.reloadDeadman .one).reloadDeadman .two with
    press := ⟨s.lines.map (fun c => c.timers.deadman.isSome), []⟩ }

/-- DEADMAN_PRESS (R148). -/
def execDeadmanPress (s : State) : Host.Outcome State Fault Refusal :=
  event (fun s => inputEvent (!s.inputs.deadman) (fun i => { i with deadman := true }) State.pressDeadman s) s

/-- DEADMAN_RELEASE (R148). -/
def execDeadmanRelease (s : State) : Host.Outcome State Fault Refusal :=
  event (fun s => inputEvent s.inputs.deadman (fun i => { i with deadman := false }) id s) s

/-- SEAL_OPENS (R158). -/
def execSealOpens (s : State) : Host.Outcome State Fault Refusal :=
  event (fun s => inputEvent (!s.inputs.sealOpen) (fun i => { i with sealOpen := true }) id s) s

/-- SEAL_CLOSES (R158). -/
def execSealCloses (s : State) : Host.Outcome State Fault Refusal :=
  event (fun s => inputEvent s.inputs.sealOpen (fun i => { i with sealOpen := false }) State.closeSession s) s

end Sys2Proof.Machine
end

