-- ==== Sys2Proof/Machine/Power.lean ====
section
/-! DEFINITION. Power loss, link reset, restart, SLEEP and the clock (R178 to R183, R186, R187). -/

namespace Sys2Proof.Machine

/-! ## The flush (R178, R180) -/

/-- A line halted where it stands (R178): a crediting line's batch is taken, and its timers stop. -/
def State.haltLine (s : State) (l : Line) : State :=
  if (s.line l).st.crediting then (s.convert l).modTimers l (fun _ => .stopped) else s

/-- The record bound to a line takes the FINAL marker (R180). -/
def State.markFinal (s : State) (l : Line) : State :=
  match (s.line l).bound with
  | some stop => s.modRec stop (fun r => { r with restored := .final })
  | none => s

/-- A list cut behind an entry; none where the entry is not in it. -/
def cutBehind (k : Key) : List Key → Option (List Key × List Key)
  | [] => none
  | x :: xs => if x = k then some ([x], xs) else (cutBehind k xs).map (fun p => (x :: p.1, p.2))

/-- One bound record's FINAL write put into the order of the flush (R179, R180): the part already ordered, and the rest. Where line 2's waiting entry stands ahead of line 1's, line 2's FINAL write is made once, in that entry's place (DESIGN CHOICE, log 60). -/
def finalFor (bound : Option Nat) (p : List Key × List Key) : List Key × List Key :=
  match bound with
  | none => p
  | some stop =>
    match cutBehind (.record stop) p.2 with
    | some (a, b) => (p.1 ++ a, b)
    | none => if p.1.contains (.record stop) then p else (p.1 ++ [.record stop], p.2)

/-- The queue in the order of the flush (R179, R180). -/
def finalOrder (one two : Option Nat) (queue : List Key) : List Key :=
  (finalFor two (finalFor one ([], queue))).1 ++ (finalFor two (finalFor one ([], queue))).2

/-- A flush of a kind begins (R178): lines halted, FINAL markers set, the queue ordered, the link silent. -/
def State.beginFlush (s : State) (k : FlushKind) : State :=
  let t := (((s.haltLine .one).haltLine .two).markFinal .one).markFinal .two
  { t with
    queue := finalOrder s.lines.one.bound s.lines.two.bound s.queue
    cmd := none, tx := [], rx := .waiting
    phase := .flush ⟨k, 0, false, false, false⟩ }

/-- A restart stopped by POWER-FAIL (R181): the operation in flight alone is completed, the link is silent, and what the restart had queued is left to the next one. -/
def State.stopRestart (s : State) : State :=
  { s with queue := [], cmd := none, tx := [], rx := .waiting, phase := .flush ⟨.powerFail none, 0, false, false, true⟩ }

/-- POWER-FAIL becomes asserted (R178, R181, R182): a flush begins, a restart stops, or a link reset's flush takes the deadline. Asserted again in a power-fail flush, it takes back the restart that its deassertion asked for, and the flush goes on to the hold (R181, log 22). -/
def State.powerFails (s : State) : State :=
  match s.phase with
  | .active => ({ s with inputs := { s.inputs with powerFail := true } }).beginFlush (.powerFail none)
  | .restart => ({ s with inputs := { s.inputs with powerFail := true } }).stopRestart
  | .flush f =>
    match f.kind with
    | .linkReset _ =>
      { s with
        inputs := { s.inputs with powerFail := true }
        phase := .flush ⟨.powerFail none, 0, false, false, false⟩ }
    | .powerFail _ =>
      { s with inputs := { s.inputs with powerFail := true }, phase := .flush { f with kind := .powerFail none } }
  | .hold => s

/-- POWER_FAIL_ASSERTED (R178, R181): the one row that finds a restart still under way (log 44). -/
def execPowerFailAsserted (s : State) : Host.Outcome State Fault Refusal := .next (commit s.powerFails)

/-- A break has lasted 1 s (R182, log 23). -/
def State.linkResets (s : State) (reads : RestartReads) : State :=
  if s.isActive then s.beginFlush (.linkReset reads) else s

/-- LINK_RESET (R182). -/
def execLinkReset (reads : RestartReads) (s : State) : Host.Outcome State Fault Refusal :=
  event (fun s => s.linkResets reads) s

/-- A deadline of the power-fail flush has passed (R179, log 42). -/
def State.deadlinePasses (s : State) (d : Deadline) : State :=
  match s.phase with
  | .flush f =>
    { s with phase := .flush { f with blocksPast := true, slotsPast := f.slotsPast || d == .slots } }
  | _ => s

/-- FLUSH_DEADLINE (R179). -/
def execFlushDeadline (d : Deadline) (s : State) : Host.Outcome State Fault Refusal :=
  event (fun s => s.deadlinePasses d) s

/-! ## Power on (R181, R183) -/

/-- Power is applied, or POWER-FAIL is deasserted (R181, R183, log 22): in a power-fail flush the restart waits for its end. -/
def State.powerOn (s : State) (reads : RestartReads) : State :=
  match s.phase with
  | .flush f =>
    match f.kind with
    | .powerFail _ =>
      { s with inputs := { s.inputs with powerFail := false }, phase := .flush { f with kind := .powerFail (some reads) } }
    | .linkReset _ => s.restart .powerOn reads
  | _ => s.restart .powerOn reads

/-- POWER_ON_RESTART (R183). -/
def execPowerOnRestart (reads : RestartReads) (s : State) : Host.Outcome State Fault Refusal :=
  event (fun s => s.powerOn reads) s

/-! ## SLEEP and the clock (R186, R187) -/

/-- IGNITION has stood low for 60 s: SLEEP, or SLEEP when a settle or a command has ended (R187, log 43). -/
def State.sleepTime (s : State) : State :=
  if s.maySleep then s.enterSleep
  else if s.mode = .run ∧ s.inputs.ignition = false then { s with sleepDue := true }
  else s

/-- SLEEP_ENTRY (R187). -/
def execSleepEntry (s : State) : Host.Outcome State Fault Refusal := activeEvent State.sleepTime s

/-- The clock advances in RUN, in SLEEP and through a link reset's flush (R186). -/
def State.clockRuns (s : State) : Bool :=
  match s.phase with
  | .active => true
  | .restart => true
  | .hold => false
  | .flush f =>
    match f.kind with
    | .linkReset _ => true
    | .powerFail _ => false

/-- CLOCK_TICK (R186). -/
def execClockTick (s : State) : Host.Outcome State Fault Refusal :=
  event (fun s => if s.clockRuns then { s with clock := { s.clock with now := nextSecond s.clock.now } }.timeRow .clock else s) s

end Sys2Proof.Machine
end

