-- ==== Sys2Proof/Machine/StoreEvents.lean ====
section
/-! DEFINITION. The events of the record store (R33, R35, R37, R40, R46). A completion that finds no such operation in flight changes nothing (log 5). -/

namespace Sys2Proof.Machine

/-- RECORD_WRITE_COMPLETE (R35). -/
def execRecordWriteComplete (read : ReadResult) (agrees : Bool) (s : State) : Host.Outcome State Fault Refusal :=
  event (fun s =>
    match s.flight with
    | some (.record w) => s.recordWriteEnd w read agrees
    | _ => s) s

/-- BLOCK_WRITE_COMPLETE (R46). -/
def execBlockWriteComplete (agrees : Bool) (s : State) : Host.Outcome State Fault Refusal :=
  event (fun s =>
    match s.flight with
    | some (.block image second) => s.blockWriteEnd image second agrees
    | _ => s) s

/-- RELEASE_COMPLETE (R37). -/
def execReleaseComplete (s : State) : Host.Outcome State Fault Refusal :=
  event (fun s =>
    match s.flight with
    | some (.release n) => s.releaseEnd n
    | _ => s) s

/-- PATROL_IDLE_EXPIRY (R40). -/
def execPatrolIdleExpiry (s : State) : Host.Outcome State Fault Refusal := event State.patrolBegin s

/-- PATROL_READ_COMPLETE (R40). -/
def execPatrolReadComplete (read : ReadResult) (s : State) : Host.Outcome State Fault Refusal :=
  event (fun s =>
    match s.flight with
    | some (.patrol n) => s.patrolEnd n read
    | _ => s) s

end Sys2Proof.Machine
end

