-- ==== Sys2Proof/Machine/Dispatch.lean ====
section
/-! DEFINITION. One arm per command and event: its meaning. -/

namespace Sys2Proof.Machine

/-- The effect of one command or event on everything but the queue of those that wait. -/
def exec (i : Instr) (s : State) : Host.Outcome State Fault Refusal :=
  match i with
  | .ordNew stop account product kind preset price credit => Sys2Proof.Machine.execOrdNew stop account product kind preset price credit s
  | .ordDrop stop k tank cap preset noCap noPreset => Sys2Proof.Machine.execOrdDrop stop k tank cap preset noCap noPreset s
  | .ordDropClear stop => Sys2Proof.Machine.execOrdDropClear stop s
  | .ordGet target => Sys2Proof.Machine.execOrdGet target s
  | .ordFind account start => Sys2Proof.Machine.execOrdFind account start s
  | .ordList state start => Sys2Proof.Machine.execOrdList state start s
  | .ordAmend stop a => Sys2Proof.Machine.execOrdAmend stop a s
  | .ordHold stop => Sys2Proof.Machine.execOrdHold stop s
  | .ordRelease stop => Sys2Proof.Machine.execOrdRelease stop s
  | .ordCancel stop => Sys2Proof.Machine.execOrdCancel stop s
  | .ordRetire target => Sys2Proof.Machine.execOrdRetire target s
  | .tktGet stop => Sys2Proof.Machine.execTktGet stop s
  | .tktIssue stop => Sys2Proof.Machine.execTktIssue stop s
  | .lnArm line stop comp purge => Sys2Proof.Machine.execLnArm line stop comp purge s
  | .lnDisarm line => Sys2Proof.Machine.execLnDisarm line s
  | .lnStart line => Sys2Proof.Machine.execLnStart line s
  | .lnNext line => Sys2Proof.Machine.execLnNext line s
  | .lnResume line => Sys2Proof.Machine.execLnResume line s
  | .lnPause line => Sys2Proof.Machine.execLnPause line s
  | .lnEnddrop line => Sys2Proof.Machine.execLnEnddrop line s
  | .lnClose line => Sys2Proof.Machine.execLnClose line s
  | .lnRunPrime line comp => Sys2Proof.Machine.execLnRunPrime line comp s
  | .lnRunProve line comp => Sys2Proof.Machine.execLnRunProve line comp s
  | .lnSetup line => Sys2Proof.Machine.execLnSetup line s
  | .lnAck line => Sys2Proof.Machine.execLnAck line s
  | .lnStat line => Sys2Proof.Machine.execLnStat line s
  | .cmpLoad comp product volume empty => Sys2Proof.Machine.execCmpLoad comp product volume empty s
  | .cmpGet comp => Sys2Proof.Machine.execCmpGet comp s
  | .hoseEmpty line => Sys2Proof.Machine.execHoseEmpty line s
  | .prdPut code f => Sys2Proof.Machine.execPrdPut code f s
  | .prdGet code => Sys2Proof.Machine.execPrdGet code s
  | .setPut items => Sys2Proof.Machine.execSetPut items s
  | .setGet latched => Sys2Proof.Machine.execSetGet latched s
  | .calPutPr line pr => Sys2Proof.Machine.execCalPutPr line pr s
  | .calPutHose line volume => Sys2Proof.Machine.execCalPutHose line volume s
  | .calPutSet line product bands => Sys2Proof.Machine.execCalPutSet line product bands s
  | .calPutAlpha product alpha => Sys2Proof.Machine.execCalPutAlpha product alpha s
  | .calPutComp product on => Sys2Proof.Machine.execCalPutComp product on s
  | .calPutCap comp capacity => Sys2Proof.Machine.execCalPutCap comp capacity s
  | .calGet set => Sys2Proof.Machine.execCalGet set s
  | .rteOpen number => Sys2Proof.Machine.execRteOpen number s
  | .rteClose => Sys2Proof.Machine.execRteClose s
  | .rteTotals => Sys2Proof.Machine.execRteTotals s
  | .clkSet value => Sys2Proof.Machine.execClkSet value s
  | .clkGet => Sys2Proof.Machine.execClkGet s
  | .status => Sys2Proof.Machine.execStatus s
  | .ident => Sys2Proof.Machine.execIdent s
  | .store slot => Sys2Proof.Machine.execStore slot s
  | .capClear => Sys2Proof.Machine.execCapClear s
  | .commandLine => Sys2Proof.Machine.execCommandLine s
  | .lineGapTimeout => Sys2Proof.Machine.execLineGapTimeout s
  | .replyLineSent => Sys2Proof.Machine.execReplyLineSent s
  | .breakBegin wake => Sys2Proof.Machine.execBreakBegin wake s
  | .linkReset reads => Sys2Proof.Machine.execLinkReset reads s
  | .linkWake wake => Sys2Proof.Machine.execLinkWake wake s
  | .pulserEdge line phase us => Sys2Proof.Machine.execPulserEdge line phase us s
  | .phaseError line => Sys2Proof.Machine.execPhaseError line s
  | .periodOverflow line => Sys2Proof.Machine.execPeriodOverflow line s
  | .quietTimerExpiry line => Sys2Proof.Machine.execQuietTimerExpiry line s
  | .temperatureSample line reading => Sys2Proof.Machine.execTemperatureSample line reading s
  | .windowExpiry line => Sys2Proof.Machine.execWindowExpiry line s
  | .stepExpiry line => Sys2Proof.Machine.execStepExpiry line s
  | .settleExpiry line => Sys2Proof.Machine.execSettleExpiry line s
  | .noFlowExpiry line => Sys2Proof.Machine.execNoFlowExpiry line s
  | .deadmanExpiry line => Sys2Proof.Machine.execDeadmanExpiry line s
  | .autoCloseExpiry line => Sys2Proof.Machine.execAutoCloseExpiry line s
  | .checkpointExpiry line => Sys2Proof.Machine.execCheckpointExpiry line s
  | .permitDeasserted => Sys2Proof.Machine.execPermitDeasserted s
  | .permitAsserted => Sys2Proof.Machine.execPermitAsserted s
  | .ignitionLow => Sys2Proof.Machine.execIgnitionLow s
  | .ignitionHigh wake => Sys2Proof.Machine.execIgnitionHigh wake s
  | .airAsserted line => Sys2Proof.Machine.execAirAsserted line s
  | .airDeasserted line => Sys2Proof.Machine.execAirDeasserted line s
  | .deadmanPress => Sys2Proof.Machine.execDeadmanPress s
  | .sealOpens => Sys2Proof.Machine.execSealOpens s
  | .sealCloses => Sys2Proof.Machine.execSealCloses s
  | .powerFailAsserted => Sys2Proof.Machine.execPowerFailAsserted s
  | .flushDeadline which => Sys2Proof.Machine.execFlushDeadline which s
  | .powerOnRestart reads => Sys2Proof.Machine.execPowerOnRestart reads s
  | .sleepEntry => Sys2Proof.Machine.execSleepEntry s
  | .clockTick => Sys2Proof.Machine.execClockTick s
  | .recordWriteComplete read agrees => Sys2Proof.Machine.execRecordWriteComplete read agrees s
  | .blockWriteComplete agrees => Sys2Proof.Machine.execBlockWriteComplete agrees s
  | .releaseComplete => Sys2Proof.Machine.execReleaseComplete s
  | .patrolIdleExpiry => Sys2Proof.Machine.execPatrolIdleExpiry s
  | .patrolReadComplete read => Sys2Proof.Machine.execPatrolReadComplete read s
  | .characterReceived c => Sys2Proof.Machine.execCharacterReceived c s
  | .breakEnd => Sys2Proof.Machine.execBreakEnd s
  | .deadmanRelease => Sys2Proof.Machine.execDeadmanRelease s

end Sys2Proof.Machine
end

