-- ==== Sys2Proof/Machine/Tick.lean ====
section
/-! DEFINITION. One microsecond passes (log 4): what the step does where no command or event waits. Timers lose and times elapsed gain; what an expiry does is the expiry's own row. -/

namespace Sys2Proof.Machine

/-- A time left, one µs later; a timer that has run out waits for its expiry row. -/
def countDown (t : Option Nat) : Option Nat := t.map (· - 1)

/-- A line's timers one µs later; the auto-close timer is frozen in SLEEP (R94, R117). -/
def Timers.pass (asleep : Bool) (t : Timers) : Timers :=
  { window := countDown t.window, step := countDown t.step, settle := countDown t.settle
    noFlow := countDown t.noFlow, deadman := countDown t.deadman
    autoClose := if asleep then t.autoClose else countDown t.autoClose
    checkpoint := countDown t.checkpoint }

/-- The time since the reference edge, one µs later, counted to 16,777,216 µs (R68). -/
def Period.pass : Period → Period
  | .discard us => .discard (satAdd 16777216 us 1)
  | .measure us => .measure (satAdd 16777216 us 1)
  | p => p

/-- A meter line one µs later (R63, R68). -/
def Meter.pass (m : Meter) : Meter := { m with period := m.period.pass, quiet := satAdd 1000000 m.quiet 1 }

/-- The receiver one µs later: the gap of a line being collected or discarded, counted to 500 ms, and a break, counted to 1 s (R182, R188, R189). -/
def Receiver.pass (r : Receiver) : Receiver :=
  { r with
    gap := if r.buf.isSome || r.discard then satAdd 500000 r.gap 1 else r.gap
    brk := r.brk.map (fun t => satAdd 1000000 t 1) }

/-- One µs passes in a working part (R40, R187): a press of DEADMAN is of this moment no longer (log 5). In SLEEP the idle time of R40 does not count (DESIGN CHOICE, log 65). -/
def State.passActive (s : State) : State :=
  { s with
    lines := s.lines.map (fun c => { c with timers := c.timers.pass (s.mode == .sleep) })
    meters := s.meters.map Meter.pass
    rx := s.rx.pass
    press := .none
    ignitionLow := if s.mode = .run ∧ s.inputs.ignition = false then satAdd 60000000 s.ignitionLow 1 else s.ignitionLow
    patrolIdle :=
      if s.mode = .run ∧ s.queue = [] ∧ s.flight = none then satAdd 1000000 s.patrolIdle 1 else s.patrolIdle }

/-- One µs passes (log 4): a restart under way has ended (log 44), and in a flush only the time since POWER-FAIL counts, to just past the last deadline (R179). -/
def tick (s : State) : State :=
  match s.phase with
  | .active => s.passActive
  | .restart => s.comesUp.passActive
  | .flush f => { s with phase := .flush { f with elapsed := satAdd 138001 f.elapsed 1 } }
  | .hold => s

/-- A command put at the front of those that wait. -/
def State.pushFront (s : State) (i : Instr) : State := { s with pending := i :: s.pending }

end Sys2Proof.Machine
end

