-- ==== Sys2Proof/Safety.lean ====
section
/-! DEFINITION. What a good state is, and what a command or event leaves alone, in the terms the statements use. -/

namespace Sys2Proof.Machine

/-! ## States between two steps -/

/-- The reply of the command in progress is due: its outcome is decided and its writes have completed (R191). -/
def State.replyDue (s : State) : Bool :=
  match s.cmd with
  | some c => !c.sent && c.waits.over && (s.planSegments c.plan).isSome
  | none => false

/-- Nothing is left to do before the next event: no entry waits with nothing in flight (R33), no reply and no attention item is due (R191, R193), no sleep is due (R187). -/
def State.settled (s : State) : Bool :=
  (s.flight.isSome || s.queue.isEmpty) && !s.replyDue
    && !(s.lines.one.endWaits.any Waiter.over) && !(s.lines.two.endWaits.any Waiter.over)
    && !(s.sleepDue && s.comesUp.maySleep)

/-- The link takes a command line: the part works in RUN, no break holds, no line is discarded, and no command is in progress. -/
def State.hears (s : State) : Bool := s.linkOpen && !s.rx.discard && s.cmd.isNone

/-- A write that needs a new slot would find one, or the store is busy and begins nothing in this step; so no record becomes unsaved in this step (R43). -/
def State.roomy (s : State) : Bool := s.flight.isSome || s.slots.any Slot.isFree

/-- A state in which a command is taken and its own effect is all that follows it. -/
def State.calm (s : State) : Bool := s.hears && s.settled && s.roomy

/-! ## Laws of the state -/

/-- The law of R30: 80 slots, each FREE, RETIRED, or the home of a live record; and no stop has two homes that are not DAMAGED (R1, R8). -/
def State.slotLaw (s : State) : Prop :=
  s.slots.length = 80 ∧ s.countSlots Slot.isLive + s.countSlots Slot.isFree + s.countSlots Slot.isRetired = 80
    ∧ (s.records.map (·.stop)).Nodup

/-- No entry stands twice in the write queue (R32). -/
def State.queueLaw (s : State) : Prop := s.queue.Nodup

/-- A line's stage commands are open in the states that open them only (R96). -/
def LineCtx.valveLaw (c : LineCtx) : Prop :=
  (c.cmdLow = true → c.st = .flowing ∨ c.st = .stopping) ∧ (c.cmdHigh = true → c.st = .flowing)

/-- Both lines' stage commands obey R96. -/
def State.valveLaw (s : State) : Prop := s.lines.one.valveLaw ∧ s.lines.two.valveLaw

/-- Both anticipations of a settings block are at most 2000 cL (R155). -/
def Settings.anticLaw (x : Settings) : Prop := x.lines.one.antic ≤ 2000 ∧ x.lines.two.antic ≤ 2000

/-- The settings a block write carries, if it carries settings, obey the bound. -/
def flightAntic : Option Flight → Prop
  | some (.block (.settings b) _) => b.anticLaw
  | _ => True

/-- Every anticipation the part holds is at most 2000 cL (R107): working, in the settings image, in the settings area, in flight to it. -/
def State.anticLaw (s : State) : Prop :=
  s.lines.one.antic ≤ 2000 ∧ s.lines.two.antic ≤ 2000 ∧ s.settings.anticLaw
    ∧ (∀ c, s.areaSettings = some c → c.block.anticLaw) ∧ flightAntic s.flight

/-- The counts of a meter line stand in their ranges (R54). -/
def Meter.countLaw (m : Meter) : Prop :=
  m.phaseErrors ≤ 65535 ∧ m.creep ≤ 65535 ∧ m.batchGated ≤ 65535 ∧ m.runGated ≤ 65535
    ∧ m.fwdTotal ≤ 4294967295 ∧ m.revTotal ≤ 4294967295 ∧ m.quiet ≤ 1000000

/-- Both meter lines' counts stand in their ranges (R54). -/
def State.countLaw (s : State) : Prop := s.meters.one.countLaw ∧ s.meters.two.countLaw

/-! ## Frames -/

/-- The truck's inputs, the meters, the clock, the capture set, the areas, the store's counts and the restart record are unchanged. -/
def sameTruck (s t : State) : Prop :=
  t.inputs = s.inputs ∧ t.meters = s.meters ∧ t.clock = s.clock ∧ t.captures = s.captures ∧ t.areaSettings = s.areaSettings
    ∧ t.areaLoad = s.areaLoad ∧ t.areaRoute = s.areaRoute ∧ t.failed = s.failed ∧ t.seq = s.seq
    ∧ t.patrolCursor = s.patrolCursor ∧ t.resetCause = s.resetCause ∧ t.phase = s.phase ∧ t.mode = s.mode
    ∧ t.ignitionLow = s.ignitionLow ∧ t.sleepDue = s.sleepDue

/-- The settings, load and route images and the ticket counter are unchanged. -/
def sameBlocks (s t : State) : Prop :=
  t.settings = s.settings ∧ t.load = s.load ∧ t.route = s.route ∧ t.counter = s.counter

/-- A line's context, apart from the run ends it waits for. -/
def LineCtx.core (c : LineCtx) : LineCtx := { c with endWaits := [] }

/-- A line and its attention item are unchanged. -/
def sameLine (s t : State) (l : Line) : Prop := (t.line l).core = (s.line l).core ∧ t.attention.get l = s.attention.get l

/-- Both lines and the pump binding are unchanged. -/
def sameLines (s t : State) : Prop := sameLine s t .one ∧ sameLine s t .two ∧ t.pump = s.pump

/-- Every record but that of a stop is unchanged, and so is the list of unsaved images. -/
def sameRecordsBut (stop : Nat) (s t : State) : Prop :=
  (∀ n, n ≠ stop → t.recOf n = s.recOf n) ∧ t.unsaved = s.unsaved

/-- Every record is unchanged, and so is the list of unsaved images. -/
def sameRecords (s t : State) : Prop := (∀ n, t.recOf n = s.recOf n) ∧ t.unsaved = s.unsaved

/-- The command in progress after a taken command: its word and outcome, unanswered or already sent. -/
def inProgress (w : CmdWord) (p : Plan) (t : State) : Prop :=
  ∃ c, t.cmd = some c ∧ c.word = w ∧ c.plan = p

/-- The operation in flight is an entry's: a record's by its stop, a block's, a slot's release. -/
def flightIs (k : Key) (f : Option Flight) : Prop :=
  match k, f with
  | .record stop, some (.record w) => w.stop = stop
  | .block .settings, some (.block (.settings _) _) => True
  | .block .load, some (.block (.load _) _) => True
  | .block .route, some (.block (.route _) _) => True
  | .release n, some (.release m) => n = m
  | _, _ => False

/-- An entry waits in the queue, or is the one in flight (R32, R33). -/
def asked (t : State) (k : Key) : Prop := k ∈ t.queue ∨ flightIs k t.flight

/-! ## Outcomes of a command taken -/

/-- A command taken that queues no write: its reply lines go to the transmitter at once (R191). -/
def answered (w : CmdWord) (segments : List (List Tok)) (u : State) : State :=
  { u with rx := .waiting, cmd := some ⟨w, .ready segments, .on [], true⟩, tx := u.tx ++ okLines w.bytes segments }

/-- A command refused with a code: nothing but the link changes (R2, R191). -/
def refusedWith (w : CmdWord) (c : Code) (s : State) : State :=
  { s with rx := .waiting, cmd := some ⟨w, .ready [], .on [], true⟩, tx := s.tx ++ [⟨w.bytes, .no c, [], true⟩] }

/-- A command taken that changes one record: its write is asked for, its reply waits, and nothing else changes. -/
def recordTaken (w : CmdWord) (p : Plan) (stop : Nat) (r : Record) (s t : State) : Prop :=
  t.recOf stop = some r ∧ sameRecordsBut stop s t ∧ sameBlocks s t ∧ sameLines s t ∧ sameTruck s t ∧ t.tx = s.tx
    ∧ inProgress w p t ∧ asked t (.record stop)

/-- A command taken that changes one system block: its write is asked for, its reply waits, and nothing but the block changes. -/
def blockChanged (w : CmdWord) (p : Plan) (b : Block) (s t : State) : Prop :=
  sameRecords s t ∧ sameLines s t ∧ sameTruck s t ∧ t.counter = s.counter ∧ t.tx = s.tx ∧ inProgress w p t
    ∧ asked t (.block b)

/-- What a line's own change leaves alone: the other line, the blocks, the truck. -/
def otherThanLine (l : Line) (s t : State) : Prop := sameLine s t l.other ∧ sameBlocks s t ∧ sameTruck s t ∧ t.tx = s.tx

/-- What a change of a line and its meter line leaves alone: the other line with its meter line, the rest of the truck. -/
def otherLineAndTruck (l : Line) (s t : State) : Prop :=
  sameLine s t l.other ∧ t.meter l.other = s.meter l.other ∧ sameTruck s { t with meters := s.meters }

/-- The pump binding that a line has joined: its compartment, the line in the set, the other line as it was (R134). -/
def joined (l : Line) (c : Nat) (s t : State) : Prop :=
  ∃ b, t.pump = some b ∧ b.comp = c ∧ b.lines.get l = true
    ∧ b.lines.get l.other = (match s.pump with | some a => a.lines.get l.other | none => false)

/-- The pump binding that a line has left: UNBOUND where no line is left, else the other line alone (R135). -/
def left (l : Line) (s t : State) : Prop :=
  t.pump = match s.pump with
    | some a => if a.lines.get l.other then some { a with lines := a.lines.set l false } else none
    | none => none

/-- A line at rest in a state: no run, no record, every timer stopped, both stage commands closed (R112). -/
def LineCtx.isAtRest (st : LineState) (c : LineCtx) : Prop :=
  c.st = st ∧ c.kind = none ∧ c.bound = none ∧ c.cause = none ∧ c.intent = none ∧ c.cut = none ∧ c.limit = none
    ∧ c.cmdLow = false ∧ c.cmdHigh = false ∧ c.latched = none ∧ c.timers = .stopped ∧ c.reserved = false ∧ c.held = none
    ∧ c.grossRem = 0 ∧ c.netRem = 0 ∧ c.reverse = 0 ∧ c.lastVcf = none

/-- A line that has just entered FLOWING with a slow-start base: LOW's command open, HIGH's closed, the timers loaded from the latched settings (R101, R115, R116, R118, R148). -/
def LineCtx.justFlowing (x : RunSettings) (base : Nat) (c : LineCtx) : Prop :=
  c.st = .flowing ∧ c.cause = none ∧ c.intent = none ∧ c.cut = none ∧ c.cmdLow = true ∧ c.cmdHigh = false ∧ c.slowBase = base
    ∧ c.timers.window = some 100000 ∧ c.timers.noFlow = some (x.noFlow * 1000000)
    ∧ c.timers.deadman = (if x.deadman = 0 then none else some (x.deadman * 1000000)) ∧ c.timers.autoClose = none
    ∧ c.timers.step = none ∧ c.timers.settle = none
    ∧ c.timers.checkpoint = (if c.kind = some .order then some 5000000 else none)

/-- A meter line whose line has just entered FLOWING: the batch empty, the measurement afresh, rate 0, band 1 (R58, R69, R71). -/
def Meter.justFlowing (m : Meter) : Prop :=
  m.batchFwd = 0 ∧ m.batchRev = 0 ∧ m.batchGated = 0 ∧ m.period = .seekDiscard ∧ m.rate = 0 ∧ m.band = 1

/-- A line whose stop has just begun with an intent: the live net kept; HIGH's command open means STOPPING with the step timer loaded, closed means SETTLING with LOW closed and the settle timer loaded (R104, R106). -/
def LineCtx.stopBegun (x : RunSettings) (i : StopIntent) (live : Nat) (low : Bool) (before after : LineCtx) : Prop :=
  after.intent = some i ∧ after.stopNet = some live ∧ after.lowAlone = low ∧ after.cmdHigh = false
    ∧ after.limit = before.limit ∧ after.bound = before.bound ∧ after.kind = before.kind
    ∧ (before.cmdHigh = true → after.st = .stopping ∧ after.cmdLow = before.cmdLow
        ∧ after.timers = { before.timers with step := some (x.step * 1000) })
    ∧ (before.cmdHigh = false → after.st = .settling ∧ after.cmdLow = false ∧ after.timers.settle = some 2000000
        ∧ after.timers.noFlow = none ∧ after.timers.deadman = none ∧ after.timers.step = none
        ∧ after.timers.window = before.timers.window ∧ after.timers.checkpoint = before.timers.checkpoint)

/-- A line whose valve has just been cut: SETTLING, both commands closed, the settle timer loaded, intent kept (R104, R143). -/
def LineCtx.justCut (x : CutCause) (before after : LineCtx) : Prop :=
  after = { before with
    st := .settling, cut := if before.cut = some .pulser then some .pulser else some x, cmdLow := false, cmdHigh := false
    timers := { before.timers with settle := some 2000000, step := none, noFlow := none, deadman := none } }

/-- A compartment's account set by CMP.LOAD: the other accounts, the hoses and the other blocks as they were, the load block's write asked for (R128). -/
def compSet (c : Nat) (y : Comp) (s t : State) : Prop :=
  nth1 t.load.comps c = some y ∧ (∀ d, d ≠ c → nth1 t.load.comps d = nth1 s.load.comps d) ∧ t.load.hoses = s.load.hoses
    ∧ t.load.lastApplied = s.load.lastApplied ∧ t.settings = s.settings ∧ t.route = s.route
    ∧ ∃ p, blockChanged .CMP_LOAD p .load s t

/-- A settings image stored by a command: its write asked for, the other blocks as they were (R155, R160, R166). -/
def settingsTaken (w : CmdWord) (x : Settings) (s t : State) : Prop :=
  t.settings = x ∧ t.load = s.load ∧ t.route = s.route ∧ ∃ p, blockChanged w p .settings s t

/-- A line cut, or one whose settle only records the cause: flowing and stopping are cut, settling takes the cause, any other state is left as it was (R144, R150). -/
def LineCtx.cutOrRecorded (x : CutCause) (before after : LineCtx) : Prop :=
  (before.st = .flowing ∨ before.st = .stopping → before.justCut x after)
    ∧ (before.st = .settling →
        after = { before with cut := if before.cut = some .pulser then some .pulser else some x })
    ∧ (before.st ≠ .flowing → before.st ≠ .stopping → before.st ≠ .settling → after = before)

/-- A line entered PAUSED with a cause: stages closed, every timer stopped but the auto-close timer, loaded anew (R114). -/
def LineCtx.justPaused (minutes : Nat) (x : PauseCause) (c : LineCtx) : Prop :=
  c.st = .paused ∧ c.cause = some x ∧ c.intent = none ∧ c.cut = none ∧ c.cmdLow = false ∧ c.cmdHigh = false
    ∧ c.timers = { Timers.stopped with autoClose := some (minutes * 60000000) }

/-! ## Command rows and their words -/

/-- The command word whose line a command row is (11.3); an event has none. -/
def commandWord : Instr → Option CmdWord
  | .ordNew _ _ _ _ _ _ _ => some .ORD_NEW
  | .ordDrop _ _ _ _ _ _ _ => some .ORD_DROP
  | .ordDropClear _ => some .ORD_DROP
  | .ordGet _ => some .ORD_GET
  | .ordFind _ _ => some .ORD_FIND
  | .ordList _ _ => some .ORD_LIST
  | .ordAmend _ _ => some .ORD_AMEND
  | .ordHold _ => some .ORD_HOLD
  | .ordRelease _ => some .ORD_RELEASE
  | .ordCancel _ => some .ORD_CANCEL
  | .ordRetire _ => some .ORD_RETIRE
  | .tktGet _ => some .TKT_GET
  | .tktIssue _ => some .TKT_ISSUE
  | .lnArm _ _ _ _ => some .LN_ARM
  | .lnDisarm _ => some .LN_DISARM
  | .lnStart _ => some .LN_START
  | .lnNext _ => some .LN_NEXT
  | .lnResume _ => some .LN_RESUME
  | .lnPause _ => some .LN_PAUSE
  | .lnEnddrop _ => some .LN_ENDDROP
  | .lnClose _ => some .LN_CLOSE
  | .lnRunPrime _ _ => some .LN_RUN
  | .lnRunProve _ _ => some .LN_RUN
  | .lnSetup _ => some .LN_SETUP
  | .lnAck _ => some .LN_ACK
  | .lnStat _ => some .LN_STAT
  | .cmpLoad _ _ _ _ => some .CMP_LOAD
  | .cmpGet _ => some .CMP_GET
  | .hoseEmpty _ => some .HOSE_EMPTY
  | .prdPut _ _ => some .PRD_PUT
  | .prdGet _ => some .PRD_GET
  | .setPut _ => some .SET_PUT
  | .setGet _ => some .SET_GET
  | .calPutPr _ _ => some .CAL_PUT
  | .calPutHose _ _ => some .CAL_PUT
  | .calPutSet _ _ _ => some .CAL_PUT
  | .calPutAlpha _ _ => some .CAL_PUT
  | .calPutComp _ _ => some .CAL_PUT
  | .calPutCap _ _ => some .CAL_PUT
  | .calGet _ => some .CAL_GET
  | .rteOpen _ => some .RTE_OPEN
  | .rteClose => some .RTE_CLOSE
  | .rteTotals => some .RTE_TOTALS
  | .clkSet _ => some .CLK_SET
  | .clkGet => some .CLK_GET
  | .status => some .STATUS
  | .ident => some .IDENT
  | .store _ => some .STORE
  | .capClear => some .CAP_CLEAR
  | _ => none

/-- A command answered at once with some segments, whatever else it changed (R191). -/
def answeredNow (w : CmdWord) (segments : List (List Tok)) (s t : State) : Prop :=
  t.cmd = some ⟨w, .ready segments, .on [], true⟩ ∧ t.tx = s.tx ++ okLines w.bytes segments

/-! ## Fields in range (R3, R4, R8, R9, R11) -/

/-- A stop number (1.5). -/
def goodStop (stop : Nat) : Prop := 1 ≤ stop ∧ stop ≤ 9999

/-- An order preset where its kind wants one, in the range of the kind (R3). -/
def goodPreset (k : OrderKind) (p : Option Nat) : Prop :=
  match k with
  | .fill => p = none
  | .volume => ∃ v, p = some v ∧ 1 ≤ v ∧ v ≤ 2000000
  | .amount => ∃ v, p = some v ∧ 100 ≤ v ∧ v ≤ 9999999

/-- A price and a credit limit, where given, in their ranges (R3). -/
def goodTerms (price credit : Option Nat) : Prop :=
  (∀ p, price = some p → 1 ≤ p ∧ p ≤ 99999) ∧ ∀ c, credit = some c → c ≤ 9999999

/-- The fields of ORD.NEW, with a product that is defined (R8). -/
def goodOrder (stop account product : Nat) (kind : OrderKind) (preset price credit : Option Nat) (s : State) : Prop :=
  goodStop stop ∧ (1 ≤ account ∧ account ≤ 9999999999) ∧ (1 ≤ product ∧ product ≤ 6)
    ∧ (s.settings.product product).entry.defined = true ∧ goodPreset kind preset ∧ goodTerms price credit

/-- The fields of ORD.DROP with a drop number (R9). -/
def goodDrop (stop k : Nat) (tank cap preset : Option Nat) (noCap noPreset : Bool) : Prop :=
  goodStop stop ∧ (1 ≤ k ∧ k ≤ 3) ∧ (∀ v, tank = some v → 1 ≤ v ∧ v ≤ 9) ∧ (∀ v, cap = some v → 1 ≤ v ∧ v ≤ 2000000)
    ∧ (∀ v, preset = some v → 1 ≤ v ∧ v ≤ 2000000) ∧ ¬(cap.isSome = true ∧ noCap = true)
    ∧ ¬(preset.isSome = true ∧ noPreset = true)

/-- The fields of ORD.AMEND that need no record: some field, each in its range, none with its removing word (R11). -/
def goodAmend (a : Amend) : Prop :=
  (a.price.isSome = true ∨ a.noPrice = true ∨ a.credit.isSome = true ∨ a.noCredit = true ∨ a.kind.isSome = true
      ∨ a.preset.isSome = true ∨ a.dpreset.isSome = true)
    ∧ ¬(a.price.isSome = true ∧ a.noPrice = true) ∧ ¬(a.credit.isSome = true ∧ a.noCredit = true)
    ∧ goodTerms a.price a.credit ∧ (∀ p, a.preset = some p → 1 ≤ p ∧ p ≤ 9999999)
    ∧ (∀ k p, a.kind = some k → a.preset = some p → goodPreset k (some p))
    ∧ ∀ k p, a.dpreset = some (k, p) → (1 ≤ k ∧ k ≤ 3) ∧ 1 ≤ p ∧ p ≤ 2000000

/-- A bound record's presets as amended, with nothing else of it changed: the order preset where PRESET is given, the named drop's preset where DPRESET is (R11, R12). -/
def presetsAmended (a : Amend) (before after : Record) : Prop :=
  after.preset = (if a.preset.isSome = true then a.preset else before.preset)
    ∧ after.drops.length = before.drops.length
    ∧ (∀ k p, a.dpreset = some (k, p) → ∀ d, nth1 before.drops k = some d →
        nth1 after.drops k = some { d with preset := some p })
    ∧ (∀ j, (∀ p, a.dpreset ≠ some (j, p)) → nth1 after.drops j = nth1 before.drops j)
    ∧ { after with preset := before.preset, drops := before.drops } = before

/-- The record may stand as amended: a preset of its kind, given with a new kind VOLUME or AMOUNT; DPRESET names a drop of the list (R11). -/
def amendFits (a : Amend) (r : Record) : Prop :=
  goodPreset (a.kind.getD r.kind)
      (if a.preset.isSome = true then a.preset else if a.kind = some .fill then none else r.preset)
    ∧ (∀ k, a.kind = some k → k = r.kind ∨ k = .fill ∨ a.preset.isSome = true)
    ∧ ∀ k p, a.dpreset = some (k, p) → (nth1 r.drops k).isSome = true

/-! ## The end of an ORDER run (R17, R18) -/

/-- A record whose run has ended with a close cause. `ended` is the record after the last batch, the drop's end and the reverse deduction: with a total net of 0 it is PLANNED again with one attempt more (R17); else it is TICKETED with the counter plus one as its number (R18; past 99,999,999: log 72) and that net. -/
def runEnded (l : Line) (stop : Nat) (cause : EndCause) (r ended : Record) (s t : State) : Prop :=
  ∃ r', t.recOf stop = some r'
    ∧ (ended.doneNet = 0 → r'.state = .planned ∧ r'.binding = none ∧ r'.attempts = min 255 (r.attempts + 1)
        ∧ (∀ d ∈ r'.drops, d.st = .pending) ∧ t.counter = s.counter)
    ∧ (ended.doneNet ≠ 0 → ∃ k, r'.state = .ticketed ∧ r'.ticket = some k ∧ r'.drops = ended.drops.map Drop.skip
        ∧ k.number = s.counter + 1 ∧ t.counter = s.counter + 1 ∧ k.net = ended.doneNet ∧ k.gross = ended.doneGross
        ∧ k.cause = cause ∧ k.line = l ∧ k.product = r.product)

/-- A ticket line's figures belong to a product (R174): a DROP line's and those of a CHANGEOVER line of MIXED to the ordered product, those of a CHANGEOVER line of product Q to Q. -/
def TicketLine.belongs (ordered p : Nat) (x : TicketLine) : Bool :=
  match x.kind, x.product with
  | .changeover, .product q => q == p
  | _, _ => ordered == p

/-- A figure of a ticket attributed to a product (R174). -/
def Ticket.share (k : Ticket) (p : Nat) (f : TicketLine → Nat) : Nat :=
  sumNat ((k.lines.filter (TicketLine.belongs k.product p)).map f)

/-- A product's totals stand in their ranges (R169). -/
def Totals.inRange (y : Totals) : Prop :=
  y.tickets ≤ 99999999 ∧ y.net ≤ 999999999999 ∧ y.amount ≤ 999999999999 ∧ y.tax ≤ 999999999999
    ∧ y.drawn ≤ 999999999999 ∧ y.primed ≤ 999999999999

/-- A product's totals after a ticket: each figure raised by the product's share of it, within its greatest value (R169, R174). -/
def Totals.after (k : Ticket) (p : Nat) (y : Totals) : Totals :=
  { tickets := min 99999999 (y.tickets + if k.product = p then 1 else 0)
    net := min 999999999999 (y.net + k.share p (·.net))
    amount := min 999999999999 (y.amount + k.share p (·.amount))
    tax := min 999999999999 (y.tax + k.share p (·.tax))
    drawn := min 999999999999 (y.drawn + if k.product = p then k.net else 0)
    primed := y.primed }

/-! ## The flush (R178, R180) -/

/-- A write of the record finds a place: its home may be written in place, or a slot is FREE (R35, R36, R41, R43). -/
def State.findsPlace (s : State) (stop : Nat) : Prop :=
  (s.recOf stop).isSome = true ∧ (s.slots.any Slot.isFree = true
    ∨ ∃ n x, s.homeOf stop = some n ∧ s.slot n = some x ∧ x.isInUse = true ∧ x.due = false ∧ x.relocate = false)

/-- A flush of a kind has begun (R178): every stage, PUMP and outlet off, the link silent, a crediting line's batch taken and its timers stopped, another line as it was; line states, blocks, clock, pump binding and attention items kept. -/
def flushBegun (k : FlushKind) (s t : State) : Prop :=
  t.phase = .flush ⟨k, 0, false, false, false⟩ ∧ t.cmd = none ∧ t.tx = [] ∧ t.outPump = false ∧ (∀ c, t.outOutlet c = false)
    ∧ sameBlocks s t ∧ t.clock = s.clock ∧ t.pump = s.pump ∧ t.attention = s.attention
    ∧ ∀ l, t.outLow l = false ∧ t.outHigh l = false ∧ (t.line l).st = (s.line l).st ∧ (t.line l).bound = (s.line l).bound
        ∧ ((s.line l).st.crediting = true → (t.line l).timers = .stopped ∧ (t.meter l).batchFwd = 0
            ∧ (t.meter l).batchRev = 0)
        ∧ ((s.line l).st.crediting = false → (t.line l).core = (s.line l).core ∧ t.meter l = s.meter l)

/-! ## The restart (R47, R48, R94, R135, R183, R184) -/

/-- Slot `n` holds a good copy, of a sequence number: the majority of its header copies reads IN USE, and its content reads clean or corrected (R47). -/
def goodCopy (reads : List SlotReads) (s : State) (n : Nat) (c : Record) (seq : Nat) : Prop :=
  ∃ x h stop, s.slot n = some x ∧ x.content = some c ∧ (readsOf n reads).content ≠ .uncorrectable
    ∧ Headers.majority ((readsOf n reads).headers.getD x.headers) = some h ∧ h.cond = .inUse stop seq

/-- The copy in slot `n` is the one that becomes the record: no good copy of its stop has a higher sequence number (R48), or, of an equal one, stands in a lower slot (log 51). -/
def newestCopy (reads : List SlotReads) (s : State) (n : Nat) (c : Record) (seq : Nat) : Prop :=
  goodCopy reads s n c seq
    ∧ ∀ m d q, goodCopy reads s m d q → d.stop = c.stop → m ≠ n → q < seq ∨ (q = seq ∧ n < m)

/-- What the scan leaves in the slots and the order table (R47, R48); the count of a copy it passes over is as its header reads (R53). -/
def scanned (reads : List SlotReads) (s t : State) : Prop :=
  (∀ n x, s.slot n = some x → ∃ y, t.slot n = some y
    ∧ ((∀ h, Headers.majority ((readsOf n reads).headers.getD x.headers) = some h → h.cond = .retired) → y.st = .retired)
    ∧ ∀ h, Headers.majority ((readsOf n reads).headers.getD x.headers) = some h →
      (h.cond = .free → y.st = .free)
      ∧ (∀ stop seq, h.cond = .inUse stop seq → (readsOf n reads).content = .uncorrectable →
          ((∀ m d q, goodCopy reads s m d q → d.stop = stop → q ≤ seq) →
              y.st = .inUse (.damaged stop (readsOf n reads).account))
          ∧ ((∃ m d q, goodCopy reads s m d q ∧ d.stop = stop ∧ seq < q) → y.st = .retired)))
  ∧ (∀ n c seq, newestCopy reads s n c seq → t.homeOf c.stop = some n
      ∧ (c.state ≠ .bound → t.recOf c.stop = some c))
  ∧ ∀ n c seq, goodCopy reads s n c seq → ¬ newestCopy reads s n c seq →
      ∃ y, t.slot n = some y ∧ (y.st = .free ∨ y.st = .retired)
        ∧ ∀ x h, s.slot n = some x → Headers.majority ((readsOf n reads).headers.getD x.headers) = some h →
            y.program = h.program

/-- The check word an area holds is that of its block (R50, R155). -/
def Stored.matched {α : Type} (image : α → BlockImage) (c : Stored α) : Prop := c.check = Config.checkWord (image c.block)

/-- The counter recovered at a restart: the greatest of the route block's copy and the load block's last applied number, where they read good, and the ticket numbers of TICKETED and ISSUED records (R184). -/
def recovered (reads : RestartReads) (s t : State) : Prop :=
  let figure (k : Nat) : Prop :=
    (∃ c, reads.route ≠ .bad ∧ s.areaRoute = some c ∧ c.matched .route ∧ k = c.block.counterCopy)
      ∨ (∃ c, reads.load ≠ .bad ∧ s.areaLoad = some c ∧ c.matched .load ∧ k = c.block.lastApplied)
      ∨ ∃ n c seq x, newestCopy reads.slots s n c seq ∧ (c.state = .ticketed ∨ c.state = .issued) ∧ c.ticket = some x
          ∧ k = x.number
  (∀ k, figure k → k ≤ t.counter) ∧ (t.counter = 0 ∨ figure t.counter)

/-- A bound record as a restart leaves it: its marker CHECKPOINT, and RESTORED_CHECKPOINT set where the marker was read so (R94, R114, R118). -/
def Record.asRestored (c : Record) : Record :=
  { c with
    restored := .checkpoint
    flags := { c.flags with restoredCheckpoint := c.flags.restoredCheckpoint || c.restored == .checkpoint } }

/-- A line restored with its record: PAUSED(POWER), or PAUSED(STORE) where its checkpoint write found no slot and left the record unsaved (R94, R119, R183). -/
def restoredLine (l : Line) (c : Record) (s t : State) : Prop :=
  (t.line l).justPaused t.settings.run.autoClose (if c.stop ∈ t.unsaved then .store else .power)
    ∧ (t.line l).kind = some .order ∧ (t.line l).bound = some c.stop ∧ (t.line l).reserved = true
    ∧ (t.line l).latched = some t.settings.latch ∧ t.attention.get l = true
    ∧ (∀ n d, c.active = some (n, d) → (t.line l).limit = some (c.limitOf d
        (c.price.getD (t.settings.latch.entry c.product).price) (t.settings.latch.entry c.product).tax))
    ∧ (c.active = none → (t.line l).limit = none) ∧ t.recOf c.stop = some c.asRestored
    ∧ (asked t (.record c.stop) ∨ c.stop ∈ t.unsaved)
    ∧ (t.meter l) = .restart (s.meter l).levelA (s.meter l).levelB

/-- A line brought up without a record: SETUP where the calibration is lost or the line has no calibration set, else IDLE (R94). -/
def upLine (l : Line) (t : State) : Prop :=
  (t.line l).isAtRest (if t.settings.calLost = true ∨ t.settings.anySet l = false then .setup else .idle)
    ∧ t.attention.get l = false

/-- The compartment of the record read BOUND for a line. -/
def State.boundComp (s : State) (l : Line) : Option Nat := ((s.recordFor l).bind (·.binding)).map (·.comp)

/-- Both lines and the pump after a restart, from the scanned slots `u`: a line with a record read BOUND for it is restored, another is brought up; where the two records name different compartments, line 2's record returns to PLANNED and line 2 is brought up (R94, R135). -/
def linesUp (u s t : State) : Prop :=
  (∀ c, u.recordFor .one = some c → restoredLine .one c s t)
  ∧ (u.recordFor .one = none → upLine .one t)
  ∧ (u.recordFor .two = none → upLine .two t)
  ∧ (∀ c, u.recordFor .two = some c →
      ((u.boundComp .one = none ∨ u.boundComp .one = u.boundComp .two) → restoredLine .two c s t)
      ∧ (u.boundComp .one ≠ none → u.boundComp .one ≠ u.boundComp .two → upLine .two t
          ∧ ∃ r, t.recOf c.stop = some r ∧ r.state = .planned ∧ r.binding = none ∧ r.restored = .none
            ∧ r.attempts = min 255 (c.attempts + 1) ∧ ∀ d ∈ r.drops, d.st = .pending))
  ∧ t.pump = (match u.boundComp .one, u.boundComp .two with
      | none, none => none
      | some c, none => some ⟨c, ⟨true, false⟩⟩
      | none, some d => some ⟨d, ⟨false, true⟩⟩
      | some c, some d => some ⟨c, ⟨true, c == d⟩⟩)
  ∧ t.resetCause.restoredLines
      = (if (u.recordFor .one).isSome then 1 else 0) + (if (u.recordFor .two).isSome then 1 else 0)

/-- What steps 1 to 9 of a restart leave, its last step still to come (log 44; R54, R94, R135, R156, R158, R183, R184, R189). -/
def restarted (cause : RestartCause) (reads : RestartReads) (s t : State) : Prop :=
  t.mode = .run ∧ t.phase = .restart ∧ t.resetCause.cause = cause ∧ t.cmd = none ∧ t.tx = []
    ∧ t.inputs = { s.inputs with powerFail := false } ∧ t.rx = ⟨none, false, 0, none⟩ ∧ t.press = .none
    ∧ t.clock = (if cause = .powerOn then ⟨⟨2000, 1, 1, 0, 0, 0⟩, false⟩ else s.clock)
    ∧ (reads.slots = [] → t.captures = if cause = .powerOn then ⟨none, []⟩ else s.captures)
    ∧ (reads.settings = .bad ∨ (∀ c, s.areaSettings = some c → ¬ c.matched .settings) →
        t.settings = .default ∧ t.failed.settings = true ∧ asked t (.block .settings))
    ∧ (∀ c, reads.settings ≠ .bad → s.areaSettings = some c → c.matched .settings → t.failed.settings = false
        ∧ t.settings = if c.block.session = true ∧ s.inputs.sealOpen = false then c.block.sealClosed else c.block)
    ∧ scanned reads.slots s t ∧ recovered reads s t ∧ linesUp (s.scan reads.slots) s t
    ∧ ∀ l, t.meter l = .restart (s.meter l).levelA (s.meter l).levelB ∧ t.outLow l = false ∧ t.outHigh l = false
    ∧ t.outPump = false ∧ (∀ c, t.outOutlet c = true ↔ ∃ b, t.pump = some b ∧ b.comp = c)
    ∧ (t.attentionSet ≠ [] → t.attnOut = t.settings.attnHigh)

/-! ## Patrol (R40) -/

/-- A slot the patrol reads: IN USE with a record that is not DAMAGED (R40). -/
def State.patrols (s : State) (n : Nat) : Prop := ∃ x r, s.slot n = some x ∧ x.st = .inUse (.record r)

end Sys2Proof.Machine
end

