-- ==== Sys2Proof/Certificates/Slice0/Obligations.lean ====
section
/-! DEFINITION. The statements for the provers, taken from the spec's numbered rules. -/

open Sys2Proof Sys2Proof.Machine

/-! ## The step, the queue of commands, and reset -/

/-- A step takes the command or event at the front and runs it on the rest. -/
def Obligations.StepRunsTheFrontCommand : Prop :=
  ∀ (c : Instr) (rest : List Instr) (s : State), s.pending = c :: rest → step s = exec c { s with pending := rest }

/-- With nothing waiting, one microsecond passes in a working part (the model's choice, log 4): running timers lose one, down to 0, the auto-close timer stands still in SLEEP, and a reload of the deadman timer by a press lies in the past (log 5); times elapsed (an open period, the quiet time, the gap of a line begun, a break, IGNITION low, the store idle) gain one, up to the figure a rule compares them with (that the store's idle time stands still in SLEEP is the model's choice, log 65); nothing else changes. -/
def Obligations.IdleStepPassesOneMicrosecond : Prop :=
  ∀ s : State, s.pending = [] → s.isActive = true → ∃ t, step s = .next t
    ∧ (∀ l, (t.line l).timers.window = (s.line l).timers.window.map (· - 1)
        ∧ (t.line l).timers.settle = (s.line l).timers.settle.map (· - 1)
        ∧ (t.line l).timers.step = (s.line l).timers.step.map (· - 1)
        ∧ (t.line l).timers.noFlow = (s.line l).timers.noFlow.map (· - 1)
        ∧ (t.line l).timers.deadman = (s.line l).timers.deadman.map (· - 1)
        ∧ (t.line l).timers.checkpoint = (s.line l).timers.checkpoint.map (· - 1)
        ∧ (t.line l).timers.autoClose =
            (if s.mode = .sleep then (s.line l).timers.autoClose else (s.line l).timers.autoClose.map (· - 1))
        ∧ { t.line l with timers := (s.line l).timers } = s.line l
        ∧ { t.meter l with period := (s.meter l).period, quiet := (s.meter l).quiet } = s.meter l
        ∧ (t.meter l).quiet = min 1000000 ((s.meter l).quiet + 1)
        ∧ (∀ n, (s.meter l).period = .discard n → (t.meter l).period = .discard (min 16777216 (n + 1)))
        ∧ (∀ n, (s.meter l).period = .measure n → (t.meter l).period = .measure (min 16777216 (n + 1)))
        ∧ ((s.meter l).period = .seekDiscard ∨ (s.meter l).period = .seek → (t.meter l).period = (s.meter l).period))
    ∧ t.press = .none ∧ t.rx.buf = s.rx.buf ∧ t.rx.discard = s.rx.discard
    ∧ t.rx.gap = (if s.rx.buf.isSome = true ∨ s.rx.discard = true then min 500000 (s.rx.gap + 1) else s.rx.gap)
    ∧ t.rx.brk = s.rx.brk.map (fun n => min 1000000 (n + 1))
    ∧ t.ignitionLow =
        (if s.mode = .run ∧ s.inputs.ignition = false then min 60000000 (s.ignitionLow + 1) else s.ignitionLow)
    ∧ t.patrolIdle =
        (if s.mode = .run ∧ s.queue = [] ∧ s.flight = none then min 1000000 (s.patrolIdle + 1) else s.patrolIdle)
    ∧ { t with
        lines := s.lines, meters := s.meters, rx := s.rx, ignitionLow := s.ignitionLow, patrolIdle := s.patrolIdle
        press := s.press } = s

/-- Every command and event answers a next state, and leaves those that wait alone. That every row does is the model's choice (log 38, log 5): what a rule refuses is answered in a reply, and an event that cannot occur changes nothing. -/
def Obligations.EveryRowAnswersNext : Prop :=
  ∀ (i : Instr) (s : State), ∃ t, exec i s = .next t ∧ t.pending = s.pending

/-- What the rules say of the part right after the factory part's first power-on restart: every slot FREE with counts 0, lines in SETUP with both stages closed and every timer stopped, the clock 20000101000000 and invalid, the counter 0, nothing bound (R28, R156, R157, R183, R193, R197; the factory part as start is log 1). -/
def Obligations.ResetState : Prop :=
  State.reset.slots = List.replicate 80 Slot.factory ∧ Slot.factory.program = 0 ∧ Slot.factory.corr = 0
    ∧ State.reset.counter = 0 ∧ State.reset.unsaved = [] ∧ State.reset.captures = ⟨none, []⟩
    ∧ State.reset.clock = ⟨⟨2000, 1, 1, 0, 0, 0⟩, false⟩ ∧ State.reset.mode = .run
    ∧ State.reset.resetCause = ⟨.powerOn, 0, 0, 0⟩ ∧ State.reset.cmd = none ∧ State.reset.pump = none
    ∧ State.reset.settings.calLost = true ∧ State.reset.settings.countLost = true ∧ State.reset.settings.calCount = 0
    ∧ State.reset.attentionSet = [.STORE, .SETTINGS, .CLOCK] ∧ State.reset.pending = []
    ∧ ∀ l, (State.reset.line l).st = .setup ∧ (State.reset.line l).cmdLow = false ∧ (State.reset.line l).cmdHigh = false
        ∧ (State.reset.line l).timers = .stopped ∧ (State.reset.line l).bound = none
        ∧ (State.reset.meter l).rate = 0 ∧ (State.reset.meter l).band = 1 ∧ (State.reset.meter l).latched = false
        ∧ (State.reset.meter l).sample = none ∧ State.reset.outLow l = false ∧ State.reset.outHigh l = false

/-- The laws hold of the state after reset. -/
def Obligations.ResetKeepsTheLaws : Prop :=
  State.reset.slotLaw ∧ State.reset.queueLaw ∧ State.reset.valveLaw ∧ State.reset.anticLaw ∧ State.reset.countLaw
    ∧ State.reset.settled = true

/-! ## Invariants that every step keeps -/

/-- The 80 slots are always FREE, RETIRED or the home of a live record, and no stop has two homes that are not DAMAGED (R8, R27, R30). Of two good copies with equal sequence numbers a restart keeps one (the model's choice, log 51). -/
def Obligations.SlotLawKept : Prop :=
  ∀ s t : State, s.slotLaw → step s = .next t → t.slotLaw

/-- No entry stands twice in the write queue (R32). -/
def Obligations.QueueLawKept : Prop :=
  ∀ s t : State, s.queueLaw → step s = .next t → t.queueLaw

/-- A line's LOW command is open in FLOWING and STOPPING only, its HIGH command in FLOWING only (R96). -/
def Obligations.ValveLawKept : Prop :=
  ∀ s t : State, s.valveLaw → step s = .next t → t.valveLaw

/-- Every anticipation stays within 0 to 2000 cL (R107). -/
def Obligations.AnticipationKept : Prop :=
  ∀ s t : State, s.anticLaw → step s = .next t → t.anticLaw

/-- Every count of a meter line stays in its range (R54). -/
def Obligations.MeterCountsKept : Prop :=
  ∀ s t : State, s.countLaw → step s = .next t → t.countLaw

/-- After every command or event of a part that works or restarts nothing is left to do: no entry waits with nothing in flight, no reply and no attention item is due (R33, R191, R193); the passing of time keeps that. -/
def Obligations.SettledKept : Prop :=
  ∀ s t : State, (s.isUp = true → s.settled = true) → step s = .next t → t.isUp = true → t.settled = true

/-! ## Outputs -/

/-- A line's stages are off with PERMIT deasserted, IGNITION low, POWER-FAIL asserted or outside FLOWING and STOPPING; HIGH is on in FLOWING only; else each stage follows its command (R96). In a working part in RUN, PUMP is on exactly while a line draws with PERMIT and IGNITION good, and the outlet on is the bound compartment's alone (R136). The attention set holds LINE1 and LINE2 while their items are present, STORE while store trouble holds, SETTINGS while the calibration is lost and CLOCK while the clock is invalid, each at most once (R193, R45). ATTN stands at the active level of the stored polarity while a working part's set holds any item, and at the inactive level while it holds none and in a flush and the hold (R167, R194). -/
def Obligations.ValveStagesAndPump : Prop :=
  (∀ (s : State) (l : Line),
    (s.inputs.permit = false ∨ s.inputs.ignition = false ∨ s.inputs.powerFail = true
        ∨ ((s.line l).st ≠ .flowing ∧ (s.line l).st ≠ .stopping) → s.outLow l = false ∧ s.outHigh l = false)
    ∧ (s.outHigh l = true → (s.line l).st = .flowing)
    ∧ (s.isActive = true → s.inputs.permit = true → s.inputs.ignition = true → s.inputs.powerFail = false →
        ((s.line l).st = .flowing → s.outLow l = (s.line l).cmdLow ∧ s.outHigh l = (s.line l).cmdHigh)
        ∧ ((s.line l).st = .stopping → s.outLow l = (s.line l).cmdLow)))
    ∧ ∀ s : State,
      (s.isUp = true → s.inputs.powerFail = false → s.mode = .run → ∀ c, s.outOutlet c = true ↔ ∃ b, s.pump = some b ∧ b.comp = c)
      ∧ (s.isActive = true → s.inputs.powerFail = false → s.mode = .run →
        (s.outPump = true ↔ (∃ l, (s.line l).st = .flowing ∨ (s.line l).st = .stopping)
          ∧ s.inputs.permit = true ∧ s.inputs.ignition = true))
      ∧ (s.inputs.powerFail = true ∨ s.mode = .sleep → s.outPump = false ∧ ∀ c, s.outOutlet c = false)
      ∧ (s.isUp = true → s.attentionSet ≠ [] → s.attnOut = s.settings.attnHigh)
      ∧ (s.isUp = false ∨ s.attentionSet = [] → s.attnOut = !s.settings.attnHigh)
      ∧ s.attentionSet.Nodup ∧ ∀ k, k ∈ s.attentionSet ↔
          (k = .LINE1 ∧ s.attention.one = true) ∨ (k = .LINE2 ∧ s.attention.two = true)
          ∨ (k = .STORE ∧ (s.unsaved ≠ [] ∨ s.failed.settings = true ∨ s.failed.load = true ∨ s.failed.route = true))
          ∨ (k = .SETTINGS ∧ s.settings.calLost = true) ∨ (k = .CLOCK ∧ s.clock.valid = false)

/-! ## Arithmetic -/

/-- total(V) = a + rhu(a × bp / 10,000) with a = rhu(V × price / 1000) never falls as V rises, and total(0) is 0 (R90); Vmax is the largest volume from 0 to 2,000,000 cL whose total is within the cap (R91). -/
def Obligations.VmaxIsTheLargest : Prop :=
  (∀ v price bp, lineTotal v price bp =
      (2 * (v * price) + 1000) / 2000 + (2 * ((2 * (v * price) + 1000) / 2000 * bp) + 10000) / 20000)
    ∧ (∀ v w price bp, v ≤ w → lineTotal v price bp ≤ lineTotal w price bp)
    ∧ (∀ price bp, lineTotal 0 price bp = 0)
    ∧ ∀ price bp cap : Nat, vmax price bp cap ≤ 2000000 ∧ lineTotal (vmax price bp cap) price bp ≤ cap
      ∧ ∀ v, v ≤ 2000000 → lineTotal v price bp ≤ cap → v ≤ vmax price bp cap

/-- VCF = 1,000,000 − q with q = α (T − 1500) / 100 rounded half away from zero; 1,000,000 with compensation off; within 910,000 to 1,110,000 (R81). -/
def Obligations.VcfRule : Prop :=
  (∀ alpha t, vcfOf alpha false t = 1000000)
    ∧ ∀ (alpha : Nat) (t : Int), alpha ≤ 2000 → -4000 ≤ t → t ≤ 6000 → ∃ q : Int,
      (vcfOf alpha true t : Int) = 1000000 - q ∧ -110000 ≤ q ∧ q ≤ 90000
        ∧ (0 ≤ (alpha : Int) * (t - 1500) → 200 * q ≤ 2 * ((alpha : Int) * (t - 1500)) + 100
            ∧ 2 * ((alpha : Int) * (t - 1500)) + 100 < 200 * q + 200)
        ∧ ((alpha : Int) * (t - 1500) < 0 → 200 * (-q) ≤ 2 * (-((alpha : Int) * (t - 1500))) + 100
            ∧ 2 * (-((alpha : Int) * (t - 1500))) + 100 < 200 * (-q) + 200)

/-- The reverse balance: a negative sum adds to it and credits nothing, a zero sum changes nothing, a positive sum pays it off first (R78). No fraction is lost between batches: raised remainder = increment × divisor + new remainder, the new remainder below the divisor (R80, R82). -/
def Obligations.ConversionStages : Prop :=
  (∀ balance fwd rev : Nat, balance ≤ 4294967295 →
    (fwd < rev → settleReverse balance fwd rev = (min 4294967295 (balance + (rev - fwd)), 0))
    ∧ (fwd = rev → settleReverse balance fwd rev = (balance, 0))
    ∧ (rev < fwd → settleReverse balance fwd rev =
        (balance - min (fwd - rev) balance, (fwd - rev) - min (fwd - rev) balance)))
    ∧ (∀ pr mf rem n : Nat, 0 < pr → rem < pr →
      (grossStage pr mf rem n).1 * pr + (grossStage pr mf rem n).2 = rem + n * mf * 10 ∧ (grossStage pr mf rem n).2 < pr)
    ∧ ∀ vcf rem g : Nat,
      (netStage vcf rem g).1 * 1000000 + (netStage vcf rem g).2 = rem + g * vcf ∧ (netStage vcf rem g).2 < 1000000

/-- The new anticipation is the old plus a quarter of (overrun − old), that quarter rounded half away from zero, brought within 0 to 2000 cL (R107). -/
def Obligations.AnticipationLearned : Prop :=
  ∀ (old : Nat) (overrun : Int), ∃ quarter : Int,
    (0 ≤ overrun - old → 8 * quarter ≤ 2 * (overrun - old) + 4 ∧ 2 * (overrun - old) + 4 < 8 * quarter + 8)
    ∧ (overrun - old < 0 → 8 * (-quarter) ≤ 2 * (-(overrun - old)) + 4 ∧ 2 * (-(overrun - old)) + 4 < 8 * (-quarter) + 8)
    ∧ (learned old overrun : Int) = max 0 (min 2000 ((old : Int) + quarter))

/-- The drop limit is the least of the terms present, UNLIMITED where none is (R100). -/
def Obligations.DropLimitIsTheLeastTerm : Prop :=
  ∀ (r : Record) (d : Drop) (price bp : Nat),
    (∀ v, r.limitOf d price bp = .cl v →
      (∀ p, d.preset = some p → v ≤ p) ∧ (∀ c, d.cap = some c → v ≤ c)
      ∧ (∀ p, r.kind = .volume → r.preset = some p → v ≤ (p : Int) - r.doneNet)
      ∧ (∀ cap, r.amountCap = some cap → v ≤ (vmax price bp cap : Int) - r.doneNet)
      ∧ ((∃ p, d.preset = some p ∧ v = p) ∨ (∃ c, d.cap = some c ∧ v = c)
        ∨ (∃ p, r.kind = .volume ∧ r.preset = some p ∧ v = (p : Int) - r.doneNet)
        ∨ ∃ cap, r.amountCap = some cap ∧ v = (vmax price bp cap : Int) - r.doneNet))
    ∧ (r.limitOf d price bp = .unlimited ↔
        d.preset = none ∧ d.cap = none ∧ ¬(r.kind = .volume ∧ r.preset.isSome = true) ∧ r.amountCap = none)

/-- The nets of the ticket lines sum to the ticketed nets of the DONE drops, with and without a changeover; no line has a net of 0 (R6, R86). -/
def Obligations.TicketLinesKeepTheNet : Prop :=
  ∀ (r : Record) (purge : Bool) (hose : Nat) (content : HoseContent) (x : Latched) (price bp : Nat),
    sumNat ((ticketLines r purge hose content x price bp).map (·.net)) = r.doneNet
    ∧ ∀ y ∈ ticketLines r purge hose content x price bp,
        y.net ≠ 0 ∧ y.amount = (2 * (y.net * y.price) + 1000) / 2000

/-- The slot allocated is FREE, of the lowest program count, and of the lowest number among those, one slot left out where the store asks so; and some slot is allocated whenever one is FREE (R31). Leaving a slot out is the model's reading for ORD.NEW beside a write in flight (log 17). -/
def Obligations.LeastWornSlot : Prop :=
  (∀ (s : State) (except : Option Nat) (n : Nat), s.allocate except = some n → except ≠ some n
    ∧ ∃ x, s.slot n = some x ∧ x.isFree = true
    ∧ ∀ m y, s.slot m = some y → y.isFree = true → except ≠ some m →
        x.program ≤ y.program ∧ (y.program = x.program → n ≤ m))
  ∧ ∀ (s : State) (except : Option Nat) (m : Nat) (y : Slot), s.slot m = some y → y.isFree = true → except ≠ some m →
    ∃ n, s.allocate except = some n

/-- A completed period gives floor(2,400,000,000 / (PR × P)); the band is the first whose bound is not below the rate, else the last (R70, R71). -/
def Obligations.RateAndBand : Prop :=
  (∀ pr period, rateOf pr period = 2400000000 / (pr * period))
    ∧ ∀ (x : CalSet) (rate : Nat), 1 ≤ bandOfSet x rate ∧ bandOfSet x rate ≤ x.upper.length + 1
      ∧ (∀ u mf, nth1 x.upper (bandOfSet x rate) = some (u, mf) → rate ≤ u)
      ∧ ∀ b u mf, b < bandOfSet x rate → nth1 x.upper b = some (u, mf) → u < rate

/-! ## Order and ticket commands -/

/-- ORD.NEW taken: one PLANNED record with drop 1, tank 1, PENDING, no cap and no preset, attempts and issues 0, restored none; one FREE slot fewer; its write asked for (R8). The slot is the least worn one other than that of a write in flight (log 17), the reply's words STOP and FREE are the model's (log 14), and its count is taken when the command is taken (log 54). -/
def Obligations.OrdNewCreatesThePlannedRecord : Prop :=
  ∀ (stop account product : Nat) (kind : OrderKind) (preset price credit : Option Nat) (s : State),
    s.hears = true → s.settled = true →
    (1 ≤ stop ∧ stop ≤ 9999) → (1 ≤ account ∧ account ≤ 9999999999) → (1 ≤ product ∧ product ≤ 6) →
    (s.settings.product product).entry.defined = true →
    (kind = .fill → preset = none) → (kind = .volume → ∃ p, preset = some p ∧ 1 ≤ p ∧ p ≤ 2000000) →
    (kind = .amount → ∃ p, preset = some p ∧ 100 ≤ p ∧ p ≤ 9999999) →
    (∀ p, price = some p → 1 ≤ p ∧ p ≤ 99999) → (∀ c, credit = some c → c ≤ 9999999) →
    s.recOf stop = none → 5 ≤ s.countSlots Slot.isFree →
    ∃ t r n, exec (.ordNew stop account product kind preset price credit) s = .next t
      ∧ recordTaken .ORD_NEW
          (.ready [[.kw .STOP, .num stop, .kw .FREE, .num ((s.countSlots Slot.isFree - 1 : Nat) : Int)]]) stop r s t
      ∧ r.stop = stop ∧ r.account = account ∧ r.product = product ∧ r.kind = kind ∧ r.preset = preset ∧ r.price = price
      ∧ r.credit = credit ∧ r.state = .planned ∧ r.drops = [⟨1, none, none, .pending⟩] ∧ r.attempts = 0 ∧ r.issues = 0
      ∧ r.restored = .none ∧ r.binding = none ∧ r.ticket = none
      ∧ s.allocate s.flightTarget = some n ∧ t.homeOf stop = some n
      ∧ t.countSlots Slot.isFree + 1 = s.countSlots Slot.isFree

/-- ORD.DROP taken: drop k's named fields replaced, or a PENDING entry appended (tank k where not given); the other drops unchanged (R9). ORD.DROP CLEAR: the last drop removed (R10). -/
def Obligations.OrdDropShapesTheDropList : Prop :=
  (∀ (stop k : Nat) (tank cap preset : Option Nat) (noCap noPreset : Bool) (r : Record) (s : State),
    s.hears = true → s.settled = true → s.roomy = true → (1 ≤ stop ∧ stop ≤ 9999) → s.recOf stop = some r →
    (r.state = .planned ∨ r.state = .held) → (1 ≤ k ∧ k ≤ 3) → k ≤ r.drops.length + 1 →
    (∀ v, tank = some v → 1 ≤ v ∧ v ≤ 9) → (∀ v, cap = some v → 1 ≤ v ∧ v ≤ 2000000) →
    (∀ v, preset = some v → 1 ≤ v ∧ v ≤ 2000000) → ¬(cap.isSome = true ∧ noCap = true) →
    ¬(preset.isSome = true ∧ noPreset = true) →
    ∃ t r' p, exec (.ordDrop stop k tank cap preset noCap noPreset) s = .next t ∧ recordTaken .ORD_DROP p stop r' s t
      ∧ { r' with drops := r.drops } = r
      ∧ (k = r.drops.length + 1 → r'.drops = r.drops ++ [⟨tank.getD k, cap, preset, .pending⟩])
      ∧ (∀ d, nth1 r.drops k = some d →
          r'.drops.length = r.drops.length
          ∧ nth1 r'.drops k = some ⟨tank.getD d.tank, if noCap then none else cap.or d.cap,
              if noPreset then none else preset.or d.preset, d.st⟩
          ∧ ∀ j, j ≠ k → nth1 r'.drops j = nth1 r.drops j))
  ∧ ∀ (stop : Nat) (r : Record) (s : State),
    s.hears = true → s.settled = true → s.roomy = true → (1 ≤ stop ∧ stop ≤ 9999) → s.recOf stop = some r →
    (r.state = .planned ∨ r.state = .held) → 2 ≤ r.drops.length →
    ∃ t p, exec (.ordDropClear stop) s = .next t
      ∧ recordTaken .ORD_DROP p stop { r with drops := r.drops.take (r.drops.length - 1) } s t

/-- ORD.AMEND of a PLANNED or HELD record: price, credit limit, kind, order preset and one drop preset change together; NOPRICE and NOCREDIT remove, KIND FILL removes the order preset; nothing else changes (R11). -/
def Obligations.OrdAmendChangesTheNamedFields : Prop :=
  ∀ (stop : Nat) (a : Amend) (r : Record) (s : State),
    s.hears = true → s.settled = true → s.roomy = true → (1 ≤ stop ∧ stop ≤ 9999) → s.recOf stop = some r →
    (r.state = .planned ∨ r.state = .held) →
    (a.price.isSome = true ∨ a.noPrice = true ∨ a.credit.isSome = true ∨ a.noCredit = true ∨ a.kind.isSome = true
      ∨ a.preset.isSome = true ∨ a.dpreset.isSome = true) →
    ¬(a.price.isSome = true ∧ a.noPrice = true) → ¬(a.credit.isSome = true ∧ a.noCredit = true) →
    (∀ p, a.price = some p → 1 ≤ p ∧ p ≤ 99999) → (∀ c, a.credit = some c → c ≤ 9999999) →
    (∀ k, a.kind = some k → k = r.kind ∨ k = .fill ∨ a.preset.isSome = true) →
    (∀ k p, a.dpreset = some (k, p) → (nth1 r.drops k).isSome = true ∧ k ≤ 3 ∧ 1 ≤ p ∧ p ≤ 2000000) →
    (let kind := a.kind.getD r.kind
     let preset := if a.preset.isSome = true then a.preset else if a.kind = some .fill then none else r.preset
     (kind = .fill → preset = none) ∧ (kind = .volume → ∃ p, preset = some p ∧ 1 ≤ p ∧ p ≤ 2000000)
       ∧ (kind = .amount → ∃ p, preset = some p ∧ 100 ≤ p ∧ p ≤ 9999999)) →
    ∃ t r' p, exec (.ordAmend stop a) s = .next t ∧ recordTaken .ORD_AMEND p stop r' s t
      ∧ r'.price = (if a.noPrice then none else a.price.or r.price)
      ∧ r'.credit = (if a.noCredit then none else a.credit.or r.credit)
      ∧ r'.kind = a.kind.getD r.kind
      ∧ r'.preset = (if a.preset.isSome = true then a.preset else if a.kind = some .fill then none else r.preset)
      ∧ r'.drops.length = r.drops.length
      ∧ (∀ k p', a.dpreset = some (k, p') → ∀ d, nth1 r.drops k = some d → nth1 r'.drops k = some { d with preset := some p' })
      ∧ (∀ j, (∀ p', a.dpreset ≠ some (j, p')) → nth1 r'.drops j = nth1 r.drops j)
      ∧ { r' with price := r.price, credit := r.credit, kind := r.kind, preset := r.preset, drops := r.drops } = r

/-- ORD.AMEND of a BOUND record (PRESET, or DPRESET of any drop not DONE, or both): taken in ARMED and PAUSED, where no stage moves; refused with TOO_LATE in STOPPING and SETTLING. In FLOWING the ACTIVE drop's limit is computed again from the presets as they now stand: a remaining volume at or below the anticipation begins a limit stop at once; else HIGH's command is set closed at or below the slow-down volume, set open above it once the live net less the slow-start base has reached the slow-start volume (so a HIGH that slow-down had closed opens again), and stays as it was otherwise (R11, R12, R103, R104, R120). That the stop is judged first, with HIGH's command as it stood, is the model's reading (log 67). -/
def Obligations.OrdAmendWhileBound : Prop :=
  ∀ (stop : Nat) (a : Amend) (r : Record) (l : Line) (s : State),
    s.hears = true → s.settled = true → s.roomy = true → (1 ≤ stop ∧ stop ≤ 9999) → s.recOf stop = some r →
    r.state = .bound → (s.line l).bound = some stop → (s.line l.other).bound ≠ some stop →
    a.price = none → a.noPrice = false → a.credit = none → a.noCredit = false → a.kind = none →
    (a.preset.isSome = true ∨ a.dpreset.isSome = true) →
    (∀ k p, a.dpreset = some (k, p) → (1 ≤ p ∧ p ≤ 2000000) ∧ k ≤ 3 ∧ ∃ d, nth1 r.drops k = some d ∧ d.isDone = false) →
    (let preset := if a.preset.isSome = true then a.preset else r.preset
     (r.kind = .fill → preset = none) ∧ (r.kind = .volume → ∃ p, preset = some p ∧ 1 ≤ p ∧ p ≤ 2000000)
       ∧ (r.kind = .amount → ∃ p, preset = some p ∧ 100 ≤ p ∧ p ≤ 9999999)) →
    (((s.line l).st = .armed ∨ (s.line l).st = .paused) →
      ∃ t r' p, exec (.ordAmend stop a) s = .next t ∧ inProgress .ORD_AMEND p t ∧ asked t (.record stop)
        ∧ t.recOf stop = some r' ∧ presetsAmended a r r'
        ∧ sameRecordsBut stop s t ∧ otherThanLine l s t ∧ t.pump = s.pump
        ∧ { (t.line l).core with limit := (s.line l).limit } = (s.line l).core
        ∧ (∀ n d, r'.active = some (n, d) → (s.line l).st = .paused →
            (t.line l).limit = some (r'.limitOf d (s.priceOf l r') (s.rateBp l r'))))
    ∧ (((s.line l).st = .stopping ∨ (s.line l).st = .settling) →
      exec (.ordAmend stop a) s = .next (refusedWith .ORD_AMEND .TOO_LATE s))
    ∧ ((s.line l).st = .flowing → (s.line l).kind = some .order → ∀ n d, r.active = some (n, d) →
      ∃ t r' d' lim p, exec (.ordAmend stop a) s = .next t ∧ inProgress .ORD_AMEND p t ∧ asked t (.record stop)
        ∧ t.recOf stop = some r' ∧ presetsAmended a r r' ∧ r'.active = some (n, d')
        ∧ sameRecordsBut stop s t ∧ otherThanLine l s t ∧ t.pump = s.pump
        ∧ lim = r'.limitOf d' (s.priceOf l r') (s.rateBp l r')
        ∧ ((lim.less r.liveNet).atMost (s.line l).antic = false →
            (t.line l).core = { (s.line l).core with
              limit := some lim
              cmdHigh :=
                if (lim.less r.liveNet).atMost (s.latchedOf l).run.slowDown then false
                else if (s.line l).slowBase + (s.latchedOf l).run.slowStart ≤ r.liveNet then true
                else (s.line l).cmdHigh })
        ∧ ((lim.less r.liveNet).atMost (s.line l).antic = true →
            { s.line l with limit := some lim }.stopBegun (s.latchedOf l).run .limit r.liveNet (!(s.line l).cmdHigh)
              (t.line l)))

/-- ORD.HOLD moves PLANNED to HELD and ORD.RELEASE HELD to PLANNED, keeping every other field; each is refused with STATE in any other state (R13). -/
def Obligations.HoldAndRelease : Prop :=
  ∀ (stop : Nat) (r : Record) (s : State),
    s.hears = true → s.settled = true → s.roomy = true → (1 ≤ stop ∧ stop ≤ 9999) → s.recOf stop = some r →
    (r.state = .planned → ∃ t, exec (.ordHold stop) s = .next t
      ∧ recordTaken .ORD_HOLD (.ready [[.kw .HELD]]) stop { r with state := .held } s t)
    ∧ (r.state ≠ .planned → exec (.ordHold stop) s = .next (refusedWith .ORD_HOLD .STATE s))
    ∧ (r.state = .held → ∃ t, exec (.ordRelease stop) s = .next t
      ∧ recordTaken .ORD_RELEASE (.ready [[.kw .PLANNED]]) stop { r with state := .planned } s t)
    ∧ (r.state ≠ .held → exec (.ordRelease stop) s = .next (refusedWith .ORD_RELEASE .STATE s))

/-- ORD.CANCEL of a PLANNED or HELD record and ORD.RETIRE of an ISSUED one ask for a release of an IN USE home; with a CONDEMNED home the record leaves at once and the slot is RETIRED. By SLOT, ORD.RETIRE of a DAMAGED record asks for the release that retires its slot; of a record not ISSUED it is refused with STATE (R14, R23, R37). -/
def Obligations.CancelAndRetire : Prop :=
  (∀ (i : Instr) (w : CmdWord) (stop n : Nat) (r : Record) (x : Slot) (s : State),
    s.hears = true → s.settled = true → (1 ≤ stop ∧ stop ≤ 9999) → s.recOf stop = some r → s.homeOf stop = some n →
    s.slot n = some x → s.queueLaw → (∀ l, ∀ w ∈ (s.line l).endWaits, Key.record stop ∉ w.keys) →
    ((i = .ordCancel stop ∧ w = .ORD_CANCEL ∧ (r.state = .planned ∨ r.state = .held))
      ∨ (i = .ordRetire (.stop stop) ∧ w = .ORD_RETIRE ∧ r.state = .issued)) →
    (x.isInUse = true → ∃ t p, exec i s = .next t ∧ inProgress w p t ∧ asked t (.release n)
        ∧ Key.record stop ∉ t.queue ∧ t.recOf stop = some r ∧ sameRecordsBut stop s t ∧ sameBlocks s t ∧ sameLines s t
        ∧ sameTruck s t ∧ t.tx = s.tx)
    ∧ (x.isCondemned = true → ∃ t, exec i s = .next t ∧ t.slots = modNth1 s.slots n Slot.retire
        ∧ Key.record stop ∉ t.queue ∧ (∀ m, m ≠ stop → t.recOf m = s.recOf m)
        ∧ t.unsaved = s.unsaved.erase stop ∧ sameBlocks s t ∧ sameLines s t ∧ sameTruck s t
        ∧ t.tx.length = s.tx.length + 1))
  ∧ ∀ (n : Nat) (x : Slot) (s : State), s.hears = true → s.settled = true → (1 ≤ n ∧ n ≤ 80) → s.slot n = some x →
    (∀ stop account, x.st = .inUse (.damaged stop account) → ∃ t p, exec (.ordRetire (.slot n)) s = .next t
      ∧ inProgress .ORD_RETIRE p t ∧ asked t (.release n) ∧ sameRecords s t ∧ sameBlocks s t ∧ sameLines s t ∧ sameTruck s t)
    ∧ (∀ r, x.st = .inUse (.record r) → r.state ≠ .issued →
        exec (.ordRetire (.slot n)) s = .next (refusedWith .ORD_RETIRE .STATE s))
    ∧ (x.isInUse = false → exec (.ordRetire (.slot n)) s = .next (refusedWith .ORD_RETIRE .NOT_FOUND s))

/-- TKT.ISSUE: a TICKETED record becomes ISSUED with count 1; an ISSUED one counts one more, 255 staying 255; no other field changes; refused with STATE otherwise (R20, R22). -/
def Obligations.TktIssueCounts : Prop :=
  ∀ (stop : Nat) (r : Record) (s : State),
    s.hears = true → s.settled = true → s.roomy = true → (1 ≤ stop ∧ stop ≤ 9999) → s.recOf stop = some r →
    (r.state = .ticketed → ∃ t, exec (.tktIssue stop) s = .next t
      ∧ recordTaken .TKT_ISSUE (.ready [[.num 1]]) stop { r with state := .issued, issues := 1 } s t)
    ∧ (r.state = .issued → ∃ t, exec (.tktIssue stop) s = .next t
      ∧ recordTaken .TKT_ISSUE (.ready [[.num ((min 255 (r.issues + 1) : Nat) : Int)]]) stop
          { r with issues := min 255 (r.issues + 1) } s t)
    ∧ (r.state ≠ .ticketed → r.state ≠ .issued → exec (.tktIssue stop) s = .next (refusedWith .TKT_ISSUE .STATE s))

/-! ## The command link's answers -/

/-- The commands that only report change nothing and are answered at once with their report (R21, R24 to R26, R51, R75, R123, R126, R131, R165, R168, R176, R192, R196, R197); item words the spec does not give and the order of items, such as PUMP in CMP.GET, are the model's (log 14, log 37), and so is the count ahead of each line's products in CAL.GET (log 69). LN.STAT's report carries every run accumulator (R75, R76), the remainders and the reverse balance as 0 at rest by the model's choice (log 56). ORD.FIND and ORD.LIST carry at most 40 numbers in ascending order, none twice, then MORE and the first not carried (R25, R26): ORD.FIND the stops of the account's records, ORD.LIST the stops of the records in the state, or for DAMAGED the numbers of their slots, each from FROM on. -/
def Obligations.ReportsChangeNothing : Prop :=
  (∀ s : State, s.hears = true → s.settled = true →
    (∀ stop r n, 1 ≤ stop → stop ≤ 9999 → s.recOf stop = some r → s.homeOf stop = some n →
        exec (.ordGet (.stop stop)) s = .next (answered .ORD_GET [s.recordReport n r] s))
    ∧ (∀ n x stop account, 1 ≤ n → n ≤ 80 → s.slot n = some x → x.st = .inUse (.damaged stop account) →
        exec (.ordGet (.slot n)) s = .next (answered .ORD_GET [damagedReport n stop account] s))
    ∧ (∀ n x r, 1 ≤ n → n ≤ 80 → s.slot n = some x → x.st = .inUse (.record r) →
        exec (.ordGet (.slot n)) s = .next (answered .ORD_GET [s.recordReport n r] s))
    ∧ (∀ account start, 1 ≤ account → account ≤ 9999999999 → (∀ f, start = some f → 1 ≤ f ∧ f ≤ 9999) →
        s.stopsOf account start ≠ [] →
        exec (.ordFind account start) s = .next (answered .ORD_FIND [page (s.stopsOf account start)] s))
    ∧ (∀ st start, (∀ f, start = some f → 1 ≤ f ∧ f ≤ if st = .damaged then 80 else 9999) →
        exec (.ordList st start) s =
          .next (answered .ORD_LIST [.num ((s.inState st start).take 40).length :: page (s.inState st start)] s))
    ∧ (∀ stop r k, 1 ≤ stop → stop ≤ 9999 → s.recOf stop = some r → (r.state = .ticketed ∨ r.state = .issued) →
        r.ticket = some k → exec (.tktGet stop) s = .next (answered .TKT_GET (k.reply r.stop r.account r.issues) s))
    ∧ (∀ l : Line, exec (.lnStat l.num) s = .next (answered .LN_STAT [s.lineReport l] s)
        ∧ item .GROSSREM (s.line l).grossRem ++ item .NETREM (s.line l).netRem ++ item .REVBAL (s.line l).reverse
            ++ optItem .LASTVCF (s.line l).lastVcf ++ optItem .RUNGROSS (s.line l).runGross
            ++ optItem .RUNNET (s.line l).runNet <:+: s.lineReport l)
    ∧ (∀ c, 1 ≤ c → c ≤ 4 →
        exec (.cmpGet (some c)) s = .next (answered .CMP_GET [s.compToks c ++ .kw .PUMP :: s.pumpToks ++ s.hoseToks] s))
    ∧ exec (.cmpGet none) s = .next (answered .CMP_GET
        [s.compToks 1 ++ s.compToks 2 ++ s.compToks 3 ++ s.compToks 4 ++ .kw .PUMP :: s.pumpToks ++ s.hoseToks] s)
    ∧ (∀ p, 1 ≤ p → p ≤ 6 → exec (.prdGet (some p)) s = .next (answered .PRD_GET [s.productToks p] s))
    ∧ exec (.prdGet none) s = .next (answered .PRD_GET [[1, 2, 3, 4, 5, 6].flatMap s.productToks] s)
    ∧ exec (.setGet none) s = .next (answered .SET_GET [s.settingsToks] s)
    ∧ (∀ l : Line, (s.line l).latched = none → exec (.setGet (some l.num)) s = .next (answered .SET_GET [[.kw .NONE]] s))
    ∧ (∀ (l : Line) x, (s.line l).latched = some x → exec (.setGet (some l.num)) s = .next (answered .SET_GET [x.toks] s))
    ∧ exec (.calGet none) s = .next (answered .CAL_GET [s.calToks] s)
    ∧ (∀ (l : Line) p, 1 ≤ p → p ≤ 6 →
        exec (.calGet (some (l.num, p))) s = .next (answered .CAL_GET [setToks (s.settings.calSet l p)] s))
    ∧ exec .rteTotals s = .next (answered .RTE_TOTALS s.totalsReport s)
    ∧ exec .clkGet s = .next (answered .CLK_GET [[.time s.clock.now, .kw (if s.clock.valid then .VALID else .INVALID)]] s)
    ∧ exec .ident s = .next (answered .IDENT [s.identReport] s)
    ∧ exec (.store none) s = .next (answered .STORE [s.storeReport] s)
    ∧ (∀ n x, 1 ≤ n → n ≤ 80 → s.slot n = some x → exec (.store (some n)) s = .next (answered .STORE [x.report n] s)))
  ∧ (∀ xs : List Nat, xs.length ≤ 40 → page xs = xs.map (fun n => Tok.num n))
    ∧ (∀ (xs : List Nat) (y : Nat), xs[40]? = some y →
        page xs = (xs.take 40).map (fun n => Tok.num n) ++ [.kw .MORE, .num y])
    ∧ (∀ (s : State) (account : Nat) (start : Option Nat),
        (s.stopsOf account start).Pairwise (· ≤ ·)
        ∧ ((s.records.map (·.stop)).Nodup → (s.stopsOf account start).Pairwise (· < ·))
        ∧ ∀ n, n ∈ s.stopsOf account start ↔ start.getD 0 ≤ n ∧ ∃ r ∈ s.records, r.account = account ∧ r.stop = n)
    ∧ ∀ (s : State) (st : RecState) (start : Option Nat),
        (s.inState st start).Pairwise (· ≤ ·)
        ∧ ((s.records.map (·.stop)).Nodup → (s.inState st start).Pairwise (· < ·))
        ∧ (st ≠ .damaged → ∀ n, n ∈ s.inState st start ↔ start.getD 0 ≤ n ∧ ∃ r ∈ s.records, r.state = st ∧ r.stop = n)
        ∧ (st = .damaged → ∀ n, n ∈ s.inState st start ↔
            start.getD 0 ≤ n ∧ ∃ x stop account, s.slot n = some x ∧ x.st = .inUse (.damaged stop account))

/-- Whenever a command's judgement is a code, the command is refused with its word and that code: no state but the link's own changes, and no write is queued; and a line of any command word is turned away with BUSY while a command is in progress (R2, R190, R191). The order and ticket commands give RANGE, NOT_FOUND, EXISTS, FULL and STATE where R1, R2, R8 to R14, R20 to R26 say; a line, slot, compartment, product or setting number out of range gives RANGE (R51, R97, R126, R131, R165, R168). Two parts are the model's own: that the RANGE which depends on the record (a drop beyond the list's end, a list of one drop to clear, an amended record that may not stand) comes after NOT_FOUND and before STATE, with ORD.AMEND of a TICKETED or ISSUED record giving STATE first (log 47, DEDUCED); and that FROM ranges from 1 to 9999 in ORD.FIND and ORD.LIST, to 80 in ORD.LIST of DAMAGED (log 16, DESIGN CHOICE). -/
def Obligations.RefusedCommandChangesNothing : Prop :=
  (∀ (i : Instr) (w : CmdWord) (e : Code) (s : State), s.hears = true → s.settled = true → commandWord i = some w →
    judgeCommand i { s with rx := .waiting } = .error e → exec i s = .next (refusedWith w e s))
  ∧ (∀ (i : Instr) (w : CmdWord) (c : InProgress) (s : State), s.linkOpen = true → s.rx.discard = false →
      s.cmd = some c → s.settled = true → commandWord i = some w →
      exec i s = .next { s with rx := .waiting, tx := s.tx ++ [⟨w.bytes, .no .BUSY, [], false⟩] })
  ∧ (∀ (i : Instr) (w : CmdWord) (stop : Nat) (s : State), s.hears = true → s.settled = true → commandWord i = some w →
      i ∈ [.ordHold stop, .ordRelease stop, .ordCancel stop, .ordDropClear stop, .ordGet (.stop stop),
        .ordRetire (.stop stop), .tktGet stop, .tktIssue stop] →
      (¬ goodStop stop → exec i s = .next (refusedWith w .RANGE s))
      ∧ (goodStop stop → s.recOf stop = none → exec i s = .next (refusedWith w .NOT_FOUND s))
      ∧ ∀ r, goodStop stop → s.recOf stop = some r →
        (i = .ordHold stop → r.state ≠ .planned → exec i s = .next (refusedWith w .STATE s))
        ∧ (i = .ordRelease stop → r.state ≠ .held → exec i s = .next (refusedWith w .STATE s))
        ∧ (i = .ordCancel stop → r.state ≠ .planned → r.state ≠ .held → exec i s = .next (refusedWith w .STATE s))
        ∧ (i = .ordDropClear stop → r.drops.length ≤ 1 → exec i s = .next (refusedWith w .RANGE s))
        ∧ (i = .ordDropClear stop → 2 ≤ r.drops.length → r.state ≠ .planned → r.state ≠ .held →
            exec i s = .next (refusedWith w .STATE s))
        ∧ (i = .ordRetire (.stop stop) → r.state ≠ .issued → exec i s = .next (refusedWith w .STATE s))
        ∧ (i = .tktGet stop ∨ i = .tktIssue stop → r.state ≠ .ticketed → r.state ≠ .issued →
            exec i s = .next (refusedWith w .STATE s)))
  ∧ (∀ (stop account product : Nat) (kind : OrderKind) (preset price credit : Option Nat) (s : State),
      s.hears = true → s.settled = true →
      (¬ goodOrder stop account product kind preset price credit s →
        exec (.ordNew stop account product kind preset price credit) s = .next (refusedWith .ORD_NEW .RANGE s))
      ∧ (goodOrder stop account product kind preset price credit s →
        ((s.recOf stop).isSome = true →
          exec (.ordNew stop account product kind preset price credit) s = .next (refusedWith .ORD_NEW .EXISTS s))
        ∧ (s.recOf stop = none → s.countSlots Slot.isFree < 5 →
          exec (.ordNew stop account product kind preset price credit) s = .next (refusedWith .ORD_NEW .FULL s))))
  ∧ (∀ (stop k : Nat) (tank cap preset : Option Nat) (noCap noPreset : Bool) (s : State), s.hears = true → s.settled = true →
      (¬ goodDrop stop k tank cap preset noCap noPreset →
        exec (.ordDrop stop k tank cap preset noCap noPreset) s = .next (refusedWith .ORD_DROP .RANGE s))
      ∧ (goodDrop stop k tank cap preset noCap noPreset →
        (s.recOf stop = none →
          exec (.ordDrop stop k tank cap preset noCap noPreset) s = .next (refusedWith .ORD_DROP .NOT_FOUND s))
        ∧ ∀ r, s.recOf stop = some r →
          (r.drops.length + 1 < k →
            exec (.ordDrop stop k tank cap preset noCap noPreset) s = .next (refusedWith .ORD_DROP .RANGE s))
          ∧ (k ≤ r.drops.length + 1 → r.state ≠ .planned → r.state ≠ .held →
            exec (.ordDrop stop k tank cap preset noCap noPreset) s = .next (refusedWith .ORD_DROP .STATE s))))
  ∧ (∀ (stop : Nat) (a : Amend) (s : State), s.hears = true → s.settled = true →
      (¬ (goodStop stop ∧ goodAmend a) → exec (.ordAmend stop a) s = .next (refusedWith .ORD_AMEND .RANGE s))
      ∧ (goodStop stop → goodAmend a →
        (s.recOf stop = none → exec (.ordAmend stop a) s = .next (refusedWith .ORD_AMEND .NOT_FOUND s))
        ∧ ∀ r, s.recOf stop = some r →
          (r.state = .ticketed ∨ r.state = .issued → exec (.ordAmend stop a) s = .next (refusedWith .ORD_AMEND .STATE s))
          ∧ (r.state = .planned ∨ r.state = .held ∨ r.state = .bound → ¬ amendFits a r →
              exec (.ordAmend stop a) s = .next (refusedWith .ORD_AMEND .RANGE s))
          ∧ (r.state = .bound → amendFits a r →
              (a.price.isSome = true ∨ a.noPrice = true ∨ a.credit.isSome = true ∨ a.noCredit = true ∨ a.kind.isSome = true
                ∨ ∃ k p d, a.dpreset = some (k, p) ∧ nth1 r.drops k = some d ∧ d.isDone = true) →
              exec (.ordAmend stop a) s = .next (refusedWith .ORD_AMEND .STATE s))))
  ∧ (∀ (account : Nat) (start : Option Nat) (st : RecState) (s : State), s.hears = true → s.settled = true →
      ((account = 0 ∨ 9999999999 < account ∨ ∃ f, start = some f ∧ (f = 0 ∨ 9999 < f)) →
        exec (.ordFind account start) s = .next (refusedWith .ORD_FIND .RANGE s))
      ∧ (1 ≤ account → account ≤ 9999999999 → (∀ f, start = some f → 1 ≤ f ∧ f ≤ 9999) →
        (∀ r ∈ s.records, r.account = account → r.stop < start.getD 0) →
        exec (.ordFind account start) s = .next (refusedWith .ORD_FIND .NOT_FOUND s))
      ∧ ((∃ f, start = some f ∧ (f = 0 ∨ (if st = .damaged then 80 else 9999) < f)) →
        exec (.ordList st start) s = .next (refusedWith .ORD_LIST .RANGE s)))
  ∧ ∀ (n p : Nat) (s : State), s.hears = true → s.settled = true →
    (n = 0 ∨ 80 < n → exec (.ordGet (.slot n)) s = .next (refusedWith .ORD_GET .RANGE s)
      ∧ exec (.ordRetire (.slot n)) s = .next (refusedWith .ORD_RETIRE .RANGE s)
      ∧ exec (.store (some n)) s = .next (refusedWith .STORE .RANGE s))
    ∧ (∀ x, 1 ≤ n → n ≤ 80 → s.slot n = some x → x.isInUse = false →
        exec (.ordGet (.slot n)) s = .next (refusedWith .ORD_GET .NOT_FOUND s))
    ∧ (n = 0 ∨ 4 < n → exec (.cmpGet (some n)) s = .next (refusedWith .CMP_GET .RANGE s))
    ∧ (n = 0 ∨ 6 < n → exec (.prdGet (some n)) s = .next (refusedWith .PRD_GET .RANGE s))
    ∧ (n ≠ 1 → n ≠ 2 → exec (.setGet (some n)) s = .next (refusedWith .SET_GET .RANGE s)
      ∧ exec (.calGet (some (n, p))) s = .next (refusedWith .CAL_GET .RANGE s)
      ∧ exec (.hoseEmpty n) s = .next (refusedWith .HOSE_EMPTY .RANGE s)
      ∧ ∀ i w, commandWord i = some w →
        i ∈ [.lnDisarm n, .lnStart n, .lnNext n, .lnResume n, .lnPause n, .lnEnddrop n, .lnClose n, .lnSetup n, .lnAck n,
          .lnStat n] → exec i s = .next (refusedWith w .RANGE s))

/-- STATUS reports and removes LINE1 and LINE2; CLK.SET makes the clock hold the value, valid; CAP.CLEAR reports and empties the capture set; each is answered at once and changes nothing else (R52, R195, R197). -/
def Obligations.StatusClockAndCaptures : Prop :=
  ∀ s : State, s.hears = true → s.settled = true →
    exec .status s = .next (answered .STATUS [s.statusReport] { s with attention := ⟨false, false⟩ })
    ∧ (∀ value, dateValid (dateOfNum value) = true →
        exec (.clkSet value) s = .next (answered .CLK_SET [[.time (dateOfNum value)]] { s with clock := ⟨dateOfNum value, true⟩ }))
    ∧ (∀ value, dateValid (dateOfNum value) = false → exec (.clkSet value) s = .next (refusedWith .CLK_SET .RANGE s))
    ∧ exec .capClear s = .next (answered .CAP_CLEAR [s.captures.toks] { s with captures := ⟨none, []⟩ })

/-! ## Line commands -/

/-- LN.ARM taken: the record BOUND with line, compartment and purge field; the line ARMED with the settings and the anticipation latched; the line in the pump binding; the record's write asked for; nothing else changes (R15, R97, R98, R132, R134, R138). The reply's item words and their order are the model's (log 14, log 37). -/
def Obligations.LnArmBindsTheRecord : Prop :=
  ∀ (l : Line) (stop c : Nat) (comp : Option Nat) (purge yes : Bool) (r : Record) (s : State),
    s.hears = true → s.settled = true → s.roomy = true → (s.line l).st = .idle → s.recOf stop = some r →
    r.state = .planned → s.route.isOpen = true → s.inputs.sealOpen = false → s.storeTrouble = false →
    s.settings.calLost = false → (s.settings.calSet l r.product).isSome = true →
    (s.settings.product r.product).entry.defined = true → (1 ≤ c ∧ c ≤ 4) → (s.load.comp c).product = some r.product →
    (comp = some c ∨ (comp = none ∧ (s.load.comp c).drawn < (s.load.comp c).loaded
      ∧ ∀ d, 1 ≤ d → d < c → (s.load.comp d).product = some r.product → (s.load.comp d).loaded ≤ (s.load.comp d).drawn)) →
    (((s.items l).hose = some 0 ∧ yes = false)
      ∨ ((s.items l).hose ≠ some 0 ∧ s.load.hoses.get l = .product r.product ∧ yes = false)
      ∨ ((s.items l).hose ≠ some 0 ∧ s.load.hoses.get l ≠ .empty ∧ s.load.hoses.get l ≠ .product r.product
          ∧ purge = true ∧ yes = true)) →
    (∀ b, s.pump = some b → b.comp = c) →
    ∃ t, exec (.lnArm l.num stop comp purge) s = .next t
      ∧ t.recOf stop = some { r with state := .bound, binding := some ⟨l, c, yes⟩ }
      ∧ (t.line l).core = { (s.line l).core with
          st := .armed, bound := some stop, antic := (s.items l).antic
          latched := some ⟨s.settings.run, s.settings.products.map (·.entry)⟩ }
      ∧ joined l c s t ∧ asked t (.record stop) ∧ sameRecordsBut stop s t ∧ otherThanLine l s t
      ∧ t.attention = s.attention
      ∧ inProgress .LN_ARM (.ready [[.kw .LINE, .num l.num, .kw .STOP, .num stop, .kw .COMP, .num c, .kw .PURGE,
          .kw (if yes then .YES else .NO)]]) t

/-- LN.DISARM taken in ARMED, or in PAUSED(POWER) with every drop PENDING: the record PLANNED again without binding, attempts unchanged; the line at rest without its reservation, and out of the pump binding (R99, R135). That the phase-error and creep counts stay, also from PAUSED(POWER), that the line enters IDLE also with the calibration lost, and that with a fault latched it enters FAULT and its item is added, is the model's reading of R61, R64, R66 and R99 (log 29). -/
def Obligations.LnDisarmReleasesTheRecord : Prop :=
  ∀ (l : Line) (stop : Nat) (r : Record) (s : State),
    s.hears = true → s.settled = true → s.roomy = true → (s.line l).bound = some stop → s.recOf stop = some r →
    ((s.line l).st = .armed
      ∨ ((s.line l).st = .paused ∧ (s.line l).cause = some .power ∧ ∀ d ∈ r.drops, d.st = .pending)) →
    ∃ t p, exec (.lnDisarm l.num) s = .next t ∧ inProgress .LN_DISARM p t
      ∧ t.recOf stop = some { r with state := .planned, binding := none, restored := .none, flags := .empty }
      ∧ (t.line l).isAtRest (if (s.meter l).latchCreep = true ∨ (s.meter l).latchPulser = true then .fault else .idle)
      ∧ t.attention.get l = ((s.meter l).latchCreep || (s.meter l).latchPulser || s.attention.get l) ∧ left l s t ∧ asked t (.record stop) ∧ sameRecordsBut stop s t ∧ otherThanLine l s t

/-- LN.START taken in ARMED, and in PAUSED(POWER) with every drop PENDING: the record takes its price, drop 1 ACTIVE with accumulators at 0, the marker CHECKPOINT and its write asked for; the run ORDER with its accumulators and the meter line's run figures at 0; the line FLOWING on LOW, with its reservation (R4, R15, R19, R101, R118). That a record which holds its reservation from a restart starts whatever the counter stands at is the model's choice (log 72). The deadman timer it loads carries no mark of a press (the model's, log 5). -/
def Obligations.LnStartBeginsTheRun : Prop :=
  ∀ (l : Line) (stop : Nat) (r : Record) (d : Drop) (ds : List Drop) (x : Latched) (s : State),
    s.hears = true → s.settled = true → s.roomy = true →
    ((s.line l).st = .armed ∨ ((s.line l).st = .paused ∧ (s.line l).cause = some .power)) → (s.line l).bound = some stop →
    s.recOf stop = some r → stop ∉ s.unsaved → r.drops = d :: ds → (∀ e ∈ r.drops, e.st = .pending) →
    (s.line l).latched = some x → s.inputs.permit = true → s.inputs.ignition = true → s.inputs.air.get l = false →
    s.settings.calLost = false →
    (∀ v, r.limitOf d (r.price.getD (x.entry r.product).price) (x.entry r.product).tax = .cl v → 0 < v) →
    ((s.line l).reserved = true ∨ s.counter + s.reservations < 99999999) →
    ∃ t p r', exec (.lnStart l.num) s = .next t ∧ inProgress .LN_START p t ∧ t.recOf stop = some r'
      ∧ r' = { r with
          price := some (r.price.getD (x.entry r.product).price), drops := { d with st := .active ⟨0, 0, 0⟩ } :: ds
          restored := .checkpoint, flags := .empty }
      ∧ (t.line l).justFlowing x.run 0 ∧ t.press.lines.get l = false ∧ (t.line l).kind = some .order ∧ (t.line l).bound = some stop
      ∧ (t.line l).limit = some (r.limitOf d (r.price.getD (x.entry r.product).price) (x.entry r.product).tax)
      ∧ (t.line l).reserved = true ∧ (t.line l).latched = some x ∧ (t.line l).grossRem = 0 ∧ (t.line l).netRem = 0
      ∧ (t.line l).reverse = 0 ∧ (t.line l).lastVcf = none ∧ (t.meter l).justFlowing ∧ (t.meter l).fwdTotal = 0
      ∧ (t.meter l).revTotal = 0 ∧ (t.meter l).phaseErrors = 0 ∧ (t.meter l).creep = 0
      ∧ asked t (.record stop) ∧ sameRecordsBut stop s t ∧ sameBlocks s t ∧ otherLineAndTruck l s t ∧ t.pump = s.pump

/-- LN.NEXT taken between drops: the first PENDING drop ACTIVE with accumulators at 0, its limit computed; the line FLOWING on LOW with a slow-start base of 0, the run accumulators carried on, its write asked for (R109). That on a line restored with every drop PENDING it begins no run and gives the record no price is the model's choice (log 73). LN.RESUME: the line FLOWING on LOW with the live net as its base; nothing is written, the reply sent at once (R115). The deadman timer it loads carries no mark of a press (the model's, log 5). -/
def Obligations.LnNextAndResume : Prop :=
  (∀ (l : Line) (stop n : Nat) (r : Record) (d : Drop) (x : Latched) (s : State),
    s.hears = true → s.settled = true → s.roomy = true → (s.line l).st = .paused → (s.line l).kind = some .order →
    (s.line l).bound = some stop → s.recOf stop = some r → stop ∉ s.unsaved → (s.line l).cause ≠ some .pulser →
    (s.line l).cause ≠ some .store → r.active = none → r.firstPending = some (n, d) → (s.line l).latched = some x →
    s.inputs.permit = true → s.inputs.ignition = true → s.inputs.air.get l = false → s.settings.calLost = false →
    (∀ v, r.limitOf d (r.price.getD (x.entry r.product).price) (x.entry r.product).tax = .cl v → 0 < v) →
    ∃ t p r', exec (.lnNext l.num) s = .next t ∧ inProgress .LN_NEXT p t ∧ t.recOf stop = some r'
      ∧ nth1 r'.drops n = some { d with st := .active ⟨0, 0, 0⟩ } ∧ (∀ j, j ≠ n → nth1 r'.drops j = nth1 r.drops j)
      ∧ { r' with drops := r.drops } = r
      ∧ (t.line l).justFlowing x.run 0 ∧ t.press.lines.get l = false ∧ (t.line l).bound = some stop
      ∧ (t.line l).limit = some (r.limitOf d (r.price.getD (x.entry r.product).price) (x.entry r.product).tax)
      ∧ (t.line l).grossRem = (s.line l).grossRem ∧ (t.line l).netRem = (s.line l).netRem
      ∧ (t.line l).reverse = (s.line l).reverse ∧ (t.line l).lastVcf = (s.line l).lastVcf
      ∧ (t.meter l).justFlowing ∧ asked t (.record stop) ∧ sameRecordsBut stop s t ∧ sameBlocks s t
      ∧ otherLineAndTruck l s t ∧ t.pump = s.pump)
  ∧ ∀ (l : Line) (s : State), s.hears = true → s.settled = true → (s.line l).st = .paused →
    (s.line l).cause ≠ some .pulser → (s.line l).cause ≠ some .store → s.boundIsUnsaved l = false →
    (((s.line l).kind = some .order ∧ ∃ r, s.boundRec l = some r ∧ r.active.isSome = true)
      ∨ (s.line l).kind = some .prime ∨ (s.line l).kind = some .prove) →
    s.inputs.permit = true → s.inputs.ignition = true → s.inputs.air.get l = false → s.settings.calLost = false →
    (∀ v, s.remaining l = .cl v → 0 < v) →
    ∃ t, exec (.lnResume l.num) s = .next t ∧ (t.line l).justFlowing (s.latchedOf l).run (s.liveNet l) ∧ t.press.lines.get l = false
      ∧ (t.line l).limit = (s.line l).limit ∧ (t.line l).kind = (s.line l).kind ∧ (t.line l).bound = (s.line l).bound
      ∧ (t.meter l).justFlowing ∧ t.queue = s.queue ∧ t.flight = s.flight ∧ t.slots = s.slots ∧ sameBlocks s t
      ∧ otherLineAndTruck l s t ∧ t.pump = s.pump ∧ t.tx ≠ s.tx

/-- Refusals of the line commands, with their codes. PERMIT deasserted or IGNITION low refuses LN.START, LN.NEXT and LN.RESUME with INTERLOCK; with both good the line's air sensor asserted refuses them with STATE, a lost calibration with NO_CAL, and no remaining volume with LIMIT_ZERO; LN.START without a ticket number to reserve gives TICKETS_EXHAUSTED (R19, R101, R109, R115, R144, R150). A PULSER or STORE pause refuses LN.NEXT, LN.RESUME and LN.ENDDROP with FAULT (R109, R110, R115), before a STATE of LN.ENDDROP (log 32). LN.ARM refuses with RANGE, STATE, NOT_FOUND, STATE, NO_ROUTE, SEAL_OPEN, STORE_FAIL, NO_CAL, NO_PRODUCT, HOSE_EMPTY or HOSE_MISMATCH, and PUMP_BUSY, in this order (R97, R132, R134, R138); a stop that no record carries is NOT_FOUND there, also one outside 1 to 9999 (log 16). LN.RUN PRIME refuses with RANGE (so does LN.RUN PROVE), STATE, NO_ROUTE, SEAL_OPEN, INTERLOCK, STATE, NO_PRODUCT, NO_CAL, HOSE_MISMATCH, LIMIT_ZERO and PUMP_BUSY, in this order (R121, R122). Nothing changes. -/
def Obligations.LineCommandsRefused : Prop :=
  (∀ (l : Line) (stop : Nat) (r : Record) (s : State), s.hears = true → s.settled = true → (s.line l).bound = some stop →
    s.recOf stop = some r → stop ∉ s.unsaved →
    ((s.line l).st = .paused → (s.line l).cause = some .pulser ∨ (s.line l).cause = some .store →
      exec (.lnResume l.num) s = .next (refusedWith .LN_RESUME .FAULT s)
      ∧ exec (.lnNext l.num) s = .next (refusedWith .LN_NEXT .FAULT s)
      ∧ exec (.lnEnddrop l.num) s = .next (refusedWith .LN_ENDDROP .FAULT s))
    ∧ (s.inputs.permit = false ∨ s.inputs.ignition = false →
      ((s.line l).st = .armed → r.firstPending.isSome = true →
        exec (.lnStart l.num) s = .next (refusedWith .LN_START .INTERLOCK s))
      ∧ ((s.line l).st = .paused → (s.line l).kind = some .order → (s.line l).cause ≠ some .pulser →
          (s.line l).cause ≠ some .store →
        (r.active.isSome = true → exec (.lnResume l.num) s = .next (refusedWith .LN_RESUME .INTERLOCK s))
        ∧ (r.active = none → r.firstPending.isSome = true →
            exec (.lnNext l.num) s = .next (refusedWith .LN_NEXT .INTERLOCK s))))
    ∧ (s.inputs.permit = true → s.inputs.ignition = true → s.inputs.air.get l = true →
      ((s.line l).st = .armed → r.firstPending.isSome = true →
        exec (.lnStart l.num) s = .next (refusedWith .LN_START .STATE s))
      ∧ ((s.line l).st = .paused → (s.line l).kind = some .order → (s.line l).cause ≠ some .pulser →
          (s.line l).cause ≠ some .store →
        (r.active.isSome = true → exec (.lnResume l.num) s = .next (refusedWith .LN_RESUME .STATE s))
        ∧ (r.active = none → r.firstPending.isSome = true →
            exec (.lnNext l.num) s = .next (refusedWith .LN_NEXT .STATE s)))))
  ∧ (∀ (l : Line) (stop : Nat) (r : Record) (x : Latched) (s : State), s.hears = true → s.settled = true →
      (s.line l).bound = some stop → s.recOf stop = some r → stop ∉ s.unsaved → s.inputs.permit = true →
      s.inputs.ignition = true → s.inputs.air.get l = false → (s.line l).latched = some x →
      ((s.line l).st = .armed → ∀ n d, r.firstPending = some (n, d) →
        (s.settings.calLost = true → exec (.lnStart l.num) s = .next (refusedWith .LN_START .NO_CAL s))
        ∧ (s.settings.calLost = false →
          (∀ v, r.limitOf d (r.price.getD (x.entry r.product).price) (x.entry r.product).tax = .cl v → v ≤ 0 →
            exec (.lnStart l.num) s = .next (refusedWith .LN_START .LIMIT_ZERO s))
          ∧ ((∀ v, r.limitOf d (r.price.getD (x.entry r.product).price) (x.entry r.product).tax = .cl v → 0 < v) →
            (s.line l).reserved = false → 99999999 ≤ s.counter + s.reservations →
            exec (.lnStart l.num) s = .next (refusedWith .LN_START .TICKETS_EXHAUSTED s))))
      ∧ ((s.line l).st = .paused → (s.line l).kind = some .order → (s.line l).cause ≠ some .pulser →
          (s.line l).cause ≠ some .store →
        (r.active.isSome = true →
          (s.settings.calLost = true → exec (.lnResume l.num) s = .next (refusedWith .LN_RESUME .NO_CAL s))
          ∧ (s.settings.calLost = false → ∀ v, (s.line l).limit = some (.cl v) → v ≤ r.liveNet →
              exec (.lnResume l.num) s = .next (refusedWith .LN_RESUME .LIMIT_ZERO s)))
        ∧ (r.active = none → ∀ n d, r.firstPending = some (n, d) →
          (s.settings.calLost = true → exec (.lnNext l.num) s = .next (refusedWith .LN_NEXT .NO_CAL s))
          ∧ (s.settings.calLost = false → ∀ v,
              r.limitOf d (r.price.getD (x.entry r.product).price) (x.entry r.product).tax = .cl v → v ≤ 0 →
              exec (.lnNext l.num) s = .next (refusedWith .LN_NEXT .LIMIT_ZERO s)))))
  ∧ (∀ (l : Line) (stop c : Nat) (comp : Option Nat) (purge : Bool) (r : Record) (s : State), s.hears = true →
      s.settled = true → (s.line l).st = .idle → s.recOf stop = some r → r.state = .planned → s.route.isOpen = true →
      s.inputs.sealOpen = false → s.storeTrouble = false → s.settings.calLost = false →
      (comp = none ∨ ∃ d, comp = some d ∧ 1 ≤ d ∧ d ≤ 4) →
      (s.settings.calSet l r.product = none →
        exec (.lnArm l.num stop comp purge) s = .next (refusedWith .LN_ARM .NO_CAL s))
      ∧ ((s.settings.calSet l r.product).isSome = true →
        (((s.settings.product r.product).entry.defined = false ∨ (∃ d, comp = some d ∧ (s.load.comp d).product ≠ some r.product)
            ∨ (comp = none ∧ ∀ d, 1 ≤ d → d ≤ 4 → (s.load.comp d).product = some r.product →
                (s.load.comp d).loaded ≤ (s.load.comp d).drawn)) →
          exec (.lnArm l.num stop comp purge) s = .next (refusedWith .LN_ARM .NO_PRODUCT s))
        ∧ ((s.settings.product r.product).entry.defined = true → comp = some c → (s.load.comp c).product = some r.product →
          ((s.items l).hose ≠ some 0 → s.load.hoses.get l = .empty →
            exec (.lnArm l.num stop comp purge) s = .next (refusedWith .LN_ARM .HOSE_EMPTY s))
          ∧ ((s.items l).hose ≠ some 0 → s.load.hoses.get l ≠ .empty → s.load.hoses.get l ≠ .product r.product →
            purge = false → exec (.lnArm l.num stop comp purge) s = .next (refusedWith .LN_ARM .HOSE_MISMATCH s))
          ∧ (((s.items l).hose = some 0 ∨ s.load.hoses.get l = .product r.product
              ∨ (s.load.hoses.get l ≠ .empty ∧ purge = true)) → (∃ b, s.pump = some b ∧ b.comp ≠ c) →
            exec (.lnArm l.num stop comp purge) s = .next (refusedWith .LN_ARM .PUMP_BUSY s)))))
  ∧ (∀ (l : Line) (c : Nat) (s : State), s.hears = true → s.settled = true → (1 ≤ c ∧ c ≤ 4) →
      ((s.line l).st ≠ .idle → exec (.lnRunPrime l.num (some c)) s = .next (refusedWith .LN_RUN .STATE s))
      ∧ ((s.line l).st = .idle →
        (s.route.isOpen = false → exec (.lnRunPrime l.num (some c)) s = .next (refusedWith .LN_RUN .NO_ROUTE s))
        ∧ (s.route.isOpen = true → s.inputs.sealOpen = true →
          exec (.lnRunPrime l.num (some c)) s = .next (refusedWith .LN_RUN .SEAL_OPEN s))
        ∧ (s.route.isOpen = true → s.inputs.sealOpen = false →
          (s.inputs.permit = false ∨ s.inputs.ignition = false →
            exec (.lnRunPrime l.num (some c)) s = .next (refusedWith .LN_RUN .INTERLOCK s))
          ∧ (s.inputs.permit = true → s.inputs.ignition = true →
            (s.inputs.air.get l = true → exec (.lnRunPrime l.num (some c)) s = .next (refusedWith .LN_RUN .STATE s))
            ∧ (s.inputs.air.get l = false →
              ((s.load.comp c).product = none →
                exec (.lnRunPrime l.num (some c)) s = .next (refusedWith .LN_RUN .NO_PRODUCT s))
              ∧ ∀ p, (s.load.comp c).product = some p →
                (s.settings.calLost = true ∨ s.settings.calSet l p = none →
                  exec (.lnRunPrime l.num (some c)) s = .next (refusedWith .LN_RUN .NO_CAL s))
                ∧ (s.settings.calLost = false → (s.settings.calSet l p).isSome = true →
                  (s.load.hoses.get l ≠ .empty →
                    exec (.lnRunPrime l.num (some c)) s = .next (refusedWith .LN_RUN .HOSE_MISMATCH s))
                  ∧ (s.load.hoses.get l = .empty → (s.items l).hose = some 0 →
                    exec (.lnRunPrime l.num (some c)) s = .next (refusedWith .LN_RUN .LIMIT_ZERO s))
                  ∧ (∀ h, s.load.hoses.get l = .empty → (s.items l).hose = some h → 0 < h →
                    (∃ b, s.pump = some b ∧ b.comp ≠ c) →
                    exec (.lnRunPrime l.num (some c)) s = .next (refusedWith .LN_RUN .PUMP_BUSY s))))))))
  ∧ ∀ (l : Line) (stop : Nat) (comp : Option Nat) (purge : Bool) (r : Record) (s : State), s.hears = true → s.settled = true →
    (∀ n, n ≠ 1 → n ≠ 2 → exec (.lnArm n stop comp purge) s = .next (refusedWith .LN_ARM .RANGE s))
    ∧ (∀ d, comp = some d → d = 0 ∨ 4 < d → exec (.lnArm l.num stop comp purge) s = .next (refusedWith .LN_ARM .RANGE s))
    ∧ (comp = none ∨ (∃ d, comp = some d ∧ (d = 0 ∨ 4 < d)) →
      exec (.lnRunPrime l.num comp) s = .next (refusedWith .LN_RUN .RANGE s)
      ∧ exec (.lnRunProve l.num comp) s = .next (refusedWith .LN_RUN .RANGE s))
    ∧ ((comp = none ∨ ∃ d, comp = some d ∧ 1 ≤ d ∧ d ≤ 4) →
      ((s.line l).st ≠ .idle → exec (.lnArm l.num stop comp purge) s = .next (refusedWith .LN_ARM .STATE s))
      ∧ ((s.line l).st = .idle → s.recOf stop = none →
          exec (.lnArm l.num stop comp purge) s = .next (refusedWith .LN_ARM .NOT_FOUND s))
      ∧ ((s.line l).st = .idle → s.recOf stop = some r →
          (r.state ≠ .planned → exec (.lnArm l.num stop comp purge) s = .next (refusedWith .LN_ARM .STATE s))
          ∧ (r.state = .planned →
            (s.route.isOpen = false → exec (.lnArm l.num stop comp purge) s = .next (refusedWith .LN_ARM .NO_ROUTE s))
            ∧ (s.route.isOpen = true →
              (s.inputs.sealOpen = true → exec (.lnArm l.num stop comp purge) s = .next (refusedWith .LN_ARM .SEAL_OPEN s))
              ∧ (s.inputs.sealOpen = false →
                (s.storeTrouble = true → exec (.lnArm l.num stop comp purge) s = .next (refusedWith .LN_ARM .STORE_FAIL s))
                ∧ (s.storeTrouble = false → s.settings.calLost = true →
                  exec (.lnArm l.num stop comp purge) s = .next (refusedWith .LN_ARM .NO_CAL s)))))))

/-- LN.PAUSE, LN.ENDDROP and LN.CLOSE in FLOWING begin a stop with their intent; the first two are answered at once, LN.CLOSE waits for the end of the run (R104, R110, R111, R113). In STOPPING and SETTLING LN.CLOSE makes the stop's intent CLOSE, whatever it was, and waits (R111), LN.ENDDROP is refused with TOO_LATE (R110), and LN.PAUSE with STATE (R113). -/
def Obligations.CommandsBeginAStop : Prop :=
  (∀ (l : Line) (s : State), s.hears = true → s.settled = true → (s.line l).st = .flowing → s.boundIsUnsaved l = false →
    (∃ t, exec (.lnPause l.num) s = .next t ∧ (s.line l).stopBegun (s.latchedOf l).run .pause (s.liveNet l) false (t.line l)
        ∧ t.slots = s.slots ∧ t.queue = s.queue ∧ t.pump = s.pump ∧ sameLine s t l.other ∧ sameBlocks s t ∧ sameTruck s t
        ∧ t.tx ≠ s.tx)
    ∧ (∃ t, exec (.lnEnddrop l.num) s = .next t ∧ (s.line l).stopBegun (s.latchedOf l).run .enddrop (s.liveNet l) false (t.line l)
        ∧ t.slots = s.slots ∧ t.queue = s.queue ∧ t.pump = s.pump ∧ sameLine s t l.other ∧ sameBlocks s t ∧ sameTruck s t
        ∧ t.tx ≠ s.tx)
    ∧ (∃ t, exec (.lnClose l.num) s = .next t ∧ (s.line l).stopBegun (s.latchedOf l).run .close (s.liveNet l) false (t.line l)
        ∧ inProgress .LN_CLOSE (.awaitEnd l) t ∧ t.slots = s.slots ∧ t.queue = s.queue ∧ t.pump = s.pump
        ∧ sameLine s t l.other ∧ sameBlocks s t ∧ sameTruck s t ∧ t.tx = s.tx))
  ∧ ∀ (l : Line) (s : State), s.hears = true → s.settled = true → ((s.line l).st = .stopping ∨ (s.line l).st = .settling) →
    s.boundIsUnsaved l = false →
    (∃ t, exec (.lnClose l.num) s = .next t ∧ t.line l = { s.line l with intent := some .close }
        ∧ inProgress .LN_CLOSE (.awaitEnd l) t ∧ { t with lines := s.lines, cmd := s.cmd, rx := s.rx } = s
        ∧ t.line l.other = s.line l.other)
    ∧ exec (.lnEnddrop l.num) s = .next (refusedWith .LN_ENDDROP .TOO_LATE s)
    ∧ exec (.lnPause l.num) s = .next (refusedWith .LN_PAUSE .STATE s)

/-- LN.ENDDROP in PAUSED on a drop that is not the last: the ACTIVE drop DONE with end cause DRIVER and its volumes floored; the line PAUSED(DROP_END) with the auto-close timer loaded anew; its item set; the checkpoint write asked for (R108, R110, R114, R118). On the last drop it closes the run as LN.CLOSE does there, with the same outcome in its reply (R110, R111; a ticket number past 99,999,999 is the model's choice, log 72). -/
def Obligations.LnEnddropInPause : Prop :=
  (∀ (l : Line) (stop n : Nat) (r : Record) (d : Drop) (a : Acc) (s : State),
    s.hears = true → s.settled = true → s.roomy = true → (s.line l).st = .paused → (s.line l).kind = some .order →
    (s.line l).bound = some stop → s.recOf stop = some r → stop ∉ s.unsaved → (s.line l).cause ≠ some .pulser →
    (s.line l).cause ≠ some .store → r.active = some (n, d) → d.st = .active a → n < r.drops.length →
    (∀ j e, nth1 r.drops j = some e → e.isActive = true → j = n) →
    ∃ t p r', exec (.lnEnddrop l.num) s = .next t ∧ inProgress .LN_ENDDROP p t ∧ t.recOf stop = some r'
      ∧ nth1 r'.drops n = some { d with st := .done a (a.gross / 10000) (a.net / 10000) .driver }
      ∧ (∀ j, j ≠ n → nth1 r'.drops j = nth1 r.drops j) ∧ r'.restored = .checkpoint
      ∧ { r' with drops := r.drops, restored := r.restored } = r
      ∧ (t.line l).st = .paused ∧ (t.line l).cause = some .dropEnd ∧ (t.line l).limit = none
      ∧ (t.line l).timers = { Timers.stopped with autoClose := some ((s.latchedOf l).run.autoClose * 60000000) }
      ∧ t.attention.get l = true ∧ asked t (.record stop) ∧ sameRecordsBut stop s t ∧ sameBlocks s t ∧ sameTruck s t
      ∧ sameLine s t l.other ∧ t.pump = s.pump)
  ∧ ∀ (l : Line) (stop n : Nat) (r : Record) (d : Drop) (s : State),
    s.hears = true → s.settled = true → s.roomy = true → (s.line l).st = .paused → (s.line l).kind = some .order →
    (s.line l).bound = some stop → s.recOf stop = some r → stop ∉ s.unsaved → (s.line l).cause ≠ some .pulser →
    (s.line l).cause ≠ some .store → r.active = some (n, d) → n = r.drops.length →
    ∃ t u p, exec (.lnEnddrop l.num) s = .next t ∧ exec (.lnClose l.num) s = .next u ∧ inProgress .LN_ENDDROP p t
      ∧ inProgress .LN_CLOSE p u ∧ { t with cmd := u.cmd } = u

/-- LN.CLOSE in PAUSED of an ORDER run without reverse balance: with a total net above 0 the record is TICKETED with the counter plus one, the load and route blocks apply the ticket, and record, load block and route block are asked for; each product's totals rise by its share of the ticket's net, amount and tax, the ordered product's tickets by 1 and its drawn by the ticket's net; the hose holds the product where no purge was asked or the net is at least the hose volume, else MIXED. With a total net of 0 it returns to PLANNED with one attempt more. Either way the line comes to rest and leaves the pump binding (R17, R18, R111, R112, R135, R139, R172 to R174). That the number is the counter plus one past 99,999,999 too is the model's choice (log 72). -/
def Obligations.LnCloseEndsTheRun : Prop :=
  ∀ (l : Line) (stop : Nat) (b : Binding) (r r1 : Record) (s : State),
    s.hears = true → s.settled = true → s.roomy = true → (s.line l).st = .paused → (s.line l).kind = some .order →
    (s.line l).bound = some stop → s.recOf stop = some r → stop ∉ s.unsaved → (s.line l).reverse = 0 →
    r.binding = some b → r1 = { r with drops := r.drops.map (Drop.finish .driver) } →
    s.load.lastApplied ≤ s.counter → s.route.lastApplied ≤ s.counter →
    ∃ t p, exec (.lnClose l.num) s = .next t ∧ inProgress .LN_CLOSE p t ∧ left l s t
      ∧ (∃ st, (t.line l).isAtRest st
          ∧ st = if (s.meter l).latched then .fault else if s.settings.calLost then .setup else .idle)
      ∧ asked t (.record stop) ∧ sameRecordsBut stop s t ∧ t.settings = s.settings ∧ sameLine s t l.other
      ∧ (r1.doneNet = 0 → t.counter = s.counter ∧ t.load = s.load ∧ t.route = s.route ∧ t.recOf stop = some
          { r with
            state := .planned, binding := none, restored := .none, flags := .empty, attempts := min 255 (r.attempts + 1)
            drops := r.drops.map (fun d => { d with st := .pending }) })
      ∧ (r1.doneNet ≠ 0 → ∃ r' k, t.recOf stop = some r' ∧ r'.state = .ticketed ∧ r'.restored = .none
          ∧ r'.ticket = some k ∧ r'.drops = r1.drops.map Drop.skip ∧ k.number = s.counter + 1 ∧ t.counter = s.counter + 1
          ∧ k.net = r1.doneNet ∧ k.gross = r1.doneGross ∧ k.total = k.amount + k.tax
          ∧ k.amount = sumNat (k.lines.map (·.amount)) ∧ k.tax = sumNat (k.lines.map (·.tax))
          ∧ k.cause = .driver ∧ k.line = l ∧ k.comp = b.comp ∧ k.product = r.product ∧ k.calCount = s.settings.calCount
          ∧ (k.flags.timeUnknown = true ↔ (r.flags.timeUnknown = true ∨ s.clock.valid = false))
          ∧ t.load.lastApplied = s.counter + 1 ∧ t.route.lastApplied = s.counter + 1
          ∧ t.route.counterCopy = s.counter + 1 ∧ t.load.hoses.get l = k.hose
          ∧ (∀ x, nth1 s.load.comps b.comp = some x → x.drawn + r1.doneNet ≤ 4000000000 →
              nth1 t.load.comps b.comp = some { x with drawn := x.drawn + r1.doneNet })
          ∧ (∀ y, nth1 s.route.totals r.product = some y →
              (nth1 t.route.totals r.product).map (fun z => (z.tickets, z.drawn))
                = some (min 99999999 (y.tickets + 1), min 999999999999 (y.drawn + r1.doneNet)))
          ∧ (∀ p y, nth1 s.route.totals p = some y → y.inRange → nth1 t.route.totals p = some (y.after k p))
          ∧ (∀ h, (s.items l).hose = some h →
              k.hose = if b.purge = false ∨ h ≤ k.net then .product r.product else .mixed)
          ∧ t.load.hoses.get l.other = s.load.hoses.get l.other
          ∧ asked t (.block .load) ∧ asked t (.block .route))

/-- LN.RUN PRIME and LN.RUN PROVE taken: from IDLE straight to FLOWING on LOW without a record, the settings latched, run volumes at 0, the limit the hose volume or UNLIMITED, answered at once (R121, R122, R134); the reply's words and their order are the model's (log 14, log 37). LN.CLOSE in PAUSED ends them, and so does LN.ENDDROP where the cause is not PULSER or STORE (R110): PRIME books its net to the compartment and the primed total, PROVE nothing; each leaves its hose content, and the line comes to rest (R122, R140, R175). The deadman timer it loads carries no mark of a press (the model's, log 5). -/
def Obligations.PrimeAndProveRuns : Prop :=
  (∀ (l : Line) (c p : Nat) (s : State), s.hears = true → s.settled = true → (1 ≤ c ∧ c ≤ 4) → (s.line l).st = .idle →
    s.inputs.permit = true → s.inputs.ignition = true → s.inputs.air.get l = false → (s.load.comp c).product = some p →
    (∀ b, s.pump = some b → b.comp = c) →
    (∀ h, s.route.isOpen = true → s.inputs.sealOpen = false → s.settings.calLost = false →
      (s.settings.calSet l p).isSome = true → s.load.hoses.get l = .empty → (s.items l).hose = some h → 0 < h →
      ∃ t, exec (.lnRunPrime l.num (some c)) s = .next t ∧ (t.line l).justFlowing s.settings.run 0 ∧ t.press.lines.get l = false
        ∧ (t.line l).kind = some .prime ∧ (t.line l).limit = some (.cl h) ∧ (t.line l).runGross = some 0
        ∧ (t.line l).runNet = some 0 ∧ (t.line l).latched = some s.settings.latch ∧ (t.line l).bound = (s.line l).bound
        ∧ (t.meter l).justFlowing ∧ (t.meter l).fwdTotal = 0 ∧ (t.meter l).runGated = 0 ∧ joined l c s t
        ∧ t.slots = s.slots ∧ sameBlocks s t ∧ otherLineAndTruck l s t ∧ t.queue = s.queue ∧ t.flight = s.flight
        ∧ answeredNow .LN_RUN [[.kw .LINE, .num l.num, .kw .PRIME, .kw .COMP, .num c]] s t)
    ∧ (s.inputs.sealOpen = true →
      ∃ t, exec (.lnRunProve l.num (some c)) s = .next t ∧ (t.line l).justFlowing s.settings.run 0 ∧ t.press.lines.get l = false
        ∧ (t.line l).kind = some .prove ∧ (t.line l).limit = some .unlimited ∧ (t.line l).runGross = some 0
        ∧ (t.line l).runNet = some 0 ∧ (t.line l).prove = none ∧ (t.line l).latched = some s.settings.latch
        ∧ (t.meter l).justFlowing ∧ (t.meter l).fwdTotal = 0 ∧ (t.meter l).runGated = 0 ∧ joined l c s t
        ∧ t.slots = s.slots ∧ sameBlocks s t ∧ otherLineAndTruck l s t ∧ t.queue = s.queue ∧ t.flight = s.flight
        ∧ answeredNow .LN_RUN [[.kw .LINE, .num l.num, .kw .PROVE, .kw .COMP, .num c]] s t)
    ∧ (s.inputs.sealOpen = false → exec (.lnRunProve l.num (some c)) s = .next (refusedWith .LN_RUN .SEALED s)))
  ∧ ∀ (i : Instr) (l : Line) (b : PumpBinding) (p h g n : Nat) (x : Comp) (y : Totals) (s : State), s.hears = true →
    s.settled = true →
    (i = .lnClose l.num
      ∨ (i = .lnEnddrop l.num ∧ (s.line l).cause ≠ some .pulser ∧ (s.line l).cause ≠ some .store)) →
    (s.line l).st = .paused → (s.line l).bound = none → (s.line l).reverse = 0 → s.pump = some b → b.lines.get l = true →
    nth1 s.load.comps b.comp = some x → x.product = some p → (s.items l).hose = some h → (s.line l).runGross = some g →
    (s.line l).runNet = some n → nth1 s.route.totals p = some y → y.primed ≤ 999999999999 →
    x.drawn + n / 10000 ≤ 4000000000 →
    ((s.line l).kind = some .prime → ∃ t, exec i s = .next t ∧ left l s t ∧ sameRecords s t
      ∧ nth1 t.load.comps b.comp = some { x with drawn := x.drawn + n / 10000 }
      ∧ (∀ c, c ≠ b.comp → nth1 t.load.comps c = nth1 s.load.comps c)
      ∧ (nth1 t.route.totals p).map (·.primed) = some (min 999999999999 (y.primed + n / 10000))
      ∧ t.load.hoses.get l = (if h ≤ n / 10000 then .product p else s.load.hoses.get l)
      ∧ t.settings = s.settings ∧ t.counter = s.counter ∧ sameLine s t l.other
      ∧ (0 < n / 10000 → asked t (.block .load) ∧ asked t (.block .route))
      ∧ ∃ st, (t.line l).isAtRest st
          ∧ st = if (s.meter l).latched then .fault else if s.settings.calLost then .setup else .idle)
    ∧ ((s.line l).kind = some .prove → ∃ t, exec i s = .next t ∧ left l s t ∧ sameRecords s t
      ∧ t.load.comps = s.load.comps ∧ t.route = s.route ∧ t.settings = s.settings ∧ t.counter = s.counter
      ∧ t.load.hoses.get l = (if h ≤ n / 10000 ∨ s.load.hoses.get l = .product p then .product p else .mixed)
      ∧ (∃ q, (t.line l).prove = some q ∧ q.raw = ((s.meter l).fwdTotal : Int) - (s.meter l).revTotal ∧ q.nominal = g / 10000)
      ∧ sameLine s t l.other ∧ asked t (.block .load)
      ∧ ∃ st, (t.line l).isAtRest st
          ∧ st = if (s.meter l).latched then .fault else if s.settings.calLost then .setup else .idle)

/-- LN.SETUP moves IDLE to SETUP, and SETUP to IDLE where PR and hose volume are present (NO_CAL where not); LN.ACK in FAULT empties the latches and both counts and enters IDLE, refused with FAULT while PULSER is latched and not quiet; neither writes (R67, R95). -/
def Obligations.SetupAndAcknowledge : Prop :=
  ∀ (l : Line) (s : State), s.hears = true → s.settled = true →
    ((s.line l).st = .idle → ∃ t, exec (.lnSetup l.num) s = .next t
      ∧ (t.line l) = { s.line l with st := .setup } ∧ t.meter l = { s.meter l with phaseErrors := 0, creep := 0 }
      ∧ t.queue = s.queue ∧ t.slots = s.slots ∧ sameBlocks s t ∧ otherLineAndTruck l s t ∧ t.pump = s.pump)
    ∧ ((s.line l).st = .setup → (s.items l).pr.isSome = true → (s.items l).hose.isSome = true →
      ∃ t, exec (.lnSetup l.num) s = .next t
        ∧ (t.line l) = { s.line l with st := .idle } ∧ t.meter l = { s.meter l with phaseErrors := 0, creep := 0 }
        ∧ t.queue = s.queue ∧ t.slots = s.slots ∧ sameBlocks s t ∧ otherLineAndTruck l s t ∧ t.pump = s.pump)
    ∧ ((s.line l).st = .setup → ((s.items l).pr = none ∨ (s.items l).hose = none) →
        exec (.lnSetup l.num) s = .next (refusedWith .LN_SETUP .NO_CAL s))
    ∧ ((s.line l).st = .fault → ((s.meter l).latchPulser = false ∨ (s.meter l).quiet = 1000000) →
      ∃ t, exec (.lnAck l.num) s = .next t ∧ (t.line l) = { s.line l with st := .idle }
        ∧ t.meter l = { s.meter l with latchCreep := false, latchPulser := false, phaseErrors := 0, creep := 0 }
        ∧ t.queue = s.queue ∧ t.slots = s.slots ∧ sameBlocks s t ∧ otherLineAndTruck l s t ∧ t.pump = s.pump)
    ∧ ((s.line l).st = .fault → (s.meter l).latchPulser = true → (s.meter l).quiet < 1000000 →
        exec (.lnAck l.num) s = .next (refusedWith .LN_ACK .FAULT s))

/-! ## Truck, settings and route commands -/

/-- CMP.LOAD: a top-up of the product held adds the volume, a product change starts the account afresh; refused with RANGE for a compartment, product or volume out of range or a product not defined, then PUMP_BUSY while the pump is bound to it, then RANGE for a top-up above the capacity, or STATE where another product remains and EMPTY is not given, then RANGE for a product change above the capacity (R128, R129). A top-up of 0 cL is taken also where loaded is above the capacity, as the prose of R128 and R156 say, though check 3 read alone would refuse it (the model's reading, log 59). HOSE.EMPTY in IDLE makes the hose EMPTY, STATE else (R141). -/
def Obligations.CompartmentAndHoseCommands : Prop :=
  (∀ (c p v cap : Nat) (empty : Bool) (x : Comp) (s : State), s.hears = true → s.settled = true →
    (1 ≤ c ∧ c ≤ 4) → (1 ≤ p ∧ p ≤ 6) → (s.settings.product p).entry.defined = true → v ≤ 2000000 →
    nth1 s.load.comps c = some x → nth1 s.settings.caps c = some cap →
    ((∃ b, s.pump = some b ∧ b.comp = c) → exec (.cmpLoad c p v empty) s = .next (refusedWith .CMP_LOAD .PUMP_BUSY s))
    ∧ ((∀ b, s.pump = some b → b.comp ≠ c) →
      (x.product = some p → v = 0 ∨ x.loaded + v ≤ cap →
        ∃ t, exec (.cmpLoad c p v empty) s = .next t ∧ compSet c { x with loaded := x.loaded + v } s t)
      ∧ (x.product = some p → v ≠ 0 → cap < x.loaded + v →
        exec (.cmpLoad c p v empty) s = .next (refusedWith .CMP_LOAD .RANGE s))
      ∧ (x.product ≠ some p → x.loaded ≤ x.drawn ∨ empty = true → v ≤ cap →
        ∃ t, exec (.cmpLoad c p v empty) s = .next t ∧ compSet c ⟨some p, v, 0⟩ s t)
      ∧ (x.product ≠ some p → x.drawn < x.loaded → empty = false →
        exec (.cmpLoad c p v empty) s = .next (refusedWith .CMP_LOAD .STATE s))
      ∧ (x.product ≠ some p → x.loaded ≤ x.drawn ∨ empty = true → cap < v →
        exec (.cmpLoad c p v empty) s = .next (refusedWith .CMP_LOAD .RANGE s))))
  ∧ (∀ (c p v : Nat) (empty : Bool) (s : State), s.hears = true → s.settled = true →
    (c = 0 ∨ 4 < c ∨ p = 0 ∨ 6 < p ∨ (s.settings.product p).entry.defined = false ∨ 2000000 < v) →
    exec (.cmpLoad c p v empty) s = .next (refusedWith .CMP_LOAD .RANGE s))
  ∧ ∀ (l : Line) (s : State), s.hears = true → s.settled = true →
    ((s.line l).st = .idle → ∃ t p, exec (.hoseEmpty l.num) s = .next t ∧ blockChanged .HOSE_EMPTY p .load s t
        ∧ t.load.hoses.get l = .empty ∧ t.load.hoses.get l.other = s.load.hoses.get l.other
        ∧ { t.load with hoses := s.load.hoses } = s.load ∧ t.settings = s.settings ∧ t.route = s.route)
    ∧ ((s.line l).st ≠ .idle → exec (.hoseEmpty l.num) s = .next (refusedWith .HOSE_EMPTY .STATE s))

/-- PRD.PUT replaces the fields given, clamped, keeps the others with the sealed fields, and defines the product unless UNDEFINE is given (R125). SET.PUT stores each item clamped into its range (R166). Both are taken in every line state and ask for the settings block's write. -/
def Obligations.ProductAndSettingCommands : Prop :=
  (∀ (code : Nat) (f : PrdFields) (x : Product) (s : State), s.hears = true → s.settled = true →
    (1 ≤ code ∧ code ≤ 6) → nth1 s.settings.products code = some x → ¬(f.define = true ∧ f.undefine = true) →
    (f.name.isSome = true ∨ f.price.isSome = true ∨ f.tax.isSome = true ∨ f.define = true ∨ f.undefine = true) →
    (∀ b, f.name = some b → ∀ ch ∈ b, nameChar ch = true) →
    ∃ t y p, exec (.prdPut code f) s = .next t ∧ blockChanged .PRD_PUT p .settings s t ∧ t.load = s.load ∧ t.route = s.route
      ∧ nth1 t.settings.products code = some y
      ∧ (∀ q, q ≠ code → nth1 t.settings.products q = nth1 s.settings.products q)
      ∧ { t.settings with products := s.settings.products } = s.settings
      ∧ y.alpha = x.alpha ∧ y.compOn = x.compOn ∧ y.entry.defined = !f.undefine
      ∧ (∀ v, f.price = some v → (y.entry.price : Int) = max 1 (min 99999 v)) ∧ (f.price = none → y.entry.price = x.entry.price)
      ∧ (∀ v, f.tax = some v → (y.entry.tax : Int) = max 0 (min 3000 v)) ∧ (f.tax = none → y.entry.tax = x.entry.tax)
      ∧ (∀ b, f.name = some b → y.entry.name = if b = charBytes Kw.NONE.spell then [] else b.take 12)
      ∧ (f.name = none → y.entry.name = x.entry.name))
  ∧ (∀ (items : List SetItem) (s : State), s.hears = true → s.settled = true → items ≠ [] →
      (items.map settingKw).Nodup →
      ∃ t, exec (.setPut items) s = .next t ∧ settingsTaken .SET_PUT (items.foldl putSetting s.settings) s t)
  ∧ ∀ (x : Settings) (v : Int),
    putSetting x (.noFlow v) = { x with run := { x.run with noFlow := (max 5 (min 120 v)).toNat } }
    ∧ putSetting x (.autoClose v) = { x with run := { x.run with autoClose := (max 1 (min 60 v)).toNat } }
    ∧ putSetting x (.deadman v) =
        { x with run := { x.run with deadman := if v ≤ 0 then 0 else (max 30 (min 600 v)).toNat } }
    ∧ putSetting x (.slowStart v) = { x with run := { x.run with slowStart := (max 0 (min 5000 v)).toNat } }
    ∧ putSetting x (.slowDown v) = { x with run := { x.run with slowDown := (max 0 (min 10000 v)).toNat } }
    ∧ putSetting x (.step v) = { x with run := { x.run with step := (max 100 (min 2000 v)).toNat } }
    ∧ putSetting x (.antic1 v) =
        { x with lines := { x.lines with one := { x.lines.one with antic := (max 0 (min 2000 v)).toNat } } }
    ∧ putSetting x (.antic2 v) =
        { x with lines := { x.lines with two := { x.lines.two with antic := (max 0 (min 2000 v)).toNat } } }
    ∧ ∀ high, putSetting x (.attn high) = { x with attnHigh := high }

/-- CAL.PUT with the seal open stores its item, opens the session of changes, and asks for the settings block's write (R160 to R164); with the seal closed, or the calibration count at 65,535, every form is refused with SEALED (R161). -/
def Obligations.CalibrationCommands : Prop :=
  ∀ s : State, s.hears = true → s.settled = true →
    (s.inputs.sealOpen = true → s.settings.calCount < 65535 →
      (∀ (l : Line) (v : Nat), 40 ≤ v → v ≤ 4000 →
        ((s.line l).st = .setup ∨ (s.line l).st = .idle →
          ∃ t, exec (.calPutPr l.num v) s = .next t
            ∧ t.meters = s.meters.modify l (fun m => if (s.line l).st = .idle then { m with creep := 0 } else m)
            ∧ settingsTaken .CAL_PUT
                { s.settings with lines := s.settings.lines.modify l (fun i => { i with pr := some v }), session := true }
                s { t with meters := s.meters })
        ∧ ((s.line l).st ≠ .setup → (s.line l).st ≠ .idle →
            exec (.calPutPr l.num v) s = .next (refusedWith .CAL_PUT .LINE_BUSY s)))
      ∧ (∀ (l : Line) (v : Nat), v ≤ 20000 → ((s.line l).st = .setup ∨ (s.line l).st = .idle) →
          ∃ t, exec (.calPutHose l.num v) s = .next t ∧ settingsTaken .CAL_PUT
            { s.settings with lines := s.settings.lines.modify l (fun i => { i with hose := some v }), session := true } s t)
      ∧ (∀ (l : Line) (p : Nat) (x : CalSet), 1 ≤ p → p ≤ 6 → ((s.line l).st = .setup ∨ (s.line l).st = .idle) →
          x.upper.length ≤ 4 → (x.upper.map (·.1)).Pairwise (· < ·) →
          (∀ y ∈ x.upper, 1 ≤ y.1 ∧ y.1 ≤ 20000 ∧ 95000 ≤ y.2 ∧ y.2 ≤ 105000) → (95000 ≤ x.last ∧ x.last ≤ 105000) →
          ∃ t, exec (.calPutSet l.num p (some x)) s = .next t ∧ settingsTaken .CAL_PUT
            { s.settings with
              sets := s.settings.sets.modify l (fun xs => modNth1 xs p (fun _ => some x)), session := true } s t)
      ∧ (∀ (l : Line) (p : Nat), 1 ≤ p → p ≤ 6 → ((s.line l).st = .setup ∨ (s.line l).st = .idle) →
          ∃ t, exec (.calPutSet l.num p none) s = .next t ∧ settingsTaken .CAL_PUT
            { s.settings with
              sets := s.settings.sets.modify l (fun xs => modNth1 xs p (fun _ => none)), session := true } s t)
      ∧ (∀ p v, 1 ≤ p → p ≤ 6 → v ≤ 2000 →
          (s.productFree p = true → ∃ t, exec (.calPutAlpha p v) s = .next t ∧ settingsTaken .CAL_PUT
            { s.settings with
              products := modNth1 s.settings.products p (fun x => { x with alpha := v }), session := true } s t)
          ∧ (s.productFree p = false → exec (.calPutAlpha p v) s = .next (refusedWith .CAL_PUT .LINE_BUSY s)))
      ∧ (∀ p on, 1 ≤ p → p ≤ 6 → s.productFree p = true →
          ∃ t, exec (.calPutComp p on) s = .next t ∧ settingsTaken .CAL_PUT
            { s.settings with
              products := modNth1 s.settings.products p (fun x => { x with compOn := on }), session := true } s t)
      ∧ (∀ c v, 1 ≤ c → c ≤ 4 → v ≤ 2000000 →
          ∃ t, exec (.calPutCap c v) s = .next t ∧ settingsTaken .CAL_PUT
            { s.settings with caps := modNth1 s.settings.caps c (fun _ => v), session := true } s t))
    ∧ (s.inputs.sealOpen = false ∨ 65535 ≤ s.settings.calCount →
      ∀ a b on x, exec (.calPutPr a b) s = .next (refusedWith .CAL_PUT .SEALED s)
        ∧ exec (.calPutHose a b) s = .next (refusedWith .CAL_PUT .SEALED s)
        ∧ exec (.calPutSet a b x) s = .next (refusedWith .CAL_PUT .SEALED s)
        ∧ exec (.calPutAlpha a b) s = .next (refusedWith .CAL_PUT .SEALED s)
        ∧ exec (.calPutComp a on) s = .next (refusedWith .CAL_PUT .SEALED s)
        ∧ exec (.calPutCap a b) s = .next (refusedWith .CAL_PUT .SEALED s))

/-- RTE.OPEN: RANGE for a number outside 1 to 65,535, STATE while OPEN, LINE_BUSY while a record is bound; else OPEN with the number, the valid clock's time or none, every total 0, nothing else changed, the route block's write queued, the reply the number and the time (R170). RTE.CLOSE: STATE while CLOSED, LINE_BUSY while a line is not in IDLE, SETUP or FAULT; else CLOSED, every figure kept, the write queued, the reply the number (R171). -/
def Obligations.RouteOpensAndCloses : Prop :=
  ∀ (n : Nat) (s : State), s.hears = true → s.settled = true →
    ((n = 0 ∨ 65535 < n) → exec (.rteOpen n) s = .next (refusedWith .RTE_OPEN .RANGE s))
    ∧ (1 ≤ n → n ≤ 65535 → s.route.isOpen = true → exec (.rteOpen n) s = .next (refusedWith .RTE_OPEN .STATE s))
    ∧ (1 ≤ n → n ≤ 65535 → s.route.isOpen = false →
      ((∃ l, (s.line l).bound ≠ none) → exec (.rteOpen n) s = .next (refusedWith .RTE_OPEN .LINE_BUSY s))
      ∧ ((∀ l, (s.line l).bound = none) → ∃ t, exec (.rteOpen n) s = .next t
        ∧ blockChanged .RTE_OPEN
            (.ready [[.num n, if s.clock.valid then .time s.clock.now else .kw .TIME_UNKNOWN]]) .route s t
        ∧ t.settings = s.settings ∧ t.load = s.load
        ∧ t.route = { s.route with
            isOpen := true, number := some n, openTime := if s.clock.valid then some s.clock.now else none
            totals := List.replicate 6 ⟨0, 0, 0, 0, 0, 0⟩ }))
    ∧ (s.route.isOpen = false → exec .rteClose s = .next (refusedWith .RTE_CLOSE .STATE s))
    ∧ (s.route.isOpen = true →
      ((∃ l, (s.line l).st ≠ .idle ∧ (s.line l).st ≠ .setup ∧ (s.line l).st ≠ .fault) →
          exec .rteClose s = .next (refusedWith .RTE_CLOSE .LINE_BUSY s))
      ∧ ((∀ l, (s.line l).st = .idle ∨ (s.line l).st = .setup ∨ (s.line l).st = .fault) →
        ∃ t, exec .rteClose s = .next t
          ∧ blockChanged .RTE_CLOSE (.ready [[match s.route.number with | some k => .num k | none => .kw .NONE]]) .route s t
          ∧ t.settings = s.settings ∧ t.load = s.load ∧ t.route = { s.route with isOpen := false }))

/-! ## The link's characters -/

/-- In a working part in RUN: ">" starts a line afresh, a character joins a line being collected of fewer than 160, a line feed and all before ">" are discarded, a pause discards the partial line (R189; that a discarded character, a line feed among them, sets the time of the gap to 0 is the model's choice, log 62; that the pause takes a moment of its own is log 5); a sent line leaves, and the last one ends the command (R191); a break discards the partial line, and its end leaves the receiver waiting (R182, R189). -/
def Obligations.LinkCharactersAndBreaks : Prop :=
  ∀ s : State, s.isActive = true → s.settled = true → s.mode = .run →
    (s.rx.brk = none → s.rx.discard = false →
      exec (.characterReceived 62#8) s = .next { s with rx := { s.rx with buf := some [62#8], gap := 0 } }
      ∧ (s.rx.buf = none → ∀ c, c ≠ 62#8 → c ≠ 13#8 →
          exec (.characterReceived c) s = .next { s with rx := { s.rx with gap := 0 } })
      ∧ (∀ xs, s.rx.buf = some xs → ∀ c, c ≠ 62#8 → c ≠ 13#8 →
          (c ≠ 10#8 → xs.length < 160 →
            exec (.characterReceived c) s = .next { s with rx := { s.rx with buf := some (xs ++ [c]), gap := 0 } })
          ∧ (c = 10#8 ∨ 160 ≤ xs.length → exec (.characterReceived c) s = .next { s with rx := { s.rx with gap := 0 } })))
    ∧ exec .lineGapTimeout s = .next { s with rx := { s.rx with buf := none, discard := false, gap := 0 }, press := s.press.row .lineGap }
    ∧ (∀ x xs, s.tx = x :: xs →
        (x.ends = false → exec .replyLineSent s = .next { s with tx := xs })
        ∧ (x.ends = true → s.sleepDue = false → exec .replyLineSent s = .next { s with tx := xs, cmd := none }))
    ∧ (∀ wake, s.rx.brk = none → exec (.breakBegin wake) s = .next { s with rx := ⟨none, false, 0, some 0⟩ })
    ∧ (s.rx.brk.isSome = true → exec .breakEnd s = .next { s with rx := ⟨none, false, 0, none⟩ })

/-- A carriage return completes a line being collected; COMMAND_LINE is that carriage return, and CHARACTER_RECEIVED with the character 13 does the same (the model's choice, log 35). A line of 160 characters is answered NO FORMAT; a good line whose word and fields spell a command is judged as that command (R190, R191), and ">STATUS*14" does what STATUS does. -/
def Obligations.CompletedLines : Prop :=
  ∀ s : State, s.hears = true → s.settled = true → (∀ i, i = Instr.commandLine ∨ i = Instr.characterReceived 13#8 →
    (s.rx.buf = none → exec i s = .next { s with rx := ⟨none, false, 0, none⟩ })
    ∧ ∀ chars, s.rx.buf = some chars →
      (160 ≤ chars.length → wordReadable (splitWord (chars.drop 1)).1 = true → exec i s = .next { s with
          rx := ⟨none, false, 0, none⟩, tx := s.tx ++ [⟨(splitWord (chars.drop 1)).1, .no .FORMAT, [], false⟩] })
      ∧ (chars.length < 160 → wordReadable (splitWord (chars.drop 1)).1 = false → exec i s = .next { s with
          rx := ⟨none, false, 0, none⟩, tx := s.tx ++ [⟨[63#8], .no .FORMAT, [], false⟩] })
      ∧ (chars.length < 160 → wordReadable (splitWord (chars.drop 1)).1 = true →
        (checkedBody (chars.drop 1) = none → exec i s = .next { s with
          rx := ⟨none, false, 0, none⟩, tx := s.tx ++ [⟨(splitWord (chars.drop 1)).1, .no .CHECK, [], false⟩] })
        ∧ ∀ body, checkedBody (chars.drop 1) = some body →
          (findWord (splitWord (chars.drop 1)).1 = none → exec i s = .next { s with
            rx := ⟨none, false, 0, none⟩, tx := s.tx ++ [⟨(splitWord (chars.drop 1)).1, .no .UNKNOWN, [], false⟩] })
          ∧ ∀ w fs c, findWord (splitWord (chars.drop 1)).1 = some w →
              fieldsOf (body.drop (splitWord (chars.drop 1)).1.length) = some fs → parseCommand w fs = some c →
              exec i s = take w (judgeCommand c) s)
      ∧ (chars = charBytes ['>', 'S', 'T', 'A', 'T', 'U', 'S', '*', '1', '4'] → exec i s = exec .status s))

/-! ## Meter events -/

/-- A change of one phase is forward by the table of R55 and goes where its line's state sends it: nowhere in SETUP, into the batch or the air-gated count while the line credits, to the creep count at rest (R55, R57, R58, R60, R64). That the batch's gated-edge count stays 65,535 at that figure is the model's choice (log 66), and so is that an edge takes a moment of its own (log 5). -/
def Obligations.EdgesGoToTheirDestination : Prop :=
  ∀ (l : Line) (p : PulserPhase) (us pr : Nat) (fwd : Bool) (m : Meter) (s : State), s.isActive = true → s.settled = true →
    s.meter l = m → (s.items l).pr = some pr →
    fwd = (match p with | .a => m.levelA == m.levelB | .b => m.levelA != m.levelB) →
    ∃ t, exec (.pulserEdge l p us) s = .next t ∧ t.meter l.other = s.meter l.other ∧ t.press = s.press.row (.edge l)
      ∧ (t.meter l).levelA = (if p = .a then !m.levelA else m.levelA)
      ∧ (t.meter l).levelB = (if p = .b then !m.levelB else m.levelB)
      ∧ (t.meter l).fwdTotal = m.fwdTotal ∧ (t.meter l).revTotal = m.revTotal ∧ (t.meter l).phaseErrors = m.phaseErrors
      ∧ (t.meter l).quiet = m.quiet ∧ (t.meter l).sample = m.sample ∧ (t.meter l).latchPulser = m.latchPulser
      ∧ ((s.line l).st = .setup → { t with meters := s.meters, press := s.press } = s
          ∧ { t.meter l with levelA := m.levelA, levelB := m.levelB } = m)
      ∧ ((s.line l).st.crediting = true → { t with meters := s.meters, press := s.press } = s ∧ (t.meter l).creep = m.creep
          ∧ (t.meter l).latchCreep = m.latchCreep
          ∧ (s.inputs.air.get l = true → (t.meter l).batchFwd = m.batchFwd ∧ (t.meter l).batchRev = m.batchRev
              ∧ (t.meter l).batchGated = min 65535 (m.batchGated + 1))
          ∧ (s.inputs.air.get l = false → (t.meter l).batchGated = m.batchGated
              ∧ (t.meter l).batchFwd = (if fwd then m.batchFwd + 1 else m.batchFwd)
              ∧ (t.meter l).batchRev = (if fwd then m.batchRev else m.batchRev + 1)))
      ∧ ((s.line l).st ≠ .setup → (s.line l).st.crediting = false →
          (t.meter l).batchFwd = m.batchFwd ∧ (t.meter l).batchRev = m.batchRev ∧ (t.meter l).batchGated = m.batchGated
          ∧ (t.meter l).creep = (if fwd then min 65535 (m.creep + 1) else m.creep - 1)
          ∧ ((fwd = false ∨ min 65535 (m.creep + 1) ≤ pr ∨ m.latchCreep = true) →
              { t with meters := s.meters, press := s.press } = s ∧ (t.meter l).latchCreep = m.latchCreep))

/-- The measurement of a period at a credited edge, and its overflow at 16,777,216 µs; a completed period gives the rate and the band (R68, R70, R71). The edge's operand is the time since the event before it, added to the open measurement before the edge is judged, the overflow first (the model's choice, log 7). A sample replaces the latest one, a temperature of −40.00 to 60.00 °C becomes the last valid one, and in SLEEP none is taken (R72, R73). The quiet timer's expiry makes the pulser quiet (R63). Each of these takes a moment of its own (the model's choice, log 5). -/
def Obligations.PeriodsAndSamples : Prop :=
  ((∀ (l : Line) (p : PulserPhase) (us pr : Nat) (fwd : Bool) (m : Meter) (s : State), s.isActive = true →
    s.settled = true → s.meter l = m → (s.items l).pr = some pr → (s.line l).st.crediting = true →
    s.inputs.air.get l = false → 1 ≤ us →
    fwd = (match p with | .a => m.levelA == m.levelB | .b => m.levelA != m.levelB) →
    ∃ t, exec (.pulserEdge l p us) s = .next t
      ∧ (fwd = false → (t.meter l).period = .seekDiscard)
      ∧ (∀ n, m.period = .measure n → n + us < 16777216 → p = .a → m.levelA = false → m.levelB = false →
          (t.meter l).period = .measure 0 ∧ (t.meter l).rate = 2400000000 / (pr * (n + us))
          ∧ (t.meter l).band = s.bandFor l (2400000000 / (pr * (n + us))))
      ∧ (∀ n, m.period = .discard n → n + us < 16777216 → p = .a → m.levelA = false → m.levelB = false →
          (t.meter l).period = .measure 0 ∧ (t.meter l).rate = m.rate ∧ (t.meter l).band = m.band)
      ∧ (m.period = .seekDiscard → p = .a → m.levelA = false → m.levelB = false →
          (t.meter l).period = .discard 0 ∧ (t.meter l).rate = m.rate ∧ (t.meter l).band = m.band)
      ∧ (m.period = .seek → p = .a → m.levelA = false → m.levelB = false →
          (t.meter l).period = .measure 0 ∧ (t.meter l).rate = m.rate ∧ (t.meter l).band = m.band)
      ∧ (∀ n, (m.period = .measure n ∨ m.period = .discard n) → n + us < 16777216 → fwd = true →
          ¬(p = .a ∧ m.levelA = false) → (t.meter l).rate = m.rate ∧ (t.meter l).band = m.band
          ∧ (m.period = .measure n → (t.meter l).period = .measure (n + us))
          ∧ (m.period = .discard n → (t.meter l).period = .discard (n + us)))
      ∧ (∀ n, (m.period = .measure n ∨ m.period = .discard n) → 16777216 ≤ n + us →
          (t.meter l).rate = 0 ∧ (t.meter l).band = 1
          ∧ (fwd = true → ¬(p = .a ∧ m.levelA = false) → (t.meter l).period = .seek)))
  ∧ ∀ (l : Line) (s : State), s.isActive = true → s.settled = true →
    ((s.line l).st.crediting = true → (∃ n, (s.meter l).period = .measure n ∨ (s.meter l).period = .discard n) →
      exec (.periodOverflow l) s =
        .next { s with
          meters := s.meters.modify l (fun m => { m with period := .seek, rate := 0, band := 1 }), press := s.press.row (.overflow l) }))
  ∧ ∀ (l : Line) (s : State), s.isActive = true → s.settled = true →
    exec (.quietTimerExpiry l) s = .next { s with
        meters := s.meters.modify l (fun m => { m with quiet := 1000000 }), press := s.press.row (.quiet l) }
    ∧ (s.mode = .run →
      (∀ v : Int, -4000 ≤ v → v ≤ 6000 → exec (.temperatureSample l (.temp v)) s = .next { s with
          meters := s.meters.modify l (fun m => { m with sample := some (.temp v), lastValid := some v }), press := s.press.row (.sample l) })
      ∧ (∀ v : Int, v < -4000 ∨ 6000 < v → exec (.temperatureSample l (.temp v)) s = .next { s with
          meters := s.meters.modify l (fun m => { m with sample := some (.temp v) }), press := s.press.row (.sample l) })
      ∧ exec (.temperatureSample l .openCircuit) s = .next { s with
          meters := s.meters.modify l (fun m => { m with sample := some .openCircuit }), press := s.press.row (.sample l) }
      ∧ exec (.temperatureSample l .shorted) s = .next { s with
          meters := s.meters.modify l (fun m => { m with sample := some .shorted }), press := s.press.row (.sample l) })
    ∧ (s.mode = .sleep → ∀ r, exec (.temperatureSample l r) s = .next s)

/-- A phase error takes both levels and starts the quiet time anew, in SETUP too (the model's reading, log 30), and outside SETUP counts; the seventeenth latches PULSER, which cuts a crediting line, marks a paused one and sends an IDLE or ARMED one to FAULT, its record PLANNED again (R56, R57, R61, R62, R66). A creep count above PR latches CREEP, with the same result in IDLE and ARMED and none in PAUSED (R65). -/
def Obligations.LatchedFaults : Prop :=
  (∀ (l : Line) (m : Meter) (s : State), s.isActive = true → s.settled = true → s.meter l = m →
    ((s.line l).st = .setup → exec (.phaseError l) s = .next { s with
        meters := s.meters.set l { m with levelA := !m.levelA, levelB := !m.levelB, quiet := 0 } })
    ∧ ((s.line l).st ≠ .setup → m.phaseErrors < 16 ∨ m.latchPulser = true → exec (.phaseError l) s = .next { s with
        meters := s.meters.set l
          { m with levelA := !m.levelA, levelB := !m.levelB, quiet := 0, phaseErrors := min 65535 (m.phaseErrors + 1) } })
    ∧ ((s.line l).st ≠ .setup → (s.line l).st ≠ .armed → 16 ≤ m.phaseErrors → m.latchPulser = false →
      ∃ t, exec (.phaseError l) s = .next t ∧ t.meters = s.meters.set l
          { m with
            levelA := !m.levelA, levelB := !m.levelB, quiet := 0, latchPulser := true
            phaseErrors := min 65535 (m.phaseErrors + 1) }
        ∧ sameRecords s t ∧ sameLine s t l.other ∧ sameBlocks s t ∧ sameTruck s { t with meters := s.meters }
        ∧ ((s.line l).st = .flowing ∨ (s.line l).st = .stopping → (s.line l).justCut .pulser (t.line l))
        ∧ ((s.line l).st = .settling → t.line l = { s.line l with cut := some .pulser })
        ∧ ((s.line l).st = .paused → t.line l = { s.line l with cause := some .pulser })
        ∧ ((s.line l).st = .idle → (t.line l).isAtRest .fault ∧ t.attention.get l = true)
        ∧ ((s.line l).st = .fault → t.line l = s.line l))
    ∧ (∀ stop r, (s.line l).st = .armed → 16 ≤ m.phaseErrors → m.latchPulser = false → s.roomy = true →
      (s.line l).bound = some stop → s.recOf stop = some r →
      ∃ t, exec (.phaseError l) s = .next t ∧ (t.meter l).latchPulser = true ∧ (t.line l).isAtRest .fault
        ∧ t.recOf stop = some { r with state := .planned, binding := none, restored := .none, flags := .empty }
        ∧ t.attention.get l = true ∧ left l s t ∧ asked t (.record stop) ∧ sameRecordsBut stop s t ∧ sameBlocks s t))
  ∧ ∀ (l : Line) (p : PulserPhase) (us pr : Nat) (s : State), s.isActive = true → s.settled = true →
    (s.items l).pr = some pr → (s.meter l).latchCreep = false → pr < min 65535 ((s.meter l).creep + 1) →
    (s.meter l).isForward p = true →
    ((s.line l).st = .idle → ∃ t, exec (.pulserEdge l p us) s = .next t ∧ (t.meter l).latchCreep = true
      ∧ (t.line l).isAtRest .fault ∧ t.attention.get l = true ∧ sameLine s t l.other ∧ sameRecords s t ∧ sameBlocks s t)
    ∧ ((s.line l).st = .paused → ∃ t, exec (.pulserEdge l p us) s = .next t ∧ (t.meter l).latchCreep = true
      ∧ t.line l = s.line l ∧ sameRecords s t ∧ sameBlocks s t)
    ∧ (∀ stop r, (s.line l).st = .armed → s.roomy = true → (s.line l).bound = some stop → s.recOf stop = some r →
      ∃ t, exec (.pulserEdge l p us) s = .next t ∧ (t.meter l).latchCreep = true ∧ (t.line l).isAtRest .fault
        ∧ t.recOf stop = some { r with state := .planned, binding := none, restored := .none, flags := .empty }
        ∧ t.attention.get l = true ∧ left l s t ∧ asked t (.record stop) ∧ sameRecordsBut stop s t ∧ sameBlocks s t)

/-! ## Timers -/

/-- WINDOW_EXPIRY: the batch is converted and emptied, the window reloaded; in FLOWING a remaining volume at or below the anticipation begins a limit stop, else HIGH follows R103; a reverse excess cuts the line (R58, R59, R78 to R82, R102, R103). -/
def Obligations.WindowConvertsAndDecides : Prop :=
  ∀ (l : Line) (m : Meter) (s : State), s.isActive = true → s.settled = true → (s.line l).timers.window.isSome = true →
    (s.line l).st.crediting = true → s.meter l = m →
    ∃ t, exec (.windowExpiry l) s = .next t
      ∧ (t.line l).timers.window = some 100000 ∧ (t.line l).kind = (s.line l).kind ∧ (t.line l).bound = (s.line l).bound
      ∧ (t.line l).limit = (s.line l).limit
      ∧ (t.meter l).batchFwd = 0 ∧ (t.meter l).batchRev = 0 ∧ (t.meter l).batchGated = 0
      ∧ (t.meter l).fwdTotal = min 4294967295 (m.fwdTotal + m.batchFwd)
      ∧ (t.meter l).revTotal = min 4294967295 (m.revTotal + m.batchRev)
      ∧ (t.line l).reverse = (settleReverse (s.line l).reverse m.batchFwd m.batchRev).1
      ∧ sameLine s t l.other ∧ t.meter l.other = s.meter l.other ∧ sameBlocks s t ∧ t.queue = s.queue ∧ t.pump = s.pump
      ∧ t.tx = s.tx ∧ sameTruck s { t with meters := s.meters }
      ∧ (∀ stop r n d a pr x, (s.line l).kind = some .order → (s.line l).bound = some stop → s.recOf stop = some r →
          nth1 r.drops n = some d → d.st = .active a → (s.items l).pr = some pr → s.settings.calSet l r.product = some x →
          ∃ r' a' g, t.recOf stop = some r' ∧ nth1 r'.drops n = some { d with st := .active a' }
            ∧ g = (grossStage pr (factorIn x m.band) (s.line l).grossRem
                (settleReverse (s.line l).reverse m.batchFwd m.batchRev).2).1
            ∧ a'.gross = a.gross + g
            ∧ a'.net = a.net + (netStage (vcfOf (s.settings.product r.product).alpha
                (s.settings.product r.product).compOn m.batchTemp.1) (s.line l).netRem g).1
            ∧ a'.gated = min 65535 (a.gated + m.batchGated) ∧ sameRecordsBut stop s t)
      ∧ ((s.line l).st = .flowing → s.excess l = false →
        ((t.remaining l).atMost (s.line l).antic = true → (t.line l).intent = some .limit
          ∧ (t.line l).stopNet = some (t.liveNet l) ∧ (t.line l).cmdHigh = false
          ∧ (t.line l).st = if (s.line l).cmdHigh then .stopping else .settling)
        ∧ ((t.remaining l).atMost (s.line l).antic = false → (t.line l).st = .flowing
          ∧ (t.line l).intent = (s.line l).intent ∧ (t.line l).cmdLow = (s.line l).cmdLow
          ∧ (t.line l).cmdHigh = (if (t.remaining l).atMost (s.latchedOf l).run.slowDown then false
              else if (s.line l).slowBase + (s.latchedOf l).run.slowStart ≤ t.liveNet l then true else (s.line l).cmdHigh)
          ∧ (t.line l).timers.noFlow = if 0 < s.credited l then some ((s.latchedOf l).run.noFlow * 1000000)
              else (s.line l).timers.noFlow))
      ∧ ((s.line l).st ≠ .flowing → s.excess l = false → (t.line l).st = (s.line l).st
          ∧ (t.line l).cmdLow = (s.line l).cmdLow)
      ∧ (s.excess l = true → (t.line l).st = .settling
          ∧ (t.line l).cut = (if (s.line l).cut = some .pulser then some .pulser else some .reverse)
          ∧ ((s.line l).st ≠ .settling → (t.line l).cmdLow = false ∧ (t.line l).cmdHigh = false))

/-- STEP_EXPIRY closes LOW and begins the settle (R105), and takes a moment of its own (the model's choice, log 5). SETTLE_EXPIRY with intent PAUSE, NOFLOW or STORE, or a cut alone, leaves the line PAUSED with the cut's cause, else the intent's; its item set and an ORDER run's checkpoint asked for (R106, R114, R118). A drop ended short of the last leaves it PAUSED(DROP_END) (R106, R108). -/
def Obligations.StepAndSettleEnd : Prop :=
  (∀ (l : Line) (s : State), s.isActive = true → s.settled = true → (s.line l).st = .stopping →
    (s.line l).timers.step.isSome = true → exec (.stepExpiry l) s = .next { s with
      press := s.press.row (.step l)
      lines := s.lines.modify l (fun c => { c with
        st := .settling, cmdLow := false, cmdHigh := false
        timers := { c.timers with settle := some 2000000, step := none, noFlow := none, deadman := none } }) })
  ∧ ∀ (l : Line) (cut : Option CutCause) (s : State), s.isActive = true → s.settled = true → s.roomy = true →
    (s.line l).st = .settling → (s.line l).timers.settle.isSome = true →
    cut = (if s.excess l then (if (s.line l).cut = some .pulser then some .pulser else some .reverse) else (s.line l).cut) →
    (∀ cause, (((s.line l).intent = some .pause ∧ cause = (cut.map CutCause.pause).getD .driver)
          ∨ ((s.line l).intent = some .noFlow ∧ cause = (cut.map CutCause.pause).getD .noFlow)
          ∨ ((s.line l).intent = some .store ∧ cause = (cut.map CutCause.pause).getD .store)
          ∨ ((s.line l).intent = none ∧ ∃ x, cut = some x ∧ cause = x.pause)) →
      ∃ t, exec (.settleExpiry l) s = .next t ∧ (t.line l).justPaused (s.latchedOf l).run.autoClose cause
        ∧ (t.line l).limit = (s.line l).limit ∧ (t.line l).kind = (s.line l).kind ∧ (t.line l).bound = (s.line l).bound
        ∧ (t.meter l).batchFwd = 0 ∧ (t.meter l).batchRev = 0 ∧ (t.meter l).rate = 0 ∧ (t.meter l).period = .seekDiscard
        ∧ t.attention.get l = true ∧ t.load = s.load ∧ t.route = s.route ∧ t.counter = s.counter
        ∧ ((s.line l).lowAlone = false → t.settings = s.settings) ∧ sameLine s t l.other ∧ t.pump = s.pump
        ∧ (∀ stop r, (s.line l).bound = some stop → s.recOf stop = some r → ∃ r', t.recOf stop = some r'
            ∧ r'.restored = .checkpoint ∧ r'.state = r.state ∧ asked t (.record stop) ∧ sameRecordsBut stop s t))
    ∧ ∀ stop r n d a i cause, ((i = .limit ∧ cause = .limit) ∨ (i = .enddrop ∧ cause = .driver)) →
      (s.line l).intent = some i → (s.line l).kind = some .order → (s.line l).bound = some stop → s.recOf stop = some r →
      r.active = some (n, d) → n < r.drops.length → d.st = .active a →
      ∃ t r' g v gated, exec (.settleExpiry l) s = .next t
        ∧ (t.line l).justPaused (s.latchedOf l).run.autoClose (if cut = some .pulser then .pulser else .dropEnd)
        ∧ (t.line l).limit = none ∧ t.recOf stop = some r' ∧ asked t (.record stop) ∧ r'.restored = .checkpoint
        ∧ nth1 r'.drops n = some { d with st := .done ⟨g, v, gated⟩ (g / 10000) (v / 10000) cause }
        ∧ a.gross ≤ g ∧ a.net ≤ v ∧ t.attention.get l = true ∧ sameRecordsBut stop s t ∧ t.load = s.load ∧ t.route = s.route
        ∧ ((s.line l).lowAlone = false → t.settings = s.settings) ∧ sameLine s t l.other ∧ t.pump = s.pump

/-- A settle that ends the run: with intent CLOSE, or LIMIT or ENDDROP on the last drop, the line comes to rest, leaves the pump binding, and its record, after the last batch, the drop's end and the reverse deduction, is PLANNED again where its total net is 0, else TICKETED with the next number and that net; held in PAUSED(STORE) while the record is unsaved (R17, R18, R84, R106, R108, R111, R112, R119). A limit stop on LOW alone teaches the anticipation (R107). That the next number is the counter plus one past 99,999,999 too is the model's choice (log 72). -/
def Obligations.SettleEndsTheRun : Prop :=
  ∀ (l : Line) (stop : Nat) (r : Record) (i : StopIntent) (cause : EndCause) (s : State), s.isActive = true →
    s.settled = true → s.roomy = true → (s.line l).st = .settling → (s.line l).timers.settle.isSome = true →
    (s.line l).kind = some .order → (s.line l).bound = some stop → s.recOf stop = some r → (s.line l).intent = some i →
    ((i = .close ∧ cause = .driver)
      ∨ (r.active.map (·.1) = some r.drops.length ∧ ((i = .limit ∧ cause = .limit) ∨ (i = .enddrop ∧ cause = .driver)))) →
    ∃ t, exec (.settleExpiry l) s = .next t ∧ sameRecordsBut stop s t ∧ sameLine s t l.other
      ∧ (stop ∉ s.unsaved → left l s t ∧ asked t (.record stop)
          ∧ (∃ st, (t.line l).isAtRest st
              ∧ st = if (s.meter l).latched then .fault else if s.settings.calLost then .setup else .idle)
          ∧ ∃ ended, (((s.convert l).endDrop l cause).deductOrder l stop).recOf stop = some ended
            ∧ runEnded l stop cause r ended s t)
      ∧ (stop ∈ s.unsaved → (t.line l).justPaused (s.latchedOf l).run.autoClose .store ∧ (t.line l).held = some cause
          ∧ (t.line l).bound = some stop ∧ t.counter = s.counter)
      ∧ (∀ began, (s.line l).lowAlone = true → (s.line l).stopNet = some began →
          (t.settings.lines.get l).antic
              = learned (s.line l).antic (((s.convert l).liveNet l : Int) - (began : Int))
          ∧ asked t (.block .settings))
      ∧ ((s.line l).lowAlone = false → t.settings = s.settings)

/-- NO_FLOW_EXPIRY begins a stop, or in a pause's stop makes its intent NOFLOW (R116). DEADMAN_EXPIRY of a running timer cuts a flowing or stopping line, whatever the level of DEADMAN; where a press is taken first, it reloads the timer and the expiry does nothing, a release between them or not (R149; that a press and an expiry came together while no idle step and no second row of a kind that takes a moment of its own stands between them, and that the expiry uses up the press's mark, is the model's choice, log 5). CHECKPOINT_EXPIRY writes the record and reloads the timer (R118). AUTO_CLOSE_EXPIRY ends the run with TIMEOUT: the record, its drop ended and the reverse balance deducted, is PLANNED again where its total net is 0, else TICKETED with the next number and that net (R17, R18, R84, R117; a number past 99,999,999 is the model's choice, log 72); while the record is unsaved it is held, a close already held keeping its cause (R119; the kept cause is the model's reading, log 41). -/
def Obligations.OtherTimersExpire : Prop :=
  ∀ (l : Line) (s : State), s.isActive = true → s.settled = true →
    ((s.line l).timers.noFlow.isSome = true →
      ((s.line l).st = .flowing → ∃ t, exec (.noFlowExpiry l) s = .next t
        ∧ { s.line l with timers := { (s.line l).timers with noFlow := none } }.stopBegun (s.latchedOf l).run .noFlow
            (s.liveNet l) false (t.line l)
        ∧ { t with lines := s.lines, press := s.press } = s ∧ t.press = s.press.row (.noFlow l) ∧ t.line l.other = s.line l.other)
      ∧ ((s.line l).st = .stopping → exec (.noFlowExpiry l) s = .next { s with
          press := s.press.row (.noFlow l)
          lines := s.lines.modify l (fun c => { c with
            intent := if c.intent = some .pause then some .noFlow else c.intent
            timers := { c.timers with noFlow := none } }) }))
    ∧ ((s.line l).timers.deadman = none → exec (.deadmanExpiry l) s = .next s)
    ∧ ((s.line l).timers.deadman.isSome = true → s.press.lines.get l = true →
      exec (.deadmanExpiry l) s = .next { s with press := { s.press with lines := s.press.lines.set l false } })
    ∧ ((s.line l).timers.deadman.isSome = true → s.inputs.deadman = false →
      ∃ t u, exec .deadmanPress s = .next t ∧ exec .deadmanRelease t = .next u ∧ ∀ v ∈ [t, u],
        (v.line l).timers.deadman = some ((s.latchedOf l).run.deadman * 1000000)
        ∧ exec (.deadmanExpiry l) v = .next { v with press := { v.press with lines := v.press.lines.set l false } }
        ∧ ∀ k, (v.press.row k).lines = v.press.lines ∧ ((v.press.row k).row k).lines = ⟨false, false⟩)
    ∧ ((s.line l).timers.deadman.isSome = true → s.press.lines.get l = false →
      ((s.line l).st = .flowing ∨ (s.line l).st = .stopping) →
      ∃ t, exec (.deadmanExpiry l) s = .next t ∧ (s.line l).justCut .deadman (t.line l)
        ∧ { t with lines := s.lines, press := s.press } = s ∧ t.press = .none ∧ t.line l.other = s.line l.other)
    ∧ (∀ stop r, (s.line l).timers.checkpoint.isSome = true → (s.line l).st.crediting = true → s.roomy = true →
        (s.line l).bound = some stop → s.recOf stop = some r →
        ∃ t, exec (.checkpointExpiry l) s = .next t ∧ t.press = s.press.row (.checkpoint l) ∧ t.recOf stop = some { r with restored := .checkpoint }
          ∧ asked t (.record stop) ∧ sameRecordsBut stop s t ∧ sameBlocks s t ∧ sameTruck s t ∧ sameLine s t l.other
          ∧ (t.line l).core = { (s.line l).core with timers := { (s.line l).timers with checkpoint := some 5000000 } })
    ∧ (∀ stop r, (s.line l).timers.autoClose.isSome = true → (s.line l).st = .paused → s.mode = .run →
        (s.line l).kind = some .order → (s.line l).bound = some stop → s.recOf stop = some r →
        (stop ∈ s.unsaved → ∃ t, exec (.autoCloseExpiry l) s = .next t
          ∧ { t with lines := s.lines, press := s.press } = s ∧ t.press = s.press.row (.autoClose l)
          ∧ t.line l.other = s.line l.other
          ∧ t.line l = { s.line l with
              held := some ((s.line l).held.getD .timeout), timers := { (s.line l).timers with autoClose := none } })
        ∧ (stop ∉ s.unsaved → s.roomy = true →
          ∃ t, exec (.autoCloseExpiry l) s = .next t ∧ left l s t ∧ asked t (.record stop) ∧ sameRecordsBut stop s t
          ∧ (∃ st, (t.line l).isAtRest st
              ∧ st = if (s.meter l).latched then .fault else if s.settings.calLost then .setup else .idle)
          ∧ ∃ ended, ((s.endDrop l .timeout).deductOrder l stop).recOf stop = some ended
            ∧ runEnded l stop .timeout r ended s t))
    ∧ ((s.line l).timers.autoClose.isSome = true → (s.line l).st = .paused → s.mode = .run → (s.line l).bound = none →
        ((s.line l).kind = some .prime ∨ (s.line l).kind = some .prove) →
        ∃ t, exec (.autoCloseExpiry l) s = .next t ∧ left l s t ∧ sameRecords s t ∧ t.counter = s.counter
          ∧ ∃ st, (t.line l).isAtRest st
              ∧ st = if (s.meter l).latched then .fault else if s.settings.calLost then .setup else .idle)

/-! ## Inputs and the seal -/

/-- PERMIT deasserted and IGNITION low cut every flowing and stopping line and mark a settling one; an air sensor cuts its flowing or stopping line; the opposite edges only change the level (R144 to R147, R150, R151). A press reloads the running deadman timers, and leaves a stopped one alone (R148, R149; the mark of a reload is log 5). The seal's closing counts a session of changes, removes the counter's LOST mark with a session or without one, and asks for the settings block's write where it changed an item (R158). -/
def Obligations.InputsAndSeal : Prop :=
  ∀ s : State, s.isActive = true → s.settled = true →
    (s.inputs.permit = true → ∃ t, exec .permitDeasserted s = .next t
      ∧ { t with lines := s.lines } = { s with inputs := { s.inputs with permit := false } }
      ∧ ∀ l, (s.line l).cutOrRecorded .interlock (t.line l))
    ∧ (s.inputs.permit = false → exec .permitAsserted s = .next { s with inputs := { s.inputs with permit := true } })
    ∧ (s.inputs.ignition = true → s.sleepDue = false → ∃ t, exec .ignitionLow s = .next t
      ∧ { t with lines := s.lines } = { s with inputs := { s.inputs with ignition := false }, ignitionLow := 0 }
      ∧ ∀ l, (s.line l).cutOrRecorded .ignition (t.line l))
    ∧ (s.inputs.ignition = false → s.mode = .run → ∀ wake, exec (.ignitionHigh wake) s =
        .next { s with inputs := { s.inputs with ignition := true }, ignitionLow := 0, sleepDue := false })
    ∧ (∀ l, s.inputs.air.get l = false → ∃ t, exec (.airAsserted l) s = .next t
      ∧ { t with lines := s.lines } = { s with inputs := { s.inputs with air := s.inputs.air.set l true } }
      ∧ t.line l.other = s.line l.other
      ∧ ((s.line l).st = .flowing ∨ (s.line l).st = .stopping → (s.line l).justCut .air (t.line l))
      ∧ ((s.line l).st ≠ .flowing → (s.line l).st ≠ .stopping → t.line l = s.line l))
    ∧ (∀ l, s.inputs.air.get l = true →
        exec (.airDeasserted l) s = .next { s with inputs := { s.inputs with air := s.inputs.air.set l false } })
    ∧ (s.inputs.deadman = false → ∃ t, exec .deadmanPress s = .next t
      ∧ { t with lines := s.lines, press := s.press } = { s with inputs := { s.inputs with deadman := true } }
      ∧ t.press.seen = [] ∧ ∀ l, ((s.line l).timers.deadman = none → t.line l = s.line l ∧ t.press.lines.get l = false)
        ∧ ((s.line l).timers.deadman.isSome = true → t.press.lines.get l = true
            ∧ t.line l = { s.line l with timers := { (s.line l).timers with
                deadman := some ((s.latchedOf l).run.deadman * 1000000) } }))
    ∧ (s.inputs.deadman = true → exec .deadmanRelease s = .next { s with inputs := { s.inputs with deadman := false } })
    ∧ (s.inputs.sealOpen = false → exec .sealOpens s = .next { s with inputs := { s.inputs with sealOpen := true } })
    ∧ (s.inputs.sealOpen = true →
      (s.settings.session = true ∨ s.settings.countLost = true →
        ∃ t, exec .sealCloses s = .next t ∧ t.inputs = { s.inputs with sealOpen := false }
        ∧ t.settings = (if s.settings.session then
            { s.settings with
              calCount := min 65535 (s.settings.calCount + 1), session := false, countLost := false
              calLost := if s.settings.anySet .one || s.settings.anySet .two then false else s.settings.calLost }
          else { s.settings with countLost := false })
        ∧ asked t (.block .settings) ∧ sameLines s t ∧ sameRecords s t ∧ t.load = s.load ∧ t.route = s.route
        ∧ t.meters = s.meters)
      ∧ (s.settings.session = false → s.settings.countLost = false →
        exec .sealCloses s = .next { s with inputs := { s.inputs with sealOpen := false } }))

/-! ## Power, sleep and the clock -/

/-- POWER_FAIL_ASSERTED and LINK_RESET (the row stands for a break that has lasted 1 s, log 23) begin a flush: every stage, PUMP and outlet off, the link silent, a crediting line's batch taken and its timers stopped, every bound record marked FINAL and asked for; states are kept (R178, R180, R182). With no write in flight the first FINAL write that finds a place begins at once; one that finds no slot leaves its record unsaved (R180). After a power failure with nothing to write, or nothing that finds a place, the part holds in reset at once. FLUSH_DEADLINE records that the first deadline has passed, or with the second both (log 42). With both past, the completion of the operation in flight, verified or failed, gives the hold in reset, whatever waits (R179, R181). POWER_ON_RESTART in a power-fail flush is remembered, POWER_FAIL_ASSERTED takes it back, and the flush's end makes the restart remembered (R181, log 22). -/
def Obligations.PowerFailFlushes : Prop :=
  (∀ (i : Instr) (k : FlushKind) (s : State), s.isActive = true → s.settled = true →
    ((i = .powerFailAsserted ∧ k = .powerFail none) ∨ ∃ reads, i = .linkReset reads ∧ k = .linkReset reads) →
    (s.flight.isSome = true ∨ (∃ l stop, (s.line l).bound = some stop ∧ s.findsPlace stop) →
      ∃ t, exec i s = .next t ∧ flushBegun k s t ∧ t.flight.isSome = true ∧ (s.flight.isSome = true → t.flight = s.flight)
      ∧ t.inputs = (if i = .powerFailAsserted then { s.inputs with powerFail := true } else s.inputs)
      ∧ ∀ l stop r, (s.line l).bound = some stop → s.recOf stop = some r →
          (∃ r', t.recOf stop = some r' ∧ r'.restored = .final ∧ r'.state = r.state)
          ∧ (s.flight.isSome = true ∨ s.findsPlace stop → asked t (.record stop))
          ∧ (asked t (.record stop) ∨ stop ∈ t.unsaved))
    ∧ (i = .powerFailAsserted → s.flight = none → (∀ l stop, (s.line l).bound = some stop → ¬ s.findsPlace stop) →
        ∃ t, exec i s = .next t ∧ t.phase = .hold
          ∧ ∀ l stop, (s.line l).bound = some stop → (s.recOf stop).isSome = true → stop ∈ t.unsaved))
  ∧ (∀ (f : Flush) (s : State), s.phase = .flush f → s.flight.isSome = true →
      exec (.flushDeadline .blocks) s = .next { s with phase := .flush { f with blocksPast := true } }
      ∧ exec (.flushDeadline .slots) s = .next { s with phase := .flush { f with blocksPast := true, slotsPast := true } })
  ∧ (∀ (f : Flush) (s : State), s.phase = .flush f → s.flight = none → f.kind = .powerFail none → f.blocksPast = true →
      f.slotsPast = true → ∃ t, exec (.flushDeadline .slots) s = .next t ∧ t.phase = .hold ∧ t.queue = [])
  ∧ (∀ (i : Instr) (f : Flush) (s : State), s.phase = .flush f → f.blocksPast = true → f.slotsPast = true →
      ((∃ w read agrees, s.flight = some (.record w) ∧ i = .recordWriteComplete read agrees)
        ∨ (∃ b second agrees, s.flight = some (.block b second) ∧ i = .blockWriteComplete agrees)
        ∨ (∃ n, s.flight = some (.release n) ∧ i = .releaseComplete)
        ∨ ∃ n read, s.flight = some (.patrol n) ∧ i = .patrolReadComplete read) →
      (f.kind = .powerFail none → ∃ t, exec i s = .next t ∧ t.phase = .hold ∧ t.queue = [] ∧ t.flight = none
        ∧ t.outPump = false ∧ ∀ l c, t.outLow l = false ∧ t.outHigh l = false ∧ t.outOutlet c = false)
      ∧ ∀ reads, f.kind = .powerFail (some reads) → ∃ t, exec i s = .next t ∧ t.phase = .restart ∧ t.mode = .run
        ∧ t.resetCause.cause = .powerOn ∧ t.clock = ⟨⟨2000, 1, 1, 0, 0, 0⟩, false⟩ ∧ t.inputs.powerFail = false)
  ∧ ∀ (f : Flush) (next : Option RestartReads) (s : State), s.phase = .flush f → f.kind = .powerFail next →
      s.flight.isSome = true →
      (∀ reads, exec (.powerOnRestart reads) s = .next { s with
          inputs := { s.inputs with powerFail := false }, phase := .flush { f with kind := .powerFail (some reads) } })
      ∧ exec .powerFailAsserted s = .next { s with
          inputs := { s.inputs with powerFail := true }, phase := .flush { f with kind := .powerFail none } }

/-- POWER_ON_RESTART of a part that holds, restarts or works (of one that works or restarts: the model's choice, log 22; its reads' results are operands, log 24), and a link reset of a part with nothing to write: stages and PUMP off, the bound compartment's outlet on, ATTN following the set, RUN, the cause recorded, the clock invalid at 20000101000000 after power-on and kept after a link reset, no command in progress, settings read from an area that can be read and matches its fingerprint, else the defaults, marked failed and asked for (R155, R156, R158, R183, R197; the fingerprint is free, log 24); the slots settled: of the good copies of a stop the newest becomes the record, the others FREE or RETIRED, an unreadable one DAMAGED or RETIRED (R47, R48; equal numbers: log 51); the counter recovered (R184); the meter lines at their restart values (R54); a line with a record read BOUND for it PAUSED(POWER), or PAUSED(STORE) where its checkpoint found no slot (R94, R119), else in SETUP (calibration lost or no set) or IDLE (R94), its item absent, also where its record is again PLANNED (the model's reading, log 71); the pump bound to the restored compartment, line 2's record PLANNED again where the two differ (R135). The restart record's count of restored lines counts every line with a record read BOUND for it, also line 2 returned to PLANNED (the model's reading, log 36). Of two records read BOUND for one line, the one in the lowest slot is restored (the model's choice, log 63). The receiver is empty and holds no break, so that one still lasting is no longer known (the model's reading, log 45). No mark of a press of DEADMAN stands (the model's, log 5). POWER_FAIL_ASSERTED that comes next stops the restart: its queue is dropped, the operation in flight alone is completed, and the part holds in reset, at once where nothing is in flight (R181); before any other row, and in an idle step, the restart's last step is taken (that one row, and no longer time, is during the restart is the model's choice, log 44). -/
def Obligations.RestartBringsUp : Prop :=
  (∀ (reads : RestartReads) (s : State), s.phase = .active ∨ s.phase = .restart ∨ s.phase = .hold →
    ∃ t, exec (.powerOnRestart reads) s = .next t ∧ restarted .powerOn reads s t)
  ∧ (∀ s : State, s.phase = .restart →
    (∀ i, i ≠ .powerFailAsserted → exec i s = exec i { s with phase := .active })
    ∧ (s.pending = [] → step s = step { s with phase := .active })
    ∧ (s.flight.isSome = true → exec .powerFailAsserted s = .next { s with
        inputs := { s.inputs with powerFail := true }, queue := [], cmd := none, tx := [], rx := ⟨none, false, 0, none⟩
        phase := .flush ⟨.powerFail none, 0, false, false, true⟩ })
    ∧ (s.flight = none → exec .powerFailAsserted s = .next { s with
        inputs := { s.inputs with powerFail := true }, queue := [], cmd := none, tx := [], rx := ⟨none, false, 0, none⟩
        phase := .hold }))
  ∧ (∀ (i : Instr) (f : Flush) (s : State), s.phase = .flush f → f.kind = .powerFail none → f.only = true →
    ((∃ w, s.flight = some (.record w) ∧ i = .recordWriteComplete .clean true)
      ∨ (∃ b second, s.flight = some (.block b second) ∧ i = .blockWriteComplete true)
      ∨ ∃ n, s.flight = some (.release n) ∧ i = .releaseComplete) →
    ∃ t, exec i s = .next t ∧ t.phase = .hold ∧ t.flight = none ∧ t.queue = [])
  ∧ ∀ (reads : RestartReads) (s : State), s.isActive = true → s.settled = true → s.flight = none →
    (∀ l, (s.line l).bound = none) → ∃ t, exec (.linkReset reads) s = .next t ∧ restarted .linkReset reads s t

/-- SLEEP_ENTRY in RUN with IGNITION low: SLEEP at once where no line credits and no command is in progress, else put off, and entered when the command in progress has ended (R187). IGNITION high and a character wake the part: RUN, a sample of each line; the character and those up to and including the next carriage return are discarded, a waking carriage return being no next one (R188; that reading is the model's, log 61, and that COMMAND_LINE is a carriage return is log 35). CLOCK_TICK advances the clock by one second and keeps its dates valid (R186, R197), and takes a moment of its own (the model's choice, log 5). That the store's idle time begins anew at the entry is the model's choice (log 65). -/
def Obligations.SleepWakeAndClock : Prop :=
  (∀ s : State, s.isActive = true → s.settled = true →
    (s.mode = .run → s.inputs.ignition = false →
      ((∀ l, (s.line l).st.crediting = false) → s.cmd = none → exec .sleepEntry s =
        .next { s with mode := .sleep, sleepDue := false, rx := { s.rx with buf := none, gap := 0 }, patrolIdle := 0 })
      ∧ ((∃ l, (s.line l).st.crediting = true) ∨ s.cmd ≠ none → exec .sleepEntry s = .next { s with sleepDue := true })
      ∧ (∀ x, s.sleepDue = true → (∀ l, (s.line l).st.crediting = false) → s.cmd.isSome = true → s.tx = [x] →
          x.ends = true → ∃ t, exec .replyLineSent s = .next t ∧ t.mode = .sleep ∧ t.cmd = none ∧ t.tx = []))
    ∧ (s.mode = .sleep → ∀ wake : Pair Reading,
      (s.inputs.ignition = false → ∃ t, exec (.ignitionHigh wake) s = .next t ∧ t.mode = .run
        ∧ t.inputs = { s.inputs with ignition := true } ∧ (∀ l, (t.meter l).sample = some (wake.get l))
        ∧ { t with
            mode := s.mode, inputs := s.inputs, meters := s.meters, ignitionLow := s.ignitionLow, sleepDue := s.sleepDue
            patrolIdle := s.patrolIdle } = s)
      ∧ (s.sleepDue = false → ∃ t, exec (.linkWake wake) s = .next t ∧ t.mode = .run ∧ t.rx = ⟨none, true, 0, none⟩
        ∧ (∀ l, (t.meter l).sample = some (wake.get l)) ∧ t.cmd = s.cmd ∧ t.tx = s.tx ∧ t.lines = s.lines))
    ∧ (s.mode = .sleep → s.sleepDue = false → ∀ i, (i = .commandLine ∨ ∃ c, i = .characterReceived c) →
      ∃ t, exec i s = .next t ∧ t.mode = .run ∧ t.rx = ⟨none, true, 0, none⟩ ∧ t.cmd = s.cmd ∧ t.tx = s.tx ∧ t.lines = s.lines)
    ∧ exec .clockTick s = .next { s with
        clock := { s.clock with now := nextSecond s.clock.now }, press := s.press.row .clock })
  ∧ (∀ d : DateTime, d.second < 59 → nextSecond d = { d with second := d.second + 1 })
  ∧ nextSecond ⟨2023, 12, 31, 23, 59, 59⟩ = ⟨2024, 1, 1, 0, 0, 0⟩
  ∧ nextSecond ⟨2024, 2, 28, 23, 59, 59⟩ = ⟨2024, 2, 29, 0, 0, 0⟩
  ∧ nextSecond ⟨2023, 2, 28, 23, 59, 59⟩ = ⟨2023, 3, 1, 0, 0, 0⟩
  ∧ ∀ d : DateTime, dateValid d = true → d ≠ ⟨2099, 12, 31, 23, 59, 59⟩ → dateValid (nextSecond d) = true

/-! ## Store events -/

/-- A record write that verifies makes its target the home of the record with one program more and the next sequence number; in place the slot stays, else the old home is RETIRED. A write that fails in place begins a relocation into the least worn FREE slot; one that fails elsewhere retires that slot and tries the next; with no FREE slot left the record is unsaved and its home CONDEMNED (R29, R31, R35, R36). -/
def Obligations.RecordWritesComplete : Prop :=
  ∀ (w : SlotWrite) (n : Nat) (r : Record) (x y : Slot) (s : State), s.isActive = true → s.queue = [] →
    s.flight = some (.record w) → s.unsaved = [] → s.homeOf w.stop = some n → s.recOf w.stop = some r → s.slot n = some x →
    s.slot w.target = some y → y.program < 100000 → s.seq < 4294967295 → x.isInUse = true → w.stop ≠ 0 →
    (n = w.target → ∃ t z, exec (.recordWriteComplete .clean true) s = .next t ∧ t.flight = none ∧ t.seq = s.seq + 1
      ∧ t.slot n = some z ∧ z.st = .inUse (.record r) ∧ z.program = y.program + 1 ∧ z.corr = y.corr
      ∧ z.content = some w.image ∧ z.relocate = false ∧ z.headers.first = ⟨y.program + 1, y.corr, .inUse w.stop s.seq⟩
      ∧ (∀ m, m ≠ n → t.slot m = s.slot m) ∧ sameBlocks s t ∧ t.meters = s.meters ∧ t.pump = s.pump)
    ∧ (n ≠ w.target → y.isFree = true → ∃ t z u, exec (.recordWriteComplete .clean true) s = .next t ∧ t.flight = none
      ∧ t.slot w.target = some z ∧ z.st = .inUse (.record r) ∧ z.program = y.program + 1 ∧ z.content = some w.image
      ∧ t.slot n = some u ∧ u.st = .retired
      ∧ (∀ m, m ≠ n → m ≠ w.target → t.slot m = s.slot m) ∧ sameBlocks s t)
    ∧ (∀ a, n = w.target → s.allocate none = some a → ∃ t z, exec (.recordWriteComplete .clean false) s = .next t
      ∧ t.flight = some (.record { w with target := a, kind := .relocation }) ∧ t.slot n = some z
      ∧ z = { x with relocate := true } ∧ (∀ m, m ≠ n → t.slot m = s.slot m) ∧ t.unsaved = [] ∧ sameBlocks s t)
    ∧ (∀ a, n ≠ w.target → y.isFree = true → s.allocate (some w.target) = some a →
      ∃ t z, exec (.recordWriteComplete .clean false) s = .next t
      ∧ t.flight = some (.record { w with target := a }) ∧ t.slot w.target = some z ∧ z.st = .retired
      ∧ (∀ m, m ≠ w.target → t.slot m = s.slot m) ∧ t.unsaved = [] ∧ sameBlocks s t)
    ∧ (n = w.target → s.allocate none = none → ∃ t z, exec (.recordWriteComplete .clean false) s = .next t
      ∧ t.flight = none ∧ t.slot n = some z ∧ z.st = .condemned r ∧ t.unsaved = [w.stop] ∧ sameBlocks s t)

/-- A block write that verifies leaves its image in the area with its check word computed anew (R50, R155; the word is a free function of the block, log 24) and removes the failed mark; one that fails is made once more with the same image (the model's reading, log 50), and the second failure marks the block failed, its area as it was (log 52) (R46). A release makes its slot FREE with one program more, RETIRED where it was due or held a DAMAGED record (R37). -/
def Obligations.BlockWritesAndReleasesComplete : Prop :=
  (∀ (b : BlockImage) (second : Bool) (s : State), s.isActive = true → s.queue = [] → s.flight = some (.block b second) →
    (∃ t, exec (.blockWriteComplete true) s = .next t ∧ t.flight = none ∧ t.slots = s.slots ∧ sameBlocks s t
      ∧ t.areaSettings = (match b with | .settings v => some ⟨v, Config.checkWord b⟩ | _ => s.areaSettings)
      ∧ t.areaLoad = (match b with | .load v => some ⟨v, Config.checkWord b⟩ | _ => s.areaLoad)
      ∧ t.areaRoute = (match b with | .route v => some ⟨v, Config.checkWord b⟩ | _ => s.areaRoute)
      ∧ t.failed.settings = (match b with | .settings _ => false | _ => s.failed.settings)
      ∧ t.failed.load = (match b with | .load _ => false | _ => s.failed.load)
      ∧ t.failed.route = (match b with | .route _ => false | _ => s.failed.route))
    ∧ (second = false → ∃ t, exec (.blockWriteComplete false) s = .next t ∧ t.flight = some (.block b true)
      ∧ t.slots = s.slots ∧ sameBlocks s t ∧ t.failed = s.failed ∧ t.areaSettings = s.areaSettings
      ∧ t.areaLoad = s.areaLoad ∧ t.areaRoute = s.areaRoute)
    ∧ (second = true → ∃ t, exec (.blockWriteComplete false) s = .next t ∧ t.flight = none ∧ t.slots = s.slots
      ∧ sameBlocks s t ∧ t.areaSettings = s.areaSettings ∧ t.areaLoad = s.areaLoad ∧ t.areaRoute = s.areaRoute
      ∧ t.failed.settings = (match b with | .settings _ => true | _ => s.failed.settings)
      ∧ t.failed.load = (match b with | .load _ => true | _ => s.failed.load)
      ∧ t.failed.route = (match b with | .route _ => true | _ => s.failed.route)))
  ∧ ∀ (n : Nat) (x : Slot) (s : State), s.isActive = true → s.queue = [] → s.flight = some (.release n) → s.unsaved = [] →
    s.slot n = some x → ∃ t y, exec .releaseComplete s = .next t ∧ t.flight = none ∧ t.slot n = some y
      ∧ (∀ m, m ≠ n → t.slot m = s.slot m) ∧ sameBlocks s t
      ∧ (∀ r, x.st = .inUse (.record r) → x.program < 100000 → x.corr < 2 → y.st = .free ∧ y.program = x.program + 1
          ∧ y.corr = x.corr ∧ y.headers.first = ⟨x.program + 1, x.corr, .free⟩)
      ∧ (∀ r, x.st = .inUse (.record r) → 100000 ≤ x.program ∨ 2 ≤ x.corr → y.st = .retired)
      ∧ (∀ stop account, x.st = .inUse (.damaged stop account) → y.st = .retired)

/-- PATROL_IDLE_EXPIRY of an idle store begins a patrol read at the cursor: of the next IN USE slot, in ascending number, that holds a record which is not DAMAGED, going back to the lowest after the highest; none where there is none (R40). The expiry takes a moment of its own (the model's choice, log 5). A corrected read counts and is captured, and the raised count is written to all three header copies with the condition of their majority; an uncorrectable one marks its slot relocate due and asks for the record; the slot is left IN USE. The cursor moves to the next such slot when the read completes (the model's reading, log 50) (R28, R38, R39, R40). -/
def Obligations.PatrolReads : Prop :=
  (∀ (s : State) (n : Nat),
    (s.patrolFrom n = none ↔ ∀ m, ¬ s.patrols m)
    ∧ ∀ m, s.patrolFrom n = some m → s.patrols m
      ∧ ((n ≤ m ∧ ∀ j, n ≤ j → j < m → ¬ s.patrols j)
        ∨ (m < n ∧ (∀ j, n ≤ j → ¬ s.patrols j) ∧ ∀ j, j < m → ¬ s.patrols j)))
  ∧ (∀ s : State, s.isActive = true → s.settled = true → s.mode = .run → s.queue = [] → s.flight = none →
    (∀ n, s.patrolFrom s.patrolCursor = some n →
      exec .patrolIdleExpiry s =
        .next { s with flight := some (.patrol n), patrolIdle := 0, press := s.press.row .patrolIdle }
      ∧ ∃ x r, s.slot n = some x ∧ x.st = .inUse (.record r))
    ∧ (s.patrolFrom s.patrolCursor = none → exec .patrolIdleExpiry s = .next { s with patrolIdle := 0, press := s.press.row .patrolIdle }))
  ∧ ∀ (n : Nat) (x : Slot) (r : Record) (s : State), s.isActive = true → s.queue = [] → s.flight = some (.patrol n) →
    s.slot n = some x → x.st = .inUse (.record r) →
    (∃ t, exec (.patrolReadComplete .clean) s = .next t ∧ t.flight = none ∧ t.slots = s.slots ∧ t.captures = s.captures
      ∧ t.patrolCursor = (s.patrolFrom (n + 1)).getD 1)
    ∧ (∀ offset, x.corr = 0 → ∃ t y, exec (.patrolReadComplete (.corrected offset)) s = .next t ∧ t.flight = none
      ∧ t.slot n = some y ∧ y.corr = 1 ∧ y.st = x.st ∧ y.program = x.program
      ∧ (∀ h, Headers.majority x.headers = some h →
          y.headers = ⟨⟨x.program, 1, h.cond⟩, ⟨x.program, 1, h.cond⟩, ⟨x.program, 1, h.cond⟩⟩)
      ∧ t.captures.latest = some (n, offset % 256) ∧ t.patrolCursor = (s.patrolFrom (n + 1)).getD 1)
    ∧ (∀ offset, x.corr = 1 → x.leaving = false → s.slots.any Slot.isFree = true → ∃ t y,
      exec (.patrolReadComplete (.corrected offset)) s = .next t ∧ t.slot n = some y ∧ y.corr = 2 ∧ y.st = x.st)
    ∧ (x.leaving = false → s.slots.any Slot.isFree = true → ∃ t y,
      exec (.patrolReadComplete .uncorrectable) s = .next t ∧ t.slot n = some y ∧ y.relocate = true ∧ y.st = x.st
      ∧ asked t (.record r.stop) ∧ t.patrolCursor = (s.patrolFrom (n + 1)).getD 1)
end

