-- ==== Sys2Proof/Laws/State.lean ====
section
/-! SUPPORT. What each named update of the state leaves in each field: one lemma per field and update. -/

namespace Sys2Proof.Machine

variable (s : State)

/-! ## modLine -/

@[simp] theorem modLine_pending (l : Line) (f : LineCtx → LineCtx) : (s.modLine l f).pending = s.pending := rfl
@[simp] theorem modLine_counter (l : Line) (f : LineCtx → LineCtx) : (s.modLine l f).counter = s.counter := rfl
@[simp] theorem modLine_slots (l : Line) (f : LineCtx → LineCtx) : (s.modLine l f).slots = s.slots := rfl
@[simp] theorem modLine_queue (l : Line) (f : LineCtx → LineCtx) : (s.modLine l f).queue = s.queue := rfl
@[simp] theorem modLine_flight (l : Line) (f : LineCtx → LineCtx) : (s.modLine l f).flight = s.flight := rfl
@[simp] theorem modLine_unsaved (l : Line) (f : LineCtx → LineCtx) : (s.modLine l f).unsaved = s.unsaved := rfl
@[simp] theorem modLine_captures (l : Line) (f : LineCtx → LineCtx) : (s.modLine l f).captures = s.captures := rfl
@[simp] theorem modLine_seq (l : Line) (f : LineCtx → LineCtx) : (s.modLine l f).seq = s.seq := rfl
@[simp] theorem modLine_patrolCursor (l : Line) (f : LineCtx → LineCtx) : (s.modLine l f).patrolCursor = s.patrolCursor := rfl
@[simp] theorem modLine_patrolIdle (l : Line) (f : LineCtx → LineCtx) : (s.modLine l f).patrolIdle = s.patrolIdle := rfl
@[simp] theorem modLine_areaSettings (l : Line) (f : LineCtx → LineCtx) : (s.modLine l f).areaSettings = s.areaSettings := rfl
@[simp] theorem modLine_areaLoad (l : Line) (f : LineCtx → LineCtx) : (s.modLine l f).areaLoad = s.areaLoad := rfl
@[simp] theorem modLine_areaRoute (l : Line) (f : LineCtx → LineCtx) : (s.modLine l f).areaRoute = s.areaRoute := rfl
@[simp] theorem modLine_failed (l : Line) (f : LineCtx → LineCtx) : (s.modLine l f).failed = s.failed := rfl
@[simp] theorem modLine_settings (l : Line) (f : LineCtx → LineCtx) : (s.modLine l f).settings = s.settings := rfl
@[simp] theorem modLine_load (l : Line) (f : LineCtx → LineCtx) : (s.modLine l f).load = s.load := rfl
@[simp] theorem modLine_route (l : Line) (f : LineCtx → LineCtx) : (s.modLine l f).route = s.route := rfl
@[simp] theorem modLine_meters (l : Line) (f : LineCtx → LineCtx) : (s.modLine l f).meters = s.meters := rfl
@[simp] theorem modLine_lines (l : Line) (f : LineCtx → LineCtx) : (s.modLine l f).lines = s.lines.modify l f := rfl
@[simp] theorem modLine_pump (l : Line) (f : LineCtx → LineCtx) : (s.modLine l f).pump = s.pump := rfl
@[simp] theorem modLine_inputs (l : Line) (f : LineCtx → LineCtx) : (s.modLine l f).inputs = s.inputs := rfl
@[simp] theorem modLine_ignitionLow (l : Line) (f : LineCtx → LineCtx) : (s.modLine l f).ignitionLow = s.ignitionLow := rfl
@[simp] theorem modLine_sleepDue (l : Line) (f : LineCtx → LineCtx) : (s.modLine l f).sleepDue = s.sleepDue := rfl
@[simp] theorem modLine_clock (l : Line) (f : LineCtx → LineCtx) : (s.modLine l f).clock = s.clock := rfl
@[simp] theorem modLine_mode (l : Line) (f : LineCtx → LineCtx) : (s.modLine l f).mode = s.mode := rfl
@[simp] theorem modLine_phase (l : Line) (f : LineCtx → LineCtx) : (s.modLine l f).phase = s.phase := rfl
@[simp] theorem modLine_resetCause (l : Line) (f : LineCtx → LineCtx) : (s.modLine l f).resetCause = s.resetCause := rfl
@[simp] theorem modLine_rx (l : Line) (f : LineCtx → LineCtx) : (s.modLine l f).rx = s.rx := rfl
@[simp] theorem modLine_cmd (l : Line) (f : LineCtx → LineCtx) : (s.modLine l f).cmd = s.cmd := rfl
@[simp] theorem modLine_tx (l : Line) (f : LineCtx → LineCtx) : (s.modLine l f).tx = s.tx := rfl
@[simp] theorem modLine_attention (l : Line) (f : LineCtx → LineCtx) : (s.modLine l f).attention = s.attention := rfl
@[simp] theorem modLine_press (l : Line) (f : LineCtx → LineCtx) : (s.modLine l f).press = s.press := rfl
@[simp] theorem modLine_fresh (l : Line) (f : LineCtx → LineCtx) : (s.modLine l f).fresh = s.fresh := rfl

/-! ## modMeter -/

@[simp] theorem modMeter_pending (l : Line) (f : Meter → Meter) : (s.modMeter l f).pending = s.pending := rfl
@[simp] theorem modMeter_counter (l : Line) (f : Meter → Meter) : (s.modMeter l f).counter = s.counter := rfl
@[simp] theorem modMeter_slots (l : Line) (f : Meter → Meter) : (s.modMeter l f).slots = s.slots := rfl
@[simp] theorem modMeter_queue (l : Line) (f : Meter → Meter) : (s.modMeter l f).queue = s.queue := rfl
@[simp] theorem modMeter_flight (l : Line) (f : Meter → Meter) : (s.modMeter l f).flight = s.flight := rfl
@[simp] theorem modMeter_unsaved (l : Line) (f : Meter → Meter) : (s.modMeter l f).unsaved = s.unsaved := rfl
@[simp] theorem modMeter_captures (l : Line) (f : Meter → Meter) : (s.modMeter l f).captures = s.captures := rfl
@[simp] theorem modMeter_seq (l : Line) (f : Meter → Meter) : (s.modMeter l f).seq = s.seq := rfl
@[simp] theorem modMeter_patrolCursor (l : Line) (f : Meter → Meter) : (s.modMeter l f).patrolCursor = s.patrolCursor := rfl
@[simp] theorem modMeter_patrolIdle (l : Line) (f : Meter → Meter) : (s.modMeter l f).patrolIdle = s.patrolIdle := rfl
@[simp] theorem modMeter_areaSettings (l : Line) (f : Meter → Meter) : (s.modMeter l f).areaSettings = s.areaSettings := rfl
@[simp] theorem modMeter_areaLoad (l : Line) (f : Meter → Meter) : (s.modMeter l f).areaLoad = s.areaLoad := rfl
@[simp] theorem modMeter_areaRoute (l : Line) (f : Meter → Meter) : (s.modMeter l f).areaRoute = s.areaRoute := rfl
@[simp] theorem modMeter_failed (l : Line) (f : Meter → Meter) : (s.modMeter l f).failed = s.failed := rfl
@[simp] theorem modMeter_settings (l : Line) (f : Meter → Meter) : (s.modMeter l f).settings = s.settings := rfl
@[simp] theorem modMeter_load (l : Line) (f : Meter → Meter) : (s.modMeter l f).load = s.load := rfl
@[simp] theorem modMeter_route (l : Line) (f : Meter → Meter) : (s.modMeter l f).route = s.route := rfl
@[simp] theorem modMeter_meters (l : Line) (f : Meter → Meter) : (s.modMeter l f).meters = s.meters.modify l f := rfl
@[simp] theorem modMeter_lines (l : Line) (f : Meter → Meter) : (s.modMeter l f).lines = s.lines := rfl
@[simp] theorem modMeter_pump (l : Line) (f : Meter → Meter) : (s.modMeter l f).pump = s.pump := rfl
@[simp] theorem modMeter_inputs (l : Line) (f : Meter → Meter) : (s.modMeter l f).inputs = s.inputs := rfl
@[simp] theorem modMeter_ignitionLow (l : Line) (f : Meter → Meter) : (s.modMeter l f).ignitionLow = s.ignitionLow := rfl
@[simp] theorem modMeter_sleepDue (l : Line) (f : Meter → Meter) : (s.modMeter l f).sleepDue = s.sleepDue := rfl
@[simp] theorem modMeter_clock (l : Line) (f : Meter → Meter) : (s.modMeter l f).clock = s.clock := rfl
@[simp] theorem modMeter_mode (l : Line) (f : Meter → Meter) : (s.modMeter l f).mode = s.mode := rfl
@[simp] theorem modMeter_phase (l : Line) (f : Meter → Meter) : (s.modMeter l f).phase = s.phase := rfl
@[simp] theorem modMeter_resetCause (l : Line) (f : Meter → Meter) : (s.modMeter l f).resetCause = s.resetCause := rfl
@[simp] theorem modMeter_rx (l : Line) (f : Meter → Meter) : (s.modMeter l f).rx = s.rx := rfl
@[simp] theorem modMeter_cmd (l : Line) (f : Meter → Meter) : (s.modMeter l f).cmd = s.cmd := rfl
@[simp] theorem modMeter_tx (l : Line) (f : Meter → Meter) : (s.modMeter l f).tx = s.tx := rfl
@[simp] theorem modMeter_attention (l : Line) (f : Meter → Meter) : (s.modMeter l f).attention = s.attention := rfl
@[simp] theorem modMeter_press (l : Line) (f : Meter → Meter) : (s.modMeter l f).press = s.press := rfl
@[simp] theorem modMeter_fresh (l : Line) (f : Meter → Meter) : (s.modMeter l f).fresh = s.fresh := rfl

/-! ## modSettings -/

@[simp] theorem modSettings_pending (f : Settings → Settings) : (s.modSettings f).pending = s.pending := rfl
@[simp] theorem modSettings_counter (f : Settings → Settings) : (s.modSettings f).counter = s.counter := rfl
@[simp] theorem modSettings_slots (f : Settings → Settings) : (s.modSettings f).slots = s.slots := rfl
@[simp] theorem modSettings_queue (f : Settings → Settings) : (s.modSettings f).queue = s.queue := rfl
@[simp] theorem modSettings_flight (f : Settings → Settings) : (s.modSettings f).flight = s.flight := rfl
@[simp] theorem modSettings_unsaved (f : Settings → Settings) : (s.modSettings f).unsaved = s.unsaved := rfl
@[simp] theorem modSettings_captures (f : Settings → Settings) : (s.modSettings f).captures = s.captures := rfl
@[simp] theorem modSettings_seq (f : Settings → Settings) : (s.modSettings f).seq = s.seq := rfl
@[simp] theorem modSettings_patrolCursor (f : Settings → Settings) : (s.modSettings f).patrolCursor = s.patrolCursor := rfl
@[simp] theorem modSettings_patrolIdle (f : Settings → Settings) : (s.modSettings f).patrolIdle = s.patrolIdle := rfl
@[simp] theorem modSettings_areaSettings (f : Settings → Settings) : (s.modSettings f).areaSettings = s.areaSettings := rfl
@[simp] theorem modSettings_areaLoad (f : Settings → Settings) : (s.modSettings f).areaLoad = s.areaLoad := rfl
@[simp] theorem modSettings_areaRoute (f : Settings → Settings) : (s.modSettings f).areaRoute = s.areaRoute := rfl
@[simp] theorem modSettings_failed (f : Settings → Settings) : (s.modSettings f).failed = s.failed := rfl
@[simp] theorem modSettings_settings (f : Settings → Settings) : (s.modSettings f).settings = f s.settings := rfl
@[simp] theorem modSettings_load (f : Settings → Settings) : (s.modSettings f).load = s.load := rfl
@[simp] theorem modSettings_route (f : Settings → Settings) : (s.modSettings f).route = s.route := rfl
@[simp] theorem modSettings_meters (f : Settings → Settings) : (s.modSettings f).meters = s.meters := rfl
@[simp] theorem modSettings_lines (f : Settings → Settings) : (s.modSettings f).lines = s.lines := rfl
@[simp] theorem modSettings_pump (f : Settings → Settings) : (s.modSettings f).pump = s.pump := rfl
@[simp] theorem modSettings_inputs (f : Settings → Settings) : (s.modSettings f).inputs = s.inputs := rfl
@[simp] theorem modSettings_ignitionLow (f : Settings → Settings) : (s.modSettings f).ignitionLow = s.ignitionLow := rfl
@[simp] theorem modSettings_sleepDue (f : Settings → Settings) : (s.modSettings f).sleepDue = s.sleepDue := rfl
@[simp] theorem modSettings_clock (f : Settings → Settings) : (s.modSettings f).clock = s.clock := rfl
@[simp] theorem modSettings_mode (f : Settings → Settings) : (s.modSettings f).mode = s.mode := rfl
@[simp] theorem modSettings_phase (f : Settings → Settings) : (s.modSettings f).phase = s.phase := rfl
@[simp] theorem modSettings_resetCause (f : Settings → Settings) : (s.modSettings f).resetCause = s.resetCause := rfl
@[simp] theorem modSettings_rx (f : Settings → Settings) : (s.modSettings f).rx = s.rx := rfl
@[simp] theorem modSettings_cmd (f : Settings → Settings) : (s.modSettings f).cmd = s.cmd := rfl
@[simp] theorem modSettings_tx (f : Settings → Settings) : (s.modSettings f).tx = s.tx := rfl
@[simp] theorem modSettings_attention (f : Settings → Settings) : (s.modSettings f).attention = s.attention := rfl
@[simp] theorem modSettings_press (f : Settings → Settings) : (s.modSettings f).press = s.press := rfl
@[simp] theorem modSettings_fresh (f : Settings → Settings) : (s.modSettings f).fresh = s.fresh := rfl

/-! ## modLoad -/

@[simp] theorem modLoad_pending (f : LoadBlock → LoadBlock) : (s.modLoad f).pending = s.pending := rfl
@[simp] theorem modLoad_counter (f : LoadBlock → LoadBlock) : (s.modLoad f).counter = s.counter := rfl
@[simp] theorem modLoad_slots (f : LoadBlock → LoadBlock) : (s.modLoad f).slots = s.slots := rfl
@[simp] theorem modLoad_queue (f : LoadBlock → LoadBlock) : (s.modLoad f).queue = s.queue := rfl
@[simp] theorem modLoad_flight (f : LoadBlock → LoadBlock) : (s.modLoad f).flight = s.flight := rfl
@[simp] theorem modLoad_unsaved (f : LoadBlock → LoadBlock) : (s.modLoad f).unsaved = s.unsaved := rfl
@[simp] theorem modLoad_captures (f : LoadBlock → LoadBlock) : (s.modLoad f).captures = s.captures := rfl
@[simp] theorem modLoad_seq (f : LoadBlock → LoadBlock) : (s.modLoad f).seq = s.seq := rfl
@[simp] theorem modLoad_patrolCursor (f : LoadBlock → LoadBlock) : (s.modLoad f).patrolCursor = s.patrolCursor := rfl
@[simp] theorem modLoad_patrolIdle (f : LoadBlock → LoadBlock) : (s.modLoad f).patrolIdle = s.patrolIdle := rfl
@[simp] theorem modLoad_areaSettings (f : LoadBlock → LoadBlock) : (s.modLoad f).areaSettings = s.areaSettings := rfl
@[simp] theorem modLoad_areaLoad (f : LoadBlock → LoadBlock) : (s.modLoad f).areaLoad = s.areaLoad := rfl
@[simp] theorem modLoad_areaRoute (f : LoadBlock → LoadBlock) : (s.modLoad f).areaRoute = s.areaRoute := rfl
@[simp] theorem modLoad_failed (f : LoadBlock → LoadBlock) : (s.modLoad f).failed = s.failed := rfl
@[simp] theorem modLoad_settings (f : LoadBlock → LoadBlock) : (s.modLoad f).settings = s.settings := rfl
@[simp] theorem modLoad_load (f : LoadBlock → LoadBlock) : (s.modLoad f).load = f s.load := rfl
@[simp] theorem modLoad_route (f : LoadBlock → LoadBlock) : (s.modLoad f).route = s.route := rfl
@[simp] theorem modLoad_meters (f : LoadBlock → LoadBlock) : (s.modLoad f).meters = s.meters := rfl
@[simp] theorem modLoad_lines (f : LoadBlock → LoadBlock) : (s.modLoad f).lines = s.lines := rfl
@[simp] theorem modLoad_pump (f : LoadBlock → LoadBlock) : (s.modLoad f).pump = s.pump := rfl
@[simp] theorem modLoad_inputs (f : LoadBlock → LoadBlock) : (s.modLoad f).inputs = s.inputs := rfl
@[simp] theorem modLoad_ignitionLow (f : LoadBlock → LoadBlock) : (s.modLoad f).ignitionLow = s.ignitionLow := rfl
@[simp] theorem modLoad_sleepDue (f : LoadBlock → LoadBlock) : (s.modLoad f).sleepDue = s.sleepDue := rfl
@[simp] theorem modLoad_clock (f : LoadBlock → LoadBlock) : (s.modLoad f).clock = s.clock := rfl
@[simp] theorem modLoad_mode (f : LoadBlock → LoadBlock) : (s.modLoad f).mode = s.mode := rfl
@[simp] theorem modLoad_phase (f : LoadBlock → LoadBlock) : (s.modLoad f).phase = s.phase := rfl
@[simp] theorem modLoad_resetCause (f : LoadBlock → LoadBlock) : (s.modLoad f).resetCause = s.resetCause := rfl
@[simp] theorem modLoad_rx (f : LoadBlock → LoadBlock) : (s.modLoad f).rx = s.rx := rfl
@[simp] theorem modLoad_cmd (f : LoadBlock → LoadBlock) : (s.modLoad f).cmd = s.cmd := rfl
@[simp] theorem modLoad_tx (f : LoadBlock → LoadBlock) : (s.modLoad f).tx = s.tx := rfl
@[simp] theorem modLoad_attention (f : LoadBlock → LoadBlock) : (s.modLoad f).attention = s.attention := rfl
@[simp] theorem modLoad_press (f : LoadBlock → LoadBlock) : (s.modLoad f).press = s.press := rfl
@[simp] theorem modLoad_fresh (f : LoadBlock → LoadBlock) : (s.modLoad f).fresh = s.fresh := rfl

/-! ## modRoute -/

@[simp] theorem modRoute_pending (f : RouteBlock → RouteBlock) : (s.modRoute f).pending = s.pending := rfl
@[simp] theorem modRoute_counter (f : RouteBlock → RouteBlock) : (s.modRoute f).counter = s.counter := rfl
@[simp] theorem modRoute_slots (f : RouteBlock → RouteBlock) : (s.modRoute f).slots = s.slots := rfl
@[simp] theorem modRoute_queue (f : RouteBlock → RouteBlock) : (s.modRoute f).queue = s.queue := rfl
@[simp] theorem modRoute_flight (f : RouteBlock → RouteBlock) : (s.modRoute f).flight = s.flight := rfl
@[simp] theorem modRoute_unsaved (f : RouteBlock → RouteBlock) : (s.modRoute f).unsaved = s.unsaved := rfl
@[simp] theorem modRoute_captures (f : RouteBlock → RouteBlock) : (s.modRoute f).captures = s.captures := rfl
@[simp] theorem modRoute_seq (f : RouteBlock → RouteBlock) : (s.modRoute f).seq = s.seq := rfl
@[simp] theorem modRoute_patrolCursor (f : RouteBlock → RouteBlock) : (s.modRoute f).patrolCursor = s.patrolCursor := rfl
@[simp] theorem modRoute_patrolIdle (f : RouteBlock → RouteBlock) : (s.modRoute f).patrolIdle = s.patrolIdle := rfl
@[simp] theorem modRoute_areaSettings (f : RouteBlock → RouteBlock) : (s.modRoute f).areaSettings = s.areaSettings := rfl
@[simp] theorem modRoute_areaLoad (f : RouteBlock → RouteBlock) : (s.modRoute f).areaLoad = s.areaLoad := rfl
@[simp] theorem modRoute_areaRoute (f : RouteBlock → RouteBlock) : (s.modRoute f).areaRoute = s.areaRoute := rfl
@[simp] theorem modRoute_failed (f : RouteBlock → RouteBlock) : (s.modRoute f).failed = s.failed := rfl
@[simp] theorem modRoute_settings (f : RouteBlock → RouteBlock) : (s.modRoute f).settings = s.settings := rfl
@[simp] theorem modRoute_load (f : RouteBlock → RouteBlock) : (s.modRoute f).load = s.load := rfl
@[simp] theorem modRoute_route (f : RouteBlock → RouteBlock) : (s.modRoute f).route = f s.route := rfl
@[simp] theorem modRoute_meters (f : RouteBlock → RouteBlock) : (s.modRoute f).meters = s.meters := rfl
@[simp] theorem modRoute_lines (f : RouteBlock → RouteBlock) : (s.modRoute f).lines = s.lines := rfl
@[simp] theorem modRoute_pump (f : RouteBlock → RouteBlock) : (s.modRoute f).pump = s.pump := rfl
@[simp] theorem modRoute_inputs (f : RouteBlock → RouteBlock) : (s.modRoute f).inputs = s.inputs := rfl
@[simp] theorem modRoute_ignitionLow (f : RouteBlock → RouteBlock) : (s.modRoute f).ignitionLow = s.ignitionLow := rfl
@[simp] theorem modRoute_sleepDue (f : RouteBlock → RouteBlock) : (s.modRoute f).sleepDue = s.sleepDue := rfl
@[simp] theorem modRoute_clock (f : RouteBlock → RouteBlock) : (s.modRoute f).clock = s.clock := rfl
@[simp] theorem modRoute_mode (f : RouteBlock → RouteBlock) : (s.modRoute f).mode = s.mode := rfl
@[simp] theorem modRoute_phase (f : RouteBlock → RouteBlock) : (s.modRoute f).phase = s.phase := rfl
@[simp] theorem modRoute_resetCause (f : RouteBlock → RouteBlock) : (s.modRoute f).resetCause = s.resetCause := rfl
@[simp] theorem modRoute_rx (f : RouteBlock → RouteBlock) : (s.modRoute f).rx = s.rx := rfl
@[simp] theorem modRoute_cmd (f : RouteBlock → RouteBlock) : (s.modRoute f).cmd = s.cmd := rfl
@[simp] theorem modRoute_tx (f : RouteBlock → RouteBlock) : (s.modRoute f).tx = s.tx := rfl
@[simp] theorem modRoute_attention (f : RouteBlock → RouteBlock) : (s.modRoute f).attention = s.attention := rfl
@[simp] theorem modRoute_press (f : RouteBlock → RouteBlock) : (s.modRoute f).press = s.press := rfl
@[simp] theorem modRoute_fresh (f : RouteBlock → RouteBlock) : (s.modRoute f).fresh = s.fresh := rfl

/-! ## modSlot -/

@[simp] theorem modSlot_pending (n : Nat) (f : Slot → Slot) : (s.modSlot n f).pending = s.pending := rfl
@[simp] theorem modSlot_counter (n : Nat) (f : Slot → Slot) : (s.modSlot n f).counter = s.counter := rfl
@[simp] theorem modSlot_slots (n : Nat) (f : Slot → Slot) : (s.modSlot n f).slots = modNth1 s.slots n f := rfl
@[simp] theorem modSlot_queue (n : Nat) (f : Slot → Slot) : (s.modSlot n f).queue = s.queue := rfl
@[simp] theorem modSlot_flight (n : Nat) (f : Slot → Slot) : (s.modSlot n f).flight = s.flight := rfl
@[simp] theorem modSlot_unsaved (n : Nat) (f : Slot → Slot) : (s.modSlot n f).unsaved = s.unsaved := rfl
@[simp] theorem modSlot_captures (n : Nat) (f : Slot → Slot) : (s.modSlot n f).captures = s.captures := rfl
@[simp] theorem modSlot_seq (n : Nat) (f : Slot → Slot) : (s.modSlot n f).seq = s.seq := rfl
@[simp] theorem modSlot_patrolCursor (n : Nat) (f : Slot → Slot) : (s.modSlot n f).patrolCursor = s.patrolCursor := rfl
@[simp] theorem modSlot_patrolIdle (n : Nat) (f : Slot → Slot) : (s.modSlot n f).patrolIdle = s.patrolIdle := rfl
@[simp] theorem modSlot_areaSettings (n : Nat) (f : Slot → Slot) : (s.modSlot n f).areaSettings = s.areaSettings := rfl
@[simp] theorem modSlot_areaLoad (n : Nat) (f : Slot → Slot) : (s.modSlot n f).areaLoad = s.areaLoad := rfl
@[simp] theorem modSlot_areaRoute (n : Nat) (f : Slot → Slot) : (s.modSlot n f).areaRoute = s.areaRoute := rfl
@[simp] theorem modSlot_failed (n : Nat) (f : Slot → Slot) : (s.modSlot n f).failed = s.failed := rfl
@[simp] theorem modSlot_settings (n : Nat) (f : Slot → Slot) : (s.modSlot n f).settings = s.settings := rfl
@[simp] theorem modSlot_load (n : Nat) (f : Slot → Slot) : (s.modSlot n f).load = s.load := rfl
@[simp] theorem modSlot_route (n : Nat) (f : Slot → Slot) : (s.modSlot n f).route = s.route := rfl
@[simp] theorem modSlot_meters (n : Nat) (f : Slot → Slot) : (s.modSlot n f).meters = s.meters := rfl
@[simp] theorem modSlot_lines (n : Nat) (f : Slot → Slot) : (s.modSlot n f).lines = s.lines := rfl
@[simp] theorem modSlot_pump (n : Nat) (f : Slot → Slot) : (s.modSlot n f).pump = s.pump := rfl
@[simp] theorem modSlot_inputs (n : Nat) (f : Slot → Slot) : (s.modSlot n f).inputs = s.inputs := rfl
@[simp] theorem modSlot_ignitionLow (n : Nat) (f : Slot → Slot) : (s.modSlot n f).ignitionLow = s.ignitionLow := rfl
@[simp] theorem modSlot_sleepDue (n : Nat) (f : Slot → Slot) : (s.modSlot n f).sleepDue = s.sleepDue := rfl
@[simp] theorem modSlot_clock (n : Nat) (f : Slot → Slot) : (s.modSlot n f).clock = s.clock := rfl
@[simp] theorem modSlot_mode (n : Nat) (f : Slot → Slot) : (s.modSlot n f).mode = s.mode := rfl
@[simp] theorem modSlot_phase (n : Nat) (f : Slot → Slot) : (s.modSlot n f).phase = s.phase := rfl
@[simp] theorem modSlot_resetCause (n : Nat) (f : Slot → Slot) : (s.modSlot n f).resetCause = s.resetCause := rfl
@[simp] theorem modSlot_rx (n : Nat) (f : Slot → Slot) : (s.modSlot n f).rx = s.rx := rfl
@[simp] theorem modSlot_cmd (n : Nat) (f : Slot → Slot) : (s.modSlot n f).cmd = s.cmd := rfl
@[simp] theorem modSlot_tx (n : Nat) (f : Slot → Slot) : (s.modSlot n f).tx = s.tx := rfl
@[simp] theorem modSlot_attention (n : Nat) (f : Slot → Slot) : (s.modSlot n f).attention = s.attention := rfl
@[simp] theorem modSlot_press (n : Nat) (f : Slot → Slot) : (s.modSlot n f).press = s.press := rfl
@[simp] theorem modSlot_fresh (n : Nat) (f : Slot → Slot) : (s.modSlot n f).fresh = s.fresh := rfl

/-! ## modRec -/

@[simp] theorem modRec_pending (n : Nat) (f : Record → Record) : (s.modRec n f).pending = s.pending := rfl
@[simp] theorem modRec_counter (n : Nat) (f : Record → Record) : (s.modRec n f).counter = s.counter := rfl
@[simp] theorem modRec_slots (n : Nat) (f : Record → Record) : (s.modRec n f).slots = s.slots.map (Slot.modRecord n f) := rfl
@[simp] theorem modRec_queue (n : Nat) (f : Record → Record) : (s.modRec n f).queue = s.queue := rfl
@[simp] theorem modRec_flight (n : Nat) (f : Record → Record) : (s.modRec n f).flight = s.flight := rfl
@[simp] theorem modRec_unsaved (n : Nat) (f : Record → Record) : (s.modRec n f).unsaved = s.unsaved := rfl
@[simp] theorem modRec_captures (n : Nat) (f : Record → Record) : (s.modRec n f).captures = s.captures := rfl
@[simp] theorem modRec_seq (n : Nat) (f : Record → Record) : (s.modRec n f).seq = s.seq := rfl
@[simp] theorem modRec_patrolCursor (n : Nat) (f : Record → Record) : (s.modRec n f).patrolCursor = s.patrolCursor := rfl
@[simp] theorem modRec_patrolIdle (n : Nat) (f : Record → Record) : (s.modRec n f).patrolIdle = s.patrolIdle := rfl
@[simp] theorem modRec_areaSettings (n : Nat) (f : Record → Record) : (s.modRec n f).areaSettings = s.areaSettings := rfl
@[simp] theorem modRec_areaLoad (n : Nat) (f : Record → Record) : (s.modRec n f).areaLoad = s.areaLoad := rfl
@[simp] theorem modRec_areaRoute (n : Nat) (f : Record → Record) : (s.modRec n f).areaRoute = s.areaRoute := rfl
@[simp] theorem modRec_failed (n : Nat) (f : Record → Record) : (s.modRec n f).failed = s.failed := rfl
@[simp] theorem modRec_settings (n : Nat) (f : Record → Record) : (s.modRec n f).settings = s.settings := rfl
@[simp] theorem modRec_load (n : Nat) (f : Record → Record) : (s.modRec n f).load = s.load := rfl
@[simp] theorem modRec_route (n : Nat) (f : Record → Record) : (s.modRec n f).route = s.route := rfl
@[simp] theorem modRec_meters (n : Nat) (f : Record → Record) : (s.modRec n f).meters = s.meters := rfl
@[simp] theorem modRec_lines (n : Nat) (f : Record → Record) : (s.modRec n f).lines = s.lines := rfl
@[simp] theorem modRec_pump (n : Nat) (f : Record → Record) : (s.modRec n f).pump = s.pump := rfl
@[simp] theorem modRec_inputs (n : Nat) (f : Record → Record) : (s.modRec n f).inputs = s.inputs := rfl
@[simp] theorem modRec_ignitionLow (n : Nat) (f : Record → Record) : (s.modRec n f).ignitionLow = s.ignitionLow := rfl
@[simp] theorem modRec_sleepDue (n : Nat) (f : Record → Record) : (s.modRec n f).sleepDue = s.sleepDue := rfl
@[simp] theorem modRec_clock (n : Nat) (f : Record → Record) : (s.modRec n f).clock = s.clock := rfl
@[simp] theorem modRec_mode (n : Nat) (f : Record → Record) : (s.modRec n f).mode = s.mode := rfl
@[simp] theorem modRec_phase (n : Nat) (f : Record → Record) : (s.modRec n f).phase = s.phase := rfl
@[simp] theorem modRec_resetCause (n : Nat) (f : Record → Record) : (s.modRec n f).resetCause = s.resetCause := rfl
@[simp] theorem modRec_rx (n : Nat) (f : Record → Record) : (s.modRec n f).rx = s.rx := rfl
@[simp] theorem modRec_cmd (n : Nat) (f : Record → Record) : (s.modRec n f).cmd = s.cmd := rfl
@[simp] theorem modRec_tx (n : Nat) (f : Record → Record) : (s.modRec n f).tx = s.tx := rfl
@[simp] theorem modRec_attention (n : Nat) (f : Record → Record) : (s.modRec n f).attention = s.attention := rfl
@[simp] theorem modRec_press (n : Nat) (f : Record → Record) : (s.modRec n f).press = s.press := rfl
@[simp] theorem modRec_fresh (n : Nat) (f : Record → Record) : (s.modRec n f).fresh = s.fresh := rfl

/-! ## requeue -/

@[simp] theorem requeue_pending (k : Key) : (s.requeue k).pending = s.pending := rfl
@[simp] theorem requeue_counter (k : Key) : (s.requeue k).counter = s.counter := rfl
@[simp] theorem requeue_slots (k : Key) : (s.requeue k).slots = s.slots := rfl
@[simp] theorem requeue_queue (k : Key) : (s.requeue k).queue = s.queue.erase k ++ [k] := rfl
@[simp] theorem requeue_flight (k : Key) : (s.requeue k).flight = s.flight := rfl
@[simp] theorem requeue_unsaved (k : Key) : (s.requeue k).unsaved = s.unsaved := rfl
@[simp] theorem requeue_captures (k : Key) : (s.requeue k).captures = s.captures := rfl
@[simp] theorem requeue_seq (k : Key) : (s.requeue k).seq = s.seq := rfl
@[simp] theorem requeue_patrolCursor (k : Key) : (s.requeue k).patrolCursor = s.patrolCursor := rfl
@[simp] theorem requeue_patrolIdle (k : Key) : (s.requeue k).patrolIdle = s.patrolIdle := rfl
@[simp] theorem requeue_areaSettings (k : Key) : (s.requeue k).areaSettings = s.areaSettings := rfl
@[simp] theorem requeue_areaLoad (k : Key) : (s.requeue k).areaLoad = s.areaLoad := rfl
@[simp] theorem requeue_areaRoute (k : Key) : (s.requeue k).areaRoute = s.areaRoute := rfl
@[simp] theorem requeue_failed (k : Key) : (s.requeue k).failed = s.failed := rfl
@[simp] theorem requeue_settings (k : Key) : (s.requeue k).settings = s.settings := rfl
@[simp] theorem requeue_load (k : Key) : (s.requeue k).load = s.load := rfl
@[simp] theorem requeue_route (k : Key) : (s.requeue k).route = s.route := rfl
@[simp] theorem requeue_meters (k : Key) : (s.requeue k).meters = s.meters := rfl
@[simp] theorem requeue_lines (k : Key) : (s.requeue k).lines = s.lines := rfl
@[simp] theorem requeue_pump (k : Key) : (s.requeue k).pump = s.pump := rfl
@[simp] theorem requeue_inputs (k : Key) : (s.requeue k).inputs = s.inputs := rfl
@[simp] theorem requeue_ignitionLow (k : Key) : (s.requeue k).ignitionLow = s.ignitionLow := rfl
@[simp] theorem requeue_sleepDue (k : Key) : (s.requeue k).sleepDue = s.sleepDue := rfl
@[simp] theorem requeue_clock (k : Key) : (s.requeue k).clock = s.clock := rfl
@[simp] theorem requeue_mode (k : Key) : (s.requeue k).mode = s.mode := rfl
@[simp] theorem requeue_phase (k : Key) : (s.requeue k).phase = s.phase := rfl
@[simp] theorem requeue_resetCause (k : Key) : (s.requeue k).resetCause = s.resetCause := rfl
@[simp] theorem requeue_rx (k : Key) : (s.requeue k).rx = s.rx := rfl
@[simp] theorem requeue_cmd (k : Key) : (s.requeue k).cmd = s.cmd := rfl
@[simp] theorem requeue_tx (k : Key) : (s.requeue k).tx = s.tx := rfl
@[simp] theorem requeue_attention (k : Key) : (s.requeue k).attention = s.attention := rfl
@[simp] theorem requeue_press (k : Key) : (s.requeue k).press = s.press := rfl
@[simp] theorem requeue_fresh (k : Key) : (s.requeue k).fresh = s.fresh := rfl

/-! ## setAttention -/

@[simp] theorem setAttention_pending (l : Line) : (s.setAttention l).pending = s.pending := rfl
@[simp] theorem setAttention_counter (l : Line) : (s.setAttention l).counter = s.counter := rfl
@[simp] theorem setAttention_slots (l : Line) : (s.setAttention l).slots = s.slots := rfl
@[simp] theorem setAttention_queue (l : Line) : (s.setAttention l).queue = s.queue := rfl
@[simp] theorem setAttention_flight (l : Line) : (s.setAttention l).flight = s.flight := rfl
@[simp] theorem setAttention_unsaved (l : Line) : (s.setAttention l).unsaved = s.unsaved := rfl
@[simp] theorem setAttention_captures (l : Line) : (s.setAttention l).captures = s.captures := rfl
@[simp] theorem setAttention_seq (l : Line) : (s.setAttention l).seq = s.seq := rfl
@[simp] theorem setAttention_patrolCursor (l : Line) : (s.setAttention l).patrolCursor = s.patrolCursor := rfl
@[simp] theorem setAttention_patrolIdle (l : Line) : (s.setAttention l).patrolIdle = s.patrolIdle := rfl
@[simp] theorem setAttention_areaSettings (l : Line) : (s.setAttention l).areaSettings = s.areaSettings := rfl
@[simp] theorem setAttention_areaLoad (l : Line) : (s.setAttention l).areaLoad = s.areaLoad := rfl
@[simp] theorem setAttention_areaRoute (l : Line) : (s.setAttention l).areaRoute = s.areaRoute := rfl
@[simp] theorem setAttention_failed (l : Line) : (s.setAttention l).failed = s.failed := rfl
@[simp] theorem setAttention_settings (l : Line) : (s.setAttention l).settings = s.settings := rfl
@[simp] theorem setAttention_load (l : Line) : (s.setAttention l).load = s.load := rfl
@[simp] theorem setAttention_route (l : Line) : (s.setAttention l).route = s.route := rfl
@[simp] theorem setAttention_meters (l : Line) : (s.setAttention l).meters = s.meters := rfl
@[simp] theorem setAttention_lines (l : Line) : (s.setAttention l).lines = s.lines := rfl
@[simp] theorem setAttention_pump (l : Line) : (s.setAttention l).pump = s.pump := rfl
@[simp] theorem setAttention_inputs (l : Line) : (s.setAttention l).inputs = s.inputs := rfl
@[simp] theorem setAttention_ignitionLow (l : Line) : (s.setAttention l).ignitionLow = s.ignitionLow := rfl
@[simp] theorem setAttention_sleepDue (l : Line) : (s.setAttention l).sleepDue = s.sleepDue := rfl
@[simp] theorem setAttention_clock (l : Line) : (s.setAttention l).clock = s.clock := rfl
@[simp] theorem setAttention_mode (l : Line) : (s.setAttention l).mode = s.mode := rfl
@[simp] theorem setAttention_phase (l : Line) : (s.setAttention l).phase = s.phase := rfl
@[simp] theorem setAttention_resetCause (l : Line) : (s.setAttention l).resetCause = s.resetCause := rfl
@[simp] theorem setAttention_rx (l : Line) : (s.setAttention l).rx = s.rx := rfl
@[simp] theorem setAttention_cmd (l : Line) : (s.setAttention l).cmd = s.cmd := rfl
@[simp] theorem setAttention_tx (l : Line) : (s.setAttention l).tx = s.tx := rfl
@[simp] theorem setAttention_attention (l : Line) : (s.setAttention l).attention = s.attention.set l true := rfl
@[simp] theorem setAttention_press (l : Line) : (s.setAttention l).press = s.press := rfl
@[simp] theorem setAttention_fresh (l : Line) : (s.setAttention l).fresh = s.fresh := rfl

/-! ## timeRow -/

@[simp] theorem timeRow_pending (k : TimeRow) : (s.timeRow k).pending = s.pending := rfl
@[simp] theorem timeRow_counter (k : TimeRow) : (s.timeRow k).counter = s.counter := rfl
@[simp] theorem timeRow_slots (k : TimeRow) : (s.timeRow k).slots = s.slots := rfl
@[simp] theorem timeRow_queue (k : TimeRow) : (s.timeRow k).queue = s.queue := rfl
@[simp] theorem timeRow_flight (k : TimeRow) : (s.timeRow k).flight = s.flight := rfl
@[simp] theorem timeRow_unsaved (k : TimeRow) : (s.timeRow k).unsaved = s.unsaved := rfl
@[simp] theorem timeRow_captures (k : TimeRow) : (s.timeRow k).captures = s.captures := rfl
@[simp] theorem timeRow_seq (k : TimeRow) : (s.timeRow k).seq = s.seq := rfl
@[simp] theorem timeRow_patrolCursor (k : TimeRow) : (s.timeRow k).patrolCursor = s.patrolCursor := rfl
@[simp] theorem timeRow_patrolIdle (k : TimeRow) : (s.timeRow k).patrolIdle = s.patrolIdle := rfl
@[simp] theorem timeRow_areaSettings (k : TimeRow) : (s.timeRow k).areaSettings = s.areaSettings := rfl
@[simp] theorem timeRow_areaLoad (k : TimeRow) : (s.timeRow k).areaLoad = s.areaLoad := rfl
@[simp] theorem timeRow_areaRoute (k : TimeRow) : (s.timeRow k).areaRoute = s.areaRoute := rfl
@[simp] theorem timeRow_failed (k : TimeRow) : (s.timeRow k).failed = s.failed := rfl
@[simp] theorem timeRow_settings (k : TimeRow) : (s.timeRow k).settings = s.settings := rfl
@[simp] theorem timeRow_load (k : TimeRow) : (s.timeRow k).load = s.load := rfl
@[simp] theorem timeRow_route (k : TimeRow) : (s.timeRow k).route = s.route := rfl
@[simp] theorem timeRow_meters (k : TimeRow) : (s.timeRow k).meters = s.meters := rfl
@[simp] theorem timeRow_lines (k : TimeRow) : (s.timeRow k).lines = s.lines := rfl
@[simp] theorem timeRow_pump (k : TimeRow) : (s.timeRow k).pump = s.pump := rfl
@[simp] theorem timeRow_inputs (k : TimeRow) : (s.timeRow k).inputs = s.inputs := rfl
@[simp] theorem timeRow_ignitionLow (k : TimeRow) : (s.timeRow k).ignitionLow = s.ignitionLow := rfl
@[simp] theorem timeRow_sleepDue (k : TimeRow) : (s.timeRow k).sleepDue = s.sleepDue := rfl
@[simp] theorem timeRow_clock (k : TimeRow) : (s.timeRow k).clock = s.clock := rfl
@[simp] theorem timeRow_mode (k : TimeRow) : (s.timeRow k).mode = s.mode := rfl
@[simp] theorem timeRow_phase (k : TimeRow) : (s.timeRow k).phase = s.phase := rfl
@[simp] theorem timeRow_resetCause (k : TimeRow) : (s.timeRow k).resetCause = s.resetCause := rfl
@[simp] theorem timeRow_rx (k : TimeRow) : (s.timeRow k).rx = s.rx := rfl
@[simp] theorem timeRow_cmd (k : TimeRow) : (s.timeRow k).cmd = s.cmd := rfl
@[simp] theorem timeRow_tx (k : TimeRow) : (s.timeRow k).tx = s.tx := rfl
@[simp] theorem timeRow_attention (k : TimeRow) : (s.timeRow k).attention = s.attention := rfl
@[simp] theorem timeRow_press (k : TimeRow) : (s.timeRow k).press = s.press.row k := rfl
@[simp] theorem timeRow_fresh (k : TimeRow) : (s.timeRow k).fresh = s.fresh := rfl

/-! ## ready -/

@[simp] theorem ready_pending (xs : List ReplyLine) : (s.ready xs).pending = s.pending := rfl
@[simp] theorem ready_counter (xs : List ReplyLine) : (s.ready xs).counter = s.counter := rfl
@[simp] theorem ready_slots (xs : List ReplyLine) : (s.ready xs).slots = s.slots := rfl
@[simp] theorem ready_queue (xs : List ReplyLine) : (s.ready xs).queue = s.queue := rfl
@[simp] theorem ready_flight (xs : List ReplyLine) : (s.ready xs).flight = s.flight := rfl
@[simp] theorem ready_unsaved (xs : List ReplyLine) : (s.ready xs).unsaved = s.unsaved := rfl
@[simp] theorem ready_captures (xs : List ReplyLine) : (s.ready xs).captures = s.captures := rfl
@[simp] theorem ready_seq (xs : List ReplyLine) : (s.ready xs).seq = s.seq := rfl
@[simp] theorem ready_patrolCursor (xs : List ReplyLine) : (s.ready xs).patrolCursor = s.patrolCursor := rfl
@[simp] theorem ready_patrolIdle (xs : List ReplyLine) : (s.ready xs).patrolIdle = s.patrolIdle := rfl
@[simp] theorem ready_areaSettings (xs : List ReplyLine) : (s.ready xs).areaSettings = s.areaSettings := rfl
@[simp] theorem ready_areaLoad (xs : List ReplyLine) : (s.ready xs).areaLoad = s.areaLoad := rfl
@[simp] theorem ready_areaRoute (xs : List ReplyLine) : (s.ready xs).areaRoute = s.areaRoute := rfl
@[simp] theorem ready_failed (xs : List ReplyLine) : (s.ready xs).failed = s.failed := rfl
@[simp] theorem ready_settings (xs : List ReplyLine) : (s.ready xs).settings = s.settings := rfl
@[simp] theorem ready_load (xs : List ReplyLine) : (s.ready xs).load = s.load := rfl
@[simp] theorem ready_route (xs : List ReplyLine) : (s.ready xs).route = s.route := rfl
@[simp] theorem ready_meters (xs : List ReplyLine) : (s.ready xs).meters = s.meters := rfl
@[simp] theorem ready_lines (xs : List ReplyLine) : (s.ready xs).lines = s.lines := rfl
@[simp] theorem ready_pump (xs : List ReplyLine) : (s.ready xs).pump = s.pump := rfl
@[simp] theorem ready_inputs (xs : List ReplyLine) : (s.ready xs).inputs = s.inputs := rfl
@[simp] theorem ready_ignitionLow (xs : List ReplyLine) : (s.ready xs).ignitionLow = s.ignitionLow := rfl
@[simp] theorem ready_sleepDue (xs : List ReplyLine) : (s.ready xs).sleepDue = s.sleepDue := rfl
@[simp] theorem ready_clock (xs : List ReplyLine) : (s.ready xs).clock = s.clock := rfl
@[simp] theorem ready_mode (xs : List ReplyLine) : (s.ready xs).mode = s.mode := rfl
@[simp] theorem ready_phase (xs : List ReplyLine) : (s.ready xs).phase = s.phase := rfl
@[simp] theorem ready_resetCause (xs : List ReplyLine) : (s.ready xs).resetCause = s.resetCause := rfl
@[simp] theorem ready_rx (xs : List ReplyLine) : (s.ready xs).rx = s.rx := rfl
@[simp] theorem ready_cmd (xs : List ReplyLine) : (s.ready xs).cmd = s.cmd := rfl
@[simp] theorem ready_tx (xs : List ReplyLine) : (s.ready xs).tx = s.tx ++ xs := rfl
@[simp] theorem ready_attention (xs : List ReplyLine) : (s.ready xs).attention = s.attention := rfl
@[simp] theorem ready_press (xs : List ReplyLine) : (s.ready xs).press = s.press := rfl
@[simp] theorem ready_fresh (xs : List ReplyLine) : (s.ready xs).fresh = s.fresh := rfl

/-! ## mapWaiters -/

@[simp] theorem mapWaiters_pending (f : Waiter → Waiter) : (s.mapWaiters f).pending = s.pending := rfl
@[simp] theorem mapWaiters_counter (f : Waiter → Waiter) : (s.mapWaiters f).counter = s.counter := rfl
@[simp] theorem mapWaiters_slots (f : Waiter → Waiter) : (s.mapWaiters f).slots = s.slots := rfl
@[simp] theorem mapWaiters_queue (f : Waiter → Waiter) : (s.mapWaiters f).queue = s.queue := rfl
@[simp] theorem mapWaiters_flight (f : Waiter → Waiter) : (s.mapWaiters f).flight = s.flight := rfl
@[simp] theorem mapWaiters_unsaved (f : Waiter → Waiter) : (s.mapWaiters f).unsaved = s.unsaved := rfl
@[simp] theorem mapWaiters_captures (f : Waiter → Waiter) : (s.mapWaiters f).captures = s.captures := rfl
@[simp] theorem mapWaiters_seq (f : Waiter → Waiter) : (s.mapWaiters f).seq = s.seq := rfl
@[simp] theorem mapWaiters_patrolCursor (f : Waiter → Waiter) : (s.mapWaiters f).patrolCursor = s.patrolCursor := rfl
@[simp] theorem mapWaiters_patrolIdle (f : Waiter → Waiter) : (s.mapWaiters f).patrolIdle = s.patrolIdle := rfl
@[simp] theorem mapWaiters_areaSettings (f : Waiter → Waiter) : (s.mapWaiters f).areaSettings = s.areaSettings := rfl
@[simp] theorem mapWaiters_areaLoad (f : Waiter → Waiter) : (s.mapWaiters f).areaLoad = s.areaLoad := rfl
@[simp] theorem mapWaiters_areaRoute (f : Waiter → Waiter) : (s.mapWaiters f).areaRoute = s.areaRoute := rfl
@[simp] theorem mapWaiters_failed (f : Waiter → Waiter) : (s.mapWaiters f).failed = s.failed := rfl
@[simp] theorem mapWaiters_settings (f : Waiter → Waiter) : (s.mapWaiters f).settings = s.settings := rfl
@[simp] theorem mapWaiters_load (f : Waiter → Waiter) : (s.mapWaiters f).load = s.load := rfl
@[simp] theorem mapWaiters_route (f : Waiter → Waiter) : (s.mapWaiters f).route = s.route := rfl
@[simp] theorem mapWaiters_meters (f : Waiter → Waiter) : (s.mapWaiters f).meters = s.meters := rfl
@[simp] theorem mapWaiters_lines (f : Waiter → Waiter) : (s.mapWaiters f).lines = s.lines.map (fun c => { c with endWaits := c.endWaits.map f }) := rfl
@[simp] theorem mapWaiters_pump (f : Waiter → Waiter) : (s.mapWaiters f).pump = s.pump := rfl
@[simp] theorem mapWaiters_inputs (f : Waiter → Waiter) : (s.mapWaiters f).inputs = s.inputs := rfl
@[simp] theorem mapWaiters_ignitionLow (f : Waiter → Waiter) : (s.mapWaiters f).ignitionLow = s.ignitionLow := rfl
@[simp] theorem mapWaiters_sleepDue (f : Waiter → Waiter) : (s.mapWaiters f).sleepDue = s.sleepDue := rfl
@[simp] theorem mapWaiters_clock (f : Waiter → Waiter) : (s.mapWaiters f).clock = s.clock := rfl
@[simp] theorem mapWaiters_mode (f : Waiter → Waiter) : (s.mapWaiters f).mode = s.mode := rfl
@[simp] theorem mapWaiters_phase (f : Waiter → Waiter) : (s.mapWaiters f).phase = s.phase := rfl
@[simp] theorem mapWaiters_resetCause (f : Waiter → Waiter) : (s.mapWaiters f).resetCause = s.resetCause := rfl
@[simp] theorem mapWaiters_rx (f : Waiter → Waiter) : (s.mapWaiters f).rx = s.rx := rfl
@[simp] theorem mapWaiters_cmd (f : Waiter → Waiter) : (s.mapWaiters f).cmd = s.cmd.map (fun c => { c with waits := f c.waits }) := rfl
@[simp] theorem mapWaiters_tx (f : Waiter → Waiter) : (s.mapWaiters f).tx = s.tx := rfl
@[simp] theorem mapWaiters_attention (f : Waiter → Waiter) : (s.mapWaiters f).attention = s.attention := rfl
@[simp] theorem mapWaiters_press (f : Waiter → Waiter) : (s.mapWaiters f).press = s.press := rfl
@[simp] theorem mapWaiters_fresh (f : Waiter → Waiter) : (s.mapWaiters f).fresh = s.fresh := rfl

/-! ## enqueue -/

@[simp] theorem enqueue_pending (k : Key) : (s.enqueue k).pending = s.pending := by unfold State.enqueue; split <;> rfl
@[simp] theorem enqueue_counter (k : Key) : (s.enqueue k).counter = s.counter := by unfold State.enqueue; split <;> rfl
@[simp] theorem enqueue_slots (k : Key) : (s.enqueue k).slots = s.slots := by unfold State.enqueue; split <;> rfl
@[simp] theorem enqueue_queue (k : Key) : (s.enqueue k).queue = if s.queue.contains k then s.queue else s.queue ++ [k] := by unfold State.enqueue; split <;> rfl
@[simp] theorem enqueue_flight (k : Key) : (s.enqueue k).flight = s.flight := by unfold State.enqueue; split <;> rfl
@[simp] theorem enqueue_unsaved (k : Key) : (s.enqueue k).unsaved = s.unsaved := by unfold State.enqueue; split <;> rfl
@[simp] theorem enqueue_captures (k : Key) : (s.enqueue k).captures = s.captures := by unfold State.enqueue; split <;> rfl
@[simp] theorem enqueue_seq (k : Key) : (s.enqueue k).seq = s.seq := by unfold State.enqueue; split <;> rfl
@[simp] theorem enqueue_patrolCursor (k : Key) : (s.enqueue k).patrolCursor = s.patrolCursor := by unfold State.enqueue; split <;> rfl
@[simp] theorem enqueue_patrolIdle (k : Key) : (s.enqueue k).patrolIdle = s.patrolIdle := by unfold State.enqueue; split <;> rfl
@[simp] theorem enqueue_areaSettings (k : Key) : (s.enqueue k).areaSettings = s.areaSettings := by unfold State.enqueue; split <;> rfl
@[simp] theorem enqueue_areaLoad (k : Key) : (s.enqueue k).areaLoad = s.areaLoad := by unfold State.enqueue; split <;> rfl
@[simp] theorem enqueue_areaRoute (k : Key) : (s.enqueue k).areaRoute = s.areaRoute := by unfold State.enqueue; split <;> rfl
@[simp] theorem enqueue_failed (k : Key) : (s.enqueue k).failed = s.failed := by unfold State.enqueue; split <;> rfl
@[simp] theorem enqueue_settings (k : Key) : (s.enqueue k).settings = s.settings := by unfold State.enqueue; split <;> rfl
@[simp] theorem enqueue_load (k : Key) : (s.enqueue k).load = s.load := by unfold State.enqueue; split <;> rfl
@[simp] theorem enqueue_route (k : Key) : (s.enqueue k).route = s.route := by unfold State.enqueue; split <;> rfl
@[simp] theorem enqueue_meters (k : Key) : (s.enqueue k).meters = s.meters := by unfold State.enqueue; split <;> rfl
@[simp] theorem enqueue_lines (k : Key) : (s.enqueue k).lines = s.lines := by unfold State.enqueue; split <;> rfl
@[simp] theorem enqueue_pump (k : Key) : (s.enqueue k).pump = s.pump := by unfold State.enqueue; split <;> rfl
@[simp] theorem enqueue_inputs (k : Key) : (s.enqueue k).inputs = s.inputs := by unfold State.enqueue; split <;> rfl
@[simp] theorem enqueue_ignitionLow (k : Key) : (s.enqueue k).ignitionLow = s.ignitionLow := by unfold State.enqueue; split <;> rfl
@[simp] theorem enqueue_sleepDue (k : Key) : (s.enqueue k).sleepDue = s.sleepDue := by unfold State.enqueue; split <;> rfl
@[simp] theorem enqueue_clock (k : Key) : (s.enqueue k).clock = s.clock := by unfold State.enqueue; split <;> rfl
@[simp] theorem enqueue_mode (k : Key) : (s.enqueue k).mode = s.mode := by unfold State.enqueue; split <;> rfl
@[simp] theorem enqueue_phase (k : Key) : (s.enqueue k).phase = s.phase := by unfold State.enqueue; split <;> rfl
@[simp] theorem enqueue_resetCause (k : Key) : (s.enqueue k).resetCause = s.resetCause := by unfold State.enqueue; split <;> rfl
@[simp] theorem enqueue_rx (k : Key) : (s.enqueue k).rx = s.rx := by unfold State.enqueue; split <;> rfl
@[simp] theorem enqueue_cmd (k : Key) : (s.enqueue k).cmd = s.cmd := by unfold State.enqueue; split <;> rfl
@[simp] theorem enqueue_tx (k : Key) : (s.enqueue k).tx = s.tx := by unfold State.enqueue; split <;> rfl
@[simp] theorem enqueue_attention (k : Key) : (s.enqueue k).attention = s.attention := by unfold State.enqueue; split <;> rfl
@[simp] theorem enqueue_press (k : Key) : (s.enqueue k).press = s.press := by unfold State.enqueue; split <;> rfl
@[simp] theorem enqueue_fresh (k : Key) : (s.enqueue k).fresh = s.fresh := by unfold State.enqueue; split <;> rfl

/-! ## comesUp -/

@[simp] theorem comesUp_pending  : (s.comesUp).pending = s.pending := by unfold State.comesUp; split <;> rfl
@[simp] theorem comesUp_counter  : (s.comesUp).counter = s.counter := by unfold State.comesUp; split <;> rfl
@[simp] theorem comesUp_slots  : (s.comesUp).slots = s.slots := by unfold State.comesUp; split <;> rfl
@[simp] theorem comesUp_queue  : (s.comesUp).queue = s.queue := by unfold State.comesUp; split <;> rfl
@[simp] theorem comesUp_flight  : (s.comesUp).flight = s.flight := by unfold State.comesUp; split <;> rfl
@[simp] theorem comesUp_unsaved  : (s.comesUp).unsaved = s.unsaved := by unfold State.comesUp; split <;> rfl
@[simp] theorem comesUp_captures  : (s.comesUp).captures = s.captures := by unfold State.comesUp; split <;> rfl
@[simp] theorem comesUp_seq  : (s.comesUp).seq = s.seq := by unfold State.comesUp; split <;> rfl
@[simp] theorem comesUp_patrolCursor  : (s.comesUp).patrolCursor = s.patrolCursor := by unfold State.comesUp; split <;> rfl
@[simp] theorem comesUp_patrolIdle  : (s.comesUp).patrolIdle = s.patrolIdle := by unfold State.comesUp; split <;> rfl
@[simp] theorem comesUp_areaSettings  : (s.comesUp).areaSettings = s.areaSettings := by unfold State.comesUp; split <;> rfl
@[simp] theorem comesUp_areaLoad  : (s.comesUp).areaLoad = s.areaLoad := by unfold State.comesUp; split <;> rfl
@[simp] theorem comesUp_areaRoute  : (s.comesUp).areaRoute = s.areaRoute := by unfold State.comesUp; split <;> rfl
@[simp] theorem comesUp_failed  : (s.comesUp).failed = s.failed := by unfold State.comesUp; split <;> rfl
@[simp] theorem comesUp_settings  : (s.comesUp).settings = s.settings := by unfold State.comesUp; split <;> rfl
@[simp] theorem comesUp_load  : (s.comesUp).load = s.load := by unfold State.comesUp; split <;> rfl
@[simp] theorem comesUp_route  : (s.comesUp).route = s.route := by unfold State.comesUp; split <;> rfl
@[simp] theorem comesUp_meters  : (s.comesUp).meters = s.meters := by unfold State.comesUp; split <;> rfl
@[simp] theorem comesUp_lines  : (s.comesUp).lines = s.lines := by unfold State.comesUp; split <;> rfl
@[simp] theorem comesUp_pump  : (s.comesUp).pump = s.pump := by unfold State.comesUp; split <;> rfl
@[simp] theorem comesUp_inputs  : (s.comesUp).inputs = s.inputs := by unfold State.comesUp; split <;> rfl
@[simp] theorem comesUp_ignitionLow  : (s.comesUp).ignitionLow = s.ignitionLow := by unfold State.comesUp; split <;> rfl
@[simp] theorem comesUp_sleepDue  : (s.comesUp).sleepDue = s.sleepDue := by unfold State.comesUp; split <;> rfl
@[simp] theorem comesUp_clock  : (s.comesUp).clock = s.clock := by unfold State.comesUp; split <;> rfl
@[simp] theorem comesUp_mode  : (s.comesUp).mode = s.mode := by unfold State.comesUp; split <;> rfl
@[simp] theorem comesUp_phase  : (s.comesUp).phase = if s.phase = .restart then .active else s.phase := by
  unfold State.comesUp; split
  · next h => simp [h]
  · next h => rw [if_neg (fun hp => h hp)]
@[simp] theorem comesUp_resetCause  : (s.comesUp).resetCause = s.resetCause := by unfold State.comesUp; split <;> rfl
@[simp] theorem comesUp_rx  : (s.comesUp).rx = s.rx := by unfold State.comesUp; split <;> rfl
@[simp] theorem comesUp_cmd  : (s.comesUp).cmd = s.cmd := by unfold State.comesUp; split <;> rfl
@[simp] theorem comesUp_tx  : (s.comesUp).tx = s.tx := by unfold State.comesUp; split <;> rfl
@[simp] theorem comesUp_attention  : (s.comesUp).attention = s.attention := by unfold State.comesUp; split <;> rfl
@[simp] theorem comesUp_press  : (s.comesUp).press = s.press := by unfold State.comesUp; split <;> rfl
@[simp] theorem comesUp_fresh  : (s.comesUp).fresh = s.fresh := by unfold State.comesUp; split <;> rfl

/-! ## drew -/

@[simp] theorem drew_pending (b : Bool) : (s.drew b).pending = s.pending := by unfold State.drew; split <;> rfl
@[simp] theorem drew_counter (b : Bool) : (s.drew b).counter = s.counter := by unfold State.drew; split <;> rfl
@[simp] theorem drew_slots (b : Bool) : (s.drew b).slots = s.slots := by unfold State.drew; split <;> rfl
@[simp] theorem drew_queue (b : Bool) : (s.drew b).queue = s.queue := by unfold State.drew; split <;> rfl
@[simp] theorem drew_flight (b : Bool) : (s.drew b).flight = s.flight := by unfold State.drew; split <;> rfl
@[simp] theorem drew_unsaved (b : Bool) : (s.drew b).unsaved = s.unsaved := by unfold State.drew; split <;> rfl
@[simp] theorem drew_captures (b : Bool) : (s.drew b).captures = s.captures := by unfold State.drew; split <;> rfl
@[simp] theorem drew_seq (b : Bool) : (s.drew b).seq = s.seq := by unfold State.drew; split <;> rfl
@[simp] theorem drew_patrolCursor (b : Bool) : (s.drew b).patrolCursor = s.patrolCursor := by unfold State.drew; split <;> rfl
@[simp] theorem drew_patrolIdle (b : Bool) : (s.drew b).patrolIdle = s.patrolIdle := by unfold State.drew; split <;> rfl
@[simp] theorem drew_areaSettings (b : Bool) : (s.drew b).areaSettings = s.areaSettings := by unfold State.drew; split <;> rfl
@[simp] theorem drew_areaLoad (b : Bool) : (s.drew b).areaLoad = s.areaLoad := by unfold State.drew; split <;> rfl
@[simp] theorem drew_areaRoute (b : Bool) : (s.drew b).areaRoute = s.areaRoute := by unfold State.drew; split <;> rfl
@[simp] theorem drew_failed (b : Bool) : (s.drew b).failed = s.failed := by unfold State.drew; split <;> rfl
@[simp] theorem drew_settings (b : Bool) : (s.drew b).settings = s.settings := by unfold State.drew; split <;> rfl
@[simp] theorem drew_load (b : Bool) : (s.drew b).load = s.load := by unfold State.drew; split <;> rfl
@[simp] theorem drew_route (b : Bool) : (s.drew b).route = s.route := by unfold State.drew; split <;> rfl
@[simp] theorem drew_meters (b : Bool) : (s.drew b).meters = s.meters := by unfold State.drew; split <;> rfl
@[simp] theorem drew_lines (b : Bool) : (s.drew b).lines = s.lines := by unfold State.drew; split <;> rfl
@[simp] theorem drew_pump (b : Bool) : (s.drew b).pump = s.pump := by unfold State.drew; split <;> rfl
@[simp] theorem drew_inputs (b : Bool) : (s.drew b).inputs = s.inputs := by unfold State.drew; split <;> rfl
@[simp] theorem drew_ignitionLow (b : Bool) : (s.drew b).ignitionLow = s.ignitionLow := by unfold State.drew; split <;> rfl
@[simp] theorem drew_sleepDue (b : Bool) : (s.drew b).sleepDue = s.sleepDue := by unfold State.drew; split <;> rfl
@[simp] theorem drew_clock (b : Bool) : (s.drew b).clock = s.clock := by unfold State.drew; split <;> rfl
@[simp] theorem drew_mode (b : Bool) : (s.drew b).mode = s.mode := by unfold State.drew; split <;> rfl
@[simp] theorem drew_phase (b : Bool) : (s.drew b).phase = s.phase := by unfold State.drew; split <;> rfl
@[simp] theorem drew_resetCause (b : Bool) : (s.drew b).resetCause = s.resetCause := by unfold State.drew; split <;> rfl
@[simp] theorem drew_rx (b : Bool) : (s.drew b).rx = s.rx := by unfold State.drew; split <;> rfl
@[simp] theorem drew_cmd (b : Bool) : (s.drew b).cmd = s.cmd := by unfold State.drew; split <;> rfl
@[simp] theorem drew_tx (b : Bool) : (s.drew b).tx = s.tx := by unfold State.drew; split <;> rfl
@[simp] theorem drew_attention (b : Bool) : (s.drew b).attention = s.attention := by unfold State.drew; split <;> rfl
@[simp] theorem drew_press (b : Bool) : (s.drew b).press = s.press := by unfold State.drew; split <;> rfl
@[simp] theorem drew_fresh (b : Bool) : (s.drew b).fresh = if b then s.fresh + 1 else s.fresh := by unfold State.drew; split <;> rfl

end Sys2Proof.Machine
end

