-- ==== Sys2Proof/Laws/Commit.lean ====
section
/-! SUPPORT. What the store's taking of entries and the rest of `commit` can change: everything else stays, and in a settled state nothing is taken. -/

namespace Sys2Proof.Machine

/-! ## Slots: condemning a record's home keeps the record -/

/-- A slot that is some record's home is the home of no other record. -/
theorem slot_holds_iff (stop : Nat) (x : Slot) :
    x.holds stop = true ↔ ∃ r, x.record? = some r ∧ r.stop = stop := by
  unfold Slot.holds
  cases h : x.record? with
  | none => simp
  | some r => simp

/-- The record a condemned slot is home of. -/
@[simp] theorem record?_condemn (r : Record) (x : Slot) : (Slot.condemn r x).record? = some r := rfl

/-- Condemning the first slot that holds a stop, with the record found there, changes no lookup. -/
theorem recordIn_condemn (stop : Nat) (r : Record) :
    ∀ (xs : List Slot) (n i : Nat), findSlot (Slot.holds stop) xs n = some (n + i) → recordIn stop xs = some r →
      ∀ m, recordIn m (modNth xs i (Slot.condemn r)) = recordIn m xs := by
  intro xs
  induction xs with
  | nil => intro n i h; simp [findSlot] at h
  | cons x xs ih =>
    intro n i hf hr m
    by_cases hx : x.holds stop = true
    · have hi : i = 0 := by simp [findSlot, hx] at hf; omega
      subst hi
      obtain ⟨r0, h0, h1⟩ := (slot_holds_iff stop x).1 hx
      have : r0 = r := by simpa [recordIn, h0, h1] using hr
      subst this
      simp [modNth, recordIn, h0]
    · have hf' : findSlot (Slot.holds stop) xs (n + 1) = some (n + i) := by simpa [findSlot, hx] using hf
      have hpos : ∀ (ys : List Slot) (a b : Nat), findSlot (Slot.holds stop) ys a = some b → a ≤ b := by
        intro ys
        induction ys with
        | nil => intro a b h; simp [findSlot] at h
        | cons y ys ihy =>
          intro a b h
          unfold findSlot at h
          split at h
          · simp at h; omega
          · have := ihy _ _ h; omega
      have hle := hpos _ _ _ hf'
      obtain ⟨j, rfl⟩ : ∃ j, i = j + 1 := ⟨i - 1, by omega⟩
      have hr' : recordIn stop xs = some r := by
        cases h0 : x.record? with
        | none => simpa [recordIn, h0] using hr
        | some r0 =>
          have hne : r0.stop ≠ stop := fun h => hx ((slot_holds_iff stop x).2 ⟨r0, h0, h⟩)
          simpa [recordIn, h0, hne] using hr
      have := ih (n + 1) j (by rw [hf']; congr 1; omega) hr' m
      cases h0 : x.record? with
      | none => simp [modNth, recordIn, h0, this]
      | some r0 => simp [modNth, recordIn, h0, this]

/-- The home slot of a stop has a number of at least 1. -/
theorem homeOf_pos (s : State) (stop n : Nat) (h : s.homeOf stop = some n) : 1 ≤ n := by
  have key : ∀ (ys : List Slot) (a b : Nat), findSlot (Slot.holds stop) ys a = some b → a ≤ b := by
    intro ys
    induction ys with
    | nil => intro a b h; simp [findSlot] at h
    | cons y ys ihy =>
      intro a b h
      unfold findSlot at h
      split at h
      · simp at h; omega
      · have := ihy _ _ h; omega
  exact key _ _ _ h

/-- A record's home condemned: every lookup finds what it found. -/
theorem recOf_condemn (s : State) (stop home : Nat) (r : Record) (hh : s.homeOf stop = some home)
    (hr : s.recOf stop = some r) (m : Nat) : (s.modSlot home (Slot.condemn r)).recOf m = s.recOf m := by
  have h1 := homeOf_pos s stop home hh
  unfold State.homeOf at hh
  unfold State.recOf at *
  have hne : home ≠ 0 := by omega
  simp only [modSlot_slots, modNth1, hne, if_false]
  apply recordIn_condemn stop r s.slots 1 (home - 1) _ hr m
  rw [hh]; congr 1; omega

/-! ## What the store's taking of entries keeps -/

/-- The store's taking of entries changes the queue, the operation in flight, conditions of slots, the list of unsaved images, waiters, and through R119 a line whose record becomes unsaved; nothing else. -/
structure StoreKeeps (s t : State) : Prop where
  pending : t.pending = s.pending
  counter : t.counter = s.counter
  captures : t.captures = s.captures
  seq : t.seq = s.seq
  patrolCursor : t.patrolCursor = s.patrolCursor
  areaSettings : t.areaSettings = s.areaSettings
  areaLoad : t.areaLoad = s.areaLoad
  areaRoute : t.areaRoute = s.areaRoute
  failed : t.failed = s.failed
  settings : t.settings = s.settings
  load : t.load = s.load
  route : t.route = s.route
  meters : t.meters = s.meters
  pump : t.pump = s.pump
  inputs : t.inputs = s.inputs
  ignitionLow : t.ignitionLow = s.ignitionLow
  sleepDue : t.sleepDue = s.sleepDue
  clock : t.clock = s.clock
  mode : t.mode = s.mode
  phase : t.phase = s.phase
  resetCause : t.resetCause = s.resetCause
  rx : t.rx = s.rx
  tx : t.tx = s.tx
  attention : t.attention = s.attention
  press : t.press = s.press
  fresh : t.fresh = s.fresh
  recOf : ∀ n, t.recOf n = s.recOf n

theorem StoreKeeps.refl (s : State) : StoreKeeps s s := by
  constructor <;> first | rfl | (intro n; rfl)

theorem StoreKeeps.trans {a b c : State} (h : StoreKeeps a b) (k : StoreKeeps b c) : StoreKeeps a c where
  pending := k.pending.trans h.pending
  counter := k.counter.trans h.counter
  captures := k.captures.trans h.captures
  seq := k.seq.trans h.seq
  patrolCursor := k.patrolCursor.trans h.patrolCursor
  areaSettings := k.areaSettings.trans h.areaSettings
  areaLoad := k.areaLoad.trans h.areaLoad
  areaRoute := k.areaRoute.trans h.areaRoute
  failed := k.failed.trans h.failed
  settings := k.settings.trans h.settings
  load := k.load.trans h.load
  route := k.route.trans h.route
  meters := k.meters.trans h.meters
  pump := k.pump.trans h.pump
  inputs := k.inputs.trans h.inputs
  ignitionLow := k.ignitionLow.trans h.ignitionLow
  sleepDue := k.sleepDue.trans h.sleepDue
  clock := k.clock.trans h.clock
  mode := k.mode.trans h.mode
  phase := k.phase.trans h.phase
  resetCause := k.resetCause.trans h.resetCause
  rx := k.rx.trans h.rx
  tx := k.tx.trans h.tx
  attention := k.attention.trans h.attention
  press := k.press.trans h.press
  fresh := k.fresh.trans h.fresh
  recOf n := (k.recOf n).trans (h.recOf n)

/-- A lookup reads the slots alone. -/
theorem recOf_of_slots {s t : State} (h : t.slots = s.slots) (n : Nat) : t.recOf n = s.recOf n := by
  unfold State.recOf; rw [h]

/-- A change of a line context alone. -/
theorem StoreKeeps.modLine (s : State) (l : Line) (f : LineCtx → LineCtx) : StoreKeeps s (s.modLine l f) := by
  constructor <;> first | rfl | (intro n; rfl)

/-- A change of waiters alone. -/
theorem StoreKeeps.mapWaiters (s : State) (f : Waiter → Waiter) : StoreKeeps s (s.mapWaiters f) := by
  constructor <;> first | rfl | (intro n; rfl)

/-- A record's becoming unsaved changes the list and its line. -/
theorem StoreKeeps.becomeUnsaved (s : State) (stop : Nat) : StoreKeeps s (s.becomeUnsaved stop) := by
  have hl : ∀ (u : State) (l : Line), StoreKeeps u (u.lineUnsaved l) := by
    intro u l
    unfold State.lineUnsaved State.beginStop
    split
    · exact .modLine ..
    · split
      · exact .modLine ..
      · exact .refl u
    · split
      · exact .modLine ..
      · exact .refl u
    · exact .modLine ..
    · exact .refl u
  unfold State.becomeUnsaved State.tellBound
  split
  · exact .refl s
  · have h0 : StoreKeeps s { s with unsaved := s.unsaved ++ [stop] } := by constructor <;> first | rfl | (intro n; rfl)
    split
    · split
      · exact h0.trans (hl _ _)
      · split
        · exact h0.trans (hl _ _)
        · exact h0
    · exact h0

/-- The beginning of an entry. -/
theorem StoreKeeps.beginKey (s : State) (k : Key) : StoreKeeps s (s.beginKey k) := by
  cases k with
  | block b => constructor <;> first | rfl | (intro n; rfl)
  | release n => constructor <;> first | rfl | (intro n; rfl)
  | record stop =>
    simp only [State.beginKey, State.beginRecord]
    split
    · next home r hh hr =>
      split
      · exact .refl s
      · split
        · constructor <;> first | rfl | (intro n; rfl)
        · split
          · constructor <;> first | rfl | (intro n; rfl)
          · refine StoreKeeps.trans ?_ (.becomeUnsaved _ _)
            have := recOf_condemn s stop home r hh hr
            constructor <;> simp [this]
    · exact .refl s

/-- The taking of one entry. -/
theorem StoreKeeps.takeEntry (s : State) (k : Key) (q : List Key) : StoreKeeps s (s.takeEntry k q) := by
  have h0 : StoreKeeps s { s with queue := q, patrolIdle := 0 } := by constructor <;> first | rfl | (intro n; rfl)
  unfold State.takeEntry
  have h1 := (h0.trans (.mapWaiters _ (Waiter.begun k))).trans (.beginKey _ k)
  simp only
  split
  · exact h1.trans (.mapWaiters _ _)
  · exact h1

/-- The store's taking of entries. -/
theorem StoreKeeps.storeRun (n : Nat) : ∀ s : State, StoreKeeps s (storeRun n s) := by
  induction n with
  | zero => intro s; exact .refl s
  | succ n ih =>
    intro s
    unfold Machine.storeRun
    split
    · split
      · exact (StoreKeeps.takeEntry s _ _).trans (ih _)
      · exact .refl s
    · exact .refl s

/-- The store goes on with its queue. -/
theorem runStore_keeps (s : State) : StoreKeeps s s.runStore := .storeRun _ s

/-- With an operation in flight, or nothing waiting, the store takes no entry. -/
theorem runStore_settled (s : State) (h : s.flight.isSome = true ∨ s.queue = []) : s.runStore = s := by
  unfold State.runStore Machine.storeRun
  rcases h with h | h
  · cases hf : s.flight with
    | none => simp [hf] at h
    | some f => simp
  · simp [h]

/-! ## The taking of an entry that becomes the operation in flight -/

/-- An entry whose operation exists: a block's, a release's, or a record's that is in the table (R32, R33). -/
def startable (s : State) (k : Key) : Prop :=
  match k with
  | .record stop => ∃ home r x, s.homeOf stop = some home ∧ s.recOf stop = some r ∧ s.slot home = some x
  | _ => True

/-- Some FREE slot gives an allocation. -/
theorem bestFree_isSome (xs : List Slot) :
    ∀ (n : Nat) (b : Option (Nat × Nat)), (xs.any Slot.isFree = true ∨ b.isSome = true) →
      (bestFree none xs n b).isSome = true := by
  induction xs with
  | nil => intro n b h; cases b <;> simp_all [bestFree]
  | cons x xs ih =>
    intro n b h
    unfold bestFree
    by_cases hx : x.isFree = true
    · simp only [hx, ne_eq, reduceCtorEq, not_false_eq_true, and_self, if_true]
      cases b with
      | none => exact ih _ _ (Or.inr rfl)
      | some p =>
        obtain ⟨p, m⟩ := p
        simp only
        split <;> exact ih _ _ (Or.inr rfl)
    · simp only [hx]
      apply ih
      rcases h with h | h
      · left; simpa [hx] using h
      · right; exact h

/-- With some slot FREE the store can allocate (R31). -/
theorem allocate_isSome (s : State) (h : s.slots.any Slot.isFree = true) : (s.allocate none).isSome = true :=
  bestFree_isSome s.slots 1 none (Or.inl h)

/-- A record found by a stop carries it. -/
theorem recOf_stop (s : State) (stop : Nat) (r : Record) (h : s.recOf stop = some r) : r.stop = stop := by
  have key : ∀ xs : List Slot, recordIn stop xs = some r → r.stop = stop := by
    intro xs
    induction xs with
    | nil => intro h; simp [recordIn] at h
    | cons x xs ih =>
      intro h
      unfold recordIn at h
      split at h
      · split at h
        · next he => simp only [Option.some.injEq] at h; rw [← h]; exact he
        · exact ih h
      · exact ih h
  exact key _ h

/-- Only the operation in flight differs, and it is an entry's. -/
def onlyFlight (k : Key) (s t : State) : Prop := ∃ f, t = { s with flight := some f } ∧ flightIs k (some f)

/-- A startable entry with a FREE slot at hand becomes the operation in flight, and nothing else changes. -/
theorem beginKey_flies (s : State) (k : Key) (hk : startable s k) (hr : s.slots.any Slot.isFree = true) :
    onlyFlight k s (s.beginKey k) := by
  cases k with
  | block b => exact ⟨_, rfl, by cases b <;> trivial⟩
  | release n => exact ⟨_, rfl, rfl⟩
  | record stop =>
    obtain ⟨home, r, x, h1, h2, h3⟩ := hk
    have ha := allocate_isSome s hr
    obtain ⟨a, ha⟩ := Option.isSome_iff_exists.1 ha
    have hs := recOf_stop s stop r h2
    simp only [State.beginKey, State.beginRecord, h1, h2, h3, ha]
    split
    · exact ⟨_, rfl, hs⟩
    · exact ⟨_, rfl, hs⟩

/-- A waiter that an operation in flight keeps waiting is not over. -/
theorem begun_not_over (k : Key) (w : Waiter) (h : w.over = false) : (w.begun k).over = false := by
  unfold Waiter.begun
  split
  · simp [Waiter.over]
  · exact h

/-- The beginning of an entry leaves no waiter over that was not. -/
theorem begun_any_over (k : Key) (ws : List Waiter) (h : ws.any Waiter.over = false) :
    (ws.map (Waiter.begun k)).any Waiter.over = false := by
  induction ws with
  | nil => rfl
  | cons w ws ih =>
    simp only [List.any_cons, Bool.or_eq_false_iff] at h
    simp [begun_not_over k w h.1, ih h.2]

/-- What commit leaves alone when a command has just been taken, or an event has acted, without a run's end. -/
structure CommitKeeps (s t : State) : Prop extends StoreKeeps s t where
  unsaved : t.unsaved = s.unsaved
  core : ∀ l, (t.line l).core = (s.line l).core

/-- In a working part with nothing in flight, a startable first entry is taken and flies. -/
theorem runStore_takes (s : State) (k : Key) (q : List Key) (ha : s.isActive = true) (hf : s.flight = none)
    (hq : s.queue = k :: q) (hk : startable s k) (hr : s.slots.any Slot.isFree = true) :
    ∃ f, s.runStore = { ({ s with queue := q, patrolIdle := 0 } : State).mapWaiters (Waiter.begun k) with flight := some f }
      ∧ flightIs k (some f) := by
  have hb : onlyFlight k (({ s with queue := q, patrolIdle := 0 } : State).mapWaiters (Waiter.begun k))
      ((({ s with queue := q, patrolIdle := 0 } : State).mapWaiters (Waiter.begun k)).beginKey k) :=
    beginKey_flies _ k (by cases k <;> exact hk) hr
  obtain ⟨f, hb, hfk⟩ := hb
  have hm : s.mayTake k.opKind = true := by
    unfold State.isActive at ha
    unfold State.mayTake State.mayBegin
    split at ha
    · next h => simp [h]
    · simp at ha
  refine ⟨f, ?_, hfk⟩
  unfold State.runStore
  rw [hq]
  simp only [List.length_cons]
  unfold Machine.storeRun
  simp only [hf, hq, hm, if_true]
  have ht : s.takeEntry k q = { ({ s with queue := q, patrolIdle := 0 } : State).mapWaiters (Waiter.begun k) with flight := some f } := by
    unfold State.takeEntry
    simp only [hb]
    rfl
  rw [ht]
  unfold Machine.storeRun
  rfl

/-- Outside the restart path its last step does nothing. -/
theorem comesUp_of_ne (s : State) (h : s.phase ≠ .restart) : s.comesUp = s := by
  unfold State.comesUp; split
  · next hp => exact absurd hp h
  · rfl

/-- A working part is past the restart's last step. -/
theorem comesUp_active (s : State) (ha : s.isActive = true) : s.comesUp = s :=
  comesUp_of_ne s (fun h => by simp [State.isActive, h] at ha)

/-- On the restart path its last step makes the part work, and does nothing else (R183). -/
theorem comesUp_restart (s : State) (h : s.phase = .restart) : s.comesUp = { s with phase := .active } := by
  simp [State.comesUp, h]

/-- An event outside the restart path is its change and what follows. -/
theorem event_eq (f : State → State) (s : State) (h : s.phase ≠ .restart) : event f s = .next (commit (f s)) := by
  rw [event, comesUp_of_ne s h]

/-- A command outside the restart path is its line's arrival and what follows. -/
theorem take_eq (w : CmdWord) (judge : State → Except Code Taken) (s : State) (h : s.phase ≠ .restart) :
    take w judge s = .next (commit (arrive w judge s)) := by
  rw [take, comesUp_of_ne s h]

/-- A working part is on no restart path. -/
theorem ne_restart_of_active (s : State) (ha : s.isActive = true) : s.phase ≠ .restart :=
  fun h => by simp [State.isActive, h] at ha

/-- On the restart path an event acts as on the working part (R183, log 44). -/
theorem event_restart (f : State → State) (s : State) (h : s.phase = .restart) :
    event f s = event f { s with phase := .active } := by
  rw [event, event, comesUp_restart s h]; rfl

/-- On the restart path a command is taken as by the working part (R183, log 44). -/
theorem take_restart (w : CmdWord) (judge : State → Except Code Taken) (s : State) (h : s.phase = .restart) :
    take w judge s = take w judge { s with phase := .active } := by
  rw [take, take, comesUp_restart s h]; rfl

/-- In a working part, commit is the store's taking, the replies due and a sleep put off. -/
theorem commit_active (s : State) (ha : s.isActive = true) : commit s = s.runStore.deliver.trySleep := by
  unfold commit State.settleFlush
  have : s.runStore.isActive = true := by
    have h := (runStore_keeps s).phase
    unfold State.isActive at *
    rw [h]; exact ha
  simp [this]

/-! ## The end of a flush -/

/-- A store with nothing in flight and nothing waiting begins nothing. -/
theorem runStore_nothing (s : State) (h : s.queue = []) : s.runStore = s := runStore_settled s (.inr h)

/-- A refused operation leaves a power-fail flush to its end: the hold, or the restart it remembers (R181). -/
theorem giveUp_ends (s : State) (f : Flush) (h : s.phase = .flush f) :
    (f.kind = .powerFail none → s.giveUp.finishFlush = s.giveUp.holdInReset)
    ∧ ∀ reads, f.kind = .powerFail (some reads) → s.giveUp.finishFlush = s.giveUp.restart .powerOn reads := by
  have hp : s.giveUp.phase = .flush f := h
  have hf : s.giveUp.flight = none := rfl
  constructor
  · intro hk
    simp [State.finishFlush, hp, hf, hk]
  · intro reads hk
    simp [State.finishFlush, hp, hf, hk]

end Sys2Proof.Machine
end

