-- ==== Sys2Proof/Laws/Take.lean ====
section
/-! SUPPORT. The arrival of a command line in a settled state: refused, answered at once, or taken with writes; and an event in a settled state. -/

namespace Sys2Proof.Machine

/-- No run end of either line is due (R193). -/
def noEndDue (s : State) : Prop :=
  s.lines.one.endWaits.any Waiter.over = false ∧ s.lines.two.endWaits.any Waiter.over = false

/-- What `settled` says, clause by clause. -/
theorem settled_iff (s : State) :
    s.settled = true ↔ (s.flight.isSome = true ∨ s.queue = []) ∧ s.replyDue = false ∧ noEndDue s
      ∧ (s.sleepDue && s.comesUp.maySleep) = false := by
  cases h : s.sleepDue && s.comesUp.maySleep <;> simp [State.settled, noEndDue, and_assoc, h]

/-- What `hears` says, clause by clause. -/
theorem hears_iff (s : State) :
    s.hears = true ↔ s.isActive = true ∧ s.mode = .run ∧ s.rx.brk = none ∧ s.rx.discard = false ∧ s.cmd = none := by
  simp only [State.hears, State.linkOpen, Bool.and_eq_true, Option.isNone_iff_eq_none, Bool.not_eq_true', and_assoc]
  constructor
  · rintro ⟨h1, h2, h3, h4, h5⟩; exact ⟨h1, by simpa using h2, h3, h4, h5⟩
  · rintro ⟨h1, h2, h3, h4, h5⟩; exact ⟨h1, by simp [h2], h3, h4, h5⟩

/-- A list none of whose waiters is over is kept whole. -/
theorem filter_not_over (ws : List Waiter) (h : ws.any Waiter.over = false) : ws.filter (fun w => !w.over) = ws := by
  rw [List.filter_eq_self]
  intro w hw
  have := List.any_eq_false.1 h w hw
  simpa using this

/-- A change of a line context that changes nothing. -/
theorem modLine_id (s : State) (l : Line) (f : LineCtx → LineCtx) (h : f (s.line l) = s.line l) : s.modLine l f = s := by
  have hp : s.lines.modify l f = s.lines := by
    unfold Pair.modify
    rw [show f (s.lines.get l) = s.lines.get l from h]
    cases l <;> rfl
  unfold State.modLine
  rw [hp]

/-- With no run end due, no attention item is added. -/
theorem deliverAttention_none (s : State) (l : Line) (h : (s.line l).endWaits.any Waiter.over = false) :
    s.deliverAttention l = s := by
  unfold State.deliverAttention
  rw [if_neg (by simp [h])]
  apply modLine_id
  rw [filter_not_over _ h]

/-- With no run end due, what is delivered is the reply. -/
theorem deliver_noEnd (s : State) (ha : s.isActive = true) (h : noEndDue s) : s.deliver = s.deliverReply := by
  have hl : s.deliverReply.lines = s.lines := by
    unfold State.deliverReply
    split
    · rfl
    · split
      · split <;> rfl
      · rfl
  have h1 : s.deliverReply.deliverAttention .one = s.deliverReply :=
    deliverAttention_none _ _ (by unfold State.line; rw [hl]; exact h.1)
  have h2 : s.deliverReply.deliverAttention .two = s.deliverReply :=
    deliverAttention_none _ _ (by unfold State.line; rw [hl]; exact h.2)
  unfold State.deliver
  rw [if_pos ha, h1, h2]

/-- With a command in progress no sleep is entered (R187). -/
theorem trySleep_busy (s : State) (h : s.cmd.isSome = true) : s.trySleep = s := by
  unfold State.trySleep State.maySleep
  cases hc : s.cmd with
  | none => simp [hc] at h
  | some c => simp

/-- A reply that is not due is not delivered. -/
theorem deliverReply_none (s : State) (h : s.replyDue = false) : s.deliverReply = s := by
  unfold State.deliverReply
  unfold State.replyDue at h
  split
  · rfl
  · next c hc =>
    simp only [hc] at h
    split
    · next hw =>
      cases hp : s.planSegments c.plan with
      | none => rfl
      | some xs => simp [hw.1, hw.2, hp] at h
    · rfl

/-- In a settled working state there is nothing for commit to do. -/
theorem commit_settled (s : State) (ha : s.isActive = true) (h : s.settled = true) : commit s = s := by
  obtain ⟨h1, h2, h3, h4⟩ := (settled_iff s).1 h
  rw [comesUp_active s ha] at h4
  rw [commit_active s ha, runStore_settled s h1, deliver_noEnd s ha h3, deliverReply_none s h2]
  unfold State.trySleep
  split
  · next hh => simp [hh.1, hh.2] at h4
  · rfl

/-- A line refused with a code changes nothing but the link (R2, R190, R191). -/
theorem take_refused (w : CmdWord) (judge : State → Except Code Taken) (c : Code) (s : State) (hh : s.hears = true)
    (hs : s.settled = true) (hj : judge { s with rx := .waiting } = .error c) :
    take w judge s = .next { s with
      rx := .waiting, cmd := some ⟨w, .ready [], .on [], true⟩, tx := s.tx ++ [⟨w.bytes, .no c, [], true⟩] } := by
  obtain ⟨h1, h2, h3, h4, h5⟩ := (hears_iff s).1 hh
  obtain ⟨g1, g2, g3, g4⟩ := (settled_iff s).1 hs
  have hl : s.linkOpen = true := by simp [State.linkOpen, h1, h2, h3]
  have hA : arrive w judge s = { s with
      rx := .waiting, cmd := some ⟨w, .ready [], .on [], true⟩, tx := s.tx ++ [⟨w.bytes, .no c, [], true⟩] } := by
    unfold arrive
    rw [if_pos hl, if_neg (by simp [h4]), if_neg (by simp [h5]), hj]
    rfl
  rw [take_eq w judge s (ne_restart_of_active s h1), hA]
  congr 1
  apply commit_settled
  · exact h1
  · rw [settled_iff]
    refine ⟨g1, ?_, g3, ?_⟩
    · simp [State.replyDue]
    · simp [State.maySleep]

/-- A command taken that queues no write is answered at once (R191). -/
theorem take_report (w : CmdWord) (judge : State → Except Code Taken) (s u : State) (segs : List (List Tok))
    (hh : s.hears = true) (hj : judge { s with rx := .waiting } = .ok ⟨u, .ready segs, []⟩) (ha : u.isActive = true)
    (hq : u.flight.isSome = true ∨ u.queue = []) (he : noEndDue u) :
    take w judge s = .next { u with
      cmd := some ⟨w, .ready segs, .on [], true⟩, tx := u.tx ++ okLines w.bytes segs } := by
  obtain ⟨h1, h2, h3, h4, h5⟩ := (hears_iff s).1 hh
  have hl : s.linkOpen = true := by simp [State.linkOpen, h1, h2, h3]
  have hA : arrive w judge s = { u with cmd := some ⟨w, .ready segs, .on [], false⟩ } := by
    unfold arrive
    rw [if_pos hl, if_neg (by simp [h4]), if_neg (by simp [h5]), hj]
    rfl
  have ha' : ({ u with cmd := some ⟨w, .ready segs, .on [], false⟩ } : State).isActive = true := ha
  obtain ⟨v, hv⟩ : ∃ v : State, v = { u with cmd := some ⟨w, .ready segs, .on [], false⟩ } := ⟨_, rfl⟩
  rw [take_eq w judge s (ne_restart_of_active s h1), hA]
  rw [← hv] at ha' ⊢
  rw [commit_active v ha', runStore_settled v (by rw [hv]; exact hq), deliver_noEnd v ha' (by rw [hv]; exact he)]
  have h0 : v.deliverReply = { u with
      cmd := some ⟨w, .ready segs, .on [], true⟩, tx := u.tx ++ okLines w.bytes segs } := by rw [hv]; rfl
  rw [trySleep_busy v.deliverReply (by rw [h0]; rfl), h0]

/-- A command taken with writes, where the store is busy or takes the first of them at once. -/
theorem take_taken (w : CmdWord) (judge : State → Except Code Taken) (s u : State) (p : Plan) (k : Key) (ks : List Key)
    (hh : s.hears = true) (hj : judge { s with rx := .waiting } = .ok ⟨u, p, k :: ks⟩) (ha : u.isActive = true)
    (hq : u.flight.isSome = true ∨ ∃ k' q, u.flight = none ∧ u.queue = k' :: q ∧ k' ∈ k :: ks ∧ startable u k'
      ∧ u.slots.any Slot.isFree = true) (he : noEndDue u) :
    ∃ t, take w judge s = .next t ∧ CommitKeeps u t ∧ inProgress w p t ∧ (∀ x ∈ u.queue, asked t x) ∧ t.slots = u.slots := by
  obtain ⟨h1, h2, h3, h4, h5⟩ := (hears_iff s).1 hh
  have hl : s.linkOpen = true := by simp [State.linkOpen, h1, h2, h3]
  have hA : arrive w judge s = { u with cmd := some ⟨w, p, .on (k :: ks), false⟩ } := by
    unfold arrive
    rw [if_pos hl, if_neg (by simp [h4]), if_neg (by simp [h5]), hj]
    rfl
  have ha' : ({ u with cmd := some ⟨w, p, .on (k :: ks), false⟩ } : State).isActive = true := ha
  obtain ⟨v, hv⟩ : ∃ v : State, v = { u with cmd := some ⟨w, p, .on (k :: ks), false⟩ } := ⟨_, rfl⟩
  have hk : CommitKeeps u v := by
    rw [hv]; exact ⟨by constructor <;> first | rfl | (intro n; rfl), rfl, fun l => by cases l <;> rfl⟩
  rw [take_eq w judge s (ne_restart_of_active s h1), hA]
  rw [← hv] at ha' ⊢
  rw [commit_active v ha']
  rcases hq with hf | ⟨k', q, hf, hqq, hmem, hst, hr⟩
  · have h0 : v.runStore = v := runStore_settled v (by rw [hv]; exact Or.inl hf)
    have h1 : v.deliver = v := by
      rw [deliver_noEnd v ha' (by rw [hv]; exact he)]
      exact deliverReply_none v (by rw [hv]; simp [State.replyDue, Waiter.over, Waiter.on])
    have h2 : v.trySleep = v := trySleep_busy v (by rw [hv]; rfl)
    rw [h0, h1, h2]
    refine ⟨v, rfl, hk, ⟨_, by rw [hv], rfl, rfl⟩, ?_, by rw [hv]⟩
    intro x hx
    exact Or.inl (by rw [hv]; exact hx)
  · obtain ⟨f, hrun, hfk⟩ := runStore_takes v k' q ha' (by rw [hv]; exact hf) (by rw [hv]; exact hqq)
      (by rw [hv]; cases k' <;> exact hst) (by rw [hv]; exact hr)
    have hw : (Waiter.begun k' (Waiter.on (k :: ks))) = ⟨(k :: ks).filter (· != k'), true⟩ := by
      unfold Waiter.begun Waiter.on
      rw [if_pos (by simpa using hmem)]
    obtain ⟨y, hy⟩ : ∃ y : State, y = v.runStore := ⟨_, rfl⟩
    have hya : y.isActive = true := by rw [hy, hrun]; exact ha'
    have hyn : noEndDue y := by
      rw [hy, hrun, hv]
      exact ⟨begun_any_over _ _ he.1, begun_any_over _ _ he.2⟩
    have hyc : y.cmd = some ⟨w, p, ⟨(k :: ks).filter (· != k'), true⟩, false⟩ := by
      rw [hy, hrun, hv]
      simp only [State.mapWaiters, Option.map_some, hw]
    have h1 : y.deliver = y := by
      rw [deliver_noEnd y hya hyn]
      exact deliverReply_none y (by simp [State.replyDue, hyc, Waiter.over])
    have h2 : y.trySleep = y := trySleep_busy y (by rw [hyc]; rfl)
    rw [← hy, h1, h2]
    refine ⟨y, rfl, ?_, ⟨_, hyc, rfl, rfl⟩, ?_, by rw [hy, hrun, hv]; rfl⟩
    · rw [hy, hrun, hv]
      exact ⟨by constructor <;> first | rfl | (intro n; rfl), rfl, fun l => by cases l <;> rfl⟩
    · intro x hx
      rw [hqq] at hx
      rcases List.mem_cons.1 hx with rfl | hx
      · right; rw [hy, hrun]; exact hfk
      · left; rw [hy, hrun]; exact hx

end Sys2Proof.Machine
end

