-- ==== Sys2Proof/Laws/Event.lean ====
section
/-! SUPPORT. What commit keeps of the state an event leaves, where no run ends and no reply becomes due; what a press of DEADMAN does to the timers. -/

namespace Sys2Proof.Machine

/-- What commit keeps behind an event: everything but the queue, the operation in flight, waiters, and a sleep that was put off. -/
structure EventKeeps (s t : State) : Prop where
  pending : t.pending = s.pending
  counter : t.counter = s.counter
  slots : t.slots = s.slots
  unsaved : t.unsaved = s.unsaved
  captures : t.captures = s.captures
  seq : t.seq = s.seq
  patrolCursor : t.patrolCursor = s.patrolCursor
  areaSettings : t.areaSettings = s.areaSettings
  areaLoad : t.areaLoad = s.areaLoad
  areaRoute : t.areaRoute = s.areaRoute
  failed : t.failed = s.failed
  settings : t.settings = s.settings
  load : t.load = s.load
  route : t.route = s.route
  meters : t.meters = s.meters
  pump : t.pump = s.pump
  inputs : t.inputs = s.inputs
  ignitionLow : t.ignitionLow = s.ignitionLow
  clock : t.clock = s.clock
  phase : t.phase = s.phase
  resetCause : t.resetCause = s.resetCause
  tx : t.tx = s.tx
  attention : t.attention = s.attention
  press : t.press = s.press
  fresh : t.fresh = s.fresh
  core : ∀ l, (t.line l).core = (s.line l).core

/-- A sleep that was put off changes the mode, the receiver and the idle time alone. -/
theorem EventKeeps.trySleep (s : State) : EventKeeps s s.trySleep := by
  unfold State.trySleep
  split
  · constructor <;> first | rfl | (intro l; cases l <;> rfl)
  · constructor <;> first | rfl | (intro l; cases l <;> rfl)

/-- Behind an event that makes no reply and no attention item due. -/
theorem commit_event (u : State) (ha : u.isActive = true)
    (hq : (u.flight.isSome = true ∨ u.queue = []) ∨ ∃ k q, u.flight = none ∧ u.queue = k :: q ∧ startable u k
      ∧ u.slots.any Slot.isFree = true)
    (he : noEndDue u) (hd : u.replyDue = false) :
    EventKeeps u (commit u) ∧ ∀ x ∈ u.queue, asked (commit u) x := by
  rw [commit_active u ha]
  rcases hq with hs | ⟨k, q, hf, hqq, hst, hr⟩
  · rw [runStore_settled u hs, deliver_noEnd u ha he, deliverReply_none u hd]
    refine ⟨.trySleep u, ?_⟩
    intro x hx
    left
    unfold State.trySleep
    split <;> exact hx
  · obtain ⟨f, hrun, hfk⟩ := runStore_takes u k q ha hf hqq hst hr
    obtain ⟨y, hy⟩ : ∃ y : State, y = u.runStore := ⟨_, rfl⟩
    have hya : y.isActive = true := by rw [hy, hrun]; exact ha
    have hyn : noEndDue y := by
      rw [hy, hrun]
      exact ⟨begun_any_over _ _ he.1, begun_any_over _ _ he.2⟩
    have hyd : y.replyDue = false := by
      rw [hy, hrun]
      unfold State.replyDue at hd ⊢
      cases hc : u.cmd with
      | none => simp [State.mapWaiters]
      | some c =>
        simp only [hc] at hd
        simp only [State.mapWaiters, Option.map_some]
        cases hs : c.sent with
        | true => simp
        | false =>
          cases ho : c.waits.over with
          | false => simp [begun_not_over k c.waits ho]
          | true =>
            simp only [hs, ho, Bool.not_false, Bool.and_self, Bool.true_and] at hd
            have : u.planSegments c.plan = none := by
              cases h : u.planSegments c.plan with
              | none => rfl
              | some xs => simp [h] at hd
            cases hp : c.plan <;> simp_all [State.planSegments]
    rw [← hy, deliver_noEnd y hya hyn, deliverReply_none y hyd]
    have h0 : EventKeeps u y := by
      rw [hy, hrun]
      constructor <;> first | rfl | (intro l; cases l <;> rfl)
    have h1 := EventKeeps.trySleep y
    refine ⟨?_, ?_⟩
    · constructor
      all_goals first
        | (intro l; exact (h1.core l).trans (h0.core l))
        | skip
      exacts [h1.pending.trans h0.pending, h1.counter.trans h0.counter, h1.slots.trans h0.slots,
        h1.unsaved.trans h0.unsaved, h1.captures.trans h0.captures, h1.seq.trans h0.seq,
        h1.patrolCursor.trans h0.patrolCursor, h1.areaSettings.trans h0.areaSettings, h1.areaLoad.trans h0.areaLoad,
        h1.areaRoute.trans h0.areaRoute, h1.failed.trans h0.failed, h1.settings.trans h0.settings, h1.load.trans h0.load,
        h1.route.trans h0.route, h1.meters.trans h0.meters, h1.pump.trans h0.pump, h1.inputs.trans h0.inputs,
        h1.ignitionLow.trans h0.ignitionLow, h1.clock.trans h0.clock, h1.phase.trans h0.phase,
        h1.resetCause.trans h0.resetCause, h1.tx.trans h0.tx, h1.attention.trans h0.attention, h1.press.trans h0.press,
        h1.fresh.trans h0.fresh]
    · intro x hx
      rw [hqq] at hx
      have hfl : y.trySleep.flight = y.flight ∧ y.trySleep.queue = y.queue := by
        unfold State.trySleep
        split <;> exact ⟨rfl, rfl⟩
      rcases List.mem_cons.1 hx with rfl | hx
      · right; rw [hfl.1, hy, hrun]; exact hfk
      · left; rw [hfl.2, hy, hrun]; exact hx

/-! ## The deadman timer (R148, R149) -/

/-- A press leaves a stopped deadman timer stopped. -/
@[simp] theorem Timers.reload_stopped (interval : Nat) (t : Timers) (h : t.deadman = none) : t.reload interval = t := by
  simp [Timers.reload, h]

/-- A press loads a running deadman timer with its whole interval. -/
@[simp] theorem Timers.reload_running (interval : Nat) (t : Timers) (h : t.deadman.isSome = true) :
    t.reload interval = { t with deadman := some (interval * 1000000) } := by
  simp [Timers.reload, h]

/-- A press leaves every timer but the deadman timer as it was. -/
theorem Timers.reload_frame (interval : Nat) (t : Timers) : { t.reload interval with deadman := t.deadman } = t := by
  unfold Timers.reload; split <;> rfl

/-- Where a press has just reloaded a line's running deadman timer, its expiry uses up the mark and changes nothing else but what follows every event. -/
theorem execDeadmanExpiry_pressed (l : Line) (s : State) (hr : (s.line l).timers.deadman.isSome = true)
    (h : s.press.lines.get l = true) (ha : s.isActive = true) :
    execDeadmanExpiry l s = event (fun s => { s with press := { s.press with lines := s.press.lines.set l false } }) s := by
  have hn : (s.line l).timers.deadman.isNone = false := by
    rw [← Option.not_isSome, hr]; rfl
  simp [execDeadmanExpiry, activeEvent, event, comesUp_active s ha, h, hn, ha]

/-- The first row of a kind leaves the press in its moment. -/
theorem PressMark.row_first (k : TimeRow) (m : PressMark) (h : (m.lines.one || m.lines.two) = true)
    (hk : m.seen.contains k = false) : m.row k = { m with seen := k :: m.seen } := by
  simp only [PressMark.row, h, hk]; rfl

/-- The second row of a kind puts the press into the past. -/
theorem PressMark.row_second (k : TimeRow) (m : PressMark) (hk : m.seen.contains k = true) : m.row k = .none := by
  simp only [PressMark.row, hk]; simp

/-- Two rows of one kind leave no press in the present moment. -/
theorem PressMark.row_twice (k : TimeRow) (m : PressMark) : (m.row k).row k = .none := by
  cases h : (m.lines.one || m.lines.two) && !m.seen.contains k with
  | true =>
    have hr : m.row k = { m with seen := k :: m.seen } := if_pos h
    rw [hr]
    exact PressMark.row_second k _ (by simp)
  | false =>
    have hr : m.row k = .none := by unfold PressMark.row; rw [h]; rfl
    rw [hr]; rfl

end Sys2Proof.Machine
end

