-- ==== Sys2Proof/Laws/Ops.lean ====
section
/-! SUPPORT. What the shared operations of Machine/Ops.lean answer: lines and meters by name, lists numbered from 1, the write queue, and a record's image behind an update. -/

namespace Sys2Proof.Machine

/-! ## Pairs, lines and meters -/

@[simp] theorem get_modify_same {α : Type} (p : Pair α) (l : Line) (f : α → α) : (p.modify l f).get l = f (p.get l) := by
  cases l <;> rfl

@[simp] theorem get_modify_other {α : Type} (p : Pair α) (l : Line) (f : α → α) :
    (p.modify l f).get l.other = p.get l.other := by
  cases l <;> rfl

theorem get_modify_of_ne {α : Type} (p : Pair α) {l k : Line} (f : α → α) (h : k ≠ l) : (p.modify l f).get k = p.get k := by
  cases l <;> cases k <;> first | rfl | exact absurd rfl h

@[simp] theorem line_modLine_same (s : State) (l : Line) (f : LineCtx → LineCtx) : (s.modLine l f).line l = f (s.line l) :=
  get_modify_same _ _ _

theorem line_modLine_of_ne (s : State) {l k : Line} (f : LineCtx → LineCtx) (h : k ≠ l) :
    (s.modLine l f).line k = s.line k :=
  get_modify_of_ne _ _ h

@[simp] theorem meter_modLine (s : State) (l k : Line) (f : LineCtx → LineCtx) : (s.modLine l f).meter k = s.meter k := rfl

@[simp] theorem meter_modMeter_same (s : State) (l : Line) (f : Meter → Meter) :
    (s.modMeter l f).meter l = f (s.meter l) :=
  get_modify_same _ _ _

theorem meter_modMeter_of_ne (s : State) {l k : Line} (f : Meter → Meter) (h : k ≠ l) :
    (s.modMeter l f).meter k = s.meter k :=
  get_modify_of_ne _ _ h

@[simp] theorem line_modMeter (s : State) (l k : Line) (f : Meter → Meter) : (s.modMeter l f).line k = s.line k := rfl

/-! ## Lists numbered from 1 -/

@[simp] theorem length_modNth {α : Type} (f : α → α) : ∀ (xs : List α) (i : Nat), (modNth xs i f).length = xs.length
  | [], _ => rfl
  | _ :: _, 0 => rfl
  | _ :: xs, i + 1 => congrArg (· + 1) (length_modNth f xs i)

theorem getElem?_modNth {α : Type} (f : α → α) :
    ∀ (xs : List α) (i j : Nat), (modNth xs i f)[j]? = if j = i then (xs[j]?).map f else xs[j]?
  | [], i, j => by simp [modNth]
  | x :: xs, 0, 0 => by simp [modNth]
  | x :: xs, 0, j + 1 => by simp [modNth]
  | x :: xs, i + 1, 0 => by simp [modNth]
  | x :: xs, i + 1, j + 1 => by simpa [modNth] using getElem?_modNth f xs i j

@[simp] theorem length_modNth1 {α : Type} (xs : List α) (n : Nat) (f : α → α) : (modNth1 xs n f).length = xs.length := by
  unfold modNth1; split <;> simp

theorem nth1_modNth1 {α : Type} (xs : List α) (n m : Nat) (f : α → α) :
    nth1 (modNth1 xs n f) m = if m = n then (nth1 xs m).map f else nth1 xs m := by
  unfold nth1 modNth1
  by_cases hn : n = 0
  · subst hn; by_cases hm : m = 0 <;> simp [hm]
  · by_cases hm : m = 0
    · subst hm; simp
    · rw [if_neg hn, if_neg hm, if_neg hm, getElem?_modNth]
      by_cases h : m = n
      · subst h; simp
      · rw [if_neg h, if_neg (by omega)]

/-- A slot behind a change of a slot. -/
theorem slot_modSlot (s : State) (n m : Nat) (f : Slot → Slot) :
    (s.modSlot n f).slot m = if m = n then (s.slot m).map f else s.slot m :=
  nth1_modNth1 _ _ _ _

@[simp] theorem length_modSlot (s : State) (n : Nat) (f : Slot → Slot) : (s.modSlot n f).slots.length = s.slots.length :=
  length_modNth1 _ _ _

/-! ## The write queue (R32) -/

/-- An entry asked for waits. -/
theorem mem_enqueue (s : State) (k : Key) : k ∈ (s.enqueue k).queue := by
  unfold State.enqueue
  split
  · next h => exact List.contains_iff_mem.1 h
  · simp

/-- An entry that waits, waits still when another is asked for. -/
theorem mem_enqueue_of_mem (s : State) (k x : Key) (h : x ∈ s.queue) : x ∈ (s.enqueue k).queue := by
  unfold State.enqueue
  split
  · exact h
  · exact List.mem_append_left _ h

/-- What waits behind a request waited before, or is the entry asked for. -/
theorem mem_enqueue_iff (s : State) (k x : Key) : x ∈ (s.enqueue k).queue ↔ x ∈ s.queue ∨ x = k := by
  constructor
  · unfold State.enqueue
    split
    · exact Or.inl
    · intro h; simpa using h
  · rintro (h | rfl)
    · exact mem_enqueue_of_mem s k x h
    · exact mem_enqueue s x

/-- No entry stands twice behind a request, where none did (R32). -/
theorem nodup_enqueue (s : State) (k : Key) (h : s.queue.Nodup) : (s.enqueue k).queue.Nodup := by
  unfold State.enqueue
  split
  · exact h
  · next hk =>
    have : k ∉ s.queue := fun hm => hk (List.contains_iff_mem.2 hm)
    simp only [List.nodup_append, h, List.nodup_cons, List.not_mem_nil, not_false_eq_true, List.nodup_nil, and_self,
      List.mem_cons, or_false, forall_eq, true_and]
    rintro a ha rfl
    exact this ha

/-- No entry stands twice behind a move to the tail, where none did (R34). -/
theorem nodup_requeue (s : State) (k : Key) (h : s.queue.Nodup) : (s.requeue k).queue.Nodup := by
  unfold State.requeue
  simp only [List.nodup_append, h.erase k, List.nodup_cons, List.not_mem_nil, not_false_eq_true, List.nodup_nil, and_self,
    List.mem_cons, or_false, forall_eq, true_and]
  rintro a ha rfl
  exact (List.Nodup.mem_erase_iff h).1 ha |>.1 rfl

/-- An entry moved to the tail waits. -/
theorem mem_requeue (s : State) (k : Key) : k ∈ (s.requeue k).queue := by simp [State.requeue]

/-! ## A record's image (R2) -/

/-- The record a slot is home of, behind an update of the record with a stop. -/
theorem record?_modRecord (stop : Nat) (f : Record → Record) (x : Slot) :
    (x.modRecord stop f).record? = x.record?.map (fun r => if r.stop = stop then f r else r) := by
  cases x with
  | mk st program corr relocate leaving headers content =>
    cases st with
    | inUse h =>
      cases h with
      | record r => by_cases hr : r.stop = stop <;> simp [Slot.modRecord, Slot.record?, hr]
      | damaged => simp [Slot.modRecord, Slot.record?]
    | condemned r => by_cases hr : r.stop = stop <;> simp [Slot.modRecord, Slot.record?, hr]
    | _ => simp [Slot.modRecord, Slot.record?]

/-- The condition of a slot is not changed by an update of a record. -/
@[simp] theorem isFree_modRecord (stop : Nat) (f : Record → Record) (x : Slot) :
    (x.modRecord stop f).isFree = x.isFree := by
  unfold Slot.modRecord
  split
  · next h => split <;> simp [Slot.isFree, h]
  · next h => split <;> simp [Slot.isFree, h]
  · rfl

/-- The condition of a slot is not changed by an update of a record. -/
@[simp] theorem isRetired_modRecord (stop : Nat) (f : Record → Record) (x : Slot) :
    (x.modRecord stop f).isRetired = x.isRetired := by
  unfold Slot.modRecord
  split
  · next h => split <;> simp [Slot.isRetired, h]
  · next h => split <;> simp [Slot.isRetired, h]
  · rfl

/-- The image of each record behind an update of the record with a stop that keeps the stop. -/
theorem recordIn_map (stop : Nat) (f : Record → Record) (hf : ∀ r, (f r).stop = r.stop) (m : Nat) :
    ∀ xs : List Slot, recordIn m (xs.map (Slot.modRecord stop f))
      = (recordIn m xs).map (fun r => if r.stop = stop then f r else r)
  | [] => rfl
  | x :: xs => by
    have ih := recordIn_map stop f hf m xs
    simp only [List.map_cons, recordIn, record?_modRecord]
    cases hx : x.record? with
    | none => simpa using ih
    | some r =>
      have : (if r.stop = stop then f r else r).stop = r.stop := by split <;> simp [hf]
      by_cases hm : r.stop = m
      · simp only [Option.map_some, if_pos hm, if_pos (this.trans hm)]
      · simp only [Option.map_some, if_neg hm, if_neg (fun h => hm (this ▸ h)), ih]

/-- The image of the updated record. -/
theorem recOf_modRec_same (s : State) (stop : Nat) (f : Record → Record) (hf : ∀ r, (f r).stop = r.stop) :
    (s.modRec stop f).recOf stop = (s.recOf stop).map f := by
  unfold State.recOf State.modRec
  rw [recordIn_map stop f hf]
  cases h : recordIn stop s.slots with
  | none => rfl
  | some r => simp [recOf_stop s stop r h]

/-- Every other record's image stays. -/
theorem recOf_modRec_of_ne (s : State) (stop : Nat) (f : Record → Record) (hf : ∀ r, (f r).stop = r.stop) {m : Nat}
    (hm : m ≠ stop) : (s.modRec stop f).recOf m = s.recOf m := by
  unfold State.recOf State.modRec
  rw [recordIn_map stop f hf]
  cases h : recordIn m s.slots with
  | none => rfl
  | some r =>
    have : r.stop ≠ stop := by rw [recOf_stop s m r h]; exact hm
    simp [this]

/-- The image of the record whose image is changed and queued. -/
theorem recOf_changeRec_same (s : State) (stop : Nat) (f : Record → Record) (hf : ∀ r, (f r).stop = r.stop) :
    (s.changeRec stop f).recOf stop = (s.recOf stop).map f := by
  rw [← recOf_modRec_same s stop f hf]
  exact recOf_of_slots (by simp [State.changeRec]) stop

/-- A record whose image is changed has its store write asked for (R2). -/
theorem mem_changeRec (s : State) (stop : Nat) (f : Record → Record) : Key.record stop ∈ (s.changeRec stop f).queue :=
  mem_enqueue _ _

/-! ## Headers -/

/-- A header written to all three copies is their majority, with the slot's counts and the condition. -/
@[simp] theorem majority_writeHeader (c : HeaderCond) (x : Slot) :
    Headers.majority (x.writeHeader c).headers = some ⟨x.program, x.corr, c⟩ := by simp [Headers.majority, Slot.writeHeader]

/-- The condition a slot's header records is the one last written. -/
@[simp] theorem headerCond_writeHeader (c : HeaderCond) (x : Slot) : (x.writeHeader c).headerCond = c := by
  simp [Slot.headerCond]

/-- The home slots of every record stay behind an update that keeps the stop. -/
theorem homeOf_modRec (s : State) (stop : Nat) (f : Record → Record) (hf : ∀ r, (f r).stop = r.stop) (m : Nat) :
    (s.modRec stop f).homeOf m = s.homeOf m := by
  have hx : ∀ x : Slot, (x.modRecord stop f).holds m = x.holds m := by
    intro x
    unfold Slot.holds
    rw [record?_modRecord]
    cases x.record? with
    | none => rfl
    | some r => by_cases h : r.stop = stop <;> simp [h, hf]
  have key : ∀ (xs : List Slot) (n : Nat),
      findSlot (Slot.holds m) (xs.map (Slot.modRecord stop f)) n = findSlot (Slot.holds m) xs n := by
    intro xs
    induction xs with
    | nil => intro n; rfl
    | cons x xs ih => intro n; simp only [List.map_cons, findSlot, hx, ih]
  exact key _ _

/-- The count of FREE slots stays behind an update of a record. -/
theorem countFree_modRec (s : State) (stop : Nat) (f : Record → Record) :
    (s.modRec stop f).countSlots Slot.isFree = s.countSlots Slot.isFree := by
  unfold State.countSlots State.modRec
  rw [List.countP_map]
  congr 1
  funext x
  simp

end Sys2Proof.Machine
end

