-- ==== Sys2Proof/WellFormed.lean ====
section
/-! DEFINITION. Well-formed commands and events: what the outside world can send. A command's ranges are the command's own checks (R2), so every command is well formed; an event carries what an input, a probe or a read can show. -/

namespace Sys2Proof

/-- A byte offset of a correction runs from 0 to 255 (R39). -/
def ReadResult.wellFormed : ReadResult → Bool
  | .corrected offset => decide (offset ≤ 255)
  | _ => true

/-- The condition a header copy carries: a stop and a write sequence number in their ranges (R28, R29). -/
def HeaderCond.wellFormed : HeaderCond → Bool
  | .inUse stop seq => decide (1 ≤ stop ∧ stop ≤ 9999 ∧ 1 ≤ seq ∧ seq ≤ 4294967295)
  | _ => true

/-- A header copy holds a program count of 0 to 100,000 and a correction count of 0 to 2 (R28). -/
def Header.wellFormed (h : Header) : Bool := decide (h.program ≤ 100000 ∧ h.corr ≤ 2) && h.cond.wellFormed

/-- Three header copies. -/
def Headers.wellFormed (h : Headers) : Bool := h.first.wellFormed && h.second.wellFormed && h.third.wellFormed

/-- What a scan finds in one of the 80 slots (R47). -/
def SlotReads.wellFormed (r : SlotReads) : Bool :=
  decide (1 ≤ r.slot ∧ r.slot ≤ 80) && (r.headers.all Headers.wellFormed) && r.content.wellFormed

/-- Slot numbers strictly rise. -/
def slotsRise : List SlotReads → Bool
  | [] => true
  | [_] => true
  | x :: y :: xs => decide (x.slot < y.slot) && slotsRise (y :: xs)

/-- What a restart's reads find: each slot at most once, in ascending number (R47). -/
def RestartReads.wellFormed (r : RestartReads) : Bool := r.slots.all SlotReads.wellFormed && slotsRise r.slots

/-- A write's read-back that cannot be corrected does not agree with the image (R36). -/
def readBackOk (read : ReadResult) (agrees : Bool) : Bool := read.wellFormed && !(agrees && read == .uncorrectable)

/-- A well-formed command or event. An edge comes at least one sampling interval of 1 µs after the sample before it (R55). -/
def Instr.wellFormed : Instr → Bool
  | .pulserEdge _ _ us => decide (1 ≤ us)
  | .linkReset reads => reads.wellFormed
  | .powerOnRestart reads => reads.wellFormed
  | .recordWriteComplete read agrees => readBackOk read agrees
  | .patrolReadComplete read => read.wellFormed
  | _ => true

end Sys2Proof
end

