-- ==== Sys2Proof/Laws/PerInstr.lean ====
section
/-! SUPPORT. The family Formed, one lemma per row: every row is well formed whatever its operands, but for the five that carry a time or what a read found, which are well formed exactly as their operands are (R28, R36, R39, R47, R55). -/

namespace Sys2Proof.Laws

open Sys2Proof

/-- When a row is well formed. -/
def Formed.Statement (i : Instr) : Prop :=
  i.wellFormed = true ↔
    match i with
    | .pulserEdge _ _ us => 1 ≤ us
    | .linkReset reads => reads.wellFormed = true
    | .powerOnRestart reads => reads.wellFormed = true
    | .recordWriteComplete read agrees => read.wellFormed = true ∧ ¬(agrees = true ∧ read = .uncorrectable)
    | .patrolReadComplete read => read.wellFormed = true
    | _ => True

theorem Formed.ordNew : ∀ (stop account product : Nat) (kind : OrderKind) (preset price credit : Option Nat), Formed.Statement (.ordNew stop account product kind preset price credit) := fun _ _ _ _ _ _ _ => ⟨fun _ => trivial, fun _ => rfl⟩
theorem Formed.ordDrop : ∀ (stop k : Nat) (tank cap preset : Option Nat) (noCap noPreset : Bool), Formed.Statement (.ordDrop stop k tank cap preset noCap noPreset) := fun _ _ _ _ _ _ _ => ⟨fun _ => trivial, fun _ => rfl⟩
theorem Formed.ordDropClear : ∀ (stop : Nat), Formed.Statement (.ordDropClear stop) := fun _ => ⟨fun _ => trivial, fun _ => rfl⟩
theorem Formed.ordGet : ∀ (target : Target), Formed.Statement (.ordGet target) := fun _ => ⟨fun _ => trivial, fun _ => rfl⟩
theorem Formed.ordFind : ∀ (account : Nat) (start : Option Nat), Formed.Statement (.ordFind account start) := fun _ _ => ⟨fun _ => trivial, fun _ => rfl⟩
theorem Formed.ordList : ∀ (state : RecState) (start : Option Nat), Formed.Statement (.ordList state start) := fun _ _ => ⟨fun _ => trivial, fun _ => rfl⟩
theorem Formed.ordAmend : ∀ (stop : Nat) (a : Amend), Formed.Statement (.ordAmend stop a) := fun _ _ => ⟨fun _ => trivial, fun _ => rfl⟩
theorem Formed.ordHold : ∀ (stop : Nat), Formed.Statement (.ordHold stop) := fun _ => ⟨fun _ => trivial, fun _ => rfl⟩
theorem Formed.ordRelease : ∀ (stop : Nat), Formed.Statement (.ordRelease stop) := fun _ => ⟨fun _ => trivial, fun _ => rfl⟩
theorem Formed.ordCancel : ∀ (stop : Nat), Formed.Statement (.ordCancel stop) := fun _ => ⟨fun _ => trivial, fun _ => rfl⟩
theorem Formed.ordRetire : ∀ (target : Target), Formed.Statement (.ordRetire target) := fun _ => ⟨fun _ => trivial, fun _ => rfl⟩
theorem Formed.tktGet : ∀ (stop : Nat), Formed.Statement (.tktGet stop) := fun _ => ⟨fun _ => trivial, fun _ => rfl⟩
theorem Formed.tktIssue : ∀ (stop : Nat), Formed.Statement (.tktIssue stop) := fun _ => ⟨fun _ => trivial, fun _ => rfl⟩
theorem Formed.lnArm : ∀ (line stop : Nat) (comp : Option Nat) (purge : Bool), Formed.Statement (.lnArm line stop comp purge) := fun _ _ _ _ => ⟨fun _ => trivial, fun _ => rfl⟩
theorem Formed.lnDisarm : ∀ (line : Nat), Formed.Statement (.lnDisarm line) := fun _ => ⟨fun _ => trivial, fun _ => rfl⟩
theorem Formed.lnStart : ∀ (line : Nat), Formed.Statement (.lnStart line) := fun _ => ⟨fun _ => trivial, fun _ => rfl⟩
theorem Formed.lnNext : ∀ (line : Nat), Formed.Statement (.lnNext line) := fun _ => ⟨fun _ => trivial, fun _ => rfl⟩
theorem Formed.lnResume : ∀ (line : Nat), Formed.Statement (.lnResume line) := fun _ => ⟨fun _ => trivial, fun _ => rfl⟩
theorem Formed.lnPause : ∀ (line : Nat), Formed.Statement (.lnPause line) := fun _ => ⟨fun _ => trivial, fun _ => rfl⟩
theorem Formed.lnEnddrop : ∀ (line : Nat), Formed.Statement (.lnEnddrop line) := fun _ => ⟨fun _ => trivial, fun _ => rfl⟩
theorem Formed.lnClose : ∀ (line : Nat), Formed.Statement (.lnClose line) := fun _ => ⟨fun _ => trivial, fun _ => rfl⟩
theorem Formed.lnRunPrime : ∀ (line : Nat) (comp : Option Nat), Formed.Statement (.lnRunPrime line comp) := fun _ _ => ⟨fun _ => trivial, fun _ => rfl⟩
theorem Formed.lnRunProve : ∀ (line : Nat) (comp : Option Nat), Formed.Statement (.lnRunProve line comp) := fun _ _ => ⟨fun _ => trivial, fun _ => rfl⟩
theorem Formed.lnSetup : ∀ (line : Nat), Formed.Statement (.lnSetup line) := fun _ => ⟨fun _ => trivial, fun _ => rfl⟩
theorem Formed.lnAck : ∀ (line : Nat), Formed.Statement (.lnAck line) := fun _ => ⟨fun _ => trivial, fun _ => rfl⟩
theorem Formed.lnStat : ∀ (line : Nat), Formed.Statement (.lnStat line) := fun _ => ⟨fun _ => trivial, fun _ => rfl⟩
theorem Formed.cmpLoad : ∀ (comp product volume : Nat) (empty : Bool), Formed.Statement (.cmpLoad comp product volume empty) := fun _ _ _ _ => ⟨fun _ => trivial, fun _ => rfl⟩
theorem Formed.cmpGet : ∀ (comp : Option Nat), Formed.Statement (.cmpGet comp) := fun _ => ⟨fun _ => trivial, fun _ => rfl⟩
theorem Formed.hoseEmpty : ∀ (line : Nat), Formed.Statement (.hoseEmpty line) := fun _ => ⟨fun _ => trivial, fun _ => rfl⟩
theorem Formed.prdPut : ∀ (code : Nat) (f : PrdFields), Formed.Statement (.prdPut code f) := fun _ _ => ⟨fun _ => trivial, fun _ => rfl⟩
theorem Formed.prdGet : ∀ (code : Option Nat), Formed.Statement (.prdGet code) := fun _ => ⟨fun _ => trivial, fun _ => rfl⟩
theorem Formed.setPut : ∀ (items : List SetItem), Formed.Statement (.setPut items) := fun _ => ⟨fun _ => trivial, fun _ => rfl⟩
theorem Formed.setGet : ∀ (latched : Option Nat), Formed.Statement (.setGet latched) := fun _ => ⟨fun _ => trivial, fun _ => rfl⟩
theorem Formed.calPutPr : ∀ (line pr : Nat), Formed.Statement (.calPutPr line pr) := fun _ _ => ⟨fun _ => trivial, fun _ => rfl⟩
theorem Formed.calPutHose : ∀ (line volume : Nat), Formed.Statement (.calPutHose line volume) := fun _ _ => ⟨fun _ => trivial, fun _ => rfl⟩
theorem Formed.calPutSet : ∀ (line product : Nat) (bands : Option CalSet), Formed.Statement (.calPutSet line product bands) := fun _ _ _ => ⟨fun _ => trivial, fun _ => rfl⟩
theorem Formed.calPutAlpha : ∀ (product alpha : Nat), Formed.Statement (.calPutAlpha product alpha) := fun _ _ => ⟨fun _ => trivial, fun _ => rfl⟩
theorem Formed.calPutComp : ∀ (product : Nat) (on : Bool), Formed.Statement (.calPutComp product on) := fun _ _ => ⟨fun _ => trivial, fun _ => rfl⟩
theorem Formed.calPutCap : ∀ (comp capacity : Nat), Formed.Statement (.calPutCap comp capacity) := fun _ _ => ⟨fun _ => trivial, fun _ => rfl⟩
theorem Formed.calGet : ∀ (set : Option (Nat × Nat)), Formed.Statement (.calGet set) := fun _ => ⟨fun _ => trivial, fun _ => rfl⟩
theorem Formed.rteOpen : ∀ (number : Nat), Formed.Statement (.rteOpen number) := fun _ => ⟨fun _ => trivial, fun _ => rfl⟩
theorem Formed.rteClose : Formed.Statement (.rteClose) := ⟨fun _ => trivial, fun _ => rfl⟩
theorem Formed.rteTotals : Formed.Statement (.rteTotals) := ⟨fun _ => trivial, fun _ => rfl⟩
theorem Formed.clkSet : ∀ (value : Nat), Formed.Statement (.clkSet value) := fun _ => ⟨fun _ => trivial, fun _ => rfl⟩
theorem Formed.clkGet : Formed.Statement (.clkGet) := ⟨fun _ => trivial, fun _ => rfl⟩
theorem Formed.status : Formed.Statement (.status) := ⟨fun _ => trivial, fun _ => rfl⟩
theorem Formed.ident : Formed.Statement (.ident) := ⟨fun _ => trivial, fun _ => rfl⟩
theorem Formed.store : ∀ (slot : Option Nat), Formed.Statement (.store slot) := fun _ => ⟨fun _ => trivial, fun _ => rfl⟩
theorem Formed.capClear : Formed.Statement (.capClear) := ⟨fun _ => trivial, fun _ => rfl⟩
theorem Formed.commandLine : Formed.Statement (.commandLine) := ⟨fun _ => trivial, fun _ => rfl⟩
theorem Formed.lineGapTimeout : Formed.Statement (.lineGapTimeout) := ⟨fun _ => trivial, fun _ => rfl⟩
theorem Formed.replyLineSent : Formed.Statement (.replyLineSent) := ⟨fun _ => trivial, fun _ => rfl⟩
theorem Formed.breakBegin : ∀ (wake : Pair Reading), Formed.Statement (.breakBegin wake) := fun _ => ⟨fun _ => trivial, fun _ => rfl⟩
theorem Formed.linkReset : ∀ (reads : RestartReads), Formed.Statement (.linkReset reads) := fun _ => Iff.rfl
theorem Formed.linkWake : ∀ (wake : Pair Reading), Formed.Statement (.linkWake wake) := fun _ => ⟨fun _ => trivial, fun _ => rfl⟩
theorem Formed.pulserEdge : ∀ (line : Line) (phase : PulserPhase) (us : Nat), Formed.Statement (.pulserEdge line phase us) := fun _ _ _ => decide_eq_true_iff
theorem Formed.phaseError : ∀ (line : Line), Formed.Statement (.phaseError line) := fun _ => ⟨fun _ => trivial, fun _ => rfl⟩
theorem Formed.periodOverflow : ∀ (line : Line), Formed.Statement (.periodOverflow line) := fun _ => ⟨fun _ => trivial, fun _ => rfl⟩
theorem Formed.quietTimerExpiry : ∀ (line : Line), Formed.Statement (.quietTimerExpiry line) := fun _ => ⟨fun _ => trivial, fun _ => rfl⟩
theorem Formed.temperatureSample : ∀ (line : Line) (reading : Reading), Formed.Statement (.temperatureSample line reading) := fun _ _ => ⟨fun _ => trivial, fun _ => rfl⟩
theorem Formed.windowExpiry : ∀ (line : Line), Formed.Statement (.windowExpiry line) := fun _ => ⟨fun _ => trivial, fun _ => rfl⟩
theorem Formed.stepExpiry : ∀ (line : Line), Formed.Statement (.stepExpiry line) := fun _ => ⟨fun _ => trivial, fun _ => rfl⟩
theorem Formed.settleExpiry : ∀ (line : Line), Formed.Statement (.settleExpiry line) := fun _ => ⟨fun _ => trivial, fun _ => rfl⟩
theorem Formed.noFlowExpiry : ∀ (line : Line), Formed.Statement (.noFlowExpiry line) := fun _ => ⟨fun _ => trivial, fun _ => rfl⟩
theorem Formed.deadmanExpiry : ∀ (line : Line), Formed.Statement (.deadmanExpiry line) := fun _ => ⟨fun _ => trivial, fun _ => rfl⟩
theorem Formed.autoCloseExpiry : ∀ (line : Line), Formed.Statement (.autoCloseExpiry line) := fun _ => ⟨fun _ => trivial, fun _ => rfl⟩
theorem Formed.checkpointExpiry : ∀ (line : Line), Formed.Statement (.checkpointExpiry line) := fun _ => ⟨fun _ => trivial, fun _ => rfl⟩
theorem Formed.permitDeasserted : Formed.Statement (.permitDeasserted) := ⟨fun _ => trivial, fun _ => rfl⟩
theorem Formed.permitAsserted : Formed.Statement (.permitAsserted) := ⟨fun _ => trivial, fun _ => rfl⟩
theorem Formed.ignitionLow : Formed.Statement (.ignitionLow) := ⟨fun _ => trivial, fun _ => rfl⟩
theorem Formed.ignitionHigh : ∀ (wake : Pair Reading), Formed.Statement (.ignitionHigh wake) := fun _ => ⟨fun _ => trivial, fun _ => rfl⟩
theorem Formed.airAsserted : ∀ (line : Line), Formed.Statement (.airAsserted line) := fun _ => ⟨fun _ => trivial, fun _ => rfl⟩
theorem Formed.airDeasserted : ∀ (line : Line), Formed.Statement (.airDeasserted line) := fun _ => ⟨fun _ => trivial, fun _ => rfl⟩
theorem Formed.deadmanPress : Formed.Statement (.deadmanPress) := ⟨fun _ => trivial, fun _ => rfl⟩
theorem Formed.sealOpens : Formed.Statement (.sealOpens) := ⟨fun _ => trivial, fun _ => rfl⟩
theorem Formed.sealCloses : Formed.Statement (.sealCloses) := ⟨fun _ => trivial, fun _ => rfl⟩
theorem Formed.powerFailAsserted : Formed.Statement (.powerFailAsserted) := ⟨fun _ => trivial, fun _ => rfl⟩
theorem Formed.flushDeadline : ∀ (which : Deadline), Formed.Statement (.flushDeadline which) := fun _ => ⟨fun _ => trivial, fun _ => rfl⟩
theorem Formed.powerOnRestart : ∀ (reads : RestartReads), Formed.Statement (.powerOnRestart reads) := fun _ => Iff.rfl
theorem Formed.sleepEntry : Formed.Statement (.sleepEntry) := ⟨fun _ => trivial, fun _ => rfl⟩
theorem Formed.clockTick : Formed.Statement (.clockTick) := ⟨fun _ => trivial, fun _ => rfl⟩
theorem Formed.recordWriteComplete : ∀ (read : ReadResult) (agrees : Bool), Formed.Statement (.recordWriteComplete read agrees) := by
  intro read agrees
  cases agrees <;> cases read <;> simp [Formed.Statement, Instr.wellFormed, readBackOk, ReadResult.wellFormed]
theorem Formed.blockWriteComplete : ∀ (agrees : Bool), Formed.Statement (.blockWriteComplete agrees) := fun _ => ⟨fun _ => trivial, fun _ => rfl⟩
theorem Formed.releaseComplete : Formed.Statement (.releaseComplete) := ⟨fun _ => trivial, fun _ => rfl⟩
theorem Formed.patrolIdleExpiry : Formed.Statement (.patrolIdleExpiry) := ⟨fun _ => trivial, fun _ => rfl⟩
theorem Formed.patrolReadComplete : ∀ (read : ReadResult), Formed.Statement (.patrolReadComplete read) := fun _ => Iff.rfl
theorem Formed.characterReceived : ∀ (c : Byte), Formed.Statement (.characterReceived c) := fun _ => ⟨fun _ => trivial, fun _ => rfl⟩
theorem Formed.breakEnd : Formed.Statement (.breakEnd) := ⟨fun _ => trivial, fun _ => rfl⟩
theorem Formed.deadmanRelease : Formed.Statement (.deadmanRelease) := ⟨fun _ => trivial, fun _ => rfl⟩

end Sys2Proof.Laws
end

