-- ==== Sys2Proof/Laws/Restart.lean ====
section
/-! SUPPORT. What a restart reads from the areas of the blocks: the check word a write stores, and the comparison with it (R50, R155, R156). -/

namespace Sys2Proof.Machine

variable {α : Type} (image : α → BlockImage)

/-- What a write stores matches its check word. -/
theorem Stored.write_matched (b : α) : (Stored.write image b).matched image := rfl

/-- The comparison at a restart is the one `matched` names. -/
theorem Stored.good_iff (c : Stored α) : c.good image = true ↔ c.matched image := by
  simp [Stored.good, Stored.matched]

/-- An area that cannot be read gives no block. -/
@[simp] theorem readArea_bad (area : Option (Stored α)) : readArea image area .bad = none := if_pos rfl

/-- A blank area gives no block. -/
@[simp] theorem readArea_blank (r : AreaRead) : readArea image none r = none := by
  unfold readArea; split <;> rfl

/-- An area that can be read gives its block where the block matches its check word. -/
theorem readArea_matched (c : Stored α) (r : AreaRead) (hr : r ≠ .bad) (h : c.matched image) :
    readArea image (some c) r = some c.block := by
  simp [readArea, hr, (Stored.good_iff image c).2 h]

/-- An area whose block does not match its check word gives none. -/
theorem readArea_unmatched (c : Stored α) (r : AreaRead) (h : ¬ c.matched image) : readArea image (some c) r = none := by
  have hg : c.good image = false := by
    cases hc : c.good image with
    | false => rfl
    | true => exact absurd ((Stored.good_iff image c).1 hc) h
  simp [readArea, hg]

/-- What a write stored is read back whole. -/
@[simp] theorem readArea_write (b : α) (r : AreaRead) (hr : r ≠ .bad) :
    readArea image (some (.write image b)) r = some b :=
  readArea_matched image _ r hr (Stored.write_matched image b)

/-- Power applied to a part that holds makes the restart. -/
theorem execPowerOnRestart_hold (r : RestartReads) (s : State) (h : s.phase = .hold) :
    execPowerOnRestart r s = .next (commit (s.restart .powerOn r)) := by
  rw [execPowerOnRestart, event_eq _ s (by simp [h])]
  simp [State.powerOn, h]

end Sys2Proof.Machine
end

