-- ==== Sys2Proof/Tests/Slice0.lean ====
section
/-! SUPPORT. Small tests: ill-formed events refused, worked cases of the spec, and for every statement a state that meets its hypotheses, with what its command does there. -/

namespace Sys2Proof.Tests

open Sys2Proof Sys2Proof.Machine

set_option Elab.async false

/-! ## Small states -/

/-- The outcome is a next state that satisfies a test. -/
def holds (o : Host.Outcome State Fault Refusal) (p : State → Bool) : Bool :=
  match o with
  | .next t => p t
  | _ => false

/-- A calibrated, defined product. -/
def diesel : Product := ⟨⟨charBytes ['D', 'S', 'L'], 1249, 500, true⟩, 845, true⟩

/-- Settings of a truck in service. -/
def inService : Settings :=
  { Settings.default with
    lines := ⟨⟨some 400, some 500, 50⟩, ⟨some 400, some 0, 50⟩⟩
    sets := ⟨some ⟨[(300, 100100)], 99900⟩ :: List.replicate 5 none, some ⟨[], 100000⟩ :: List.replicate 5 none⟩
    products := diesel :: List.replicate 5 ⟨⟨[], 1, 0, false⟩, 0, false⟩
    caps := [500000, 400000, 0, 0], calCount := 3, countLost := false, calLost := false }

/-- A truck in service: two IDLE lines, compartment 1 loaded, the store idle, the route OPEN. -/
def truck : State :=
  { State.reset with
    queue := [], flight := none, failed := ⟨false, false, false⟩
    settings := inService
    load := ⟨[⟨some 1, 300000, 0⟩, ⟨none, 0, 0⟩, ⟨none, 0, 0⟩, ⟨none, 0, 0⟩], ⟨.product 1, .empty⟩, 0⟩
    route := { RouteBlock.factory with isOpen := true, number := some 7 }
    lines := ⟨.atRest .idle 50, .atRest .idle 50⟩
    inputs := { Inputs.quiet with permit := true, ignition := true }
    clock := ⟨⟨2024, 5, 6, 7, 8, 9⟩, true⟩ }

/-- An order of two drops. -/
def order : Record :=
  { stop := 12, account := 4711, state := .planned, product := 1, kind := .volume, preset := some 100000, price := none
    credit := none, drops := [⟨1, none, none, .pending⟩, ⟨2, none, some 40000, .pending⟩], binding := none, attempts := 0
    restored := .none, ticket := none, issues := 0, flags := .empty }

/-- A slot holds a record. -/
def put (n : Nat) (r : Record) (s : State) : State :=
  s.modSlot n (fun x => { x with st := .inUse (.record r), content := some r })

/-- The truck with an order in slot 3. -/
def planned : State := put 3 order truck

/-- The truck with line 1's context, its record, and its place in the pump binding. -/
def onLine (c : LineCtx) (r : Record) : State :=
  { put 3 r truck with lines := ⟨c, .atRest .idle 50⟩, pump := some ⟨1, ⟨true, false⟩⟩ }

/-- The order bound to line 1. -/
def bound : Record := { order with state := .bound, binding := some ⟨.one, 1, false⟩ }

/-- Line 1 ARMED. -/
def armedLine : LineCtx := { LineCtx.atRest .armed 50 with bound := some 12, latched := some inService.latch }

/-- Line 1 ARMED with its order. -/
def armed : State := onLine armedLine bound

/-- The order with drop 1 ACTIVE. -/
def started (gross net : Nat) : Record :=
  { bound with
    price := some 1249, restored := .checkpoint
    drops := [⟨1, none, none, .active ⟨gross, net, 0⟩⟩, ⟨2, none, some 40000, .pending⟩] }

/-- Line 1 of an ORDER run in FLOWING. -/
def flowingLine : LineCtx :=
  LineCtx.toFlowing inService.run 0
    { armedLine with kind := some .order, limit := some (.cl 100000), reserved := true }

/-- Line 1 FLOWING, a delivery's first drop ACTIVE. -/
def flowing : State := onLine flowingLine (started 300000000 299000000)

/-- Line 1 FLOWING on both stages. -/
def flowingHigh : State := onLine { flowingLine with cmdHigh := true } (started 300000000 299000000)

/-- Line 1 in a stop, LOW still open. -/
def stopping (i : StopIntent) : State :=
  onLine (LineCtx.stopped inService.run i 29900 { flowingLine with cmdHigh := true }) (started 300000000 299000000)

/-- Line 1 in SETTLING with an intent. -/
def settling (i : StopIntent) : State :=
  onLine (LineCtx.stopped inService.run i 29900 flowingLine) (started 300000000 299000000)

/-- Line 1's context in PAUSED with a cause. -/
def pausedLine (x : PauseCause) : LineCtx := LineCtx.toPaused inService.run x flowingLine

/-- Line 1 PAUSED, its first drop ACTIVE. -/
def paused (x : PauseCause) : State := onLine (pausedLine x) (started 300000000 299000000)

/-- Line 1 PAUSED between drops. -/
def between : State :=
  onLine { pausedLine .dropEnd with limit := none }
    { started 0 0 with
      drops := [⟨1, none, none, .done ⟨300000000, 299000000, 0⟩ 30000 29900 .limit⟩, ⟨2, none, some 40000, .pending⟩] }

/-- Line 2 PAUSED in a run without a record on compartment 1. -/
def pausedRun (k : RunKind) : State :=
  { truck with
    lines := ⟨.atRest .idle 50, { LineCtx.toPaused inService.run .driver
      { LineCtx.atRest .idle 50 with kind := some k, latched := some inService.latch, limit := some (.cl 600)
                                     runGross := some 5120000, runNet := some 5090000 } with st := .paused }⟩
    meters := ⟨truck.meters.one, { truck.meters.two with fwdTotal := 210, revTotal := 3 }⟩
    settings := { inService with lines := ⟨inService.lines.one, ⟨some 400, some 500, 50⟩⟩ }
    pump := some ⟨1, ⟨false, true⟩⟩ }

/-- The seal open. -/
def unsealed (s : State) : State := { s with inputs := { s.inputs with sealOpen := true } }

/-- The reply code of the last line given to the transmitter. -/
def answer (t : State) : Option ReplyStatus := t.tx.getLast?.map (·.status)

/-! ## Well-formedness: what no input, read or probe can send -/

/-- An edge less than one sampling interval after the one before. -/
theorem test_ill_edge : Instr.wellFormed (.pulserEdge .one .a 0) = false ∧ Instr.wellFormed (.pulserEdge .one .a 1) = true := by
  decide

/-- A correction beyond the content. -/
theorem test_ill_offset : Instr.wellFormed (.patrolReadComplete (.corrected 256)) = false
    ∧ Instr.wellFormed (.patrolReadComplete (.corrected 255)) = true := by decide

/-- An uncorrectable read-back that agrees. -/
theorem test_ill_readback : Instr.wellFormed (.recordWriteComplete .uncorrectable true) = false
    ∧ Instr.wellFormed (.recordWriteComplete .uncorrectable false) = true := by decide

/-- A restart that reads the slots of a list clean. -/
def reads (xs : List SlotReads) : RestartReads := ⟨xs, .good, .good, .good⟩

/-- A slot outside the 80, slots out of order, a header outside its ranges. -/
theorem test_ill_reads :
    Instr.wellFormed (.powerOnRestart (reads [⟨81, none, .clean, 0⟩])) = false
    ∧ Instr.wellFormed (.powerOnRestart (reads [⟨0, none, .clean, 0⟩])) = false
    ∧ Instr.wellFormed (.linkReset (reads [⟨5, none, .clean, 0⟩, ⟨5, none, .clean, 0⟩])) = false
    ∧ Instr.wellFormed (.linkReset (reads [⟨5, some ⟨⟨100001, 0, .free⟩, factoryHeader, factoryHeader⟩, .clean, 0⟩])) = false
    ∧ Instr.wellFormed (.linkReset (reads [⟨5, some ⟨⟨0, 3, .free⟩, factoryHeader, factoryHeader⟩, .clean, 0⟩])) = false
    ∧ Instr.wellFormed (.linkReset (reads [⟨5, some ⟨⟨0, 0, .inUse 0 1⟩, factoryHeader, factoryHeader⟩, .clean, 0⟩])) = false
    ∧ Instr.wellFormed (.linkReset (reads [⟨5, some ⟨⟨0, 0, .inUse 9 0⟩, factoryHeader, factoryHeader⟩, .clean, 0⟩])) = false
    ∧ Instr.wellFormed (.powerOnRestart (reads [⟨1, none, .clean, 0⟩, ⟨80, none, .clean, 0⟩])) = true := by decide

/-! ## Step, idle, reset and the laws -/

/-- A command in front (StepRunsTheFrontCommand, EveryRowAnswersNext). -/
theorem test_wit_step : ({ truck with pending := [.clkGet] } : State).pending = .clkGet :: []
    ∧ step { truck with pending := [.clkGet] } = exec .clkGet { truck with pending := [] } := ⟨rfl, rfl⟩

/-- An idle µs in FLOWING (IdleStepPassesOneMicrosecond). -/
theorem test_wit_idle : flowing.pending = [] ∧ flowing.isActive = true
    ∧ holds (step flowing) (fun t => decide ((t.line .one).timers.window = some 99999
        ∧ (t.line .one).timers.noFlow = some 19999999)) = true
    ∧ (let s := { truck with
          rx := ⟨some [], false, 499999, some 999999⟩, inputs := { truck.inputs with ignition := false }, ignitionLow := 7
          meters := ⟨{ truck.meters.one with period := .measure 16777216, quiet := 5 }, truck.meters.two⟩ }
       holds (step s) (fun t => decide (t.rx = ⟨some [], false, 500000, some 1000000⟩ ∧ t.ignitionLow = 8
          ∧ t.patrolIdle = s.patrolIdle + 1 ∧ (t.meter .one).period = .measure 16777216 ∧ (t.meter .one).quiet = 6)) = true)
    := by decide +kernel

/-- The laws hold of a state that steps (SlotLawKept, QueueLawKept, ValveLawKept, AnticipationKept, MeterCountsKept, SettledKept). -/
theorem test_wit_laws :
    (flowing.slots.length = 80
        ∧ flowing.countSlots Slot.isLive + flowing.countSlots Slot.isFree + flowing.countSlots Slot.isRetired = 80
        ∧ (flowing.records.map (·.stop)).Nodup)
    ∧ flowing.queue.Nodup ∧ (flowing.lines.one.cmdLow = true ∧ flowing.lines.one.st = .flowing)
    ∧ (flowing.lines.one.cmdHigh = false ∧ flowing.lines.two.cmdLow = false ∧ flowing.lines.two.cmdHigh = false)
    ∧ (flowing.lines.one.antic ≤ 2000 ∧ flowing.lines.two.antic ≤ 2000 ∧ flowing.settings.lines.one.antic ≤ 2000
        ∧ flowing.settings.lines.two.antic ≤ 2000 ∧ flowing.areaSettings = none ∧ flowing.flight = none)
    ∧ (flowing.meters.one.quiet ≤ 1000000 ∧ flowing.meters.one.creep ≤ 65535) ∧ flowing.settled = true
    ∧ holds (step { flowing with pending := [.windowExpiry .one] }) (fun t => t.settled) = true := by decide +kernel

/-! ## Outputs -/

/-- Stages and pump of a flowing line, and of one whose PERMIT is lost (ValveStagesAndPump). -/
theorem test_wit_outputs : flowingHigh.isActive = true ∧ flowingHigh.inputs.permit = true ∧ flowingHigh.inputs.ignition = true
    ∧ flowingHigh.inputs.powerFail = false ∧ (flowingHigh.line .one).st = .flowing ∧ flowingHigh.mode = .run
    ∧ flowingHigh.outLow .one = true ∧ flowingHigh.outHigh .one = true ∧ flowingHigh.outPump = true
    ∧ flowingHigh.outOutlet 1 = true ∧ flowingHigh.outOutlet 2 = false
    ∧ ({ flowingHigh with inputs := Inputs.quiet } : State).outLow .one = false
    ∧ (stopping .pause).outLow .one = true ∧ (stopping .pause).outHigh .one = false ∧ planned.outPump = false
    ∧ truck.attentionSet = [] ∧ truck.attnOut = false ∧ (truck.setAttention .two).attentionSet = [.LINE2]
    ∧ (truck.setAttention .two).attnOut = true ∧ ({ truck with settings := { inService with attnHigh := false } } : State).attnOut = true
    ∧ ({ State.reset with phase := .hold } : State).attnOut = false := by decide +kernel

/-! ## Arithmetic: worked cases -/

/-- A volume inside and outside its cap (VmaxIsTheLargest, R90). -/
theorem test_wit_vmax : vmax 1249 500 100000 ≤ 2000000 ∧ lineTotal (vmax 1249 500 100000) 1249 500 ≤ 100000
    ∧ 100000 < lineTotal (vmax 1249 500 100000 + 1) 1249 500 ∧ lineTotal 50781 1249 500 = 66596 := by decide +kernel

/-- VCF at the reference, in the cold, in the heat, and at both ends of the range (VcfRule, R81). -/
theorem test_wit_vcf : vcfOf 845 true 1500 = 1000000 ∧ vcfOf 845 true 2500 = 991550 ∧ vcfOf 845 true 500 = 1008450
    ∧ vcfOf 2000 true (-4000) = 1110000 ∧ vcfOf 2000 true 6000 = 910000 ∧ vcfOf 1 true 1450 = 1000001
    ∧ vcfOf 1 true 1550 = 999999 ∧ vcfOf 1 true 1549 = 1000000 ∧ vcfOf 845 false 2500 = 1000000 := by decide +kernel

/-- The three cases of the reverse balance, and the remainders of a batch (ConversionStages). -/
theorem test_wit_conversion : settleReverse 5 3 7 = (9, 0) ∧ settleReverse 5 4 4 = (5, 0) ∧ settleReverse 5 9 6 = (2, 0)
    ∧ settleReverse 5 19 6 = (0, 8) ∧ settleReverse 4294967295 0 1 = (4294967295, 0)
    ∧ grossStage 400 100000 7 3 = (7500, 7) ∧ netStage 991550 999999 10 = (10, 915499) := by decide +kernel

/-- Anticipation: up, down, halves away from zero, both ends (AnticipationLearned, R107). -/
theorem test_wit_learned : learned 50 74 = 56 ∧ learned 50 50 = 50 ∧ learned 50 52 = 51 ∧ learned 50 48 = 49
    ∧ learned 50 51 = 50 ∧ learned 1990 9000 = 2000 ∧ learned 5 (-900) = 0 := by decide +kernel

/-- Each term of the drop limit as the least one, and none present (DropLimitIsTheLeastTerm). -/
theorem test_wit_limit :
    order.limitOf ⟨1, none, none, .pending⟩ 1249 500 = .cl 100000
    ∧ order.limitOf ⟨1, some 700, none, .pending⟩ 1249 500 = .cl 700
    ∧ order.limitOf ⟨1, some 700, some 600, .pending⟩ 1249 500 = .cl 600
    ∧ ({ order with credit := some 100 } : Record).limitOf ⟨1, some 700, some 600, .pending⟩ 1249 500 = .cl (vmax 1249 500 100)
    ∧ ({ order with kind := .fill, preset := none } : Record).limitOf ⟨1, none, none, .pending⟩ 1249 500 = .unlimited := by
  decide +kernel

/-- A closing record with and without a changeover line (TicketLinesKeepTheNet). -/
theorem test_wit_lines :
    (ticketLines { order with drops := [⟨1, none, none, .done ⟨0, 0, 0⟩ 50800 50781 .limit⟩] } false 500 (.product 2)
        inService.latch 1249 500).map (fun x => (x.net, x.amount, x.tax)) = [(50781, 63425, 3171)]
    ∧ (ticketLines { order with drops := [⟨1, none, none, .done ⟨0, 0, 0⟩ 50800 50781 .limit⟩] } true 500 (.product 2)
        inService.latch 1249 500).map (fun x => (x.kind, x.net)) = [(.changeover, 500), (.drop 1, 50281)]
    ∧ (ticketLines { order with drops := [⟨1, none, none, .done ⟨0, 0, 0⟩ 300 300 .limit⟩] } true 500 .mixed
        inService.latch 1249 500).map (fun x => (x.kind, x.net)) = [(.changeover, 300)] := by decide +kernel

/-- The least worn slot (LeastWornSlot). -/
theorem test_wit_slot : planned.allocate none = some 1
    ∧ ((planned.modSlot 1 (fun x => { x with program := 9 })).modSlot 2 (fun x => { x with program := 8 })).allocate none = some 4
    ∧ planned.allocate (some 1) = some 2
    ∧ ∃ x, planned.slot 1 = some x ∧ x.isFree = true := ⟨by decide +kernel, by decide +kernel, by decide +kernel, _, rfl, rfl⟩

/-- Rates and bands at a bound and above it (RateAndBand). -/
theorem test_wit_rate : rateOf 400 12000 = 500 ∧ bandOfSet ⟨[(300, 100100)], 99900⟩ 300 = 1
    ∧ bandOfSet ⟨[(300, 100100)], 99900⟩ 301 = 2 ∧ bandOfSet ⟨[], 99900⟩ 301 = 1
    ∧ nth1 [(300, 100100)] (bandOfSet ⟨[(300, 100100)], 99900⟩ 300) = some (300, 100100) := by decide +kernel

/-! ## Orders and tickets -/

/-- ORD.NEW (OrdNewCreatesThePlannedRecord). -/
theorem test_wit_ordNew : planned.hears = true ∧ planned.settled = true ∧ (planned.settings.product 1).entry.defined = true
    ∧ planned.recOf 13 = none ∧ 5 ≤ planned.countSlots Slot.isFree
    ∧ holds (exec (.ordNew 13 1 1 .volume (some 2000000) (some 99999) (some 0)) planned) (fun t => decide (t.homeOf 13 = some 1
        ∧ (t.recOf 13).map (·.preset) = some (some 2000000) ∧ t.countSlots Slot.isFree = 78 ∧ t.recOf 12 = some order)) = true
    ∧ holds (exec (.ordNew 13 1 1 .fill (some 5) none none) planned) (fun t => answer t == some (.no .RANGE)) = true := by
  decide +kernel

/-- ORD.DROP of a drop there is and of the next, ORD.DROP CLEAR (OrdDropShapesTheDropList). -/
theorem test_wit_ordDrop : planned.hears = true ∧ planned.settled = true ∧ planned.roomy = true ∧ planned.recOf 12 = some order
    ∧ order.drops.length + 1 = 3 ∧ nth1 order.drops 2 = some ⟨2, none, some 40000, .pending⟩
    ∧ holds (exec (.ordDrop 12 3 none (some 500) none false false) planned) (fun t =>
        decide ((t.recOf 12).map (fun r => nth1 r.drops 3) = some (some ⟨3, some 500, none, .pending⟩))) = true
    ∧ holds (exec (.ordDrop 12 2 (some 9) none none false true) planned) (fun t =>
        decide ((t.recOf 12).map (fun r => nth1 r.drops 2) = some (some ⟨9, none, none, .pending⟩))) = true
    ∧ holds (exec (.ordDropClear 12) planned) (fun t => decide ((t.recOf 12).map (·.drops.length) = some 1)) = true := by
  decide +kernel

/-- ORD.AMEND of a PLANNED record: removal, a kind change, one drop preset (OrdAmendChangesTheNamedFields). -/
theorem test_wit_ordAmend : planned.recOf 12 = some order ∧ order.state = .planned
    ∧ holds (exec (.ordAmend 12 ⟨some 1300, false, none, true, some .amount, some 100, some (2, 1)⟩) planned) (fun t =>
        decide ((t.recOf 12).map (fun r => (r.price, r.kind, r.preset, nth1 r.drops 2))
          = some (some 1300, .amount, some 100, some ⟨2, none, some 1, .pending⟩))) = true
    ∧ holds (exec (.ordAmend 12 ⟨none, true, none, false, some .fill, none, none⟩) planned) (fun t =>
        decide ((t.recOf 12).map (fun r => (r.kind, r.preset)) = some (.fill, none))) = true := by decide +kernel

/-- ORD.AMEND while ARMED, PAUSED, FLOWING (staying, and stopping at once) and STOPPING (OrdAmendWhileBound). -/
theorem test_wit_ordAmendBound :
    (∀ s ∈ [armed, paused .driver, flowing, stopping .pause, settling .close],
      s.hears = true ∧ s.settled = true ∧ s.roomy = true ∧ (s.line .one).bound = some 12 ∧ (s.line .two).bound = none
        ∧ (s.recOf 12).map (·.state) = some .bound)
    ∧ (started 300000000 299000000).active.map (·.1) = some 1
    ∧ holds (exec (.ordAmend 12 ⟨none, false, none, false, none, some 90000, none⟩) armed) (fun t =>
        decide ((t.recOf 12).map (·.preset) = some (some 90000) ∧ (t.line .one).limit = none)) = true
    ∧ holds (exec (.ordAmend 12 ⟨none, false, none, false, none, some 90000, none⟩) (paused .driver)) (fun t =>
        decide ((t.line .one).limit = some (.cl 90000))) = true
    ∧ holds (exec (.ordAmend 12 ⟨none, false, none, false, none, none, some (1, 60000)⟩) flowing) (fun t =>
        decide ((t.line .one).limit = some (.cl 60000) ∧ (t.line .one).st = .flowing ∧ (t.line .one).cmdHigh = true)) = true
    ∧ holds (exec (.ordAmend 12 ⟨none, false, none, false, none, some 30500, some (2, 7)⟩) flowingHigh) (fun t =>
        decide ((t.line .one).limit = some (.cl 30500) ∧ (t.line .one).st = .flowing ∧ (t.line .one).cmdHigh = false
          ∧ (t.recOf 12).bind (fun r => nth1 r.drops 2) = some ⟨2, none, some 7, .pending⟩)) = true
    ∧ holds (exec (.ordAmend 12 ⟨none, false, none, false, none, none, some (2, 7)⟩) flowing) (fun t =>
        decide ((t.line .one).limit = some (.cl 100000) ∧ (t.line .one).st = .flowing)) = true
    ∧ holds (exec (.ordAmend 12 ⟨none, false, none, false, none, none, some (1, 29950)⟩) flowingHigh) (fun t =>
        decide ((t.line .one).st = .stopping ∧ (t.line .one).intent = some .limit ∧ (t.line .one).stopNet = some 29900)) = true
    ∧ holds (exec (.ordAmend 12 ⟨none, false, none, false, none, some 90000, none⟩) (stopping .pause)) (fun t =>
        answer t == some (.no .TOO_LATE)) = true := by decide +kernel

/-- ORD.HOLD, ORD.RELEASE and their refusals (HoldAndRelease). -/
theorem test_wit_hold :
    holds (exec (.ordHold 12) planned) (fun t => decide (t.recOf 12 = some { order with state := .held })) = true
    ∧ holds (exec (.ordRelease 12) (put 3 { order with state := .held } truck)) (fun t => decide (t.recOf 12 = some order)) = true
    ∧ holds (exec (.ordRelease 12) planned) (fun t => answer t == some (.no .STATE)) = true
    ∧ holds (exec (.ordHold 12) armed) (fun t => answer t == some (.no .STATE)) = true := by decide +kernel

/-- The record with a CONDEMNED home. -/
def condemned : State := { planned.modSlot 3 (Slot.condemn order) with unsaved := [12] }

/-- A slot that holds a DAMAGED record. -/
def damaged : State := truck.modSlot 3 (fun x => { x with st := .inUse (.damaged 12 4711) })

/-- ORD.CANCEL with both homes, ORD.RETIRE by stop and by slot (CancelAndRetire). -/
theorem test_wit_cancel :
    (planned.hears = true ∧ planned.settled = true ∧ planned.homeOf 12 = some 3 ∧ planned.queue.Nodup
      ∧ (planned.slot 3).map Slot.isInUse = some true ∧ planned.lines.one.endWaits = [] ∧ planned.lines.two.endWaits = [])
    ∧ (condemned.hears = true ∧ condemned.settled = true ∧ (condemned.slot 3).map Slot.isCondemned = some true)
    ∧ holds (exec (.ordCancel 12) planned) (fun t => decide (t.flight = some (.release 3) ∧ t.recOf 12 = some order)) = true
    ∧ holds (exec (.ordRetire (.stop 12)) (put 3 { order with state := .issued } truck)) (fun t =>
        decide (t.flight = some (.release 3))) = true
    ∧ holds (exec (.ordCancel 12) condemned) (fun t => decide (t.recOf 12 = none ∧ t.unsaved = []
        ∧ (t.slot 3).map Slot.isRetired = some true)) = true
    ∧ holds (exec (.ordRetire (.slot 3)) damaged) (fun t => decide (t.flight = some (.release 3))) = true
    ∧ holds (exec (.ordRetire (.slot 3)) planned) (fun t => answer t == some (.no .STATE)) = true
    ∧ holds (exec (.ordRetire (.slot 80)) planned) (fun t => answer t == some (.no .NOT_FOUND)) = true := by decide +kernel

/-- TKT.ISSUE of a TICKETED and of an ISSUED record, at the last count (TktIssueCounts). -/
theorem test_wit_issue :
    holds (exec (.tktIssue 12) (put 3 { order with state := .ticketed } truck)) (fun t =>
      decide (t.recOf 12 = some { order with state := .issued, issues := 1 })) = true
    ∧ holds (exec (.tktIssue 12) (put 3 { order with state := .issued, issues := 255 } truck)) (fun t =>
      decide (t.recOf 12 = some { order with state := .issued, issues := 255 })) = true
    ∧ holds (exec (.tktIssue 12) planned) (fun t => answer t == some (.no .STATE)) = true := by decide +kernel

/-! ## The link's answers -/

/-- A closed ticket. -/
def ticket : Ticket :=
  { number := 5, route := 7, time := none, cause := .driver, calCount := 3, line := .one, comp := 1, product := 1, lines := []
    gross := 100, net := 99, amount := 12, tax := 1, total := 13, temp := some 1500, flags := .empty, hose := .product 1 }

/-- The fields of all lines given to the transmitter, one after another. -/
def sentFields (t : State) : List Tok := t.tx.flatMap (·.fields)

/-- LN.STAT reports every run accumulator of R76: an ORDER run's without run volumes, a PRIME run's with them and without a last VCF before its first batch, and none but zeros at rest (R75). -/
theorem test_lnStat_accumulators :
    holds (exec (.lnStat 1) (onLine { flowingLine with grossRem := 399, netRem := 999999, reverse := 17, lastVcf := some 991550 }
        (started 300000000 299000000))) (fun t => decide
      ([.kw .FLAGS, .num 0, .kw .GROSSREM, .num 399, .kw .NETREM, .num 999999, .kw .REVBAL, .num 17, .kw .LASTVCF, .num 991550, .kw .RATE]
        <:+: sentFields t)) = true
    ∧ holds (exec (.lnStat 2) (pausedRun .prime)) (fun t => decide
      ([.kw .GROSSREM, .num 0, .kw .NETREM, .num 0, .kw .REVBAL, .num 0, .kw .RUNGROSS, .num 5120000, .kw .RUNNET, .num 5090000, .kw .RATE]
        <:+: sentFields t)) = true
    ∧ holds (exec (.lnStat 1) truck) (fun t => decide
      ([.kw .GROSSREM, .num 0, .kw .NETREM, .num 0, .kw .REVBAL, .num 0, .kw .RATE] <:+: sentFields t)) = true := by decide +kernel

/-- Reports change nothing but the link, and pages are of forty (ReportsChangeNothing). -/
theorem test_wit_reports :
    (planned.hears = true ∧ planned.settled = true ∧ planned.recOf 12 = some order ∧ planned.homeOf 12 = some 3
      ∧ planned.stopsOf 4711 (some 12) = [12] ∧ planned.stopsOf 4711 (some 13) = []
      ∧ planned.inState .planned (some 12) = [12] ∧ planned.inState .held none = [] ∧ planned.inState .planned (some 13) = []
      ∧ damaged.inState .damaged (some 3) = [3] ∧ damaged.inState .damaged (some 4) = []
      ∧ (planned.records.map (·.stop)).Nodup)
    ∧ (damaged.hears = true ∧ damaged.settled = true ∧ (damaged.slot 3).map (·.st) = some (.inUse (.damaged 12 4711)))
    ∧ exec (.ordGet (.stop 12)) planned = .next (answered .ORD_GET [planned.recordReport 3 order] planned)
    ∧ exec (.tktGet 12) (put 3 { order with state := .ticketed, ticket := some ticket } truck)
        = .next (answered .TKT_GET (ticket.reply 12 4711 0) (put 3 { order with state := .ticketed, ticket := some ticket } truck))
    ∧ (page (List.range 40)).length = 40 ∧ (page (List.range 41)).drop 40 = [.kw .MORE, .num 40] := by
  refine ⟨by decide +kernel, by decide +kernel, ?_, ?_, by decide +kernel, by decide +kernel⟩ <;> rfl

/-- Refusals leave all but the link alone; a busy link (RefusedCommandChangesNothing). -/
theorem test_wit_refused :
    exec (.ordHold 10000) planned = .next (refusedWith .ORD_HOLD .RANGE planned)
    ∧ exec (.ordCancel 13) planned = .next (refusedWith .ORD_CANCEL .NOT_FOUND planned)
    ∧ exec (.ordCancel 12) armed = .next (refusedWith .ORD_CANCEL .STATE armed)
    ∧ (armed.hears = true ∧ armed.settled = true ∧ planned.recOf 13 = none)
    ∧ (let s := { planned with cmd := some ⟨.IDENT, .ready [], .on [], true⟩ }
       s.linkOpen = true ∧ s.rx.discard = false ∧ s.cmd.isSome = true ∧ s.settled = true
        ∧ holds (exec .status s) (fun t => answer t == some (.no .BUSY)) = true) := by
  refine ⟨rfl, rfl, rfl, by decide +kernel, by decide +kernel⟩

/-- A judgement that is a code; field, record and number refusals of the order commands (RefusedCommandChangesNothing). -/
theorem test_wit_orderRefused :
    judgeCommand (.rteOpen 0) { planned with rx := .waiting } = .error .RANGE
    ∧ holds (exec (.ordNew 12 1 1 .fill none none none) planned) (fun t => answer t == some (.no .EXISTS)) = true
    ∧ holds (exec (.ordNew 13 1 2 .fill none none none) planned) (fun t => answer t == some (.no .RANGE)) = true
    ∧ (let s := { planned with slots := planned.slots.take 7 }
       s.countSlots Slot.isFree = 6
        ∧ holds (exec (.ordNew 13 1 1 .fill none none none) { s with slots := s.slots.take 5 }) (fun t =>
            answer t == some (.no .FULL)) = true)
    ∧ holds (exec (.ordDrop 12 4 none none none false false) planned) (fun t => answer t == some (.no .RANGE)) = true
    ∧ holds (exec (.ordDrop 13 1 none none none false false) planned) (fun t => answer t == some (.no .NOT_FOUND)) = true
    ∧ holds (exec (.ordDrop 12 1 none none none false false) armed) (fun t => answer t == some (.no .STATE)) = true
    ∧ holds (exec (.ordAmend 12 ⟨none, false, none, false, none, none, none⟩) planned) (fun t => answer t == some (.no .RANGE)) = true
    ∧ holds (exec (.ordAmend 12 ⟨some 1, false, none, false, none, none, none⟩) armed) (fun t => answer t == some (.no .STATE)) = true
    ∧ holds (exec (.ordAmend 12 ⟨none, false, none, false, some .amount, none, none⟩) planned) (fun t =>
        answer t == some (.no .RANGE)) = true
    ∧ holds (exec (.ordAmend 13 ⟨some 1, false, none, false, none, none, none⟩) planned) (fun t => answer t == some (.no .NOT_FOUND)) = true
    ∧ holds (exec (.ordFind 4711 (some 13)) planned) (fun t => answer t == some (.no .NOT_FOUND)) = true
    ∧ holds (exec (.ordFind 0 none) planned) (fun t => answer t == some (.no .RANGE)) = true
    ∧ holds (exec (.ordList .damaged (some 81)) planned) (fun t => answer t == some (.no .RANGE)) = true
    ∧ holds (exec (.ordRetire (.slot 81)) planned) (fun t => answer t == some (.no .RANGE)) = true
    ∧ holds (exec (.ordGet (.slot 80)) planned) (fun t => answer t == some (.no .NOT_FOUND)) = true
    ∧ holds (exec (.lnStart 3) planned) (fun t => answer t == some (.no .RANGE)) = true
    ∧ holds (exec (.prdGet (some 7)) planned) (fun t => answer t == some (.no .RANGE)) = true := by
  refine ⟨rfl, by decide +kernel⟩

/-- STATUS, CLK.SET and CAP.CLEAR (StatusClockAndCaptures). -/
theorem test_wit_clock : dateValid (dateOfNum 20991231235959) = true ∧ dateValid (dateOfNum 20230229000000) = false
    ∧ holds (exec (.clkSet 20240229000000) truck) (fun t => decide (t.clock = ⟨⟨2024, 2, 29, 0, 0, 0⟩, true⟩)) = true
    ∧ holds (exec .status { truck with attention := ⟨true, true⟩ }) (fun t => decide (t.attention = ⟨false, false⟩)) = true
    ∧ holds (exec .capClear { truck with captures := ⟨some (3, 9), [(3, 9)]⟩ }) (fun t => decide (t.captures = ⟨none, []⟩)) = true := by
  decide +kernel

/-! ## Line commands -/

/-- LN.ARM with the compartment given, chosen, and with a purge; its refusals (LnArmBindsTheRecord, LineCommandsRefused). -/
theorem test_wit_lnArm :
    (planned.hears = true ∧ planned.settled = true ∧ planned.roomy = true ∧ (planned.line .one).st = .idle
      ∧ planned.recOf 12 = some order ∧ planned.route.isOpen = true ∧ planned.inputs.sealOpen = false
      ∧ planned.storeTrouble = false ∧ planned.settings.calLost = false ∧ (planned.settings.calSet .one 1).isSome = true
      ∧ (planned.settings.product 1).entry.defined = true ∧ (planned.load.comp 1).product = some 1
      ∧ (planned.load.comp 1).drawn < (planned.load.comp 1).loaded ∧ planned.pump = none
      ∧ (planned.items .one).hose = some 500 ∧ planned.load.hoses.get .one = .product 1 ∧ (planned.items .two).hose = some 0)
    ∧ holds (exec (.lnArm 1 12 none true) planned) (fun t => decide (t.recOf 12 = some bound ∧ t.line .one = armedLine
        ∧ t.pump = some ⟨1, ⟨true, false⟩⟩)) = true
    ∧ holds (exec (.lnArm 2 12 (some 1) false) planned) (fun t => decide ((t.line .two).st = .armed)) = true
    ∧ holds (exec (.lnArm 1 12 (some 1) true) { planned with load := { planned.load with hoses := ⟨.mixed, .empty⟩ } }) (fun t =>
        decide ((t.recOf 12).map (·.binding) = some (some ⟨.one, 1, true⟩))) = true
    ∧ holds (exec (.lnArm 1 12 (some 1) false) { planned with load := { planned.load with hoses := ⟨.mixed, .empty⟩ } }) (fun t =>
        answer t == some (.no .HOSE_MISMATCH)) = true := by decide +kernel

/-- The refusals of the line commands, each in its state (LineCommandsRefused). -/
theorem test_wit_lineRefused :
    exec (.lnArm 1 13 none false) planned = .next (refusedWith .LN_ARM .NOT_FOUND planned)
    ∧ exec (.lnArm 1 12 none false) (unsealed planned) = .next (refusedWith .LN_ARM .SEAL_OPEN (unsealed planned))
    ∧ exec (.lnResume 1) (paused .pulser) = .next (refusedWith .LN_RESUME .FAULT (paused .pulser))
    ∧ ((paused .air).hears = true ∧ (paused .air).settled = true ∧ ((paused .air).line .one).bound = some 12
        ∧ (started 300000000 299000000).active.isSome = true ∧ (between.boundRec .one).map (·.active) = some none
        ∧ (between.boundRec .one).map (·.firstPending.isSome) = some true)
    ∧ (let s := { armed with inputs := { armed.inputs with permit := false } }
       holds (exec (.lnStart 1) s) (fun t => answer t == some (.no .INTERLOCK)) = true)
    ∧ (let s := { paused .air with inputs := { armed.inputs with air := ⟨true, false⟩ } }
       holds (exec (.lnResume 1) s) (fun t => answer t == some (.no .STATE)) = true)
    ∧ (let s := { between with inputs := { armed.inputs with ignition := false } }
       holds (exec (.lnNext 1) s) (fun t => answer t == some (.no .INTERLOCK)) = true) := by
  refine ⟨rfl, rfl, rfl, by decide +kernel, by decide +kernel, by decide +kernel, by decide +kernel⟩

/-- No remaining volume, no ticket number, and the later tests of LN.ARM and LN.RUN PRIME (LineCommandsRefused). -/
theorem test_wit_lineRefusedLate :
    (let r := { bound with preset := some 0 }
     holds (exec (.lnStart 1) (onLine armedLine r)) (fun t => answer t == some (.no .LIMIT_ZERO)) = true)
    ∧ holds (exec (.lnStart 1) { armed with counter := 99999999 }) (fun t => answer t == some (.no .TICKETS_EXHAUSTED)) = true
    ∧ holds (exec (.lnResume 1) (onLine { pausedLine .air with limit := some (.cl 29900) } (started 300000000 299000000))) (fun t =>
        answer t == some (.no .LIMIT_ZERO)) = true
    ∧ holds (exec (.lnArm 1 12 (some 2) false) planned) (fun t => answer t == some (.no .NO_PRODUCT)) = true
    ∧ holds (exec (.lnArm 1 12 (some 5) false) planned) (fun t => answer t == some (.no .RANGE)) = true
    ∧ holds (exec (.lnArm 3 12 none false) planned) (fun t => answer t == some (.no .RANGE)) = true
    ∧ holds (exec (.lnArm 1 12 (some 1) false) { planned with load := { planned.load with hoses := ⟨.empty, .empty⟩ } }) (fun t =>
        answer t == some (.no .HOSE_EMPTY)) = true
    ∧ holds (exec (.lnArm 1 12 (some 1) false) { planned with pump := some ⟨2, ⟨false, true⟩⟩ }) (fun t =>
        answer t == some (.no .PUMP_BUSY)) = true
    ∧ (let s := { pausedRun .prime with lines := ⟨.atRest .idle 50, .atRest .idle 50⟩, pump := some ⟨2, ⟨true, false⟩⟩ }
       s.hears = true ∧ s.settled = true ∧ s.route.isOpen = true ∧ (s.items .two).hose = some 500
        ∧ holds (exec (.lnRunPrime 2 (some 1)) s) (fun t => answer t == some (.no .PUMP_BUSY)) = true
        ∧ holds (exec (.lnRunPrime 2 (some 2)) s) (fun t => answer t == some (.no .NO_PRODUCT)) = true
        ∧ holds (exec (.lnRunPrime 1 (some 1)) s) (fun t => answer t == some (.no .HOSE_MISMATCH)) = true
        ∧ holds (exec (.lnRunPrime 2 (some 1)) { s with settings := { s.settings with calLost := true } }) (fun t =>
            answer t == some (.no .NO_CAL)) = true
        ∧ holds (exec (.lnRunPrime 2 (some 1)) (unsealed s)) (fun t => answer t == some (.no .SEAL_OPEN)) = true
        ∧ holds (exec (.lnRunPrime 2 (some 1)) { s with settings := inService }) (fun t =>
            answer t == some (.no .LIMIT_ZERO)) = true) := by decide +kernel

/-- LN.DISARM in ARMED and after a restart (LnDisarmReleasesTheRecord). -/
theorem test_wit_lnDisarm :
    (armed.hears = true ∧ armed.settled = true ∧ armed.roomy = true ∧ armed.recOf 12 = some bound
      ∧ (armed.meter .one).latched = false)
    ∧ holds (exec (.lnDisarm 1) armed) (fun t => decide (t.recOf 12 = some order ∧ (t.line .one).st = .idle ∧ t.pump = none)) = true
    ∧ holds (exec (.lnDisarm 1) (onLine (pausedLine .power) bound)) (fun t =>
        decide (t.recOf 12 = some order ∧ t.line .one = { LineCtx.atRest .idle 50 with slowBase := 0 })) = true
    ∧ holds (exec (.lnDisarm 1) ((onLine (pausedLine .power) bound).modMeter .one (fun m => { m with latchCreep := true, creep := 5 })))
        (fun t => decide (t.recOf 12 = some order ∧ (t.line .one).st = .fault ∧ t.attention.one = true
          ∧ (t.meter .one).creep = 5)) = true := by
  decide +kernel

/-- LN.START (LnStartBeginsTheRun). -/
theorem test_wit_lnStart :
    (armed.hears = true ∧ armed.settled = true ∧ armed.roomy = true ∧ (armed.line .one).st = .armed ∧ armed.unsaved = []
      ∧ (armed.line .one).latched = some inService.latch ∧ armed.interlock = true ∧ armed.inputs.air.get .one = false
      ∧ armed.settings.calLost = false ∧ bound.limitOf ⟨1, none, none, .pending⟩ 1249 500 = .cl 100000
      ∧ armed.counter + armed.reservations < 99999999)
    ∧ holds (exec (.lnStart 1) armed) (fun t => decide ((t.recOf 12).map (·.drops.length) = some 2
        ∧ t.recOf 12 = some (started 0 0) ∧ t.line .one = flowingLine ∧ t.outLow .one = true ∧ t.outPump = true)) = true
    ∧ (let s := onLine { pausedLine .power with limit := none } bound
       s.hears = true ∧ s.settled = true ∧ (s.line .one).st = .paused ∧ (s.line .one).cause = some .power
        ∧ (s.line .one).reserved = true
        ∧ holds (exec (.lnStart 1) s) (fun t => decide ((t.line .one).st = .flowing ∧ t.recOf 12 = some (started 0 0))) = true) := by
  decide +kernel

/-- A line restored with every drop PENDING: LN.START with its reservation at the end of the numbers (log 72), LN.NEXT without a price (log 73). -/
theorem test_restored_unstarted :
    let s := onLine { pausedLine .power with limit := none } bound
    holds (exec (.lnStart 1) { s with counter := 99999999 }) (fun t => decide ((t.line .one).st = .flowing)) = true
      ∧ holds (exec (.lnNext 1) s) (fun t => decide ((t.line .one).st = .flowing
          ∧ (t.recOf 12).map (fun r => (r.price, r.active.map (·.1))) = some (none, some 1))) = true := by
  decide +kernel

/-- LN.NEXT and LN.RESUME (LnNextAndResume). -/
theorem test_wit_lnNext :
    (between.hears = true ∧ between.settled = true ∧ between.roomy = true ∧ (between.line .one).st = .paused
      ∧ (between.line .one).kind = some .order ∧ (between.line .one).cause = some .dropEnd)
    ∧ ((paused .air).hears = true ∧ (paused .air).settled = true ∧ (paused .air).boundIsUnsaved .one = false
      ∧ (paused .air).remaining .one = .cl 70100)
    ∧ holds (exec (.lnNext 1) between) (fun t => decide ((t.line .one).limit = some (.cl 40000) ∧ (t.line .one).st = .flowing
        ∧ (t.recOf 12).map (fun r => nth1 r.drops 2) = some (some ⟨2, none, some 40000, .active ⟨0, 0, 0⟩⟩))) = true
    ∧ holds (exec (.lnResume 1) (paused .air)) (fun t => decide ((t.line .one).slowBase = 29900 ∧ (t.line .one).st = .flowing
        ∧ t.queue = [])) = true
    ∧ holds (exec (.lnResume 2) (pausedRun .prime)) (fun t => decide ((t.line .two).st = .flowing)) = true := by decide +kernel

/-- LN.PAUSE, LN.ENDDROP and LN.CLOSE in FLOWING, with HIGH closed and open (CommandsBeginAStop). -/
theorem test_wit_stops :
    (flowing.hears = true ∧ flowing.settled = true ∧ (flowing.line .one).st = .flowing ∧ flowing.boundIsUnsaved .one = false)
    ∧ holds (exec (.lnPause 1) flowing) (fun t => decide ((t.line .one).st = .settling ∧ answer t = some .ok)) = true
    ∧ holds (exec (.lnPause 1) flowingHigh) (fun t => decide ((t.line .one).st = .stopping
        ∧ (t.line .one).timers.step = some 300000)) = true
    ∧ holds (exec (.lnEnddrop 1) flowing) (fun t => decide ((t.line .one).intent = some .enddrop)) = true
    ∧ holds (exec (.lnClose 1) flowing) (fun t => decide ((t.line .one).intent = some .close ∧ t.tx = [])) = true
    ∧ holds (exec (.lnEnddrop 1) (settling .pause)) (fun t => answer t == some (.no .TOO_LATE)) = true
    ∧ holds (exec (.lnPause 1) (stopping .pause)) (fun t => answer t == some (.no .STATE)) = true
    ∧ (∀ s ∈ [stopping .pause, settling .limit], s.hears = true ∧ s.settled = true ∧ s.boundIsUnsaved .one = false
        ∧ holds (exec (.lnClose 1) s) (fun t => decide ((t.line .one).intent = some .close ∧ (t.line .one).st = (s.line .one).st
            ∧ t.cmd.map (·.plan) = some (.awaitEnd .one))) = true) := by decide +kernel

/-- LN.ENDDROP in PAUSED, short of the last drop (LnEnddropInPause). -/
theorem test_wit_enddrop :
    ((paused .driver).hears = true ∧ (paused .driver).settled = true ∧ (paused .driver).roomy = true
      ∧ (started 300000000 299000000).active = some (1, ⟨1, none, none, .active ⟨300000000, 299000000, 0⟩⟩))
    ∧ holds (exec (.lnEnddrop 1) (paused .driver)) (fun t => decide ((t.line .one).cause = some .dropEnd
        ∧ (t.recOf 12).map (fun r => nth1 r.drops 1)
            = some (some ⟨1, none, none, .done ⟨300000000, 299000000, 0⟩ 30000 29900 .driver⟩))) = true
    ∧ (let s := onLine (pausedLine .driver) { started 0 0 with drops := [⟨1, none, none, .active ⟨300000000, 299000000, 0⟩⟩] }
       s.hears = true ∧ s.settled = true ∧ s.roomy = true
        ∧ holds (exec (.lnEnddrop 1) s) (fun t => decide ((t.line .one).st = .idle ∧ t.counter = 1
            ∧ (t.recOf 12).map (·.state) = some .ticketed)) = true) := by decide +kernel

/-- LN.CLOSE in PAUSED with a net and without one (LnCloseEndsTheRun). -/
theorem test_wit_close :
    ((paused .driver).hears = true ∧ (paused .driver).settled = true ∧ (paused .driver).roomy = true
      ∧ ((paused .driver).line .one).reverse = 0 ∧ (paused .driver).load.lastApplied ≤ (paused .driver).counter)
    ∧ holds (exec (.lnClose 1) (paused .driver)) (fun t => decide (t.counter = 1 ∧ (t.line .one).st = .idle ∧ t.pump = none
        ∧ (t.load.comp 1).drawn = 29900 ∧ (t.recOf 12).map (·.state) = some .ticketed
        ∧ (t.recOf 12).bind (fun r => r.ticket.map (fun k => (k.net, k.amount, k.tax, k.total)))
            = some (29900, 37345, 1867, 39212)
        ∧ (t.recOf 12).map (fun r => r.drops.map (fun d => decide (d.st = .skipped))) = some [false, true])) = true
    ∧ holds (exec (.lnClose 1) (onLine (pausedLine .driver) (started 9999 9999))) (fun t => decide (t.counter = 0
        ∧ t.recOf 12 = some { order with attempts := 1, price := some 1249 })) = true
    ∧ holds (exec (.lnClose 1) (paused .driver)) (fun t => decide (t.load.hoses = ⟨.product 1, .empty⟩
        ∧ nth1 t.route.totals 1 = some ⟨1, 29900, 37345, 1867, 29900, 0⟩ ∧ nth1 t.route.totals 2 = some .zero)) = true
    ∧ (let r := { started 4000000 3990000 with binding := some ⟨.one, 1, true⟩ }
       holds (exec (.lnClose 1) (onLine (pausedLine .driver) r)) (fun t => decide (t.load.hoses.one = .mixed)) = true) := by
  decide +kernel

/-- PRIME and PROVE: begun, and ended (PrimeAndProveRuns). -/
theorem test_wit_prime :
    (let s := { pausedRun .prime with lines := ⟨.atRest .idle 50, .atRest .idle 50⟩, pump := none }
     s.hears = true ∧ s.settled = true ∧ (s.line .two).st = .idle ∧ (s.load.comp 1).product = some 1 ∧ s.pump = none
      ∧ s.load.hoses.get .two = .empty
      ∧ holds (exec (.lnRunPrime 2 (some 1)) s) (fun t => decide ((t.line .two).limit = some (.cl 500)
          ∧ (t.line .two).kind = some .prime ∧ (t.line .two).st = .flowing ∧ t.pump = some ⟨1, ⟨false, true⟩⟩
          ∧ t.tx = okLines CmdWord.LN_RUN.bytes [[.kw .LINE, .num 2, .kw .PRIME, .kw .COMP, .num 1]])) = true
      ∧ holds (exec (.lnRunProve 2 (some 1)) (unsealed s)) (fun t => decide ((t.line .two).kind = some .prove)) = true
      ∧ holds (exec (.lnRunProve 2 (some 1)) s) (fun t => answer t == some (.no .SEALED)) = true)
    ∧ ((pausedRun .prime).hears = true ∧ (pausedRun .prime).settled = true)
    ∧ holds (exec (.lnClose 2) (pausedRun .prime)) (fun t => decide ((t.load.comp 1).drawn = 509
        ∧ (nth1 t.route.totals 1).map (·.primed) = some 509 ∧ t.load.hoses.two = .product 1 ∧ (t.line .two).st = .idle)) = true
    ∧ holds (exec (.lnClose 2) (pausedRun .prove)) (fun t => decide ((t.load.comp 1).drawn = 0
        ∧ (t.line .two).prove = some ⟨207, 512, none⟩ ∧ t.load.hoses.two = .product 1)) = true
    ∧ holds (exec (.lnEnddrop 2) (pausedRun .prime)) (fun t => decide ((t.load.comp 1).drawn = 509 ∧ (t.line .two).st = .idle)) = true
    := by decide +kernel

/-- Line 1 in FAULT. -/
def faulted : State :=
  { truck with lines := ⟨.atRest .fault 50, .atRest .idle 50⟩, meters := ⟨{ truck.meters.one with latchPulser := true }, truck.meters.two⟩ }

/-- LN.SETUP both ways, LN.ACK quiet and not (SetupAndAcknowledge). -/
theorem test_wit_setup :
    (faulted.hears = true ∧ faulted.settled = true ∧ (faulted.line .one).st = .fault ∧ (faulted.meter .one).quiet = 1000000)
    ∧ holds (exec (.lnSetup 1) truck) (fun t => decide ((t.line .one).st = .setup)) = true
    ∧ holds (exec (.lnSetup 1) { truck with lines := ⟨.atRest .setup 50, .atRest .idle 50⟩ }) (fun t =>
        decide ((t.line .one).st = .idle)) = true
    ∧ holds (exec (.lnAck 1) faulted) (fun t => decide ((t.line .one).st = .idle ∧ (t.meter .one).latchPulser = false)) = true
    ∧ holds (exec (.lnAck 1) { faulted with meters := ⟨{ faulted.meters.one with quiet := 999999 }, faulted.meters.two⟩ })
        (fun t => answer t == some (.no .FAULT)) = true
    ∧ holds (exec (.lnSetup 1) State.reset) (fun t => answer t == some (.no .NO_CAL)) = true := by decide +kernel

/-! ## Truck, settings and route -/

/-- CMP.LOAD: top-up, change, each refusal; HOSE.EMPTY (CompartmentAndHoseCommands). -/
theorem test_wit_load :
    (truck.hears = true ∧ truck.settled = true ∧ nth1 truck.load.comps 1 = some ⟨some 1, 300000, 0⟩
      ∧ nth1 truck.settings.caps 1 = some 500000 ∧ truck.pump = none)
    ∧ holds (exec (.cmpLoad 1 1 200000 false) truck) (fun t => decide (t.load.comp 1 = ⟨some 1, 500000, 0⟩)) = true
    ∧ holds (exec (.cmpLoad 1 1 200001 false) truck) (fun t => answer t == some (.no .RANGE)) = true
    ∧ (let s := { truck with settings := { inService with caps := [5, 400000, 0, 0] } }
       holds (exec (.cmpLoad 1 1 0 false) s) (fun t => decide (t.load = s.load ∧ t.flight.isSome = true)) = true
        ∧ holds (exec (.cmpLoad 1 1 1 false) s) (fun t => answer t == some (.no .RANGE)) = true)
    ∧ holds (exec (.cmpLoad 2 1 400000 false) truck) (fun t => decide (t.load.comp 2 = ⟨some 1, 400000, 0⟩)) = true
    ∧ holds (exec (.cmpLoad 1 1 1 false) armed) (fun t => answer t == some (.no .PUMP_BUSY)) = true
    ∧ (let s := { truck with load := { truck.load with comps := [⟨some 2, 5, 4⟩] } }
       holds (exec (.cmpLoad 1 1 7 false) s) (fun t => answer t == some (.no .STATE)) = true
        ∧ holds (exec (.cmpLoad 1 1 7 true) s) (fun t => decide (t.load.comp 1 = ⟨some 1, 7, 0⟩)) = true
        ∧ holds (exec (.cmpLoad 1 1 500001 true) s) (fun t => answer t == some (.no .RANGE)) = true)
    ∧ holds (exec (.cmpLoad 5 1 1 false) truck) (fun t => answer t == some (.no .RANGE)) = true
    ∧ holds (exec (.cmpLoad 1 2 1 false) truck) (fun t => answer t == some (.no .RANGE)) = true
    ∧ holds (exec (.hoseEmpty 1) truck) (fun t => decide (t.load.hoses = ⟨.empty, .empty⟩)) = true
    ∧ holds (exec (.hoseEmpty 1) armed) (fun t => answer t == some (.no .STATE)) = true := by decide +kernel

/-- PRD.PUT and SET.PUT at and past their bounds (ProductAndSettingCommands). -/
theorem test_wit_put :
    (truck.hears = true ∧ truck.settled = true ∧ nth1 truck.settings.products 6 = some ⟨⟨[], 1, 0, false⟩, 0, false⟩)
    ∧ holds (exec (.prdPut 6 ⟨some (charBytes ['A', '_', '1']), some 100000, some (-1), false, false⟩) truck) (fun t =>
        decide (t.settings.product 6 = ⟨⟨charBytes ['A', '_', '1'], 99999, 0, true⟩, 0, false⟩)) = true
    ∧ holds (exec (.prdPut 1 ⟨none, none, none, false, true⟩) flowing) (fun t =>
        decide ((t.settings.product 1).entry.defined = false ∧ (t.settings.product 1).alpha = 845)) = true
    ∧ holds (exec (.setPut [.noFlow 4, .deadman 29, .antic2 2001, .attn false]) truck) (fun t =>
        decide (t.settings.run.noFlow = 5 ∧ t.settings.run.deadman = 30 ∧ t.settings.lines.two.antic = 2000
          ∧ t.settings.attnHigh = false)) = true
    ∧ holds (exec (.setPut [.noFlow 4, .noFlow 5]) truck) (fun t => answer t == some (.no .RANGE)) = true
    ∧ putSetting inService (.deadman 0) = { inService with run := { inService.run with deadman := 0 } } := by decide +kernel

/-- CAL.PUT, each item at a bound of its range, and sealed (CalibrationCommands). -/
theorem test_wit_cal :
    ((unsealed truck).hears = true ∧ (unsealed truck).settled = true ∧ (unsealed truck).inputs.sealOpen = true
      ∧ (unsealed truck).settings.calCount < 65535 ∧ (unsealed truck).productFree 1 = true
      ∧ (unsealed armed).productFree 1 = false)
    ∧ holds (exec (.calPutPr 1 4000) (unsealed truck)) (fun t => decide ((t.items .one).pr = some 4000 ∧ t.settings.session = true)) = true
    ∧ holds (exec (.calPutHose 1 20000) (unsealed truck)) (fun t => decide ((t.items .one).hose = some 20000)) = true
    ∧ holds (exec (.calPutSet 1 1 (some ⟨[(1, 95000), (20000, 105000)], 105000⟩)) (unsealed truck)) (fun t =>
        decide (t.settings.calSet .one 1 = some ⟨[(1, 95000), (20000, 105000)], 105000⟩)) = true
    ∧ holds (exec (.calPutSet 1 1 none) (unsealed truck)) (fun t => decide (t.settings.calSet .one 1 = none)) = true
    ∧ holds (exec (.calPutAlpha 1 2000) (unsealed truck)) (fun t => decide ((t.settings.product 1).alpha = 2000)) = true
    ∧ holds (exec (.calPutAlpha 1 2000) (unsealed armed)) (fun t => answer t == some (.no .LINE_BUSY)) = true
    ∧ holds (exec (.calPutPr 1 40) (unsealed armed)) (fun t => answer t == some (.no .LINE_BUSY)) = true
    ∧ holds (exec (.calPutComp 1 false) (unsealed truck)) (fun t => decide ((t.settings.product 1).compOn = false)) = true
    ∧ holds (exec (.calPutCap 4 2000000) (unsealed truck)) (fun t => decide (t.settings.caps = [500000, 400000, 0, 2000000])) = true
    ∧ holds (exec (.calPutCap 9 9) truck) (fun t => answer t == some (.no .SEALED)) = true := by decide +kernel

/-- RTE.OPEN and RTE.CLOSE with their refusals (RouteOpensAndCloses). -/
theorem test_wit_route :
    (truck.hears = true ∧ truck.settled = true ∧ truck.route.isOpen = true ∧ (armed.line .one).bound = some 12)
    ∧ holds (exec .rteClose truck) (fun t => decide (t.route = { truck.route with isOpen := false })) = true
    ∧ holds (exec .rteClose armed) (fun t => answer t == some (.no .LINE_BUSY)) = true
    ∧ holds (exec (.rteOpen 9) truck) (fun t => answer t == some (.no .STATE)) = true
    ∧ (let s := { truck with route := { truck.route with isOpen := false } }
       holds (exec (.rteOpen 65535) s) (fun t => decide (t.route.number = some 65535 ∧ t.route.openTime = some truck.clock.now)) = true
        ∧ holds (exec .rteClose s) (fun t => answer t == some (.no .STATE)) = true)
    ∧ holds (exec (.rteOpen 1) { armed with route := { truck.route with isOpen := false } }) (fun t =>
        answer t == some (.no .LINE_BUSY)) = true := by decide +kernel

/-! ## The link's characters -/

/-- A truck whose receiver holds characters. -/
def collecting (cs : List Char) : State := { truck with rx := { truck.rx with buf := some (charBytes cs) } }

/-- Characters, a line gap, a sent line, a break (LinkCharactersAndBreaks). -/
theorem test_wit_characters :
    (truck.isActive = true ∧ truck.settled = true ∧ truck.mode = .run ∧ truck.rx.brk = none ∧ truck.rx.discard = false)
    ∧ holds (exec (.characterReceived 62#8) truck) (fun t => decide (t.rx.buf = some [62#8])) = true
    ∧ holds (exec (.characterReceived 65#8) truck) (fun t => decide (t.rx.buf = none)) = true
    ∧ holds (exec (.characterReceived 65#8) (collecting ['>'])) (fun t => decide (t.rx.buf = some [62#8, 65#8])) = true
    ∧ holds (exec (.characterReceived 10#8) (collecting ['>'])) (fun t => decide (t.rx.buf = some [62#8])) = true
    ∧ holds (exec (.characterReceived 65#8) (collecting (List.replicate 160 'A'))) (fun t =>
        decide (t.rx.buf.map (·.length) = some 160)) = true
    ∧ holds (exec .lineGapTimeout (collecting ['>'])) (fun t => decide (t.rx = .waiting)) = true
    ∧ holds (exec .replyLineSent { truck with cmd := some ⟨.IDENT, .ready [], .on [], true⟩, tx := [⟨[], .ok, [], true⟩] })
        (fun t => decide (t.tx = [] ∧ t.cmd = none)) = true
    ∧ holds (exec .replyLineSent { truck with tx := [⟨[], .okMore, [], false⟩, ⟨[], .ok, [], true⟩] })
        (fun t => decide (t.tx = [⟨[], .ok, [], true⟩])) = true
    ∧ holds (exec (.breakBegin ⟨.shorted, .shorted⟩) truck) (fun t => decide (t.rx.brk = some 0)) = true
    ∧ holds (exec .breakEnd { truck with rx := { truck.rx with brk := some 7 } }) (fun t => decide (t.rx = .waiting)) = true := by
  decide +kernel

/-- Completed lines: good, with a wrong check, with no word, with an unknown word, too long (CompletedLines). -/
theorem test_wit_completed :
    (truck.hears = true ∧ truck.settled = true ∧ wordReadable (splitWord (charBytes ['S', 'T', 'A', 'T', 'U', 'S', '*', '1', '4'])).1 = true)
    ∧ exec .commandLine (collecting ['>', 'S', 'T', 'A', 'T', 'U', 'S', '*', '1', '4'])
        = exec .status (collecting ['>', 'S', 'T', 'A', 'T', 'U', 'S', '*', '1', '4'])
    ∧ holds (exec (.characterReceived 13#8) (collecting ['>', 'S', 'T', 'A', 'T', 'U', 'S', '*', '1', '5'])) (fun t =>
        decide (t.tx = [⟨charBytes ['S', 'T', 'A', 'T', 'U', 'S'], .no .CHECK, [], false⟩])) = true
    ∧ holds (exec .commandLine (collecting ['>', ' ', '*', '2', '0'])) (fun t => decide (t.tx = [⟨[63#8], .no .FORMAT, [], false⟩])) = true
    ∧ holds (exec .commandLine (collecting ['>', 'A', '*', '4', '1'])) (fun t => decide (t.tx = [⟨[65#8], .no .UNKNOWN, [], false⟩])) = true
    ∧ holds (exec .commandLine (collecting ('>' :: List.replicate 159 'A'))) (fun t => decide (t.tx = [⟨[63#8], .no .FORMAT, [], false⟩])) = true
    ∧ holds (exec .commandLine (collecting ('>' :: 'A' :: List.replicate 158 ' '))) (fun t =>
        decide (t.tx = [⟨[65#8], .no .FORMAT, [], false⟩])) = true := by
  refine ⟨by decide +kernel, rfl, by decide +kernel, by decide +kernel, by decide +kernel, by decide +kernel, by decide +kernel⟩

/-- A ticket's lines as named items, an absent tank and gross left out; a compartment in RTE.TOTALS carries no capacity (R24, R176, R192). -/
theorem test_items :
    TicketLine.items ⟨.changeover, .mixed, none, 500, 1249, 625, 31⟩
        = kwItem .KIND .CHANGEOVER ++ [.kw .PRODUCT, .kw .MIXED] ++ item .NET 500 ++ item .PRICE 1249 ++ item .AMOUNT 625
          ++ item .TAX 31
    ∧ TicketLine.items ⟨.drop 2, .product 1, some 510, 500, 1249, 625, 31⟩
        = kwItem .KIND .DROP ++ item .TANK 2 ++ item .PRODUCT 1 ++ item .GROSS 510 ++ item .NET 500 ++ item .PRICE 1249
          ++ item .AMOUNT 625 ++ item .TAX 31
    ∧ truck.accountToks 1 = item .COMP 1 ++ item .PRODUCT 1 ++ item .LOADED 300000 ++ item .DRAWN 0 ++ item .REMAINING 300000 := by
  decide +kernel

/-- A line of fields reads as its command; a reply line carries its check. -/
theorem test_line_fields :
    parseCommand .LN_ARM [charBytes ['1'], charBytes ['1', '2'], charBytes ['P', 'U', 'R', 'G', 'E']]
        = some (.lnArm 1 12 none true)
    ∧ checkedBody (charBytes ['S', 'T', 'A', 'T', 'U', 'S', '*', '1', '4']) = some (charBytes ['S', 'T', 'A', 'T', 'U', 'S'])
    ∧ checkField (charBytes ['S', 'T', 'A', 'T', 'U', 'S']) = charBytes ['*', '1', '4'] := by decide +kernel

/-! ## Meter events -/

/-- The table of R55, row by row. -/
theorem test_decoder : ∀ a b : Bool,
    let m := { truck.meters.one with levelA := a, levelB := b }
    m.isForward .a = (a == b) ∧ m.isForward .b = (a != b) ∧ m.isRise .a = (!a && !b) ∧ m.isRise .b = false := by decide +kernel

/-- Edges in every kind of state (EdgesGoToTheirDestination). -/
theorem test_wit_edges :
    (flowing.isActive = true ∧ flowing.settled = true ∧ (flowing.items .one).pr = some 400
      ∧ (flowing.line .one).st.crediting = true ∧ flowing.inputs.air.get .one = false)
    ∧ holds (exec (.pulserEdge .one .a 9) flowing) (fun t => decide ((t.meter .one).batchFwd = 1 ∧ (t.meter .one).levelA = true)) = true
    ∧ holds (exec (.pulserEdge .one .b 9) flowing) (fun t => decide ((t.meter .one).batchRev = 1 ∧ (t.meter .one).batchFwd = 0)) = true
    ∧ holds (exec (.pulserEdge .one .a 9) { flowing with inputs := { flowing.inputs with air := ⟨true, false⟩ } }) (fun t =>
        decide ((t.meter .one).batchGated = 1 ∧ (t.meter .one).batchFwd = 0)) = true
    ∧ holds (exec (.pulserEdge .two .a 9) flowing) (fun t => decide ((t.meter .two).creep = 1 ∧ (t.meter .two).batchFwd = 0)) = true
    ∧ holds (exec (.pulserEdge .one .a 9) State.reset) (fun t =>
        decide ((t.meter .one).creep = 0 ∧ (t.meter .one).levelA = true)) = true := by decide +kernel

/-- A line with a meter changed. -/
def metered (s : State) (f : Meter → Meter) : State := s.modMeter .one f

/-- Periods: each step of the measurement, its end at 16,777,216 µs, samples and the quiet timer (PeriodsAndSamples). -/
theorem test_wit_periods :
    holds (exec (.pulserEdge .one .a 500) (metered flowing (fun m => { m with period := .measure 11500 }))) (fun t =>
        decide ((t.meter .one).rate = 500 ∧ (t.meter .one).band = 2 ∧ (t.meter .one).period = .measure 0)) = true
    ∧ holds (exec (.pulserEdge .one .a 16777215) (metered flowing (fun m => { m with period := .measure 0 }))) (fun t =>
        decide ((t.meter .one).rate = 2400000000 / (400 * 16777215))) = true
    ∧ holds (exec (.pulserEdge .one .a 16777216) (metered flowing (fun m => { m with period := .measure 0, rate := 9 }))) (fun t =>
        decide ((t.meter .one).rate = 0 ∧ (t.meter .one).band = 1)) = true
    ∧ holds (exec (.pulserEdge .one .a 5) flowing) (fun t => decide ((t.meter .one).period = .discard 0)) = true
    ∧ holds (exec (.pulserEdge .one .b 5) (metered flowing (fun m => { m with levelA := true, period := .discard 3 }))) (fun t =>
        decide ((t.meter .one).period = .discard 8)) = true
    ∧ holds (exec (.periodOverflow .one) (metered flowing (fun m => { m with period := .measure 3, rate := 7 }))) (fun t =>
        decide ((t.meter .one).period = .seek ∧ (t.meter .one).rate = 0)) = true
    ∧ holds (exec (.temperatureSample .two (.temp 6000)) truck) (fun t => decide ((t.meter .two).lastValid = some 6000)) = true
    ∧ holds (exec (.temperatureSample .two (.temp 6001)) truck) (fun t =>
        decide ((t.meter .two).lastValid = none ∧ (t.meter .two).sample = some (.temp 6001))) = true
    ∧ holds (exec (.quietTimerExpiry .one) (metered truck (fun m => { m with quiet := 5 }))) (fun t =>
        decide ((t.meter .one).quiet = 1000000)) = true := by decide +kernel

/-- The seventeenth phase error, and creep above PR, in the states they matter in (LatchedFaults). -/
theorem test_wit_faults :
    (let f := fun m : Meter => { m with phaseErrors := 16 }
     holds (exec (.phaseError .one) (metered flowing f)) (fun t => decide ((t.line .one).st = .settling
        ∧ (t.line .one).cut = some .pulser ∧ (t.meter .one).phaseErrors = 17)) = true
      ∧ holds (exec (.phaseError .one) (metered truck f)) (fun t => decide ((t.line .one).st = .fault ∧ t.attention.one = true)) = true
      ∧ holds (exec (.phaseError .one) (metered (paused .air) f)) (fun t => decide ((t.line .one).cause = some .pulser)) = true
      ∧ holds (exec (.phaseError .one) (metered armed f)) (fun t => decide ((t.line .one).st = .fault ∧ t.recOf 12 = some order)) = true)
    ∧ holds (exec (.phaseError .one) (metered truck (fun m => { m with phaseErrors := 15 }))) (fun t =>
        decide ((t.line .one).st = .idle ∧ (t.meter .one).phaseErrors = 16)) = true
    ∧ (let f := fun m : Meter => { m with creep := 400 }
       holds (exec (.pulserEdge .one .a 1) (metered truck f)) (fun t => decide ((t.line .one).st = .fault)) = true
        ∧ holds (exec (.pulserEdge .one .a 1) (metered armed f)) (fun t => decide (t.recOf 12 = some order)) = true
        ∧ holds (exec (.pulserEdge .one .a 1) (metered (paused .air) f)) (fun t =>
            decide ((t.line .one).st = .paused ∧ (t.meter .one).latchCreep = true)) = true) := by decide +kernel

/-! ## Timers -/

/-- A window of forward edges, one that stops at the limit, one with a reverse excess (WindowConvertsAndDecides). -/
theorem test_wit_window :
    (flowing.isActive = true ∧ flowing.settled = true ∧ (flowing.line .one).timers.window.isSome = true
      ∧ (flowing.line .one).st.crediting = true ∧ flowing.excess .one = false)
    ∧ holds (exec (.windowExpiry .one) (metered flowing (fun m => { m with batchFwd := 400, sample := some (.temp 2500), lastValid := some 2500 })))
        (fun t => decide ((t.line .one).cmdHigh = true ∧ (t.meter .one).fwdTotal = 400
          ∧ t.recOf 12 = some (started 301001000 299992541))) = true
    ∧ holds (exec (.windowExpiry .one) (onLine { flowingLine with limit := some (.cl 29950), cmdHigh := true } (started 300000000 299000000)))
        (fun t => decide ((t.line .one).st = .stopping ∧ (t.line .one).intent = some .limit)) = true
    ∧ (metered flowing (fun m => { m with batchRev := 201 })).excess .one = true
    ∧ holds (exec (.windowExpiry .one) (metered flowing (fun m => { m with batchRev := 201 }))) (fun t =>
        decide ((t.line .one).st = .settling ∧ (t.line .one).cut = some .reverse ∧ (t.line .one).reverse = 201)) = true := by
  decide +kernel

/-- A step, and settles that pause or end a drop (StepAndSettleEnd). -/
theorem test_wit_settle :
    holds (exec (.stepExpiry .one) (stopping .pause)) (fun t => decide ((t.line .one).st = .settling ∧ (t.line .one).cmdLow = false)) = true
    ∧ ((settling .pause).isActive = true ∧ (settling .pause).settled = true ∧ (settling .pause).roomy = true
      ∧ ((settling .pause).line .one).timers.settle = some 2000000 ∧ ((settling .pause).line .one).lowAlone = false)
    ∧ holds (exec (.settleExpiry .one) (settling .pause)) (fun t => decide (t.line .one = pausedLine .driver ∨ (t.line .one).cause = some .driver)) = true
    ∧ holds (exec (.settleExpiry .one) (settling .noFlow)) (fun t => decide ((t.line .one).cause = some .noFlow ∧ t.attention.one = true)) = true
    ∧ holds (exec (.settleExpiry .one) (onLine (LineCtx.cutNow .air flowingLine) (started 0 0))) (fun t =>
        decide ((t.line .one).cause = some .air ∧ (t.line .one).timers.autoClose = some 900000000)) = true
    ∧ holds (exec (.settleExpiry .one) (settling .enddrop)) (fun t => decide ((t.line .one).cause = some .dropEnd
        ∧ (t.recOf 12).map (fun r => r.drops.map Drop.tNet) = some [29900, 0])) = true := by decide +kernel

/-- A settle that closes, with its record saved and unsaved, and one that learns (SettleEndsTheRun). -/
theorem test_wit_settleClose :
    (let one := { started 300000000 299740000 with drops := [⟨1, none, none, .active ⟨300000000, 299740000, 0⟩⟩] }
     let s := onLine (LineCtx.stopped inService.run .limit 29900 flowingLine) one
     s.isActive = true ∧ s.settled = true ∧ s.roomy = true ∧ (s.line .one).lowAlone = true ∧ one.active.map (·.1) = some 1
      ∧ holds (exec (.settleExpiry .one) s) (fun t => decide ((t.line .one).st = .idle ∧ t.counter = 1
          ∧ t.settings.lines.one.antic = 56 ∧ t.attention.one = false)) = true
      ∧ holds (exec (.settleExpiry .one) { s with unsaved := [12] }) (fun t => decide ((t.line .one).cause = some .store
          ∧ (t.line .one).held = some .limit)) = true)
    ∧ ((((settling .close).convert .one).endDrop .one .driver).deductOrder .one 12).recOf 12
        = some { started 0 0 with
            drops := [⟨1, none, none, .done ⟨300000000, 299000000, 0⟩ 30000 29900 .driver⟩, ⟨2, none, some 40000, .pending⟩] }
    ∧ holds (exec (.settleExpiry .one) (settling .close)) (fun t => decide ((t.line .one).st = .idle
        ∧ (t.recOf 12).map (·.state) = some .ticketed)) = true
    ∧ holds (exec (.settleExpiry .one) (onLine (LineCtx.stopped inService.run .close 0 flowingLine) (started 9999 9999))) (fun t =>
        decide ((t.recOf 12).map (fun r => (r.state, r.attempts)) = some (.planned, 1) ∧ t.counter = 0)) = true := by decide +kernel

/-- The other timers (OtherTimersExpire). -/
theorem test_wit_timers :
    holds (exec (.noFlowExpiry .one) flowing) (fun t => decide ((t.line .one).intent = some .noFlow ∧ (t.line .one).st = .settling)) = true
    ∧ holds (exec (.noFlowExpiry .one) (stopping .pause)) (fun t => decide ((t.line .one).intent = some .noFlow ∧ (t.line .one).st = .stopping)) = true
    ∧ (let s := onLine { flowingLine with
          timers := { flowingLine.timers with deadman := some 5 }, latched := some { inService.latch with run := { inService.run with deadman := 60 } } } (started 0 0)
       holds (exec (.deadmanExpiry .one) s) (fun t => decide ((t.line .one).cut = some .deadman)) = true
        ∧ holds (exec (.deadmanExpiry .one) { s with inputs := { s.inputs with deadman := true } }) (fun t =>
            decide ((t.line .one).cut = some .deadman)) = true
        ∧ holds (exec .deadmanPress s) (fun t => holds (exec (.deadmanExpiry .one) t) (fun u =>
            decide (u = { t with press := ⟨⟨false, false⟩, []⟩ }))) = true
        ∧ holds (exec .deadmanPress s) (fun t => holds (exec .deadmanRelease t) (fun u =>
            holds (exec (.deadmanExpiry .one) u) (fun v => decide (v = { u with press := ⟨⟨false, false⟩, []⟩ })))) = true
        ∧ (∀ i ∈ [.pulserEdge .one .a 20000, .windowExpiry .one, .clockTick, .temperatureSample .one .shorted],
            holds (exec .deadmanPress s) (fun t => holds (exec i t) (fun u => holds (exec (.deadmanExpiry .one) u) (fun v =>
                decide ((v.line .one).cut = none))
              && holds (exec i u) (fun v => holds (exec (.deadmanExpiry .one) v) (fun w =>
                decide ((w.line .one).cut = some .deadman))))) = true)
        ∧ holds (exec .deadmanPress s) (fun t => holds (step t) (fun u => holds (exec (.deadmanExpiry .one) u) (fun v =>
            decide ((v.line .one).cut = some .deadman)))) = true)
    ∧ holds (exec (.checkpointExpiry .one) flowing) (fun t => decide ((t.line .one).timers.checkpoint = some 5000000
        ∧ t.flight.isSome = true)) = true
    ∧ holds (exec (.autoCloseExpiry .one) (paused .driver)) (fun t => decide ((t.line .one).st = .idle ∧ t.counter = 1
        ∧ (t.recOf 12).bind (fun r => r.ticket.map (·.cause)) = some .timeout)) = true
    ∧ holds (exec (.autoCloseExpiry .one) { paused .driver with unsaved := [12] }) (fun t =>
        decide ((t.line .one).held = some .timeout ∧ (t.line .one).st = .paused)) = true
    ∧ holds (exec (.autoCloseExpiry .one) (onLine (pausedLine .driver) (started 9999 9999))) (fun t =>
        decide ((t.recOf 12).map (fun r => (r.state, r.attempts)) = some (.planned, 1) ∧ t.counter = 0)) = true
    ∧ holds (exec (.autoCloseExpiry .two) (pausedRun .prime)) (fun t => decide ((t.line .two).st = .idle)) = true := by decide +kernel

/-! ## Inputs, power, clock -/

/-- Inputs that cut, levels, the deadman and the seal (InputsAndSeal). -/
theorem test_wit_inputs :
    holds (exec .permitDeasserted flowing) (fun t => decide ((t.line .one).cut = some .interlock ∧ t.inputs.permit = false)) = true
    ∧ holds (exec .permitDeasserted (settling .pause)) (fun t => decide ((t.line .one).cut = some .interlock)) = true
    ∧ holds (exec .ignitionLow flowing) (fun t => decide ((t.line .one).cut = some .ignition ∧ t.outPump = false)) = true
    ∧ holds (exec (.airAsserted .one) flowing) (fun t => decide ((t.line .one).cut = some .air)) = true
    ∧ holds (exec (.airAsserted .one) (settling .pause)) (fun t => decide ((t.line .one).cut = none)) = true
    ∧ holds (exec (.airDeasserted .one) { truck with inputs := { truck.inputs with air := ⟨true, true⟩ } }) (fun t =>
        decide (t.inputs.air = ⟨false, true⟩)) = true
    ∧ holds (exec .permitAsserted { truck with inputs := Inputs.quiet }) (fun t => decide (t.inputs.permit = true)) = true
    ∧ holds (exec (.ignitionHigh ⟨.shorted, .shorted⟩) { truck with inputs := Inputs.quiet, sleepDue := true, cmd := some ⟨.IDENT, .ready [], .on [], true⟩ })
        (fun t => decide (t.inputs.ignition = true ∧ t.sleepDue = false)) = true
    ∧ (let s := onLine { flowingLine with
          timers := { flowingLine.timers with deadman := some 5 }, latched := some { inService.latch with run := { inService.run with deadman := 60 } } } (started 0 0)
       holds (exec .deadmanPress s) (fun t => decide ((t.line .one).timers.deadman = some 60000000
          ∧ t.press = ⟨⟨true, false⟩, []⟩ ∧ (t.line .two).timers = .stopped ∧ t.inputs.deadman = true)) = true
        ∧ holds (exec .deadmanRelease { s with inputs := { s.inputs with deadman := true } }) (fun t => decide (t.inputs.deadman = false)) = true)
    ∧ holds (exec .sealOpens truck) (fun t => decide (t.inputs.sealOpen = true)) = true
    ∧ holds (exec .sealCloses (unsealed { truck with settings := { inService with session := true, calLost := true } })) (fun t =>
        decide (t.settings.calCount = 4 ∧ t.settings.calLost = false ∧ t.settings.session = false ∧ t.flight.isSome = true)) = true
    ∧ holds (exec .sealCloses (unsealed { truck with settings := { inService with countLost := true } })) (fun t =>
        decide (t.settings = inService ∧ t.flight.isSome = true)) = true
    ∧ holds (exec .sealCloses (unsealed truck)) (fun t => decide (t.settings = inService ∧ t.flight = none)) = true := by decide +kernel

/-- A power failure and a link reset with a write in flight and with nothing to write; the deadlines (PowerFailFlushes). -/
theorem test_wit_powerFail :
    (let s := { flowing with flight := some (.block (.settings inService) false) }
     s.isActive = true ∧ s.settled = true
      ∧ holds (exec .powerFailAsserted s) (fun t => decide (t.phase = .flush ⟨.powerFail none, 0, false, false, false⟩ ∧ t.queue = [.record 12]
          ∧ (t.recOf 12).map (·.restored) = some .final ∧ (t.line .one).timers = .stopped ∧ t.outLow .one = false)) = true
      ∧ holds (exec (.linkReset (reads [])) s) (fun t => decide (t.phase = .flush ⟨.linkReset (reads []), 0, false, false, false⟩)) = true)
    ∧ (armed.flight = none ∧ armed.settled = true ∧ (armed.slot 3).any (fun x => x.isInUse && !x.due && !x.relocate) = true)
    ∧ holds (exec .powerFailAsserted armed) (fun t => decide (t.phase = .flush ⟨.powerFail none, 0, false, false, false⟩
        ∧ flightKw t.flight = .RECORD ∧ (t.recOf 12).map (·.restored) = some .final)) = true
    ∧ (let s := { armed with slots := armed.slots.take 3 }.modSlot 3 (fun x => { x with corr := 2 })
       holds (exec .powerFailAsserted { s with slots := s.slots.drop 2 }) (fun t =>
          decide (t.phase = .hold ∧ t.unsaved = [12])) = true)
    ∧ holds (exec .powerFailAsserted truck) (fun t => decide (t.phase = .hold)) = true
    ∧ (let f : Flush := ⟨.powerFail none, 7, false, false, false⟩
       let s := { truck with phase := .flush f, flight := some (.release 3), queue := [.block .load] }
       holds (exec (.flushDeadline .blocks) s) (fun t => decide (t.phase = .flush { f with blocksPast := true })) = true
        ∧ holds (exec (.flushDeadline .slots) { s with phase := .flush { f with blocksPast := true, slotsPast := true }, flight := none }) (fun t =>
            decide (t.phase = .hold ∧ t.queue = [])) = true
        ∧ holds (exec .releaseComplete { s with phase := .flush { f with blocksPast := true } }) (fun t =>
            decide (t.phase = .hold ∧ t.queue = [])) = true)
    ∧ (let s (k : FlushKind) := { planned with
          phase := .flush ⟨k, 7, true, true, false⟩, flight := some (.record ⟨12, order, 1, .relocation⟩), queue := [.block .load] }
       holds (exec (.recordWriteComplete .clean false) (s (.powerFail none))) (fun t => decide (t.phase = .hold ∧ t.queue = [])) = true
        ∧ holds (exec (.recordWriteComplete .clean false) (s (.powerFail (some (reads []))))) (fun t =>
            decide (t.phase = .restart ∧ t.resetCause.cause = .powerOn)) = true
        ∧ holds (exec (.powerOnRestart (reads [])) (s (.powerFail none))) (fun t =>
            decide (t.phase = .flush ⟨.powerFail (some (reads [])), 7, true, true, false⟩ ∧ t.inputs.powerFail = false)) = true
        ∧ holds (exec .powerFailAsserted (s (.powerFail (some (reads []))))) (fun t =>
            decide (t.phase = .flush ⟨.powerFail none, 7, true, true, false⟩ ∧ t.inputs.powerFail = true)) = true) := by decide +kernel

/-- A state that holds, its settings area as a write of the service settings left it (R155). -/
def held (s : State) : State := { s with phase := .hold, areaSettings := some (.write .settings inService) }

/-- The same state, its fingerprint another than its block's. -/
def spoilt (s : State) : State :=
  { held s with areaSettings := some ⟨inService, Config.checkWord (.settings inService) + 1⟩ }

/-- Power applied to a part that holds, whose settings area can be read and matches its fingerprint. -/
theorem restarts (r : RestartReads) (s : State) (hr : r.settings ≠ .bad) (hl : s.areaLoad = none) (hu : s.areaRoute = none) :
    exec (.powerOnRestart r) (held s) = .next (commit ((held s).restartFrom .powerOn r (some inService) none none)) := by
  show execPowerOnRestart r (held s) = _
  rw [execPowerOnRestart_hold r _ rfl]
  show Host.Outcome.next (commit ((held s).restartFrom .powerOn r
    (readArea .settings (some (.write .settings inService)) r.settings) (readArea .load s.areaLoad r.load)
    (readArea .route s.areaRoute r.route))) = _
  rw [readArea_write _ _ _ hr, hl, hu, readArea_blank, readArea_blank]

/-- Power applied to a part that holds, whose settings area does not match its fingerprint. -/
theorem restarts_spoilt (r : RestartReads) (s : State) (hl : s.areaLoad = none) (hu : s.areaRoute = none) :
    exec (.powerOnRestart r) (spoilt s) = .next (commit ((spoilt s).restartFrom .powerOn r none none none)) := by
  show execPowerOnRestart r (spoilt s) = _
  rw [execPowerOnRestart_hold r _ rfl]
  show Host.Outcome.next (commit ((spoilt s).restartFrom .powerOn r
    (readArea .settings (some ⟨inService, Config.checkWord (.settings inService) + 1⟩) r.settings)
    (readArea .load s.areaLoad r.load) (readArea .route s.areaRoute r.route))) = _
  rw [readArea_unmatched _ _ _ (by simp [Stored.matched]), hl, hu, readArea_blank, readArea_blank]

/-- A truck whose line 1 was delivering its order. -/
def delivering : State := (put 3 (started 300000000 299000000) truck).modSlot 3 (fun x => x.writeHeader (.inUse 12 1))

/-- A power-on restart with a bound record (RestartBringsUp). -/
theorem test_wit_restart :
    holds (exec (.powerOnRestart (reads [])) (held delivering)) (fun t => decide ((t.line .one).st = .paused
          ∧ (t.line .one).cause = some .power ∧ (t.line .two).st = .idle ∧ t.clock = ⟨⟨2000, 1, 1, 0, 0, 0⟩, false⟩
          ∧ t.resetCause.restoredLines = 1 ∧ t.pump = some ⟨1, ⟨true, false⟩⟩ ∧ t.attention = ⟨true, false⟩
          ∧ t.settings = inService ∧ t.failed.settings = false
          ∧ (t.recOf 12).map (fun r => r.flags.restoredCheckpoint) = some true)) = true := by
  rw [restarts (reads []) delivering (by decide) rfl rfl]; decide +kernel

/-- A power-on restart with an unreadable record (RestartBringsUp). -/
theorem test_wit_restartDamaged :
    holds (exec (.powerOnRestart (reads [⟨3, none, .uncorrectable, 4711⟩])) (held delivering)) (fun t =>
      decide ((t.slot 3).map (·.st) = some (.inUse (.damaged 12 4711)) ∧ (t.line .one).st = .idle)) = true := by
  rw [restarts (reads [⟨3, none, .uncorrectable, 4711⟩]) delivering (by decide) rfl rfl]; decide +kernel

/-- A power-on restart of a part whose settings do not match their fingerprint: the defaults, marked failed and written (R156). -/
theorem test_wit_restartSpoilt :
    holds (exec (.powerOnRestart (reads [])) (spoilt delivering)) (fun t => decide (t.settings = .default
      ∧ t.failed.settings = true ∧ (t.line .two).st = .setup
      ∧ t.flight = some (.block (.settings .default) false))) = true := by
  rw [restarts_spoilt (reads []) delivering rfl rfl]; decide +kernel

/-- A power-on restart with a settings area that cannot be read; a link reset's restart (RestartBringsUp). -/
theorem test_wit_restartBad :
    holds (exec (.powerOnRestart ⟨[⟨3, none, .corrected 9, 0⟩], .bad, .good, .good⟩) (held delivering)) (fun t =>
          decide (t.settings = .default ∧ t.failed.settings = true ∧ (t.line .two).st = .setup
            ∧ (t.slot 3).map (·.corr) = some 1 ∧ t.captures = ⟨some (3, 9), [(3, 9)]⟩)) = true
    ∧ truck.isActive = true ∧ truck.settled = true ∧ truck.flight = none
    ∧ holds (exec (.linkReset (reads [])) truck) (fun t => decide (t.phase = .restart ∧ t.clock = truck.clock
        ∧ t.resetCause.cause = .linkReset)) = true := by decide +kernel

/-- A restart with a write in flight and one waiting: POWER-FAIL stops it, any other row and an idle step end it; with nothing in flight the hold (RestartBringsUp). -/
theorem test_wit_restartStopped :
    let s := { truck with
      phase := .restart, flight := some (.block (.load truck.load) false), queue := [.block .route], unsaved := [12] }
    holds (exec .powerFailAsserted s) (fun t => decide (t.phase = .flush ⟨.powerFail none, 0, false, false, true⟩ ∧ t.queue = []
        ∧ t.flight = s.flight) && holds (exec (.blockWriteComplete true) t) (fun u => decide (u.phase = .hold ∧ u.queue = []
          ∧ u.areaLoad.map (·.block) = some truck.load ∧ u.areaRoute = s.areaRoute))) = true
      ∧ holds (exec .permitDeasserted s) (fun t => decide (t.phase = .active ∧ t.queue = [.block .route])) = true
      ∧ holds (step s) (fun t => decide (t.phase = .active ∧ t.flight = s.flight)) = true
      ∧ holds (exec .powerFailAsserted { s with flight := none }) (fun t => decide (t.phase = .hold ∧ t.queue = [])) = true
      ∧ s.isActive = false ∧ s.isUp = true ∧ s.attnActive = true := by decide +kernel

/-- The medium after two copies of an image were written to slots 2 and 5 with sequence numbers. -/
def copies (r : Record) (p q : Nat) : State :=
  let write (n seq : Nat) (s : State) : State :=
    s.modSlot n (fun x => { x with content := some r }.writeHeader (.inUse r.stop seq))
  write 5 q (write 2 p truck)

/-- A medium of one worn slot, with a bound record. -/
def wornOut : State :=
  { truck with slots := [{ Slot.factory with corr := 2, content := some bound }.writeHeader (.inUse 12 9)] }

/-- A medium with bound records for both lines, on different compartments. -/
def twoBound : State :=
  (copies bound 4 9).modSlot 7 (fun x =>
    { x with content := some { bound with stop := 13, binding := some ⟨.two, 2, false⟩ } }.writeHeader (.inUse 13 2))

/-- Copies of one stop: the newest, the lower slot of two equal ones (RestartBringsUp). -/
theorem test_wit_scan :
    holds (exec (.powerOnRestart (reads [])) (held (copies order 4 9))) (fun t => decide (t.homeOf 12 = some 5
        ∧ t.recOf 12 = some order ∧ (t.slot 2).map (fun x => (x.st, x.program)) = some (.free, 0))) = true
    ∧ holds (exec (.powerOnRestart (reads [])) (held (copies order 9 9))) (fun t => decide (t.homeOf 12 = some 2
        ∧ (t.slot 5).map (·.st) = some .free)) = true
    ∧ holds (exec (.powerOnRestart (reads [⟨2, none, .uncorrectable, 1⟩])) (held (copies order 4 9))) (fun t =>
        decide ((t.slot 2).map (·.st) = some .retired)) = true := by
  rw [restarts (reads []) (copies order 4 9) (by decide) rfl rfl, restarts (reads []) (copies order 9 9) (by decide) rfl rfl,
    restarts (reads [⟨2, none, .uncorrectable, 1⟩]) (copies order 4 9) (by decide) rfl rfl]
  decide +kernel

/-- The counter recovered; lines in SETUP, IDLE and PAUSED(STORE); the pump (RestartBringsUp). -/
theorem test_wit_scanLines :
    holds (exec (.powerOnRestart ⟨[], .good, .bad, .bad⟩)
        (held (copies { order with state := .ticketed, ticket := some ticket } 4 9))) (fun t => decide (t.counter = 5
          ∧ (t.line .one).st = .idle ∧ (t.line .two).st = .idle ∧ t.load.hoses = ⟨.product 1, .mixed⟩)) = true
    ∧ holds (exec (.powerOnRestart ⟨[], .bad, .good, .good⟩) (held (copies order 4 9))) (fun t =>
        decide ((t.line .one).st = .setup)) = true
    ∧ holds (exec (.powerOnRestart (reads [])) (held wornOut)) (fun t =>
        decide ((t.line .one).cause = some .store ∧ t.unsaved = [12])) = true
    ∧ (twoBound.scan []).boundComp .one = some 1 ∧ (twoBound.scan []).boundComp .two = some 2
    ∧ holds (exec (.powerOnRestart (reads [])) (held twoBound)) (fun t => decide (t.pump = some ⟨1, ⟨true, false⟩⟩
        ∧ (t.line .one).cause = some .power ∧ (t.line .two).st = .idle
        ∧ (t.recOf 13).map (fun r => (r.state, r.attempts)) = some (.planned, 1))) = true := by
  rw [restarts ⟨[], .good, .bad, .bad⟩ (copies { order with state := .ticketed, ticket := some ticket } 4 9) (by decide) rfl rfl,
    restarts (reads []) wornOut (by decide) rfl rfl, restarts (reads []) twoBound (by decide) rfl rfl]
  decide +kernel

/-- A truck whose IGNITION has been low. -/
def parked : State := { truck with inputs := { truck.inputs with ignition := false } }

/-- SLEEP at once and put off, the ways it ends, the clock (SleepWakeAndClock). -/
theorem test_wit_sleep :
    (parked.isActive = true ∧ parked.settled = true ∧ parked.mode = .run ∧ parked.inputs.ignition = false)
    ∧ holds (exec .sleepEntry parked) (fun t => decide (t.mode = .sleep)) = true
    ∧ (let s := { parked with cmd := some ⟨.IDENT, .ready [], .on [], true⟩, tx := [⟨[], .ok, [], true⟩] }
       holds (exec .sleepEntry s) (fun t => decide (t.mode = .run ∧ t.sleepDue = true)) = true
        ∧ ({ s with sleepDue := true } : State).settled = true
        ∧ holds (exec .replyLineSent { s with sleepDue := true }) (fun t => decide (t.mode = .sleep)) = true)
    ∧ (let s := { parked with mode := .sleep }
       s.settled = true
        ∧ holds (exec (.ignitionHigh ⟨.temp 1, .temp 2⟩) s) (fun t => decide (t.mode = .run ∧ (t.meter .two).sample = some (.temp 2))) = true
        ∧ holds (exec (.linkWake ⟨.temp 1, .temp 2⟩) s) (fun t => decide (t.mode = .run ∧ t.rx.discard = true)) = true
        ∧ (∀ i ∈ [.characterReceived 13#8, .characterReceived 62#8, .commandLine], holds (exec i s) (fun t =>
            decide (t.mode = .run ∧ t.rx = ⟨none, true, 0, none⟩))) = true
        ∧ holds (exec (.temperatureSample .one .shorted) s) (fun t => decide ((t.meter .one).sample = none)) = true)
    ∧ holds (exec .clockTick truck) (fun t => decide (t.clock = ⟨⟨2024, 5, 6, 7, 8, 10⟩, true⟩)) = true
    ∧ dateValid ⟨2099, 12, 31, 23, 59, 58⟩ = true := by decide +kernel

/-! ## Store -/

/-- A truck with a record write in flight. -/
def writing (target : Nat) (kind : WriteKind) : State := { planned with flight := some (.record ⟨12, order, target, kind⟩) }

/-- A record write that verifies and fails, in place, elsewhere, and with no FREE slot left (RecordWritesComplete). -/
theorem test_wit_recordWrite :
    ((writing 3 .inPlace).isActive = true ∧ (writing 3 .inPlace).queue = [] ∧ (writing 3 .inPlace).unsaved = []
      ∧ (writing 3 .inPlace).homeOf 12 = some 3 ∧ (writing 3 .inPlace).seq < 4294967295
      ∧ ((writing 3 .inPlace).slot 3).map (fun x => (x.isInUse, x.program)) = some (true, 0)
      ∧ ((writing 1 .relocation).slot 1).map Slot.isFree = some true)
    ∧ holds (exec (.recordWriteComplete .clean true) (writing 3 .inPlace)) (fun t => decide (t.flight = none ∧ t.seq = 2
        ∧ (t.slot 3).map (fun x => (x.program, x.headers.first)) = some (1, ⟨1, 0, .inUse 12 1⟩))) = true
    ∧ holds (exec (.recordWriteComplete .clean true) (writing 1 .relocation)) (fun t => decide (t.homeOf 12 = some 1
        ∧ (t.slot 3).map Slot.isRetired = some true)) = true
    ∧ holds (exec (.recordWriteComplete .clean false) (writing 3 .inPlace)) (fun t =>
        decide (t.flightTarget = some 1 ∧ (t.slot 3).map (·.relocate) = some true)) = true
    ∧ holds (exec (.recordWriteComplete .clean false) (writing 1 .relocation)) (fun t =>
        decide (t.flightTarget = some 2 ∧ (t.slot 1).map Slot.isRetired = some true)) = true
    ∧ (let s := { writing 1 .inPlace with slots := [{ Slot.factory with st := .inUse (.record order) }] }
       s.allocate none = none ∧ s.homeOf 12 = some 1
        ∧ holds (exec (.recordWriteComplete .clean false) s) (fun t => decide (t.unsaved = [12]
            ∧ (t.slot 1).map Slot.isCondemned = some true)) = true) := by decide +kernel

/-- Block writes that verify, fail once and twice; releases to FREE and to RETIRED (BlockWritesAndReleasesComplete). -/
theorem test_wit_blockWrite :
    (let s := { truck with flight := some (.block (.load truck.load) false) }
     s.isActive = true ∧ s.queue = []
      ∧ holds (exec (.blockWriteComplete true) s) (fun t => decide (t.areaLoad.map (·.block) = some truck.load ∧ t.flight = none)) = true
      ∧ holds (exec (.blockWriteComplete false) s) (fun t => decide (t.flight = some (.block (.load truck.load) true))) = true
      ∧ holds (exec (.blockWriteComplete false) { s with flight := some (.block (.load truck.load) true) }) (fun t =>
          decide (t.failed = ⟨false, true, false⟩)) = true)
    ∧ (let s := { planned with flight := some (.release 3) }
       holds (exec .releaseComplete s) (fun t => decide ((t.slot 3).map (fun x => (x.st, x.program)) = some (.free, 1) ∧ t.recOf 12 = none)) = true
        ∧ holds (exec .releaseComplete (s.modSlot 3 (fun x => { x with corr := 2 }))) (fun t => decide ((t.slot 3).map (·.st) = some .retired)) = true)
    ∧ holds (exec .releaseComplete { damaged with flight := some (.release 3) }) (fun t => decide ((t.slot 3).map (·.st) = some .retired)) = true := by
  decide +kernel

/-- A patrol read begun and ended in each way (PatrolReads). -/
theorem test_wit_patrol :
    (planned.isActive = true ∧ planned.settled = true ∧ planned.patrolFrom planned.patrolCursor = some 3
      ∧ truck.patrolFrom truck.patrolCursor = none)
    ∧ holds (exec .patrolIdleExpiry planned) (fun t => decide (t.flight = some (.patrol 3))) = true
    ∧ holds (exec .patrolIdleExpiry truck) (fun t => decide (t.flight = none)) = true
    ∧ (let s := { planned with flight := some (.patrol 3) }
       holds (exec (.patrolReadComplete .clean) s) (fun t => decide (t.flight = none ∧ t.patrolCursor = 3)) = true
        ∧ holds (exec (.patrolReadComplete (.corrected 255)) s) (fun t => decide ((t.slot 3).map (·.corr) = some 1
            ∧ t.captures.latest = some (3, 255))) = true
        ∧ holds (exec (.patrolReadComplete (.corrected 0)) (s.modSlot 3 (fun x => { x with corr := 1 }))) (fun t =>
            decide ((t.slot 3).map (·.corr) = some 2 ∧ t.flightTarget = some 1)) = true
        ∧ holds (exec (.patrolReadComplete .uncorrectable) s) (fun t => decide ((t.slot 3).map (·.relocate) = some true
            ∧ t.flightTarget = some 1)) = true)
    ∧ (planned.patrolFrom 3 = some 3 ∧ planned.patrolFrom 4 = some 3 ∧ (put 9 { order with stop := 13 } planned).patrolFrom 4 = some 9
      ∧ damaged.patrolFrom 1 = none)
    ∧ (let s := { planned with flight := some (.patrol 3) }.modSlot 3 (fun x =>
          { x with headers := ⟨⟨0, 0, .free⟩, ⟨0, 0, .inUse 12 1⟩, ⟨0, 0, .inUse 12 1⟩⟩ })
       holds (exec (.patrolReadComplete (.corrected 0)) s) (fun t =>
          decide ((t.slot 3).map (·.headers.first) = some ⟨0, 1, .inUse 12 1⟩)) = true) := by decide +kernel

end Sys2Proof.Tests
end

