-- ==== Sys2Proof/Proofs/TicketIssue.lean ====
section
/-! PROOFS. A command that changes one record and queues its write, in a settled state; and TKT.ISSUE (R22). -/

open Sys2Proof Sys2Proof.Machine

namespace Sys2Proof.Machine

/-! ## The lookup of a record -/

/-- Where a lookup finds a record, the search for its home finds a slot. -/
theorem findSlot_of_recordIn (stop : Nat) (r : Record) :
    ∀ (xs : List Slot) (n : Nat), recordIn stop xs = some r →
      ∃ i x, findSlot (Slot.holds stop) xs n = some (n + i) ∧ xs[i]? = some x
  | [], _, h => by simp [recordIn] at h
  | x :: xs, n, h => by
    by_cases hx : x.holds stop = true
    · exact ⟨0, x, by simp [findSlot, hx], rfl⟩
    · have hr : recordIn stop xs = some r := by
        cases h0 : x.record? with
        | none => simpa [recordIn, h0] using h
        | some r0 =>
          have hne : r0.stop ≠ stop := fun he => hx ((slot_holds_iff stop x).2 ⟨r0, h0, he⟩)
          simpa [recordIn, h0, hne] using h
      obtain ⟨i, y, hf, hy⟩ := findSlot_of_recordIn stop r xs (n + 1) hr
      exact ⟨i + 1, y, by simp [findSlot, hx, hf]; omega, by simpa using hy⟩

/-- The entry of a record that is in the table can be begun. -/
theorem startable_record (s : State) (stop : Nat) (r : Record) (h : s.recOf stop = some r) :
    startable s (.record stop) := by
  obtain ⟨i, x, hf, hx⟩ := findSlot_of_recordIn stop r s.slots 1 h
  exact ⟨1 + i, r, x, hf, h, by simpa [State.slot, nth1] using hx⟩

/-- A command that names a record of the table is judged on that record (R1, R2). -/
theorem withRecord_found (s : State) (stop : Nat) (r : Record) (k : Record → Except Code Taken)
    (hn : 1 ≤ stop ∧ stop ≤ 9999) (h : s.recOf stop = some r) : withRecord s stop true k = k r := by
  simp [withRecord, stopOk, within, hn, h]

/-! ## A record changed and queued (R2) -/

/-- Some slot is FREE behind a record's change exactly where one was. -/
theorem any_isFree_changeRec (s : State) (stop : Nat) (f : Record → Record) :
    (s.changeRec stop f).slots.any Slot.isFree = s.slots.any Slot.isFree := by
  simp [State.changeRec, List.any_map, Function.comp_def]

/-- Into an empty queue a record's change puts that record's entry alone. -/
theorem queue_changeRec_of_nil (s : State) (stop : Nat) (f : Record → Record) (h : s.queue = []) :
    (s.changeRec stop f).queue = [.record stop] := by
  simp [State.changeRec, State.enqueue, h]

/-- Every other record's image stays behind a record's change. -/
theorem recOf_changeRec_of_ne (s : State) (stop : Nat) (f : Record → Record) (hf : ∀ r, (f r).stop = r.stop) {m : Nat}
    (hm : m ≠ stop) : (s.changeRec stop f).recOf m = s.recOf m :=
  (recOf_of_slots (by simp [State.changeRec]) m).trans (recOf_modRec_of_ne s stop f hf hm)

/-- A state that keeps what `commit` keeps of a record's change differs from the state before in that record alone. -/
theorem recordTaken_of_keeps (w : CmdWord) (p : Plan) (stop : Nat) (r : Record) (f : Record → Record) (rx : Receiver)
    (s t : State) (hf : ∀ r, (f r).stop = r.stop) (hr : s.recOf stop = some r)
    (hk : CommitKeeps ({ s with rx := rx }.changeRec stop f) t) (hp : inProgress w p t) (ha : asked t (.record stop)) :
    recordTaken w p stop (f r) s t := by
  have hsame : t.recOf stop = some (f r) := by
    rw [hk.recOf, recOf_changeRec_same _ stop f hf]
    exact congrArg (Option.map f) hr
  have hother : ∀ n, n ≠ stop → t.recOf n = s.recOf n := fun n hn =>
    (hk.recOf n).trans (recOf_changeRec_of_ne _ stop f hf hn)
  have hcore : ∀ l, (t.line l).core = (s.line l).core := fun l =>
    (hk.core l).trans (by simp [State.changeRec, State.line])
  have hattention : t.attention = s.attention := by simp [hk.attention, State.changeRec]
  have hpump : t.pump = s.pump := by simp [hk.pump, State.changeRec]
  have hlines : sameLines s t := ⟨⟨hcore .one, by rw [hattention]⟩, ⟨hcore .two, by rw [hattention]⟩, hpump⟩
  refine ⟨hsame, ⟨hother, ?_⟩, ?_, hlines, ?_, ?_, hp, ha⟩
  · simp [hk.unsaved, State.changeRec]
  · simp [sameBlocks, hk.settings, hk.load, hk.route, hk.counter, State.changeRec]
  · simp [sameTruck, hk.inputs, hk.meters, hk.clock, hk.captures, hk.areaSettings, hk.areaLoad, hk.areaRoute, hk.failed,
      hk.seq, hk.patrolCursor, hk.resetCause, hk.phase, hk.mode, hk.ignitionLow, hk.sleepDue, State.changeRec]
  · simp [hk.tx, State.changeRec]

/-- A command taken that changes one record, in a settled part with room: the record changes, its write is asked for, and nothing else changes (R2, R191). -/
theorem take_changeRec (w : CmdWord) (judge : State → Except Code Taken) (stop : Nat) (r : Record) (f : Record → Record)
    (fields : List Tok) (s : State) (hh : s.hears = true) (hs : s.settled = true) (hroom : s.roomy = true)
    (hf : ∀ r, (f r).stop = r.stop) (hr : s.recOf stop = some r)
    (hj : judge { s with rx := .waiting } = taken ({ s with rx := .waiting }.changeRec stop f) stop fields) :
    ∃ t, take w judge s = .next t ∧ recordTaken w (.ready [fields]) stop (f r) s t := by
  obtain ⟨hact, -⟩ := (hears_iff s).1 hh
  obtain ⟨hidle, -, hends, -⟩ := (settled_iff s).1 hs
  obtain ⟨u, hu⟩ : ∃ u : State, u = { s with rx := .waiting }.changeRec stop f := ⟨_, rfl⟩
  have hflight : u.flight = s.flight := by simp [hu, State.changeRec]
  have huact : u.isActive = true := by simpa [hu, State.changeRec, State.isActive] using hact
  have huends : noEndDue u := by simpa [hu, State.changeRec, noEndDue] using hends
  have hur : u.recOf stop = some (f r) := by
    rw [hu, recOf_changeRec_same _ stop f hf]
    exact congrArg (Option.map f) hr
  have hfirst : u.flight.isSome = true ∨ ∃ k q, u.flight = none ∧ u.queue = k :: q ∧ k ∈ [Key.record stop]
      ∧ startable u k ∧ u.slots.any Slot.isFree = true := by
    cases hfl : s.flight with
    | some op => exact .inl (by rw [hflight, hfl]; rfl)
    | none =>
      have hq : s.queue = [] := by simpa [hfl] using hidle
      have hfree : s.slots.any Slot.isFree = true := by simpa [State.roomy, hfl] using hroom
      refine .inr ⟨.record stop, [], hflight.trans hfl, ?_, by simp, startable_record u stop _ hur, ?_⟩
      · exact hu ▸ queue_changeRec_of_nil _ stop f hq
      · rw [hu, any_isFree_changeRec]; exact hfree
  obtain ⟨t, ht, hk, hp, hasked, -⟩ :=
    take_taken w judge s u (.ready [fields]) (.record stop) [] hh (by rw [hj, hu]; rfl) huact hfirst huends
  have hmem : Key.record stop ∈ u.queue := hu ▸ mem_changeRec _ stop f
  exact ⟨t, ht, recordTaken_of_keeps w _ stop r f .waiting s t hf hr (hu ▸ hk) hp (hasked _ hmem)⟩

/-! ## TKT.ISSUE (R22) -/

/-- The row TKT.ISSUE is the arrival of its line, judged by R22. -/
theorem exec_tktIssue (stop : Nat) (s : State) :
    exec (.tktIssue stop) s = take .TKT_ISSUE (judgeTktIssue stop) s := rfl

/-- A frozen record is one TICKETED or ISSUED (R20). -/
theorem Record.isFrozen_iff (r : Record) : r.isFrozen = true ↔ r.state = .ticketed ∨ r.state = .issued := by
  simp [Record.isFrozen]

@[simp] theorem Record.confirmed_stop (r : Record) : r.confirmed.stop = r.stop := rfl

/-- A TICKETED record confirmed is ISSUED, issued once (R22). -/
theorem Record.confirmed_of_ticketed (r : Record) (h : r.state = .ticketed) :
    r.confirmed = { r with state := .issued, issues := 1 } := by
  simp [Record.confirmed, h]

/-- An ISSUED record confirmed again has its issue count raised, up to 255 (R22). -/
theorem Record.confirmed_of_issued (r : Record) (h : r.state = .issued) :
    r.confirmed = { r with issues := min 255 (r.issues + 1) } := by
  simp [Record.confirmed, satAdd, ← h]

/-- TKT.ISSUE of a frozen record is taken with the record confirmed. -/
theorem judgeTktIssue_frozen (s : State) (stop : Nat) (r : Record) (hn : 1 ≤ stop ∧ stop ≤ 9999)
    (hr : s.recOf stop = some r) (h : r.isFrozen = true) :
    judgeTktIssue stop s = taken (s.changeRec stop Record.confirmed) stop [nat r.confirmed.issues] := by
  rw [judgeTktIssue, withRecord_found s stop r _ hn hr, if_pos h]

/-- TKT.ISSUE of a record that is not frozen is refused with STATE. -/
theorem judgeTktIssue_not_frozen (s : State) (stop : Nat) (r : Record) (hn : 1 ≤ stop ∧ stop ≤ 9999)
    (hr : s.recOf stop = some r) (h : ¬ r.isFrozen = true) : judgeTktIssue stop s = .error .STATE := by
  rw [judgeTktIssue, withRecord_found s stop r _ hn hr, if_neg h]

/-- TKT.ISSUE of a frozen record, in a settled part with room, confirms the record and changes nothing else. -/
theorem exec_tktIssue_frozen (s : State) (stop : Nat) (r : Record) (hh : s.hears = true) (hs : s.settled = true)
    (hroom : s.roomy = true) (hn : 1 ≤ stop ∧ stop ≤ 9999) (hr : s.recOf stop = some r) (h : r.isFrozen = true) :
    ∃ t, exec (.tktIssue stop) s = .next t
      ∧ recordTaken .TKT_ISSUE (.ready [[.num r.confirmed.issues]]) stop r.confirmed s t :=
  take_changeRec .TKT_ISSUE (judgeTktIssue stop) stop r Record.confirmed [nat r.confirmed.issues] s hh hs hroom
    Record.confirmed_stop hr (judgeTktIssue_frozen { s with rx := .waiting } stop r hn hr h)

end Sys2Proof.Machine

/-- Settles O27: a frozen record is confirmed, by its two states; any other is refused by its judgement. -/
theorem tktIssueCounts : Obligations.TktIssueCounts := by
  intro stop r s hh hs hroom hn hr
  refine ⟨fun h => ?_, fun h => ?_, fun ht hi => ?_⟩
  · have := exec_tktIssue_frozen s stop r hh hs hroom hn hr (r.isFrozen_iff.2 (.inl h))
    rwa [r.confirmed_of_ticketed h] at this
  · have := exec_tktIssue_frozen s stop r hh hs hroom hn hr (r.isFrozen_iff.2 (.inr h))
    rwa [r.confirmed_of_issued h] at this
  · have hfrozen : ¬ r.isFrozen = true := fun h => (r.isFrozen_iff.1 h).elim ht hi
    exact take_refused .TKT_ISSUE (judgeTktIssue stop) .STATE s hh hs
      (judgeTktIssue_not_frozen { s with rx := .waiting } stop r hn hr hfrozen)

end

