-- ==== Sys2Proof/Proofs/VolumeCap.lean ====
section
/-! PROOFS. The single-line total rises with the volume (R90), and the bitwise search for Vmax finds the largest volume within the cap (R91). -/

open Sys2Proof Sys2Proof.Machine

namespace Sys2Proof.Machine

/-! ## Rounding and the single-line total (R88, R90) -/

/-- A greater numerator is not rounded lower. -/
theorem rhu_mono {m n : Nat} (den : Nat) (h : m ≤ n) : rhu m den ≤ rhu n den :=
  Nat.div_le_div_right (Nat.add_le_add_right (Nat.mul_le_mul_left 2 h) den)

/-- The amount does not fall as the volume rises. -/
theorem amountOf_mono {v w : Nat} (price : Nat) (h : v ≤ w) : amountOf v price ≤ amountOf w price :=
  rhu_mono 1000 (Nat.mul_le_mul_right price h)

/-- The tax does not fall as the amount rises. -/
theorem taxOf_mono {a b : Nat} (bp : Nat) (h : a ≤ b) : taxOf a bp ≤ taxOf b bp :=
  rhu_mono 10000 (Nat.mul_le_mul_right bp h)

/-- The single-line total does not fall as the volume rises (R91). -/
theorem lineTotal_mono {v w : Nat} (price bp : Nat) (h : v ≤ w) : lineTotal v price bp ≤ lineTotal w price bp :=
  Nat.add_le_add (amountOf_mono price h) (taxOf_mono bp (amountOf_mono price h))

@[simp] theorem lineTotal_zero (price bp : Nat) : lineTotal 0 price bp = 0 := by
  simp [lineTotal, amountOf, taxOf, rhu]

/-! ## The search for Vmax (R91) -/

/-- A volume that R91 lets Vmax be: at most 2,000,000 cL, with its single-line total within the cap. -/
def FitsCap (price bp cap v : Nat) : Prop := v ≤ 2000000 ∧ lineTotal v price bp ≤ cap

/-- With a volume that fits, every lesser volume fits. -/
theorem FitsCap.of_le {price bp cap v w : Nat} (hw : FitsCap price bp cap w) (h : v ≤ w) : FitsCap price bp cap v :=
  ⟨Nat.le_trans h hw.1, Nat.le_trans (lineTotal_mono price bp h) hw.2⟩

theorem fitsCap_zero (price bp cap : Nat) : FitsCap price bp cap 0 := by simp [FitsCap]

/-- The search keeps a bit where the volume with that bit fits. -/
theorem vmaxFrom_succ_of_fits {price bp cap k v : Nat} (h : FitsCap price bp cap (v + 2 ^ k)) :
    vmaxFrom price bp cap (k + 1) v = vmaxFrom price bp cap k (v + 2 ^ k) := if_pos h

/-- The search leaves a bit out where the volume with that bit does not fit. -/
theorem vmaxFrom_succ_of_not_fits {price bp cap k v : Nat} (h : ¬ FitsCap price bp cap (v + 2 ^ k)) :
    vmaxFrom price bp cap (k + 1) v = vmaxFrom price bp cap k v := if_neg h

/-- From a volume that fits, the search ends at one that fits. -/
theorem vmaxFrom_fits (price bp cap k v : Nat) (hv : FitsCap price bp cap v) :
    FitsCap price bp cap (vmaxFrom price bp cap k v) := by
  induction k generalizing v with
  | zero => exact hv
  | succ k ih =>
    by_cases hbit : FitsCap price bp cap (v + 2 ^ k)
    · rw [vmaxFrom_succ_of_fits hbit]
      exact ih _ hbit
    · rw [vmaxFrom_succ_of_not_fits hbit]
      exact ih v hv

/-- The search over `k` bits from `v` passes over no volume below `v + 2 ^ k` that fits: a bit left out rules out every volume that has it. -/
theorem le_vmaxFrom (price bp cap k v w : Nat) (hw : FitsCap price bp cap w) (hlt : w < v + 2 ^ k) :
    w ≤ vmaxFrom price bp cap k v := by
  induction k generalizing v with
  | zero => exact Nat.lt_succ_iff.1 hlt
  | succ k ih =>
    by_cases hbit : FitsCap price bp cap (v + 2 ^ k)
    · rw [vmaxFrom_succ_of_fits hbit]
      exact ih _ (by omega)
    · rw [vmaxFrom_succ_of_not_fits hbit]
      have hbelow : w < v + 2 ^ k := Nat.lt_of_not_le fun hle => hbit (hw.of_le hle)
      exact ih v hbelow

/-- Vmax fits its cap. -/
theorem vmax_fits (price bp cap : Nat) : FitsCap price bp cap (vmax price bp cap) :=
  vmaxFrom_fits price bp cap 21 0 (fitsCap_zero price bp cap)

/-- No volume that fits the cap is above Vmax: the 21 bits of the search reach past 2,000,000 cL. -/
theorem le_vmax {price bp cap v : Nat} (hv : FitsCap price bp cap v) : v ≤ vmax price bp cap :=
  le_vmaxFrom price bp cap 21 0 v hv (Nat.lt_of_le_of_lt hv.1 (by decide))

end Sys2Proof.Machine

/-- Settles O13: the total is monotone, and the search for Vmax ends at a volume that fits the cap and passes none over. -/
theorem vmaxIsTheLargest : Obligations.VmaxIsTheLargest := by
  refine ⟨fun _ _ _ => rfl, fun _ _ price bp => lineTotal_mono price bp, lineTotal_zero, fun price bp cap => ?_⟩
  obtain ⟨hle, htotal⟩ := vmax_fits price bp cap
  exact ⟨hle, htotal, fun _ hv hcap => le_vmax ⟨hv, hcap⟩⟩

end

