-- ==== Sys2Proof/Proofs/RouteCommands.lean ====
section
/-! PROOFS. A command that changes a system block and queues its write, in a settled state with or without a FREE slot; and RTE.OPEN and RTE.CLOSE (R170, R171). -/

open Sys2Proof Sys2Proof.Machine

namespace Sys2Proof.Machine

/-! ## A block's write begun (R32, R33) -/

/-- The operation a block's entry begins is that entry's. -/
theorem flightIs_block (s : State) (b : Block) (again : Bool) :
    flightIs (.block b) (some (.block (s.blockImage b) again)) := by
  cases b <;> trivial

/-- The state with a block's write in flight, the queue's rest behind it, and every waiter told. -/
def State.blockBegun (s : State) (b : Block) (q : List Key) : State :=
  { ({ s with queue := q, patrolIdle := 0 } : State).mapWaiters (Waiter.begun (.block b)) with
    flight := some (.block (s.blockImage b) false) }

/-- The taking of a block's entry puts its write in flight. -/
theorem takeEntry_block (s : State) (b : Block) (q : List Key) : s.takeEntry (.block b) q = s.blockBegun b q := by
  cases b <;> rfl

/-- A working part lets the store take every entry. -/
theorem mayTake_of_active (s : State) (ha : s.isActive = true) (k : OpKind) : s.mayTake k = true := by
  cases hp : s.phase <;> simp_all [State.isActive, State.mayTake, State.mayBegin]

/-- With an operation in flight the store takes no entry. -/
@[simp] theorem storeRun_blockBegun (n : Nat) (s : State) (b : Block) (q : List Key) :
    storeRun n (s.blockBegun b q) = s.blockBegun b q := by
  cases n <;> rfl

/-- A block's entry is taken whether or not a slot is FREE: its write needs none. -/
theorem runStore_block (s : State) (b : Block) (q : List Key) (ha : s.isActive = true) (hf : s.flight = none)
    (hq : s.queue = .block b :: q) : s.runStore = s.blockBegun b q := by
  simp [State.runStore, storeRun, hf, hq, mayTake_of_active s ha, takeEntry_block]

/-- The beginning of a block's write keeps what `commit` keeps of the state before its command. -/
theorem CommitKeeps.blockBegun (s : State) (c : Option InProgress) (b : Block) (q : List Key) :
    CommitKeeps s (({ s with cmd := c } : State).blockBegun b q) where
  toStoreKeeps := by constructor <;> intros <;> rfl
  unsaved := rfl
  core l := by cases l <;> rfl

/-- Behind a command that waits for a block's write alone, with nothing else in the store, commit begins that write and delivers nothing. -/
theorem commit_block (v : State) (w : CmdWord) (p : Plan) (b : Block) (ha : v.isActive = true) (hf : v.flight = none)
    (hq : v.queue = [.block b]) (hc : v.cmd = some ⟨w, p, .on [.block b], false⟩) (he : noEndDue v) :
    commit v = v.blockBegun b [] := by
  have hcmd : (v.blockBegun b []).cmd = some ⟨w, p, ⟨[], true⟩, false⟩ := by
    simp [State.blockBegun, State.mapWaiters, hc, Waiter.begun, Waiter.on]
  have hends : noEndDue (v.blockBegun b []) := ⟨begun_any_over _ _ he.1, begun_any_over _ _ he.2⟩
  have hreply : (v.blockBegun b []).replyDue = false := by simp [State.replyDue, hcmd, Waiter.over]
  rw [commit_active v ha, runStore_block v b [] ha hf hq, deliver_noEnd (v.blockBegun b []) ha hends,
    deliverReply_none _ hreply, trySleep_busy _ (by rw [hcmd]; rfl)]

/-! ## A block changed by a command (R2, R191) -/

/-- The state with its line taken from the receiver and the three block images given. -/
def State.withBlocks (s : State) (x : Settings) (y : LoadBlock) (z : RouteBlock) : State :=
  { s with rx := .waiting, settings := x, load := y, route := z }

/-- A route changed on a line's arrival gives the route's image alone. -/
theorem modRoute_eq_withBlocks (s : State) (f : RouteBlock → RouteBlock) :
    ({ s with rx := .waiting } : State).modRoute f = s.withBlocks s.settings s.load (f s.route) := rfl

/-- A line judged good in a hearing part is the command in progress, waiting for its entries. -/
theorem arrive_taken (w : CmdWord) (judge : State → Except Code Taken) (s u : State) (p : Plan) (ks : List Key)
    (hh : s.hears = true) (hj : judge { s with rx := .waiting } = .ok ⟨u, p, ks⟩) :
    arrive w judge s = { u with cmd := some ⟨w, p, .on ks, false⟩ } := by
  obtain ⟨hactive, hmode, hbrk, hdiscard, hcmd⟩ := (hears_iff s).1 hh
  have hlink : s.linkOpen = true := by simp [State.linkOpen, hactive, hmode, hbrk]
  rw [arrive, if_pos hlink, if_neg (by simp [hdiscard]), if_neg (by simp [hcmd]), hj, State.judged]

/-- A command taken with one block's write, in a settled part: that write is asked for, and the rest is kept. -/
theorem take_block (w : CmdWord) (judge : State → Except Code Taken) (s u : State) (b : Block) (fields : List Tok)
    (hh : s.hears = true) (hj : judge { s with rx := .waiting } = blockTaken u b fields) (ha : u.isActive = true)
    (hidle : u.flight.isSome = true ∨ u.queue = []) (he : noEndDue u) :
    ∃ t, take w judge s = .next t ∧ CommitKeeps (u.enqueue (.block b)) t ∧ inProgress w (.ready [fields]) t
      ∧ asked t (.block b) := by
  obtain ⟨hactive, -⟩ := (hears_iff s).1 hh
  have hact : (u.enqueue (.block b)).isActive = true := by simpa [State.isActive] using ha
  have hends : noEndDue (u.enqueue (.block b)) := by simpa [noEndDue] using he
  cases hf : u.flight with
  | some op =>
    obtain ⟨t, ht, hkeeps, hprogress, hasked, -⟩ :=
      take_taken w judge s (u.enqueue (.block b)) (.ready [fields]) (.block b) [] hh hj hact (.inl (by simp [hf])) hends
    exact ⟨t, ht, hkeeps, hprogress, hasked _ (mem_enqueue u (.block b))⟩
  | none =>
    have hqueue : (u.enqueue (.block b)).queue = [.block b] := by
      have : u.queue = [] := by simpa [hf] using hidle
      simp [State.enqueue, this]
    obtain ⟨v, hv⟩ : ∃ v : State, v = { u.enqueue (.block b) with
      cmd := some ⟨w, .ready [fields], .on [.block b], false⟩ } := ⟨_, rfl⟩
    have hcommit : commit v = v.blockBegun b [] :=
      commit_block v w (.ready [fields]) b (by rw [hv]; exact hact) (by simp [hv, hf]) (by rw [hv]; exact hqueue)
        (by rw [hv]) (by rw [hv]; exact hends)
    refine ⟨v.blockBegun b [], ?_, hv ▸ .blockBegun _ _ b [], ?_, .inr (flightIs_block v b false)⟩
    · rw [take_eq w judge s (ne_restart_of_active s hactive), arrive_taken w judge s _ _ _ hh hj, ← hv, hcommit]
    · subst hv
      exact ⟨_, rfl, rfl, rfl⟩

/-- A state that keeps what `commit` keeps of a change of the blocks differs from the state before in the blocks alone. -/
theorem blockChanged_of_keeps (w : CmdWord) (p : Plan) (b : Block) (x : Settings) (y : LoadBlock) (z : RouteBlock)
    (s t : State) (hk : CommitKeeps ((s.withBlocks x y z).enqueue (.block b)) t) (hp : inProgress w p t)
    (ha : asked t (.block b)) :
    blockChanged w p b s t ∧ t.settings = x ∧ t.load = y ∧ t.route = z := by
  have hrecords : sameRecords s t :=
    ⟨fun n => (hk.recOf n).trans (recOf_of_slots (by simp [State.withBlocks]) n), by simp [hk.unsaved, State.withBlocks]⟩
  have hcore : ∀ l, (t.line l).core = (s.line l).core := fun l =>
    (hk.core l).trans (by simp [State.withBlocks, State.line])
  have hattention : t.attention = s.attention := by simp [hk.attention, State.withBlocks]
  have hpump : t.pump = s.pump := by simp [hk.pump, State.withBlocks]
  have hlines : sameLines s t := ⟨⟨hcore .one, by rw [hattention]⟩, ⟨hcore .two, by rw [hattention]⟩, hpump⟩
  have htruck : sameTruck s t := by
    simp [sameTruck, hk.inputs, hk.meters, hk.clock, hk.captures, hk.areaSettings, hk.areaLoad, hk.areaRoute, hk.failed,
      hk.seq, hk.patrolCursor, hk.resetCause, hk.phase, hk.mode, hk.ignitionLow, hk.sleepDue, State.withBlocks]
  refine ⟨⟨hrecords, hlines, htruck, ?_, ?_, hp, ha⟩, ?_, ?_, ?_⟩
  · simp [hk.counter, State.withBlocks]
  · simp [hk.tx, State.withBlocks]
  · simp [hk.settings, State.withBlocks]
  · simp [hk.load, State.withBlocks]
  · simp [hk.route, State.withBlocks]

/-- A command that changes block images, in a settled part: its block's write is asked for, the images are those given, and nothing else changes (R2, R191). -/
theorem take_withBlocks (w : CmdWord) (judge : State → Except Code Taken) (b : Block) (x : Settings) (y : LoadBlock)
    (z : RouteBlock) (fields : List Tok) (s : State) (hh : s.hears = true) (hs : s.settled = true)
    (hj : judge { s with rx := .waiting } = blockTaken (s.withBlocks x y z) b fields) :
    ∃ t, take w judge s = .next t ∧ blockChanged w (.ready [fields]) b s t ∧ t.settings = x ∧ t.load = y ∧ t.route = z := by
  obtain ⟨hactive, -⟩ := (hears_iff s).1 hh
  obtain ⟨hidle, -, hends, -⟩ := (settled_iff s).1 hs
  obtain ⟨t, ht, hkeeps, hprogress, hasked⟩ := take_block w judge s _ b fields hh hj hactive hidle hends
  exact ⟨t, ht, blockChanged_of_keeps w _ b x y z s t hkeeps hprogress hasked⟩

/-- A command that changes the route block, in a settled part: that block's write is asked for, and nothing but its image changes. -/
theorem take_modRoute (w : CmdWord) (judge : State → Except Code Taken) (f : RouteBlock → RouteBlock) (fields : List Tok)
    (s : State) (hh : s.hears = true) (hs : s.settled = true)
    (hj : judge { s with rx := .waiting } = blockTaken (({ s with rx := .waiting } : State).modRoute f) .route fields) :
    ∃ t, take w judge s = .next t ∧ blockChanged w (.ready [fields]) .route s t ∧ t.settings = s.settings
      ∧ t.load = s.load ∧ t.route = f s.route :=
  take_withBlocks w judge .route s.settings s.load (f s.route) fields s hh hs
    (by rw [hj, modRoute_eq_withBlocks])

/-! ## The lines a route command looks at -/

/-- Some line is bound to a record exactly where the first or the second is. -/
theorem bound_iff (s : State) :
    (s.lines.one.bound.isSome = true ∨ s.lines.two.bound.isSome = true) ↔ ∃ l, (s.line l).bound ≠ none := by
  simp only [Option.isSome_iff_ne_none]
  exact ⟨fun h => h.elim (⟨.one, ·⟩) (⟨.two, ·⟩), fun ⟨l, h⟩ => by cases l; exacts [.inl h, .inr h]⟩

/-- The resting states are IDLE, SETUP and FAULT (R171). -/
theorem LineState.resting_iff (x : LineState) : x.resting = true ↔ x = .idle ∨ x = .setup ∨ x = .fault := by
  cases x <;> decide

/-- Both lines rest exactly where every line is in IDLE, SETUP or FAULT. -/
theorem linesRest_iff (s : State) :
    (s.lines.one.st.resting = true ∧ s.lines.two.st.resting = true)
      ↔ ∀ l, (s.line l).st = .idle ∨ (s.line l).st = .setup ∨ (s.line l).st = .fault := by
  simp only [LineState.resting_iff]
  exact ⟨fun ⟨h1, h2⟩ l => by cases l; exacts [h1, h2], fun h => ⟨h .one, h .two⟩⟩

/-! ## RTE.OPEN (R170) -/

/-- The row RTE.OPEN is the arrival of its line, judged by R170. -/
theorem exec_rteOpen (n : Nat) (s : State) : exec (.rteOpen n) s = take .RTE_OPEN (judgeRteOpen n) s := rfl

/-- RTE.OPEN of a number outside 1 to 65,535 is refused with RANGE. -/
theorem judgeRteOpen_range (n : Nat) (s : State) (hn : n = 0 ∨ 65535 < n) : judgeRteOpen n s = .error .RANGE := by
  have hout : within 1 65535 n = false := by simp [within]; omega
  rw [judgeRteOpen, if_pos hout]

section
variable (n : Nat) (s : State) (hn : 1 ≤ n ∧ n ≤ 65535)
include hn

/-- RTE.OPEN of a route already open is refused with STATE. -/
theorem judgeRteOpen_open (ho : s.route.isOpen = true) : judgeRteOpen n s = .error .STATE := by
  have hin : ¬ within 1 65535 n = false := by simp [within, hn]
  rw [judgeRteOpen, if_neg hin, if_pos ho]

/-- RTE.OPEN of a closed route is refused with LINE_BUSY while a line is bound to a record. -/
theorem judgeRteOpen_bound (ho : s.route.isOpen = false) (hb : ∃ l, (s.line l).bound ≠ none) :
    judgeRteOpen n s = .error .LINE_BUSY := by
  have hin : ¬ within 1 65535 n = false := by simp [within, hn]
  rw [judgeRteOpen, if_neg hin, if_neg (by simp [ho]), if_pos ((bound_iff s).2 hb)]

/-- RTE.OPEN of a closed route with no line bound is taken, with the valid clock's time or none. -/
theorem judgeRteOpen_taken (ho : s.route.isOpen = false) (hb : ∀ l, (s.line l).bound = none) :
    judgeRteOpen n s =
      blockTaken (s.modRoute (RouteBlock.opened n (if s.clock.valid then some s.clock.now else none))) .route
        [nat n, timeOr .TIME_UNKNOWN (if s.clock.valid then some s.clock.now else none)] := by
  have hin : ¬ within 1 65535 n = false := by simp [within, hn]
  have hfree : ¬ (s.lines.one.bound.isSome = true ∨ s.lines.two.bound.isSome = true) := fun h =>
    have ⟨l, hl⟩ := (bound_iff s).1 h
    hl (hb l)
  rw [judgeRteOpen, if_neg hin, if_neg (by simp [ho]), if_neg hfree]

end

/-- The clock's time as a reply carries it: the time, or TIME_UNKNOWN while the clock is invalid (R170). -/
theorem timeOr_clock (valid : Bool) (now : DateTime) :
    timeOr .TIME_UNKNOWN (if valid then some now else none) = if valid then .time now else .kw .TIME_UNKNOWN := by
  cases valid <;> rfl

/-! ## RTE.CLOSE (R171) -/

/-- The row RTE.CLOSE is the arrival of its line, judged by R171. -/
theorem exec_rteClose (s : State) : exec .rteClose s = take .RTE_CLOSE judgeRteClose s := rfl

/-- RTE.CLOSE of a closed route is refused with STATE. -/
theorem judgeRteClose_closed (s : State) (ho : s.route.isOpen = false) : judgeRteClose s = .error .STATE := by
  rw [judgeRteClose, if_pos ho]

/-- RTE.CLOSE of an open route is refused with LINE_BUSY while a line does not rest. -/
theorem judgeRteClose_busy (s : State) (ho : s.route.isOpen = true)
    (hb : ∃ l, (s.line l).st ≠ .idle ∧ (s.line l).st ≠ .setup ∧ (s.line l).st ≠ .fault) :
    judgeRteClose s = .error .LINE_BUSY := by
  have hbusy : ¬ (s.lines.one.st.resting = true ∧ s.lines.two.st.resting = true) := fun h =>
    have ⟨l, hidle, hsetup, hfault⟩ := hb
    ((linesRest_iff s).1 h l).elim hidle (·.elim hsetup hfault)
  rw [judgeRteClose, if_neg (by simp [ho]), if_neg hbusy]

/-- RTE.CLOSE of an open route with both lines at rest is taken, and changes the route's state alone. -/
theorem judgeRteClose_taken (s : State) (ho : s.route.isOpen = true)
    (hr : ∀ l, (s.line l).st = .idle ∨ (s.line l).st = .setup ∨ (s.line l).st = .fault) :
    judgeRteClose s = blockTaken (s.modRoute (fun x => { x with isOpen := false })) .route [natOrNone s.route.number] := by
  rw [judgeRteClose, if_neg (by simp [ho]), if_pos ((linesRest_iff s).2 hr)]

end Sys2Proof.Machine

/-- Settles O44: each refusal by its judgement in the checks' order, and each command taken as a change of the route block alone. -/
theorem routeOpensAndCloses : Obligations.RouteOpensAndCloses := by
  intro n s hh hs
  refine ⟨fun hn => ?_, fun h1 h2 ho => ?_, fun h1 h2 ho => ⟨fun hb => ?_, fun hb => ?_⟩, fun ho => ?_,
    fun ho => ⟨fun hb => ?_, fun hr => ?_⟩⟩
  · exact take_refused .RTE_OPEN _ .RANGE s hh hs (judgeRteOpen_range n _ hn)
  · exact take_refused .RTE_OPEN _ .STATE s hh hs (judgeRteOpen_open n _ ⟨h1, h2⟩ ho)
  · exact take_refused .RTE_OPEN _ .LINE_BUSY s hh hs (judgeRteOpen_bound n _ ⟨h1, h2⟩ ho hb)
  · rw [exec_rteOpen, ← timeOr_clock]
    exact take_modRoute .RTE_OPEN (judgeRteOpen n) _ _ s hh hs
      (judgeRteOpen_taken n { s with rx := .waiting } ⟨h1, h2⟩ ho hb)
  · exact take_refused .RTE_CLOSE _ .STATE s hh hs (judgeRteClose_closed _ ho)
  · exact take_refused .RTE_CLOSE _ .LINE_BUSY s hh hs (judgeRteClose_busy _ ho hb)
  · rw [exec_rteClose]
    exact take_modRoute .RTE_CLOSE judgeRteClose _ [natOrNone s.route.number] s hh hs
      (judgeRteClose_taken { s with rx := .waiting } ho hr)

end

