-- ==== Sys2Proof/Proofs/SlotHomes.lean ====
section
/-! PROOFS. The slots as homes of records: what the law of R30 says, and what keeps it. -/

open Sys2Proof Sys2Proof.Machine

namespace Sys2Proof.Machine

/-! ## The law of R30 by slot numbers -/

/-- Slot `n` is the home of a record with a stop. -/
def State.isHome (s : State) (n stop : Nat) : Prop := ∃ x, s.slot n = some x ∧ x.holds stop = true

/-- A slot number from 1 on names the element of the list at the index one below it. -/
theorem slot_succ (s : State) (i : Nat) : s.slot (i + 1) = s.slots[i]? := by simp [State.slot, nth1]

/-- No slot has number 0. -/
@[simp] theorem slot_zero (s : State) : s.slot 0 = none := rfl

/-- Every slot is live, FREE or RETIRED (R30). -/
theorem countSlots_total (s : State) :
    s.countSlots Slot.isLive + s.countSlots Slot.isFree + s.countSlots Slot.isRetired = s.slots.length := by
  unfold State.countSlots
  induction s.slots with
  | nil => rfl
  | cons x xs ih =>
    simp only [List.countP_cons, List.length_cons]
    cases h : x.st <;>
      simp [Slot.isLive, Slot.isInUse, Slot.isCondemned, Slot.isFree, Slot.isRetired, h] at ih ⊢ <;> omega

/-- The stops of a list of slots differ exactly where no two of its slots are homes of one stop. -/
theorem stops_nodup_iff (xs : List Slot) :
    ((xs.filterMap Slot.record?).map (·.stop)).Nodup
      ↔ ∀ (i j : Nat) (x y : Slot) (stop : Nat), xs[i]? = some x → xs[j]? = some y → x.holds stop = true → y.holds stop = true → i = j := by
  have hpair : ((xs.filterMap Slot.record?).map (·.stop)).Nodup
      ↔ xs.Pairwise (fun x y => ∀ stop, x.holds stop = true → ¬ y.holds stop = true) := by
    rw [List.Nodup, List.pairwise_map, List.pairwise_filterMap]
    refine iff_of_eq (congrArg (fun R => List.Pairwise R xs) ?_)
    funext x y
    apply propext
    simp only [slot_holds_iff]
    constructor
    · rintro h stop ⟨r, hr, rfl⟩ ⟨q, hq, he⟩
      exact h r hr q hq he.symm
    · intro h r hr q hq he
      exact h r.stop ⟨r, hr, rfl⟩ ⟨q, hq, he.symm⟩
  rw [hpair, List.pairwise_iff_getElem]
  constructor
  · intro h i j x y stop hx hy hsx hsy
    obtain ⟨hi, rfl⟩ := List.getElem?_eq_some_iff.1 hx
    obtain ⟨hj, rfl⟩ := List.getElem?_eq_some_iff.1 hy
    rcases Nat.lt_trichotomy i j with hlt | heq | hgt
    · exact absurd hsy (h i j hi hj hlt stop hsx)
    · exact heq
    · exact absurd hsx (h j i hj hi hgt stop hsy)
  · intro h i j hi hj hlt stop hsx hsy
    exact absurd (h i j _ _ stop (List.getElem?_eq_getElem hi) (List.getElem?_eq_getElem hj) hsx hsy) (Nat.ne_of_lt hlt)

/-- The law of R30: 80 slots, and no stop with two homes. -/
theorem slotLaw_iff (s : State) :
    s.slotLaw ↔ s.slots.length = 80 ∧ ∀ n m stop, s.isHome n stop → s.isHome m stop → n = m := by
  unfold State.slotLaw
  rw [countSlots_total]
  refine ⟨fun ⟨hlen, _, hdup⟩ => ⟨hlen, ?_⟩, fun ⟨hlen, hone⟩ => ⟨hlen, hlen, ?_⟩⟩
  · rintro (_ | n) (_ | m) stop ⟨x, hx, hsx⟩ ⟨y, hy, hsy⟩
    · rfl
    · simp at hx
    · simp at hy
    · rw [slot_succ] at hx hy
      rw [(stops_nodup_iff s.slots).1 hdup n m x y stop hx hy hsx hsy]
  · refine (stops_nodup_iff s.slots).2 fun i j x y stop hx hy hsx hsy => ?_
    have := hone (i + 1) (j + 1) stop ⟨x, by rw [slot_succ, hx], hsx⟩ ⟨y, by rw [slot_succ, hy], hsy⟩
    omega

/-- The law of R30 reads the slots alone. -/
theorem slotLaw_of_slots {s t : State} (h : t.slots = s.slots) (hs : s.slotLaw) : t.slotLaw := by
  unfold State.slotLaw State.countSlots State.records at *
  rwa [h]

/-- With as many slots as before and every home a home before, in the same slot or in one named by an injection, the law is kept. -/
theorem slotLaw_of_homes {s t : State} (hlen : t.slots.length = s.slots.length)
    (hhome : ∀ n stop, t.isHome n stop → s.isHome n stop) (hs : s.slotLaw) : t.slotLaw := by
  rw [slotLaw_iff] at hs ⊢
  exact ⟨hlen.trans hs.1, fun n m stop hn hm => hs.2 n m stop (hhome n stop hn) (hhome m stop hm)⟩

/-- A slot whose change leaves it no home, or the home of a record with the stop it had, keeps the law. -/
theorem slotLaw_modSlot (s : State) (n : Nat) (f : Slot → Slot)
    (hf : ∀ x stop, s.slot n = some x → (f x).holds stop = true → x.holds stop = true) (hs : s.slotLaw) :
    (s.modSlot n f).slotLaw := by
  refine slotLaw_of_homes (length_modSlot s n f) (fun m stop ⟨y, hy, hh⟩ => ?_) hs
  rw [slot_modSlot] at hy
  by_cases hm : m = n
  · subst hm
    rw [if_pos rfl] at hy
    obtain ⟨x, hx, rfl⟩ := Option.map_eq_some_iff.1 hy
    exact ⟨x, hx, hf x stop hx hh⟩
  · rw [if_neg hm] at hy
    exact ⟨y, hy, hh⟩

/-- A record changed under its stop keeps every home. -/
theorem holds_modRecord (stop : Nat) (f : Record → Record) (hf : ∀ r, (f r).stop = r.stop) (x : Slot) (m : Nat) :
    (x.modRecord stop f).holds m = x.holds m := by
  unfold Slot.holds
  rw [record?_modRecord]
  cases x.record? with
  | none => rfl
  | some r => by_cases h : r.stop = stop <;> simp [h, hf]

/-- A record changed under its stop keeps the law of R30. -/
theorem slotLaw_modRec (s : State) (stop : Nat) (f : Record → Record) (hf : ∀ r, (f r).stop = r.stop) (hs : s.slotLaw) :
    (s.modRec stop f).slotLaw := by
  refine slotLaw_of_homes (by simp) (fun n m ⟨y, hy, hh⟩ => ?_) hs
  cases n with
  | zero => simp at hy
  | succ i =>
    rw [slot_succ, modRec_slots, List.getElem?_map] at hy
    obtain ⟨x, hx, rfl⟩ := Option.map_eq_some_iff.1 hy
    exact ⟨x, by rw [slot_succ, hx], by rwa [holds_modRecord stop f hf] at hh⟩

/-! ## Homes found by stop -/

/-- What a search for a slot finds satisfies the test, stands at its number, and is the first to do so. -/
theorem findSlot_some (p : Slot → Bool) :
    ∀ (xs : List Slot) (n m : Nat), findSlot p xs n = some m →
      ∃ i x, m = n + i ∧ xs[i]? = some x ∧ p x = true ∧ ∀ j y, j < i → xs[j]? = some y → p y = false
  | [], _, _, h => by simp [findSlot] at h
  | x :: xs, n, m, h => by
    by_cases hx : p x = true
    · refine ⟨0, x, ?_, rfl, hx, by simp⟩
      simp [findSlot, hx] at h
      omega
    · have hrec : findSlot p xs (n + 1) = some m := by simpa [findSlot, hx] using h
      obtain ⟨i, y, hm, hy, hpy, hfirst⟩ := findSlot_some p xs (n + 1) m hrec
      refine ⟨i + 1, y, by omega, by simpa using hy, hpy, fun j z hj hz => ?_⟩
      cases j with
      | zero => simp at hz; subst hz; simpa using hx
      | succ j => exact hfirst j z (by omega) (by simpa using hz)

/-- A search for a slot finds none exactly where no slot satisfies the test. -/
theorem findSlot_none (p : Slot → Bool) :
    ∀ (xs : List Slot) (n : Nat), findSlot p xs n = none ↔ ∀ x ∈ xs, p x = false
  | [], _ => by simp [findSlot]
  | x :: xs, n => by
    have ih := findSlot_none p xs (n + 1)
    by_cases hx : p x = true <;> simp [findSlot, hx, ih]

/-- The home of a stop is a slot that is its home, the first one. -/
theorem homeOf_some (s : State) (stop n : Nat) (h : s.homeOf stop = some n) :
    s.isHome n stop ∧ ∀ m, m < n → ¬ s.isHome m stop := by
  obtain ⟨i, x, rfl, hx, hp, hfirst⟩ := findSlot_some _ _ _ _ h
  refine ⟨⟨x, by rw [Nat.add_comm, slot_succ, hx], hp⟩, ?_⟩
  rintro (_ | m) hm ⟨y, hy, hh⟩
  · simp at hy
  · rw [slot_succ] at hy
    simp [hfirst m y (by omega) hy] at hh

/-- A stop that no lookup finds has no home. -/
theorem recOf_none_iff (s : State) (stop : Nat) : s.recOf stop = none ↔ ∀ n, ¬ s.isHome n stop := by
  have key : ∀ xs : List Slot, recordIn stop xs = none ↔ ∀ x ∈ xs, x.holds stop = false := by
    intro xs
    induction xs with
    | nil => simp [recordIn]
    | cons x xs ih =>
      cases h : x.record? with
      | none => simp [recordIn, h, ih, Slot.holds]
      | some r => by_cases he : r.stop = stop <;> simp [recordIn, h, he, ih, Slot.holds]
  rw [State.recOf, key]
  constructor
  · rintro h (_ | n) ⟨x, hx, hh⟩
    · simp at hx
    · rw [slot_succ] at hx
      simp [h x (List.mem_of_getElem? hx)] at hh
  · intro h x hx
    obtain ⟨i, hi⟩ := List.getElem?_of_mem hx
    cases hh : x.holds stop with
    | false => rfl
    | true => exact absurd ⟨x, by rw [slot_succ, hi], hh⟩ (h (i + 1))

/-- The record a lookup finds is the one its home slot is home of. -/
theorem record?_of_homeOf (s : State) (stop n : Nat) (r : Record) (hn : s.homeOf stop = some n)
    (hr : s.recOf stop = some r) : ∃ x, s.slot n = some x ∧ x.record? = some r ∧ r.stop = stop := by
  have key : ∀ (xs : List Slot) (k : Nat), findSlot (Slot.holds stop) xs k = some n → recordIn stop xs = some r →
      ∃ i x, n = k + i ∧ xs[i]? = some x ∧ x.record? = some r := by
    intro xs
    induction xs with
    | nil => intro k h; simp [findSlot] at h
    | cons x xs ih =>
      intro k hf hi
      by_cases hx : x.holds stop = true
      · obtain ⟨r0, h0, h1⟩ := (slot_holds_iff stop x).1 hx
        refine ⟨0, x, ?_, rfl, ?_⟩
        · simp [findSlot, hx] at hf; omega
        · rw [h0, ← hi]; simp [recordIn, h0, h1]
      · have hf' : findSlot (Slot.holds stop) xs (k + 1) = some n := by simpa [findSlot, hx] using hf
        have hi' : recordIn stop xs = some r := by
          cases h0 : x.record? with
          | none => simpa [recordIn, h0] using hi
          | some r0 =>
            have hne : r0.stop ≠ stop := fun he => hx ((slot_holds_iff stop x).2 ⟨r0, h0, he⟩)
            simpa [recordIn, h0, hne] using hi
        obtain ⟨i, y, hn, hy, hry⟩ := ih (k + 1) hf' hi'
        exact ⟨i + 1, y, by omega, by simpa using hy, hry⟩
  obtain ⟨i, x, rfl, hx, hrx⟩ := key s.slots 1 hn hr
  exact ⟨x, by rw [Nat.add_comm, slot_succ, hx], hrx, recOf_stop s stop r hr⟩

end Sys2Proof.Machine
end

