-- ==== Sys2Proof/Proofs/KeptLaws.lean ====
section
/-! PROOFS. What an operation keeps: the laws of a state, through every operation of the flow control. -/

open Sys2Proof Sys2Proof.Machine

namespace Sys2Proof.Machine

/-! ## What every operation keeps -/

/-- The queue of rows is left alone, and each law that holds before holds behind. -/
structure KeepsLaws (s t : State) : Prop where
  pending : t.pending = s.pending
  slot : s.slotLaw → t.slotLaw
  queue : s.queueLaw → t.queueLaw
  valve : s.valveLaw → t.valveLaw
  antic : s.anticLaw → t.anticLaw
  count : s.countLaw → t.countLaw

theorem KeepsLaws.refl (s : State) : KeepsLaws s s := ⟨rfl, id, id, id, id, id⟩

theorem KeepsLaws.trans {a b c : State} (h : KeepsLaws a b) (k : KeepsLaws b c) : KeepsLaws a c :=
  ⟨k.pending.trans h.pending, k.slot ∘ h.slot, k.queue ∘ h.queue, k.valve ∘ h.valve, k.antic ∘ h.antic, k.count ∘ h.count⟩

/-- An operation within a phase: the laws are kept, and the phase stays. -/
structure Lawful (s t : State) : Prop extends KeepsLaws s t where
  phase : t.phase = s.phase

theorem Lawful.refl (s : State) : Lawful s s := ⟨.refl s, rfl⟩

theorem Lawful.trans {a b c : State} (h : Lawful a b) (k : Lawful b c) : Lawful a c :=
  ⟨h.toKeepsLaws.trans k.toKeepsLaws, k.phase.trans h.phase⟩

/-- The laws read the slots, the queue, the lines, the meters, the settings with their area, and the operation in flight. -/
theorem KeepsLaws.of_eq {s t : State} (hpending : t.pending = s.pending) (hslots : t.slots = s.slots)
    (hqueue : t.queue = s.queue) (hlines : t.lines = s.lines) (hmeters : t.meters = s.meters)
    (hsettings : t.settings = s.settings) (harea : t.areaSettings = s.areaSettings) (hflight : t.flight = s.flight) :
    KeepsLaws s t where
  pending := hpending
  slot := slotLaw_of_slots hslots
  queue h := by unfold State.queueLaw at *; rwa [hqueue]
  valve h := by unfold State.valveLaw at *; rwa [hlines]
  antic h := by unfold State.anticLaw at *; rwa [hlines, hsettings, harea, hflight]
  count h := by unfold State.countLaw at *; rwa [hmeters]

/-- A change of none of the fields that the laws read, nor of the phase. -/
theorem Lawful.of_eq {s t : State} (hphase : t.phase = s.phase) (hpending : t.pending = s.pending) (hslots : t.slots = s.slots)
    (hqueue : t.queue = s.queue) (hlines : t.lines = s.lines) (hmeters : t.meters = s.meters)
    (hsettings : t.settings = s.settings) (harea : t.areaSettings = s.areaSettings) (hflight : t.flight = s.flight) :
    Lawful s t :=
  ⟨.of_eq hpending hslots hqueue hlines hmeters hsettings harea hflight, hphase⟩

/-! ### Named updates -/

/-- Both lines obey R96 exactly where each does. -/
theorem valveLaw_iff (s : State) : s.valveLaw ↔ ∀ l, (s.line l).valveLaw :=
  ⟨fun h l => by cases l; exacts [h.1, h.2], fun h => ⟨h .one, h .two⟩⟩

/-- A line context changed: R96 and the bound of its anticipation are the change's to keep. -/
theorem Lawful.modLine (s : State) (l : Line) (f : LineCtx → LineCtx)
    (hv : (s.line l).valveLaw → (f (s.line l)).valveLaw) (ha : s.anticLaw → (f (s.line l)).antic ≤ 2000) :
    Lawful s (s.modLine l f) where
  phase := rfl
  pending := rfl
  slot := slotLaw_of_slots rfl
  queue h := h
  valve h := by
    rw [valveLaw_iff] at *
    intro k
    by_cases hk : k = l
    · subst hk; rw [line_modLine_same]; exact hv (h k)
    · rw [line_modLine_of_ne s f hk]; exact h k
  antic h := by
    obtain ⟨h1, h2, h3⟩ := h
    cases l
    · exact ⟨ha ⟨h1, h2, h3⟩, h2, h3⟩
    · exact ⟨h1, ha ⟨h1, h2, h3⟩, h3⟩
  count h := h

/-- The anticipation of a line is one of those the bound holds for. -/
theorem antic_line_le {s : State} (h : s.anticLaw) (l : Line) : (s.line l).antic ≤ 2000 := by
  cases l; exacts [h.1, h.2.1]

/-- The anticipation of a line in the settings is one of those the bound holds for. -/
theorem antic_items_le {s : State} (h : s.anticLaw) (l : Line) : (s.items l).antic ≤ 2000 := by
  obtain ⟨-, -, hs, -⟩ := h
  cases l; exacts [hs.1, hs.2]

/-- A line context changed by a function that keeps R96 and the anticipation. -/
theorem Lawful.modLine' (s : State) (l : Line) (f : LineCtx → LineCtx) (hv : (s.line l).valveLaw → (f (s.line l)).valveLaw)
    (ha : (f (s.line l)).antic = (s.line l).antic) : Lawful s (s.modLine l f) :=
  .modLine s l f hv fun h => ha ▸ antic_line_le h l

/-- Both meter lines' counts stand in their ranges exactly where each one's do. -/
theorem countLaw_iff (s : State) : s.countLaw ↔ ∀ l, (s.meter l).countLaw :=
  ⟨fun h l => by cases l; exacts [h.1, h.2], fun h => ⟨h .one, h .two⟩⟩

/-- A meter line changed by a function that keeps its counts in range. -/
theorem Lawful.modMeter (s : State) (l : Line) (f : Meter → Meter) (hf : (s.meter l).countLaw → (f (s.meter l)).countLaw) :
    Lawful s (s.modMeter l f) where
  phase := rfl
  pending := rfl
  slot := slotLaw_of_slots rfl
  queue h := h
  valve h := h
  antic h := h
  count h := by
    rw [countLaw_iff] at *
    intro k
    by_cases hk : k = l
    · subst hk; rw [meter_modMeter_same]; exact hf (h k)
    · rw [meter_modMeter_of_ne s f hk]; exact h k

theorem Lawful.modSettings (s : State) (f : Settings → Settings) (hf : s.anticLaw → (f s.settings).anticLaw) :
    Lawful s (s.modSettings f) where
  phase := rfl
  pending := rfl
  slot := slotLaw_of_slots rfl
  queue h := h
  valve h := h
  antic h := by
    have hsettings := hf h
    obtain ⟨h1, h2, -, h4⟩ := h
    exact ⟨h1, h2, hsettings, h4⟩
  count h := h

theorem Lawful.modLoad (s : State) (f : LoadBlock → LoadBlock) : Lawful s (s.modLoad f) := .of_eq rfl rfl rfl rfl rfl rfl rfl rfl rfl

theorem Lawful.modRoute (s : State) (f : RouteBlock → RouteBlock) : Lawful s (s.modRoute f) := .of_eq rfl rfl rfl rfl rfl rfl rfl rfl rfl

theorem Lawful.setAttention (s : State) (l : Line) : Lawful s (s.setAttention l) := .of_eq rfl rfl rfl rfl rfl rfl rfl rfl rfl

theorem Lawful.timeRow (s : State) (k : TimeRow) : Lawful s (s.timeRow k) := .of_eq rfl rfl rfl rfl rfl rfl rfl rfl rfl

theorem Lawful.ready (s : State) (xs : List ReplyLine) : Lawful s (s.ready xs) := .of_eq rfl rfl rfl rfl rfl rfl rfl rfl rfl

theorem Lawful.drew (s : State) (b : Bool) : Lawful s (s.drew b) := by cases b <;> exact .of_eq rfl rfl rfl rfl rfl rfl rfl rfl rfl

/-- A change of the slots alone that keeps the law of R30. -/
theorem Lawful.of_slots (s : State) (xs : List Slot) (h : s.slotLaw → ({ s with slots := xs } : State).slotLaw) :
    Lawful s { s with slots := xs } :=
  ⟨⟨rfl, h, id, id, id, id⟩, rfl⟩

theorem Lawful.modSlot (s : State) (n : Nat) (f : Slot → Slot)
    (hf : ∀ x stop, s.slot n = some x → (f x).holds stop = true → x.holds stop = true) : Lawful s (s.modSlot n f) :=
  .of_slots s _ (slotLaw_modSlot s n f hf)

theorem Lawful.modRec (s : State) (stop : Nat) (f : Record → Record) (hf : ∀ r, (f r).stop = r.stop) :
    Lawful s (s.modRec stop f) :=
  .of_slots s _ (slotLaw_modRec s stop f hf)

/-- A change of the queue alone that keeps every entry single. -/
theorem Lawful.of_queue (s : State) (q : List Key) (h : s.queueLaw → q.Nodup) : Lawful s { s with queue := q } :=
  ⟨⟨rfl, slotLaw_of_slots rfl, h, id, id, id⟩, rfl⟩

theorem Lawful.enqueue (s : State) (k : Key) : Lawful s (s.enqueue k) where
  phase := by simp
  pending := by simp
  slot := slotLaw_of_slots (by simp)
  queue := nodup_enqueue s k
  valve h := by simpa [State.valveLaw] using h
  antic h := by simpa [State.anticLaw] using h
  count h := by simpa [State.countLaw] using h

theorem Lawful.requeue (s : State) (k : Key) : Lawful s (s.requeue k) := .of_queue s _ (nodup_requeue s k)

theorem Lawful.changeRec (s : State) (stop : Nat) (f : Record → Record) (hf : ∀ r, (f r).stop = r.stop) :
    Lawful s (s.changeRec stop f) :=
  (Lawful.modRec s stop f hf).trans (.enqueue _ _)

theorem Lawful.mapWaiters (s : State) (f : Waiter → Waiter) : Lawful s (s.mapWaiters f) :=
  ⟨⟨rfl, slotLaw_of_slots rfl, id, id, id, id⟩, rfl⟩

/-- Another operation in flight: settings it carries obey the bound. -/
theorem Lawful.of_flight (s : State) (f : Option Flight) (h : s.anticLaw → flightAntic f) :
    Lawful s { s with flight := f } where
  phase := rfl
  pending := rfl
  slot := slotLaw_of_slots rfl
  queue := id
  valve := id
  antic h' := ⟨h'.1, h'.2.1, h'.2.2.1, h'.2.2.2.1, h h'⟩
  count := id

/-! ### Line contexts under R96 -/

/-- With LOW's command closed and HIGH's closed, R96 holds. -/
theorem valveLaw_closed {c : LineCtx} (hl : c.cmdLow = false) (hh : c.cmdHigh = false) : c.valveLaw := by
  simp [LineCtx.valveLaw, hl, hh]

/-- R96 reads the state and the two commands. -/
theorem valveLaw_of_eq {c d : LineCtx} (hst : d.st = c.st) (hl : d.cmdLow = c.cmdLow) (hh : d.cmdHigh = c.cmdHigh)
    (h : c.valveLaw) : d.valveLaw := by
  unfold LineCtx.valveLaw at *
  rwa [hst, hl, hh]

/-- Outside FLOWING and STOPPING both commands are closed. -/
theorem valveLaw.closed {c : LineCtx} (h : c.valveLaw) (hf : c.st ≠ .flowing) (hs : c.st ≠ .stopping) :
    c.cmdLow = false ∧ c.cmdHigh = false := by
  constructor
  · cases hc : c.cmdLow with
    | false => rfl
    | true => exact absurd (h.1 hc) (by simp [hf, hs])
  · cases hc : c.cmdHigh with
    | false => rfl
    | true => exact absurd (h.2 hc) hf

theorem valveLaw_stopped (x : RunSettings) (i : StopIntent) (live : Nat) (c : LineCtx) (_ : c.valveLaw) :
    (LineCtx.stopped x i live c).valveLaw := by
  unfold LineCtx.stopped
  split
  · exact ⟨fun _ => .inr rfl, fun h => by simp at h⟩
  · exact valveLaw_closed rfl rfl

@[simp] theorem antic_stopped (x : RunSettings) (i : StopIntent) (live : Nat) (c : LineCtx) :
    (LineCtx.stopped x i live c).antic = c.antic := by
  unfold LineCtx.stopped; split <;> rfl

theorem valveLaw_cutNow (x : CutCause) (c : LineCtx) (h : c.valveLaw) : (LineCtx.cutNow x c).valveLaw := by
  unfold LineCtx.cutNow
  split
  · exact valveLaw_closed rfl rfl
  · exact valveLaw_closed rfl rfl
  · exact h

@[simp] theorem antic_cutNow (x : CutCause) (c : LineCtx) : (LineCtx.cutNow x c).antic = c.antic := by
  unfold LineCtx.cutNow; split <;> rfl

theorem valveLaw_cutOrRecord (x : CutCause) (c : LineCtx) (h : c.valveLaw) : (LineCtx.cutOrRecord x c).valveLaw := by
  unfold LineCtx.cutOrRecord
  split
  · exact valveLaw_closed rfl rfl
  · exact valveLaw_closed rfl rfl
  · exact valveLaw_of_eq rfl rfl rfl h
  · exact h

@[simp] theorem antic_cutOrRecord (x : CutCause) (c : LineCtx) : (LineCtx.cutOrRecord x c).antic = c.antic := by
  unfold LineCtx.cutOrRecord; split <;> rfl

theorem valveLaw_decideHigh (x : RunSettings) (live : Nat) (rem : Limit) (c : LineCtx) (hc : c.st = .flowing) (h : c.valveLaw) :
    (LineCtx.decideHigh x live rem c).valveLaw := by
  unfold LineCtx.decideHigh
  split
  · exact ⟨h.1, fun h => by simp at h⟩
  · split
    · exact ⟨h.1, fun _ => hc⟩
    · exact h

@[simp] theorem antic_decideHigh (x : RunSettings) (live : Nat) (rem : Limit) (c : LineCtx) :
    (LineCtx.decideHigh x live rem c).antic = c.antic := by
  unfold LineCtx.decideHigh; split
  · rfl
  · split <;> rfl

/-! ### The delivery controller -/

theorem Lawful.convert (s : State) (l : Line) : Lawful s (s.convert l) := by
  unfold State.convert
  refine Lawful.trans ?_ (.drew _ _)
  have hmeter : Lawful s (s.modMeter l (fun m => m.handedOver ((s.line l).kind != some .order))) := by
    refine .modMeter _ _ _ fun ⟨h1, h2, h3, h4, h5, h6, h7⟩ => ?_
    refine ⟨h1, h2, Nat.zero_le _, ?_, Nat.min_le_left _ _, Nat.min_le_left _ _, h7⟩
    unfold Meter.handedOver
    dsimp only
    split
    · exact Nat.min_le_left _ _
    · exact h4
  have hline := hmeter.trans (.modLine' _ l (s.batchCtx l) (valveLaw_of_eq rfl rfl rfl) rfl)
  dsimp only
  split
  · exact hline.trans (.modRec _ _ _ fun _ => rfl)
  · exact hline

theorem Lawful.joinPump (s : State) (l : Line) (c : Nat) : Lawful s (s.joinPump l c) := by
  unfold State.joinPump; split <;> exact .of_eq rfl rfl rfl rfl rfl rfl rfl rfl rfl

theorem Lawful.leavePump (s : State) (l : Line) : Lawful s (s.leavePump l) := by
  unfold State.leavePump
  split
  · exact .refl s
  · split <;> exact .of_eq rfl rfl rfl rfl rfl rfl rfl rfl rfl

/-- The counts that a batch emptied leaves stand in range. -/
theorem countLaw_emptied {m : Meter} (h : m.countLaw) (p : Period) (rate band : Nat) :
    ({ m with batchFwd := 0, batchRev := 0, batchGated := 0, period := p, rate := rate, band := band } : Meter).countLaw := by
  obtain ⟨h1, h2, -, h4⟩ := h
  exact ⟨h1, h2, Nat.zero_le _, h4⟩

/-- A meter line with its phase-error and creep counts at 0 stands in range. -/
theorem countLaw_cleared {m : Meter} (h : m.countLaw) : m.cleared.countLaw := by
  obtain ⟨-, -, h3⟩ := h
  exact ⟨Nat.zero_le _, Nat.zero_le _, h3⟩

theorem Lawful.enterFlowing (s : State) (l : Line) (base : Nat) : Lawful s (s.enterFlowing l base) := by
  unfold State.enterFlowing
  refine ((Lawful.modMeter s l _ fun h => countLaw_emptied h _ _ _).trans (.modLine' _ l _ (fun _ => ?_) rfl)).trans
    (.of_eq rfl rfl rfl rfl rfl rfl rfl rfl rfl)
  exact ⟨fun _ => .inl rfl, fun h => by simp [LineCtx.toFlowing] at h⟩

theorem Lawful.beginRun (s : State) (l : Line) (k : RunKind) : Lawful s (s.beginRun l k) := by
  refine (Lawful.modMeter s l _ fun h => ?_).trans (.modLine' _ l _ (valveLaw_of_eq rfl rfl rfl) rfl)
  obtain ⟨-, -, h3, h4, -, -, h7⟩ := h
  refine ⟨Nat.zero_le _, Nat.zero_le _, h3, ?_, Nat.zero_le _, Nat.zero_le _, h7⟩
  unfold Meter.forRun
  dsimp only
  split
  · exact Nat.zero_le _
  · exact h4

theorem Lawful.checkpoint (s : State) (l : Line) : Lawful s (s.checkpoint l) := by
  unfold State.checkpoint
  split
  · exact .changeRec _ _ _ fun _ => rfl
  · exact .refl s

theorem Lawful.enterPaused (s : State) (l : Line) (cause : PauseCause) : Lawful s (s.enterPaused l cause) :=
  ((Lawful.modLine' s l _ (fun _ => valveLaw_closed rfl rfl) rfl).trans (.checkpoint _ l)).trans (.setAttention _ l)

theorem Lawful.beginStop (s : State) (l : Line) (i : StopIntent) : Lawful s (s.beginStop l i) :=
  .modLine' s l _ (valveLaw_stopped _ _ _ _) (antic_stopped _ _ _ _)

theorem Lawful.decideHigh (s : State) (l : Line) (h : (s.line l).st = .flowing) : Lawful s (s.decideHigh l) :=
  .modLine' s l _ (valveLaw_decideHigh _ _ _ _ h) (antic_decideHigh _ _ _ _)

theorem Lawful.stageDecisions (s : State) (l : Line) (h : (s.line l).st = .flowing) : Lawful s (s.stageDecisions l) := by
  unfold State.stageDecisions
  split
  · exact .beginStop s l _
  · exact .decideHigh s l h

theorem Lawful.endDrop (s : State) (l : Line) (cause : EndCause) : Lawful s (s.endDrop l cause) := by
  have hline : Lawful s (s.modLine l (fun c => { c with limit := none, slowBase := 0, stopNet := none })) :=
    .modLine' s l _ (valveLaw_of_eq rfl rfl rfl) rfl
  unfold State.endDrop
  dsimp only
  split
  · exact hline.trans (.modRec _ _ _ fun _ => rfl)
  · exact hline

theorem Lawful.toRest (s : State) (l : Line) (st : LineState) : Lawful s (s.toRest l st) :=
  (Lawful.modLine' s l _ (fun _ => valveLaw_closed rfl rfl) rfl).trans (.leavePump _ l)

theorem Lawful.restAfterRun (s : State) (l : Line) : Lawful s (s.restAfterRun l) := by
  refine (Lawful.toRest s l _).trans (.modMeter _ l _ fun h => ?_)
  split
  · exact h
  · exact countLaw_cleared h

theorem Lawful.disarm (s : State) (l : Line) (st : LineState) : Lawful s (s.disarm l st) := by
  unfold State.disarm
  split
  · exact (Lawful.changeRec s _ Record.unbound fun _ => rfl).trans (.toRest _ l st)
  · exact .toRest s l st

theorem Lawful.closeIntoTicket (s : State) (l : Line) (stop : Nat) (t : Ticket) : Lawful s (s.closeIntoTicket l stop t) := by
  unfold State.closeIntoTicket
  have h0 : Lawful s { s with counter := t.number } := .of_eq rfl rfl rfl rfl rfl rfl rfl rfl rfl
  have h1 := (h0.trans (.changeRec _ stop (Record.ticketed t) fun _ => rfl)).trans
    (.modLine' _ l (fun c => { c with reserved := false }) (valveLaw_of_eq rfl rfl rfl) rfl)
  refine Lawful.trans ?_ (.drew _ _)
  have h2 : Lawful s (if s.load.lastApplied < t.number then
      (((({ s with counter := t.number } : State).changeRec stop (Record.ticketed t)).modLine l
        (fun c => { c with reserved := false })).modLoad (fun x => x.apply s.fresh t)).requeue (.block .load)
      else (({ s with counter := t.number } : State).changeRec stop (Record.ticketed t)).modLine l
        (fun c => { c with reserved := false })) := by
    split
    · exact h1.trans ((Lawful.modLoad _ _).trans (.requeue _ _))
    · exact h1
  split
  · exact h2.trans ((Lawful.modRoute _ _).trans (.requeue _ _))
  · exact h2

theorem Lawful.deductOrder (s : State) (l : Line) (stop : Nat) : Lawful s (s.deductOrder l stop) := by
  unfold State.deductOrder
  split
  · exact .refl s
  · exact (Lawful.modRec s _ _ (by exact fun _ => rfl)).trans (.drew _ _)

theorem Lawful.deductRun (s : State) (l : Line) : Lawful s (s.deductRun l) := by
  unfold State.deductRun
  split
  · exact .refl s
  · exact (Lawful.modLine' s l _ (valveLaw_of_eq rfl rfl rfl) rfl).trans (.drew _ _)

theorem Lawful.endOrder (s : State) (l : Line) (stop : Nat) (cause : EndCause) : Lawful s (s.endOrder l stop cause).st := by
  unfold State.endOrder
  have h := Lawful.deductOrder s l stop
  dsimp only
  split
  · exact h.trans (.restAfterRun _ l)
  · split
    · exact (h.trans (.changeRec _ _ Record.returned fun _ => rfl)).trans (.restAfterRun _ l)
    · exact (h.trans (.closeIntoTicket _ l stop _)).trans (.restAfterRun _ l)

theorem Lawful.bookPrime (s : State) (comp product net : Nat) : Lawful s (s.bookPrime comp product net) := by
  unfold State.bookPrime
  split
  · exact .refl s
  · exact (Lawful.modLoad s _).trans (.modRoute _ _)

theorem Lawful.endPrime (s : State) (l : Line) : Lawful s (s.endPrime l).st := by
  unfold State.endPrime
  have h := Lawful.deductRun s l
  dsimp only
  split
  · exact h.trans (.restAfterRun _ l)
  · next comp product _ =>
    have h2 := h.trans (.bookPrime _ comp product (floorCl (((s.deductRun l).line l).runNet.getD 0)))
    have h3 : Lawful s (if (s.deductRun l).hoseOf l ≤ floorCl (((s.deductRun l).line l).runNet.getD 0) then
        ((s.deductRun l).bookPrime comp product (floorCl (((s.deductRun l).line l).runNet.getD 0))).modLoad
          (fun x => { x with hoses := x.hoses.set l (.product product) })
        else (s.deductRun l).bookPrime comp product (floorCl (((s.deductRun l).line l).runNet.getD 0))) := by
      split
      · exact h2.trans (.modLoad _ _)
      · exact h2
    split
    · exact (h3.trans (.drew _ _)).trans (.restAfterRun _ l)
    · exact (((h3.trans (.enqueue _ _)).trans (.enqueue _ _)).trans (.drew _ _)).trans (.restAfterRun _ l)

theorem Lawful.endProve (s : State) (l : Line) : Lawful s (s.endProve l).st := by
  unfold State.endProve
  have h := (Lawful.deductRun s l).trans
    (.modLine' _ l (fun c => { c with prove := some ((s.deductRun l).proveResult l) }) (valveLaw_of_eq rfl rfl rfl) rfl)
  dsimp only
  split
  · exact h.trans (.restAfterRun _ l)
  · exact ((h.trans (.modLoad _ _)).trans (.enqueue _ _)).trans ((Lawful.drew _ _).trans (.restAfterRun _ l))

theorem Lawful.endRun (s : State) (l : Line) (cause : EndCause) : Lawful s (s.endRun l cause).st := by
  unfold State.endRun
  split
  · exact .endPrime s l
  · exact .endProve s l
  · exact .endOrder s l _ cause
  · exact .restAfterRun s l

theorem Lawful.closeRun (s : State) (l : Line) (cause : EndCause) : Lawful s (s.closeRun l cause).st :=
  (Lawful.endDrop s l cause).trans (.endRun _ l cause)

theorem Lawful.report (e : RunEnd) (l : Line) (always : Bool) : Lawful e.st (e.report l always) := by
  unfold RunEnd.report
  have h : Lawful e.st (if e.st.closeAwaits l then
      { e.st with cmd := e.st.cmd.map (fun c => { c with plan := .ready [e.fields], waits := .on e.keys }) } else e.st) := by
    split
    · exact .of_eq rfl rfl rfl rfl rfl rfl rfl rfl rfl
    · exact .refl _
  dsimp only
  split
  · exact h.trans (.modLine' _ l _ (valveLaw_of_eq rfl rfl rfl) rfl)
  · exact h

theorem Lawful.byCommand (e : RunEnd) (l : Line) : Lawful e.st (e.byCommand l) := by
  unfold RunEnd.byCommand
  split
  · exact .modLine' _ l _ (valveLaw_of_eq rfl rfl rfl) rfl
  · exact .refl _

/-- A learned anticipation is at most 2000 cL (R107). -/
theorem learned_le (old : Nat) (overrun : Int) : learned old overrun ≤ 2000 := by
  unfold learned clamp; split
  · simp
  · split <;> omega

/-- A line's anticipation stored in the settings keeps their bound. -/
theorem anticLaw_modify {x : Settings} (hx : x.anticLaw) (l : Line) (f : LineItems → LineItems)
    (hf : (f (x.lines.get l)).antic ≤ 2000) : ({ x with lines := x.lines.modify l f } : Settings).anticLaw := by
  obtain ⟨h1, h2⟩ := hx
  cases l
  · exact ⟨hf, h2⟩
  · exact ⟨h1, hf⟩

theorem Lawful.learn (s : State) (l : Line) : Lawful s (s.learn l) := by
  unfold State.learn
  split
  · split
    · exact .refl s
    · refine ((Lawful.modLine s l _ (valveLaw_of_eq rfl rfl rfl) fun _ => learned_le _ _).trans
        (.modSettings _ _ fun h => ?_)).trans (.enqueue _ _)
      obtain ⟨-, -, hs, -⟩ := h
      exact anticLaw_modify hs l _ (learned_le _ _)
  · exact .refl s

theorem Lawful.settleClose (s : State) (l : Line) (cause : EndCause) (dropEnds : Bool) :
    Lawful s (s.settleClose l cause dropEnds) := by
  unfold State.settleClose
  have h : Lawful s (if dropEnds then s.endDrop l cause else s) := by
    split
    · exact .endDrop s l cause
    · exact .refl s
  dsimp only
  split
  · exact (h.trans (.modLine' _ l _ (valveLaw_of_eq rfl rfl rfl) rfl)).trans (.enterPaused _ l _)
  · exact (h.trans (.closeRun _ l cause)).trans (.report _ l _)

theorem Lawful.settleDropEnd (s : State) (l : Line) (cause : EndCause) (cut : Option CutCause) :
    Lawful s (s.settleDropEnd l cause cut) :=
  (Lawful.endDrop s l cause).trans (.enterPaused _ l _)

theorem Lawful.settleOutcome (s : State) (l : Line) (intent : Option StopIntent) (cut : Option CutCause) :
    Lawful s (s.settleOutcome l intent cut) := by
  unfold State.settleOutcome
  split
  · exact .settleClose s l _ _
  · split
    · exact .settleClose s l _ _
    · exact .settleDropEnd s l _ _
  · split
    · exact .settleClose s l _ _
    · exact .settleDropEnd s l _ _
  all_goals exact .enterPaused s l _

theorem Lawful.settleEnd (s : State) (l : Line) : Lawful s (s.settleEnd l) := by
  unfold State.settleEnd
  have h : Lawful s (if s.excess l then (s.convert l).modLine l (LineCtx.cutOrRecord .reverse) else s.convert l) := by
    split
    · exact (Lawful.convert s l).trans (.modLine' _ l _ (valveLaw_cutOrRecord _ _) (antic_cutOrRecord _ _))
    · exact .convert s l
  exact (((h.trans (.learn _ l)).trans (.modLine' _ l _ (valveLaw_of_eq rfl rfl rfl) rfl)).trans
    (.modMeter _ l _ fun h => countLaw_emptied h _ _ _)).trans (.settleOutcome _ l _ _)

theorem Lawful.faultLatched (s : State) (l : Line) (pulser : Bool) : Lawful s (s.faultLatched l pulser) := by
  unfold State.faultLatched
  have hcut : Lawful s (if pulser then s.modLine l (LineCtx.cutOrRecord .pulser) else s) := by
    split
    · exact .modLine' _ l _ (valveLaw_cutOrRecord _ _) (antic_cutOrRecord _ _)
    · exact .refl s
  split
  · exact (Lawful.toRest s l .fault).trans (.setAttention _ l)
  · exact (Lawful.disarm s l .fault).trans (.setAttention _ l)
  · exact hcut
  · exact hcut
  · exact hcut
  · split
    · exact .modLine' _ l _ (valveLaw_of_eq rfl rfl rfl) rfl
    · exact .refl s
  · exact .refl s

theorem Lawful.lineUnsaved (s : State) (l : Line) : Lawful s (s.lineUnsaved l) := by
  unfold State.lineUnsaved
  have hintent : Lawful s (if (s.line l).intent = some .pause ∨ (s.line l).intent = some .noFlow then
      s.modLine l (fun c => { c with intent := some .store }) else s) := by
    split
    · exact .modLine' _ l _ (valveLaw_of_eq rfl rfl rfl) rfl
    · exact .refl s
  split
  · exact .beginStop s l _
  · exact hintent
  · exact hintent
  · exact .modLine' _ l _ (valveLaw_of_eq rfl rfl rfl) rfl
  · exact .refl s

theorem Lawful.lineSaved (s : State) (l : Line) : Lawful s (s.lineSaved l) := by
  unfold State.lineSaved
  split
  · split
    · exact (Lawful.closeRun s l _).trans (.report _ l _)
    · split
      · exact (Lawful.modLine' s l _ (valveLaw_of_eq rfl rfl rfl) rfl).trans (.setAttention _ l)
      · exact .refl s
  · exact .refl s

theorem Lawful.tellBound (s : State) (stop : Nat) (f : State → Line → State) (hf : ∀ u l, Lawful u (f u l)) :
    Lawful s (s.tellBound stop f) := by
  unfold State.tellBound
  split
  · split
    · exact hf s .one
    · split
      · exact hf s .two
      · exact .refl s
  · exact .refl s

end Sys2Proof.Machine
end

