-- ==== Sys2Proof/Proofs/StoreLaws.lean ====
section
/-! PROOFS. The laws of a state through every operation of the record store. -/

open Sys2Proof Sys2Proof.Machine

namespace Sys2Proof.Machine

/-! ### The record store -/

/-- A slot that is no home. -/
theorem not_holds_of_record? {x : Slot} (h : x.record? = none) (stop : Nat) : ¬ x.holds stop = true := by
  simp [Slot.holds, h]

@[simp] theorem record?_retire (x : Slot) : x.retire.record? = none := rfl

@[simp] theorem record?_writeHeader (c : HeaderCond) (x : Slot) : (x.writeHeader c).record? = x.record? := rfl

@[simp] theorem record?_release (draw : Nat) (x : Slot) : (x.release draw).record? = none := by
  unfold Slot.release
  split
  · split <;> rfl
  · next h => simp [Slot.record?, h]
  · rfl

@[simp] theorem record?_receive (stop seq draw : Nat) (image current : Record) (x : Slot) :
    (x.receive stop seq draw image current).record? = some current := rfl

/-- A slot is the home of the record it holds, and of no other. -/
theorem holds_of_record? {x : Slot} {r : Record} (h : x.record? = some r) (stop : Nat) :
    x.holds stop = true ↔ r.stop = stop := by
  simp [Slot.holds, h]

/-- A change that makes the slot no home keeps the laws. -/
theorem Lawful.clearSlot (s : State) (n : Nat) (f : Slot → Slot) (hf : ∀ x, (f x).record? = none) : Lawful s (s.modSlot n f) :=
  .modSlot s n f fun x stop _ h => absurd h (not_holds_of_record? (hf x) stop)

/-- A change of the home of a record that leaves it the home of that record. -/
theorem Lawful.rehome (s : State) (stop n : Nat) (r : Record) (f : Slot → Slot) (hn : s.homeOf stop = some n)
    (hr : s.recOf stop = some r) (hf : ∀ x, (f x).record? = some r) : Lawful s (s.modSlot n f) := by
  refine .modSlot s n f fun x m hx h => ?_
  obtain ⟨y, hy, hyr, -⟩ := record?_of_homeOf s stop n r hn hr
  obtain rfl : x = y := Option.some.inj (hx.symm.trans hy)
  exact (holds_of_record? hyr m).2 ((holds_of_record? (hf x) m).1 h)

/-- A record moved from its home to another slot keeps the law of R30. -/
theorem slotLaw_moved {s t : State} {home target stop : Nat} (hlen : t.slots.length = s.slots.length)
    (hhome : s.isHome home stop)
    (h : ∀ n a, t.isHome n a → (n ≠ home ∧ s.isHome n a) ∨ (n = target ∧ a = stop)) (hs : s.slotLaw) : t.slotLaw := by
  rw [slotLaw_iff] at hs ⊢
  refine ⟨hlen.trans hs.1, fun n m a hn hm => ?_⟩
  rcases h n a hn with ⟨hnh, hn⟩ | ⟨hnt, hna⟩ <;> rcases h m a hm with ⟨hmh, hm⟩ | ⟨hmt, hma⟩
  · exact hs.2 n m a hn hm
  · exact absurd (hs.2 n home a hn (hma ▸ hhome)) hnh
  · exact absurd (hs.2 m home a hm (hna ▸ hhome)) hmh
  · exact hnt.trans hmt.symm

/-- A record given a new home in a slot, its old home left without one: the laws are kept. -/
theorem Lawful.moveHome (s : State) (stop home target : Nat) (r : Record) (f g h : Slot → Slot) (hn : s.homeOf stop = some home)
    (hr : s.recOf stop = some r) (hf : ∀ x, (f x).record? = some r) (hg : ∀ x, (g x).record? = x.record?)
    (hh : ∀ x, (h x).record? = none) : Lawful s (((s.modSlot target f).modSlot target g).modSlot home h) := by
  refine .of_slots s _ (slotLaw_moved (target := target) (by simp) (homeOf_some s stop home hn).1 ?_)
  rintro n a ⟨y, hy, hya⟩
  have hstop : r.stop = stop := recOf_stop s stop r hr
  replace hy : (((s.modSlot target f).modSlot target g).modSlot home h).slot n = some y := hy
  rw [slot_modSlot] at hy
  by_cases hnh : n = home
  · rw [if_pos hnh] at hy
    obtain ⟨x, -, rfl⟩ := Option.map_eq_some_iff.1 hy
    exact absurd hya (not_holds_of_record? (hh x) a)
  · rw [if_neg hnh, slot_modSlot, slot_modSlot] at hy
    by_cases hnt : n = target
    · rw [if_pos hnt, if_pos hnt] at hy
      obtain ⟨x, hx, rfl⟩ := Option.map_eq_some_iff.1 hy
      obtain ⟨z, -, rfl⟩ := Option.map_eq_some_iff.1 hx
      exact .inr ⟨hnt, hstop ▸ ((holds_of_record? ((hg _).trans (hf z)) a).1 hya).symm⟩
    · rw [if_neg hnt, if_neg hnt] at hy
      exact .inl ⟨hnh, y, hy, hya⟩

theorem Lawful.countCorrection (s : State) (n offset : Nat) : Lawful s (s.countCorrection n offset) :=
  (Lawful.modSlot s n (fun x => { x with corr := min 2 (x.corr + 1) }) fun _ _ _ h => h).trans
    (.of_eq rfl rfl rfl rfl rfl rfl rfl rfl rfl)

theorem Lawful.countRead (s : State) (n : Nat) (r : ReadResult) : Lawful s (s.countRead n r) := by
  cases r
  case corrected offset => exact .countCorrection s n offset
  all_goals exact .refl s

theorem Lawful.askMove (s : State) (n : Nat) : Lawful s (s.askMove n) := by
  unfold State.askMove
  split
  · split
    · split
      · exact .refl s
      · exact .enqueue s _
    · exact .refl s
  · exact .refl s

/-- Another list of unsaved images. -/
theorem Lawful.of_unsaved (s : State) (xs : List Nat) : Lawful s { s with unsaved := xs } :=
  .of_eq rfl rfl rfl rfl rfl rfl rfl rfl rfl

theorem Lawful.becomeUnsaved (s : State) (stop : Nat) : Lawful s (s.becomeUnsaved stop) := by
  unfold State.becomeUnsaved
  split
  · exact .refl s
  · exact (Lawful.of_unsaved s (s.unsaved ++ [stop])).trans (.tellBound _ stop _ Lawful.lineUnsaved)

theorem Lawful.queueUnsaved (s : State) : Lawful s s.queueUnsaved := by
  unfold State.queueUnsaved
  split
  · split
    · exact .enqueue s _
    · exact .refl s
  · exact .refl s

theorem Lawful.becomeSaved (s : State) (stop : Nat) : Lawful s (s.becomeSaved stop) := by
  unfold State.becomeSaved
  split
  · exact ((Lawful.of_unsaved s (s.unsaved.erase stop)).trans (.queueUnsaved _)).trans
      (.tellBound _ stop _ Lawful.lineSaved)
  · exact .refl s

theorem Lawful.flyRecord (s : State) (r : Record) (target : Nat) (kind : WriteKind) : Lawful s (s.flyRecord r target kind) :=
  .of_flight s _ fun _ => trivial

theorem Lawful.beginRecord (s : State) (stop : Nat) : Lawful s (s.beginRecord stop) := by
  unfold State.beginRecord
  split
  · next home r hn hr =>
    split
    · exact .refl s
    · split
      · exact .flyRecord s _ _ _
      · split
        · exact .flyRecord s _ _ _
        · exact (Lawful.rehome s stop home r _ hn hr fun _ => rfl).trans (.becomeUnsaved _ stop)
  · exact .refl s

theorem Lawful.beginKey (s : State) (k : Key) : Lawful s (s.beginKey k) := by
  cases k with
  | record stop => exact .beginRecord s stop
  | release n => exact .of_flight s _ fun _ => trivial
  | block b =>
    refine .of_flight s _ fun h => ?_
    cases b
    case settings => exact h.2.2.1
    all_goals trivial

theorem Lawful.landed (s : State) : Lawful s s.landed :=
  ((Lawful.of_flight s none fun _ => trivial).trans
    (.of_eq (t := { s with flight := none, patrolIdle := 0 }) rfl rfl rfl rfl rfl rfl rfl rfl rfl)).trans (.mapWaiters _ _)

theorem Lawful.giveUp (s : State) : Lawful s s.giveUp :=
  (Lawful.of_flight s none fun _ => trivial).trans (.of_queue _ [] fun _ => List.nodup_nil)

theorem Lawful.takeEntry (s : State) (k : Key) (q : List Key) (hq : s.queue = k :: q) : Lawful s (s.takeEntry k q) := by
  unfold State.takeEntry
  have hqueue : Lawful s { s with queue := q } := .of_queue s q fun h => by
    rw [State.queueLaw, hq] at h
    exact (List.nodup_cons.1 h).2
  have h := ((hqueue.trans (.of_eq (t := { s with queue := q, patrolIdle := 0 }) rfl rfl rfl rfl rfl rfl rfl rfl rfl)).trans
    (.mapWaiters _ (Waiter.begun k))).trans (.beginKey _ k)
  dsimp only
  split
  · exact h.trans (.mapWaiters _ _)
  · exact h

theorem Lawful.storeRun (n : Nat) : ∀ s : State, Lawful s (storeRun n s) := by
  induction n with
  | zero => exact .refl
  | succ n ih =>
    intro s
    unfold Machine.storeRun
    split
    · next k q _ hq =>
      split
      · exact (Lawful.takeEntry s k q hq).trans (ih _)
      · exact .refl s
    · exact .refl s

theorem Lawful.runStore (s : State) : Lawful s s.runStore := .storeRun _ s

/-- A release entry renamed keeps every entry single. -/
theorem Lawful.retarget (s : State) (old new : Nat) : Lawful s (s.retarget old new) := by
  unfold State.retarget
  refine Lawful.trans (.of_queue s _ fun h => ?_) (.mapWaiters _ _)
  split
  · exact h.erase _
  · next hnew =>
    have hnot : Key.release new ∉ s.queue := fun hm => hnew (List.contains_iff_mem.2 hm)
    refine (List.nodup_map_iff_inj_on h).2 fun x hx y hy hxy => ?_
    split at hxy <;> split at hxy
    · next h1 h2 => exact h1.trans h2.symm
    · exact absurd (hxy ▸ hy) hnot
    · exact absurd (hxy ▸ hx) hnot
    · exact hxy

theorem Lawful.nextSeq (s : State) : Lawful s s.nextSeq := .of_eq rfl rfl rfl rfl rfl rfl rfl rfl rfl

theorem Lawful.verifiedNew (s : State) (w : SlotWrite) (home : Nat) (leaving : Bool) (r : Record)
    (hn : s.homeOf w.stop = some home) (hr : s.recOf w.stop = some r) : Lawful s (s.verifiedNew w home leaving r) :=
  ((Lawful.moveHome s w.stop home w.target r (Slot.receive w.stop s.seq s.fresh w.image r)
    (fun x => { x with leaving := leaving }) Slot.retire hn hr (fun _ => rfl) (fun _ => rfl) fun _ => rfl).trans
    (.retarget _ home w.target)).trans (.nextSeq _)

theorem Lawful.recordVerified (s : State) (w : SlotWrite) (ask : Bool) : Lawful s (s.recordVerified w ask) := by
  unfold State.recordVerified
  split
  · next home r hn hr =>
    have h1 : Lawful s (if home = w.target then s.verifiedInPlace w r
        else s.verifiedNew w home ((s.slot home).elim false (·.leaving)) r) := by
      split
      · next he => subst he; exact (Lawful.rehome s w.stop _ r _ hn hr fun _ => rfl).trans (.nextSeq _)
      · exact .verifiedNew s w home _ r hn hr
    refine Lawful.trans ?_ (.becomeSaved _ w.stop)
    split
    · exact (h1.trans (.landed _)).trans (.askMove _ _)
    · exact h1.trans (.landed _)
  · refine Lawful.trans ?_ (.landed _)
    exact .modSlot s w.target _ fun _ _ _ h => h

theorem Lawful.tryNext (s : State) (w : SlotWrite) (next : Nat) (kind : WriteKind) : Lawful s (s.tryNext w next kind) := by
  unfold State.tryNext
  split
  · exact .of_flight s _ fun _ => trivial
  · exact .giveUp s

/-- A home looked up behind the retirement of another slot is the home it was. -/
theorem isHome_modSlot_of_ne (s : State) {n m : Nat} (f : Slot → Slot) (h : n ≠ m) (stop : Nat) :
    (s.modSlot m f).isHome n stop ↔ s.isHome n stop := by
  simp [State.isHome, slot_modSlot, h]

theorem Lawful.exhausted (s : State) (w : SlotWrite) (home : Nat) (r : Record) (hn : s.homeOf w.stop = some home)
    (hr : s.recOf w.stop = some r) : Lawful s (s.exhausted w home r) := by
  unfold State.exhausted
  refine Lawful.trans (Lawful.trans ?_ (.landed _)) (.becomeUnsaved _ _)
  split
  · split
    · exact .rehome s w.stop home r _ hn hr fun _ => rfl
    · next hne =>
      refine (Lawful.clearSlot s w.target Slot.retire fun _ => rfl).trans (.modSlot _ home _ fun x m hx h => ?_)
      obtain ⟨y, hy, hyr, -⟩ := record?_of_homeOf s w.stop home r hn hr
      rw [slot_modSlot, if_neg hne] at hx
      obtain rfl : x = y := Option.some.inj (hx.symm.trans hy)
      exact (holds_of_record? hyr m).2 ((holds_of_record? (record?_condemn r x) m).1 h)
  · refine Lawful.trans ?_ (.retarget _ home w.target)
    exact .moveHome s w.stop home w.target r (Slot.condemn r) _ Slot.retire hn hr (fun _ => rfl) (fun _ => rfl) fun _ => rfl

theorem Lawful.recordFailed (s : State) (w : SlotWrite) : Lawful s (s.recordFailed w) := by
  unfold State.recordFailed
  split
  · next home r hn hr =>
    split
    · split
      · exact (Lawful.modSlot s home (fun x => { x with relocate := true }) fun _ _ _ h => h).trans (.tryNext _ w _ _)
      · exact .exhausted s w home r hn hr
    · split
      · exact (Lawful.clearSlot s w.target Slot.retire fun _ => rfl).trans (.tryNext _ w _ _)
      · exact .exhausted s w home r hn hr
  · exact (Lawful.clearSlot s w.target Slot.retire fun _ => rfl).trans (.landed _)

theorem Lawful.recordWriteEnd (s : State) (w : SlotWrite) (read : ReadResult) (agrees : Bool) :
    Lawful s (s.recordWriteEnd w read agrees) := by
  unfold State.recordWriteEnd
  dsimp only
  split
  · exact (Lawful.countRead s _ _).trans (.recordVerified _ w _)
  · exact (Lawful.countRead s _ _).trans (.recordFailed _ w)

/-- The area takes the image in flight, whose settings obey the bound. -/
theorem Lawful.setArea (s : State) (image : BlockImage) (second : Bool) (h : s.flight = some (.block image second)) :
    Lawful s (s.setArea image) := by
  cases image with
  | settings b =>
    refine ⟨⟨rfl, slotLaw_of_slots rfl, id, id, fun hs => ?_, id⟩, rfl⟩
    obtain ⟨h1, h2, h3, -, h5⟩ := hs
    refine ⟨h1, h2, h3, ?_, h5⟩
    rintro c ⟨⟩
    rw [h] at h5
    exact h5
  | load b => exact .of_eq rfl rfl rfl rfl rfl rfl rfl rfl rfl
  | route b => exact .of_eq rfl rfl rfl rfl rfl rfl rfl rfl rfl

theorem Lawful.setFailed (s : State) (image : BlockImage) (v : Bool) : Lawful s (s.setFailed image v) := by
  cases image <;> exact .of_eq rfl rfl rfl rfl rfl rfl rfl rfl rfl

theorem Lawful.blockWriteEnd (s : State) (image : BlockImage) (second agrees : Bool)
    (h : s.flight = some (.block image second)) : Lawful s (s.blockWriteEnd image second agrees) := by
  unfold State.blockWriteEnd
  split
  · exact ((Lawful.setArea s image second h).trans (.setFailed _ _ _)).trans (.landed _)
  · split
    · exact (Lawful.setFailed s _ _).trans (.landed _)
    · split
      · refine .of_flight s _ fun hs => ?_
        have hf := hs.2.2.2.2
        rw [h] at hf
        cases image
        case settings => exact hf
        all_goals trivial
      · exact .giveUp s

theorem Lawful.releaseEnd (s : State) (n : Nat) : Lawful s (s.releaseEnd n) := by
  have hend : ∀ u, Lawful s u → Lawful s
      (if ((u.modSlot n (Slot.release s.fresh)).landed.slot n).elim false Slot.isFree then
        (u.modSlot n (Slot.release s.fresh)).landed.queueUnsaved
      else (u.modSlot n (Slot.release s.fresh)).landed) := by
    intro u hu
    have h := (hu.trans (.clearSlot _ n (Slot.release s.fresh) (record?_release s.fresh))).trans (.landed _)
    split
    · exact h.trans (.queueUnsaved _)
    · exact h
  unfold State.releaseEnd
  split
  · exact hend _ (.of_unsaved s _)
  · exact hend s (.refl s)

theorem Lawful.patrolBegin (s : State) : Lawful s s.patrolBegin := by
  unfold State.patrolBegin
  split
  · split
    · next n _ =>
      exact ((Lawful.of_flight s (some (.patrol n)) fun _ => trivial).trans
        (.of_eq (t := { s with flight := some (.patrol n), patrolIdle := 0 }) rfl rfl rfl rfl rfl rfl rfl rfl rfl)).trans
        (.timeRow _ _)
    · exact (Lawful.of_eq (s := s) (t := { s with patrolIdle := 0 }) rfl rfl rfl rfl rfl rfl rfl rfl rfl).trans (.timeRow _ _)
  · exact .refl s

theorem Lawful.patrolEnd (s : State) (n : Nat) (read : ReadResult) : Lawful s (s.patrolEnd n read) := by
  unfold State.patrolEnd
  have h1 : Lawful s (s.patrolMove n).landed :=
    (Lawful.of_eq (s := s) (t := s.patrolMove n) rfl rfl rfl rfl rfl rfl rfl rfl rfl).trans (.landed _)
  dsimp only
  split
  · exact h1
  · next offset =>
    have h2 := (h1.trans (.countCorrection _ n offset)).trans (.modSlot _ n (fun x => x.writeHeader x.headerCond) fun _ _ _ h => h)
    split
    · exact h2.trans (.askMove _ n)
    · exact h2
  · refine Lawful.trans ?_ (.askMove _ n)
    exact h1.trans (.modSlot _ n _ fun _ _ _ h => h)

theorem Lawful.dropEntry (s : State) (k : Key) : Lawful s (s.dropEntry k) :=
  (Lawful.of_queue s _ fun h => h.erase _).trans (.mapWaiters _ _)

theorem Lawful.discard (s : State) (n stop : Nat) : Lawful s (s.discard n stop) := by
  unfold State.discard
  refine ((Lawful.dropEntry s _).trans (.clearSlot _ n Slot.retire fun _ => rfl)).trans (Lawful.trans
    (.of_flight _ (((s.dropEntry (.record stop)).modSlot n Slot.retire).flight.map (orphaned stop)) fun h => ?_)
    (.of_eq rfl rfl rfl rfl rfl rfl rfl rfl rfl))
  have hf := h.2.2.2.2
  generalize ((s.dropEntry (.record stop)).modSlot n Slot.retire).flight = fl at hf
  cases fl with
  | none => trivial
  | some op =>
    cases op with
    | record w => simp only [Option.map_some, orphaned]; split <;> trivial
    | block b second => exact hf
    | release m => trivial
    | patrol m => trivial

theorem Lawful.askRelease (s : State) (n : Nat) : Lawful s (s.askRelease n) := by
  unfold State.askRelease
  have h1 : Lawful s (match (s.slot n).bind Slot.record? with
      | some r => s.dropEntry (.record r.stop)
      | none => s) := by
    split
    · exact .dropEntry s _
    · exact .refl s
  refine Lawful.trans ?_ (.enqueue _ _)
  exact h1.trans (.modSlot _ n _ fun _ _ _ h => h)

/-! ### Replies and what follows every row -/

theorem Lawful.deliverReply (s : State) : Lawful s s.deliverReply := by
  unfold State.deliverReply
  split
  · exact .refl s
  · split
    · split
      · refine Lawful.trans ?_ (.ready _ _)
        exact .of_eq rfl rfl rfl rfl rfl rfl rfl rfl rfl
      · exact .refl s
    · exact .refl s

theorem Lawful.deliverAttention (s : State) (l : Line) : Lawful s (s.deliverAttention l) := by
  unfold State.deliverAttention
  refine Lawful.trans ?_ (.modLine' _ l _ (valveLaw_of_eq rfl rfl rfl) rfl)
  split
  · exact .setAttention s l
  · exact .refl s

theorem Lawful.deliver (s : State) : Lawful s s.deliver := by
  unfold State.deliver
  split
  · exact ((Lawful.deliverReply s).trans (.deliverAttention _ _)).trans (.deliverAttention _ _)
  · exact .refl s

theorem Lawful.trySleep (s : State) : Lawful s s.trySleep := by
  unfold State.trySleep
  split
  · exact .of_eq rfl rfl rfl rfl rfl rfl rfl rfl rfl
  · exact .refl s

theorem countLaw_take {m : Meter} (h : m.countLaw) (r : Reading) : (m.take r).countLaw := h

theorem Lawful.wake (s : State) (samples : Pair Reading) : Lawful s (s.wake samples) :=
  ⟨⟨rfl, slotLaw_of_slots rfl, id, id, id, id⟩, rfl⟩

end Sys2Proof.Machine
end

