-- ==== Sys2Proof/Proofs/RestartLaws.lean ====
section
/-! PROOFS. The laws of a state through a restart and what follows every row. -/

open Sys2Proof Sys2Proof.Machine

namespace Sys2Proof.Machine

/-! ## The restart scan (R47, R48) -/

@[simp] theorem length_scanSlots (reads : List SlotReads) : ∀ (n : Nat) (xs : List Slot), (scanSlots reads n xs).length = xs.length
  | _, [] => rfl
  | n, _ :: xs => congrArg (· + 1) (length_scanSlots reads (n + 1) xs)

theorem getElem?_scanSlots (reads : List SlotReads) :
    ∀ (n : Nat) (xs : List Slot) (i : Nat), (scanSlots reads n xs)[i]? = (xs[i]?).map (scanSlot (n + i) reads)
  | _, [], _ => by simp [scanSlots]
  | n, x :: xs, 0 => by simp [scanSlots]
  | n, x :: xs, i + 1 => by
    simp [scanSlots, getElem?_scanSlots reads (n + 1) xs i, Nat.add_comm 1 i, Nat.add_assoc]

@[simp] theorem length_settleSlots (all : List (Slot × Found)) :
    ∀ (n : Nat) (ps : List (Slot × Found)), (settleSlots all n ps).length = ps.length
  | _, [] => rfl
  | n, _ :: ps => congrArg (· + 1) (length_settleSlots all (n + 1) ps)

theorem getElem?_settleSlots (all : List (Slot × Found)) :
    ∀ (n : Nat) (ps : List (Slot × Found)) (i : Nat), (settleSlots all n ps)[i]? = (ps[i]?).map (settleSlot all (n + i))
  | _, [], _ => by simp [settleSlots]
  | n, p :: ps, 0 => by simp [settleSlots]
  | n, p :: ps, i + 1 => by
    simp [settleSlots, getElem?_settleSlots all (n + 1) ps i, Nat.add_comm 1 i, Nat.add_assoc]

/-- A good copy is passed over exactly for another of its stop with a higher sequence number, or an equal one in a lower slot (R48, log 51). -/
theorem newerGood_iff (stop seq n : Nat) :
    ∀ (m : Nat) (ps : List (Slot × Found)), newerGood stop seq n m ps = true
      ↔ ∃ i x r q, ps[i]? = some (x, .good r q) ∧ r.stop = stop ∧ (seq < q ∨ (seq = q ∧ m + i < n))
  | _, [] => by simp [newerGood]
  | m, (x, f) :: ps => by
    have hhead : newerGood stop seq n m ((x, f) :: ps) = true
        ↔ (∃ r q, f = .good r q ∧ r.stop = stop ∧ (seq < q ∨ (seq = q ∧ m < n)))
          ∨ newerGood stop seq n (m + 1) ps = true := by
      cases f <;> simp [newerGood]
    rw [hhead, newerGood_iff stop seq n (m + 1) ps]
    constructor
    · rintro (⟨r, q, rfl, h⟩ | ⟨i, y, r, q, hi, hr, hq⟩)
      · exact ⟨0, x, r, q, rfl, h⟩
      · exact ⟨i + 1, y, r, q, by simpa using hi, hr, by omega⟩
    · rintro ⟨i, y, r, q, hi, hr, hq⟩
      cases i with
      | zero =>
        obtain ⟨-, rfl⟩ : x = y ∧ f = .good r q := by simpa using hi
        exact .inl ⟨r, q, rfl, hr, hq⟩
      | succ i => exact .inr ⟨i, y, r, q, by simpa using hi, hr, by omega⟩

@[simp] theorem record?_scanRelease (x : Slot) : x.scanRelease.record? = none := by
  unfold Slot.scanRelease; split <;> rfl

/-- The scan leaves a slot the home of a record exactly where it found a good copy of it that no other is put before. -/
theorem record?_settleSlot (all : List (Slot × Found)) (n : Nat) (p : Slot × Found) (r : Record) :
    (settleSlot all n p).record? = some r ↔ ∃ q, p.2 = .good r q ∧ newerGood r.stop q n 1 all = false := by
  obtain ⟨x, f⟩ := p
  unfold settleSlot
  cases f with
  | free => simp [Slot.record?]
  | retired => simp [Slot.record?]
  | good c q =>
    dsimp only
    split
    · next h =>
      simp only [record?_scanRelease, Found.good.injEq, reduceCtorEq, false_iff]
      rintro ⟨q', ⟨rfl, rfl⟩, hn⟩
      simp [h] at hn
    · next h =>
      simp only [Slot.record?, Option.some.injEq, Found.good.injEq]
      constructor
      · rintro rfl
        exact ⟨q, ⟨rfl, rfl⟩, by simpa using h⟩
      · rintro ⟨q', ⟨rfl, rfl⟩, -⟩
        rfl
  | damaged stop account q =>
    dsimp only
    split <;> simp [Slot.record?, Slot.retire, Slot.writeHeader]

/-- The slots that a scan and its settlement leave. -/
def scannedSlots (reads : List SlotReads) (xs : List Slot) : List Slot :=
  settleSlots (scanSlots reads 1 xs) 1 (scanSlots reads 1 xs)

theorem getElem?_scannedSlots (reads : List SlotReads) (xs : List Slot) (i : Nat) :
    (scannedSlots reads xs)[i]? = (xs[i]?).map fun x => settleSlot (scanSlots reads 1 xs) (i + 1) (scanSlot (i + 1) reads x) := by
  simp [scannedSlots, getElem?_settleSlots, getElem?_scanSlots, Nat.add_comm 1 i, Function.comp_def]

/-- Of two good copies of one stop the scan keeps one: no stop has two homes (R48, log 51). -/
theorem stops_nodup_scannedSlots (reads : List SlotReads) (xs : List Slot) :
    (((scannedSlots reads xs).filterMap Slot.record?).map (·.stop)).Nodup := by
  refine (stops_nodup_iff _).2 fun i j x y stop hx hy hsx hsy => ?_
  obtain ⟨r, hr, rfl⟩ := (slot_holds_iff stop x).1 hsx
  obtain ⟨c, hc, hstop⟩ := (slot_holds_iff r.stop y).1 hsy
  rw [getElem?_scannedSlots] at hx hy
  obtain ⟨x0, hx0, rfl⟩ := Option.map_eq_some_iff.1 hx
  obtain ⟨y0, hy0, rfl⟩ := Option.map_eq_some_iff.1 hy
  obtain ⟨p, hp, hpn⟩ := (record?_settleSlot _ _ _ _).1 hr
  obtain ⟨q, hq, hqn⟩ := (record?_settleSlot _ _ _ _).1 hc
  have hi : (scanSlots reads 1 xs)[i]? = some ((scanSlot (i + 1) reads x0).1, .good r p) := by
    rw [getElem?_scanSlots, hx0, Option.map_some, Nat.add_comm 1 i, ← hp]
  have hj : (scanSlots reads 1 xs)[j]? = some ((scanSlot (j + 1) reads y0).1, .good c q) := by
    rw [getElem?_scanSlots, hy0, Option.map_some, Nat.add_comm 1 j, ← hq]
  rw [← Bool.not_eq_true, newerGood_iff] at hpn hqn
  have h1 : ¬ (p < q ∨ (p = q ∧ 1 + j < i + 1)) := fun h => hpn ⟨j, _, c, q, hj, hstop, h⟩
  have h2 : ¬ (q < p ∨ (q = p ∧ 1 + i < j + 1)) := fun h => hqn ⟨i, _, r, p, hi, hstop.symm, h⟩
  omega

theorem Lawful.enqueueAll (xs : List Nat) : ∀ s : State, Lawful s (xs.foldl (fun t stop => t.enqueue (.record stop)) s) := by
  induction xs with
  | nil => exact .refl
  | cons x xs ih => exact fun s => (Lawful.enqueue s _).trans (ih _)

theorem Lawful.scan (s : State) (reads : List SlotReads) : Lawful s (s.scan reads) := by
  unfold State.scan
  refine Lawful.trans ?_ (.enqueueAll _ _)
  refine (Lawful.of_slots s (scannedSlots reads s.slots) fun h => ?_).trans
    (.of_eq rfl rfl rfl rfl rfl rfl rfl rfl rfl)
  have hlen : (scannedSlots reads s.slots).length = 80 := by simpa [scannedSlots] using h.1
  exact ⟨hlen, (countSlots_total _).trans hlen, stops_nodup_scannedSlots reads s.slots⟩

/-! ### The restart -/

theorem KeepsLaws.restartBegin (s : State) (cause : RestartCause) : KeepsLaws s (s.restartBegin cause) where
  pending := rfl
  slot := slotLaw_of_slots rfl
  queue _ := List.nodup_nil
  valve _ := ⟨valveLaw_closed rfl rfl, valveLaw_closed rfl rfl⟩
  antic h := ⟨Nat.zero_le _, Nat.zero_le _, h.2.2.1, h.2.2.2.1, trivial⟩
  count h := h

theorem Lawful.closeSession (s : State) : Lawful s s.closeSession := by
  unfold State.closeSession
  split
  · exact .refl s
  · exact (Lawful.modSettings s _ fun h => h.2.2.1).trans (.enqueue _ _)

/-- A block's write asked for where a condition says so. -/
theorem Lawful.enqueueIf (s : State) (b : Bool) (k : Key) : Lawful s (if b then s.enqueue k else s) := by
  cases b
  · exact .refl s
  · exact .enqueue s k

theorem Lawful.readSettings (s : State) (found : Option Settings) (r : AreaRead)
    (hfound : s.anticLaw → ∀ x, found = some x → x.anticLaw) : Lawful s (s.readSettings found r) := by
  have h1 : Lawful s { s with settings := found.getD .default, failed := { s.failed with settings := found.isNone } } := by
    refine (Lawful.modSettings s (fun _ => found.getD .default) fun h => ?_).trans
      (.of_eq rfl rfl rfl rfl rfl rfl rfl rfl rfl)
    cases found with
    | none => exact ⟨by decide, by decide⟩
    | some x => exact hfound h x rfl
  have hseal : ∀ u, Lawful s u →
      Lawful s (if u.settings.session = true ∧ u.inputs.sealOpen = false then u.closeSession else u) := by
    intro u hu
    split
    · exact hu.trans (.closeSession u)
    · exact hu
  exact hseal _ (h1.trans (.enqueueIf _ _ _))

theorem Lawful.readBlocks (s : State) (load : Option LoadBlock) (route : Option RouteBlock) (rl rr : AreaRead) :
    Lawful s (s.readBlocks load route rl rr) := by
  unfold State.readBlocks
  refine Lawful.trans ?_ (.enqueueIf _ _ _)
  refine Lawful.trans ?_ (.enqueueIf _ _ _)
  exact .of_eq rfl rfl rfl rfl rfl rfl rfl rfl rfl

theorem Lawful.reapply (s : State) : Lawful s s.reapply := by
  have hif : ∀ (u : State) (b : Bool) (k : Key), Lawful s u → Lawful s (if b then u else u.enqueue k) := by
    intro u b k h
    cases b
    · exact h.trans (.enqueue u k)
    · exact h
  unfold State.reapply
  refine hif _ _ _ (hif _ _ _ ?_)
  exact .of_eq rfl rfl rfl rfl rfl rfl rfl rfl rfl

/-- The restart values of a meter line stand in range (R54). -/
theorem countLaw_restart (a b : Bool) : (Meter.restart a b).countLaw := by simp [Meter.countLaw, Meter.restart]

theorem Lawful.restartMeters (s : State) : Lawful s s.restartMeters where
  phase := rfl
  pending := rfl
  slot := slotLaw_of_slots rfl
  queue := id
  valve := id
  antic := id
  count _ := ⟨countLaw_restart _ _, countLaw_restart _ _⟩

/-- A line context laid down at rest with its anticipation from the settings. -/
theorem Lawful.setLine (s : State) (l : Line) (c : LineCtx) (hl : c.cmdLow = false) (hh : c.cmdHigh = false)
    (ha : c.antic = (s.items l).antic) : Lawful s (s.modLine l fun _ => c) :=
  .modLine s l _ (fun _ => valveLaw_closed hl hh) fun h => ha ▸ antic_items_le h l

theorem Lawful.upUnbound (s : State) (l : Line) : Lawful s (s.upUnbound l) := .setLine s l _ rfl rfl rfl

theorem Lawful.upBound (s : State) (l : Line) (r : Record) : Lawful s (s.upBound l r) := by
  unfold State.upBound
  refine Lawful.trans ?_ (.enterPaused _ l _)
  refine Lawful.trans ?_ (.modLine' _ l _ (valveLaw_of_eq rfl rfl rfl) rfl)
  refine (Lawful.modRec s r.stop Record.restoredFlags fun _ => rfl).trans ?_
  exact .setLine _ l _ rfl rfl rfl

theorem Lawful.bringUp (s : State) (l : Line) : Lawful s (s.bringUp l) := by
  unfold State.bringUp
  split
  · next r _ => exact (Lawful.upBound s l r).trans (.of_eq rfl rfl rfl rfl rfl rfl rfl rfl rfl)
  · exact .upUnbound s l

theorem Lawful.of_pump (s : State) (p : Option PumpBinding) : Lawful s { s with pump := p } :=
  .of_eq rfl rfl rfl rfl rfl rfl rfl rfl rfl

theorem Lawful.yieldLineTwo (s : State) (stop : Nat) : Lawful s (s.yieldLineTwo stop) :=
  ((Lawful.changeRec s stop Record.returned fun _ => rfl).trans (.upUnbound _ .two)).trans
    (.of_eq rfl rfl rfl rfl rfl rfl rfl rfl rfl)

theorem Lawful.rebuildPump (s : State) : Lawful s s.rebuildPump := by
  unfold State.rebuildPump
  split
  · exact .of_pump s _
  · exact .of_pump s _
  · exact .of_pump s _
  · split
    · exact .of_pump s _
    · split
      · exact (Lawful.of_pump s _).trans (.yieldLineTwo _ _)
      · exact .of_pump s _

/-- Steps 2 to 9 of a restart stay on the restart path. -/
theorem Lawful.restartRest (s : State) (r : RestartReads) (settings : Option Settings) (load : Option LoadBlock)
    (route : Option RouteBlock) (h : s.anticLaw → ∀ x, settings = some x → x.anticLaw) :
    Lawful s ((((((((s.readSettings settings r.settings).scan r.slots).readBlocks load route r.load
      r.route).reapply).restartMeters).bringUp .one).bringUp .two).rebuildPump) :=
  (((((((Lawful.readSettings s settings r.settings h).trans (.scan _ _)).trans (.readBlocks _ _ _ _ _)).trans
    (.reapply _)).trans (.restartMeters _)).trans (.bringUp _ _)).trans (.bringUp _ _)).trans (.rebuildPump _)

/-- A block read from an area is the block it holds. -/
theorem readArea_some {α : Type} {image : α → BlockImage} {area : Option (Stored α)} {r : AreaRead} {b : α}
    (h : readArea image area r = some b) : ∃ c, area = some c ∧ c.block = b := by
  unfold readArea at h
  split at h
  · cases h
  · obtain ⟨c, hc, rfl⟩ := Option.map_eq_some_iff.1 h
    exact ⟨c, (Option.filter_eq_some_iff.1 hc).1, rfl⟩

/-- The settings read from their area obey the bound that the area's do. -/
theorem readArea_antic (s : State) (r : AreaRead) (h : s.anticLaw) :
    ∀ x, readArea .settings s.areaSettings r = some x → x.anticLaw := by
  intro x hx
  obtain ⟨c, hc, rfl⟩ := readArea_some hx
  exact h.2.2.2.1 c hc

theorem KeepsLaws.restart (s : State) (cause : RestartCause) (r : RestartReads) : KeepsLaws s (s.restart cause r) :=
  (KeepsLaws.restartBegin s cause).trans
    (Lawful.restartRest (s.restartBegin cause) r _ _ _ (readArea_antic (s.restartBegin cause) r.settings)).toKeepsLaws

/-- A restart leaves the part on the restart path. -/
theorem restart_phase (s : State) (cause : RestartCause) (r : RestartReads) : (s.restart cause r).phase = .restart := by
  have hread : ∀ (found : Option Settings) (u : State) (b : AreaRead), (u.readSettings found b).phase = u.phase := by
    intro found u b
    unfold State.readSettings State.closeSession
    dsimp only
    split <;> split <;> (try split) <;> simp
  refine (Lawful.phase ?_).trans (hread (readArea .settings s.areaSettings r.settings) (s.restartBegin cause) r.settings)
  exact ((((((Lawful.scan _ _).trans (.readBlocks _ _ _ _ _)).trans
    (.reapply _)).trans (.restartMeters _)).trans (.bringUp _ _)).trans (.bringUp _ _)).trans (.rebuildPump _)

theorem KeepsLaws.holdInReset (s : State) : KeepsLaws s s.holdInReset :=
  ⟨rfl, slotLaw_of_slots rfl, fun _ => List.nodup_nil, id, fun h => ⟨h.1, h.2.1, h.2.2.1, h.2.2.2.1, trivial⟩, id⟩

theorem KeepsLaws.finishFlush (s : State) : KeepsLaws s s.finishFlush := by
  unfold State.finishFlush
  split
  · split
    · exact .restart s _ _
    · exact .restart s _ _
    · exact .holdInReset s
  · exact .refl s

theorem KeepsLaws.settleFlush (s : State) : KeepsLaws s s.settleFlush := by
  unfold State.settleFlush
  split
  · exact .refl s
  · exact (KeepsLaws.finishFlush s).trans (Lawful.runStore _).toKeepsLaws

/-- What follows every row keeps the laws. -/
theorem KeepsLaws.commit (s : State) : KeepsLaws s (commit s) :=
  (((Lawful.runStore s).toKeepsLaws.trans (.settleFlush _)).trans (Lawful.deliver _).toKeepsLaws).trans
    (Lawful.trySleep _).toKeepsLaws

theorem KeepsLaws.comesUp (s : State) : KeepsLaws s s.comesUp :=
  .of_eq (by simp) (by simp) (by simp) (by simp) (by simp) (by simp) (by simp) (by simp)

end Sys2Proof.Machine
end

