-- ==== Sys2Proof/Proofs/CommandLaws.lean ====
section
/-! PROOFS. The laws of a state through every command that is taken. -/

open Sys2Proof Sys2Proof.Machine

namespace Sys2Proof.Machine

/-! ## Command rows -/

/-- A command row is the arrival of its word's line, judged as that command (log 6). -/
theorem exec_command {i : Instr} {w : CmdWord} (h : commandWord i = some w) (s : State) :
    exec i s = take w (judgeCommand i) s := by
  cases i <;> cases h <;> rfl

/-- A command that is taken keeps the laws. -/
structure Verdict (s : State) (e : Except Code Taken) : Prop where
  lawful : ∀ t, e = .ok t → Lawful s t.st

theorem Verdict.error (s : State) (c : Code) : Verdict s (.error c) := ⟨fun _ h => nomatch h⟩

theorem Verdict.ok {s : State} {t : Taken} (h : Lawful s t.st) : Verdict s (.ok t) := by
  refine ⟨?_⟩
  rintro _ ⟨⟩
  exact h

theorem Verdict.report {s u : State} (segments : List (List Tok)) (h : Lawful s u) : Verdict s (report u segments) := .ok h

theorem Verdict.taken {s u : State} (stop : Nat) (fields : List Tok) (h : Lawful s u) : Verdict s (taken u stop fields) := .ok h

theorem Verdict.blockTaken {s u : State} (b : Block) (fields : List Tok) (h : Lawful s u) : Verdict s (blockTaken u b fields) :=
  .ok (h.trans (.enqueue u _))

/-- A choice between two judgements. -/
theorem Verdict.ite {s : State} {p : Prop} [Decidable p] {a b : Except Code Taken} (ha : p → Verdict s a)
    (hb : ¬ p → Verdict s b) : Verdict s (if p then a else b) := by
  split
  · exact ha ‹p›
  · exact hb ‹¬p›

theorem Verdict.withLine {s : State} (n : Nat) {k : Line → Except Code Taken} (h : ∀ l, Verdict s (k l)) :
    Verdict s (withLine n k) := by
  unfold Machine.withLine; split
  · exact h _
  · exact .error s _

theorem Verdict.withRecord {s : State} (stop : Nat) (fields : Bool) {k : Record → Except Code Taken}
    (h : ∀ r, s.recOf stop = some r → Verdict s (k r)) : Verdict s (withRecord s stop fields k) := by
  unfold Machine.withRecord
  split
  · split
    · exact h _ ‹_›
    · exact .error s _
  · exact .error s _

theorem Verdict.flowChecks {s : State} (l : Line) {k : Except Code Taken} (h : Verdict s k) : Verdict s (flowChecks s l k) :=
  .ite (fun _ => .error s _) fun _ => .ite (fun _ => .error s _) fun _ => .ite (fun _ => .error s _) fun _ => h

/-! ### Order and ticket commands -/

/-- The slot that R31 allocates is FREE. -/
theorem bestFree_free (except : Option Nat) (n : Nat) :
    ∀ (xs : List Slot) (k : Nat) (best : Option (Nat × Nat)), bestFree except xs k best = some n →
      (∃ p, best = some (p, n)) ∨ ∃ i x, n = k + i ∧ xs[i]? = some x ∧ x.isFree = true
  | [], k, best, h => by
    left
    obtain ⟨⟨p, m⟩, hb, rfl⟩ := Option.map_eq_some_iff.1 h
    exact ⟨p, hb⟩
  | x :: xs, k, best, h => by
    have hrest : ∀ b, bestFree except xs (k + 1) b = some n →
        (∃ p, b = some (p, n)) ∨ ∃ i y, n = k + i ∧ (x :: xs)[i]? = some y ∧ y.isFree = true := by
      intro b hb
      rcases bestFree_free except n xs (k + 1) b hb with h | ⟨i, y, rfl, hi, hy⟩
      · exact .inl h
      · exact .inr ⟨i + 1, y, by omega, by simpa using hi, hy⟩
    unfold bestFree at h
    split at h
    · next hx =>
      have hnew : (∃ p, some (x.program, k) = some (p, n)) ∨ (∃ i y, n = k + i ∧ (x :: xs)[i]? = some y ∧ y.isFree = true) →
          ∃ i y, n = k + i ∧ (x :: xs)[i]? = some y ∧ y.isFree = true := by
        rintro (⟨p, hp⟩ | h)
        · simp only [Option.some.injEq, Prod.mk.injEq] at hp
          exact ⟨0, x, by omega, rfl, hx.1⟩
        · exact h
      split at h
      · exact .inr (hnew (hrest _ h))
      · split at h
        · exact .inr (hnew (hrest _ h))
        · exact hrest _ h
    · exact hrest _ h

/-- The slot allocated is FREE (R31). -/
theorem allocate_free (s : State) (except : Option Nat) (n : Nat) (h : s.allocate except = some n) :
    ∃ x, s.slot n = some x ∧ x.isFree = true := by
  rcases bestFree_free except n s.slots 1 none h with ⟨p, hp⟩ | ⟨i, x, rfl, hx, hfree⟩
  · cases hp
  · exact ⟨x, by rw [Nat.add_comm, slot_succ, hx], hfree⟩

/-- A slot made the home of a record whose stop had none keeps the law of R30. -/
theorem slotLaw_newHome (s : State) (n : Nat) (r : Record) (f : Slot → Slot) (hf : ∀ x, (f x).record? = some r)
    (hr : s.recOf r.stop = none) (hs : s.slotLaw) : (s.modSlot n f).slotLaw := by
  rw [slotLaw_iff] at hs ⊢
  refine ⟨(length_modSlot s n f).trans hs.1, ?_⟩
  have hnone := (recOf_none_iff s r.stop).1 hr
  have hcases : ∀ m a, (s.modSlot n f).isHome m a → (m ≠ n ∧ s.isHome m a) ∨ (m = n ∧ a = r.stop) := by
    rintro m a ⟨y, hy, hya⟩
    by_cases hm : m = n
    · rw [slot_modSlot, if_pos hm] at hy
      obtain ⟨x, -, rfl⟩ := Option.map_eq_some_iff.1 hy
      exact .inr ⟨hm, ((holds_of_record? (hf x) a).1 hya).symm⟩
    · exact .inl ⟨hm, (isHome_modSlot_of_ne s f hm a).1 ⟨y, hy, hya⟩⟩
  intro a b stop ha hb
  rcases hcases a stop ha with ⟨-, ha⟩ | ⟨han, hae⟩ <;> rcases hcases b stop hb with ⟨-, hb⟩ | ⟨hbn, hbe⟩
  · exact hs.2 a b stop ha hb
  · exact absurd (hbe ▸ ha) (hnone a)
  · exact absurd (hae ▸ hb) (hnone b)
  · exact han.trans hbn.symm

theorem Verdict.ordNew (a b c : Nat) (d : OrderKind) (e f g : Option Nat) (s : State) : Verdict s (judgeOrdNew a b c d e f g s) := by
  refine .ite (fun _ => .ite (fun _ => .error s _) fun hr => .ite (fun _ => .error s _) fun _ => ?_) fun _ => .error s _
  split
  · exact .error s _
  · next n _ =>
    refine .taken _ _ (Lawful.trans ?_ (.enqueue _ _))
    refine .of_slots s _ (slotLaw_newHome s n (newRecord a b c d e f g) _ (fun _ => rfl) ?_)
    show s.recOf a = none
    simpa using hr

theorem Record.setDrop_stop (k : Nat) (tank cap preset : Option Nat) (noCap noPreset : Bool) (r : Record) :
    (r.setDrop k tank cap preset noCap noPreset).stop = r.stop := by
  unfold Record.setDrop; split <;> rfl

theorem Verdict.removal (s : State) (n stop : Nat) (condemned : Bool) (plan : Plan) : Verdict s (removal s n stop condemned plan) :=
  .ite (fun _ => .ok (.discard s n stop)) fun _ => .ok (.askRelease s n)

theorem Lawful.relimit (s : State) (l : Line) : Lawful s (s.relimit l) := by
  unfold State.relimit
  split
  · split
    · exact .modLine' s l _ (valveLaw_of_eq rfl rfl rfl) rfl
    · exact .refl s
  · exact .refl s

/-- The limit computed again leaves a line's state. -/
theorem relimit_st (s : State) (l : Line) : ((s.relimit l).line l).st = (s.line l).st := by
  unfold State.relimit
  split
  · split
    · simp
    · rfl
  · rfl

@[simp] theorem line_changeRec (s : State) (stop : Nat) (f : Record → Record) (l : Line) :
    (s.changeRec stop f).line l = s.line l := by
  simp [State.changeRec, State.line]

theorem Verdict.boundAmend (l : Line) (stop : Nat) (a : Amend) (r : Record) (s : State) :
    Verdict s (judgeBoundAmend l stop a r s) := by
  have hchange : Lawful s (s.changeRec stop (Amend.apply a)) := .changeRec s stop _ fun _ => rfl
  unfold judgeBoundAmend
  split
  · exact .taken _ _ hchange
  · next hst =>
    exact .taken _ _ ((hchange.trans (.relimit _ l)).trans (.stageDecisions _ l (by rw [relimit_st, line_changeRec, hst])))
  · exact .taken _ _ (hchange.trans (.relimit _ l))
  · exact .error s _

theorem Verdict.ordAmend (stop : Nat) (a : Amend) (s : State) : Verdict s (judgeOrdAmend stop a s) := by
  refine .withRecord stop _ fun r _ => .ite (fun _ => .error s _) fun _ => .ite (fun _ => .error s _) fun _ =>
    .ite (fun _ => .taken _ _ (.changeRec s stop _ fun _ => rfl)) fun _ => .ite (fun _ => ?_) fun _ => .error s _
  split
  · exact .boundAmend _ stop a r s
  · exact .error s _

theorem Verdict.moveState (before after : RecState) (stop : Nat) (s : State) : Verdict s (moveState before after stop s) :=
  .withRecord stop _ fun _ _ => .ite (fun _ => .taken _ _ (.changeRec s stop _ (by exact fun _ => rfl))) fun _ => .error s _

theorem Verdict.ordCancel (stop : Nat) (s : State) : Verdict s (judgeOrdCancel stop s) := by
  refine .withRecord stop _ fun r _ => .ite (fun _ => ?_) fun _ => .error s _
  split
  · exact .removal s _ _ _ _
  · exact .error s _

theorem Verdict.ordRetire (target : Target) (s : State) : Verdict s (judgeOrdRetire target s) := by
  unfold judgeOrdRetire
  split
  · refine .withRecord _ _ fun r _ => .ite (fun _ => ?_) fun _ => .error s _
    split
    · exact .removal s _ _ _ _
    · exact .error s _
  · split
    · exact .ite (fun _ => .removal s _ _ _ _) fun _ => .error s _
    · exact .removal s _ _ _ _
    · exact .error s _

theorem Verdict.ordGet (target : Target) (s : State) : Verdict s (judgeOrdGet target s) := by
  unfold judgeOrdGet
  split
  · exact .withRecord _ _ fun _ _ => .report _ (.refl s)
  · split
    · exact .report _ (.refl s)
    · exact .report _ (.refl s)
    · exact .error s _

theorem Verdict.tktGet (stop : Nat) (s : State) : Verdict s (judgeTktGet stop s) := by
  refine .withRecord stop _ fun r _ => ?_
  split
  · exact .report _ (.refl s)
  · exact .error s _

/-! ### Line commands -/

/-- A line taken out of a state with closed commands, and put into another, obeys R96. -/
theorem Lawful.arm (s : State) (l : Line) (stop comp : Nat) (purge : Bool) (h : (s.line l).st = .idle) :
    Lawful s (s.arm l stop comp purge) := by
  unfold State.arm
  refine ((Lawful.changeRec s stop (Record.boundTo l comp purge) fun _ => rfl).trans
    (.modLine _ l _ (fun hv => ?_) fun ha => ?_)).trans (.joinPump _ l comp)
  · rw [line_changeRec] at hv ⊢
    obtain ⟨hlow, hhigh⟩ := valveLaw.closed hv (by simp [h]) (by simp [h])
    exact valveLaw_closed hlow hhigh
  · have hset : (s.changeRec stop (Record.boundTo l comp purge)).settings = s.settings := by simp [State.changeRec]
    have := antic_items_le ha l
    rwa [State.items, hset] at this

theorem Verdict.lnArm (line stop : Nat) (comp : Option Nat) (purge : Bool) (s : State) :
    Verdict s (judgeLnArm line stop comp purge s) := by
  refine .withLine line fun l => .ite (fun _ => .error s _) fun _ => .ite (fun _ => .error s _) fun hst => ?_
  split
  · exact .error s _
  · refine .ite (fun _ => .error s _) fun _ => ?_
    split
    · exact .error s _
    · exact .taken _ _ (.arm s l _ _ _ (by simpa using hst))

theorem Lawful.release (s : State) (l : Line) : Lawful s (s.release l) := by
  unfold State.release
  split
  · exact (Lawful.disarm s l _).trans (.setAttention _ l)
  · exact .disarm s l _

theorem Verdict.lnDisarm (line : Nat) (s : State) : Verdict s (judgeLnDisarm line s) := by
  refine .withLine line fun l => .ite (fun _ => ?_) fun _ => .error s _
  split
  · exact .taken _ _ (.release s l)
  · exact .error s _

theorem Lawful.start (s : State) (l : Line) (stop : Nat) (r : Record) (limit : Limit) : Lawful s (s.start l stop r limit) :=
  (((Lawful.changeRec s stop (Record.started (s.priceOf l r)) fun _ => rfl).trans (.beginRun _ l _)).trans
    (.modLine' _ l _ (valveLaw_of_eq rfl rfl rfl) rfl)).trans (.enterFlowing _ l _)

theorem Verdict.lnStart (line : Nat) (s : State) : Verdict s (judgeLnStart line s) := by
  refine .withLine line fun l => .ite (fun _ => .error s _) fun _ => .ite (fun _ => .error s _) fun _ => ?_
  split
  · exact .error s _
  · split
    · exact .error s _
    · exact .flowChecks l (.ite (fun _ => .error s _) fun _ => .ite (fun _ => .error s _) fun _ => .taken _ _ (.start s l _ _ _))

theorem Lawful.next (s : State) (l : Line) (stop n : Nat) (limit : Limit) : Lawful s (s.next l stop n limit) := by
  refine ((Lawful.changeRec s stop (fun r => { r with drops := modNth1 r.drops n Drop.activate }) fun _ => rfl).trans
    (.modLine' _ l _ ?_ rfl)).trans (.enterFlowing _ l _)
  exact valveLaw_of_eq rfl rfl rfl

theorem Verdict.lnNext (line : Nat) (s : State) : Verdict s (judgeLnNext line s) := by
  refine .withLine line fun l => .ite (fun _ => .error s _) fun _ => .ite (fun _ => .error s _) fun _ => ?_
  split
  · exact .error s _
  · split
    · exact .flowChecks l (.ite (fun _ => .error s _) fun _ => .taken _ _ (.next s l _ _ _))
    · exact .error s _

theorem Verdict.lnResume (line : Nat) (s : State) : Verdict s (judgeLnResume line s) :=
  .withLine line fun l => .ite (fun _ => .error s _) fun _ => .ite (fun _ => .error s _) fun _ => .ite (fun _ => .error s _)
    fun _ => .flowChecks l (.ite (fun _ => .error s _) fun _ => .report _ (.enterFlowing s l _))

theorem Verdict.stopNow (s : State) (l : Line) (i : StopIntent) : Verdict s (stopNow s l i) := .report _ (.beginStop s l i)

theorem Verdict.lnPause (line : Nat) (s : State) : Verdict s (judgeLnPause line s) :=
  .withLine line fun l => .ite (fun _ => .stopNow s l _) fun _ => .error s _

theorem Verdict.endNow {s : State} (e : RunEnd) (l : Line) (h : Lawful s e.st) : Verdict s (endNow e l) :=
  .ok (h.trans (.byCommand e l))

theorem Verdict.endDropInPause (s : State) (l : Line) : Verdict s (endDropInPause s l) := by
  refine .ite (fun _ => .error s _) fun _ => .ite (fun _ => ?_) fun _ => .endNow _ l (.closeRun s l _)
  split
  · exact .error s _
  · exact .ite (fun _ => .error s _) fun _ => .ite (fun _ => .endNow _ l (.closeRun s l _)) fun _ =>
      .taken _ _ ((Lawful.endDrop s l _).trans (.enterPaused _ l _))

theorem Verdict.lnEnddrop (line : Nat) (s : State) : Verdict s (judgeLnEnddrop line s) := by
  refine .withLine line fun l => ?_
  split
  · exact .ite (fun _ => .error s _) fun _ => .stopNow s l _
  · exact .endDropInPause s l
  · exact .ite (fun _ => .error s _) fun _ => .error s _
  · exact .ite (fun _ => .error s _) fun _ => .error s _
  · exact .error s _

theorem Verdict.lnClose (line : Nat) (s : State) : Verdict s (judgeLnClose line s) := by
  refine .withLine line fun l => ?_
  have hintent : Lawful s (s.modLine l fun c => { c with intent := some .close }) :=
    .modLine' s l _ (valveLaw_of_eq rfl rfl rfl) rfl
  split
  · exact .ite (fun _ => .error s _) fun _ => .ok (.beginStop s l _)
  · exact .ite (fun _ => .error s _) fun _ => .ok hintent
  · exact .ite (fun _ => .error s _) fun _ => .ok hintent
  · exact .ite (fun _ => .error s _) fun _ => .endNow _ l (.closeRun s l _)
  · exact .error s _

theorem Lawful.runFrom (s : State) (l : Line) (k : RunKind) (comp : Nat) (limit : Limit) : Lawful s (s.runFrom l k comp limit) :=
  (((Lawful.beginRun s l k).trans (.modLine _ l _ (valveLaw_of_eq rfl rfl rfl) fun h => antic_items_le h l)).trans
    (.enterFlowing _ l _)).trans (.joinPump _ l comp)

theorem Verdict.runChecks (line : Nat) (comp : Option Nat) (s : State) {k : Line → Nat → Except Code Taken}
    (h : ∀ l c, Verdict s (k l c)) : Verdict s (runChecks line comp s k) := by
  refine .withLine line fun l => ?_
  split
  · exact .error s _
  · exact .ite (fun _ => .error s _) fun _ => .ite (fun _ => .error s _) fun _ => h _ _

theorem Verdict.lnRunPrime (line : Nat) (comp : Option Nat) (s : State) : Verdict s (judgeLnRunPrime line comp s) := by
  refine .runChecks line comp s fun l c => .ite (fun _ => .error s _) fun _ => .ite (fun _ => .error s _) fun _ =>
    .ite (fun _ => .error s _) fun _ => .ite (fun _ => .error s _) fun _ => ?_
  split
  · exact .error s _
  · exact .ite (fun _ => .error s _) fun _ => .ite (fun _ => .error s _) fun _ => .ite (fun _ => .error s _) fun _ =>
      .ite (fun _ => .error s _) fun _ => .report _ (.runFrom s l _ c _)

theorem Verdict.lnRunProve (line : Nat) (comp : Option Nat) (s : State) : Verdict s (judgeLnRunProve line comp s) :=
  .runChecks line comp s fun l c => .ite (fun _ => .error s _) fun _ => .ite (fun _ => .error s _) fun _ =>
    .ite (fun _ => .error s _) fun _ => .ite (fun _ => .error s _) fun _ => .ite (fun _ => .error s _) fun _ =>
      .report _ (.runFrom s l _ c _)

theorem Lawful.setupTo (s : State) (l : Line) (st : LineState) (hf : (s.line l).st ≠ .flowing) (hs : (s.line l).st ≠ .stopping) :
    Lawful s (s.setupTo l st) :=
  (Lawful.modLine' s l (fun c => { c with st := st })
    (fun hv => have hc := valveLaw.closed hv hf hs; valveLaw_closed hc.1 hc.2) rfl).trans (.modMeter _ l _ countLaw_cleared)

theorem Verdict.lnSetup (line : Nat) (s : State) : Verdict s (judgeLnSetup line s) := by
  refine .withLine line fun l => ?_
  split
  · next h => exact .report _ (.setupTo s l _ (by simp [h]) (by simp [h]))
  · next h => exact .ite (fun _ => .report _ (.setupTo s l _ (by simp [h]) (by simp [h]))) fun _ => .error s _
  · exact .error s _

theorem Verdict.lnAck (line : Nat) (s : State) : Verdict s (judgeLnAck line s) := by
  refine .withLine line fun l => .ite (fun _ => .error s _) fun h => .ite (fun _ => .error s _) fun _ => .report _ ?_
  have hst : (s.line l).st = .fault := by simpa using h
  refine (Lawful.modLine' s l (fun c => { c with st := .idle }) (fun hv => ?_) rfl).trans (.modMeter _ l _ countLaw_cleared)
  obtain ⟨hlow, hhigh⟩ := valveLaw.closed hv (by simp [hst]) (by simp [hst])
  exact valveLaw_closed hlow hhigh

/-! ### Truck, calibration, route and link commands -/

theorem Verdict.cmpLoad (a b c : Nat) (d : Bool) (s : State) : Verdict s (judgeCmpLoad a b c d s) := by
  have hload : ∀ f, Verdict s (loadTaken s a f) := fun f => .blockTaken _ _ (.modLoad s _)
  exact .ite (fun _ => .error s _) fun _ => .ite (fun _ => .error s _) fun _ =>
    .ite (fun _ => .ite (fun _ => .error s _) fun _ => hload _) fun _ =>
      .ite (fun _ => .error s _) fun _ => .ite (fun _ => .error s _) fun _ => hload _

theorem Verdict.cmpGet (a : Option Nat) (s : State) : Verdict s (judgeCmpGet a s) := by
  unfold judgeCmpGet
  split
  · exact .report _ (.refl s)
  · exact .ite (fun _ => .report _ (.refl s)) fun _ => .error s _

theorem Verdict.hoseEmpty (line : Nat) (s : State) : Verdict s (judgeHoseEmpty line s) :=
  .withLine line fun _ => .ite (fun _ => .blockTaken _ _ (.modLoad s _)) fun _ => .error s _

theorem Verdict.prdPut (code : Nat) (f : PrdFields) (s : State) : Verdict s (judgePrdPut code f s) :=
  .ite (fun _ => .blockTaken _ _ (.modSettings s _ fun h => h.2.2.1)) fun _ => .error s _

theorem Verdict.prdGet (a : Option Nat) (s : State) : Verdict s (judgePrdGet a s) := by
  unfold judgePrdGet
  split
  · exact .report _ (.refl s)
  · exact .ite (fun _ => .report _ (.refl s)) fun _ => .error s _

/-- A clamped value is at most the upper bound. -/
theorem clamp_le {lo hi : Nat} (h : lo ≤ hi) (x : Int) : clamp lo hi x ≤ hi := by
  unfold clamp; split
  · exact h
  · split <;> omega

/-- A setting stored keeps the bound of the anticipations. -/
theorem anticLaw_putSetting (i : SetItem) (x : Settings) (h : x.anticLaw) : (putSetting x i).anticLaw := by
  cases i
  case antic1 v => exact anticLaw_modify h .one _ (clamp_le (by decide) v)
  case antic2 v => exact anticLaw_modify h .two _ (clamp_le (by decide) v)
  all_goals exact h

theorem anticLaw_putSettings (items : List SetItem) : ∀ x : Settings, x.anticLaw → (items.foldl putSetting x).anticLaw := by
  induction items with
  | nil => exact fun _ h => h
  | cons i items ih => exact fun x h => ih _ (anticLaw_putSetting i x h)

theorem Verdict.setPut (items : List SetItem) (s : State) : Verdict s (judgeSetPut items s) :=
  .ite (fun _ => .error s _) fun _ => .blockTaken _ _ (.modSettings s _ fun h => anticLaw_putSettings items _ h.2.2.1)

theorem Verdict.setGet (a : Option Nat) (s : State) : Verdict s (judgeSetGet a s) := by
  unfold judgeSetGet
  split
  · exact .report _ (.refl s)
  · refine .withLine _ fun l => ?_
    split <;> exact .report _ (.refl s)

theorem Verdict.calPut {s t : State} (valuesOk free : Bool) (fields : List Tok) (h : Lawful s t) :
    Verdict s (calPut s valuesOk free t fields) :=
  .ite (fun _ => .error s _) fun _ => .ite (fun _ => .error s _) fun _ => .ite (fun _ => .error s _) fun _ =>
    .blockTaken _ _ (h.trans (.modSettings t _ fun h => h.2.2.1))

/-- A line's items changed without its anticipation. -/
theorem Lawful.modItems (s : State) (l : Line) (f : LineItems → LineItems) (hf : ∀ i, (f i).antic = i.antic) :
    Lawful s (s.modSettings (Settings.modItems l f)) :=
  .modSettings s _ fun h => anticLaw_modify h.2.2.1 l f (Nat.le_trans (Nat.le_of_eq (hf _)) (antic_items_le h l))

theorem Lawful.writePr (s : State) (l : Line) (pr : Nat) : Lawful s (s.writePr l pr) := by
  refine (Lawful.modItems s l (fun i => { i with pr := some pr }) fun _ => rfl).trans (.modMeter _ l _ fun h => ?_)
  split
  · obtain ⟨h1, -, h3⟩ := h
    exact ⟨h1, Nat.zero_le _, h3⟩
  · exact h

/-- A judgement of CAL.PUT that first reads its line. -/
theorem Verdict.calLine {s : State} (line : Nat) {k : Line → Except Code Taken} (h : ∀ l, Verdict s (k l)) :
    Verdict s (match Line.ofNum line with
      | none => Machine.calPut s false true s []
      | some l => k l) := by
  split
  · exact .calPut _ _ _ (.refl s)
  · exact h _

theorem Verdict.calPutPr (line pr : Nat) (s : State) : Verdict s (judgeCalPutPr line pr s) :=
  .calLine line fun l => .calPut _ _ _ (.writePr s l pr)

theorem Verdict.calPutHose (line volume : Nat) (s : State) : Verdict s (judgeCalPutHose line volume s) :=
  .calLine line fun l => .calPut _ _ _ (.modItems s l _ fun _ => rfl)

theorem Verdict.calPutSet (line product : Nat) (bands : Option CalSet) (s : State) :
    Verdict s (judgeCalPutSet line product bands s) :=
  .calLine line fun l => .calPut _ _ _ (.modSettings s (Settings.putSet l product bands) fun h => h.2.2.1)

theorem Verdict.calPutAlpha (product alpha : Nat) (s : State) : Verdict s (judgeCalPutAlpha product alpha s) :=
  .calPut _ _ _ (.modSettings s _ fun h => h.2.2.1)

theorem Verdict.calPutComp (product : Nat) (on : Bool) (s : State) : Verdict s (judgeCalPutComp product on s) :=
  .calPut _ _ _ (.modSettings s _ fun h => h.2.2.1)

theorem Verdict.calPutCap (comp capacity : Nat) (s : State) : Verdict s (judgeCalPutCap comp capacity s) :=
  .calPut _ _ _ (.modSettings s _ fun h => h.2.2.1)

theorem Verdict.calGet (a : Option (Nat × Nat)) (s : State) : Verdict s (judgeCalGet a s) := by
  unfold judgeCalGet
  split
  · exact .report _ (.refl s)
  · exact .withLine _ fun l => .ite (fun _ => .report _ (.refl s)) fun _ => .error s _

theorem Verdict.rteOpen (a : Nat) (s : State) : Verdict s (judgeRteOpen a s) :=
  .ite (fun _ => .error s _) fun _ => .ite (fun _ => .error s _) fun _ => .ite (fun _ => .error s _) fun _ =>
    .blockTaken _ _ (.modRoute s _)

theorem Verdict.rteClose (s : State) : Verdict s (judgeRteClose s) :=
  .ite (fun _ => .error s _) fun _ => .ite (fun _ => .blockTaken _ _ (.modRoute s _)) fun _ => .error s _

theorem Verdict.store (a : Option Nat) (s : State) : Verdict s (judgeStore a s) := by
  unfold judgeStore
  split
  · exact .report _ (.refl s)
  · refine .ite (fun _ => ?_) fun _ => .error s _
    split
    · exact .report _ (.refl s)
    · exact .error s _

/-- Every command keeps the laws where it is taken. -/
theorem Verdict.command (i : Instr) (s : State) : Verdict s (judgeCommand i s) := by
  cases i
  case ordNew => exact .ordNew ..
  case ordDrop =>
    exact .withRecord _ _ fun r _ => .ite (fun _ => .error s _) fun _ =>
      .ite (fun _ => .taken _ _ (.changeRec s _ _ (Record.setDrop_stop _ _ _ _ _ _))) fun _ => .error s _
  case ordDropClear =>
    exact .withRecord _ _ fun r _ => .ite (fun _ => .error s _) fun _ =>
      .ite (fun _ => .taken _ _ (.changeRec s _ _ fun _ => rfl)) fun _ => .error s _
  case ordGet => exact .ordGet ..
  case ordFind =>
    exact .ite (fun _ => .ite (fun _ => .error s _) fun _ => .report _ (.refl s)) fun _ => .error s _
  case ordList => exact .ite (fun _ => .report _ (.refl s)) fun _ => .error s _
  case ordAmend => exact .ordAmend ..
  case ordHold => exact .moveState ..
  case ordRelease => exact .moveState ..
  case ordCancel => exact .ordCancel ..
  case ordRetire => exact .ordRetire ..
  case tktGet => exact .tktGet ..
  case tktIssue =>
    exact .withRecord _ _ fun r _ => .ite (fun _ => .taken _ _ (.changeRec s _ _ fun _ => rfl)) fun _ => .error s _
  case lnArm => exact .lnArm ..
  case lnDisarm => exact .lnDisarm ..
  case lnStart => exact .lnStart ..
  case lnNext => exact .lnNext ..
  case lnResume => exact .lnResume ..
  case lnPause => exact .lnPause ..
  case lnEnddrop => exact .lnEnddrop ..
  case lnClose => exact .lnClose ..
  case lnRunPrime => exact .lnRunPrime ..
  case lnRunProve => exact .lnRunProve ..
  case lnSetup => exact .lnSetup ..
  case lnAck => exact .lnAck ..
  case lnStat => exact .withLine _ fun _ => .report _ (.refl s)
  case cmpLoad => exact .cmpLoad ..
  case cmpGet => exact .cmpGet ..
  case hoseEmpty => exact .hoseEmpty ..
  case prdPut => exact .prdPut ..
  case prdGet => exact .prdGet ..
  case setPut => exact .setPut ..
  case setGet => exact .setGet ..
  case calPutPr => exact .calPutPr ..
  case calPutHose => exact .calPutHose ..
  case calPutSet => exact .calPutSet ..
  case calPutAlpha => exact .calPutAlpha ..
  case calPutComp => exact .calPutComp ..
  case calPutCap => exact .calPutCap ..
  case calGet => exact .calGet ..
  case rteOpen => exact .rteOpen ..
  case rteClose => exact .rteClose ..
  case rteTotals => exact .report _ (.refl s)
  case clkSet =>
    exact .ite (fun _ => .report _ (.of_eq rfl rfl rfl rfl rfl rfl rfl rfl rfl)) fun _ => .error s _
  case clkGet => exact .report _ (.refl s)
  case status => exact .report _ (.of_eq rfl rfl rfl rfl rfl rfl rfl rfl rfl)
  case ident => exact .report _ (.refl s)
  case store => exact .store ..
  case capClear => exact .report _ (.of_eq rfl rfl rfl rfl rfl rfl rfl rfl rfl)
  all_goals exact .error s _

end Sys2Proof.Machine
end

