-- ==== Sys2Proof/Proofs/EventLaws.lean ====
section
/-! PROOFS. The laws of a state through the arrival of a line and every event. -/

open Sys2Proof Sys2Proof.Machine

namespace Sys2Proof.Machine

/-! ## The arrival of a line -/

theorem Lawful.of_rx (s : State) (r : Receiver) : Lawful s { s with rx := r } := .of_eq rfl rfl rfl rfl rfl rfl rfl rfl rfl

theorem Lawful.wakeUnseen (s : State) : Lawful s s.wakeUnseen := (Lawful.wake s _).trans (.drew _ _)

theorem Lawful.judged {s : State} (w : CmdWord) {e : Except Code Taken} (h : Verdict s e) : Lawful s (s.judged w e) := by
  unfold State.judged
  split
  · exact .of_eq rfl rfl rfl rfl rfl rfl rfl rfl rfl
  · exact (h.lawful _ rfl).trans (.of_eq rfl rfl rfl rfl rfl rfl rfl rfl rfl)

theorem Lawful.arrive (w : CmdWord) {judge : State → Except Code Taken} (h : ∀ u, Verdict u (judge u)) (s : State) :
    Lawful s (arrive w judge s) := by
  unfold Machine.arrive
  split
  · split
    · exact .of_rx s _
    · split
      · exact (Lawful.of_rx s .waiting).trans (.ready _ _)
      · exact (Lawful.of_rx s .waiting).trans (.judged w (h _))
  · split
    · exact .wakeUnseen s
    · exact .refl s

theorem Verdict.fields (w : CmdWord) (fs : List Field) (s : State) : Verdict s (judgeFields w fs s) := by
  unfold judgeFields
  split
  · exact .command _ s
  · exact .ite (fun _ => .calPut _ _ _ (.refl s)) fun _ => .error s _

theorem Lawful.judgeLine (chars : List Byte) (s : State) : Lawful s (judgeLine chars s) := by
  have haway : ∀ word c, Lawful s (s.turnAway word c) := fun _ _ => .ready s _
  unfold Machine.judgeLine
  dsimp only
  split
  · exact haway _ _
  · split
    · exact haway _ _
    · split
      · exact haway _ _
      · split
        · exact haway _ _
        · split
          · exact haway _ _
          · split
            · exact haway _ _
            · exact .judged _ (.fields _ _ s)

theorem Lawful.carriageReturn (s : State) : Lawful s s.carriageReturn := by
  unfold State.carriageReturn
  split
  · exact .of_rx s _
  · exact (Lawful.of_rx s .waiting).trans (.judgeLine _ _)
  · exact .of_rx s _

theorem Lawful.wakeByCharacter (s : State) (samples : Pair Reading) : Lawful s (s.wakeByCharacter samples) :=
  (Lawful.wake s samples).trans (.of_rx _ _)

theorem Lawful.wakeByCharacterUnseen (s : State) : Lawful s s.wakeByCharacterUnseen :=
  (Lawful.wakeByCharacter s _).trans (.drew _ _)

theorem Lawful.lineSent (s : State) : Lawful s s.lineSent := by
  unfold State.lineSent
  split
  · exact .refl s
  · exact .of_eq rfl rfl rfl rfl rfl rfl rfl rfl rfl

theorem Lawful.beginBreak (s : State) (samples : Pair Reading) : Lawful s (s.beginBreak samples) := by
  unfold State.beginBreak
  refine Lawful.trans ?_ (.of_rx _ _)
  split
  · exact .wake s _
  · exact .refl s

/-! ## Events -/

/-! ### Meter lines -/

theorem countLaw_toggle (p : PulserPhase) {m : Meter} (h : m.countLaw) : (m.toggle p).countLaw := by cases p <;> exact h

theorem countLaw_elapse (us : Nat) {m : Meter} (h : m.countLaw) : (m.elapse us).countLaw := by
  unfold Meter.elapse
  split
  · split <;> exact h
  · split <;> exact h
  · exact h

theorem countLaw_gateEdge {m : Meter} (h : m.countLaw) : m.gateEdge.countLaw := by
  obtain ⟨h1, h2, -, h4⟩ := h
  exact ⟨h1, h2, Nat.min_le_left _ _, h4⟩

theorem countLaw_batchEdge (forward : Bool) {m : Meter} (h : m.countLaw) : (m.batchEdge forward).countLaw := by
  cases forward <;> exact h

theorem countLaw_measureEdge (forward rise : Bool) (pr : Nat) (band : Nat → Nat) {m : Meter} (h : m.countLaw) :
    (m.measureEdge forward rise pr band).countLaw := by
  unfold Meter.measureEdge
  split
  · exact h
  · split
    · split <;> exact h
    · exact h

theorem countLaw_creepEdge (forward : Bool) {m : Meter} (h : m.countLaw) : (m.creepEdge forward).countLaw := by
  obtain ⟨h1, h2, h3⟩ := h
  refine ⟨h1, ?_, h3⟩
  unfold Meter.creepEdge
  dsimp only
  split
  · exact Nat.min_le_left _ _
  · omega

theorem Lawful.creditEdge (s : State) (l : Line) (forward rise : Bool) : Lawful s (s.creditEdge l forward rise) :=
  (Lawful.modMeter s l (fun m => (m.batchEdge forward).measureEdge forward rise (s.prOf l) (s.bandFor l)) fun h =>
    countLaw_measureEdge _ _ _ _ (countLaw_batchEdge forward h)).trans (.drew _ _)

theorem Lawful.restEdge (s : State) (l : Line) (forward : Bool) : Lawful s (s.restEdge l forward) := by
  have h1 : Lawful s (s.modMeter l (Meter.creepEdge forward)) := .modMeter s l _ (countLaw_creepEdge _)
  unfold State.restEdge
  dsimp only
  split
  · refine Lawful.trans (Lawful.trans ?_ (.faultLatched _ l _)) (.drew _ _)
    exact h1.trans (.modMeter _ l _ fun h => h)
  · exact h1.trans (.drew _ _)

theorem Lawful.edge (s : State) (l : Line) (p : PulserPhase) (us : Nat) : Lawful s (s.edge l p us) := by
  have h1 : Lawful s ((s.timeRow (.edge l)).modMeter l (Meter.toggle p)) :=
    (Lawful.timeRow s _).trans (.modMeter _ l _ (countLaw_toggle p))
  unfold State.edge
  dsimp only
  split
  · exact h1
  · split
    · have h2 := h1.trans (.modMeter _ l _ (countLaw_elapse (max us 1)))
      split
      · exact h2.trans (.modMeter _ l _ countLaw_gateEdge)
      · exact h2.trans (.creditEdge _ l _ _)
    · exact h1.trans (.restEdge _ l _)

theorem Lawful.phaseError (s : State) (l : Line) : Lawful s (s.phaseError l) := by
  have h1 : Lawful s (s.modMeter l (fun m => { m.toggleBoth with quiet := 0 })) := by
    refine .modMeter s l _ fun ⟨h1, h2, h3, h4, h5, h6, _⟩ => ⟨h1, h2, h3, h4, h5, h6, Nat.zero_le _⟩
  unfold State.phaseError
  dsimp only
  split
  · exact h1
  · have h2 := h1.trans (.modMeter _ l (fun m => { m with phaseErrors := satAdd 65535 m.phaseErrors 1 })
      fun ⟨_, h⟩ => ⟨Nat.min_le_left _ _, h⟩)
    split
    · refine Lawful.trans ?_ (.faultLatched _ l _)
      exact h2.trans (.modMeter _ l _ fun h => h)
    · exact h2

/-! ### Timers -/

theorem Lawful.modTimers (s : State) (l : Line) (f : Timers → Timers) : Lawful s (s.modTimers l f) :=
  .modLine' s l _ (valveLaw_of_eq rfl rfl rfl) rfl

theorem Lawful.windowEnd (s : State) (l : Line) : Lawful s (s.windowEnd l) := by
  have hfirst : Lawful s ((s.convert l).modTimers l (fun t => { t with window := some 100000 })) :=
    (Lawful.convert s l).trans (.modTimers _ l _)
  have hif : ∀ (u v : State) (p : Prop) [Decidable p], Lawful s u → (p → Lawful u v) → Lawful s (if p then v else u) := by
    intro u v p _ hu hv
    split
    · exact hu.trans (hv ‹_›)
    · exact hu
  unfold State.windowEnd
  refine hif _ _ _ (hif _ _ _ (hif _ _ _ (hif _ _ _ hfirst fun _ => ?_) fun _ => ?_) fun _ => ?_) fun h => ?_
  · exact .modTimers _ l _
  · exact .beginStop _ l _
  · exact .modLine' _ l _ (valveLaw_cutOrRecord _ _) (antic_cutOrRecord _ _)
  · exact .decideHigh _ l h

theorem Lawful.noFlowEnd (s : State) (l : Line) : Lawful s (s.noFlowEnd l) := by
  have h1 : Lawful s (s.modTimers l (fun t => { t with noFlow := none })) := .modTimers s l _
  unfold State.noFlowEnd
  dsimp only
  split
  · exact h1.trans (.beginStop _ l _)
  · split
    · exact h1.trans (.modLine' _ l _ (valveLaw_of_eq rfl rfl rfl) rfl)
    · exact h1
  · exact h1

theorem Lawful.deadmanEnd (s : State) (l : Line) : Lawful s (s.deadmanEnd l) :=
  ((Lawful.modTimers s l (fun t => { t with deadman := none })).trans
    (.modLine' _ l (LineCtx.cutNow .deadman) (valveLaw_cutNow _ _) (antic_cutNow _ _))).trans
    (.of_eq rfl rfl rfl rfl rfl rfl rfl rfl rfl)

theorem Lawful.autoCloseEnd (s : State) (l : Line) : Lawful s (s.autoCloseEnd l) := by
  have h1 : Lawful s (s.modTimers l (fun t => { t with autoClose := none })) := .modTimers s l _
  unfold State.autoCloseEnd
  dsimp only
  split
  · exact h1.trans (.modLine' _ l _ (valveLaw_of_eq rfl rfl rfl) rfl)
  · exact (h1.trans (.closeRun _ l _)).trans (.report _ l _)

/-! ### Inputs -/

theorem Lawful.modInputs (s : State) (f : Inputs → Inputs) : Lawful s (s.modInputs f) :=
  .of_eq rfl rfl rfl rfl rfl rfl rfl rfl rfl

theorem Lawful.cutBoth (s : State) (x : CutCause) : Lawful s (s.modBothLines (LineCtx.cutOrRecord x)) :=
  ⟨⟨rfl, slotLaw_of_slots rfl, id, fun h => ⟨valveLaw_cutOrRecord x _ h.1, valveLaw_cutOrRecord x _ h.2⟩,
    fun h => ⟨(antic_cutOrRecord x _).symm ▸ h.1, (antic_cutOrRecord x _).symm ▸ h.2.1, h.2.2⟩, id⟩, rfl⟩

theorem Lawful.inputEvent (s : State) (changes : Bool) (f : Inputs → Inputs) {acts : State → State}
    (h : ∀ u, Lawful u (acts u)) : Lawful s (inputEvent changes f acts s) := by
  unfold Machine.inputEvent
  split
  · split
    · exact (Lawful.modInputs s f).trans (h _)
    · exact .modInputs s f
  · exact .refl s

theorem Lawful.ignitionRises (s : State) (samples : Pair Reading) : Lawful s (s.ignitionRises samples) := by
  have h : Lawful s { s with ignitionLow := 0, sleepDue := false } := .of_eq rfl rfl rfl rfl rfl rfl rfl rfl rfl
  unfold State.ignitionRises
  dsimp only
  split
  · exact h.trans (.wake _ _)
  · exact h

theorem Lawful.pressDeadman (s : State) : Lawful s s.pressDeadman :=
  ((Lawful.modTimers s .one _).trans (.modTimers _ .two _)).trans (.of_eq rfl rfl rfl rfl rfl rfl rfl rfl rfl)

/-! ### Power -/

theorem Lawful.haltLine (s : State) (l : Line) : Lawful s (s.haltLine l) := by
  unfold State.haltLine
  split
  · exact (Lawful.convert s l).trans (.modTimers _ l _)
  · exact .refl s

theorem Lawful.markFinal (s : State) (l : Line) : Lawful s (s.markFinal l) := by
  unfold State.markFinal
  split
  · exact .modRec s _ _ (by exact fun _ => rfl)
  · exact .refl s

/-- A list cut behind an entry is the list. -/
theorem cutBehind_some (k : Key) : ∀ (xs a b : List Key), cutBehind k xs = some (a, b) → a ++ b = xs
  | [], _, _, h => by simp [cutBehind] at h
  | x :: xs, a, b, h => by
    unfold cutBehind at h
    split at h
    · simp only [Option.some.injEq, Prod.mk.injEq] at h
      obtain ⟨rfl, rfl⟩ := h
      rfl
    · obtain ⟨⟨c, d⟩, hc, he⟩ := Option.map_eq_some_iff.1 h
      simp only [Prod.mk.injEq] at he
      obtain ⟨rfl, rfl⟩ := he
      simp [cutBehind_some k xs c d hc]

/-- An entry behind which a list is not cut is not in it. -/
theorem cutBehind_none (k : Key) : ∀ xs : List Key, cutBehind k xs = none → k ∉ xs
  | [], _ => by simp
  | x :: xs, h => by
    unfold cutBehind at h
    split at h
    · cases h
    · next hx =>
      have := cutBehind_none k xs (by simpa using h)
      simp only [List.mem_cons, not_or]
      exact ⟨fun he => hx he.symm, this⟩

/-- A FINAL write put into the order of the flush leaves every entry single. -/
theorem finalFor_nodup (bound : Option Nat) (p : List Key × List Key) (h : (p.1 ++ p.2).Nodup) :
    ((finalFor bound p).1 ++ (finalFor bound p).2).Nodup := by
  unfold finalFor
  split
  · exact h
  · next stop =>
    split
    · next a b hab =>
      rw [← cutBehind_some _ _ _ _ hab] at h
      simpa using h
    · next hcut =>
      split
      · exact h
      · next hnot =>
        have h2 := cutBehind_none _ _ hcut
        have h1 : Key.record stop ∉ p.1 := fun hm => hnot (List.contains_iff_mem.2 hm)
        dsimp only
        rw [List.append_assoc, List.singleton_append, List.nodup_middle, List.nodup_cons]
        exact ⟨by simp [h1, h2], h⟩

theorem finalOrder_nodup (one two : Option Nat) (queue : List Key) (h : queue.Nodup) : (finalOrder one two queue).Nodup :=
  finalFor_nodup two _ (finalFor_nodup one _ h)

theorem KeepsLaws.of_phase (s : State) (p : Phase) : KeepsLaws s { s with phase := p } :=
  .of_eq rfl rfl rfl rfl rfl rfl rfl rfl

theorem KeepsLaws.beginFlush (s : State) (k : FlushKind) : KeepsLaws s (s.beginFlush k) := by
  have h1 := (((Lawful.haltLine s .one).trans (.haltLine _ .two)).trans (.markFinal _ .one)).trans (.markFinal _ .two)
  unfold State.beginFlush
  exact ⟨h1.pending, h1.slot, fun h => finalOrder_nodup _ _ _ h, h1.valve, h1.antic, h1.count⟩

theorem KeepsLaws.stopRestart (s : State) : KeepsLaws s s.stopRestart :=
  ⟨rfl, slotLaw_of_slots rfl, fun _ => List.nodup_nil, id, id, id⟩

theorem KeepsLaws.powerFails (s : State) : KeepsLaws s s.powerFails := by
  have h : KeepsLaws s { s with inputs := { s.inputs with powerFail := true } } := .of_eq rfl rfl rfl rfl rfl rfl rfl rfl
  unfold State.powerFails
  split
  · exact h.trans (.beginFlush _ _)
  · exact h.trans (.stopRestart _)
  · split <;> exact .of_eq rfl rfl rfl rfl rfl rfl rfl rfl
  · exact .refl s

/-- No power failure leaves the part on the restart path. -/
theorem powerFails_phase (s : State) : s.powerFails.phase ≠ .restart := by
  unfold State.powerFails
  split
  · simp [State.beginFlush]
  · simp [State.stopRestart]
  · split <;> simp
  · next h => simp [h]

theorem KeepsLaws.powerOn (s : State) (reads : RestartReads) : KeepsLaws s (s.powerOn reads) := by
  unfold State.powerOn
  split
  · split
    · exact .of_eq rfl rfl rfl rfl rfl rfl rfl rfl
    · exact .restart s _ _
  · exact .restart s _ _

end Sys2Proof.Machine
end

