-- ==== Sys2Proof/Proofs/SettledRows.lean ====
section
/-! PROOFS. What follows every row settles the part. -/

open Sys2Proof Sys2Proof.Machine

namespace Sys2Proof.Machine

/-! ## A part on the restart path waits for nothing -/

/-- No command is in progress, no sleep is put off and no run's end is waited for: so a restart leaves the part. -/
structure State.Unasked (s : State) : Prop where
  cmd : s.cmd = none
  sleepDue : s.sleepDue = false
  endWaits : ∀ l, (s.line l).endWaits = []

/-- An operation that asks for no reply, no sleep and no attention item. -/
structure AsksNothing (s t : State) : Prop where
  keep : s.Unasked → t.Unasked

theorem AsksNothing.refl (s : State) : AsksNothing s s := ⟨id⟩

theorem AsksNothing.trans {a b c : State} (h : AsksNothing a b) (k : AsksNothing b c) : AsksNothing a c := ⟨k.keep ∘ h.keep⟩

theorem AsksNothing.of_eq {s t : State} (hcmd : t.cmd = s.cmd) (hsleep : t.sleepDue = s.sleepDue) (hlines : t.lines = s.lines) :
    AsksNothing s t :=
  ⟨fun h => ⟨hcmd.trans h.cmd, hsleep.trans h.sleepDue, fun l => by rw [State.line, hlines]; exact h.endWaits l⟩⟩

theorem AsksNothing.modLine (s : State) (l : Line) (f : LineCtx → LineCtx)
    (hf : (s.line l).endWaits = [] → (f (s.line l)).endWaits = []) : AsksNothing s (s.modLine l f) :=
  ⟨fun h => ⟨h.cmd, h.sleepDue, fun m => by
    have hl := hf (h.endWaits l)
    have hm := h.endWaits m
    cases l <;> cases m
    exacts [hl, hm, hm, hl]⟩⟩

theorem AsksNothing.mapWaiters (s : State) (f : Waiter → Waiter) : AsksNothing s (s.mapWaiters f) :=
  ⟨fun h => ⟨by simp [State.mapWaiters, h.cmd], h.sleepDue, fun l => by
    have hl := h.endWaits l
    cases l <;> · simp only [State.line, Pair.get] at hl; simp [State.mapWaiters, State.line, Pair.map, Pair.get, hl]⟩⟩

theorem AsksNothing.enqueue (s : State) (k : Key) : AsksNothing s (s.enqueue k) := by
  unfold State.enqueue; split <;> exact .of_eq rfl rfl rfl

theorem AsksNothing.modRec (s : State) (stop : Nat) (f : Record → Record) : AsksNothing s (s.modRec stop f) :=
  .of_eq rfl rfl rfl

theorem AsksNothing.changeRec (s : State) (stop : Nat) (f : Record → Record) : AsksNothing s (s.changeRec stop f) :=
  (AsksNothing.modRec s stop f).trans (.enqueue _ _)

theorem AsksNothing.checkpoint (s : State) (l : Line) : AsksNothing s (s.checkpoint l) := by
  unfold State.checkpoint
  split
  · exact .changeRec s _ _
  · exact .refl s

theorem AsksNothing.enterPaused (s : State) (l : Line) (cause : PauseCause) : AsksNothing s (s.enterPaused l cause) :=
  ((AsksNothing.modLine s l _ id).trans (.checkpoint _ l)).trans (.of_eq rfl rfl rfl)

theorem AsksNothing.upUnbound (s : State) (l : Line) : AsksNothing s (s.upUnbound l) := .modLine s l _ fun _ => rfl

theorem AsksNothing.upBound (s : State) (l : Line) (r : Record) : AsksNothing s (s.upBound l r) :=
  (((AsksNothing.modRec s _ _).trans (.modLine _ l _ fun _ => rfl)).trans (.modLine _ l _ id)).trans (.enterPaused _ l _)

theorem AsksNothing.bringUp (s : State) (l : Line) : AsksNothing s (s.bringUp l) := by
  unfold State.bringUp
  split
  · exact (AsksNothing.upBound s l _).trans (.of_eq rfl rfl rfl)
  · exact .upUnbound s l

theorem AsksNothing.yieldLineTwo (s : State) (stop : Nat) : AsksNothing s (s.yieldLineTwo stop) :=
  ((AsksNothing.changeRec s stop _).trans (.upUnbound _ .two)).trans (.of_eq rfl rfl rfl)

theorem AsksNothing.rebuildPump (s : State) : AsksNothing s s.rebuildPump := by
  have hp : ∀ p, AsksNothing s { s with pump := p } := fun p => .of_eq rfl rfl rfl
  unfold State.rebuildPump
  split
  · exact hp _
  · exact hp _
  · exact hp _
  · split
    · exact hp _
    · split
      · exact (hp _).trans (.yieldLineTwo _ _)
      · exact hp _

theorem AsksNothing.closeSession (s : State) : AsksNothing s s.closeSession := by
  unfold State.closeSession
  split
  · exact .refl s
  · exact (AsksNothing.of_eq (s := s) (t := s.modSettings _) rfl rfl rfl).trans (.enqueue _ _)

theorem AsksNothing.enqueueIf (s : State) (b : Bool) (k : Key) : AsksNothing s (if b then s.enqueue k else s) := by
  cases b
  · exact .refl s
  · exact .enqueue s k

theorem AsksNothing.readSettings (s : State) (found : Option Settings) (r : AreaRead) :
    AsksNothing s (s.readSettings found r) := by
  have hseal : ∀ u, AsksNothing s u →
      AsksNothing s (if u.settings.session = true ∧ u.inputs.sealOpen = false then u.closeSession else u) := by
    intro u hu
    split
    · exact hu.trans (.closeSession u)
    · exact hu
  refine hseal _ (.trans (.of_eq ?_ ?_ ?_) (.enqueueIf _ _ _)) <;> rfl

theorem AsksNothing.enqueueAll (xs : List Nat) :
    ∀ s : State, AsksNothing s (xs.foldl (fun t stop => t.enqueue (.record stop)) s) := by
  induction xs with
  | nil => exact .refl
  | cons x xs ih => exact fun s => (AsksNothing.enqueue s _).trans (ih _)

theorem AsksNothing.scan (s : State) (reads : List SlotReads) : AsksNothing s (s.scan reads) := by
  refine .trans (.of_eq ?_ ?_ ?_) (.enqueueAll _ _) <;> rfl

theorem AsksNothing.readBlocks (s : State) (load : Option LoadBlock) (route : Option RouteBlock) (rl rr : AreaRead) :
    AsksNothing s (s.readBlocks load route rl rr) := by
  refine .trans (.trans (.of_eq ?_ ?_ ?_) (.enqueueIf _ _ _)) (.enqueueIf _ _ _) <;> rfl

theorem AsksNothing.reapply (s : State) : AsksNothing s s.reapply := by
  have h : ∀ (b : Bool) (u : State) (k : Key), AsksNothing s u → AsksNothing s (if b then u else u.enqueue k) := by
    intro b u k hu
    cases b
    · exact hu.trans (.enqueue u k)
    · exact hu
  unfold State.reapply
  refine h _ _ _ (h _ _ _ ?_)
  exact .of_eq rfl rfl rfl

theorem AsksNothing.restartMeters (s : State) : AsksNothing s s.restartMeters := .of_eq rfl rfl rfl

theorem unasked_restartBegin (s : State) (cause : RestartCause) : (s.restartBegin cause).Unasked :=
  ⟨rfl, rfl, fun l => by cases l <;> rfl⟩

/-- A restart leaves nothing asked for. -/
theorem unasked_restart (s : State) (cause : RestartCause) (r : RestartReads) : (s.restart cause r).Unasked := by
  have h : AsksNothing (s.restartBegin cause) (s.restart cause r) :=
    (((((((AsksNothing.readSettings _ _ _).trans (.scan _ _)).trans (.readBlocks _ _ _ _ _)).trans (.reapply _)).trans
      (.restartMeters _)).trans (.bringUp _ _)).trans (.bringUp _ _)).trans (.rebuildPump _)
  exact h.keep (unasked_restartBegin s cause)

theorem AsksNothing.lineUnsaved (s : State) (l : Line) : AsksNothing s (s.lineUnsaved l) := by
  unfold State.lineUnsaved
  split
  · refine .modLine s l _ fun h => ?_
    unfold LineCtx.stopped
    split <;> exact h
  · split
    · exact .modLine s l _ id
    · exact .refl s
  · split
    · exact .modLine s l _ id
    · exact .refl s
  · exact .modLine s l _ id
  · exact .refl s

theorem AsksNothing.becomeUnsaved (s : State) (stop : Nat) : AsksNothing s (s.becomeUnsaved stop) := by
  have h : AsksNothing s { s with unsaved := s.unsaved ++ [stop] } := .of_eq rfl rfl rfl
  unfold State.becomeUnsaved State.tellBound
  split
  · exact .refl s
  · split
    · split
      · exact h.trans (.lineUnsaved _ _)
      · split
        · exact h.trans (.lineUnsaved _ _)
        · exact h
    · exact h

theorem AsksNothing.beginKey (s : State) (k : Key) : AsksNothing s (s.beginKey k) := by
  cases k with
  | block b => exact .of_eq rfl rfl rfl
  | release n => exact .of_eq rfl rfl rfl
  | record stop =>
    unfold State.beginKey State.beginRecord
    dsimp only
    split
    · split
      · exact .refl s
      · split
        · exact .of_eq rfl rfl rfl
        · split
          · exact .of_eq rfl rfl rfl
          · exact (AsksNothing.of_eq (s := s) (t := s.modSlot _ _) rfl rfl rfl).trans (.becomeUnsaved _ _)
    · exact .refl s

theorem AsksNothing.takeEntry (s : State) (k : Key) (q : List Key) : AsksNothing s (s.takeEntry k q) := by
  have h : AsksNothing s ((({ s with queue := q, patrolIdle := 0 } : State).mapWaiters (Waiter.begun k)).beginKey k) :=
    ((AsksNothing.of_eq (s := s) (t := { s with queue := q, patrolIdle := 0 }) rfl rfl rfl).trans (.mapWaiters _ _)).trans (.beginKey _ k)
  unfold State.takeEntry
  dsimp only
  split
  · exact h.trans (.mapWaiters _ _)
  · exact h

theorem AsksNothing.storeRun (n : Nat) : ∀ s : State, AsksNothing s (storeRun n s) := by
  induction n with
  | zero => exact .refl
  | succ n ih =>
    intro s
    unfold Machine.storeRun
    split
    · split
      · exact (AsksNothing.takeEntry s _ _).trans (ih _)
      · exact .refl s
    · exact .refl s

/-! ## The store of a part that is up leaves no entry waiting (R33) -/

@[simp] theorem queue_lineUnsaved (s : State) (l : Line) : (s.lineUnsaved l).queue = s.queue := by
  unfold State.lineUnsaved
  split
  · rfl
  · split <;> rfl
  · split <;> rfl
  · rfl
  · rfl

@[simp] theorem queue_becomeUnsaved (s : State) (stop : Nat) : (s.becomeUnsaved stop).queue = s.queue := by
  unfold State.becomeUnsaved State.tellBound
  split
  · rfl
  · split
    · split
      · simp
      · split <;> simp
    · rfl

@[simp] theorem queue_beginKey (s : State) (k : Key) : (s.beginKey k).queue = s.queue := by
  cases k with
  | block b => rfl
  | release n => rfl
  | record stop =>
    unfold State.beginKey State.beginRecord
    dsimp only
    split
    · split
      · rfl
      · split
        · rfl
        · split <;> simp [State.flyRecord]
    · rfl

/-- The entry taken leaves the queue; the others stay. -/
@[simp] theorem queue_takeEntry (s : State) (k : Key) (q : List Key) : (s.takeEntry k q).queue = q := by
  unfold State.takeEntry
  dsimp only
  split <;> simp

theorem mayTake_of_isUp {s : State} (h : s.isUp = true) (k : OpKind) : s.mayTake k = true := by
  unfold State.isUp at h
  unfold State.mayTake State.mayBegin
  split at h <;> simp_all

theorem isUp_of_phase {s t : State} (h : t.phase = s.phase) : t.isUp = s.isUp := by unfold State.isUp; rw [h]

theorem isActive_of_phase {s t : State} (h : t.phase = s.phase) : t.isActive = s.isActive := by unfold State.isActive; rw [h]

theorem storeRun_drains (n : Nat) : ∀ s : State, s.isUp = true → s.queue.length < n →
    (storeRun n s).flight.isSome = true ∨ (storeRun n s).queue = [] := by
  induction n with
  | zero => intro s _ h; omega
  | succ n ih =>
    intro s hup hn
    unfold Machine.storeRun
    split
    · next k q _ hq =>
      rw [if_pos (mayTake_of_isUp hup _)]
      refine ih _ ?_ ?_
      · rw [isUp_of_phase (StoreKeeps.takeEntry s k q).phase, hup]
      · simp only [hq, List.length_cons] at hn
        simp only [queue_takeEntry]
        omega
    · next hstop =>
      cases hf : s.flight with
      | some f => exact .inl rfl
      | none =>
        right
        cases hq : s.queue with
        | nil => rfl
        | cons k q => exact absurd hq (hstop k q hf)

theorem runStore_drains {s : State} (h : s.isUp = true) : s.runStore.flight.isSome = true ∨ s.runStore.queue = [] :=
  storeRun_drains _ s h (Nat.lt_succ_self _)

/-! ## What is due is delivered -/

theorem replyDue_of_slots {s t : State} (hcmd : t.cmd = s.cmd) (hslots : t.slots = s.slots) : t.replyDue = s.replyDue := by
  have hplan : ∀ p, t.planSegments p = s.planSegments p := by
    intro p
    cases p <;> simp [State.planSegments, State.countSlots, hslots]
  unfold State.replyDue
  rw [hcmd]
  simp only [hplan]

theorem replyDue_deliverReply (s : State) : s.deliverReply.replyDue = false := by
  unfold State.deliverReply
  split
  · next h => simp [State.replyDue, h]
  · next c hc =>
    split
    · split
      · simp [State.replyDue, State.ready]
      · next hp => simp [State.replyDue, hc, hp]
    · next h =>
      simp only [State.replyDue, hc]
      cases hs : c.sent <;> cases hw : c.waits.over <;> simp_all

theorem deliverReply_fields (s : State) : s.deliverReply.flight = s.flight ∧ s.deliverReply.queue = s.queue
    ∧ s.deliverReply.lines = s.lines ∧ s.deliverReply.slots = s.slots := by
  unfold State.deliverReply
  split
  · exact ⟨rfl, rfl, rfl, rfl⟩
  · split
    · split <;> exact ⟨rfl, rfl, rfl, rfl⟩
    · exact ⟨rfl, rfl, rfl, rfl⟩

theorem deliverAttention_fields (s : State) (l : Line) : (s.deliverAttention l).flight = s.flight
    ∧ (s.deliverAttention l).queue = s.queue ∧ (s.deliverAttention l).cmd = s.cmd
    ∧ (s.deliverAttention l).slots = s.slots ∧ (s.deliverAttention l).line l.other = s.line l.other := by
  unfold State.deliverAttention
  dsimp only
  split <;> exact ⟨rfl, rfl, rfl, rfl, by cases l <;> rfl⟩

theorem endWaits_deliverAttention (s : State) (l : Line) :
    ((s.deliverAttention l).line l).endWaits = (s.line l).endWaits.filter (fun w => !w.over) := by
  unfold State.deliverAttention
  dsimp only
  split <;> cases l <;> rfl

theorem any_over_filter (ws : List Waiter) : (ws.filter (fun w => !w.over)).any Waiter.over = false := by
  rw [List.any_eq_false]
  intro w hw
  simpa using (List.mem_filter.1 hw).2

/-- Nothing but a sleep is due. -/
structure State.Delivered (s : State) : Prop where
  store : s.flight.isSome = true ∨ s.queue = []
  reply : s.replyDue = false
  ends : noEndDue s

theorem delivered_deliver {s : State} (ha : s.isActive = true) (hstore : s.flight.isSome = true ∨ s.queue = []) :
    s.deliver.Delivered := by
  obtain ⟨f0, q0, l0, s0⟩ := deliverReply_fields s
  obtain ⟨f1, q1, c1, s1, o1⟩ := deliverAttention_fields s.deliverReply .one
  obtain ⟨f2, q2, c2, s2, o2⟩ := deliverAttention_fields (s.deliverReply.deliverAttention .one) .two
  have e1 := endWaits_deliverAttention s.deliverReply .one
  have e2 := endWaits_deliverAttention (s.deliverReply.deliverAttention .one) .two
  unfold State.deliver
  rw [if_pos ha]
  refine ⟨?_, ?_, ?_, ?_⟩
  · rwa [f2, f1, f0, q2, q1, q0]
  · rw [replyDue_of_slots c2 s2, replyDue_of_slots c1 s1]
    exact replyDue_deliverReply s
  · have h := any_over_filter (s.deliverReply.line .one).endWaits
    rw [← e1, ← show _ = (s.deliverReply.deliverAttention .one).line .one from o2] at h
    exact h
  · have h := any_over_filter ((s.deliverReply.deliverAttention .one).line .two).endWaits
    rw [← e2] at h
    exact h

/-- With nothing else due, the sleep that is due is entered (R187). -/
theorem settled_trySleep {s : State} (h : s.Delivered) (hp : s.phase ≠ .restart) : s.trySleep.settled = true := by
  obtain ⟨hstore, hreply, hends⟩ := h
  have hup : s.comesUp = s := comesUp_of_ne s hp
  rw [settled_iff]
  unfold State.trySleep
  split
  · exact ⟨hstore, (replyDue_of_slots rfl rfl).trans hreply, hends, rfl⟩
  · next hno =>
    refine ⟨hstore, hreply, hends, ?_⟩
    rw [hup]
    simpa using hno

/-- On the restart path nothing is delivered, and nothing is due. -/
theorem settled_of_unasked {s : State} (h : s.Unasked) (hstore : s.flight.isSome = true ∨ s.queue = []) :
    s.settled = true := by
  rw [settled_iff]
  refine ⟨hstore, by simp [State.replyDue, h.cmd], ⟨?_, ?_⟩, by simp [h.sleepDue]⟩
  · have := h.endWaits .one
    simp only [State.line, Pair.get] at this
    simp [this]
  · have := h.endWaits .two
    simp only [State.line, Pair.get] at this
    simp [this]

/-- What follows a row of a working part, and of a part on the restart path with nothing asked for, settles it. -/
theorem settled_commit_up {s : State} (hup : s.isUp = true) (hrestart : s.phase = .restart → s.Unasked) :
    (commit s).settled = true := by
  have hphase := (runStore_keeps s).phase
  cases hp : s.phase with
  | active =>
    have ha : s.isActive = true := by simp [State.isActive, hp]
    rw [commit_active s ha]
    have ha' : s.runStore.isActive = true := (isActive_of_phase hphase).trans ha
    refine settled_trySleep (delivered_deliver ha' (runStore_drains hup)) ?_
    rw [(Lawful.deliver _).phase]
    exact ne_restart_of_active _ ha'
  | restart =>
    have hun : s.runStore.Unasked := (AsksNothing.storeRun _ s).keep (hrestart hp)
    have hidle : s.runStore.isActive = false := by simp [State.isActive, hphase, hp]
    have hcommit : commit s = s.runStore := by
      have hfinish : s.runStore.finishFlush = s.runStore := by simp [State.finishFlush, hphase, hp]
      have hflush : s.runStore.settleFlush = s.runStore := by
        simp [State.settleFlush, hidle, hfinish, runStore_settled _ (runStore_drains hup)]
      simp [commit, hflush, State.deliver, hidle, State.trySleep, hun.sleepDue]
    rw [hcommit]
    exact settled_of_unasked hun (runStore_drains hup)
  | flush f => simp [State.isUp, hp] at hup
  | hold => simp [State.isUp, hp] at hup

theorem isUp_trySleep (s : State) : s.trySleep.isUp = s.isUp := isUp_of_phase (Lawful.trySleep s).phase

/-- A flush that ends in a restart leaves the restarted part settled. -/
theorem settled_commit {s : State} (hrestart : s.phase = .restart → s.Unasked) (hup : (commit s).isUp = true) :
    (commit s).settled = true := by
  by_cases h : s.isUp = true
  · exact settled_commit_up h hrestart
  have hphase := (runStore_keeps s).phase
  have hidle : s.runStore.isActive = false := by
    rw [isActive_of_phase hphase]
    unfold State.isUp at h
    unfold State.isActive
    split <;> simp_all
  have hcommit : commit s = (s.runStore.finishFlush.runStore).deliver.trySleep := by simp [commit, State.settleFlush, hidle]
  have hupFinish : s.runStore.finishFlush.isUp = true := by
    rw [hcommit, isUp_trySleep, isUp_of_phase (Lawful.deliver _).phase, isUp_of_phase (Lawful.runStore _).phase] at hup
    exact hup
  have hfinish : s.runStore.finishFlush.phase = .restart ∧ s.runStore.finishFlush.Unasked := by
    have hdown : s.runStore.isUp ≠ true := by rwa [isUp_of_phase hphase]
    revert hupFinish
    unfold State.finishFlush
    split
    · split
      · exact fun _ => ⟨restart_phase _ _ _, unasked_restart _ _ _⟩
      · exact fun _ => ⟨restart_phase _ _ _, unasked_restart _ _ _⟩
      · intro hhold; simp [State.isUp, State.holdInReset] at hhold
    · exact fun hsame => absurd hsame hdown
  obtain ⟨hp, hun⟩ := hfinish
  have hun' : s.runStore.finishFlush.runStore.Unasked := (AsksNothing.storeRun _ _).keep hun
  have hidle' : s.runStore.finishFlush.runStore.isActive = false := by
    rw [isActive_of_phase (runStore_keeps _).phase]
    simp [State.isActive, hp]
  rw [hcommit]
  simp only [State.deliver, hidle', Bool.false_eq_true, if_false, State.trySleep, hun'.sleepDue, false_and]
  exact settled_of_unasked hun' (runStore_drains hupFinish)

end Sys2Proof.Machine
end

