-- ==== Sys2Proof/Proofs/RowLaws.lean ====
section
/-! PROOFS. Every row answers a next state, and every step keeps the laws. -/

open Sys2Proof Sys2Proof.Machine

namespace Sys2Proof.Machine

/-! ## What every row does -/

/-- A row's change: the laws are kept, and a part left on the restart path has nothing asked for. -/
structure Changes (s u : State) : Prop extends KeepsLaws s u where
  unasked : u.phase = .restart → u.Unasked

/-- A row that answers a next state: its change, and what follows every change. -/
def Answers (s : State) (o : Host.Outcome State Fault Refusal) : Prop := ∃ u, o = .next (commit u) ∧ Changes s u

theorem comesUp_ne_restart (s : State) : s.comesUp.phase ≠ .restart := by
  unfold State.comesUp
  split
  · simp
  · assumption

theorem Changes.of_lawful {s u : State} (h : Lawful s.comesUp u) : Changes s u :=
  ⟨(KeepsLaws.comesUp s).trans h.toKeepsLaws, fun hp => absurd (h.phase.symm.trans hp) (comesUp_ne_restart s)⟩

theorem Answers.event {s : State} {f : State → State} (h : ∀ u, Lawful u (f u)) : Answers s (event f s) :=
  ⟨_, rfl, .of_lawful (h _)⟩

theorem Lawful.ite {p : Prop} [Decidable p] {s a b : State} (ha : p → Lawful s a) (hb : ¬ p → Lawful s b) :
    Lawful s (if p then a else b) := by
  split
  · exact ha ‹p›
  · exact hb ‹¬p›

/-- A change made only under a condition. -/
theorem Lawful.iteElse {p : Prop} [Decidable p] {s a : State} (ha : p → Lawful s a) : Lawful s (if p then a else s) :=
  .ite ha fun _ => .refl s

theorem Answers.activeEvent {s : State} {f : State → State} (h : ∀ u, Lawful u (f u)) : Answers s (activeEvent f s) :=
  .event fun u => .iteElse fun _ => h u

theorem Answers.command {i : Instr} {w : CmdWord} (s : State) (h : commandWord i = some w) : Answers s (exec i s) := by
  rw [exec_command h]
  exact ⟨_, rfl, .of_lawful (.arrive w (Verdict.command i) s.comesUp)⟩

/-! ### The rows that leave the phase alone -/

theorem answers_commandLine (s : State) : Answers s (execCommandLine s) :=
  .event fun u => .ite (fun _ => .carriageReturn u) fun _ => .iteElse fun _ => .wakeByCharacterUnseen u

theorem answers_characterReceived (c : Byte) (s : State) : Answers s (execCharacterReceived c s) :=
  .event fun u => .ite (fun _ => .ite (fun _ => .carriageReturn u) fun _ => .of_rx u _) fun _ =>
    .iteElse fun _ => .wakeByCharacterUnseen u

theorem answers_lineGap (s : State) : Answers s (execLineGapTimeout s) :=
  .activeEvent fun u => (Lawful.of_rx u _).trans (.timeRow _ _)

theorem answers_breakBegin (samples : Pair Reading) (s : State) : Answers s (execBreakBegin samples s) :=
  .activeEvent fun u => .ite (fun _ => .refl u) fun _ => .beginBreak u samples

theorem answers_breakEnd (s : State) : Answers s (execBreakEnd s) := .activeEvent fun u => .iteElse fun _ => .of_rx u _

theorem answers_linkWake (samples : Pair Reading) (s : State) : Answers s (execLinkWake samples s) :=
  .activeEvent fun u => .iteElse fun _ => .wakeByCharacter u samples

theorem answers_pulserEdge (l : Line) (p : PulserPhase) (us : Nat) (s : State) : Answers s (execPulserEdge l p us s) :=
  .event fun u => .ite (fun _ => .edge u l p us) fun _ => .modMeter u l _ (countLaw_toggle p)

theorem answers_phaseError (l : Line) (s : State) : Answers s (execPhaseError l s) :=
  .event fun u => .ite (fun _ => .phaseError u l) fun _ => .modMeter u l _ fun h => h

theorem countLaw_overflow {m : Meter} (h : m.countLaw) : m.overflow.countLaw := h

theorem answers_periodOverflow (l : Line) (s : State) : Answers s (execPeriodOverflow l s) :=
  .activeEvent fun u => .iteElse fun _ => (Lawful.modMeter u l _ countLaw_overflow).trans (.timeRow _ _)

theorem countLaw_quiet {m : Meter} (h : m.countLaw) : ({ m with quiet := 1000000 } : Meter).countLaw := by
  obtain ⟨h1, h2, h3, h4, h5, h6, _⟩ := h
  exact ⟨h1, h2, h3, h4, h5, h6, Nat.le_refl _⟩

theorem answers_quietTimer (l : Line) (s : State) : Answers s (execQuietTimerExpiry l s) :=
  .activeEvent fun u => (Lawful.modMeter u l _ countLaw_quiet).trans (.timeRow _ _)

theorem answers_sample (l : Line) (r : Reading) (s : State) : Answers s (execTemperatureSample l r s) :=
  .activeEvent fun u => .iteElse fun _ => (Lawful.modMeter u l _ fun h => countLaw_take h r).trans (.timeRow _ _)

theorem answers_window (l : Line) (s : State) : Answers s (execWindowExpiry l s) :=
  .activeEvent fun u => .iteElse fun _ => (Lawful.windowEnd u l).trans (.timeRow _ _)

theorem valveLaw_toSettling (c : LineCtx) : c.toSettling.valveLaw := valveLaw_closed rfl rfl

theorem answers_step (l : Line) (s : State) : Answers s (execStepExpiry l s) :=
  .activeEvent fun u => .iteElse fun _ => (Lawful.modLine' u l _ (fun _ => valveLaw_toSettling _) rfl).trans (.timeRow _ _)

theorem answers_settle (l : Line) (s : State) : Answers s (execSettleExpiry l s) :=
  .activeEvent fun u => .iteElse fun _ => (Lawful.settleEnd u l).trans (.timeRow _ _)

theorem answers_noFlow (l : Line) (s : State) : Answers s (execNoFlowExpiry l s) :=
  .activeEvent fun u => .iteElse fun _ => (Lawful.noFlowEnd u l).trans (.timeRow _ _)

theorem answers_deadman (l : Line) (s : State) : Answers s (execDeadmanExpiry l s) :=
  .activeEvent fun u => .ite (fun _ => .refl u) fun _ =>
    .ite (fun _ => .of_eq rfl rfl rfl rfl rfl rfl rfl rfl rfl) fun _ => .deadmanEnd u l

theorem answers_autoClose (l : Line) (s : State) : Answers s (execAutoCloseExpiry l s) :=
  .activeEvent fun u => .iteElse fun _ => (Lawful.autoCloseEnd u l).trans (.timeRow _ _)

theorem answers_checkpoint (l : Line) (s : State) : Answers s (execCheckpointExpiry l s) :=
  .activeEvent fun u => .iteElse fun _ => ((Lawful.modTimers u l _).trans (.checkpoint _ l)).trans (.timeRow _ _)

theorem answers_ignitionLow (s : State) : Answers s (execIgnitionLow s) :=
  .event fun u => .inputEvent u _ _ fun t => (Lawful.cutBoth t _).trans (.of_eq rfl rfl rfl rfl rfl rfl rfl rfl rfl)

theorem sleepEntry_lawful (s : State) : Lawful s s.sleepTime :=
  .ite (fun _ => .of_eq rfl rfl rfl rfl rfl rfl rfl rfl rfl) fun _ =>
    .iteElse fun _ => .of_eq rfl rfl rfl rfl rfl rfl rfl rfl rfl

theorem answers_clockTick (s : State) : Answers s (execClockTick s) :=
  .event fun u => .iteElse fun _ =>
    (Lawful.of_eq (s := u) (t := { u with clock := { u.clock with now := nextSecond u.clock.now } }) rfl rfl rfl rfl rfl rfl rfl rfl
      rfl).trans (.timeRow _ _)

theorem answers_recordWrite (read : ReadResult) (agrees : Bool) (s : State) : Answers s (execRecordWriteComplete read agrees s) :=
  .event fun u => by
    split
    · exact .recordWriteEnd u _ _ _
    · exact .refl u

theorem answers_blockWrite (agrees : Bool) (s : State) : Answers s (execBlockWriteComplete agrees s) :=
  .event fun u => by
    split
    · exact .blockWriteEnd u _ _ _ ‹_›
    · exact .refl u

theorem answers_release (s : State) : Answers s (execReleaseComplete s) :=
  .event fun u => by
    split
    · exact .releaseEnd u _
    · exact .refl u

theorem answers_patrolRead (read : ReadResult) (s : State) : Answers s (execPatrolReadComplete read s) :=
  .event fun u => by
    split
    · exact .patrolEnd u _ _
    · exact .refl u

/-! ### The rows that change the phase -/

theorem answers_powerFail (s : State) : Answers s (execPowerFailAsserted s) :=
  ⟨_, rfl, .powerFails s, fun h => absurd h (powerFails_phase s)⟩

theorem answers_linkReset (reads : RestartReads) (s : State) : Answers s (execLinkReset reads s) := by
  refine ⟨_, rfl, ?_⟩
  dsimp only [State.linkResets]
  split
  · exact ⟨(KeepsLaws.comesUp s).trans (.beginFlush _ _), fun h => by simp [State.beginFlush] at h⟩
  · exact .of_lawful (.refl _)

theorem answers_flushDeadline (d : Deadline) (s : State) : Answers s (execFlushDeadline d s) := by
  refine ⟨_, rfl, ?_⟩
  dsimp only [State.deadlinePasses]
  split
  · exact ⟨(KeepsLaws.comesUp s).trans (.of_phase _ _), fun h => by simp at h⟩
  · exact .of_lawful (.refl _)

theorem Changes.restart (s : State) (cause : RestartCause) (reads : RestartReads) : Changes s (s.comesUp.restart cause reads) :=
  ⟨(KeepsLaws.comesUp s).trans (.restart _ _ _), fun _ => unasked_restart _ _ _⟩

theorem answers_powerOn (reads : RestartReads) (s : State) : Answers s (execPowerOnRestart reads s) := by
  refine ⟨_, rfl, ?_⟩
  dsimp only [State.powerOn]
  split
  · split
    · exact ⟨(KeepsLaws.comesUp s).trans (.of_eq rfl rfl rfl rfl rfl rfl rfl rfl), fun h => by simp at h⟩
    · exact .restart s _ _
  · exact .restart s _ _

/-- Every command and event answers a next state: a change, and what follows. -/
theorem exec_answers (i : Instr) (s : State) : Answers s (exec i s) := by
  cases i
  case commandLine => exact answers_commandLine s
  case lineGapTimeout => exact answers_lineGap s
  case replyLineSent => exact .activeEvent .lineSent
  case breakBegin samples => exact answers_breakBegin samples s
  case linkReset reads => exact answers_linkReset reads s
  case linkWake samples => exact answers_linkWake samples s
  case pulserEdge l p us => exact answers_pulserEdge l p us s
  case phaseError l => exact answers_phaseError l s
  case periodOverflow l => exact answers_periodOverflow l s
  case quietTimerExpiry l => exact answers_quietTimer l s
  case temperatureSample l r => exact answers_sample l r s
  case windowExpiry l => exact answers_window l s
  case stepExpiry l => exact answers_step l s
  case settleExpiry l => exact answers_settle l s
  case noFlowExpiry l => exact answers_noFlow l s
  case deadmanExpiry l => exact answers_deadman l s
  case autoCloseExpiry l => exact answers_autoClose l s
  case checkpointExpiry l => exact answers_checkpoint l s
  case permitDeasserted => exact .event fun u => .inputEvent u _ _ fun t => .cutBoth t _
  case permitAsserted => exact .event fun u => .inputEvent u _ _ .refl
  case ignitionLow => exact answers_ignitionLow s
  case ignitionHigh samples => exact .event fun u => .inputEvent u _ _ fun t => .ignitionRises t samples
  case airAsserted l =>
    exact .event fun u => .inputEvent u _ _ fun t => .modLine' t l _ (valveLaw_cutNow _ _) (antic_cutNow _ _)
  case airDeasserted l => exact .event fun u => .inputEvent u _ _ .refl
  case deadmanPress => exact .event fun u => .inputEvent u _ _ .pressDeadman
  case sealOpens => exact .event fun u => .inputEvent u _ _ .refl
  case sealCloses => exact .event fun u => .inputEvent u _ _ .closeSession
  case powerFailAsserted => exact answers_powerFail s
  case flushDeadline d => exact answers_flushDeadline d s
  case powerOnRestart reads => exact answers_powerOn reads s
  case sleepEntry => exact .activeEvent sleepEntry_lawful
  case clockTick => exact answers_clockTick s
  case recordWriteComplete read agrees => exact answers_recordWrite read agrees s
  case blockWriteComplete agrees => exact answers_blockWrite agrees s
  case releaseComplete => exact answers_release s
  case patrolIdleExpiry => exact .event .patrolBegin
  case patrolReadComplete read => exact answers_patrolRead read s
  case characterReceived c => exact answers_characterReceived c s
  case breakEnd => exact answers_breakEnd s
  case deadmanRelease => exact .event fun u => .inputEvent u _ _ .refl
  all_goals exact .command s rfl

/-! ## The passing of time -/

theorem countLaw_pass {m : Meter} (h : m.countLaw) : m.pass.countLaw := by
  obtain ⟨h1, h2, h3, h4, h5, h6, _⟩ := h
  exact ⟨h1, h2, h3, h4, h5, h6, Nat.min_le_left _ _⟩

theorem KeepsLaws.passActive (s : State) : KeepsLaws s s.passActive where
  pending := rfl
  slot := slotLaw_of_slots rfl
  queue h := h
  valve h := h
  antic h := h
  count h := ⟨countLaw_pass h.1, countLaw_pass h.2⟩

theorem KeepsLaws.tick (s : State) : KeepsLaws s (tick s) := by
  unfold Machine.tick
  split
  · exact .passActive s
  · exact (KeepsLaws.comesUp s).trans (.passActive _)
  · exact .of_phase s _
  · exact .refl s

/-- The laws of a state do not speak of the rows that wait. -/
theorem laws_of_pending (s : State) (rest : List Instr) :
    (({ s with pending := rest } : State).slotLaw ↔ s.slotLaw) ∧ (({ s with pending := rest } : State).queueLaw ↔ s.queueLaw)
      ∧ (({ s with pending := rest } : State).valveLaw ↔ s.valveLaw) ∧ (({ s with pending := rest } : State).anticLaw ↔ s.anticLaw)
      ∧ (({ s with pending := rest } : State).countLaw ↔ s.countLaw) :=
  ⟨⟨slotLaw_of_slots rfl, slotLaw_of_slots rfl⟩, Iff.rfl, Iff.rfl, Iff.rfl, Iff.rfl⟩

/-- A step is the passing of a microsecond, or the row at the front. -/
theorem step_cases {s t : State} (h : step s = .next t) :
    (s.pending = [] ∧ t = tick s)
      ∨ ∃ c rest u, s.pending = c :: rest ∧ t = commit u ∧ Changes { s with pending := rest } u := by
  unfold step at h
  split at h
  · next hp => exact .inl ⟨hp, (Host.Outcome.next.inj h).symm⟩
  · next c rest hp =>
    obtain ⟨u, hu, hc⟩ := exec_answers c { s with pending := rest }
    exact .inr ⟨c, rest, u, hp, (Host.Outcome.next.inj (h.symm.trans hu)), hc⟩

/-- Every step keeps every law. -/
theorem step_keeps {s t : State} (h : step s = .next t) :
    (s.slotLaw → t.slotLaw) ∧ (s.queueLaw → t.queueLaw) ∧ (s.valveLaw → t.valveLaw) ∧ (s.anticLaw → t.anticLaw)
      ∧ (s.countLaw → t.countLaw) := by
  rcases step_cases h with ⟨_, rfl⟩ | ⟨_, rest, u, _, rfl, hu⟩
  · have hk := KeepsLaws.tick s
    exact ⟨hk.slot, hk.queue, hk.valve, hk.antic, hk.count⟩
  · have hk := hu.toKeepsLaws.trans (.commit u)
    obtain ⟨h1, h2, h3, h4, h5⟩ := laws_of_pending s rest
    exact ⟨fun k => hk.slot (h1.2 k), fun k => hk.queue (h2.2 k), fun k => hk.valve (h3.2 k), fun k => hk.antic (h4.2 k),
      fun k => hk.count (h5.2 k)⟩

/-! ### Time leaves a settled part settled -/

theorem maySleep_passActive (s : State) : s.passActive.maySleep = s.maySleep := rfl

theorem settled_tick {s : State} (hs : s.settled = true) (hup : s.isUp = true) : (tick s).settled = true := by
  rw [settled_iff] at *
  obtain ⟨hstore, hreply, hends, hsleep⟩ := hs
  have hpass : ∀ u : State, u = s.comesUp → (u.passActive).settled = true := by
    rintro _ rfl
    rw [settled_iff]
    have hne : s.comesUp.passActive.phase ≠ .restart := comesUp_ne_restart s
    have hfields : s.comesUp.flight = s.flight ∧ s.comesUp.queue = s.queue ∧ s.comesUp.cmd = s.cmd ∧ s.comesUp.slots = s.slots
        ∧ s.comesUp.lines = s.lines ∧ s.comesUp.sleepDue = s.sleepDue := by simp
    obtain ⟨hf, hq, hc, hsl, hl, hd⟩ := hfields
    refine ⟨?_, ?_, ?_, ?_⟩
    · show s.comesUp.flight.isSome = true ∨ s.comesUp.queue = []
      rwa [hf, hq]
    · exact (replyDue_of_slots (s := s) hc hsl).trans hreply
    · show s.comesUp.lines.one.endWaits.any _ = false ∧ s.comesUp.lines.two.endWaits.any _ = false
      rwa [hl]
    · rw [comesUp_of_ne _ hne, maySleep_passActive]
      show (s.comesUp.sleepDue && _) = false
      rwa [hd]
  rw [← settled_iff]
  unfold tick
  split
  · next h => exact hpass s (comesUp_of_ne s (by simp [h])).symm
  · exact hpass _ rfl
  · next h => simp [State.isUp, h] at hup
  · next h => simp [State.isUp, h] at hup

/-- No part comes up by the passing of time alone. -/
theorem isUp_tick (s : State) : (tick s).isUp = s.isUp := by
  cases hp : s.phase <;> simp [tick, State.isUp, State.passActive, hp]

end Sys2Proof.Machine
end

