-- ==== Sys2Proof/Proofs/StepInvariants.lean ====
section
/-! PROOFS. The statements about the step, the state after reset, and the invariants. -/

open Sys2Proof Sys2Proof.Machine

/-- Settles O6: every row and the passing of time keep the 80 slots and the uniqueness of homes. -/
theorem slotLawKept : Obligations.SlotLawKept := fun _ _ hs h => (step_keeps h).1 hs

/-- Settles O7: every row and the passing of time keep the queue free of repetitions. -/
theorem queueLawKept : Obligations.QueueLawKept := by
  intro s t hs h
  obtain ⟨_, hqueue, _⟩ := step_keeps h
  exact hqueue hs

/-- Settles O8: every row and the passing of time keep the stage commands within R96. -/
theorem valveLawKept : Obligations.ValveLawKept := by
  intro s t hs h
  obtain ⟨_, _, hvalve, _⟩ := step_keeps h
  exact hvalve hs

/-- Settles O9: every row and the passing of time keep the anticipations in range. -/
theorem anticipationKept : Obligations.AnticipationKept := by
  intro s t hs h
  obtain ⟨_, _, _, hantic, _⟩ := step_keeps h
  exact hantic hs

/-- Settles O10: every row and the passing of time keep the meters' counts in range. -/
theorem meterCountsKept : Obligations.MeterCountsKept := by
  intro s t hs h
  obtain ⟨_, _, _, _, hcount⟩ := step_keeps h
  exact hcount hs

/-- Settles O11: what follows every row settles the part, and the passing of time leaves it settled. -/
theorem settledKept : Obligations.SettledKept := by
  intro s t hs h hup
  rcases step_cases h with ⟨_, rfl⟩ | ⟨_, _, u, _, rfl, hu⟩
  · have hups : s.isUp = true := (isUp_tick s).symm.trans hup
    exact settled_tick (hs hups) hups
  · exact settled_commit hu.unasked hup

/-- Settles O1: a step at a non-empty queue is its front row, by definition. -/
theorem stepRunsTheFrontCommand : Obligations.StepRunsTheFrontCommand := by
  intro c rest s h
  simp [step, h]

/-- Settles O3: every row is a change and what follows, and neither touches the rows that wait. -/
theorem everyRowAnswersNext : Obligations.EveryRowAnswersNext := by
  intro i s
  obtain ⟨u, hu, hc⟩ := exec_answers i s
  exact ⟨commit u, hu, (KeepsLaws.commit u).pending.trans hc.pending⟩

theorem pass_period (m : Meter) :
    (∀ n, m.period = .discard n → m.pass.period = .discard (min 16777216 (n + 1)))
      ∧ (∀ n, m.period = .measure n → m.pass.period = .measure (min 16777216 (n + 1)))
      ∧ (m.period = .seekDiscard ∨ m.period = .seek → m.pass.period = m.period) := by
  refine ⟨fun n h => ?_, fun n h => ?_, fun h => ?_⟩
  · simp [Meter.pass, h, Period.pass, satAdd]
  · simp [Meter.pass, h, Period.pass, satAdd]
  · rcases h with h | h <;> simp [Meter.pass, h, Period.pass]

theorem pass_autoClose (s : State) (t : Timers) :
    (t.pass (s.mode == .sleep)).autoClose = if s.mode = .sleep then t.autoClose else t.autoClose.map (· - 1) := by
  by_cases h : s.mode = .sleep <;> simp [Timers.pass, countDown, h]

/-- Settles O2: the step is `State.passActive`, field by field. -/
theorem idleStepPassesOneMicrosecond : Obligations.IdleStepPassesOneMicrosecond := by
  intro s hp ha
  refine ⟨s.passActive, ?_, ?_⟩
  · have hphase : s.phase = .active := by
      unfold State.isActive at ha
      split at ha
      · assumption
      · cases ha
    simp [step, hp, tick, hphase]
  · have hline : ∀ l, s.passActive.line l = { s.line l with timers := (s.line l).timers.pass (s.mode == .sleep) } := by
      intro l; cases l <;> rfl
    have hmeter : ∀ l, s.passActive.meter l = (s.meter l).pass := by intro l; cases l <;> rfl
    refine ⟨fun l => ?_, rfl, rfl, rfl, ?_, rfl, rfl, rfl, rfl⟩
    · rw [hline, hmeter]
      exact ⟨rfl, rfl, rfl, rfl, rfl, rfl, pass_autoClose s _, rfl, rfl, rfl, pass_period _⟩
    · simp [State.passActive, Receiver.pass, satAdd]

/-- Settles O4: the state after reset, field by field. -/
theorem resetState : Obligations.ResetState := by
  refine ⟨rfl, rfl, rfl, rfl, rfl, rfl, rfl, rfl, rfl, rfl, rfl, rfl, rfl, rfl, rfl, rfl, fun l => ?_⟩
  cases l <;> exact ⟨rfl, rfl, rfl, rfl, rfl, rfl, rfl, rfl, rfl, rfl, rfl⟩

/-- No slot of the factory part is the home of a record. -/
theorem slotLaw_reset : State.reset.slotLaw := by
  refine (slotLaw_iff _).2 ⟨rfl, fun m n stop hm _ => ?_⟩
  obtain ⟨x, hx, hstop⟩ := hm
  have hfactory : x = Slot.factory := by
    cases m with
    | zero => cases hx
    | succ i =>
      rw [slot_succ] at hx
      exact List.eq_of_mem_replicate (List.mem_of_getElem? hx)
  rw [hfactory] at hstop
  cases hstop

/-- Settles O5: no slot is in use, no stage is open, each figure stands at its first value, and a write is in flight. -/
theorem resetKeepsTheLaws : Obligations.ResetKeepsTheLaws := by
  refine ⟨slotLaw_reset, show List.Nodup [_, _] by decide, ⟨valveLaw_closed rfl rfl, valveLaw_closed rfl rfl⟩,
    ⟨by decide, by decide, ⟨by decide, by decide⟩, fun _ h => (nomatch h), ⟨by decide, by decide⟩⟩, ⟨countLaw_restart _ _, countLaw_restart _ _⟩, rfl⟩
end

