-- ==== Sys2Proof/Proofs/ArithRules.lean ====
section
/-! PROOFS. The arithmetic of the rules: rounding, the drop limit, ticket lines, the least worn slot, and the band of a rate. -/

open Sys2Proof Sys2Proof.Machine

namespace Sys2Proof.Machine

/-! ## Rounding (1.7) -/

/-- `rhu` is the integer `q` with 2 den q ≤ 2 num + den < 2 den (q + 1). -/
theorem rhu_bounds (num : Nat) {den : Nat} (h : 0 < den) :
    2 * den * rhu num den ≤ 2 * num + den ∧ 2 * num + den < 2 * den * rhu num den + 2 * den := by
  unfold rhu
  have h1 := Nat.div_add_mod (2 * num + den) (2 * den)
  have h2 := Nat.mod_lt (2 * num + den) (show 0 < 2 * den by omega)
  constructor <;> omega

/-- Half away from zero: the rounding of the magnitude, with the sign put back. -/
theorem halfAway_bounds (x : Int) {den : Nat} (h : 0 < den) :
    (0 ≤ x → 2 * den * halfAway x den ≤ 2 * x + den ∧ 2 * x + den < 2 * den * halfAway x den + 2 * den)
      ∧ (x < 0 → 2 * den * (-halfAway x den) ≤ 2 * (-x) + den ∧ 2 * (-x) + den < 2 * den * (-halfAway x den) + 2 * den) := by
  obtain ⟨hlo, hhi⟩ := rhu_bounds x.natAbs h
  unfold halfAway
  constructor
  · intro hx
    rw [if_neg (by omega)]
    have habs : (x.natAbs : Int) = x := by omega
    constructor
    · have := Int.ofNat_le.2 hlo; push_cast at this; rw [abs_of_nonneg hx] at this; exact this
    · have := Int.ofNat_lt.2 hhi; push_cast at this; rw [abs_of_nonneg hx] at this; exact this
  · intro hx
    rw [if_pos hx, neg_neg]
    constructor
    · have := Int.ofNat_le.2 hlo; push_cast at this; rw [abs_of_neg hx] at this; exact this
    · have := Int.ofNat_lt.2 hhi; push_cast at this; rw [abs_of_neg hx] at this; exact this

/-! ## The reverse balance (R78) -/

theorem settleReverse_lt {balance fwd rev : Nat} (h : fwd < rev) :
    settleReverse balance fwd rev = (min 4294967295 (balance + (rev - fwd)), 0) := by simp [settleReverse, h, satAdd]

theorem settleReverse_ge {balance fwd rev : Nat} (h : rev ≤ fwd) :
    settleReverse balance fwd rev = (balance - min (fwd - rev) balance, (fwd - rev) - min (fwd - rev) balance) := by
  simp [settleReverse, Nat.not_lt.2 h]

/-! ## The drop limit (R100) -/

theorem lesser_none_iff (a b : Option Int) : lesser a b = none ↔ a = none ∧ b = none := by
  cases a <;> cases b <;> simp [lesser]

/-- The lesser of two terms is one of them, and no greater than either. -/
theorem lesser_some {a b : Option Int} {v : Int} (h : lesser a b = some v) :
    (∀ x, a = some x → v ≤ x) ∧ (∀ x, b = some x → v ≤ x) ∧ (a = some v ∨ b = some v) := by
  cases a with
  | none =>
    have hb : b = some v := by cases b <;> exact h
    exact ⟨fun x hx => by simp at hx, fun x hx => by rw [hb] at hx; cases hx; exact le_rfl, .inr hb⟩
  | some p =>
    cases b with
    | none =>
      have hp : p = v := by simpa [lesser] using h
      exact ⟨fun x hx => by cases hx; omega, fun x hx => by simp at hx, .inl (by rw [hp])⟩
    | some q =>
      have hm : min p q = v := by simpa [lesser] using h
      refine ⟨fun x hx => ?_, fun x hx => ?_, ?_⟩
      · cases hx; omega
      · cases hx; omega
      · rcases le_total p q with hpq | hpq
        · exact .inl (by rw [← hm, min_eq_left hpq])
        · exact .inr (by rw [← hm, min_eq_right hpq])

/-- A term present makes the lesser one present, and no greater. -/
theorem lesser_le {a b : Option Int} {x : Int} (h : a = some x ∨ b = some x) : ∃ w, lesser a b = some w ∧ w ≤ x := by
  cases hw : lesser a b with
  | none =>
    obtain ⟨ha, hb⟩ := (lesser_none_iff a b).1 hw
    rcases h with h | h
    · rw [ha] at h; cases h
    · rw [hb] at h; cases h
  | some w =>
    obtain ⟨hl, hr, _⟩ := lesser_some hw
    exact ⟨w, rfl, h.elim (hl x) (hr x)⟩

theorem volumeTerm_eq_some (r : Record) (v : Int) :
    r.volumeTerm = some v ↔ ∃ p, r.kind = .volume ∧ r.preset = some p ∧ v = (p : Int) - r.doneNet := by
  unfold Record.volumeTerm
  by_cases hk : r.kind = .volume
  · cases hp : r.preset <;> simp [hk, eq_comm]
  · simp [hk]

theorem amountTerm_eq_some (r : Record) (price bp : Nat) (v : Int) :
    r.amountTerm price bp = some v ↔ ∃ cap, r.amountCap = some cap ∧ v = (vmax price bp cap : Int) - r.doneNet := by
  unfold Record.amountTerm
  cases hc : r.amountCap <;> simp [eq_comm]

/-- The four terms of R100 and what their least is. -/
theorem limitOf_eq (r : Record) (d : Drop) (price bp : Nat) :
    r.limitOf d price bp = match lesser (lesser (d.preset.map Int.ofNat) (d.cap.map Int.ofNat))
      (lesser r.volumeTerm (r.amountTerm price bp)) with
    | some v => .cl v
    | none => .unlimited := rfl

theorem limitOf_cl {r : Record} {d : Drop} {price bp : Nat} {v : Int} (h : r.limitOf d price bp = .cl v) :
    lesser (lesser (d.preset.map Int.ofNat) (d.cap.map Int.ofNat)) (lesser r.volumeTerm (r.amountTerm price bp)) = some v := by
  rw [limitOf_eq] at h
  split at h
  · next hv => cases h; exact hv
  · cases h

theorem limitOf_unlimited_iff (r : Record) (d : Drop) (price bp : Nat) :
    r.limitOf d price bp = .unlimited ↔
      d.preset = none ∧ d.cap = none ∧ ¬(r.kind = .volume ∧ r.preset.isSome = true) ∧ r.amountCap = none := by
  have hvol : r.volumeTerm = none ↔ ¬(r.kind = .volume ∧ r.preset.isSome = true) := by
    unfold Record.volumeTerm
    by_cases hk : r.kind = .volume
    · cases hp : r.preset <;> simp [hk]
    · simp [hk]
  have hnone : r.limitOf d price bp = .unlimited ↔
      lesser (lesser (d.preset.map Int.ofNat) (d.cap.map Int.ofNat)) (lesser r.volumeTerm (r.amountTerm price bp)) = none := by
    rw [limitOf_eq]
    split
    · next hv => simp [hv]
    · next hv => simp [hv]
  rw [hnone, lesser_none_iff, lesser_none_iff, lesser_none_iff, hvol]
  simp [Record.amountTerm, and_assoc]

/-! ## Ticket lines (R86) -/

/-- The DROP lines carry the DONE drops' nets less the changeover's share of the first. -/
theorem sum_dropLines (product price bp : Nat) : ∀ (ds : List Drop) (c : Nat), c ≤ (ds.head?.map Drop.tNet).getD 0 →
    sumNat ((dropLines product price bp c ds).map (·.net)) + c = sumNat (ds.map Drop.tNet)
  | [], c, h => by
    have hc : c = 0 := by simpa using h
    simp [dropLines, sumNat, hc]
  | d :: ds, c, h => by
    have hc : c ≤ d.tNet := by simpa using h
    have hrest := sum_dropLines product price bp ds 0 (Nat.zero_le _)
    have hdone : d.isDone = false → d.tNet = 0 := by
      intro hd
      unfold Drop.isDone at hd
      unfold Drop.tNet
      split at hd <;> simp_all
    by_cases hd : d.isDone = true ∧ d.tNet - c ≠ 0
    · simp only [dropLines, if_pos hd, sumNat, List.map_append, List.map_cons, List.map_nil, List.foldr_append,
        List.foldr_cons, List.foldr_nil, priced] at hrest ⊢
      omega
    · have hzero : d.tNet = c := by
        rcases not_and_or.1 hd with hno | hno
        · have := hdone (by simpa using hno)
          omega
        · have : d.tNet - c = 0 := by simpa using hno
          omega
      simp only [dropLines, if_neg hd, sumNat, List.nil_append, List.map_cons, List.foldr_cons] at hrest ⊢
      omega

/-- A line's amount is its net at its price, and no line is empty. -/
def TicketLine.Billed (y : TicketLine) : Prop := y.net ≠ 0 ∧ y.amount = (2 * (y.net * y.price) + 1000) / 2000

theorem billed_priced (kind : TicketLineKind) (product : LineProduct) (gross : Option Nat) {net : Nat} (price bp : Nat)
    (h : net ≠ 0) : (priced kind product gross net price bp).Billed := ⟨h, rfl⟩

theorem billed_dropLines (product price bp : Nat) : ∀ (ds : List Drop) (c : Nat), ∀ y ∈ dropLines product price bp c ds, y.Billed
  | [], _, _, h => by simp [dropLines] at h
  | d :: ds, c, y, h => by
    unfold dropLines at h
    rcases List.mem_append.1 h with h | h
    · split at h
      · next hd =>
        rw [List.mem_singleton.1 h]
        exact billed_priced _ _ _ _ _ hd.2
      · cases h
    · exact billed_dropLines product price bp ds 0 y h

theorem changeoverNet_le (purge : Bool) (hose : Nat) (drops : List Drop) :
    changeoverNet purge hose drops ≤ (drops.head?.map Drop.tNet).getD 0 := by
  unfold changeoverNet
  split
  · exact Nat.min_le_right _ _
  · exact Nat.zero_le _

/-! ## The least worn slot (R31) -/

/-- Slot `n` of slots numbered from `k` on is free to be allocated. -/
def Offered (except : Option Nat) (xs : List Slot) (k n : Nat) (x : Slot) : Prop :=
  ∃ i, n = k + i ∧ xs[i]? = some x ∧ x.isFree = true ∧ except ≠ some n

theorem offered_cons (except : Option Nat) (x : Slot) (xs : List Slot) (k n : Nat) (y : Slot) :
    Offered except (x :: xs) k n y ↔ (n = k ∧ x = y ∧ x.isFree = true ∧ except ≠ some k) ∨ Offered except xs (k + 1) n y := by
  constructor
  · rintro ⟨i, hn, hx, hf, he⟩
    cases i with
    | zero =>
      obtain rfl : x = y := by simpa using hx
      exact .inl ⟨hn, rfl, hf, by rwa [show k = n by omega]⟩
    | succ i => exact .inr ⟨i, by omega, by simpa using hx, hf, he⟩
  · rintro (⟨rfl, rfl, hf, he⟩ | ⟨i, hn, hx, hf, he⟩)
    · exact ⟨0, rfl, rfl, hf, he⟩
    · exact ⟨i + 1, by omega, by simpa using hx, hf, he⟩

/-- A count and a number that stand before another pair: a lower count, or the same count and no higher number. -/
def Before (p n q m : Nat) : Prop := p ≤ q ∧ (q = p → n ≤ m)

/-- With a candidate from below, the search ends at a pair that stands before the candidate and all offered, and is one of them. -/
theorem bestFree_best (except : Option Nat) (n : Nat) :
    ∀ (xs : List Slot) (k p m : Nat), m < k → bestFree except xs k (some (p, m)) = some n →
      ∃ q, Before q n p m ∧ (∀ i y, Offered except xs k i y → Before q n y.program i)
        ∧ ((q = p ∧ n = m) ∨ ∃ x, Offered except xs k n x ∧ x.program = q)
  | [], k, p, m, _, h => by
    obtain rfl : m = n := by simpa [bestFree] using h
    exact ⟨p, ⟨Nat.le_refl _, fun _ => Nat.le_refl _⟩, fun i y ⟨j, _, hy, _⟩ => by simp at hy, .inl ⟨rfl, rfl⟩⟩
  | x :: xs, k, p, m, hm, h => by
    unfold bestFree at h
    by_cases hf : x.isFree = true ∧ except ≠ some k
    · rw [if_pos hf] at h
      by_cases hp : x.program < p
      · simp only [if_pos hp] at h
        obtain ⟨q, hq, hall, hone⟩ := bestFree_best except n xs (k + 1) x.program k (by omega) h
        have hqp := hq.1
        refine ⟨q, ⟨by omega, by omega⟩, fun i y hy => ?_, ?_⟩
        · rcases (offered_cons ..).1 hy with ⟨rfl, rfl, _⟩ | hy
          · exact hq
          · exact hall i y hy
        · rcases hone with ⟨rfl, rfl⟩ | ⟨y, hy, hyq⟩
          · exact .inr ⟨x, (offered_cons ..).2 (.inl ⟨rfl, rfl, hf.1, hf.2⟩), rfl⟩
          · exact .inr ⟨y, (offered_cons ..).2 (.inr hy), hyq⟩
      · simp only [if_neg hp] at h
        obtain ⟨q, hq, hall, hone⟩ := bestFree_best except n xs (k + 1) p m (by omega) h
        obtain ⟨hqp, hnm⟩ := hq
        refine ⟨q, ⟨hqp, hnm⟩, fun i y hy => ?_, ?_⟩
        · rcases (offered_cons ..).1 hy with ⟨rfl, rfl, _⟩ | hy
          · exact ⟨by omega, fun he => by have := hnm (by omega); omega⟩
          · exact hall i y hy
        · rcases hone with hone | ⟨y, hy, hyq⟩
          · exact .inl hone
          · exact .inr ⟨y, (offered_cons ..).2 (.inr hy), hyq⟩
    · rw [if_neg hf] at h
      obtain ⟨q, hq, hall, hone⟩ := bestFree_best except n xs (k + 1) p m (by omega) h
      refine ⟨q, hq, fun i y hy => ?_, ?_⟩
      · rcases (offered_cons ..).1 hy with ⟨rfl, rfl, hx⟩ | hy
        · exact absurd hx hf
        · exact hall i y hy
      · rcases hone with hone | ⟨y, hy, hyq⟩
        · exact .inl hone
        · exact .inr ⟨y, (offered_cons ..).2 (.inr hy), hyq⟩

/-- The slot allocated is offered, and stands before all offered. -/
theorem bestFree_first (except : Option Nat) (n : Nat) : ∀ (xs : List Slot) (k : Nat), bestFree except xs k none = some n →
    ∃ x, Offered except xs k n x ∧ ∀ i y, Offered except xs k i y → Before x.program n y.program i
  | [], k, h => by simp [bestFree] at h
  | x :: xs, k, h => by
    unfold bestFree at h
    by_cases hf : x.isFree = true ∧ except ≠ some k
    · simp only [if_pos hf] at h
      obtain ⟨q, hq, hall, hone⟩ := bestFree_best except n xs (k + 1) x.program k (by omega) h
      have hbefore : ∀ i y, Offered except (x :: xs) k i y → Before q n y.program i := by
        intro i y hy
        rcases (offered_cons ..).1 hy with ⟨rfl, rfl, _⟩ | hy
        · exact hq
        · exact hall i y hy
      rcases hone with ⟨rfl, rfl⟩ | ⟨y, hy, rfl⟩
      · exact ⟨x, (offered_cons ..).2 (.inl ⟨rfl, rfl, hf.1, hf.2⟩), hbefore⟩
      · exact ⟨y, (offered_cons ..).2 (.inr hy), hbefore⟩
    · rw [if_neg hf] at h
      obtain ⟨y, hy, hall⟩ := bestFree_first except n xs (k + 1) h
      refine ⟨y, (offered_cons ..).2 (.inr hy), fun i z hz => ?_⟩
      rcases (offered_cons ..).1 hz with ⟨rfl, rfl, hx⟩ | hz
      · exact absurd hx hf
      · exact hall i z hz

theorem bestFree_of_candidate (except : Option Nat) : ∀ (xs : List Slot) (k : Nat) (b : Nat × Nat),
    (bestFree except xs k (some b)).isSome = true
  | [], _, _ => rfl
  | x :: xs, k, (p, m) => by
    unfold bestFree
    split
    · dsimp only
      split <;> exact bestFree_of_candidate except xs (k + 1) _
    · exact bestFree_of_candidate except xs (k + 1) _

theorem bestFree_of_offered (except : Option Nat) (m : Nat) (y : Slot) : ∀ (xs : List Slot) (k : Nat),
    Offered except xs k m y → (bestFree except xs k none).isSome = true
  | [], _, ⟨_, _, hy, _⟩ => by simp at hy
  | x :: xs, k, h => by
    unfold bestFree
    by_cases hf : x.isFree = true ∧ except ≠ some k
    · rw [if_pos hf]
      exact bestFree_of_candidate except xs (k + 1) _
    · rw [if_neg hf]
      rcases (offered_cons ..).1 h with ⟨_, _, hx⟩ | h
      · exact absurd hx hf
      · exact bestFree_of_offered except m y xs (k + 1) h

/-- What is offered of the store's slots. -/
theorem offered_slots (s : State) (except : Option Nat) (n : Nat) (x : Slot) :
    Offered except s.slots 1 n x ↔ s.slot n = some x ∧ x.isFree = true ∧ except ≠ some n := by
  constructor
  · rintro ⟨i, rfl, hx, hf, he⟩
    exact ⟨by rw [Nat.add_comm, slot_succ]; exact hx, hf, he⟩
  · rintro ⟨hx, hf, he⟩
    cases n with
    | zero => simp at hx
    | succ i => exact ⟨i, Nat.add_comm _ _, by rwa [slot_succ] at hx, hf, he⟩

/-! ## The band of a rate (R71) -/

/-- The search for a band stays among the bands left, stops at a bound not below the rate, and passes only bounds below it. -/
theorem bandIn_spec (rate : Nat) : ∀ (xs : List (Nat × Nat)) (k : Nat),
    ∃ i, bandIn xs rate k = k + i ∧ i ≤ xs.length ∧ (∀ u mf, xs[i]? = some (u, mf) → rate ≤ u)
      ∧ ∀ j u mf, j < i → xs[j]? = some (u, mf) → u < rate
  | [], k => ⟨0, rfl, Nat.le_refl _, fun u mf h => by simp at h, fun j u mf h => by omega⟩
  | (u, mf) :: xs, k => by
    unfold bandIn
    by_cases h : rate ≤ u
    · rw [if_pos h]
      refine ⟨0, rfl, Nat.zero_le _, fun v mv hv => ?_, fun j _ _ hj => by omega⟩
      simp only [List.getElem?_cons_zero, Option.some.injEq, Prod.mk.injEq] at hv
      omega
    · rw [if_neg h]
      obtain ⟨i, hi, hlen, hat, hbelow⟩ := bandIn_spec rate xs (k + 1)
      refine ⟨i + 1, by omega, by simpa using hlen, fun v mv hv => hat v mv (by simpa using hv), fun j v mv hj hv => ?_⟩
      cases j with
      | zero =>
        simp only [List.getElem?_cons_zero, Option.some.injEq, Prod.mk.injEq] at hv
        omega
      | succ j => exact hbelow j v mv (by omega) (by simpa using hv)

theorem nth1_succ {α : Type} (xs : List α) (i : Nat) : nth1 xs (i + 1) = xs[i]? := by simp [nth1]

end Sys2Proof.Machine

/-- Settles O14: the VCF is 1,000,000 less the half-away rounding, whose bounds keep it in range. -/
theorem vcfRule : Obligations.VcfRule := by
  refine ⟨fun _ _ => rfl, fun alpha t halpha hlo hhi => ?_⟩
  obtain ⟨hpos, hneg⟩ := halfAway_bounds ((alpha : Int) * (t - 1500)) (show 0 < 100 by omega)
  have hprod : -11000000 ≤ (alpha : Int) * (t - 1500) ∧ (alpha : Int) * (t - 1500) ≤ 9000000 := by
    constructor <;> nlinarith
  refine ⟨halfAway ((alpha : Int) * (t - 1500)) 100, ?_, ?_⟩
  · simp only [vcfOf, if_true]
    omega
  · generalize (alpha : Int) * (t - 1500) = x at *
    generalize halfAway x 100 = q at *
    refine ⟨by omega, by omega, fun h => ?_, fun h => ?_⟩
    · have := hpos h; omega
    · have := hneg h; omega

/-- Settles O15: the three stages, by the branch taken and by division with remainder. -/
theorem conversionStages : Obligations.ConversionStages := by
  refine ⟨fun balance fwd rev _ => ⟨settleReverse_lt, ?_, fun h => settleReverse_ge (Nat.le_of_lt h)⟩, ?_, ?_⟩
  · rintro rfl
    simp [settleReverse_ge (Nat.le_refl fwd)]
  · intro pr mf rem n hpr hrem
    by_cases hn : n = 0
    · simp [grossStage, hn, hrem]
    · simp only [grossStage, if_neg hn]
      exact ⟨by rw [Nat.mul_comm]; exact Nat.div_add_mod _ _, Nat.mod_lt _ hpr⟩
  · intro vcf rem g
    simp only [netStage]
    omega

/-- Settles O16: the quarter is the half-away rounding, and the sum is clamped. -/
theorem anticipationLearned : Obligations.AnticipationLearned := by
  intro old overrun
  obtain ⟨hpos, hneg⟩ := halfAway_bounds (overrun - old) (show 0 < 4 by omega)
  refine ⟨halfAway (overrun - old) 4, fun h => ?_, fun h => ?_, ?_⟩
  · have := hpos h; omega
  · have := hneg h; omega
  · unfold learned clamp
    split
    · omega
    · split <;> omega

/-- Settles O17: the least of the four terms, each present exactly where the rule names it. -/
theorem dropLimitIsTheLeastTerm : Obligations.DropLimitIsTheLeastTerm := by
  intro r d price bp
  refine ⟨fun v h => ?_, limitOf_unlimited_iff r d price bp⟩
  obtain ⟨hdrop, hrecord, hone⟩ := lesser_some (limitOf_cl h)
  have hdropTerm : ∀ x, d.preset.map Int.ofNat = some x ∨ d.cap.map Int.ofNat = some x → v ≤ x := by
    intro x hx
    obtain ⟨w, hw, hwx⟩ := lesser_le hx
    exact (hdrop w hw).trans hwx
  have hrecordTerm : ∀ x, r.volumeTerm = some x ∨ r.amountTerm price bp = some x → v ≤ x := by
    intro x hx
    obtain ⟨w, hw, hwx⟩ := lesser_le hx
    exact (hrecord w hw).trans hwx
  refine ⟨fun p hp => hdropTerm p (.inl (by simp [hp])), fun c hc => hdropTerm c (.inr (by simp [hc])),
    fun p hk hp => hrecordTerm _ (.inl ((volumeTerm_eq_some r _).2 ⟨p, hk, hp, rfl⟩)),
    fun cap hcap => hrecordTerm _ (.inr ((amountTerm_eq_some r price bp _).2 ⟨cap, hcap, rfl⟩)), ?_⟩
  rcases hone with hone | hone
  · obtain ⟨_, _, hpreset | hcap⟩ := lesser_some hone
    · obtain ⟨p, hp, rfl⟩ := Option.map_eq_some_iff.1 hpreset
      exact .inl ⟨p, hp, rfl⟩
    · obtain ⟨c, hc, rfl⟩ := Option.map_eq_some_iff.1 hcap
      exact .inr (.inl ⟨c, hc, rfl⟩)
  · obtain ⟨_, _, hvolume | hamount⟩ := lesser_some hone
    · exact .inr (.inr (.inl ((volumeTerm_eq_some r v).1 hvolume)))
    · exact .inr (.inr (.inr ((amountTerm_eq_some r price bp v).1 hamount)))

/-- Settles O18: the changeover takes its share from the first drop's line, and the rest keep theirs. -/
theorem ticketLinesKeepTheNet : Obligations.TicketLinesKeepTheNet := by
  intro r purge hose content x price bp
  have hsum := sum_dropLines r.product price bp r.drops _ (changeoverNet_le purge hose r.drops)
  constructor
  · unfold ticketLines Record.doneNet
    dsimp only
    split
    · next h =>
      rw [h] at hsum
      simpa [h] using hsum
    · rw [← hsum]
      simp [sumNat, priced, Nat.add_comm]
  · intro y hy
    rcases List.mem_append.1 hy with hy | hy
    · split at hy
      · cases hy
      · next h =>
        rw [List.mem_singleton.1 hy]
        exact billed_priced _ _ _ _ _ h
    · exact billed_dropLines _ _ _ _ _ y hy

/-- Settles O19: the search keeps the best candidate so far, and some slot offered gives some answer. -/
theorem leastWornSlot : Obligations.LeastWornSlot := by
  constructor
  · intro s except n h
    obtain ⟨x, hx, hbest⟩ := bestFree_first except n s.slots 1 h
    obtain ⟨hslot, hfree, hexcept⟩ := (offered_slots ..).1 hx
    exact ⟨hexcept, x, hslot, hfree, fun m y hy hf he => hbest m y ((offered_slots ..).2 ⟨hy, hf, he⟩)⟩
  · intro s except m y hy hf he
    exact Option.isSome_iff_exists.1 (bestFree_of_offered except m y s.slots 1 ((offered_slots ..).2 ⟨hy, hf, he⟩))

/-- Settles O20: the rate by definition, the band by the search through the bounds. -/
theorem rateAndBand : Obligations.RateAndBand := by
  refine ⟨fun _ _ => rfl, fun x rate => ?_⟩
  obtain ⟨i, hi, hlen, hat, hbelow⟩ := bandIn_spec rate x.upper 1
  have hband : bandOfSet x rate = i + 1 := hi.trans (Nat.add_comm _ _)
  rw [hband]
  refine ⟨by omega, by omega, fun u mf h => hat u mf (by rwa [nth1_succ] at h), fun b u mf hb h => ?_⟩
  cases b with
  | zero => simp [nth1] at h
  | succ j => exact hbelow j u mf (by omega) (by rwa [nth1_succ] at h)
end

