-- ==== Sys2Proof/Proofs/Outputs.lean ====
section
/-! PROOFS. The outputs of the part. -/

open Sys2Proof Sys2Proof.Machine

namespace Sys2Proof.Machine

/-! ## The stages (R96) -/

theorem outLow_iff (s : State) (l : Line) : s.outLow l = true ↔
    s.outputsEnabled = true ∧ (s.line l).cmdLow = true ∧ ((s.line l).st = .flowing ∨ (s.line l).st = .stopping) := by
  simp [State.outLow, and_assoc]

theorem outHigh_iff (s : State) (l : Line) : s.outHigh l = true ↔
    s.outputsEnabled = true ∧ (s.line l).cmdHigh = true ∧ (s.line l).st = .flowing := by
  simp [State.outHigh, and_assoc]

theorem outputsEnabled_iff (s : State) : s.outputsEnabled = true ↔
    s.inputs.permit = true ∧ s.inputs.ignition = true ∧ s.inputs.powerFail = false ∧ s.isActive = true := by
  simp [State.outputsEnabled, State.interlock, and_assoc]

theorem stages_off (s : State) (l : Line) (h : s.inputs.permit = false ∨ s.inputs.ignition = false ∨ s.inputs.powerFail = true
    ∨ ((s.line l).st ≠ .flowing ∧ (s.line l).st ≠ .stopping)) : s.outLow l = false ∧ s.outHigh l = false := by
  constructor
  · rw [Bool.eq_false_iff, Ne, outLow_iff, outputsEnabled_iff]
    rintro ⟨⟨hp, hi, hf, _⟩, _, hst⟩
    rcases h with h | h | h | ⟨h1, h2⟩
    · simp [hp] at h
    · simp [hi] at h
    · simp [hf] at h
    · exact hst.elim h1 h2
  · rw [Bool.eq_false_iff, Ne, outHigh_iff, outputsEnabled_iff]
    rintro ⟨⟨hp, hi, hf, _⟩, _, hst⟩
    rcases h with h | h | h | ⟨h1, _⟩
    · simp [hp] at h
    · simp [hi] at h
    · simp [hf] at h
    · exact h1 hst

/-! ## Pump and outlets (R136) -/

theorem drawing_iff (x : LineState) : x.drawing = true ↔ x = .flowing ∨ x = .stopping := by
  cases x <;> simp [LineState.drawing]

theorem outPump_iff (s : State) : s.outPump = true ↔
    s.outputsEnabled = true ∧ s.mode = .run ∧ ∃ l, (s.line l).st = .flowing ∨ (s.line l).st = .stopping := by
  have hl : (s.lines.one.st.drawing || s.lines.two.st.drawing) = true ↔ ∃ l, (s.line l).st = .flowing ∨ (s.line l).st = .stopping := by
    rw [Bool.or_eq_true, drawing_iff, drawing_iff]
    exact ⟨fun h => h.elim (⟨.one, ·⟩) (⟨.two, ·⟩), fun ⟨l, h⟩ => by cases l; exacts [.inl h, .inr h]⟩
  unfold State.outPump
  rw [Bool.and_eq_true, Bool.and_eq_true, hl, beq_iff_eq, and_assoc]

theorem outOutlet_iff (s : State) (c : Nat) : s.outOutlet c = true ↔
    s.inputs.powerFail = false ∧ s.isUp = true ∧ s.mode = .run ∧ ∃ b, s.pump = some b ∧ b.comp = c := by
  unfold State.outOutlet
  cases hp : s.pump <;> simp [and_assoc]

/-! ## The attention set and ATTN (R193, R194) -/

@[simp] theorem mem_wordIf (b : Bool) (k w : Kw) : w ∈ wordIf b k ↔ b = true ∧ w = k := by
  cases b <;> simp [wordIf]

theorem storeTrouble_iff (s : State) : s.storeTrouble = true ↔
    s.unsaved ≠ [] ∨ s.failed.settings = true ∨ s.failed.load = true ∨ s.failed.route = true := by
  simp [State.storeTrouble, or_assoc]

theorem mem_attentionSet (s : State) (k : Kw) : k ∈ s.attentionSet ↔
    (k = .LINE1 ∧ s.attention.one = true) ∨ (k = .LINE2 ∧ s.attention.two = true)
      ∨ (k = .STORE ∧ (s.unsaved ≠ [] ∨ s.failed.settings = true ∨ s.failed.load = true ∨ s.failed.route = true))
      ∨ (k = .SETTINGS ∧ s.settings.calLost = true) ∨ (k = .CLOCK ∧ s.clock.valid = false) := by
  simp only [State.attentionSet, List.mem_append, mem_wordIf, storeTrouble_iff, Bool.not_eq_true', or_assoc, and_comm]

/-- Words of a list without repetition, each kept or left out. -/
theorem wordIf_sublist (b : Bool) (k : Kw) : List.Sublist (wordIf b k) [k] := by cases b <;> simp [wordIf]

theorem attentionSet_nodup (s : State) : s.attentionSet.Nodup := by
  have hsub : List.Sublist s.attentionSet ([.LINE1] ++ [.LINE2] ++ [.STORE] ++ [.SETTINGS] ++ [.CLOCK]) :=
    ((((wordIf_sublist _ _).append (wordIf_sublist _ _)).append (wordIf_sublist _ _)).append (wordIf_sublist _ _)).append
      (wordIf_sublist _ _)
  exact hsub.nodup (by decide)

theorem attnActive_iff (s : State) : s.attnActive = true ↔ s.isUp = true ∧ s.attentionSet ≠ [] := by
  simp [State.attnActive]

end Sys2Proof.Machine

/-- Settles O12: each output by what turns it on. -/
theorem valveStagesAndPump : Obligations.ValveStagesAndPump := by
  refine ⟨fun s l => ⟨stages_off s l, fun h => ((outHigh_iff s l).1 h).2.2, fun ha hp hi hf => ?_⟩, fun s => ?_⟩
  · have he : s.outputsEnabled = true := (outputsEnabled_iff s).2 ⟨hp, hi, hf, ha⟩
    exact ⟨fun hst => ⟨by simp [State.outLow, he, hst], by simp [State.outHigh, he, hst]⟩,
      fun hst => by simp [State.outLow, he, hst]⟩
  · refine ⟨fun hup hf hm c => ?_, fun ha hf hm => ?_, fun h => ⟨?_, fun c => ?_⟩, fun hup hne => ?_, fun h => ?_,
      attentionSet_nodup s, mem_attentionSet s⟩
    · rw [outOutlet_iff]
      exact ⟨fun ⟨_, _, _, h⟩ => h, fun h => ⟨hf, hup, hm, h⟩⟩
    · rw [outPump_iff, outputsEnabled_iff]
      exact ⟨fun ⟨⟨hp, hi, _, _⟩, _, hl⟩ => ⟨hl, hp, hi⟩, fun ⟨hl, hp, hi⟩ => ⟨⟨hp, hi, hf, ha⟩, hm, hl⟩⟩
    · rw [Bool.eq_false_iff, Ne, outPump_iff, outputsEnabled_iff]
      rintro ⟨⟨_, _, hf, _⟩, hm, _⟩
      rcases h with h | h
      · simp [hf] at h
      · simp [hm] at h
    · rw [Bool.eq_false_iff, Ne, outOutlet_iff]
      rintro ⟨hf, _, hm, _⟩
      rcases h with h | h
      · simp [hf] at h
      · simp [hm] at h
    · have hon : s.attnActive = true := (attnActive_iff s).2 ⟨hup, hne⟩
      simp [State.attnOut, hon]
    · have hoff : s.attnActive = false := by
        rw [Bool.eq_false_iff, Ne, attnActive_iff]
        rintro ⟨hup, hne⟩
        rcases h with h | h
        · simp [hup] at h
        · exact hne h
      cases hh : s.settings.attnHigh <;> simp [State.attnOut, hoff, hh]
end

