-- ==== Sys2Proof/Proofs/AnsweredCommands.lean ====
section
/-! PROOFS. Commands answered at once or refused, the lists of ORD.FIND and ORD.LIST, and STATUS, CLK.SET and CAP.CLEAR. -/

open Sys2Proof Sys2Proof.Machine

namespace Sys2Proof.Machine

/-! ## A command answered at once, or refused -/

/-- The state in which a hearing part judges a line: the line taken from the receiver. -/
def State.lineTaken (s : State) : State := { s with rx := .waiting }

/-- A command refused by its judgement, in a settled part: nothing but the link changes (R2, R191). -/
theorem exec_refused {i : Instr} {w : CmdWord} {c : Code} {s : State} (hw : commandWord i = some w) (hh : s.hears = true)
    (hs : s.settled = true) (hj : judgeCommand i s.lineTaken = .error c) : exec i s = .next (refusedWith w c s) := by
  rw [exec_command hw]
  exact take_refused w (judgeCommand i) c s hh hs hj

/-- A command that is answered at once, in a settled part, with a change of nothing that delivery looks at. -/
theorem exec_answered {i : Instr} {w : CmdWord} {s u : State} {segments : List (List Tok)} (hw : commandWord i = some w)
    (hh : s.hears = true) (hs : s.settled = true) (hphase : u.phase = s.phase) (hflight : u.flight = s.flight)
    (hqueue : u.queue = s.queue) (hends : noEndDue s → noEndDue u) (hj : judgeCommand i s.lineTaken = report u.lineTaken segments) :
    exec i s = .next (answered w segments u) := by
  obtain ⟨hactive, -⟩ := (hears_iff s).1 hh
  obtain ⟨hidle, -, hnone, -⟩ := (settled_iff s).1 hs
  rw [exec_command hw]
  refine take_report w (judgeCommand i) s u.lineTaken segments hh hj ?_ ?_ (hends hnone)
  · exact (isActive_of_phase (s := s) hphase).trans hactive
  · rw [← hflight, ← hqueue] at hidle
    exact hidle

/-- A command that only reports, in a settled part. -/
theorem exec_report {i : Instr} {w : CmdWord} {s : State} {segments : List (List Tok)} (hw : commandWord i = some w)
    (hh : s.hears = true) (hs : s.settled = true) (hj : judgeCommand i s.lineTaken = report s.lineTaken segments) :
    exec i s = .next (answered w segments s) :=
  exec_answered hw hh hs rfl rfl rfl id hj

@[simp] theorem recOf_lineTaken (s : State) (stop : Nat) : s.lineTaken.recOf stop = s.recOf stop := rfl
@[simp] theorem homeOf_lineTaken (s : State) (stop : Nat) : s.lineTaken.homeOf stop = s.homeOf stop := rfl
@[simp] theorem slot_lineTaken (s : State) (n : Nat) : s.lineTaken.slot n = s.slot n := rfl
@[simp] theorem line_lineTaken (s : State) (l : Line) : s.lineTaken.line l = s.line l := rfl
@[simp] theorem meter_lineTaken (s : State) (l : Line) : s.lineTaken.meter l = s.meter l := rfl

/-! ## Ranges -/

@[simp] theorem within_iff (lo hi x : Nat) : within lo hi x = true ↔ lo ≤ x ∧ x ≤ hi := by simp [within]

theorem withinOpt_iff (lo hi : Nat) (x : Option Nat) : withinOpt lo hi x = true ↔ ∀ v, x = some v → lo ≤ v ∧ v ≤ hi := by
  cases x <;> simp [withinOpt]

@[simp] theorem stopOk_iff (n : Nat) : stopOk n = true ↔ 1 ≤ n ∧ n ≤ 9999 := within_iff _ _ _

@[simp] theorem accountOk_iff (n : Nat) : accountOk n = true ↔ 1 ≤ n ∧ n ≤ 9999999999 := within_iff _ _ _

@[simp] theorem ofNum_num (l : Line) : Line.ofNum l.num = some l := by cases l <;> rfl

theorem withLine_num (l : Line) (k : Line → Except Code Taken) : withLine l.num k = k l := by simp [withLine]

theorem ofNum_none {n : Nat} (h1 : n ≠ 1) (h2 : n ≠ 2) : Line.ofNum n = none := by simp [Line.ofNum, h1, h2]

theorem withLine_none {n : Nat} (h1 : n ≠ 1) (h2 : n ≠ 2) (k : Line → Except Code Taken) : withLine n k = .error .RANGE := by
  simp [withLine, ofNum_none h1 h2]

/-! ## Lists of numbers (R25, R26) -/

theorem insertAsc_eq (n : Nat) : ∀ xs : List Nat, insertAsc n xs = xs.orderedInsert (· ≤ ·) n
  | [] => rfl
  | x :: xs => by simp [insertAsc, insertAsc_eq n xs]

theorem ascending_eq : ∀ xs : List Nat, ascending xs = xs.insertionSort (· ≤ ·)
  | [] => rfl
  | x :: xs => by rw [ascending, ascending_eq xs, insertAsc_eq]; rfl

theorem ascending_perm (xs : List Nat) : (ascending xs).Perm xs := ascending_eq xs ▸ List.perm_insertionSort _ xs

theorem ascending_pairwise (xs : List Nat) : (ascending xs).Pairwise (· ≤ ·) := by
  rw [ascending_eq]
  exact List.pairwise_insertionSort (· ≤ ·) xs

/-- Ascending numbers none of which stands twice rise strictly. -/
theorem pairwise_lt_of_nodup {xs : List Nat} (h : xs.Pairwise (· ≤ ·)) (hd : xs.Nodup) : xs.Pairwise (· < ·) :=
  (h.and hd).imp fun ⟨hle, hne⟩ => Nat.lt_of_le_of_ne hle hne

/-- The stops of the records that satisfy a test, in order. -/
def State.stopsWith (s : State) (p : Record → Bool) : List Nat := ascending ((s.records.filter p).map (·.stop))

theorem mem_stopsWith (s : State) (p : Record → Bool) (n : Nat) :
    n ∈ s.stopsWith p ↔ ∃ r ∈ s.records, p r = true ∧ r.stop = n := by
  rw [State.stopsWith, (ascending_perm _).mem_iff]
  simp [and_assoc]

theorem stopsWith_nodup (s : State) (p : Record → Bool) (h : (s.records.map (·.stop)).Nodup) : (s.stopsWith p).Nodup :=
  (ascending_perm _).nodup_iff.2 (h.sublist (List.filter_sublist.map _))

theorem mem_startingAt (start : Option Nat) (xs : List Nat) (n : Nat) : n ∈ startingAt start xs ↔ start.getD 0 ≤ n ∧ n ∈ xs := by
  simp [startingAt, and_comm]

/-- Sorting and the cut at FROM may be made in either order. -/
theorem stopsOf_pairwise (s : State) (account : Nat) (start : Option Nat) : (s.stopsOf account start).Pairwise (· ≤ ·) :=
  ascending_pairwise _

theorem mem_stopsOf (s : State) (account : Nat) (start : Option Nat) (n : Nat) :
    n ∈ s.stopsOf account start ↔ start.getD 0 ≤ n ∧ ∃ r ∈ s.records, r.account = account ∧ r.stop = n := by
  rw [State.stopsOf, (ascending_perm _).mem_iff, mem_startingAt]
  simp [and_assoc]

theorem stopsOf_nodup (s : State) (account : Nat) (start : Option Nat) (h : (s.records.map (·.stop)).Nodup) :
    (s.stopsOf account start).Nodup :=
  (ascending_perm _).nodup_iff.2 ((h.sublist (List.filter_sublist.map _)).filter _)

theorem mem_slotNumbers (p : Slot → Bool) (n : Nat) :
    ∀ (xs : List Slot) (k : Nat), n ∈ slotNumbers p k xs ↔ ∃ i x, n = k + i ∧ xs[i]? = some x ∧ p x = true
  | [], k => by simp [slotNumbers]
  | x :: xs, k => by
    have hrest : n ∈ slotNumbers p (k + 1) xs ↔ ∃ i y, n = k + (i + 1) ∧ (x :: xs)[i + 1]? = some y ∧ p y = true := by
      rw [mem_slotNumbers p n xs (k + 1)]
      simp only [List.getElem?_cons_succ, Nat.add_assoc, Nat.add_comm 1]
    have hsplit : (∃ i y, n = k + i ∧ (x :: xs)[i]? = some y ∧ p y = true)
        ↔ (n = k ∧ p x = true) ∨ ∃ i y, n = k + (i + 1) ∧ (x :: xs)[i + 1]? = some y ∧ p y = true := by
      constructor
      · rintro ⟨i, y, hn, hy, hp⟩
        cases i with
        | zero =>
          obtain rfl : x = y := by simpa using hy
          exact .inl ⟨hn, hp⟩
        | succ i => exact .inr ⟨i, y, hn, hy, hp⟩
      · rintro (⟨hn, hp⟩ | ⟨i, y, h⟩)
        · exact ⟨0, x, hn, rfl, hp⟩
        · exact ⟨i + 1, y, h⟩
    rw [hsplit, ← hrest, slotNumbers]
    split
    · next hp => simp [hp]
    · next hp => simp [hp]

theorem slotNumbers_pairwise (p : Slot → Bool) : ∀ (xs : List Slot) (k : Nat), (slotNumbers p k xs).Pairwise (· < ·)
  | [], _ => .nil
  | x :: xs, k => by
    unfold slotNumbers
    split
    · refine List.pairwise_cons.2 ⟨fun n hn => ?_, slotNumbers_pairwise p xs (k + 1)⟩
      obtain ⟨i, _, rfl, _⟩ := (mem_slotNumbers p n xs (k + 1)).1 hn
      omega
    · exact slotNumbers_pairwise p xs (k + 1)

theorem isDamaged_iff (x : Slot) : x.isDamaged = true ↔ ∃ stop account, x.st = .inUse (.damaged stop account) := by
  unfold Slot.isDamaged
  split
  · next stop account h => simp [h]
  · next hno => exact ⟨fun h => absurd h Bool.false_ne_true, fun ⟨a, b, h⟩ => absurd h (hno a b)⟩

/-- The numbers of the DAMAGED records' slots. -/
theorem inState_damaged (s : State) (start : Option Nat) :
    s.inState .damaged start = startingAt start (slotNumbers Slot.isDamaged 1 s.slots) := rfl

theorem inState_of_ne (s : State) {st : RecState} (start : Option Nat) (h : st ≠ .damaged) :
    s.inState st start = startingAt start (s.stopsWith (fun r => r.state == st)) := by
  simp [State.inState, State.stopsWith, h]

theorem mem_inState_damaged (s : State) (start : Option Nat) (n : Nat) : n ∈ s.inState .damaged start ↔
    start.getD 0 ≤ n ∧ ∃ x stop account, s.slot n = some x ∧ x.st = .inUse (.damaged stop account) := by
  rw [inState_damaged, mem_startingAt, mem_slotNumbers]
  refine and_congr_right fun _ => ⟨?_, ?_⟩
  · rintro ⟨i, x, rfl, hx, hd⟩
    obtain ⟨stop, account, hst⟩ := (isDamaged_iff x).1 hd
    exact ⟨x, stop, account, by rwa [Nat.add_comm, slot_succ], hst⟩
  · rintro ⟨x, stop, account, hx, hst⟩
    cases n with
    | zero => simp at hx
    | succ i => exact ⟨i, x, Nat.add_comm _ _, by rwa [slot_succ] at hx, (isDamaged_iff x).2 ⟨stop, account, hst⟩⟩

theorem mem_inState (s : State) {st : RecState} (start : Option Nat) (h : st ≠ .damaged) (n : Nat) :
    n ∈ s.inState st start ↔ start.getD 0 ≤ n ∧ ∃ r ∈ s.records, r.state = st ∧ r.stop = n := by
  rw [inState_of_ne s start h, mem_startingAt, mem_stopsWith]
  simp

theorem inState_pairwise (s : State) (st : RecState) (start : Option Nat) : (s.inState st start).Pairwise (· ≤ ·) := by
  by_cases h : st = .damaged
  · subst h
    exact ((slotNumbers_pairwise _ _ _).imp Nat.le_of_lt).filter _
  · rw [inState_of_ne s start h]
    exact (ascending_pairwise _).filter _

theorem inState_strict (s : State) (st : RecState) (start : Option Nat) (hd : (s.records.map (·.stop)).Nodup) :
    (s.inState st start).Pairwise (· < ·) := by
  by_cases h : st = .damaged
  · subst h
    exact (slotNumbers_pairwise _ _ _).filter _
  · refine pairwise_lt_of_nodup (inState_pairwise s st start) ?_
    rw [inState_of_ne s start h]
    exact (stopsWith_nodup s _ hd).filter _

/-- Numbers as tokens, by way of the integers they are. -/
theorem map_nat_eq (xs : List Nat) : xs.map nat = (xs.flatMap fun n : Nat => [(n : Int)]).map Tok.num := by
  induction xs with
  | nil => rfl
  | cons x xs ih => rw [List.map_cons, ih]; rfl

/-- A page of at most 40 numbers carries them all. -/
theorem page_short (xs : List Nat) (h : xs.length ≤ 40) : page xs = xs.map nat := by
  simp only [page, List.take_of_length_le h, List.drop_eq_nil_of_le h, List.append_nil]

/-- A page of more than 40 numbers ends with MORE and the first not carried. -/
theorem page_long (xs : List Nat) (y : Nat) (h : xs[40]? = some y) : page xs = (xs.take 40).map nat ++ [.kw .MORE, .num y] := by
  obtain ⟨hlt, hy⟩ := List.getElem?_eq_some_iff.1 h
  simp only [page, List.drop_eq_getElem_cons hlt, hy]
  rfl

end Sys2Proof.Machine

/-- Settles O30: each judgement's report, and the one refusal. -/
theorem statusClockAndCaptures : Obligations.StatusClockAndCaptures := by
  intro s hh hs
  refine ⟨?_, fun value hv => ?_, fun value hv => ?_, ?_⟩
  · exact exec_answered (u := { s with attention := ⟨false, false⟩ }) rfl hh hs rfl rfl rfl id rfl
  · exact exec_answered (u := { s with clock := ⟨dateOfNum value, true⟩ }) rfl hh hs rfl rfl rfl id (if_pos hv)
  · exact exec_refused rfl hh hs (if_neg (by simp [hv]))
  · exact exec_answered (u := { s with captures := ⟨none, []⟩ }) rfl hh hs rfl rfl rfl id rfl
end

