-- ==== Sys2Proof/Proofs/ReportCommands.lean ====
section
/-! PROOFS. The commands that only report. -/

open Sys2Proof Sys2Proof.Machine

namespace Sys2Proof.Machine

/-! ## The occupant of a slot (R1) -/

section
variable {s : State} {n : Nat} (hn : 1 ≤ n ∧ n ≤ 80)
include hn

theorem bySlot_inUse {x : Slot} {o : Occupant} (hx : s.slot n = some x) (ho : x.st = .inUse o) : s.bySlot n = .ok o := by
  simp [State.bySlot, hn, hx, ho]

theorem bySlot_empty {x : Slot} (hx : s.slot n = some x) (ho : x.isInUse = false) : s.bySlot n = .error .NOT_FOUND := by
  have hst : ∀ o, x.st ≠ .inUse o := fun o h => by simp [Slot.isInUse, h] at ho
  unfold State.bySlot
  rw [if_pos ((within_iff _ _ _).2 hn), hx]
  dsimp only
  split
  · exact absurd ‹_› (hst _)
  · rfl

end

theorem bySlot_range {s : State} {n : Nat} (hn : n = 0 ∨ 80 < n) : s.bySlot n = .error .RANGE := by
  have hout : ¬(1 ≤ n ∧ n ≤ 80) := by omega
  simp [State.bySlot, hout]

@[simp] theorem bySlot_lineTaken (s : State) (n : Nat) : s.lineTaken.bySlot n = s.bySlot n := rfl

/-! ## The reports -/

/-- A reading command of a hearing settled part and its report. -/
def Reports (i : Instr) (w : CmdWord) (segments : List (List Tok)) (s : State) : Prop :=
  exec i s = .next (answered w segments s)

section
variable {s : State} (hh : s.hears = true) (hs : s.settled = true)
include hh hs

theorem reports_ordGet_stop {stop : Nat} {r : Record} {n : Nat} (hstop : 1 ≤ stop ∧ stop ≤ 9999) (hr : s.recOf stop = some r)
    (hn : s.homeOf stop = some n) : Reports (.ordGet (.stop stop)) .ORD_GET [s.recordReport n r] s := by
  refine exec_report rfl hh hs ?_
  refine (withRecord_found s.lineTaken stop r _ hstop hr).trans ?_
  simp [hn]
  rfl

theorem reports_ordGet_slot {n : Nat} {x : Slot} {r : Record} (hn : 1 ≤ n ∧ n ≤ 80) (hx : s.slot n = some x)
    (hr : x.st = .inUse (.record r)) : Reports (.ordGet (.slot n)) .ORD_GET [s.recordReport n r] s := by
  refine exec_report rfl hh hs ?_
  simp only [judgeCommand, judgeOrdGet, bySlot_lineTaken, bySlot_inUse hn hx hr]
  rfl

theorem reports_ordGet_damaged {n : Nat} {x : Slot} {stop account : Nat} (hn : 1 ≤ n ∧ n ≤ 80) (hx : s.slot n = some x)
    (hr : x.st = .inUse (.damaged stop account)) : Reports (.ordGet (.slot n)) .ORD_GET [damagedReport n stop account] s := by
  refine exec_report rfl hh hs ?_
  simp only [judgeCommand, judgeOrdGet, bySlot_lineTaken, bySlot_inUse hn hx hr]

theorem reports_ordFind {account : Nat} {start : Option Nat} (haccount : 1 ≤ account ∧ account ≤ 9999999999)
    (hstart : ∀ f, start = some f → 1 ≤ f ∧ f ≤ 9999) (hne : s.stopsOf account start ≠ []) :
    Reports (.ordFind account start) .ORD_FIND [page (s.stopsOf account start)] s := by
  refine exec_report rfl hh hs ?_
  refine (if_pos ⟨(accountOk_iff _).2 haccount, (withinOpt_iff _ _ _).2 hstart⟩).trans ?_
  exact if_neg hne

theorem reports_ordList {st : RecState} {start : Option Nat}
    (hstart : ∀ f, start = some f → 1 ≤ f ∧ f ≤ if st = .damaged then 80 else 9999) :
    Reports (.ordList st start) .ORD_LIST [.num ((s.inState st start).take 40).length :: page (s.inState st start)] s :=
  exec_report rfl hh hs (if_pos ((withinOpt_iff _ _ _).2 hstart))

theorem reports_tktGet {stop : Nat} {r : Record} {k : Ticket} (hstop : 1 ≤ stop ∧ stop ≤ 9999) (hr : s.recOf stop = some r)
    (hst : r.state = .ticketed ∨ r.state = .issued) (hk : r.ticket = some k) :
    Reports (.tktGet stop) .TKT_GET (k.reply r.stop r.account r.issues) s := by
  refine exec_report rfl hh hs ?_
  refine (withRecord_found s.lineTaken stop r _ hstop hr).trans ?_
  simp only [r.isFrozen_iff.2 hst, hk]

theorem reports_lnStat (l : Line) : Reports (.lnStat l.num) .LN_STAT [s.lineReport l] s :=
  exec_report rfl hh hs (withLine_num l _)

theorem reports_cmpGet {c : Nat} (hc : 1 ≤ c ∧ c ≤ 4) :
    Reports (.cmpGet (some c)) .CMP_GET [s.compToks c ++ .kw .PUMP :: s.pumpToks ++ s.hoseToks] s :=
  exec_report rfl hh hs (if_pos ((within_iff _ _ _).2 hc))

theorem reports_prdGet {p : Nat} (hp : 1 ≤ p ∧ p ≤ 6) : Reports (.prdGet (some p)) .PRD_GET [s.productToks p] s :=
  exec_report rfl hh hs (if_pos ((within_iff _ _ _).2 hp))

theorem reports_setGet_none (l : Line) (hl : (s.line l).latched = none) :
    Reports (.setGet (some l.num)) .SET_GET [[.kw .NONE]] s := by
  refine exec_report rfl hh hs ((withLine_num l _).trans ?_)
  rw [line_lineTaken, hl]

theorem reports_setGet (l : Line) {x : Latched} (hl : (s.line l).latched = some x) :
    Reports (.setGet (some l.num)) .SET_GET [x.toks] s := by
  refine exec_report rfl hh hs ((withLine_num l _).trans ?_)
  rw [line_lineTaken, hl]

theorem reports_calGet (l : Line) {p : Nat} (hp : 1 ≤ p ∧ p ≤ 6) :
    Reports (.calGet (some (l.num, p))) .CAL_GET [setToks (s.settings.calSet l p)] s :=
  exec_report rfl hh hs ((withLine_num l _).trans (if_pos ((within_iff _ _ _).2 hp)))

theorem reports_store {n : Nat} {x : Slot} (hn : 1 ≤ n ∧ n ≤ 80) (hx : s.slot n = some x) :
    Reports (.store (some n)) .STORE [x.report n] s := by
  refine exec_report rfl hh hs ((if_pos ((within_iff _ _ _).2 hn)).trans ?_)
  rw [slot_lineTaken, hx]

/-- The commands that report a part of the state as a whole. -/
theorem reports_whole : Reports (.cmpGet none) .CMP_GET
        [s.compToks 1 ++ s.compToks 2 ++ s.compToks 3 ++ s.compToks 4 ++ .kw .PUMP :: s.pumpToks ++ s.hoseToks] s
      ∧ Reports (.prdGet none) .PRD_GET [[1, 2, 3, 4, 5, 6].flatMap s.productToks] s
      ∧ Reports (.setGet none) .SET_GET [s.settingsToks] s ∧ Reports (.calGet none) .CAL_GET [s.calToks] s
      ∧ Reports .rteTotals .RTE_TOTALS s.totalsReport s
      ∧ Reports .clkGet .CLK_GET [[.time s.clock.now, .kw (if s.clock.valid then .VALID else .INVALID)]] s
      ∧ Reports .ident .IDENT [s.identReport] s ∧ Reports (.store none) .STORE [s.storeReport] s :=
  ⟨exec_report rfl hh hs rfl, exec_report rfl hh hs rfl, exec_report rfl hh hs rfl, exec_report rfl hh hs rfl,
    exec_report rfl hh hs rfl, exec_report rfl hh hs rfl, exec_report rfl hh hs rfl, exec_report rfl hh hs rfl⟩

end

/-- LN.STAT's report carries the run accumulators. -/
theorem accumulators_infix (s : State) (l : Line) : (s.line l).accumulatorToks <:+: s.lineReport l := by
  have hctx : s.contextToks l = _ ++ (s.line l).accumulatorToks ++ ((s.line l).prove.map ProveResult.fields).getD [] := rfl
  have hreport : s.contextToks l <+: s.lineReport l := by
    unfold State.lineReport
    simp only [List.append_assoc]
    exact List.prefix_append _ _
  exact List.IsInfix.trans ⟨_, _, hctx.symm⟩ hreport.isInfix

end Sys2Proof.Machine

/-- Settles O28: each report by its judgement; the lists by the sort and the cut at FROM. -/
theorem reportsChangeNothing : Obligations.ReportsChangeNothing := by
  refine ⟨fun s hh hs => ?_, fun xs h => (page_short xs h).trans ?_, fun xs y h => (page_long xs y h).trans ?_,
    fun s account start => ⟨stopsOf_pairwise s account start, fun hd => ?_, mem_stopsOf s account start⟩,
    fun s st start => ⟨inState_pairwise s st start, inState_strict s st start, fun h => mem_inState s start h, ?_⟩⟩
  · obtain ⟨hcmp, hprd, hset, hcal, hrte, hclk, hident, hstore⟩ := reports_whole hh hs
    exact ⟨fun stop r n h1 h2 hr hn => reports_ordGet_stop hh hs ⟨h1, h2⟩ hr hn,
      fun n x stop account h1 h2 hx hr => reports_ordGet_damaged hh hs ⟨h1, h2⟩ hx hr,
      fun n x r h1 h2 hx hr => reports_ordGet_slot hh hs ⟨h1, h2⟩ hx hr,
      fun account start h1 h2 hf hne => reports_ordFind hh hs ⟨h1, h2⟩ hf hne,
      fun st start hf => reports_ordList hh hs hf,
      fun stop r k h1 h2 hr hst hk => reports_tktGet hh hs ⟨h1, h2⟩ hr hst hk,
      fun l => ⟨reports_lnStat hh hs l, accumulators_infix s l⟩,
      fun c h1 h2 => reports_cmpGet hh hs ⟨h1, h2⟩, hcmp, fun p h1 h2 => reports_prdGet hh hs ⟨h1, h2⟩, hprd, hset,
      fun l hl => reports_setGet_none hh hs l hl, fun l x hl => reports_setGet hh hs l hl, hcal,
      fun l p h1 h2 => reports_calGet hh hs l ⟨h1, h2⟩, hrte, hclk, hident, hstore,
      fun n x h1 h2 hx => reports_store hh hs ⟨h1, h2⟩ hx⟩
  · exact map_nat_eq xs
  · rw [map_nat_eq]; rfl
  · exact pairwise_lt_of_nodup (stopsOf_pairwise s account start) (stopsOf_nodup s account start hd)
  · rintro rfl
    exact mem_inState_damaged s start
end

