-- ==== Sys2Proof/Proofs/RefusedCommands.lean ====
section
/-! PROOFS. The commands refused. -/

open Sys2Proof Sys2Proof.Machine

namespace Sys2Proof.Machine

/-! ## A line turned away (R191) -/

/-- With a command in progress, a line of any command word is turned away, and nothing else happens. -/
theorem exec_busy {i : Instr} {w : CmdWord} {c : InProgress} {s : State} (hw : commandWord i = some w) (hlink : s.linkOpen = true)
    (hd : s.rx.discard = false) (hc : s.cmd = some c) (hs : s.settled = true) :
    exec i s = .next { s with rx := .waiting, tx := s.tx ++ [⟨w.bytes, .no .BUSY, [], false⟩] } := by
  have hactive : s.isActive = true := by
    unfold State.linkOpen at hlink
    simp only [Bool.and_eq_true] at hlink
    exact hlink.1.1
  have harrive : arrive w (judgeCommand i) s = { s with rx := .waiting, tx := s.tx ++ [⟨w.bytes, .no .BUSY, [], false⟩] } := by
    rw [arrive, if_pos hlink, if_neg (by simp [hd]), if_pos (by simp [hc])]
    rfl
  rw [exec_command hw, take_eq w _ s (ne_restart_of_active s hactive), harrive]
  refine congrArg _ (commit_settled _ hactive ?_)
  obtain ⟨hidle, hreply, hends, -⟩ := (settled_iff s).1 hs
  exact (settled_iff _).2 ⟨hidle, hreply, hends, by simp [State.maySleep, hc]⟩

/-! ## Checks of fields, as the rules say them -/

theorem presetOk_iff (k : OrderKind) (p : Option Nat) : presetOk k p = true ↔ goodPreset k p := by
  cases k <;> cases p <;> simp [presetOk, goodPreset]

theorem priceOk_iff (p : Option Nat) : priceOk p = true ↔ ∀ v, p = some v → 1 ≤ v ∧ v ≤ 99999 := withinOpt_iff _ _ _

theorem creditOk_iff (p : Option Nat) : creditOk p = true ↔ ∀ v, p = some v → v ≤ 9999999 :=
  (withinOpt_iff _ _ _).trans (by simp)

theorem dropVolumeOk_iff (p : Option Nat) : dropVolumeOk p = true ↔ ∀ v, p = some v → 1 ≤ v ∧ v ≤ 2000000 := withinOpt_iff _ _ _

theorem goodTerms_iff (price credit : Option Nat) : (priceOk price = true ∧ creditOk credit = true) ↔ goodTerms price credit := by
  rw [priceOk_iff, creditOk_iff, goodTerms]

theorem isShapable_iff (r : Record) : r.isShapable = true ↔ r.state = .planned ∨ r.state = .held := by simp [Record.isShapable]

theorem ordNewOk_iff (s : State) (stop account product : Nat) (kind : OrderKind) (preset price credit : Option Nat) :
    ordNewOk s stop account product kind preset price credit = true ↔ goodOrder stop account product kind preset price credit s := by
  simp only [ordNewOk, Bool.and_eq_true, stopOk_iff, accountOk_iff, within_iff, presetOk_iff, and_assoc, goodOrder, goodStop,
    ← goodTerms_iff]

/-- The fields of ORD.DROP that its first check looks at. -/
def dropFieldsOk (k : Nat) (tank cap preset : Option Nat) (noCap noPreset : Bool) : Bool :=
  within 1 3 k && withinOpt 1 9 tank && dropVolumeOk cap && dropVolumeOk preset && !(cap.isSome && noCap)
    && !(preset.isSome && noPreset)

theorem dropFieldsOk_iff (stop k : Nat) (tank cap preset : Option Nat) (noCap noPreset : Bool) :
    (dropFieldsOk k tank cap preset noCap noPreset = true ∧ stopOk stop = true) ↔ goodDrop stop k tank cap preset noCap noPreset := by
  simp only [dropFieldsOk, goodDrop, goodStop, Bool.and_eq_true, within_iff, withinOpt_iff, dropVolumeOk_iff, stopOk_iff,
    Bool.not_eq_true', ← Bool.not_eq_true (_ && _), and_assoc]
  tauto

/-- The preset of an amendment fits its kind, where it names both. -/
def kindFits (a : Amend) : Bool :=
  match a.kind with
  | some k => a.preset.isNone || presetOk k a.preset
  | none => true

/-- The drop and its preset that an amendment names are in range. -/
def dropInRange (a : Amend) : Bool :=
  match a.dpreset with
  | some (k, p) => within 1 3 k && within 1 2000000 p
  | none => true

theorem fieldsOk_eq (a : Amend) : Amend.fieldsOk a =
    ((a.price.isSome || a.noPrice || a.credit.isSome || a.noCredit || a.kind.isSome || a.preset.isSome || a.dpreset.isSome)
      && priceOk a.price && creditOk a.credit && !(a.price.isSome && a.noPrice) && !(a.credit.isSome && a.noCredit)
      && withinOpt 1 9999999 a.preset && kindFits a && dropInRange a) := rfl

theorem kindFits_iff (a : Amend) :
    kindFits a = true ↔ ∀ k p, a.kind = some k → a.preset = some p → goodPreset k (some p) := by
  unfold kindFits
  cases a.kind with
  | none => simp
  | some k => cases hp : a.preset <;> simp [presetOk_iff]

theorem dropInRange_iff (a : Amend) :
    dropInRange a = true ↔ ∀ k p, a.dpreset = some (k, p) → (1 ≤ k ∧ k ≤ 3) ∧ 1 ≤ p ∧ p ≤ 2000000 := by
  unfold dropInRange
  cases a.dpreset with
  | none => simp
  | some d =>
    simp only [Bool.and_eq_true, within_iff, Option.some.injEq]
    exact ⟨fun h k p hd => by rw [hd] at h; exact h, fun h => h d.1 d.2 rfl⟩

theorem fieldsOk_iff (a : Amend) : Amend.fieldsOk a = true ↔ goodAmend a := by
  simp only [fieldsOk_eq, goodAmend, Bool.and_eq_true, Bool.or_eq_true, kindFits_iff, dropInRange_iff, withinOpt_iff,
    Bool.not_eq_true', ← Bool.not_eq_true (_ && _), ← goodTerms_iff, or_assoc]
  tauto

/-- A new kind comes with its preset, or needs none. -/
def kindGiven (a : Amend) (r : Record) : Bool :=
  match a.kind with
  | some k => k == r.kind || k == .fill || a.preset.isSome
  | none => true

/-- The drop that an amendment names is in the list. -/
def dropListed (a : Amend) (r : Record) : Bool :=
  match a.dpreset with
  | some (k, _) => (nth1 r.drops k).isSome
  | none => true

theorem recordOk_eq (a : Amend) (r : Record) : Amend.recordOk a r =
    (presetOk (a.kind.getD r.kind) (if a.preset.isSome = true then a.preset else if a.kind = some .fill then none else r.preset)
      && kindGiven a r && dropListed a r) := rfl

theorem kindGiven_iff (a : Amend) (r : Record) :
    kindGiven a r = true ↔ ∀ k, a.kind = some k → k = r.kind ∨ k = .fill ∨ a.preset.isSome = true := by
  unfold kindGiven
  cases a.kind <;> simp [or_assoc]

theorem dropListed_iff (a : Amend) (r : Record) :
    dropListed a r = true ↔ ∀ k p, a.dpreset = some (k, p) → (nth1 r.drops k).isSome = true := by
  unfold dropListed
  cases a.dpreset with
  | none => simp
  | some d =>
    simp only [Option.some.injEq]
    exact ⟨fun h k p hd => by rw [hd] at h; exact h, fun h => h d.1 d.2 rfl⟩

theorem recordOk_iff (a : Amend) (r : Record) : Amend.recordOk a r = true ↔ amendFits a r := by
  rw [recordOk_eq, Bool.and_eq_true, Bool.and_eq_true, presetOk_iff, kindGiven_iff, dropListed_iff, and_assoc, amendFits]

/-- What a BOUND record does not accept (R12). -/
theorem boundOk_eq_false (a : Amend) (r : Record) (h : a.price.isSome = true ∨ a.noPrice = true ∨ a.credit.isSome = true
    ∨ a.noCredit = true ∨ a.kind.isSome = true ∨ ∃ k p d, a.dpreset = some (k, p) ∧ nth1 r.drops k = some d ∧ d.isDone = true) :
    Amend.boundOk a r = false := by
  unfold Amend.boundOk
  rcases h with h | h | h | h | h | ⟨k, p, d, hk, hd, hdone⟩
  · simp [Option.isNone_eq_false_iff.2 h]
  · simp [h]
  · simp [Option.isNone_eq_false_iff.2 h]
  · simp [h]
  · simp [Option.isNone_eq_false_iff.2 h]
  · simp [hk, hd, hdone]

/-! ## Commands that name a stop -/

theorem withRecord_range {s : State} {stop : Nat} {fields : Bool} (h : ¬(fields = true ∧ stopOk stop = true))
    (k : Record → Except Code Taken) : withRecord s stop fields k = .error .RANGE := if_neg h

theorem withRecord_missing {s : State} {stop : Nat} {fields : Bool} (h : fields = true ∧ stopOk stop = true)
    (hr : s.recOf stop = none) (k : Record → Except Code Taken) : withRecord s stop fields k = .error .NOT_FOUND := by
  rw [withRecord, if_pos h, hr]

theorem withRecord_some {s : State} {stop : Nat} {fields : Bool} {r : Record} (h : fields = true ∧ stopOk stop = true)
    (hr : s.recOf stop = some r) (k : Record → Except Code Taken) : withRecord s stop fields k = k r := by
  rw [withRecord, if_pos h, hr]

/-- The commands whose one field is a stop look the record up first. -/
theorem judge_withRecord {i : Instr} {stop : Nat}
    (h : i ∈ [.ordHold stop, .ordRelease stop, .ordCancel stop, .ordDropClear stop, .ordGet (.stop stop), .ordRetire (.stop stop),
      .tktGet stop, .tktIssue stop]) :
    ∀ s, ∃ k, judgeCommand i s = withRecord s stop true k := by
  simp only [List.mem_cons, List.not_mem_nil, or_false] at h
  rcases h with rfl | rfl | rfl | rfl | rfl | rfl | rfl | rfl <;> exact fun s => ⟨_, rfl⟩

theorem ordDropClear_state {s : State} {stop : Nat} {r : Record} (hstop : stopOk stop = true) (hr : s.recOf stop = some r)
    (hlen : 2 ≤ r.drops.length) (hst : ¬ r.isShapable = true) : judgeOrdDropClear stop s = .error .STATE := by
  rw [judgeOrdDropClear, withRecord_some ⟨rfl, hstop⟩ hr, if_neg (by omega), if_neg hst]

theorem judgeTktGet_not_frozen {s : State} {stop : Nat} {r : Record} (hstop : stopOk stop = true) (hr : s.recOf stop = some r)
    (h : ¬ r.isFrozen = true) : judgeTktGet stop s = .error .STATE := by
  rw [judgeTktGet, withRecord_some ⟨rfl, hstop⟩ hr, Bool.eq_false_iff.2 h]

/-! ## ORD.AMEND refused (R11, R12) -/

section
variable {stop : Nat} {a : Amend} {r : Record} {s : State} (hstop : goodStop stop) (ha : goodAmend a) (hr : s.recOf stop = some r)
include hstop ha hr

theorem judgeOrdAmend_found : judgeOrdAmend stop a s =
    if r.isFrozen then .error .STATE
    else if Amend.recordOk a r = false then .error .RANGE
    else if r.isShapable then amendTaken (s.changeRec stop (Amend.apply a)) stop (Amend.apply a r)
    else if Amend.boundOk a r then
      match s.lineOf stop with
      | some l => judgeBoundAmend l stop a r s
      | none => .error .STATE
    else .error .STATE :=
  withRecord_some ⟨(fieldsOk_iff a).2 ha, (stopOk_iff stop).2 hstop⟩ hr _

theorem judgeOrdAmend_frozen (h : r.state = .ticketed ∨ r.state = .issued) : judgeOrdAmend stop a s = .error .STATE := by
  rw [judgeOrdAmend_found hstop ha hr, if_pos ((Record.isFrozen_iff r).2 h)]

theorem judgeOrdAmend_unfit (h : r.state = .planned ∨ r.state = .held ∨ r.state = .bound) (hfit : ¬ amendFits a r) :
    judgeOrdAmend stop a s = .error .RANGE := by
  have hfrozen : ¬ r.isFrozen = true := by
    rw [Record.isFrozen_iff]
    rcases h with h | h | h <;> simp [h]
  rw [judgeOrdAmend_found hstop ha hr, if_neg hfrozen, if_pos (by rwa [Bool.eq_false_iff, Ne, recordOk_iff])]

theorem judgeOrdAmend_bound (h : r.state = .bound) (hfit : amendFits a r) : judgeOrdAmend stop a s =
    if Amend.boundOk a r then
      match s.lineOf stop with
      | some l => judgeBoundAmend l stop a r s
      | none => .error .STATE
    else .error .STATE := by
  rw [judgeOrdAmend_found hstop ha hr, if_neg (by simp [Record.isFrozen_iff, h]), if_neg (by simp [(recordOk_iff a r).2 hfit]),
    if_neg (by simp [isShapable_iff, h])]

end

/-! ## Line numbers -/

/-- The commands of one line refuse a line number that is neither 1 nor 2. -/
theorem judge_noLine {i : Instr} {n : Nat} (h1 : n ≠ 1) (h2 : n ≠ 2)
    (h : i ∈ [.lnDisarm n, .lnStart n, .lnNext n, .lnResume n, .lnPause n, .lnEnddrop n, .lnClose n, .lnSetup n, .lnAck n,
      .lnStat n]) (s : State) : judgeCommand i s = .error .RANGE := by
  simp only [List.mem_cons, List.not_mem_nil, or_false] at h
  rcases h with rfl | rfl | rfl | rfl | rfl | rfl | rfl | rfl | rfl | rfl <;> exact withLine_none h1 h2 _

end Sys2Proof.Machine

/-- Settles O29: each refusal is its judgement's code, and a refusal changes nothing but the link. -/
theorem refusedCommandChangesNothing : Obligations.RefusedCommandChangesNothing := by
  refine ⟨fun i w e s hh hs hw hj => exec_refused hw hh hs hj,
    fun i w c s hlink hd hc hs hw => exec_busy hw hlink hd hc hs, fun i w stop s hh hs hw hi => ?_,
    fun stop account product kind preset price credit s hh hs => ?_,
    fun stop k tank cap preset noCap noPreset s hh hs => ?_, fun stop a s hh hs => ?_, fun account start st s hh hs => ?_,
    fun n p s hh hs => ?_⟩
  · obtain ⟨k, hk⟩ := judge_withRecord hi s.lineTaken
    refine ⟨fun hstop => ?_, fun hstop hr => ?_, fun r hstop hr => ?_⟩
    · exact exec_refused hw hh hs (hk.trans (withRecord_range (fun h => hstop ((stopOk_iff stop).1 h.2)) k))
    · exact exec_refused hw hh hs (hk.trans (withRecord_missing ⟨rfl, (stopOk_iff stop).2 hstop⟩ hr k))
    · have hok : stopOk stop = true := (stopOk_iff stop).2 hstop
      have hfound := withRecord_some (s := s.lineTaken) (fields := true) ⟨rfl, hok⟩ hr
      have hshape : r.state ≠ .planned → r.state ≠ .held → ¬ r.isShapable = true := fun hp hh h =>
        ((isShapable_iff r).1 h).elim hp hh
      have hfrozen : r.state ≠ .ticketed → r.state ≠ .issued → ¬ r.isFrozen = true := fun ht hi h =>
        (r.isFrozen_iff.1 h).elim ht hi
      refine ⟨?_, ?_, ?_, ?_, ?_, ?_, ?_⟩
      · rintro rfl h
        exact exec_refused hw hh hs ((hfound _).trans (if_neg h))
      · rintro rfl h
        exact exec_refused hw hh hs ((hfound _).trans (if_neg h))
      · rintro rfl hp hd
        exact exec_refused hw hh hs ((hfound _).trans (if_neg (hshape hp hd)))
      · rintro rfl h
        exact exec_refused hw hh hs ((hfound _).trans (if_pos h))
      · rintro rfl hlen hp hd
        exact exec_refused hw hh hs (ordDropClear_state hok hr hlen (hshape hp hd))
      · rintro rfl h
        exact exec_refused hw hh hs ((hfound _).trans (if_neg h))
      · rintro (rfl | rfl) ht hi
        · exact exec_refused hw hh hs (judgeTktGet_not_frozen hok hr (hfrozen ht hi))
        · exact exec_refused hw hh hs ((hfound _).trans (if_neg (hfrozen ht hi)))
  · refine ⟨fun hbad => ?_, fun hgood => ⟨fun hr => ?_, fun hr hfull => ?_⟩⟩
    · exact exec_refused rfl hh hs (if_neg fun h => hbad ((ordNewOk_iff ..).1 h))
    · exact exec_refused rfl hh hs ((if_pos ((ordNewOk_iff ..).2 hgood)).trans (if_pos hr))
    · refine exec_refused rfl hh hs ((if_pos ((ordNewOk_iff ..).2 hgood)).trans ((if_neg ?_).trans (if_pos hfull)))
      simp [hr]
  · refine ⟨fun hbad => ?_, fun hgood => ⟨fun hr => ?_, fun r hr => ⟨fun hk => ?_, fun hk hp hd => ?_⟩⟩⟩
    · exact exec_refused rfl hh hs (withRecord_range (fun h => hbad ((dropFieldsOk_iff ..).1 h)) _)
    · exact exec_refused rfl hh hs (withRecord_missing ((dropFieldsOk_iff ..).2 hgood) hr _)
    · exact exec_refused rfl hh hs ((withRecord_some ((dropFieldsOk_iff ..).2 hgood) hr _).trans (if_pos hk))
    · refine exec_refused rfl hh hs ((withRecord_some ((dropFieldsOk_iff ..).2 hgood) hr _).trans
        ((if_neg (by omega)).trans (if_neg fun h => ((isShapable_iff r).1 h).elim hp hd)))
  · refine ⟨fun hbad => ?_, fun hstop ha => ⟨fun hr => ?_, fun r hr => ⟨fun h => ?_, fun h hfit => ?_, fun h hfit hno => ?_⟩⟩⟩
    · refine exec_refused rfl hh hs (withRecord_range (fun h => hbad ?_) _)
      exact ⟨(stopOk_iff stop).1 h.2, (fieldsOk_iff a).1 h.1⟩
    · exact exec_refused rfl hh hs (withRecord_missing ⟨(fieldsOk_iff a).2 ha, (stopOk_iff stop).2 hstop⟩ hr _)
    · exact exec_refused rfl hh hs (judgeOrdAmend_frozen hstop ha hr h)
    · exact exec_refused rfl hh hs (judgeOrdAmend_unfit hstop ha hr h hfit)
    · refine exec_refused rfl hh hs ((judgeOrdAmend_bound (s := s.lineTaken) hstop ha hr h hfit).trans (if_neg ?_))
      simp [boundOk_eq_false a r hno]
  · refine ⟨fun hbad => ?_, fun h1 h2 hf hnone => ?_, fun ⟨f, hf, hbad⟩ => ?_⟩
    · refine exec_refused rfl hh hs (if_neg ?_)
      rw [accountOk_iff, withinOpt_iff]
      rintro ⟨haccount, hstart⟩
      rcases hbad with h | h | ⟨f, hf, h⟩
      · omega
      · omega
      · have := hstart f hf; omega
    · refine exec_refused rfl hh hs ((if_pos ⟨(accountOk_iff _).2 ⟨h1, h2⟩, (withinOpt_iff _ _ _).2 hf⟩).trans (if_pos ?_))
      refine List.eq_nil_iff_forall_not_mem.2 fun n hn => ?_
      obtain ⟨hge, r, hr, haccount, hstop⟩ := (mem_stopsOf s account start n).1 hn
      have := hnone r hr haccount
      omega
    · refine exec_refused rfl hh hs (if_neg ?_)
      rw [withinOpt_iff]
      intro h
      have := h f hf
      omega
  · refine ⟨fun hn => ⟨?_, ?_, ?_⟩, fun x h1 h2 hx hfree => ?_, fun hn => ?_, fun hn => ?_, fun h1 h2 => ⟨?_, ?_, ?_, fun i w hw hi => ?_⟩⟩
    · exact exec_refused rfl hh hs (by simp [judgeCommand, judgeOrdGet, bySlot_range hn])
    · exact exec_refused rfl hh hs (by simp [judgeCommand, judgeOrdRetire, bySlot_range hn])
    · exact exec_refused rfl hh hs (if_neg (by rw [within_iff]; omega))
    · exact exec_refused rfl hh hs (by simp [judgeCommand, judgeOrdGet, bySlot_empty ⟨h1, h2⟩ hx hfree])
    · exact exec_refused rfl hh hs (if_neg (by rw [within_iff]; omega))
    · exact exec_refused rfl hh hs (if_neg (by rw [within_iff]; omega))
    · exact exec_refused rfl hh hs (withLine_none h1 h2 _)
    · exact exec_refused rfl hh hs (withLine_none h1 h2 _)
    · exact exec_refused rfl hh hs (withLine_none h1 h2 _)
    · exact exec_refused hw hh hs (judge_noLine h1 h2 hi _)
end

