-- ==== Sys2Proof/Proofs/BlockCommands.lean ====
section
/-! PROOFS. LN.SETUP and LN.ACK, and the commands that change the load or the settings block. -/

open Sys2Proof Sys2Proof.Machine

namespace Sys2Proof.Machine

/-! ## LN.SETUP and LN.ACK (R67, R95) -/

/-- A line's change of state with its meter's, answered at once: both as changed, and nothing else. -/
theorem answered_lineAndMeter (s : State) (l : Line) (f : LineCtx → LineCtx) (g : Meter → Meter) (w : CmdWord)
    (segments : List (List Tok)) :
    (answered w segments ((s.modLine l f).modMeter l g)).line l = f (s.line l)
      ∧ (answered w segments ((s.modLine l f).modMeter l g)).meter l = g (s.meter l)
      ∧ (answered w segments ((s.modLine l f).modMeter l g)).queue = s.queue
      ∧ (answered w segments ((s.modLine l f).modMeter l g)).slots = s.slots
      ∧ sameBlocks s (answered w segments ((s.modLine l f).modMeter l g))
      ∧ otherLineAndTruck l s (answered w segments ((s.modLine l f).modMeter l g))
      ∧ (answered w segments ((s.modLine l f).modMeter l g)).pump = s.pump := by
  cases l <;> exact ⟨rfl, rfl, rfl, rfl, ⟨rfl, rfl, rfl, rfl⟩,
    ⟨⟨rfl, rfl⟩, rfl, rfl, rfl, rfl, rfl, rfl, rfl, rfl, rfl, rfl, rfl, rfl, rfl, rfl, rfl, rfl⟩, rfl⟩

/-- A change of a line that waits for the same run ends makes none due. -/
theorem noEndDue_lineAndMeter {s : State} {l : Line} {f : LineCtx → LineCtx} {g : Meter → Meter}
    (hf : ∀ c, (f c).endWaits = c.endWaits) (h : noEndDue s) : noEndDue ((s.modLine l f).modMeter l g) := by
  obtain ⟨h1, h2⟩ := h
  cases l
  · exact ⟨(congrArg (List.any · Waiter.over) (hf s.lines.one)).trans h1, h2⟩
  · exact ⟨h1, (congrArg (List.any · Waiter.over) (hf s.lines.two)).trans h2⟩

/-- A command that changes a line and its meter and is answered at once. -/
theorem exec_lineAndMeter {i : Instr} {w : CmdWord} {s : State} {l : Line} {f : LineCtx → LineCtx} {g : Meter → Meter}
    {segments : List (List Tok)} (hw : commandWord i = some w) (hh : s.hears = true) (hs : s.settled = true)
    (hf : ∀ c, (f c).endWaits = c.endWaits)
    (hj : judgeCommand i s.lineTaken = report ((s.modLine l f).modMeter l g).lineTaken segments) :
    exec i s = .next (answered w segments ((s.modLine l f).modMeter l g)) :=
  exec_answered hw hh hs rfl rfl rfl (noEndDue_lineAndMeter hf) hj

@[simp] theorem items_lineTaken (s : State) (l : Line) : s.lineTaken.items l = s.items l := rfl

section
variable {s : State} {l : Line}

theorem judgeLnSetup_idle (h : (s.line l).st = .idle) :
    judgeLnSetup l.num s = report (s.setupTo l .setup) [item .LINE l.num ++ [.kw .SETUP]] := by
  rw [judgeLnSetup, withLine_num, h]

theorem judgeLnSetup_ready (h : (s.line l).st = .setup) (hpr : (s.items l).pr.isSome = true) (hhose : (s.items l).hose.isSome = true) :
    judgeLnSetup l.num s = report (s.setupTo l .idle) [item .LINE l.num ++ [.kw .IDLE]] := by
  rw [judgeLnSetup, withLine_num, h]
  exact if_pos ⟨hpr, hhose⟩

theorem judgeLnSetup_noCal (h : (s.line l).st = .setup) (hitem : (s.items l).pr = none ∨ (s.items l).hose = none) :
    judgeLnSetup l.num s = .error .NO_CAL := by
  rw [judgeLnSetup, withLine_num, h]
  refine if_neg fun ⟨hpr, hhose⟩ => ?_
  rcases hitem with hi | hi
  · simp [hi] at hpr
  · simp [hi] at hhose

theorem isQuiet_iff (m : Meter) : m.isQuiet = true ↔ 1000000 ≤ m.quiet := by simp [Meter.isQuiet]

theorem judgeLnAck_quiet (h : (s.line l).st = .fault) (hq : (s.meter l).latchPulser = false ∨ (s.meter l).quiet = 1000000) :
    judgeLnAck l.num s = report (s.acknowledge l)
      [kwToks (s.meter l).faultKinds ++ item .PHASEERR (s.meter l).phaseErrors ++ item .CREEP (s.meter l).creep] := by
  rw [judgeLnAck, withLine_num, if_neg (not_not_intro h)]
  refine if_neg fun ⟨hp, hn⟩ => ?_
  rcases hq with hq | hq
  · simp [hq] at hp
  · simp [Meter.isQuiet, hq] at hn

theorem judgeLnAck_unquiet (h : (s.line l).st = .fault) (hp : (s.meter l).latchPulser = true) (hq : (s.meter l).quiet < 1000000) :
    judgeLnAck l.num s = .error .FAULT := by
  rw [judgeLnAck, withLine_num, if_neg (not_not_intro h)]
  refine if_pos ⟨hp, ?_⟩
  rw [Bool.eq_false_iff, Ne, isQuiet_iff]
  omega

end

/-! ## Block commands -/

/-- A command that changes the load block alone, in a settled part. -/
theorem exec_load {i : Instr} {w : CmdWord} {s : State} {y : LoadBlock} {fields : List Tok} (hw : commandWord i = some w)
    (hh : s.hears = true) (hs : s.settled = true)
    (hj : judgeCommand i s.lineTaken = blockTaken (s.withBlocks s.settings y s.route) .load fields) :
    ∃ t, exec i s = .next t ∧ blockChanged w (.ready [fields]) .load s t ∧ t.settings = s.settings ∧ t.load = y
      ∧ t.route = s.route := by
  rw [exec_command hw]
  exact take_withBlocks w _ .load s.settings y s.route fields s hh hs hj

/-- A command that changes the settings block alone, in a settled part. -/
theorem exec_settings {i : Instr} {w : CmdWord} {s : State} {x : Settings} {fields : List Tok} (hw : commandWord i = some w)
    (hh : s.hears = true) (hs : s.settled = true)
    (hj : judgeCommand i s.lineTaken = blockTaken (s.withBlocks x s.load s.route) .settings fields) :
    ∃ t, exec i s = .next t ∧ settingsTaken w x s t := by
  rw [exec_command hw]
  obtain ⟨t, ht, hchanged, hx, hload, hroute⟩ := take_withBlocks w _ .settings x s.load s.route fields s hh hs hj
  exact ⟨t, ht, hx, hload, hroute, _, hchanged⟩

/-! ### CMP.LOAD and HOSE.EMPTY (R128, R129, R141) -/

/-- The load block with one compartment's account changed. -/
def LoadBlock.withComp (x : LoadBlock) (c : Nat) (f : Comp → Comp) : LoadBlock := { x with comps := modNth1 x.comps c f }

theorem pumpOn_iff (s : State) (c : Nat) : s.pumpOn c = true ↔ ∃ b, s.pump = some b ∧ b.comp = c := by
  unfold State.pumpOn
  cases s.pump <;> simp

theorem remaining_eq_zero (x : Comp) : x.remaining = 0 ↔ x.loaded ≤ x.drawn := by
  simp [Comp.remaining, Nat.sub_eq_zero_iff_le]

/-- A compartment's account set by CMP.LOAD. -/
theorem exec_cmpLoad_taken {c p v : Nat} {empty : Bool} {x : Comp} {f : Comp → Comp} {s : State} (hh : s.hears = true)
    (hs : s.settled = true) (hx : nth1 s.load.comps c = some x)
    (hj : judgeCmpLoad c p v empty s.lineTaken = loadTaken s.lineTaken c f) :
    ∃ t, exec (.cmpLoad c p v empty) s = .next t ∧ compSet c (f x) s t := by
  obtain ⟨t, ht, hchanged, hsettings, hload, hroute⟩ :=
    exec_load (i := .cmpLoad c p v empty) (y := s.load.withComp c f) rfl hh hs hj
  refine ⟨t, ht, ?_, fun d hd => ?_, by rw [hload]; rfl, by rw [hload]; rfl, hsettings, hroute, _, hchanged⟩
  · rw [hload, LoadBlock.withComp, nth1_modNth1, if_pos rfl, hx]
    rfl
  · rw [hload, LoadBlock.withComp, nth1_modNth1, if_neg hd]

section
variable {c p v cap : Nat} {empty : Bool} {x : Comp} {s : State} (hc : 1 ≤ c ∧ c ≤ 4) (hp : 1 ≤ p ∧ p ≤ 6)
  (hdef : (s.settings.product p).entry.defined = true) (hv : v ≤ 2000000) (hx : nth1 s.load.comps c = some x)
  (hcap : nth1 s.settings.caps c = some cap)
include hc hp hdef hv hx hcap

/-- CMP.LOAD with its fields in range is judged by the pump, the product held and the capacity, in that order. -/
theorem judgeCmpLoad_eq : judgeCmpLoad c p v empty s =
    if s.pumpOn c then .error .PUMP_BUSY
    else if x.product = some p then
      if v ≠ 0 ∧ cap < x.loaded + v then .error .RANGE else loadTaken s c (Comp.topUp v)
    else if x.remaining ≠ 0 ∧ empty = false then .error .STATE
    else if cap < v then .error .RANGE
    else loadTaken s c (Comp.change p v) := by
  have hcomp : s.load.comp c = x := by rw [LoadBlock.comp, hx]; rfl
  have hfields : ¬(within 1 4 c && within 1 6 p && (s.settings.product p).entry.defined && within 0 2000000 v) = false := by
    simp [hc, hp, hdef, hv]
  rw [judgeCmpLoad, if_neg hfields, hcomp, hcap]
  rfl

end

theorem judgeCmpLoad_range {c p v : Nat} {empty : Bool} {s : State} (h : c = 0 ∨ 4 < c ∨ p = 0 ∨ 6 < p
    ∨ (s.settings.product p).entry.defined = false ∨ 2000000 < v) : judgeCmpLoad c p v empty s = .error .RANGE := by
  refine if_pos ?_
  rw [Bool.eq_false_iff]
  simp only [Ne, Bool.and_eq_true, within_iff]
  rintro ⟨⟨⟨hc, hp⟩, hdef⟩, hv⟩
  rcases h with h | h | h | h | h | h
  · omega
  · omega
  · omega
  · omega
  · simp [hdef] at h
  · omega

/-! ### PRD.PUT and SET.PUT (R125, R166) -/

theorem clamp_eq (lo hi : Nat) (x : Int) (h : lo ≤ hi) : (clamp lo hi x : Int) = max (lo : Int) (min hi x) := by
  unfold clamp
  split
  · omega
  · split <;> omega

theorem clamp_eq_toNat (lo hi : Nat) (x : Int) (h : lo ≤ hi) : clamp lo hi x = (max (lo : Int) (min hi x)).toNat := by
  rw [← clamp_eq lo hi x h, Int.toNat_natCast]

theorem nameOk_iff (b : Option (List Byte)) : nameOk b = true ↔ ∀ cs, b = some cs → ∀ ch ∈ cs, nameChar ch = true := by
  cases b <;> simp [nameOk]

theorem distinctWords_iff : ∀ ks : List Kw, distinctWords ks = true ↔ ks.Nodup
  | [] => by simp [distinctWords]
  | k :: ks => by simp [distinctWords, distinctWords_iff ks]

/-! ### CAL.PUT (R160 to R164) -/

/-- CAL.PUT is refused with SEALED while the seal is closed or the count is spent, whatever it names. -/
theorem calPut_sealed {s : State} (h : s.inputs.sealOpen = false ∨ 65535 ≤ s.settings.calCount) (values free : Bool) (t : State)
    (fields : List Tok) : calPut s values free t fields = .error .SEALED := if_pos h

section
variable {s : State} (hseal : s.inputs.sealOpen = true) (hcount : s.settings.calCount < 65535)
include hseal hcount

theorem calPut_busy {values : Bool} (hv : values = true) (t : State) (fields : List Tok) :
    calPut s values false t fields = .error .LINE_BUSY := by
  rw [calPut, if_neg (by simp [hseal]; omega), if_neg (by simp [hv]), if_pos rfl]

theorem calPut_taken {values free : Bool} (hv : values = true) (hf : free = true) (t : State) (fields : List Tok) :
    calPut s values free t fields = blockTaken (t.modSettings (fun x => { x with session := true })) .settings fields := by
  rw [calPut, if_neg (by simp [hseal]; omega), if_neg (by simp [hv]), if_neg (by simp [hf])]

end

/-- CAL.PUT PR and its line (R162). -/
theorem judgeCalPutPr_num (s : State) (l : Line) (pr : Nat) : judgeCalPutPr l.num pr s =
    calPut s (within 40 4000 pr) (s.lineFree l) (s.writePr l pr) (.kw .PR :: nat l.num :: [nat pr]) := by
  rw [judgeCalPutPr, ofNum_num]

/-- CAL.PUT HOSE and its line (R162). -/
theorem judgeCalPutHose_num (s : State) (l : Line) (volume : Nat) : judgeCalPutHose l.num volume s =
    calPut s (within 0 20000 volume) (s.lineFree l) (s.modSettings (Settings.modItems l (fun i => { i with hose := some volume })))
      (.kw .HOSE :: nat l.num :: [nat volume]) := by
  rw [judgeCalPutHose, ofNum_num]

/-- CAL.PUT SET with a set, and its line (R163). -/
theorem judgeCalPutSet_some (s : State) (l : Line) (product : Nat) (x : CalSet) : judgeCalPutSet l.num product (some x) s =
    calPut s (within 1 6 product && calSetOk x) (s.lineFree l) (s.modSettings (Settings.putSet l product (some x)))
      (.kw .SET :: nat l.num :: nat product :: setToks (some x)) := by
  rw [judgeCalPutSet, ofNum_num]

/-- CAL.PUT SET without a set, and its line (R163). -/
theorem judgeCalPutSet_none (s : State) (l : Line) (product : Nat) : judgeCalPutSet l.num product none s =
    calPut s (within 1 6 product) (s.lineFree l) (s.modSettings (Settings.putSet l product none))
      (.kw .SET :: nat l.num :: nat product :: setToks none) := by
  rw [judgeCalPutSet, ofNum_num]
  exact congrArg (calPut s · _ _ _) (Bool.and_true _)

/-- The forms of CAL.PUT that name a line are refused with SEALED whatever the line. -/
theorem judgeCalPut_sealed {s : State} (h : s.inputs.sealOpen = false ∨ 65535 ≤ s.settings.calCount) (a b : Nat) (x : Option CalSet) :
    judgeCalPutPr a b s = .error .SEALED ∧ judgeCalPutHose a b s = .error .SEALED ∧ judgeCalPutSet a b x s = .error .SEALED := by
  unfold judgeCalPutPr judgeCalPutHose judgeCalPutSet
  cases Line.ofNum a <;> exact ⟨calPut_sealed h _ _ _ _, calPut_sealed h _ _ _ _, calPut_sealed h _ _ _ _⟩

theorem lineFree_iff (s : State) (l : Line) : s.lineFree l = true ↔ (s.line l).st = .setup ∨ (s.line l).st = .idle := by
  simp [State.lineFree]

/-- Bounds in range that rise from one to the next pass the check of R163. -/
theorem boundsOk_of (xs : List (Nat × Nat)) (before : Nat) (hrise : (before :: xs.map (·.1)).Pairwise (· < ·))
    (hrange : ∀ y ∈ xs, 1 ≤ y.1 ∧ y.1 ≤ 20000 ∧ 95000 ≤ y.2 ∧ y.2 ≤ 105000) : boundsOk before xs = true := by
  induction xs generalizing before with
  | nil => rfl
  | cons y ys ih =>
    obtain ⟨hbefore, hrest⟩ := List.pairwise_cons.1 hrise
    obtain ⟨h1, h2, h3, h4⟩ := hrange y (List.mem_cons_self ..)
    have hlt : before < y.1 := hbefore y.1 (by simp)
    simp [boundsOk, h1, h2, h3, h4, hlt, ih y.1 hrest fun z hz => hrange z (List.mem_cons_of_mem _ hz)]

theorem calSetOk_of {x : CalSet} (hlen : x.upper.length ≤ 4) (hrise : (x.upper.map (·.1)).Pairwise (· < ·))
    (hrange : ∀ y ∈ x.upper, 1 ≤ y.1 ∧ y.1 ≤ 20000 ∧ 95000 ≤ y.2 ∧ y.2 ≤ 105000) (hlast : 95000 ≤ x.last ∧ x.last ≤ 105000) :
    calSetOk x = true := by
  have hzero : ((0 : Nat) :: x.upper.map (·.1)).Pairwise (· < ·) := by
    refine List.pairwise_cons.2 ⟨fun u hu => ?_, hrise⟩
    obtain ⟨y, hy, rfl⟩ := List.mem_map.1 hu
    exact (hrange y hy).1
  simp [calSetOk, hlen, hlast, boundsOk_of x.upper 0 hzero hrange]

/-- A state kept by `commit` behind a change of the meters and the blocks, seen with the meters as they were. -/
theorem CommitKeeps.meters_back {s t : State} {m : Pair Meter} (h : CommitKeeps { s with meters := m } t) :
    CommitKeeps s { t with meters := s.meters } where
  toStoreKeeps := by
    obtain ⟨⟨⟩, _, _⟩ := h
    constructor <;> first | assumption | rfl
  unsaved := h.unsaved
  core l := h.core l

/-- CAL.PUT PR changes the meter's creep count with the settings (R162). -/
theorem exec_calPutPr {s : State} {l : Line} {v : Nat} {x : Settings} {m : Pair Meter} {fields : List Tok} (hh : s.hears = true)
    (hs : s.settled = true)
    (hj : judgeCalPutPr l.num v s.lineTaken = blockTaken { s.withBlocks x s.load s.route with meters := m } .settings fields) :
    ∃ t, exec (.calPutPr l.num v) s = .next t ∧ t.meters = m ∧ settingsTaken .CAL_PUT x s { t with meters := s.meters } := by
  obtain ⟨hactive, -⟩ := (hears_iff s).1 hh
  obtain ⟨hidle, -, hends, -⟩ := (settled_iff s).1 hs
  obtain ⟨t, ht, hkeeps, hprogress, hasked⟩ := take_block .CAL_PUT _ s _ .settings fields hh hj hactive hidle hends
  have hback : ({ s.withBlocks x s.load s.route with meters := m } : State).enqueue (.block .settings)
      = { (s.withBlocks x s.load s.route).enqueue (.block .settings) with meters := m } := by
    unfold State.enqueue
    dsimp only
    split <;> rfl
  have hmeters : t.meters = m := by simp [hkeeps.meters]
  rw [hback] at hkeeps
  have hsame : ((s.withBlocks x s.load s.route).enqueue (.block .settings)).meters = s.meters := by simp [State.withBlocks]
  have hkeeps' := hkeeps.meters_back
  rw [hsame] at hkeeps'
  obtain ⟨hchanged, hx, hload, hroute⟩ := blockChanged_of_keeps .CAL_PUT _ .settings x s.load s.route s _ hkeeps' hprogress hasked
  exact ⟨t, ht, hmeters, hx, hload, hroute, _, hchanged⟩

end Sys2Proof.Machine

/-- Settles O40: each move and each refusal by its judgement. -/
theorem setupAndAcknowledge : Obligations.SetupAndAcknowledge := by
  intro l s hh hs
  refine ⟨fun h => ?_, fun h hpr hhose => ?_, fun h hitem => ?_, fun h hq => ?_, fun h hp hq => ?_⟩
  · exact ⟨_, exec_lineAndMeter (l := l) (f := fun c => { c with st := .setup }) (g := Meter.cleared) rfl hh hs
      (fun _ => rfl) (judgeLnSetup_idle (s := s.lineTaken) h), answered_lineAndMeter ..⟩
  · exact ⟨_, exec_lineAndMeter (l := l) (f := fun c => { c with st := .idle }) (g := Meter.cleared) rfl hh hs
      (fun _ => rfl) (judgeLnSetup_ready (s := s.lineTaken) h hpr hhose),
      answered_lineAndMeter ..⟩
  · exact exec_refused rfl hh hs (judgeLnSetup_noCal (s := s.lineTaken) h hitem)
  · exact ⟨_, exec_lineAndMeter (l := l) (f := fun c => { c with st := .idle })
      (g := fun m => { m.cleared with latchCreep := false, latchPulser := false }) rfl hh hs (fun _ => rfl)
      (judgeLnAck_quiet (s := s.lineTaken) h hq), answered_lineAndMeter ..⟩
  · exact exec_refused rfl hh hs (judgeLnAck_unquiet (s := s.lineTaken) h hp hq)

/-- Settles O41: the checks in their order, then a change of the load block alone. -/
theorem compartmentAndHoseCommands : Obligations.CompartmentAndHoseCommands := by
  refine ⟨fun c p v cap empty x s hh hs hc hp hdef hv hx hcap => ?_, fun c p v empty s hh hs h => ?_, fun l s hh hs => ?_⟩
  · have hj : judgeCmpLoad c p v empty s.lineTaken = _ := judgeCmpLoad_eq (s := s.lineTaken) hc hp hdef hv hx hcap
    refine ⟨fun hpump => ?_, fun hpump => ?_⟩
    · exact exec_refused rfl hh hs (hj.trans (if_pos ((pumpOn_iff _ c).2 hpump)))
    · have hfree : ¬ s.lineTaken.pumpOn c = true := fun h =>
        have ⟨b, hb, hbc⟩ := (pumpOn_iff _ c).1 h
        hpump b hb hbc
      rw [if_neg hfree] at hj
      refine ⟨fun hprod hroom => ?_, fun hprod hv0 hover => ?_, fun hprod hempty hroom => ?_, fun hprod hleft hempty => ?_,
        fun hprod hempty hover => ?_⟩
      · refine exec_cmpLoad_taken hh hs hx (hj.trans ((if_pos hprod).trans (if_neg ?_)))
        omega
      · exact exec_refused rfl hh hs (hj.trans ((if_pos hprod).trans (if_pos ⟨hv0, hover⟩)))
      · have hgo : ¬(x.remaining ≠ 0 ∧ empty = false) := by
          rw [Ne, remaining_eq_zero]
          rintro ⟨hr, he⟩
          exact hempty.elim hr (by simp [he])
        exact exec_cmpLoad_taken hh hs hx (hj.trans ((if_neg hprod).trans ((if_neg hgo).trans (if_neg (by omega)))))
      · have hstop : x.remaining ≠ 0 ∧ empty = false := ⟨by rw [Ne, remaining_eq_zero]; omega, hempty⟩
        exact exec_refused rfl hh hs (hj.trans ((if_neg hprod).trans (if_pos hstop)))
      · have hgo : ¬(x.remaining ≠ 0 ∧ empty = false) := by
          rw [Ne, remaining_eq_zero]
          rintro ⟨hr, he⟩
          exact hempty.elim hr (by simp [he])
        exact exec_refused rfl hh hs (hj.trans ((if_neg hprod).trans ((if_neg hgo).trans (if_pos hover))))
  · exact exec_refused rfl hh hs (judgeCmpLoad_range (s := s.lineTaken) h)
  · refine ⟨fun h => ?_, fun h => ?_⟩
    · have hj : judgeHoseEmpty l.num s.lineTaken = _ := (withLine_num l _).trans (if_pos h)
      obtain ⟨t, ht, hchanged, hsettings, hload, hroute⟩ := exec_load (i := .hoseEmpty l.num)
        (y := { s.load with hoses := s.load.hoses.set l .empty }) rfl hh hs hj
      refine ⟨t, _, ht, hchanged, ?_, ?_, by rw [hload], hsettings, hroute⟩
      · rw [hload]; cases l <;> rfl
      · rw [hload]; cases l <;> rfl
    · exact exec_refused rfl hh hs ((withLine_num l _).trans (if_neg h))

/-- Settles O42: each item's clamp, and a change of the settings block alone. -/
theorem productAndSettingCommands : Obligations.ProductAndSettingCommands := by
  refine ⟨fun code f x s hh hs hcode hx hdef hnames hname => ?_, fun items s hh hs hne hd => ?_, fun x v => ?_⟩
  · have hok : (within 1 6 code && !(f.define && f.undefine) && namesField f && nameOk f.name) = true := by
      simp only [Bool.and_eq_true, within_iff, nameOk_iff, Bool.not_eq_true', ← Bool.not_eq_true (_ && _), namesField,
        Bool.or_eq_true, or_assoc]
      exact ⟨⟨⟨hcode, hdef⟩, hnames⟩, hname⟩
    obtain ⟨t, ht, hsettings, hload, hroute, p, hchanged⟩ := exec_settings (i := .prdPut code f)
      (x := { s.settings with products := modNth1 s.settings.products code (Product.put f) }) rfl hh hs (if_pos hok)
    refine ⟨t, Product.put f x, p, ht, hchanged, hload, hroute, ?_, fun q hq => ?_, ?_, rfl, rfl, rfl, fun v hv => ?_,
      fun hv => ?_, fun v hv => ?_, fun hv => ?_, fun b hb => ?_, fun hb => ?_⟩
    · rw [hsettings]
      simp [nth1_modNth1, hx]
    · rw [hsettings]
      simp [nth1_modNth1, hq]
    · rw [hsettings]
    · simp [Product.put, hv, clamp_eq]
    · simp [Product.put, hv]
    · simp [Product.put, hv, clamp_eq]
    · simp [Product.put, hv]
    · simp [Product.put, hb, storedName]
    · simp [Product.put, hb]
  · refine exec_settings rfl hh hs (if_neg ?_)
    rintro (h | h)
    · exact hne h
    · exact absurd ((distinctWords_iff _).2 hd) (by simp [h])
  · refine ⟨?_, ?_, ?_, ?_, ?_, ?_, ?_, ?_, fun _ => rfl⟩
    · simp [putSetting, clamp_eq_toNat]
    · simp [putSetting, clamp_eq_toNat]
    · simp [putSetting, clampDeadman, clamp_eq_toNat]
    · simp [putSetting, clamp_eq_toNat]
    · simp [putSetting, clamp_eq_toNat]
    · simp [putSetting, clamp_eq_toNat]
    · simp [putSetting, clamp_eq_toNat, Pair.modify, Pair.set, Pair.get]
    · simp [putSetting, clamp_eq_toNat, Pair.modify, Pair.set, Pair.get]

/-- Settles O43: the first check, the values, the use, then a change of the settings block alone; CAL.PUT PR changes the creep count with it. -/
theorem calibrationCommands : Obligations.CalibrationCommands := by
  intro s hh hs
  refine ⟨fun hseal hcount => ⟨fun l v h1 h2 => ⟨fun hst => ?_, fun h3 h4 => ?_⟩, fun l v hv hst => ?_,
    fun l p x h1 h2 hst hlen hrise hrange hlast => ?_, fun l p h1 h2 hst => ?_, fun p v h1 h2 hv => ⟨fun hf => ?_, fun hf => ?_⟩,
    fun p on h1 h2 hf => ?_, fun c v h1 h2 hv => ?_⟩, fun hseal a b on x => ?_⟩
  · have hj := (judgeCalPutPr_num s.lineTaken l v).trans (calPut_taken (s := s.lineTaken) hseal hcount
      ((within_iff _ _ _).2 ⟨h1, h2⟩) ((lineFree_iff _ l).2 hst) _ _)
    exact exec_calPutPr hh hs hj
  · have hbusy : s.lineTaken.lineFree l = false := Bool.eq_false_iff.2 fun h => ((lineFree_iff _ l).1 h).elim h3 h4
    refine exec_refused rfl hh hs ((judgeCalPutPr_num s.lineTaken l v).trans ?_)
    rw [hbusy]
    exact calPut_busy (s := s.lineTaken) hseal hcount ((within_iff _ _ _).2 ⟨h1, h2⟩) _ _
  · exact exec_settings rfl hh hs ((judgeCalPutHose_num s.lineTaken l v).trans (calPut_taken (s := s.lineTaken) hseal hcount
      ((within_iff _ _ _).2 ⟨Nat.zero_le _, hv⟩) ((lineFree_iff _ l).2 hst) _ _))
  · have hvalues : (within 1 6 p && calSetOk x) = true := by
      rw [Bool.and_eq_true, within_iff]
      exact ⟨⟨h1, h2⟩, calSetOk_of hlen hrise hrange hlast⟩
    exact exec_settings rfl hh hs ((judgeCalPutSet_some s.lineTaken l p x).trans
      (calPut_taken (s := s.lineTaken) hseal hcount hvalues ((lineFree_iff _ l).2 hst) _ _))
  · exact exec_settings rfl hh hs ((judgeCalPutSet_none s.lineTaken l p).trans
      (calPut_taken (s := s.lineTaken) hseal hcount ((within_iff _ _ _).2 ⟨h1, h2⟩) ((lineFree_iff _ l).2 hst) _ _))
  · exact exec_settings rfl hh hs
      (calPut_taken (s := s.lineTaken) hseal hcount (by simp [h1, h2, hv]) (free := s.lineTaken.productFree p) hf _ _)
  · refine exec_refused rfl hh hs ?_
    have hbusy : s.lineTaken.productFree p = false := hf
    show calPut s.lineTaken _ _ _ _ = _
    rw [hbusy]
    exact calPut_busy (s := s.lineTaken) hseal hcount (by simp [h1, h2, hv]) _ _
  · exact exec_settings rfl hh hs
      (calPut_taken (s := s.lineTaken) hseal hcount (by simp [h1, h2]) (free := s.lineTaken.productFree p) hf _ _)
  · exact exec_settings rfl hh hs (calPut_taken (s := s.lineTaken) hseal hcount (by simp [h1, h2, hv]) rfl _ _)
  · obtain ⟨hpr, hhose, hset⟩ := judgeCalPut_sealed (s := s.lineTaken) hseal a b x
    exact ⟨exec_refused rfl hh hs hpr, exec_refused rfl hh hs hhose, exec_refused rfl hh hs hset,
      exec_refused rfl hh hs (calPut_sealed (s := s.lineTaken) hseal _ _ _ _),
      exec_refused rfl hh hs (calPut_sealed (s := s.lineTaken) hseal _ _ _ _),
      exec_refused rfl hh hs (calPut_sealed (s := s.lineTaken) hseal _ _ _ _)⟩
end

