-- ==== Sys2Proof/Proofs/WrittenCommands.lean ====
section
/-! PROOFS. Commands taken with writes, and slots changed one at a time. -/

open Sys2Proof Sys2Proof.Machine

namespace Sys2Proof.Machine

/-! ## A command taken with writes, in a settled part -/

/-- The entry's operation begins as one given operation, whatever else stands in the state but the slots and the blocks. -/
def FliesAs (s : State) (k : Key) (f : Flight) : Prop :=
  flightIs k (some f) ∧ ∀ v : State, v.slots = s.slots → v.settings = s.settings → v.load = s.load → v.route = s.route →
    v.beginKey k = { v with flight := some f }

/-- The entry's operation begins. -/
def Flies (s : State) (k : Key) : Prop := ∃ f, FliesAs s k f

theorem flies_block (s : State) (b : Block) : Flies s (.block b) := by
  refine ⟨.block (s.blockImage b) false, flightIs_block s b false, fun v _ hset hload hroute => ?_⟩
  cases b <;> simp [State.beginKey, State.blockImage, hset, hload, hroute]

theorem flies_release (s : State) (n : Nat) : Flies s (.release n) := ⟨.release n, rfl, fun _ _ _ _ _ => rfl⟩

/-- A record in the table begins its write where some slot is FREE. -/
theorem flies_record {s : State} {stop : Nat} {r : Record} (hr : s.recOf stop = some r) (hfree : s.slots.any Slot.isFree = true) :
    Flies s (.record stop) := by
  obtain ⟨home, q, x, hhome, hrec, hslot⟩ := startable_record s stop r hr
  obtain ⟨a, ha⟩ := Option.isSome_iff_exists.1 (allocate_isSome s hfree)
  have hstop := recOf_stop s stop q hrec
  have hread : ∀ v : State, v.slots = s.slots → v.homeOf stop = some home ∧ v.recOf stop = some q ∧ v.slot home = some x
      ∧ v.allocate none = some a := by
    intro v hv
    unfold State.homeOf State.recOf State.slot State.allocate
    rw [hv]
    exact ⟨hhome, hrec, hslot, ha⟩
  by_cases hplace : x.isInUse = true ∧ x.due = false ∧ x.relocate = false
  · refine ⟨.record ⟨q.stop, q, home, .inPlace⟩, hstop, fun v hv _ _ _ => ?_⟩
    obtain ⟨h1, h2, h3, -⟩ := hread v hv
    simp only [State.beginKey, State.beginRecord, h1, h2, h3, if_pos hplace]
    rfl
  · refine ⟨.record ⟨q.stop, q, a, if x.isInUse = true ∧ x.due = true then .move else .relocation⟩, hstop, fun v hv _ _ _ => ?_⟩
    obtain ⟨h1, h2, h3, h4⟩ := hread v hv
    simp only [State.beginKey, State.beginRecord, h1, h2, h3, h4, if_neg hplace]
    rfl

theorem FliesAs.of_same {s v : State} {k : Key} {f : Flight} (h : FliesAs s k f) (hslots : v.slots = s.slots)
    (hsettings : v.settings = s.settings) (hload : v.load = s.load) (hroute : v.route = s.route) : FliesAs v k f :=
  ⟨h.1, fun u h1 h2 h3 h4 => h.2 u (h1.trans hslots) (h2.trans hsettings) (h3.trans hload) (h4.trans hroute)⟩

/-- The first entry waiting in a working part becomes the operation in flight. -/
theorem runStore_flies {s : State} {k : Key} {q : List Key} {f : Flight} (ha : s.isActive = true) (hf : s.flight = none)
    (hq : s.queue = k :: q) (hk : FliesAs s k f) :
    s.runStore = { ({ s with queue := q, patrolIdle := 0 } : State).mapWaiters (Waiter.begun k) with flight := some f } := by
  have hb := hk.2 (({ s with queue := q, patrolIdle := 0 } : State).mapWaiters (Waiter.begun k)) rfl rfl rfl rfl
  have htake : s.takeEntry k q
      = { ({ s with queue := q, patrolIdle := 0 } : State).mapWaiters (Waiter.begun k) with flight := some f } := by
    unfold State.takeEntry
    simp only [hb]
    rfl
  rw [State.runStore, hq, List.length_cons, storeRun]
  simp only [hf, hq, mayTake_of_active s ha, if_true, htake]
  rfl

/-- Behind a command that waits for the first entry, in a part with nothing else to do, that entry flies. -/
theorem commit_flies {v : State} {w : CmdWord} {p : Plan} {k : Key} {q ks : List Key} {f : Flight} (ha : v.isActive = true)
    (hf : v.flight = none) (hq : v.queue = k :: q) (hk : FliesAs v k f) (hmem : k ∈ ks)
    (hc : v.cmd = some ⟨w, p, .on ks, false⟩) (he : noEndDue v) :
    commit v = { ({ v with queue := q, patrolIdle := 0 } : State).mapWaiters (Waiter.begun k) with flight := some f } := by
  have hrun := runStore_flies ha hf hq hk
  have hwait : Waiter.begun k (.on ks) = ⟨ks.filter (· != k), true⟩ := by
    rw [Waiter.begun, Waiter.on, if_pos (by simpa using hmem)]
  have hcmd : v.runStore.cmd = some ⟨w, p, ⟨ks.filter (· != k), true⟩, false⟩ := by
    rw [hrun]
    simp only [State.mapWaiters, hc, Option.map_some, hwait]
  have hactive : v.runStore.isActive = true := by rw [hrun]; exact ha
  have hends : noEndDue v.runStore := by
    rw [hrun]
    exact ⟨begun_any_over _ _ he.1, begun_any_over _ _ he.2⟩
  rw [commit_active v ha, deliver_noEnd _ hactive hends, deliverReply_none _ (by simp [State.replyDue, hcmd, Waiter.over]),
    trySleep_busy _ (by rw [hcmd]; rfl), hrun]

/-- What a command taken with writes leaves: the state its judgement gives, as far as `commit` keeps it, with its entries asked for. -/
structure Written (w : CmdWord) (p : Plan) (u t : State) : Prop extends CommitKeeps u t where
  slots : t.slots = u.slots
  progress : inProgress w p t
  asked : ∀ k ∈ u.queue, asked t k
  queue : ∀ k, k ∉ u.queue → k ∉ t.queue

/-- A command taken with writes, in a settled part whose store begins the first entry where it has nothing in flight. -/
theorem exec_writes {i : Instr} {w : CmdWord} {p : Plan} {s u : State} {k : Key} {ks : List Key} (hw : commandWord i = some w)
    (hh : s.hears = true) (hs : s.settled = true) (hj : judgeCommand i s.lineTaken = .ok ⟨u, p, k :: ks⟩)
    (hphase : u.phase = s.phase) (hflight : u.flight.isSome = s.flight.isSome) (hends : noEndDue u)
    (hfirst : s.flight = none → s.queue = [] → ∃ k' q, u.queue = k' :: q ∧ k' ∈ k :: ks ∧ Flies u k') :
    ∃ t, exec i s = .next t ∧ Written w p u t := by
  obtain ⟨hactive, -⟩ := (hears_iff s).1 hh
  obtain ⟨hidle, -⟩ := (settled_iff s).1 hs
  have hexec : exec i s = .next (commit { u with cmd := some ⟨w, p, .on (k :: ks), false⟩ }) := by
    rw [exec_command hw, take_eq w _ s (ne_restart_of_active s hactive), arrive_taken w _ s u p (k :: ks) hh hj]
  obtain ⟨v, hv⟩ : ∃ v : State, v = { u with cmd := some ⟨w, p, .on (k :: ks), false⟩ } := ⟨_, rfl⟩
  have hvactive : v.isActive = true := (isActive_of_phase (s := s) (by rw [hv]; exact hphase)).trans hactive
  have hvends : noEndDue v := by rw [hv]; exact hends
  have hkeeps : CommitKeeps u v := by
    rw [hv]
    exact ⟨by constructor <;> intros <;> rfl, rfl, fun l => by cases l <;> rfl⟩
  rw [hexec, ← hv]
  refine ⟨commit v, rfl, ?_⟩
  cases hf : s.flight with
  | some op =>
    have hbusy : v.flight.isSome = true := by rw [hv]; exact hflight.trans (by rw [hf]; rfl)
    have hcommit : commit v = v := by
      rw [commit_active v hvactive, runStore_settled v (.inl hbusy), deliver_noEnd v hvactive hvends,
        deliverReply_none v (by rw [hv]; simp [State.replyDue, Waiter.over, Waiter.on]), trySleep_busy v (by rw [hv]; rfl)]
    rw [hcommit]
    exact ⟨hkeeps, by rw [hv], ⟨_, by rw [hv], rfl, rfl⟩, fun x hx => .inl (by rw [hv]; exact hx),
      fun x hx => by rw [hv]; exact hx⟩
  | none =>
    have hq : s.queue = [] := by simpa [hf] using hidle
    obtain ⟨k', q, hqueue, hmem, hfly⟩ := hfirst hf hq
    have hvq : v.queue = k' :: q := by rw [hv]; exact hqueue
    have hvf : v.flight = none := by
      rw [hv]
      rw [hf] at hflight
      simpa using hflight
    obtain ⟨f, hflyAs⟩ := hfly
    have hfk := hflyAs.1
    have hcommit := commit_flies (v := v) (w := w) (p := p) hvactive hvf hvq
      (hflyAs.of_same (by rw [hv]) (by rw [hv]) (by rw [hv]) (by rw [hv])) hmem (by rw [hv]) hvends
    rw [hcommit]
    refine ⟨⟨?_, ?_, fun l => ?_⟩, by rw [hv]; rfl, ⟨_, by rw [hv]; rfl, rfl, rfl⟩, fun x hx => ?_, fun x hx => ?_⟩
    · rw [hv]
      constructor <;> intros <;> rfl
    · rw [hv]
      rfl
    · rw [hv]
      cases l <;> rfl
    · rw [hqueue] at hx
      rcases List.mem_cons.1 hx with rfl | hx
      · exact .inr hfk
      · exact .inl hx
    · rw [hqueue] at hx
      exact fun h => hx (List.mem_cons_of_mem _ h)

/-! ## Slots changed one at a time -/

/-- A lookup passes over a slot that is no home of its stop, before and behind a change. -/
theorem recordIn_modNth_of_ne {m : Nat} {f : Slot → Slot} : ∀ (xs : List Slot) (i : Nat),
    (∀ x, xs[i]? = some x → (∀ r, x.record? = some r → r.stop ≠ m) ∧ ∀ r, (f x).record? = some r → r.stop ≠ m) →
      recordIn m (modNth xs i f) = recordIn m xs
  | [], _, _ => rfl
  | x :: xs, 0, h => by
    have hskip : ∀ y : Slot, (∀ r, y.record? = some r → r.stop ≠ m) → recordIn m (y :: xs) = recordIn m xs := by
      intro y hy
      cases hr : y.record? with
      | none => simp [recordIn, hr]
      | some r => simp [recordIn, hr, hy r hr]
    obtain ⟨h1, h2⟩ := h x rfl
    rw [modNth, hskip _ h2, hskip _ h1]
  | x :: xs, i + 1, h => by
    have ih := recordIn_modNth_of_ne xs i (fun y hy => h y hy)
    rw [modNth, recordIn, recordIn, ih]

/-- The record of a slot made the home of a stop that had none is what the lookup finds. -/
theorem recordIn_modNth_new {r : Record} {f : Slot → Slot} (hf : ∀ x, (f x).record? = some r) : ∀ (xs : List Slot) (i : Nat),
    i < xs.length → recordIn r.stop xs = none → recordIn r.stop (modNth xs i f) = some r
  | [], _, h, _ => by simp at h
  | x :: xs, 0, _, _ => by simp [modNth, recordIn, hf]
  | x :: xs, i + 1, hi, hnone => by
    have hlen : i < xs.length := by simpa using hi
    cases hx : x.record? with
    | none =>
      have hrest : recordIn r.stop xs = none := by simpa [recordIn, hx] using hnone
      simp [modNth, recordIn, hx, recordIn_modNth_new hf xs i hlen hrest]
    | some q =>
      have hne : q.stop ≠ r.stop := fun he => by simp [recordIn, hx, he] at hnone
      have hrest : recordIn r.stop xs = none := by simpa [recordIn, hx, hne] using hnone
      simp [modNth, recordIn, hx, hne, recordIn_modNth_new hf xs i hlen hrest]

/-- A slot that passes a test and fails it behind its change makes one fewer. -/
theorem countP_modNth {p : Slot → Bool} {f : Slot → Slot} : ∀ (xs : List Slot) (i : Nat) (x : Slot), xs[i]? = some x →
    p x = true → p (f x) = false → (modNth xs i f).countP p + 1 = xs.countP p
  | [], _, _, h, _, _ => by simp at h
  | y :: ys, 0, x, h, hp, hn => by
    obtain rfl : y = x := by simpa using h
    simp [modNth, hp, hn]
  | y :: ys, i + 1, x, h, hp, hn => by
    have ih := countP_modNth ys i x (by simpa using h) hp hn
    rw [modNth, List.countP_cons, List.countP_cons]
    omega

section
variable {s : State} {n : Nat} {x : Slot} {f : Slot → Slot} (hx : s.slot n = some x)
include hx

theorem slots_modSlot : ∃ i, n = i + 1 ∧ s.slots[i]? = some x ∧ (s.modSlot n f).slots = modNth s.slots i f := by
  cases n with
  | zero => simp at hx
  | succ i => exact ⟨i, rfl, by rwa [slot_succ] at hx, by simp [modNth1]⟩

/-- Another stop's lookup is as it was. -/
theorem recOf_modSlot_of_ne {m : Nat} (h1 : ∀ r, x.record? = some r → r.stop ≠ m) (h2 : ∀ r, (f x).record? = some r → r.stop ≠ m) :
    (s.modSlot n f).recOf m = s.recOf m := by
  obtain ⟨i, rfl, hi, hslots⟩ := slots_modSlot (f := f) hx
  rw [State.recOf, hslots]
  refine recordIn_modNth_of_ne s.slots i fun y hy => ?_
  obtain rfl : y = x := by rw [hi] at hy; exact (Option.some.inj hy).symm
  exact ⟨h1, h2⟩

theorem recOf_modSlot_new {r : Record} (hf : ∀ x, (f x).record? = some r) (hnone : s.recOf r.stop = none) :
    (s.modSlot n f).recOf r.stop = some r := by
  obtain ⟨i, rfl, hi, hslots⟩ := slots_modSlot (f := f) hx
  rw [State.recOf, hslots]
  exact recordIn_modNth_new hf s.slots i (List.getElem?_eq_some_iff.1 hi).1 hnone

theorem countSlots_modSlot {p : Slot → Bool} (hp : p x = true) (hn : p (f x) = false) :
    (s.modSlot n f).countSlots p + 1 = s.countSlots p := by
  obtain ⟨i, rfl, hi, hslots⟩ := slots_modSlot (f := f) hx
  rw [State.countSlots, hslots]
  exact countP_modNth s.slots i x hi hp hn

/-- The home of a stop that had none is the slot made its home. -/
theorem homeOf_modSlot_new {r : Record} (hf : ∀ x, (f x).record? = some r) (hnone : s.recOf r.stop = none) :
    (s.modSlot n f).homeOf r.stop = some n := by
  obtain ⟨i, y, hhome, -⟩ := findSlot_of_recordIn r.stop r _ 1 (recOf_modSlot_new hx hf hnone)
  obtain ⟨⟨z, hz, hholds⟩, -⟩ := homeOf_some _ _ _ hhome
  have hn : 1 + i = n := by
    by_contra hne
    rw [slot_modSlot, if_neg hne] at hz
    exact (recOf_none_iff s r.stop).1 hnone _ ⟨z, hz, hholds⟩
  exact hhome.trans (by rw [hn])

end

/-- What a lookup and the home of a stop read. -/
theorem homeOf_of_slots {s t : State} (h : t.slots = s.slots) (stop : Nat) : t.homeOf stop = s.homeOf stop := by
  unfold State.homeOf; rw [h]

end Sys2Proof.Machine
end

