-- ==== Sys2Proof/Proofs/OrderCommands.lean ====
section
/-! PROOFS. ORD.NEW, ORD.DROP, ORD.AMEND of a record at rest, ORD.HOLD and ORD.RELEASE. -/

open Sys2Proof Sys2Proof.Machine

namespace Sys2Proof.Machine

/-! ## A command that touches the slots and the queue alone -/

/-- The state behind a line's arrival with the slots, the queue and those who wait changed, and nothing else. -/
structure StoreOnly (s u : State) : Prop where
  eq : u = { s with rx := .waiting, slots := u.slots, queue := u.queue, lines := u.lines, cmd := u.cmd }
  core : ∀ l, (u.line l).core = (s.line l).core

theorem enqueue_eq (s : State) (k : Key) : s.enqueue k = { s with queue := (s.enqueue k).queue } := by
  unfold State.enqueue; split <;> rfl

/-- What such a command leaves alone. -/
theorem StoreOnly.frame {s u t : State} (h : StoreOnly s u) (hk : CommitKeeps u t) :
    sameBlocks s t ∧ sameLines s t ∧ sameTruck s t ∧ t.tx = s.tx ∧ t.unsaved = s.unsaved := by
  obtain ⟨heq, hcore⟩ := h
  have key : ∀ {α : Type} (g : State → α), g u
      = g { s with rx := .waiting, slots := u.slots, queue := u.queue, lines := u.lines, cmd := u.cmd } := fun g => congrArg g heq
  have hattention : t.attention = s.attention := hk.attention.trans (key State.attention)
  refine ⟨⟨hk.settings.trans (key State.settings), hk.load.trans (key State.load),
    hk.route.trans (key State.route), hk.counter.trans (key State.counter)⟩,
    ⟨⟨(hk.core .one).trans (hcore .one), by rw [hattention]⟩, ⟨(hk.core .two).trans (hcore .two), by rw [hattention]⟩,
      hk.pump.trans (key State.pump)⟩,
    ⟨hk.inputs.trans (key State.inputs), hk.meters.trans (key State.meters),
      hk.clock.trans (key State.clock), hk.captures.trans (key State.captures),
      hk.areaSettings.trans (key State.areaSettings), hk.areaLoad.trans (key State.areaLoad),
      hk.areaRoute.trans (key State.areaRoute), hk.failed.trans (key State.failed),
      hk.seq.trans (key State.seq), hk.patrolCursor.trans (key State.patrolCursor),
      hk.resetCause.trans (key State.resetCause), hk.phase.trans (key State.phase),
      hk.mode.trans (key State.mode), hk.ignitionLow.trans (key State.ignitionLow),
      hk.sleepDue.trans (key State.sleepDue)⟩,
    hk.tx.trans (key State.tx), hk.unsaved.trans (key State.unsaved)⟩

/-! ## ORD.NEW (R8) -/

/-- The slot in which a new record stands (R8). -/
def Slot.occupied (r : Record) (x : Slot) : Slot := { x with st := .inUse (.record r) }

theorem record?_of_free {x : Slot} (h : x.isFree = true) : x.record? = none := by
  cases x with
  | mk st => cases st <;> simp_all [Slot.isFree, Slot.record?]

/-- With a slot FREE other than the target of a write in flight, a slot is allocated: at most one slot is left out. -/
theorem allocate_of_two {s : State} (except : Option Nat) (h : 2 ≤ s.countSlots Slot.isFree) : ∃ n, s.allocate except = some n := by
  have hpos : ∀ xs : List Slot, 1 ≤ xs.countP Slot.isFree → ∃ (i : Nat) (x : Slot), xs[i]? = some x ∧ x.isFree = true := by
    intro xs hxs
    obtain ⟨x, hx, hfree⟩ := List.countP_pos_iff.1 hxs
    obtain ⟨i, hi⟩ := List.getElem?_of_mem hx
    exact ⟨i, x, hi, hfree⟩
  have htwo : ∀ xs : List Slot, 2 ≤ xs.countP Slot.isFree → ∀ j : Nat, ∃ (i : Nat) (x : Slot), i ≠ j ∧ xs[i]? = some x ∧ x.isFree = true := by
    intro xs
    induction xs with
    | nil => intro h; simp at h
    | cons y ys ih =>
      intro h j
      rw [List.countP_cons] at h
      cases j with
      | zero =>
        obtain ⟨i, x, hi, hx⟩ := hpos ys (by split at h <;> omega)
        exact ⟨i + 1, x, by omega, by simpa using hi, hx⟩
      | succ j =>
        by_cases hy : y.isFree = true
        · exact ⟨0, y, by omega, rfl, hy⟩
        · obtain ⟨i, x, hij, hi, hx⟩ := ih (by simpa [hy] using h) j
          exact ⟨i + 1, x, by omega, by simpa using hi, hx⟩
  cases except with
  | none =>
    obtain ⟨i, x, hi, hx⟩ := hpos s.slots (Nat.le_trans (by omega) h)
    exact Option.isSome_iff_exists.1 (bestFree_of_offered none (i + 1) x s.slots 1
      ((offered_slots ..).2 ⟨by rw [slot_succ]; exact hi, hx, by simp⟩))
  | some e =>
    obtain ⟨i, x, hne, hi, hx⟩ := htwo s.slots h (e - 1)
    exact Option.isSome_iff_exists.1 (bestFree_of_offered (some e) (i + 1) x s.slots 1
      ((offered_slots ..).2 ⟨by rw [slot_succ]; exact hi, hx, by simp; omega⟩))

/-- The state with a new record in its slot, its write asked for. -/
def State.addRecord (s : State) (n : Nat) (r : Record) : State := (s.modSlot n (Slot.occupied r)).enqueue (.record r.stop)

theorem judgeOrdNew_taken {s : State} {stop account product : Nat} {kind : OrderKind} {preset price credit : Option Nat} {n : Nat}
    (hgood : goodOrder stop account product kind preset price credit s) (hnew : s.recOf stop = none)
    (hroom : 5 ≤ s.countSlots Slot.isFree) (hn : s.allocate s.flightTarget = some n) :
    judgeOrdNew stop account product kind preset price credit s =
      taken (s.addRecord n (newRecord stop account product kind preset price credit)) stop
        (item .STOP stop ++ item .FREE
          ((s.addRecord n (newRecord stop account product kind preset price credit)).countSlots Slot.isFree)) := by
  rw [judgeOrdNew, if_pos ((ordNewOk_iff ..).2 hgood), if_neg (by simp [hnew]), if_neg (by omega), hn]
  rfl

section
variable {s : State} {n : Nat} {x : Slot} {r : Record} (hx : s.slot n = some x) (hfree : x.isFree = true)
  (hnew : s.recOf r.stop = none)
include hx hfree hnew

omit hfree in
theorem recOf_addRecord_same : (s.addRecord n r).recOf r.stop = some r :=
  (recOf_of_slots (enqueue_slots ..) _).trans (recOf_modSlot_new hx (fun _ => rfl) hnew)

omit hnew in
theorem recOf_addRecord_of_ne {m : Nat} (hm : m ≠ r.stop) : (s.addRecord n r).recOf m = s.recOf m := by
  refine (recOf_of_slots (enqueue_slots ..) _).trans (recOf_modSlot_of_ne hx (fun q hq => ?_) fun q hq => ?_)
  · simp [record?_of_free hfree] at hq
  · cases hq
    exact fun he => hm he.symm

omit hnew in
theorem countSlots_addRecord : (s.addRecord n r).countSlots Slot.isFree + 1 = s.countSlots Slot.isFree := by
  have h := countSlots_modSlot (f := Slot.occupied r) (p := Slot.isFree) hx hfree rfl
  simpa [State.addRecord, State.countSlots] using h

omit hfree in
theorem homeOf_addRecord : (s.addRecord n r).homeOf r.stop = some n :=
  (homeOf_of_slots (enqueue_slots ..) _).trans (homeOf_modSlot_new hx (fun _ => rfl) hnew)

end

theorem addRecord_storeOnly (s : State) (n : Nat) (r : Record) : StoreOnly s (s.lineTaken.addRecord n r) where
  eq := by
    unfold State.addRecord
    rw [enqueue_eq]
    rfl
  core l := by simp [State.addRecord, State.line, State.lineTaken]

/-! ## ORD.DROP (R9, R10) -/

@[simp] theorem stop_setDrop (k : Nat) (tank cap preset : Option Nat) (noCap noPreset : Bool) (r : Record) :
    (r.setDrop k tank cap preset noCap noPreset).stop = r.stop := by
  unfold Record.setDrop; split <;> rfl

/-- An option replaced where a new one is given. -/
theorem ite_isSome_eq_or {α : Type} (a b : Option α) : (if a.isSome then a else b) = a.or b := by cases a <;> rfl

theorem setDrop_append {k : Nat} {tank cap preset : Option Nat} {noCap noPreset : Bool} {r : Record} (h : k = r.drops.length + 1) :
    (r.setDrop k tank cap preset noCap noPreset).drops = r.drops ++ [⟨tank.getD k, cap, preset, .pending⟩] := by
  rw [Record.setDrop, if_neg (by omega)]

theorem nth1_length_le {α : Type} {xs : List α} {k : Nat} {x : α} (h : nth1 xs k = some x) : k ≤ xs.length := by
  cases k with
  | zero => simp [nth1] at h
  | succ i =>
    rw [nth1_succ] at h
    exact (List.getElem?_eq_some_iff.1 h).1

theorem setDrop_amend {k : Nat} {tank cap preset : Option Nat} {noCap noPreset : Bool} {r : Record} {d : Drop}
    (h : nth1 r.drops k = some d) :
    (r.setDrop k tank cap preset noCap noPreset).drops = modNth1 r.drops k (Drop.amended tank cap preset noCap noPreset) := by
  rw [Record.setDrop, if_pos (nth1_length_le h)]

/-! ## ORD.HOLD and ORD.RELEASE (R13) -/

/-- A command that changes one record, whose judgement is that change. -/
theorem exec_changeRec {i : Instr} {w : CmdWord} {s : State} {stop : Nat} {r : Record} (f : Record → Record)
    {fields : List Tok} (hw : commandWord i = some w) (hh : s.hears = true) (hs : s.settled = true) (hroom : s.roomy = true)
    (hf : ∀ r, (f r).stop = r.stop) (hr : s.recOf stop = some r)
    (hj : judgeCommand i s.lineTaken = taken (s.lineTaken.changeRec stop f) stop fields) :
    ∃ t, exec i s = .next t ∧ recordTaken w (.ready [fields]) stop (f r) s t := by
  rw [exec_command hw]
  exact take_changeRec w _ stop r f fields s hh hs hroom hf hr hj

theorem moveState_found {before after : RecState} {stop : Nat} {s : State} {r : Record} (hstop : 1 ≤ stop ∧ stop ≤ 9999)
    (hr : s.recOf stop = some r) : moveState before after stop s =
      if r.state = before then taken (s.changeRec stop (fun r => { r with state := after })) stop [.kw (recStateKw after)]
      else .error .STATE :=
  withRecord_found s stop r _ hstop hr

/-! ## ORD.AMEND of a record at rest (R11) -/

theorem apply_dpreset {a : Amend} {r : Record} {k p : Nat} (h : a.dpreset = some (k, p)) :
    (Amend.apply a r).drops = modNth1 r.drops k (fun d => { d with preset := some p }) := by simp [Amend.apply, h]

theorem apply_noDpreset {a : Amend} {r : Record} (h : a.dpreset = none) : (Amend.apply a r).drops = r.drops := by
  simp [Amend.apply, h]

theorem length_apply (a : Amend) (r : Record) : (Amend.apply a r).drops.length = r.drops.length := by
  cases h : a.dpreset with
  | none => rw [apply_noDpreset h]
  | some d => rw [apply_dpreset (k := d.1) (p := d.2) h, length_modNth1]

/-- The drop that an amendment names takes the preset, and the others stay. -/
theorem nth1_apply (a : Amend) (r : Record) :
    (∀ k p, a.dpreset = some (k, p) → ∀ d, nth1 r.drops k = some d → nth1 (Amend.apply a r).drops k = some { d with preset := some p })
      ∧ ∀ j, (∀ p, a.dpreset ≠ some (j, p)) → nth1 (Amend.apply a r).drops j = nth1 r.drops j := by
  refine ⟨fun k p h d hd => ?_, fun j hj => ?_⟩
  · rw [apply_dpreset h, nth1_modNth1, if_pos rfl, hd]
    rfl
  · cases h : a.dpreset with
    | none => rw [apply_noDpreset h]
    | some d =>
      have hne : j ≠ d.1 := fun he => hj d.2 (by rw [h, he])
      rw [apply_dpreset (k := d.1) (p := d.2) h, nth1_modNth1, if_neg hne]

theorem judgeOrdAmend_shapable {stop : Nat} {a : Amend} {r : Record} {s : State} (hstop : goodStop stop) (ha : goodAmend a)
    (hr : s.recOf stop = some r) (hst : r.state = .planned ∨ r.state = .held) (hfit : amendFits a r) :
    judgeOrdAmend stop a s = taken (s.changeRec stop (Amend.apply a)) stop (Amend.apply a r).orderToks := by
  have hfrozen : ¬ r.isFrozen = true := by
    rw [Record.isFrozen_iff]
    rcases hst with h | h <;> simp [h]
  rw [judgeOrdAmend_found hstop ha hr, if_neg hfrozen, if_neg (by simp [(recordOk_iff a r).2 hfit]),
    if_pos ((isShapable_iff r).2 hst)]
  rfl

end Sys2Proof.Machine

/-- Settles O21: the judgement's record stands in the slot R31 gives, and nothing else changes. -/
theorem ordNewCreatesThePlannedRecord : Obligations.OrdNewCreatesThePlannedRecord := by
  intro stop account product kind preset price credit s hh hs hstop haccount hproduct hdef hfill hvolume hamount hprice hcredit
    hnew hroom
  have hpreset : goodPreset kind preset := by
    cases kind
    · exact hfill rfl
    · exact hvolume rfl
    · exact hamount rfl
  have hgood : goodOrder stop account product kind preset price credit s.lineTaken :=
    ⟨hstop, haccount, hproduct, hdef, hpreset, hprice, hcredit⟩
  obtain ⟨n, hn⟩ := allocate_of_two s.flightTarget (show 2 ≤ s.countSlots Slot.isFree by omega)
  obtain ⟨x, hx, hfree⟩ := allocate_free s _ n hn
  have hj : judgeCommand (.ordNew stop account product kind preset price credit) s.lineTaken = _ :=
    judgeOrdNew_taken (s := s.lineTaken) hgood hnew hroom hn
  have hcount := countSlots_addRecord (s := s.lineTaken) (r := newRecord stop account product kind preset price credit) hx hfree
  have hsame := recOf_addRecord_same (s := s.lineTaken) (r := newRecord stop account product kind preset price credit) hx hnew
  obtain ⟨u, hu⟩ : ∃ u, u = s.lineTaken.addRecord n (newRecord stop account product kind preset price credit) := ⟨_, rfl⟩
  rw [← hu] at hj hcount hsame
  have hcount' : u.countSlots Slot.isFree + 1 = s.countSlots Slot.isFree := hcount
  have honly : StoreOnly s u := hu ▸ addRecord_storeOnly s n _
  have hflies : Flies u (.record stop) := flies_record hsame (by
    have : 0 < u.slots.countP Slot.isFree := by
      have : u.countSlots Slot.isFree = u.slots.countP Slot.isFree := rfl
      omega
    simpa using List.countP_pos_iff.1 this)
  obtain ⟨hidle, -, hends, -⟩ := (settled_iff s).1 hs
  obtain ⟨t, ht, hwritten⟩ := exec_writes (i := .ordNew stop account product kind preset price credit) rfl hh hs hj
    (by rw [honly.eq]) (by rw [honly.eq])
    (by rw [hu]; simpa [State.addRecord, noEndDue, State.lineTaken] using hends)
    fun _ hq => ⟨.record stop, [], by rw [hu]; simp [State.addRecord, State.enqueue, State.lineTaken, hq, newRecord], by simp, hflies⟩
  obtain ⟨hblocks, hlines, htruck, htx, hunsaved⟩ := honly.frame hwritten.toCommitKeeps
  refine ⟨t, newRecord stop account product kind preset price credit, n, ht, ⟨?_, ⟨fun m hm => ?_, hunsaved⟩, hblocks, hlines,
    htruck, htx, ?_, hwritten.asked _ ?_⟩, rfl, rfl, rfl, rfl, rfl, rfl, rfl, rfl, rfl, rfl, rfl, rfl, rfl, rfl, hn, ?_, ?_⟩
  · exact (hwritten.recOf stop).trans hsame
  · rw [hwritten.recOf, hu]
    exact recOf_addRecord_of_ne (s := s.lineTaken) hx hfree hm
  · have := hwritten.progress
    rw [show u.countSlots Slot.isFree = s.countSlots Slot.isFree - 1 by omega] at this
    exact this
  · rw [hu]
    exact mem_enqueue _ _
  · rw [homeOf_of_slots hwritten.slots, hu]
    exact homeOf_addRecord (s := s.lineTaken) (r := newRecord stop account product kind preset price credit) hx hnew
  · rw [State.countSlots, hwritten.slots]
    exact hcount

/-- Settles O22: the drop list as set, appended to, or cut. -/
theorem ordDropShapesTheDropList : Obligations.OrdDropShapesTheDropList := by
  refine ⟨fun stop k tank cap preset noCap noPreset r s hh hs hroom hstop hr hst hk hlen htank hcap hpreset hnc hnp => ?_,
    fun stop r s hh hs hroom hstop hr hst hlen => ?_⟩
  · have hgood : goodDrop stop k tank cap preset noCap noPreset := ⟨hstop, hk, htank, hcap, hpreset, hnc, hnp⟩
    have hj : judgeCommand (.ordDrop stop k tank cap preset noCap noPreset) s.lineTaken = _ :=
      (withRecord_some (s := s.lineTaken) ((dropFieldsOk_iff ..).2 hgood) hr _).trans
        ((if_neg (by omega)).trans (if_pos ((isShapable_iff r).2 hst)))
    obtain ⟨t, ht, htaken⟩ := exec_changeRec (Record.setDrop k tank cap preset noCap noPreset) rfl hh hs hroom (stop_setDrop k tank cap preset noCap noPreset) hr hj
    refine ⟨t, _, _, ht, htaken, ?_, setDrop_append, fun d hd => ?_⟩
    · unfold Record.setDrop
      split <;> rfl
    · rw [setDrop_amend hd]
      refine ⟨length_modNth1 .., ?_, fun j hj => ?_⟩
      · rw [nth1_modNth1, if_pos rfl, hd]
        simp [Drop.amended, ite_isSome_eq_or]
      · rw [nth1_modNth1, if_neg hj]
  · have hj : judgeCommand (.ordDropClear stop) s.lineTaken = _ :=
      (withRecord_found s.lineTaken stop r _ hstop hr).trans ((if_neg (by omega)).trans (if_pos ((isShapable_iff r).2 hst)))
    obtain ⟨t, ht, htaken⟩ := exec_changeRec Record.dropLast rfl hh hs hroom (fun _ => rfl) hr hj
    have hlast : r.dropLast = { r with drops := r.drops.take (r.drops.length - 1) } := by
      rw [Record.dropLast, List.dropLast_eq_take]
    exact ⟨t, .ready [dropToks 1 r.dropLast.drops], ht, hlast ▸ htaken⟩

/-- Settles O23: the record as amended, field by field. -/
theorem ordAmendChangesTheNamedFields : Obligations.OrdAmendChangesTheNamedFields := by
  intro stop a r s hh hs hroom hstop hr hst hsome hprice hcredit hprices hcredits hkind hdrop hfits
  have hpreset : goodPreset (a.kind.getD r.kind)
      (if a.preset.isSome = true then a.preset else if a.kind = some .fill then none else r.preset) := by
    obtain ⟨hfill, hvolume, hamount⟩ := hfits
    cases hk : a.kind.getD r.kind
    · exact hfill hk
    · exact hvolume hk
    · exact hamount hk
  have hfit : amendFits a r := ⟨hpreset, hkind, fun k p h => (hdrop k p h).1⟩
  have hgood : goodAmend a := by
    refine ⟨hsome, hprice, hcredit, ⟨hprices, hcredits⟩, fun p hp => ?_, fun k p hk hp => ?_, fun k p hd => ?_⟩
    · simp only [hp, Option.isSome_some, if_true] at hpreset
      cases hk : a.kind.getD r.kind <;> simp only [hk, goodPreset] at hpreset
      · cases hpreset
      · obtain ⟨v, hv, h1, h2⟩ := hpreset
        cases hv
        omega
      · obtain ⟨v, hv, h1, h2⟩ := hpreset
        cases hv
        omega
    · simpa [hp, hk] using hpreset
    · obtain ⟨hlisted, h3, h1, h2⟩ := hdrop k p hd
      obtain ⟨d, hd⟩ := Option.isSome_iff_exists.1 hlisted
      refine ⟨⟨?_, h3⟩, h1, h2⟩
      cases k with
      | zero => simp [nth1] at hd
      | succ k => omega
  obtain ⟨t, ht, htaken⟩ := exec_changeRec (i := .ordAmend stop a) (Amend.apply a) rfl hh hs hroom (fun _ => rfl) hr
    (judgeOrdAmend_shapable (s := s.lineTaken) hstop hgood hr hst hfit)
  obtain ⟨hnamed, hother⟩ := nth1_apply a r
  exact ⟨t, _, _, ht, htaken, by simp [Amend.apply, ite_isSome_eq_or], by simp [Amend.apply, ite_isSome_eq_or], rfl, rfl,
    length_apply a r, hnamed, hother, rfl⟩

/-- Settles O25: each move by the record's state, each refusal by its judgement. -/
theorem holdAndRelease : Obligations.HoldAndRelease := by
  intro stop r s hh hs hroom hstop hr
  have hfound : ∀ before after, moveState before after stop s.lineTaken = _ := fun before after =>
    moveState_found (s := s.lineTaken) hstop hr
  refine ⟨fun h => ?_, fun h => ?_, fun h => ?_, fun h => ?_⟩
  · exact exec_changeRec (fun r => { r with state := .held }) rfl hh hs hroom (fun _ => rfl) hr ((hfound .planned .held).trans (if_pos h))
  · exact exec_refused rfl hh hs ((hfound .planned .held).trans (if_neg h))
  · exact exec_changeRec (fun r => { r with state := .planned }) rfl hh hs hroom (fun _ => rfl) hr ((hfound .held .planned).trans (if_pos h))
  · exact exec_refused rfl hh hs ((hfound .held .planned).trans (if_neg h))
end

