-- ==== Sys2Proof/Proofs/RemovalCommands.lean ====
section
/-! PROOFS. ORD.CANCEL and ORD.RETIRE. -/

open Sys2Proof Sys2Proof.Machine

namespace Sys2Proof.Machine

/-! ## The length of a short reply (R191, R192) -/

theorem length_decDigits : ∀ f m : Nat, (decDigits f m).length ≤ f
  | 0, _ => Nat.le_refl _
  | f + 1, m => by
    unfold decDigits
    split
    · simp
    · have := length_decDigits f (m / 10)
      simp
      omega

theorem width_nat_le (n : Nat) : (Tok.num (n : Int)).width ≤ 41 := by
  have h := length_decDigits 40 n
  have hneg : ¬ (n : Int) < 0 := by omega
  simp only [Tok.width, Tok.bytes, intBytes, if_neg hneg, natBytes, List.length_map, Int.natAbs_natCast]
  omega

/-- Fields that fit one line make one line. -/
theorem okLines_single {word : List Byte} {fields : List Tok} (h : widths fields ≤ fieldRoom word) :
    okLines word [fields] = [⟨word, .ok, fields, true⟩] := by
  unfold okLines replyFields chopSegment
  rw [if_pos h]
  rfl

/-! ## Entries and waiters withdrawn (R37) -/

/-- With no run end waiting for an entry, its withdrawal leaves the lines as they were. -/
theorem lines_dropEntry {s : State} {k : Key} (h : ∀ l, ∀ w ∈ (s.line l).endWaits, k ∉ w.keys) : (s.dropEntry k).lines = s.lines := by
  have hkeep : ∀ ws : List Waiter, (∀ w ∈ ws, k ∉ w.keys) →
      ws.map (fun w => { w with keys := w.keys.filter (· != k) }) = ws := by
    intro ws hws
    refine (List.map_congr_left fun w hw => ?_).trans (List.map_id ws)
    have hfilter : w.keys.filter (· != k) = w.keys := by
      rw [List.filter_eq_self]
      intro j hj
      have hne : j ≠ k := fun he => hws w hw (he ▸ hj)
      simpa using hne
    rw [hfilter]
    rfl
  have h1 := hkeep s.lines.one.endWaits (h .one)
  have h2 := hkeep s.lines.two.endWaits (h .two)
  simp only [State.dropEntry, State.mapWaiters, Pair.map, h1, h2]

theorem dropEntry_eq {s : State} {k : Key} (h : (s.dropEntry k).lines = s.lines) :
    s.dropEntry k = { s with queue := (s.dropEntry k).queue, cmd := (s.dropEntry k).cmd } := by
  rw [← h]
  rfl

theorem not_mem_queue_dropEntry {s : State} {k : Key} (h : s.queueLaw) : k ∉ (s.dropEntry k).queue :=
  fun hm => (List.Nodup.mem_erase_iff h).1 hm |>.1 rfl

/-! ## A release asked for (R37) -/

theorem recordIn_modNth_same {m : Nat} {f : Slot → Slot} (hf : ∀ x, (f x).record? = x.record?) : ∀ (xs : List Slot) (i : Nat),
    recordIn m (modNth xs i f) = recordIn m xs
  | [], _ => rfl
  | x :: xs, 0 => by rw [modNth, recordIn, recordIn, hf]
  | x :: xs, i + 1 => by rw [modNth, recordIn, recordIn, recordIn_modNth_same hf xs i]

theorem recOf_modSlot_same (s : State) (n : Nat) {f : Slot → Slot} (hf : ∀ x, (f x).record? = x.record?) (m : Nat) :
    (s.modSlot n f).recOf m = s.recOf m := by
  rw [State.recOf, modSlot_slots, modNth1]
  split
  · rfl
  · exact recordIn_modNth_same hf _ _

/-- The state in which the release of a slot has been asked for, from the state without the entry it makes idle. -/
def State.releaseAsked (s : State) (n : Nat) : State := (s.modSlot n (fun x => { x with leaving := true })).enqueue (.release n)

theorem askRelease_record {s : State} {n : Nat} {x : Slot} {r : Record} (hx : s.slot n = some x) (hr : x.record? = some r) :
    s.askRelease n = (s.dropEntry (.record r.stop)).releaseAsked n := by
  simp [State.askRelease, State.releaseAsked, hx, hr]

theorem askRelease_damaged {s : State} {n : Nat} {x : Slot} (hx : s.slot n = some x) (hr : x.record? = none) :
    s.askRelease n = s.releaseAsked n := by
  simp [State.askRelease, State.releaseAsked, hx, hr]

theorem recOf_releaseAsked (s : State) (n m : Nat) : (s.releaseAsked n).recOf m = s.recOf m :=
  (recOf_of_slots (enqueue_slots ..) m).trans (recOf_modSlot_same s n (f := fun x => { x with leaving := true }) (fun _ => rfl) m)

/-- A release asked for by a command: its write is asked for, and nothing but the queue and the slot's mark changes. -/
theorem exec_release {i : Instr} {w : CmdWord} {p : Plan} {s v : State} {n : Nat} (hw : commandWord i = some w) (hh : s.hears = true)
    (hs : s.settled = true) (hj : judgeCommand i s.lineTaken = .ok ⟨v.releaseAsked n, p, [.release n]⟩)
    (hv : v = { s.lineTaken with queue := v.queue, cmd := v.cmd }) (hq : s.queue = [] → v.queue = []) :
    ∃ t, exec i s = .next t ∧ inProgress w p t ∧ asked t (.release n) ∧ (∀ k, k ∉ v.queue → k ≠ .release n → k ∉ t.queue)
      ∧ sameRecords s t ∧ sameBlocks s t ∧ sameLines s t ∧ sameTruck s t ∧ t.tx = s.tx := by
  obtain ⟨-, -, hends, -⟩ := (settled_iff s).1 hs
  have honly : StoreOnly s (v.releaseAsked n) := by
    constructor
    · rw [State.releaseAsked, enqueue_eq]
      rw [hv]
      rfl
    · intro l
      rw [hv]
      simp [State.releaseAsked, State.line, State.lineTaken]
  obtain ⟨t, ht, hwritten⟩ := exec_writes hw hh hs hj (by rw [honly.eq]) (by rw [honly.eq])
    (by rw [hv]; simpa [State.releaseAsked, noEndDue, State.lineTaken] using hends)
    fun _ hidle => ⟨.release n, [], by simp [State.releaseAsked, State.enqueue, hq hidle], by simp, flies_release _ n⟩
  obtain ⟨hblocks, hlines, htruck, htx, hunsaved⟩ := honly.frame hwritten.toCommitKeeps
  refine ⟨t, ht, hwritten.progress, hwritten.asked _ (mem_enqueue _ _), fun k hk hne => hwritten.queue k fun hm => ?_,
    ⟨fun m => ?_, hunsaved⟩, hblocks, hlines, htruck, htx⟩
  · unfold State.releaseAsked State.enqueue at hm
    split at hm
    · exact hk hm
    · rcases List.mem_append.1 hm with hm | hm
      · exact hk hm
      · exact hne (List.mem_singleton.1 hm)
  · rw [hwritten.recOf, recOf_releaseAsked]
    exact recOf_of_slots (by rw [hv]; rfl) m

/-! ## A record discarded at once (R37) -/

/-- A command answered at once from the store as it then stands. -/
theorem exec_planned {i : Instr} {w : CmdWord} {p : Plan} {s u : State} {fields : List Tok} (hw : commandWord i = some w)
    (hh : s.hears = true) (hs : s.settled = true) (hj : judgeCommand i s.lineTaken = .ok ⟨u, p, []⟩) (hphase : u.phase = s.phase)
    (hflight : u.flight.isSome = s.flight.isSome) (hqueue : s.queue = [] → u.queue = []) (hends : noEndDue u)
    (hplan : u.planSegments p = some [fields]) :
    exec i s = .next { u with cmd := some ⟨w, p, .on [], true⟩, tx := u.tx ++ okLines w.bytes [fields] } := by
  obtain ⟨hactive, -⟩ := (hears_iff s).1 hh
  obtain ⟨hidle, -⟩ := (settled_iff s).1 hs
  rw [exec_command hw, take_eq w _ s (ne_restart_of_active s hactive), arrive_taken w _ s u p [] hh hj]
  obtain ⟨v, hv⟩ : ∃ v : State, v = { u with cmd := some ⟨w, p, .on [], false⟩ } := ⟨_, rfl⟩
  have hvactive : v.isActive = true := (isActive_of_phase (s := s) (by rw [hv]; exact hphase)).trans hactive
  have hvidle : v.flight.isSome = true ∨ v.queue = [] := by
    rw [hv]
    exact hidle.imp (fun h => hflight.trans h) hqueue
  have hdeliver : v.deliverReply = { u with cmd := some ⟨w, p, .on [], true⟩, tx := u.tx ++ okLines w.bytes [fields] } := by
    have hvplan : v.planSegments p = some [fields] := by
      rw [hv]
      exact hplan
    have hcmd : v.cmd = some ⟨w, p, .on [], false⟩ := by rw [hv]
    unfold State.deliverReply
    simp only [hcmd, hvplan, Waiter.over, Waiter.on, List.isEmpty_nil, Bool.not_false, Bool.and_self, and_self, if_true]
    rw [hv]
    rfl
  rw [← hv, commit_active v hvactive, runStore_settled v hvidle, deliver_noEnd v hvactive (by rw [hv]; exact hends), hdeliver,
    trySleep_busy _ rfl]

/-- The plans of ORD.CANCEL and ORD.RETIRE are answered in one line. -/
theorem removal_plan (u : State) {w : CmdWord} {p : Plan} (h : (w = .ORD_CANCEL ∧ p = .freeCount) ∨ (w = .ORD_RETIRE ∧ p = .freeRetired)) :
    ∃ fields, u.planSegments p = some [fields] ∧ (okLines w.bytes [fields]).length = 1 := by
  have hfree := width_nat_le (u.countSlots Slot.isFree)
  have hretired := width_nat_le (u.countSlots Slot.isRetired)
  rcases h with ⟨rfl, rfl⟩ | ⟨rfl, rfl⟩
  · refine ⟨_, rfl, ?_⟩
    rw [okLines_single]
    · rfl
    · have hroom : fieldRoom CmdWord.ORD_CANCEL.bytes = 142 := by decide
      have hkw : (Tok.kw .FREE).width = 5 := by decide
      simp only [widths, List.map_cons, List.map_nil, sumNat, List.foldr_cons, List.foldr_nil, hroom, hkw]
      omega
  · refine ⟨_, rfl, ?_⟩
    rw [okLines_single]
    · rfl
    · have hroom : fieldRoom CmdWord.ORD_RETIRE.bytes = 142 := by decide
      have hkw : (Tok.kw .FREE).width = 5 := by decide
      have hkw' : (Tok.kw .RETIRED).width = 8 := by decide
      simp only [widths, List.map_cons, List.map_nil, sumNat, List.foldr_cons, List.foldr_nil, hroom, hkw, hkw']
      omega

/-- A record with a CONDEMNED home leaves at once with its slot retired, and the command is answered. -/
theorem exec_discard {i : Instr} {w : CmdWord} {p : Plan} {s : State} {stop n : Nat} {r : Record} {x : Slot}
    (hw : commandWord i = some w) (hh : s.hears = true) (hs : s.settled = true)
    (hp : (w = .ORD_CANCEL ∧ p = .freeCount) ∨ (w = .ORD_RETIRE ∧ p = .freeRetired)) (hx : s.slot n = some x)
    (hr : x.record? = some r) (hstop : r.stop = stop) (hlaw : s.queueLaw)
    (hwait : ∀ l, ∀ w ∈ (s.line l).endWaits, Key.record stop ∉ w.keys)
    (hj : judgeCommand i s.lineTaken = .ok ⟨s.lineTaken.discard n stop, p, []⟩) :
    ∃ t, exec i s = .next t ∧ t.slots = modNth1 s.slots n Slot.retire ∧ Key.record stop ∉ t.queue
      ∧ (∀ m, m ≠ stop → t.recOf m = s.recOf m) ∧ t.unsaved = s.unsaved.erase stop ∧ sameBlocks s t ∧ sameLines s t
      ∧ sameTruck s t ∧ t.tx.length = s.tx.length + 1 := by
  obtain ⟨-, -, hends, -⟩ := (settled_iff s).1 hs
  have hlines : (s.lineTaken.discard n stop).lines = s.lines := lines_dropEntry (s := s.lineTaken) hwait
  obtain ⟨fields, hplan, hlen⟩ := removal_plan (s.lineTaken.discard n stop) hp
  refine ⟨_, exec_planned hw hh hs hj rfl ?_ (fun hq => ?_) ?_ hplan, rfl, ?_, fun m hm => ?_, rfl, ⟨rfl, rfl, rfl, rfl⟩, ?_,
    ⟨rfl, rfl, rfl, rfl, rfl, rfl, rfl, rfl, rfl, rfl, rfl, rfl, rfl, rfl, rfl⟩, ?_⟩
  · show (s.flight.map _).isSome = _
    simp
  · show s.queue.erase _ = []
    simp [hq]
  · unfold noEndDue
    rw [hlines]
    exact hends
  · exact not_mem_queue_dropEntry (s := s.lineTaken) hlaw
  · refine (recOf_of_slots (s := s.modSlot n Slot.retire) rfl m).trans (recOf_modSlot_of_ne hx (fun q hq => ?_) fun q hq => ?_)
    · rw [hr] at hq
      cases hq
      exact fun he => hm (he.symm.trans hstop)
    · cases hq
  · unfold sameLines sameLine State.line
    refine ⟨⟨?_, rfl⟩, ⟨?_, rfl⟩, rfl⟩
    · exact congrArg (fun p : Pair LineCtx => p.one.core) hlines
    · exact congrArg (fun p : Pair LineCtx => p.two.core) hlines
  · show (s.tx ++ _).length = _
    rw [List.length_append, hlen]

/-! ## ORD.CANCEL and ORD.RETIRE (R14, R23) -/

/-- A removal by stop is judged by the record's state and its home. -/
theorem judge_removal {i : Instr} {w : CmdWord} {stop n : Nat} {r : Record} {x : Slot} {s : State} (hstop : 1 ≤ stop ∧ stop ≤ 9999)
    (hr : s.recOf stop = some r) (hn : s.homeOf stop = some n) (hx : s.slot n = some x)
    (hi : (i = .ordCancel stop ∧ w = .ORD_CANCEL ∧ (r.state = .planned ∨ r.state = .held))
      ∨ (i = .ordRetire (.stop stop) ∧ w = .ORD_RETIRE ∧ r.state = .issued)) :
    ∃ p, ((w = .ORD_CANCEL ∧ p = .freeCount) ∨ (w = .ORD_RETIRE ∧ p = .freeRetired))
      ∧ judgeCommand i s = removal s n stop x.isCondemned p := by
  rcases hi with ⟨rfl, rfl, hst⟩ | ⟨rfl, rfl, hst⟩
  · refine ⟨.freeCount, .inl ⟨rfl, rfl⟩, (withRecord_found s stop r _ hstop hr).trans ?_⟩
    rw [if_pos ((isShapable_iff r).2 hst), hn]
    show removal s n stop ((s.slot n).elim _ _) _ = _
    rw [hx]
    rfl
  · refine ⟨.freeRetired, .inr ⟨rfl, rfl⟩, (withRecord_found s stop r _ hstop hr).trans ?_⟩
    rw [if_pos hst, hn]
    show removal s n stop ((s.slot n).elim _ _) _ = _
    rw [hx]
    rfl

theorem not_condemned_of_inUse {x : Slot} (h : x.isInUse = true) : x.isCondemned = false := by
  cases hst : x.st <;> simp_all [Slot.isInUse, Slot.isCondemned]

theorem commandWord_removal {i : Instr} {w : CmdWord} {stop : Nat} {p q : Prop}
    (hi : (i = .ordCancel stop ∧ w = .ORD_CANCEL ∧ p) ∨ (i = .ordRetire (.stop stop) ∧ w = .ORD_RETIRE ∧ q)) :
    commandWord i = some w := by
  rcases hi with ⟨rfl, rfl, _⟩ | ⟨rfl, rfl, _⟩ <;> rfl

end Sys2Proof.Machine

/-- Settles O26: a release asked for, or the record discarded at once, by the home's condition. -/
theorem cancelAndRetire : Obligations.CancelAndRetire := by
  refine ⟨fun i w stop n r x s hh hs hstop hr hn hx hlaw hwait hi => ?_, fun n x s hh hs hn hx => ?_⟩
  · obtain ⟨y, hy, hry, hrstop⟩ := record?_of_homeOf s stop n r hn hr
    obtain rfl : y = x := by rw [hx] at hy; exact (Option.some.inj hy).symm
    obtain ⟨p, hp, hj⟩ := judge_removal (s := s.lineTaken) hstop hr hn hx hi
    have hw := commandWord_removal hi
    refine ⟨fun huse => ?_, fun hcond => ?_⟩
    · rw [not_condemned_of_inUse huse] at hj
      have hj' : judgeCommand i s.lineTaken
          = .ok ⟨(s.lineTaken.dropEntry (.record stop)).releaseAsked n, p, [.release n]⟩ := by
        rw [hj, removal, if_neg (by simp), askRelease_record (s := s.lineTaken) hx hry, hrstop]
      have hlines := lines_dropEntry (s := s.lineTaken) hwait
      obtain ⟨t, ht, hprogress, hasked, hqueue, hrecords, hblocks, hlines, htruck, htx⟩ := exec_release hw hh hs hj' (dropEntry_eq hlines) fun hq => by
        show s.queue.erase _ = []
        simp [hq]
      exact ⟨t, p, ht, hprogress, hasked, hqueue _ (not_mem_queue_dropEntry (s := s.lineTaken) hlaw) (by simp),
        (hrecords.1 stop).trans hr, ⟨fun m _ => hrecords.1 m, hrecords.2⟩, hblocks, hlines, htruck, htx⟩
    · exact exec_discard hw hh hs hp hx hry hrstop hlaw hwait (by rw [hj, hcond]; rfl)
  · refine ⟨fun stop account hst => ?_, fun r hst hno => ?_, fun hfree => ?_⟩
    · have hrec : x.record? = none := by simp [Slot.record?, hst]
      have hj : judgeCommand (.ordRetire (.slot n)) s.lineTaken = .ok ⟨s.lineTaken.releaseAsked n, .freeRetired, [.release n]⟩ := by
        simp only [judgeCommand, judgeOrdRetire, bySlot_lineTaken, bySlot_inUse hn hx hst, removal]
        rw [if_neg (by simp), askRelease_damaged (s := s.lineTaken) hx hrec]
      obtain ⟨t, ht, hprogress, hasked, -, hrecords, hblocks, hlines, htruck, -⟩ := exec_release rfl hh hs hj rfl id
      exact ⟨t, _, ht, hprogress, hasked, hrecords, hblocks, hlines, htruck⟩
    · refine exec_refused rfl hh hs ?_
      simp only [judgeCommand, judgeOrdRetire, bySlot_lineTaken, bySlot_inUse hn hx hst]
      exact if_neg hno
    · refine exec_refused rfl hh hs ?_
      simp only [judgeCommand, judgeOrdRetire, bySlot_lineTaken, bySlot_empty hn hx hfree]
end

