-- ==== Sys2Proof/Proofs/LineChanges.lean ====
section
/-! PROOFS. Changes of one line, and the frames behind what follows a command. -/

open Sys2Proof Sys2Proof.Machine

namespace Sys2Proof.Machine

/-! ## The change of one line -/

/-- One line, its meter line and its attention item change, and with them the slots, the queue, the pump binding and the presses; nothing else, and the line waits for the same run ends. -/
structure LineOnly (l : Line) (s u : State) : Prop where
  eq : u = { s with
    slots := u.slots, queue := u.queue, lines := u.lines, meters := u.meters, pump := u.pump, press := u.press
    attention := u.attention }
  unsaved : u.unsaved = s.unsaved
  otherLine : u.line l.other = s.line l.other
  otherMeter : u.meter l.other = s.meter l.other
  otherItem : u.attention.get l.other = s.attention.get l.other
  endWaits : (u.line l).endWaits = (s.line l).endWaits

@[simp] theorem other_ne (l : Line) : l.other ≠ l := by cases l <;> exact nofun

theorem forall_line {p : Line → Prop} (l : Line) (h : p l) (ho : p l.other) : ∀ k, p k := by
  intro k
  cases l <;> cases k
  · exact h
  · exact ho
  · exact ho
  · exact h

namespace LineOnly
variable {l : Line} {s u v : State}

theorem refl (l : Line) (s : State) : LineOnly l s s := ⟨rfl, rfl, rfl, rfl, rfl, rfl⟩

theorem trans (h : LineOnly l s u) (k : LineOnly l u v) : LineOnly l s v where
  eq := by
    have heq := h.eq
    rw [k.eq]
    generalize v.slots = a, v.queue = b, v.lines = c, v.meters = d, v.pump = e, v.press = f, v.attention = g
    rw [heq]
  unsaved := k.unsaved.trans h.unsaved
  otherLine := k.otherLine.trans h.otherLine
  otherMeter := k.otherMeter.trans h.otherMeter
  otherItem := k.otherItem.trans h.otherItem
  endWaits := k.endWaits.trans h.endWaits

theorem modLine (s : State) (l : Line) (f : LineCtx → LineCtx) (hf : ∀ c, (f c).endWaits = c.endWaits) : LineOnly l s (s.modLine l f) :=
  ⟨rfl, rfl, line_modLine_of_ne s f (other_ne l), rfl, rfl, by rw [line_modLine_same, hf]⟩

theorem modMeter (s : State) (l : Line) (f : Meter → Meter) : LineOnly l s (s.modMeter l f) :=
  ⟨rfl, rfl, rfl, meter_modMeter_of_ne s f (other_ne l), rfl, rfl⟩

theorem modRec (l : Line) (s : State) (stop : Nat) (f : Record → Record) : LineOnly l s (s.modRec stop f) :=
  ⟨rfl, rfl, rfl, rfl, rfl, rfl⟩

theorem enqueue (l : Line) (s : State) (k : Key) : LineOnly l s (s.enqueue k) := by
  unfold State.enqueue; split <;> exact ⟨rfl, rfl, rfl, rfl, rfl, rfl⟩

theorem changeRec (l : Line) (s : State) (stop : Nat) (f : Record → Record) : LineOnly l s (s.changeRec stop f) :=
  (modRec l s stop f).trans (enqueue l _ _)

theorem setAttention (s : State) (l : Line) : LineOnly l s (s.setAttention l) :=
  ⟨rfl, rfl, rfl, rfl, by cases l <;> rfl, rfl⟩

theorem joinPump (s : State) (l : Line) (c : Nat) : LineOnly l s (s.joinPump l c) := by
  unfold State.joinPump; split <;> exact ⟨rfl, rfl, rfl, rfl, rfl, rfl⟩

theorem leavePump (s : State) (l : Line) : LineOnly l s (s.leavePump l) := by
  unfold State.leavePump
  split
  · exact refl l s
  · split <;> exact ⟨rfl, rfl, rfl, rfl, rfl, rfl⟩

theorem toRest (s : State) (l : Line) (st : LineState) : LineOnly l s (s.toRest l st) :=
  (modLine s l (LineCtx.rest st) fun _ => rfl).trans (leavePump _ l)

theorem press (s : State) (l : Line) (p : PressMark) : LineOnly l s { s with press := p } := ⟨rfl, rfl, rfl, rfl, rfl, rfl⟩

theorem enterFlowing (s : State) (l : Line) (base : Nat) : LineOnly l s (s.enterFlowing l base) :=
  ((modMeter s l Meter.forFlowing).trans (modLine _ l (LineCtx.toFlowing (s.latchedOf l).run base) fun _ => rfl)).trans (press _ l _)

theorem beginRun (s : State) (l : Line) (k : RunKind) : LineOnly l s (s.beginRun l k) :=
  (modMeter s l (fun m => m.forRun (k != .order))).trans (modLine _ l (LineCtx.forRun k) fun _ => rfl)

theorem checkpoint (s : State) (l : Line) : LineOnly l s (s.checkpoint l) := by
  unfold State.checkpoint
  split
  · exact changeRec ..
  · exact refl l s

theorem enterPaused (s : State) (l : Line) (cause : PauseCause) : LineOnly l s (s.enterPaused l cause) :=
  ((modLine s l (LineCtx.toPaused (s.latchedOf l).run cause) fun _ => rfl).trans (checkpoint _ l)).trans (setAttention _ l)

theorem endDrop (s : State) (l : Line) (cause : EndCause) : LineOnly l s (s.endDrop l cause) := by
  have h := modLine s l (fun c => { c with limit := none, slowBase := 0, stopNet := none }) fun _ => rfl
  unfold State.endDrop
  split
  · exact h.trans (modRec ..)
  · exact h

theorem disarm (s : State) (l : Line) (st : LineState) : LineOnly l s (s.disarm l st) := by
  unfold State.disarm
  split
  · exact (changeRec ..).trans (toRest ..)
  · exact toRest ..

theorem beginStop (s : State) (l : Line) (i : StopIntent) : LineOnly l s (s.beginStop l i) :=
  modLine s l _ fun c => by unfold LineCtx.stopped; split <;> rfl

/-- A change of the line makes no run end due. -/
theorem noEndDue (h : LineOnly l s u) (hs : Machine.noEndDue s) : Machine.noEndDue u := by
  obtain ⟨h1, h2⟩ := hs
  have hother := congrArg LineCtx.endWaits h.otherLine
  have hends := h.endWaits
  cases l
  · exact ⟨(congrArg (List.any · Waiter.over) hends).trans h1, (congrArg (List.any · Waiter.over) hother).trans h2⟩
  · exact ⟨(congrArg (List.any · Waiter.over) hother).trans h1, (congrArg (List.any · Waiter.over) hends).trans h2⟩

section
variable (h : LineOnly l s u)
include h

/-- A figure the change does not name reads as before. -/
theorem read {α : Type} (g : State → α) : g u = g { s with
    slots := u.slots, queue := u.queue, lines := u.lines, meters := u.meters, pump := u.pump, press := u.press
    attention := u.attention } := congrArg g h.eq

theorem phase : u.phase = s.phase := h.read State.phase
theorem flight : u.flight = s.flight := h.read State.flight
theorem cmd : u.cmd = s.cmd := h.read State.cmd
theorem tx : u.tx = s.tx := h.read State.tx
theorem inputs : u.inputs = s.inputs := h.read State.inputs
theorem settings : u.settings = s.settings := h.read State.settings
theorem sameBlocks : sameBlocks s u :=
  ⟨h.read State.settings, h.read State.load, h.read State.route, h.read State.counter⟩

/-- All the truck but the meters. -/
theorem sameTruck : sameTruck s { u with meters := s.meters } :=
  ⟨h.read State.inputs, rfl, h.read State.clock, h.read State.captures, h.read State.areaSettings, h.read State.areaLoad,
    h.read State.areaRoute, h.read State.failed, h.read State.seq, h.read State.patrolCursor, h.read State.resetCause,
    h.read State.phase, h.read State.mode, h.read State.ignitionLow, h.read State.sleepDue⟩

end

end LineOnly

/-! ## Frames behind what follows a command (R191) -/

namespace CommitKeeps
variable {s t : State} (h : CommitKeeps s t)
include h

theorem sameBlocks : sameBlocks s t := ⟨h.settings, h.load, h.route, h.counter⟩

theorem sameLine (l : Line) : sameLine s t l := ⟨h.core l, congrArg (·.get l) h.attention⟩

theorem sameTruck : sameTruck s t :=
  ⟨h.inputs, h.meters, h.clock, h.captures, h.areaSettings, h.areaLoad, h.areaRoute, h.failed, h.seq, h.patrolCursor,
    h.resetCause, h.phase, h.mode, h.ignitionLow, h.sleepDue⟩

theorem meter (l : Line) : t.meter l = s.meter l := congrArg (·.get l) h.meters

end CommitKeeps

theorem sameBlocks.trans {a b c : State} (h : sameBlocks a b) (k : sameBlocks b c) : sameBlocks a c := by
  obtain ⟨h1, h2, h3, h4⟩ := h
  obtain ⟨k1, k2, k3, k4⟩ := k
  exact ⟨k1.trans h1, k2.trans h2, k3.trans h3, k4.trans h4⟩

theorem sameTruck.trans {a b c : State} (h : sameTruck a b) (k : sameTruck b c) : sameTruck a c := by
  obtain ⟨h1, h2, h3, h4, h5, h6, h7, h8, h9, h10, h11, h12, h13, h14, h15⟩ := h
  obtain ⟨k1, k2, k3, k4, k5, k6, k7, k8, k9, k10, k11, k12, k13, k14, k15⟩ := k
  exact ⟨k1.trans h1, k2.trans h2, k3.trans h3, k4.trans h4, k5.trans h5, k6.trans h6, k7.trans h7, k8.trans h8,
    k9.trans h9, k10.trans h10, k11.trans h11, k12.trans h12, k13.trans h13, k14.trans h14, k15.trans h15⟩

/-- The state behind a line's arrival is the state it arrived in, as far as the frames go. -/
theorem sameTruck_lineTaken (s : State) : sameTruck s s.lineTaken :=
  ⟨rfl, rfl, rfl, rfl, rfl, rfl, rfl, rfl, rfl, rfl, rfl, rfl, rfl, rfl, rfl⟩

namespace LineOnly
variable {l : Line} {s u t : State} (h : LineOnly l s.lineTaken u) (k : CommitKeeps u t)
include h k

theorem frame_blocks : Machine.sameBlocks s t := sameBlocks.trans (b := u) h.sameBlocks k.sameBlocks

theorem frame_other : sameLine s t l.other :=
  ⟨(k.core _).trans (congrArg LineCtx.core h.otherLine), (congrArg (·.get l.other) k.attention).trans h.otherItem⟩

theorem frame_truck : Machine.sameTruck s { t with meters := s.meters } :=
  sameTruck.trans (b := { u with meters := s.meters }) h.sameTruck
    ⟨k.inputs, rfl, k.clock, k.captures, k.areaSettings, k.areaLoad, k.areaRoute, k.failed, k.seq, k.patrolCursor,
      k.resetCause, k.phase, k.mode, k.ignitionLow, k.sleepDue⟩

theorem frame_tx : t.tx = s.tx := k.tx.trans h.tx

theorem frame_otherLineAndTruck : otherLineAndTruck l s t :=
  ⟨h.frame_other k, (k.meter _).trans h.otherMeter, h.frame_truck k⟩

/-- Where the meter line stays too, the whole truck does. -/
theorem frame_allTruck (hm : u.meter l = s.meter l) : Machine.sameTruck s t := by
  have hmeters : t.meters = s.meters := by
    refine k.meters.trans ?_
    have hall : ∀ k, u.meters.get k = s.meters.get k := forall_line l hm h.otherMeter
    have h1 := hall .one
    have h2 := hall .two
    simp only [Pair.get] at h1 h2
    calc u.meters = ⟨u.meters.one, u.meters.two⟩ := rfl
      _ = ⟨s.meters.one, s.meters.two⟩ := by rw [h1, h2]
  obtain ⟨h1, -, h3⟩ := h.frame_truck k
  exact ⟨h1, hmeters, h3⟩

theorem frame_otherThanLine (hm : u.meter l = s.meter l) : otherThanLine l s t :=
  ⟨h.frame_other k, h.frame_blocks k, h.frame_allTruck k hm, h.frame_tx k⟩

end LineOnly

/-! ## A line command that changes its record -/

/-- A line command taken with its record's write. -/
theorem exec_lineRecord {i : Instr} {w : CmdWord} {p : Plan} {s u : State} {l : Line} {stop : Nat} {r : Record} {f : Record → Record}
    (hw : commandWord i = some w) (hh : s.hears = true) (hs : s.settled = true) (hroom : s.roomy = true)
    (hf : ∀ r, (f r).stop = r.stop) (hr : s.recOf stop = some r) (hu : LineOnly l s.lineTaken u)
    (hstore : u.slots = (s.lineTaken.changeRec stop f).slots ∧ u.queue = (s.lineTaken.changeRec stop f).queue)
    (hj : judgeCommand i s.lineTaken = .ok ⟨u, p, [.record stop]⟩) :
    ∃ t, exec i s = .next t ∧ CommitKeeps u t ∧ inProgress w p t ∧ t.recOf stop = some (f r) ∧ asked t (.record stop)
      ∧ sameRecordsBut stop s t := by
  obtain ⟨-, -, hends, -⟩ := (settled_iff s).1 hs
  obtain ⟨hslots, hqueue⟩ := hstore
  replace hslots : u.slots = (s.modRec stop f).slots := hslots.trans (enqueue_slots ..)
  have hrec : u.recOf stop = some (f r) := by
    rw [recOf_of_slots hslots, recOf_modRec_same s stop f hf, hr]
    rfl
  obtain ⟨t, ht, hwritten⟩ := exec_writes hw hh hs hj hu.phase (by rw [hu.flight]; rfl) (hu.noEndDue hends) fun hnone hempty => by
    refine ⟨.record stop, [], hqueue.trans (queue_changeRec_of_nil _ _ _ hempty), by simp, flies_record hrec ?_⟩
    have hfree : s.slots.any Slot.isFree = true := by simpa [State.roomy, hnone] using hroom
    rw [hslots]
    simpa [List.any_map, Function.comp_def] using hfree
  refine ⟨t, ht, hwritten.toCommitKeeps, hwritten.progress, (hwritten.recOf stop).trans hrec,
    hwritten.asked _ (by rw [hqueue]; exact mem_changeRec ..), fun m hm => ?_, hwritten.unsaved.trans hu.unsaved⟩
  rw [hwritten.recOf, recOf_of_slots hslots, recOf_modRec_of_ne s stop f hf hm]

end Sys2Proof.Machine
end

