-- ==== Sys2Proof/Proofs/ArmingCommands.lean ====
section
/-! PROOFS. LN.ARM and LN.DISARM, and entries of line states. -/

open Sys2Proof Sys2Proof.Machine

namespace Sys2Proof.Machine

/-! ## Entries of line states, and the pump binding (R96, R101, R112, R134, R135) -/

theorem line_leavePump (s : State) (l k : Line) : (s.leavePump l).line k = s.line k := by
  unfold State.leavePump; split
  · rfl
  · split <;> rfl

theorem line_joinPump (s : State) (l k : Line) (c : Nat) : (s.joinPump l c).line k = s.line k := by
  unfold State.joinPump; split <;> rfl

theorem meters_leavePump (s : State) (l : Line) : (s.leavePump l).meters = s.meters := by
  unfold State.leavePump; split
  · rfl
  · split <;> rfl

theorem meters_joinPump (s : State) (l : Line) (c : Nat) : (s.joinPump l c).meters = s.meters := by
  unfold State.joinPump; split <;> rfl

/-- What the pump arbiter does leaves the store alone. -/
theorem store_leavePump (s : State) (l : Line) : (s.leavePump l).slots = s.slots ∧ (s.leavePump l).queue = s.queue := by
  unfold State.leavePump; split
  · exact ⟨rfl, rfl⟩
  · split <;> exact ⟨rfl, rfl⟩

theorem store_joinPump (s : State) (l : Line) (c : Nat) :
    (s.joinPump l c).slots = s.slots ∧ (s.joinPump l c).queue = s.queue := by
  unfold State.joinPump; split <;> exact ⟨rfl, rfl⟩

theorem joined_joinPump {s : State} {l : Line} {c : Nat} (h : ∀ b, s.pump = some b → b.comp = c) :
    joined l c s (s.joinPump l c) := by
  unfold State.joinPump joined
  cases hp : s.pump with
  | none => exact ⟨_, rfl, rfl, by cases l <;> rfl, by cases l <;> rfl⟩
  | some b => exact ⟨_, rfl, h b hp, by cases l <;> rfl, by cases l <;> rfl⟩

theorem left_leavePump (s : State) (l : Line) : left l s (s.leavePump l) := by
  unfold State.leavePump left
  cases hp : s.pump with
  | none => exact hp
  | some b =>
    cases l
    · simp only [Pair.set, Pair.get, Line.other, Bool.false_or]
      exact apply_ite State.pump _ _ _
    · simp only [Pair.set, Pair.get, Line.other, Bool.or_false]
      exact apply_ite State.pump _ _ _

/-- Frames about the pump binding read it alone. -/
theorem joined_of_pump {l : Line} {c : Nat} {s u s' t : State} (h : joined l c s u) (hs : s'.pump = s.pump) (ht : t.pump = u.pump) :
    joined l c s' t := by
  unfold joined at *; rw [hs, ht]; exact h

theorem left_of_pump {l : Line} {s u s' t : State} (h : left l s u) (hs : s'.pump = s.pump) (ht : t.pump = u.pump) : left l s' t := by
  unfold left at *; rw [hs, ht]; exact h

theorem line_toRest (s : State) (l : Line) (st : LineState) : (s.toRest l st).line l = LineCtx.rest st (s.line l) := by
  rw [State.toRest, line_leavePump, line_modLine_same]

theorem meter_toRest (s : State) (l k : Line) (st : LineState) : (s.toRest l st).meter k = s.meter k := by
  rw [State.toRest, State.meter, meters_leavePump]
  rfl

theorem isAtRest_rest (st : LineState) (c : LineCtx) : (LineCtx.rest st c).isAtRest st :=
  ⟨rfl, rfl, rfl, rfl, rfl, rfl, rfl, rfl, rfl, rfl, rfl, rfl, rfl, rfl, rfl, rfl, rfl⟩

theorem line_enterFlowing (s : State) (l : Line) (base : Nat) :
    (s.enterFlowing l base).line l = LineCtx.toFlowing (s.latchedOf l).run base (s.line l) :=
  line_modLine_same (s.modMeter l Meter.forFlowing) l _

theorem meter_enterFlowing (s : State) (l : Line) (base : Nat) : (s.enterFlowing l base).meter l = (s.meter l).forFlowing :=
  meter_modMeter_same s l _

theorem press_enterFlowing (s : State) (l : Line) (base : Nat) : (s.enterFlowing l base).press.lines.get l = false := by
  cases l <;> rfl

theorem justFlowing_toFlowing (x : RunSettings) (base : Nat) (c : LineCtx) : (LineCtx.toFlowing x base c).justFlowing x base :=
  ⟨rfl, rfl, rfl, rfl, rfl, rfl, rfl, rfl, rfl, rfl, rfl, rfl, rfl, rfl⟩

theorem justFlowing_forFlowing (m : Meter) : m.forFlowing.justFlowing := ⟨rfl, rfl, rfl, rfl, rfl, rfl⟩

theorem line_beginRun (s : State) (l : Line) (k : RunKind) : (s.beginRun l k).line l = LineCtx.forRun k (s.line l) :=
  line_modLine_same (s.modMeter l _) l _

theorem meter_beginRun (s : State) (l : Line) (k : RunKind) : (s.beginRun l k).meter l = (s.meter l).forRun (k != .order) :=
  meter_modMeter_same s l _

theorem latchedOf_of_latched {s : State} {l : Line} {x : Latched} (h : (s.line l).latched = some x) : s.latchedOf l = x := by
  rw [State.latchedOf, h]
  rfl

/-- The latched settings a line follows rest on its context and the settings block. -/
theorem latchedOf_congr {s u : State} {l : Line} (hl : (u.line l).latched = (s.line l).latched) (hs : u.settings = s.settings) :
    u.latchedOf l = s.latchedOf l := by
  rw [State.latchedOf, State.latchedOf, hl, hs]

theorem CommitKeeps.justFlowing {s t : State} {l : Line} {x : RunSettings} {base : Nat} (h : CommitKeeps s t)
    (hs : (s.line l).justFlowing x base) : (t.line l).justFlowing x base := by
  show (t.line l).core.justFlowing x base
  rw [h.core l]
  exact hs

theorem CommitKeeps.isAtRest {s t : State} {l : Line} {st : LineState} (h : CommitKeeps s t) (hs : (s.line l).isAtRest st) :
    (t.line l).isAtRest st := by
  show (t.line l).core.isAtRest st
  rw [h.core l]
  exact hs

/-- A figure of a line's context that the run ends waited for do not touch. -/
theorem CommitKeeps.figure {α : Type} {s t : State} (h : CommitKeeps s t) (l : Line) (g : LineCtx → α)
    (hg : ∀ c, g c.core = g c) : g (t.line l) = g (s.line l) := by
  rw [← hg, h.core l, hg]

/-! ## LN.ARM (R97, R98, R132, R138) -/

section
variable {s : State} {l : Line} {r : Record} {c : Nat} {comp : Option Nat} {purge yes : Bool}

theorem compHolds_iff (s : State) (c p : Nat) : s.compHolds c p = true ↔ (s.load.comp c).product = some p := by
  simp [State.compHolds]

/-- The compartment named, or the first of the product with something left (R132). -/
theorem chooseComp_eq {p : Nat} (hdef : (s.settings.product p).entry.defined = true) (hc : 1 ≤ c ∧ c ≤ 4)
    (hp : (s.load.comp c).product = some p) (hcomp : comp = some c ∨ (comp = none ∧ (s.load.comp c).drawn < (s.load.comp c).loaded
      ∧ ∀ d, 1 ≤ d → d < c → (s.load.comp d).product = some p → (s.load.comp d).loaded ≤ (s.load.comp d).drawn)) :
    s.chooseComp p comp = some c := by
  unfold State.chooseComp
  rw [if_pos hdef]
  rcases hcomp with rfl | ⟨rfl, hleft, hskip⟩
  · exact if_pos ((compHolds_iff ..).2 hp)
  · have htake : (s.compHolds c p && decide (0 < (s.load.comp c).remaining)) = true := by
      simpa [(compHolds_iff ..).2 hp, Comp.remaining] using hleft
    have hpass : ∀ d, 1 ≤ d → d < c → (s.compHolds d p && decide (0 < (s.load.comp d).remaining)) = false := by
      intro d h1 h2
      by_cases hd : s.compHolds d p = true
      · have := hskip d h1 h2 ((compHolds_iff ..).1 hd)
        simp [Comp.remaining, this]
      · simp [hd]
    obtain ⟨h1, h4⟩ := hc
    rw [List.find?_eq_some_iff_append]
    refine ⟨htake, (List.range' 1 (c - 1)), List.range' (c + 1) (4 - c), ?_, fun d hd => ?_⟩
    · interval_cases c <;> rfl
    · rw [List.mem_range'_1] at hd
      rw [hpass d hd.1 (by omega)]
      rfl

theorem hoseTest_eq {p : Nat} (h : ((s.items l).hose = some 0 ∧ yes = false)
      ∨ ((s.items l).hose ≠ some 0 ∧ s.load.hoses.get l = .product p ∧ yes = false)
      ∨ ((s.items l).hose ≠ some 0 ∧ s.load.hoses.get l ≠ .empty ∧ s.load.hoses.get l ≠ .product p
          ∧ purge = true ∧ yes = true)) : s.hoseTest l p purge = .ok yes := by
  unfold State.hoseTest
  rcases h with ⟨h, rfl⟩ | ⟨h, hp, rfl⟩ | ⟨h, hne, hnp, rfl, rfl⟩
  · rw [if_pos h]
  · rw [if_neg h, hp]
    exact if_pos rfl
  · rw [if_neg h]
    cases hose : s.load.hoses.get l with
    | empty => exact absurd hose hne
    | product q =>
      have hq : q ≠ p := fun he => hnp (by rw [hose, he])
      exact (if_neg hq).trans (if_pos rfl)
    | mixed => rfl

theorem pumpGrants_iff (s : State) (c : Nat) : s.pumpGrants c = true ↔ ∀ b, s.pump = some b → b.comp = c := by
  unfold State.pumpGrants
  cases s.pump <;> simp

theorem armChecks_eq (hopen : s.route.isOpen = true) (hseal : s.inputs.sealOpen = false) (hstore : s.storeTrouble = false)
    (hcal : s.settings.calLost = false) (hset : (s.settings.calSet l r.product).isSome = true)
    (hcomp : s.chooseComp r.product comp = some c) (hhose : s.hoseTest l r.product purge = .ok yes) (hpump : s.pumpGrants c = true) :
    armChecks s l r comp purge = .ok (c, yes) := by
  rw [armChecks, if_neg (by simp [hopen]), if_neg (by simp [hseal]), if_neg (by simp [hstore]),
    if_neg (by simp [hcal, Option.isSome_iff_ne_none.1 hset])]
  simp only [hcomp, hhose]
  exact if_pos hpump

end

theorem arm_onlyLine (s : State) (l : Line) (stop c : Nat) (p : Bool) : LineOnly l s (s.arm l stop c p) :=
  ((LineOnly.changeRec l s stop _).trans (LineOnly.modLine _ l (LineCtx.armed stop (s.items l).antic s.settings.latch) fun _ => rfl)).trans
    (LineOnly.joinPump _ l c)

theorem line_arm (s : State) (l : Line) (stop c : Nat) (p : Bool) :
    (s.arm l stop c p).line l = LineCtx.armed stop (s.items l).antic s.settings.latch (s.line l) := by
  rw [State.arm, line_joinPump, line_modLine_same, line_changeRec]

theorem meter_arm (s : State) (l : Line) (stop c : Nat) (p : Bool) : (s.arm l stop c p).meter l = s.meter l := by
  rw [State.arm, State.meter, meters_joinPump]
  exact congrArg (·.get l) (enqueue_meters ..)

theorem attention_leavePump (s : State) (l : Line) : (s.leavePump l).attention = s.attention := by
  unfold State.leavePump; split
  · rfl
  · split <;> rfl

theorem attention_joinPump (s : State) (l : Line) (c : Nat) : (s.joinPump l c).attention = s.attention := by
  unfold State.joinPump; split <;> rfl

theorem attention_arm (s : State) (l : Line) (stop c : Nat) (p : Bool) : (s.arm l stop c p).attention = s.attention :=
  (attention_joinPump ..).trans (enqueue_attention ..)

theorem store_arm (s : State) (l : Line) (stop c : Nat) (p : Bool) :
    (s.arm l stop c p).slots = (s.changeRec stop (Record.boundTo l c p)).slots
      ∧ (s.arm l stop c p).queue = (s.changeRec stop (Record.boundTo l c p)).queue := store_joinPump ..

theorem joined_arm {s : State} {l : Line} {stop c : Nat} {p : Bool} (h : ∀ b, s.pump = some b → b.comp = c) :
    joined l c s (s.arm l stop c p) := by
  have hpump : ((s.changeRec stop (Record.boundTo l c p)).modLine l (LineCtx.armed stop (s.items l).antic s.settings.latch)).pump
      = s.pump := enqueue_pump ..
  exact joined_of_pump (joined_joinPump fun b hb => h b (hpump ▸ hb)) hpump.symm rfl

/-! ## LN.DISARM (R99) -/

theorem release_onlyLine (s : State) (l : Line) : LineOnly l s (s.release l) := by
  unfold State.release
  split
  · exact (LineOnly.disarm ..).trans (LineOnly.setAttention ..)
  · exact LineOnly.disarm ..

theorem disarm_bound {s : State} {l : Line} {stop : Nat} (st : LineState) (h : (s.line l).bound = some stop) :
    s.disarm l st = (s.changeRec stop Record.unbound).toRest l st := by simp [State.disarm, h]

theorem unstarted_iff (s : State) (l : Line) : s.unstarted l = true ↔ (s.line l).st = .armed
    ∨ ((s.line l).st = .paused ∧ (s.line l).cause = some .power ∧ ∃ r, s.boundRec l = some r ∧ r.allPending = true) := by
  unfold State.unstarted
  cases h : s.boundRec l <;> simp [and_assoc]

theorem isPending_iff (d : Drop) : d.isPending = true ↔ d.st = .pending := by cases h : d.st <;> simp [Drop.isPending, h]

theorem allPending_iff (r : Record) : r.allPending = true ↔ ∀ d ∈ r.drops, d.st = .pending := by
  simp [Record.allPending, isPending_iff]

theorem boundRec_eq {s : State} {l : Line} {stop : Nat} {r : Record} (hb : (s.line l).bound = some stop) (hr : s.recOf stop = some r) :
    s.boundRec l = some r := by rw [State.boundRec, hb]; exact hr

section
variable {s : State} {l : Line} {stop : Nat} (h : (s.line l).bound = some stop)
include h

theorem release_bound : s.release l = if (s.meter l).latched then ((s.changeRec stop Record.unbound).toRest l .fault).setAttention l
    else (s.changeRec stop Record.unbound).toRest l .idle := by
  rw [State.release, disarm_bound _ h, disarm_bound _ h]

theorem line_release : (s.release l).line l = LineCtx.rest (if (s.meter l).latched then .fault else .idle) (s.line l) := by
  rw [release_bound h]
  split
  · exact (line_toRest _ l .fault).trans (congrArg _ (line_changeRec ..))
  · exact (line_toRest _ l .idle).trans (congrArg _ (line_changeRec ..))

theorem meter_release : (s.release l).meter l = s.meter l := by
  have hmeter : (s.changeRec stop Record.unbound).meter l = s.meter l := congrArg (·.get l) (enqueue_meters ..)
  rw [release_bound h]
  split
  · exact (meter_toRest _ l l .fault).trans hmeter
  · exact (meter_toRest _ l l .idle).trans hmeter

theorem store_release : (s.release l).slots = (s.changeRec stop Record.unbound).slots
    ∧ (s.release l).queue = (s.changeRec stop Record.unbound).queue := by
  rw [release_bound h]
  split
  · exact store_leavePump ..
  · exact store_leavePump ..

theorem left_release : left l s (s.release l) := by
  have hpump : ∀ st, (((s.changeRec stop Record.unbound).modLine l (LineCtx.rest st))).pump = s.pump := fun _ => enqueue_pump ..
  rw [release_bound h]
  split
  · exact left_of_pump (left_leavePump _ l) (hpump .fault).symm rfl
  · exact left_of_pump (left_leavePump _ l) (hpump .idle).symm rfl

theorem attention_release : (s.release l).attention.get l = ((s.meter l).latched || s.attention.get l) := by
  have hattention : ∀ st, ((s.changeRec stop Record.unbound).toRest l st).attention = s.attention := fun st =>
    (attention_leavePump ..).trans (enqueue_attention ..)
  rw [release_bound h]
  cases (s.meter l).latched
  · rw [if_neg nofun, hattention]
    rfl
  · rw [if_pos rfl, Bool.true_or]
    cases l <;> rfl

end

end Sys2Proof.Machine

/-- Settles O31: the checks of LN.ARM pass one by one, and the record's write is all the store does. -/
theorem lnArmBindsTheRecord : Obligations.LnArmBindsTheRecord := by
  intro l stop c comp purge yes r s hh hs hroom hidle hr hplanned hopen hseal hstore hcal hset hdef hc hp hcomp hhose hpump
  have hchecks : armChecks s.lineTaken l r comp purge = .ok (c, yes) :=
    armChecks_eq (s := s.lineTaken) hopen hseal hstore hcal hset (chooseComp_eq (s := s.lineTaken) hdef hc hp hcomp)
      (hoseTest_eq (s := s.lineTaken) hhose) ((pumpGrants_iff s.lineTaken c).2 hpump)
  have hrange : ¬ withinOpt 1 4 comp = false := by
    rw [Bool.not_eq_false, withinOpt_iff]
    rintro v rfl
    rcases hcomp with h | ⟨h, -⟩
    · cases h
      exact hc
    · cases h
  have hj : judgeCommand (.lnArm l.num stop comp purge) s.lineTaken = taken (s.lineTaken.arm l stop c yes) stop
      (item .LINE l.num ++ item .STOP stop ++ item .COMP c ++ yesItem .PURGE yes) := by
    show withLine l.num _ = _
    rw [withLine_num, if_neg hrange, if_neg (by simp [hidle])]
    simp only [recOf_lineTaken, hr, hchecks]
    exact if_neg (by simp [hplanned])
  have honly := arm_onlyLine s.lineTaken l stop c yes
  obtain ⟨t, ht, hkeeps, hprogress, hrec, hasked, hothers⟩ := exec_lineRecord (f := Record.boundTo l c yes) rfl hh hs hroom (fun _ => rfl) hr honly
    (store_arm s.lineTaken l stop c yes) hj
  refine ⟨t, ht, hrec, (hkeeps.core l).trans (congrArg LineCtx.core (line_arm ..)), joined_of_pump (joined_arm (s := s.lineTaken) hpump)
    rfl hkeeps.pump, hasked, hothers, honly.frame_otherThanLine hkeeps (meter_arm ..), hkeeps.attention.trans (attention_arm ..), ?_⟩
  cases yes <;> exact hprogress

/-- Settles O32: the record's return and the line's rest are one change of the line. -/
theorem lnDisarmReleasesTheRecord : Obligations.LnDisarmReleasesTheRecord := by
  intro l stop r s hh hs hroom hbound hr hst
  have hunstarted : s.lineTaken.unstarted l = true := (unstarted_iff ..).2 (hst.imp id fun ⟨hp, hc, hall⟩ =>
    ⟨hp, hc, r, boundRec_eq hbound hr, (allPending_iff r).2 hall⟩)
  have hj : judgeCommand (.lnDisarm l.num) s.lineTaken
      = taken (s.lineTaken.release l) stop (item .LINE l.num ++ item .STOP stop ++ [.kw .PLANNED]) := by
    show withLine l.num _ = _
    rw [withLine_num, if_pos hunstarted]
    simp only [line_lineTaken, hbound]
  have honly := release_onlyLine s.lineTaken l
  obtain ⟨t, ht, hkeeps, hprogress, hrec, hasked, hothers⟩ := exec_lineRecord (f := Record.unbound) rfl hh hs hroom (fun _ => rfl) hr
    honly (store_release (s := s.lineTaken) hbound) hj
  refine ⟨t, _, ht, hprogress, hrec, hkeeps.isAtRest ?_, ?_, left_of_pump (left_release (s := s.lineTaken) hbound) rfl hkeeps.pump,
    hasked, hothers, honly.frame_otherThanLine hkeeps (meter_release (s := s.lineTaken) hbound)⟩
  · rw [line_release (s := s.lineTaken) hbound]
    simp only [meter_lineTaken, Meter.latched, Bool.or_eq_true]
    exact isAtRest_rest ..
  · rw [hkeeps.attention, attention_release (s := s.lineTaken) hbound]
    rfl
end

