-- ==== Sys2Proof/Proofs/FlowCommands.lean ====
section
/-! PROOFS. LN.START, LN.NEXT and LN.RESUME. -/

open Sys2Proof Sys2Proof.Machine

namespace Sys2Proof.Machine

/-! ## Drops found by a test (R4) -/

/-- The drop found stands at its number, passes the test, and is the first that does. -/
theorem findDrop_some {p : Drop → Bool} {n : Nat} {d : Drop} : ∀ (ds : List Drop) (k : Nat), findDrop p ds k = some (n, d) →
    ∃ i, n = k + i ∧ ds[i]? = some d ∧ p d = true
  | [], _, h => by simp [findDrop] at h
  | e :: es, k, h => by
    rw [findDrop] at h
    split at h
    · next he =>
      cases h
      exact ⟨0, rfl, rfl, he⟩
    · obtain ⟨i, hn, hi, hp⟩ := findDrop_some es (k + 1) h
      exact ⟨i + 1, by omega, by simpa using hi, hp⟩

theorem nth1_of_findDrop {p : Drop → Bool} {n : Nat} {d : Drop} {ds : List Drop} (h : findDrop p ds 1 = some (n, d)) :
    nth1 ds n = some d ∧ p d = true := by
  obtain ⟨i, rfl, hi, hp⟩ := findDrop_some ds 1 h
  rw [Nat.add_comm, nth1_succ]
  exact ⟨hi, hp⟩

/-! ## The checks of the commands that start flow (R101, R109, R115) -/

theorem flowChecks_pass {s : State} {l : Line} (k : Except Code Taken) (hpermit : s.inputs.permit = true)
    (hignition : s.inputs.ignition = true) (hair : s.inputs.air.get l = false) (hcal : s.settings.calLost = false) :
    flowChecks s l k = k := by
  rw [flowChecks, if_neg (by simp [State.interlock, hpermit, hignition]), if_neg (by simp [hair]), if_neg (by simp [hcal])]

theorem not_atMost_zero {x : Limit} (h : ∀ v, x = .cl v → 0 < v) : ¬ x.atMost 0 = true := by
  cases x with
  | unlimited => simp [Limit.atMost]
  | cl v =>
    have := h v rfl
    simpa [Limit.atMost] using this

theorem dropLimit_latched {s : State} {l : Line} {x : Latched} (h : (s.line l).latched = some x) (r : Record) (d : Drop) :
    s.dropLimit l r d = r.limitOf d (r.price.getD (x.entry r.product).price) (x.entry r.product).tax := by
  rw [State.dropLimit, State.priceOf, State.rateBp, latchedOf_of_latched h]

theorem canReserve_iff (s : State) (l : Line) : s.canReserve l = true ↔ (s.line l).reserved = true ∨ s.counter + s.reservations < 99999999 := by
  simp [State.canReserve]

theorem boundIsUnsaved_eq {s : State} {l : Line} {stop : Nat} (h : (s.line l).bound = some stop) :
    s.boundIsUnsaved l = decide (stop ∈ s.unsaved) := by
  simp [State.boundIsUnsaved, h, State.isUnsaved]

theorem faultPaused_iff (s : State) (l : Line) : s.faultPaused l = true
    ↔ (s.line l).cause = some .pulser ∨ (s.line l).cause = some .store ∨ s.boundIsUnsaved l = true := by
  simp [State.faultPaused, or_assoc]

theorem pump_enterFlowing (s : State) (l : Line) (base : Nat) : (s.enterFlowing l base).pump = s.pump := rfl

theorem pump_beginRun (s : State) (l : Line) (k : RunKind) : (s.beginRun l k).pump = s.pump := rfl

/-- What an entry to FLOWING and the beginning of a run do leaves the store alone. -/
theorem store_enterFlowing (s : State) (l : Line) (base : Nat) :
    (s.enterFlowing l base).slots = s.slots ∧ (s.enterFlowing l base).queue = s.queue := ⟨rfl, rfl⟩

theorem store_beginRun (s : State) (l : Line) (k : RunKind) :
    (s.beginRun l k).slots = s.slots ∧ (s.beginRun l k).queue = s.queue := ⟨rfl, rfl⟩

theorem store_modLine (s : State) (l : Line) (f : LineCtx → LineCtx) :
    (s.modLine l f).slots = s.slots ∧ (s.modLine l f).queue = s.queue := ⟨rfl, rfl⟩

/-! ## LN.START (R101) -/

theorem start_onlyLine (s : State) (l : Line) (stop : Nat) (r : Record) (x : Limit) : LineOnly l s (s.start l stop r x) :=
  (((LineOnly.changeRec l s stop _).trans (LineOnly.beginRun _ l .order)).trans
    (LineOnly.modLine _ l (fun c => { c with reserved := true, limit := some x }) fun _ => rfl)).trans (LineOnly.enterFlowing _ l 0)

theorem line_start (s : State) (l : Line) (stop : Nat) (r : Record) (x : Limit) : (s.start l stop r x).line l
    = LineCtx.toFlowing (s.latchedOf l).run 0 { (s.line l).forRun .order with reserved := true, limit := some x } := by
  have hbegin : ((s.changeRec stop (Record.started (s.priceOf l r))).beginRun l .order).line l = (s.line l).forRun .order :=
    (line_beginRun ..).trans (congrArg _ (line_changeRec ..))
  rw [State.start, line_enterFlowing, line_modLine_same, hbegin]
  congr 2
  exact latchedOf_congr (by rw [line_modLine_same, hbegin]; rfl) (enqueue_settings ..)

theorem meter_start (s : State) (l : Line) (stop : Nat) (r : Record) (x : Limit) :
    (s.start l stop r x).meter l = ((s.meter l).forRun false).forFlowing := by
  rw [State.start, meter_enterFlowing, meter_modLine, meter_beginRun]
  exact congrArg (fun m : Meter => (m.forRun false).forFlowing) (congrArg (·.get l) (enqueue_meters ..))

theorem store_start (s : State) (l : Line) (stop : Nat) (r : Record) (x : Limit) :
    (s.start l stop r x).slots = (s.changeRec stop (Record.started (s.priceOf l r))).slots
      ∧ (s.start l stop r x).queue = (s.changeRec stop (Record.started (s.priceOf l r))).queue := by
  rw [State.start, (store_enterFlowing ..).1, (store_enterFlowing ..).2, (store_modLine ..).1, (store_modLine ..).2]
  exact store_beginRun ..

theorem pump_start (s : State) (l : Line) (stop : Nat) (r : Record) (x : Limit) : (s.start l stop r x).pump = s.pump := by
  rw [State.start, pump_enterFlowing, modLine_pump, pump_beginRun]
  exact enqueue_pump ..

theorem press_start (s : State) (l : Line) (stop : Nat) (r : Record) (x : Limit) : (s.start l stop r x).press.lines.get l = false :=
  press_enterFlowing ..

section
variable {s : State} {l : Line} {stop : Nat} {r : Record} {d : Drop} {ds : List Drop}

theorem judgeLnStart_taken {n : Nat} (hun : s.unstarted l = true) (hb : (s.line l).bound = some stop) (hr : s.recOf stop = some r)
    (hstop : r.stop = stop) (hsaved : stop ∉ s.unsaved) (hpend : r.firstPending = some (n, d)) (hpermit : s.inputs.permit = true)
    (hignition : s.inputs.ignition = true) (hair : s.inputs.air.get l = false) (hcal : s.settings.calLost = false)
    (hpos : ∀ v, s.dropLimit l r d = .cl v → 0 < v) (hticket : (s.line l).reserved = true ∨ s.counter + s.reservations < 99999999) :
    judgeLnStart l.num s = taken (s.start l stop r (s.dropLimit l r d)) stop [.kw .LIMIT, (s.dropLimit l r d).tok] := by
  rw [judgeLnStart, withLine_num, if_neg (by simp [hun]), if_neg (by simp [boundIsUnsaved_eq hb, hsaved])]
  simp only [boundRec_eq hb hr, hpend, flowChecks_pass _ hpermit hignition hair hcal]
  rw [if_neg (not_atMost_zero hpos), if_neg (by simp [(canReserve_iff s l).2 hticket]), hstop]

/-! ## LN.NEXT and LN.RESUME (R109, R115) -/

theorem next_onlyLine (s : State) (l : Line) (stop n : Nat) (x : Limit) : LineOnly l s (s.next l stop n x) :=
  ((LineOnly.changeRec l s stop _).trans (LineOnly.modLine _ l (fun c => { c with limit := some x }) fun _ => rfl)).trans
    (LineOnly.enterFlowing _ l 0)

/-- The record when its next drop begins (R4, R109). -/
def Record.dropBegun (n : Nat) (r : Record) : Record := { r with drops := modNth1 r.drops n Drop.activate }

theorem store_next (s : State) (l : Line) (stop n : Nat) (x : Limit) :
    (s.next l stop n x).slots = (s.changeRec stop (Record.dropBegun n)).slots
      ∧ (s.next l stop n x).queue = (s.changeRec stop (Record.dropBegun n)).queue := by
  rw [State.next, (store_enterFlowing ..).1, (store_enterFlowing ..).2]
  exact store_modLine ..

theorem pump_next (s : State) (l : Line) (stop n : Nat) (x : Limit) : (s.next l stop n x).pump = s.pump := by
  rw [State.next, pump_enterFlowing, modLine_pump]
  exact enqueue_pump ..

theorem line_next (s : State) (l : Line) (stop n : Nat) (x : Limit) : (s.next l stop n x).line l
    = LineCtx.toFlowing (s.latchedOf l).run 0 { s.line l with limit := some x } := by
  rw [State.next, line_enterFlowing, line_modLine_same, line_changeRec]
  congr 2
  exact latchedOf_congr (by rw [line_modLine_same, line_changeRec]) (enqueue_settings ..)

theorem meter_next (s : State) (l : Line) (stop n : Nat) (x : Limit) : (s.next l stop n x).meter l = (s.meter l).forFlowing := by
  rw [State.next, meter_enterFlowing, meter_modLine]
  exact congrArg Meter.forFlowing (congrArg (·.get l) (enqueue_meters ..))

theorem judgeLnNext_taken {n : Nat} (hst : (s.line l).st = .paused) (hb : (s.line l).bound = some stop) (hr : s.recOf stop = some r)
    (hstop : r.stop = stop) (hfault : s.faultPaused l = false) (hactive : r.active = none) (hpend : r.firstPending = some (n, d))
    (hpermit : s.inputs.permit = true) (hignition : s.inputs.ignition = true) (hair : s.inputs.air.get l = false)
    (hcal : s.settings.calLost = false) (hpos : ∀ v, s.dropLimit l r d = .cl v → 0 < v) :
    judgeLnNext l.num s = taken (s.next l stop n (s.dropLimit l r d)) stop
      (item .DROP n ++ [.kw .LIMIT, (s.dropLimit l r d).tok]) := by
  rw [judgeLnNext, withLine_num, if_neg (by simp [hst]), if_neg (by simp [hfault])]
  simp only [boundRec_eq hb hr, hactive, hpend, flowChecks_pass _ hpermit hignition hair hcal]
  rw [if_neg (not_atMost_zero hpos), hstop]

theorem resumable_iff (s : State) (l : Line) : s.resumable l = true ↔
    ((s.line l).kind = some .order ∧ ∃ r, s.boundRec l = some r ∧ r.active.isSome = true)
      ∨ (s.line l).kind = some .prime ∨ (s.line l).kind = some .prove := by
  unfold State.resumable
  cases hk : (s.line l).kind with
  | none => simp
  | some k => cases k <;> cases hb : s.boundRec l <;> simp

theorem judgeLnResume_taken (hst : (s.line l).st = .paused) (hfault : s.faultPaused l = false) (hresume : s.resumable l = true)
    (hpermit : s.inputs.permit = true) (hignition : s.inputs.ignition = true) (hair : s.inputs.air.get l = false)
    (hcal : s.settings.calLost = false) (hpos : ∀ v, s.remaining l = .cl v → 0 < v) :
    judgeLnResume l.num s = report (s.enterFlowing l (s.liveNet l)) [item .LINE l.num ++ [.kw .FLOWING]] := by
  rw [judgeLnResume, withLine_num, if_neg (by simp [hst]), if_neg (by simp [hfault]), if_neg (by simp [hresume]),
    flowChecks_pass _ hpermit hignition hair hcal, if_neg (not_atMost_zero hpos)]

end

theorem okLines_ne_nil (word : List Byte) (segments : List (List Tok)) : okLines word segments ≠ [] := by
  unfold okLines
  cases replyFields (fieldRoom word) segments with
  | nil => exact nofun
  | cons x xs => cases xs <;> exact nofun

theorem answered_tx_ne (w : CmdWord) (segments : List (List Tok)) (u : State) : (answered w segments u).tx ≠ u.tx :=
  fun h => okLines_ne_nil w.bytes segments (List.append_right_eq_self.1 h)

end Sys2Proof.Machine

/-- Settles O33: the first start changes the record and the line in one step. -/
theorem lnStartBeginsTheRun : Obligations.LnStartBeginsTheRun := by
  intro l stop r d ds x s hh hs hroom hst hb hr hsaved hdrops hpending hx hpermit hignition hair hcal hpos hticket
  have hun : s.lineTaken.unstarted l = true := (unstarted_iff ..).2 (hst.imp id fun ⟨hp, hc⟩ =>
    ⟨hp, hc, r, boundRec_eq hb hr, (allPending_iff r).2 hpending⟩)
  have hpend : r.firstPending = some (1, d) := by
    have hd : d.isPending = true := (isPending_iff d).2 (hpending d (by rw [hdrops]; simp))
    rw [Record.firstPending, hdrops, findDrop, if_pos hd]
  have hlimit := dropLimit_latched (s := s.lineTaken) hx r d
  have hj : judgeCommand (.lnStart l.num) s.lineTaken = _ := judgeLnStart_taken (s := s.lineTaken) hun hb hr (recOf_stop _ _ _ hr) hsaved hpend
    hpermit hignition hair hcal (by rw [hlimit]; exact hpos) hticket
  have honly := start_onlyLine s.lineTaken l stop r (s.lineTaken.dropLimit l r d)
  obtain ⟨t, ht, hkeeps, hprogress, hrec, hasked, hothers⟩ := exec_lineRecord (f := Record.started (s.lineTaken.priceOf l r)) rfl hh hs
    hroom (fun _ => rfl) hr honly (store_start ..) hj
  have hline := hkeeps.core l
  have hmeter := hkeeps.meter l
  rw [line_start, latchedOf_of_latched (s := s.lineTaken) hx, hlimit] at hline
  rw [meter_start] at hmeter
  refine ⟨t, _, _, ht, hprogress, hrec, ?_, ?_, ?_, (congrArg LineCtx.kind hline).trans rfl, (congrArg LineCtx.bound hline).trans hb,
    (congrArg LineCtx.limit hline).trans rfl, (congrArg LineCtx.reserved hline).trans rfl, (congrArg LineCtx.latched hline).trans hx,
    (congrArg LineCtx.grossRem hline).trans rfl, (congrArg LineCtx.netRem hline).trans rfl, (congrArg LineCtx.reverse hline).trans rfl, (congrArg LineCtx.lastVcf hline).trans rfl,
    ?_, ?_, ?_, ?_, ?_, hasked, hothers, honly.frame_blocks hkeeps, honly.frame_otherLineAndTruck hkeeps,
    hkeeps.pump.trans (pump_start ..)⟩
  · rw [Record.started, hdrops, State.priceOf, latchedOf_of_latched (s := s.lineTaken) hx]
    rfl
  · show (t.line l).core.justFlowing x.run 0
    rw [hline]
    exact justFlowing_toFlowing ..
  · rw [hkeeps.press]
    exact press_start ..
  all_goals rw [hmeter]
  · exact justFlowing_forFlowing _
  all_goals rfl

/-- Settles O34: the next drop begins, and a paused run goes on. -/
theorem lnNextAndResume : Obligations.LnNextAndResume := by
  refine ⟨fun l stop n r d x s hh hs hroom hst hk hb hr hsaved hpulser hstore hactive hpend hx hpermit hignition hair hcal hpos => ?_,
    fun l s hh hs hst hpulser hstore hsaved hkind hpermit hignition hair hcal hpos => ?_⟩
  · have hlimit := dropLimit_latched (s := s.lineTaken) hx r d
    have hfault : s.lineTaken.faultPaused l = false := by
      rw [Bool.eq_false_iff, Ne, faultPaused_iff, boundIsUnsaved_eq (s := s.lineTaken) hb, decide_eq_true_eq]
      exact fun h => h.elim hpulser fun h => h.elim hstore hsaved
    have hj : judgeCommand (.lnNext l.num) s.lineTaken = _ := judgeLnNext_taken (s := s.lineTaken) hst hb hr (recOf_stop _ _ _ hr) hfault
      hactive hpend hpermit hignition hair hcal (by rw [hlimit]; exact hpos)
    have honly := next_onlyLine s.lineTaken l stop n (s.lineTaken.dropLimit l r d)
    obtain ⟨t, ht, hkeeps, hprogress, hrec, hasked, hothers⟩ := exec_lineRecord
      (f := Record.dropBegun n) rfl hh hs hroom (fun _ => rfl) hr honly (store_next ..) hj
    have hline := hkeeps.core l
    rw [line_next, latchedOf_of_latched (s := s.lineTaken) hx, hlimit] at hline
    refine ⟨t, _, _, ht, hprogress, hrec, ?_, fun j hj => ?_, rfl, ?_, ?_, (congrArg LineCtx.bound hline).trans hb,
      (congrArg LineCtx.limit hline).trans rfl, (congrArg LineCtx.grossRem hline).trans rfl, (congrArg LineCtx.netRem hline).trans rfl, (congrArg LineCtx.reverse hline).trans rfl,
      (congrArg LineCtx.lastVcf hline).trans rfl, ?_, hasked, hothers, honly.frame_blocks hkeeps, honly.frame_otherLineAndTruck hkeeps,
      hkeeps.pump.trans (pump_next ..)⟩
    · rw [Record.dropBegun, nth1_modNth1, if_pos rfl, (nth1_of_findDrop hpend).1]
      rfl
    · rw [Record.dropBegun, nth1_modNth1, if_neg hj]
    · show (t.line l).core.justFlowing x.run 0
      rw [hline]
      exact justFlowing_toFlowing ..
    · rw [hkeeps.press]
      exact press_enterFlowing ..
    · rw [hkeeps.meter, meter_next]
      exact justFlowing_forFlowing _
  · have hfault : s.lineTaken.faultPaused l = false := by
      rw [Bool.eq_false_iff, Ne, faultPaused_iff]
      rintro (h | h | h)
      · exact hpulser h
      · exact hstore h
      · exact Bool.false_ne_true (hsaved.symm.trans h)
    have hj : judgeCommand (.lnResume l.num) s.lineTaken = _ := judgeLnResume_taken (s := s.lineTaken) hst hfault
      ((resumable_iff ..).2 hkind) hpermit hignition hair hcal hpos
    have honly := LineOnly.enterFlowing s l (s.liveNet l)
    refine ⟨_, exec_answered (u := s.enterFlowing l (s.liveNet l)) rfl hh hs rfl rfl rfl honly.noEndDue hj, ?_,
      press_enterFlowing s l (s.liveNet l), (congrArg LineCtx.limit (line_enterFlowing s l _)).trans rfl,
      (congrArg LineCtx.kind (line_enterFlowing s l _)).trans rfl, (congrArg LineCtx.bound (line_enterFlowing s l _)).trans rfl, ?_, rfl, rfl, rfl,
      honly.sameBlocks, ⟨⟨congrArg LineCtx.core honly.otherLine, rfl⟩, honly.otherMeter, honly.sameTruck⟩, rfl, answered_tx_ne _ _ (s.enterFlowing l (s.liveNet l))⟩
    · show ((s.enterFlowing l (s.liveNet l)).line l).justFlowing _ _
      rw [line_enterFlowing]
      exact justFlowing_toFlowing ..
    · show ((s.enterFlowing l (s.liveNet l)).meter l).justFlowing
      rw [meter_enterFlowing]
      exact justFlowing_forFlowing _
end

