-- ==== Sys2Proof/Proofs/BoundAmendment.lean ====
section
/-! PROOFS. ORD.AMEND of a BOUND record. -/

open Sys2Proof Sys2Proof.Machine

namespace Sys2Proof.Machine

/-! ## A record's drops with one preset changed (R12) -/

theorem map_modNth {α β : Type} {f : α → α} {g : α → β} (h : ∀ x, g (f x) = g x) : ∀ (xs : List α) (i : Nat),
    (modNth xs i f).map g = xs.map g
  | [], _ => rfl
  | x :: xs, 0 => by simp [modNth, h]
  | x :: xs, i + 1 => by simp [modNth, map_modNth h xs i]

theorem map_modNth1 {α β : Type} {f : α → α} {g : α → β} (h : ∀ x, g (f x) = g x) (xs : List α) (n : Nat) :
    (modNth1 xs n f).map g = xs.map g := by
  cases n with
  | zero => rfl
  | succ i => exact map_modNth h xs i

theorem findDrop_modNth {p : Drop → Bool} {f : Drop → Drop} {n : Nat} {d : Drop} (h : ∀ x, p (f x) = p x) :
    ∀ (ds : List Drop) (i k : Nat), findDrop p ds k = some (n, d) → ∃ d', findDrop p (modNth ds i f) k = some (n, d')
  | [], _, _, hd => by simp [findDrop] at hd
  | e :: es, 0, k, hd => by
    rw [findDrop] at hd
    rw [modNth, findDrop, h]
    split at hd
    · next he =>
      cases hd
      exact ⟨_, if_pos he⟩
    · next he => exact ⟨d, (if_neg he).trans hd⟩
  | e :: es, i + 1, k, hd => by
    rw [findDrop] at hd
    rw [modNth, findDrop]
    split at hd
    · next he =>
      cases hd
      exact ⟨_, if_pos he⟩
    · next he =>
      obtain ⟨d', hd'⟩ := findDrop_modNth h es i (k + 1) hd
      exact ⟨d', (if_neg he).trans hd'⟩

theorem liveNet_apply (a : Amend) (r : Record) : (Amend.apply a r).liveNet = r.liveNet := by
  unfold Record.liveNet
  cases h : a.dpreset with
  | none => rw [apply_noDpreset h]
  | some d => rw [apply_dpreset (k := d.1) (p := d.2) h, map_modNth1 (f := fun x : Drop => { x with preset := some d.2 }) (g := Drop.live) (fun _ => rfl)]

theorem active_apply (a : Amend) {r : Record} {n : Nat} {d : Drop} (hd : r.active = some (n, d)) :
    ∃ d', (Amend.apply a r).active = some (n, d') := by
  unfold Record.active at *
  cases h : a.dpreset with
  | none => exact ⟨d, by rw [apply_noDpreset h]; exact hd⟩
  | some e =>
    rw [apply_dpreset (k := e.1) (p := e.2) h]
    cases e.1 with
    | zero => exact ⟨d, hd⟩
    | succ i => exact findDrop_modNth (f := fun x : Drop => { x with preset := some e.2 }) (fun _ => rfl) r.drops i 1 hd

/-- An amendment of presets alone. -/
theorem presetsAmended_apply {a : Amend} (r : Record) (hprice : a.price = none) (hnoPrice : a.noPrice = false)
    (hcredit : a.credit = none) (hnoCredit : a.noCredit = false) (hkind : a.kind = none) : presetsAmended a r (Amend.apply a r) := by
  obtain ⟨hnamed, hothers⟩ := nth1_apply a r
  refine ⟨?_, length_apply a r, hnamed, hothers, ?_⟩
  · simp [Amend.apply, hkind]
  · simp [Amend.apply, hprice, hnoPrice, hcredit, hnoCredit, hkind]

/-! ## The limit computed again, and the stage decisions (R103, R104, R120) -/

section
variable {s : State} {l : Line} {r : Record}

theorem relimit_active {n : Nat} {d : Drop} (hr : s.boundRec l = some r) (hd : r.active = some (n, d)) :
    s.relimit l = s.modLine l (fun c => { c with limit := some (s.dropLimit l r d) }) := by
  simp [State.relimit, hr, hd]

theorem relimit_none (hr : s.boundRec l = some r) (hd : r.active = none) : s.relimit l = s := by
  simp [State.relimit, hr, hd]

end

theorem relimit_onlyLine (s : State) (l : Line) : LineOnly l s (s.relimit l) := by
  unfold State.relimit
  split
  · split
    · exact LineOnly.modLine s l (fun c => { c with limit := some (s.dropLimit l _ _) }) fun _ => rfl
    · exact .refl l s
  · exact .refl l s

theorem endWaits_decideHigh (x : RunSettings) (live : Nat) (rem : Limit) (c : LineCtx) :
    (LineCtx.decideHigh x live rem c).endWaits = c.endWaits := by
  unfold LineCtx.decideHigh
  split
  · rfl
  · split <;> rfl

theorem decideHigh_onlyLine (s : State) (l : Line) : LineOnly l s (s.decideHigh l) :=
  LineOnly.modLine s l _ (endWaits_decideHigh _ _ _)

theorem stageDecisions_onlyLine (s : State) (l : Line) : LineOnly l s (s.stageDecisions l) := by
  unfold State.stageDecisions
  split
  · exact LineOnly.beginStop ..
  · exact decideHigh_onlyLine ..

/-- The decisions of an open line touch its context alone. -/
theorem relimit_eq (s : State) (l : Line) : s.relimit l = { s with lines := (s.relimit l).lines } := by
  unfold State.relimit
  split
  · split <;> rfl
  · rfl

theorem stageDecisions_eq (s : State) (l : Line) : s.stageDecisions l = { s with lines := (s.stageDecisions l).lines } := by
  unfold State.stageDecisions
  split <;> rfl

theorem line_beginStop (s : State) (l : Line) (i : StopIntent) :
    (s.beginStop l i).line l = LineCtx.stopped (s.latchedOf l).run i (s.liveNet l) (s.line l) := line_modLine_same ..

theorem line_decideHigh (s : State) (l : Line) :
    (s.decideHigh l).line l = LineCtx.decideHigh (s.latchedOf l).run (s.liveNet l) (s.remaining l) (s.line l) := line_modLine_same ..

theorem stopBegun_stopped (x : RunSettings) (i : StopIntent) (live : Nat) (c : LineCtx) :
    c.stopBegun x i live (!c.cmdHigh && i == .limit) (LineCtx.stopped x i live c) := by
  unfold LineCtx.stopped
  cases h : c.cmdHigh
  · exact ⟨rfl, rfl, rfl, rfl, rfl, rfl, rfl, fun hc : c.cmdHigh = true => absurd (h.symm.trans hc) nofun, fun _ => ⟨rfl, rfl, rfl, rfl, rfl, rfl, rfl, rfl⟩⟩
  · exact ⟨rfl, rfl, rfl, rfl, rfl, rfl, rfl, fun _ => ⟨rfl, rfl, rfl⟩, fun hc : c.cmdHigh = false => absurd (h.symm.trans hc) nofun⟩

theorem CommitKeeps.stopBegun {s t : State} {l : Line} {x : RunSettings} {i : StopIntent} {live : Nat} {low : Bool} {c : LineCtx}
    (h : CommitKeeps s t) (hs : c.stopBegun x i live low (s.line l)) : c.stopBegun x i live low (t.line l) := by
  show c.stopBegun x i live low (t.line l).core
  rw [h.core l]
  exact hs

theorem liveNet_order {s : State} {l : Line} {r : Record} (hk : (s.line l).kind = some .order) (hr : s.boundRec l = some r) :
    s.liveNet l = r.liveNet := by
  simp [State.liveNet, hk, hr]

/-- The amendments a BOUND record accepts. -/
theorem boundOk_of {a : Amend} {r : Record} (hprice : a.price = none) (hnoPrice : a.noPrice = false) (hcredit : a.credit = none)
    (hnoCredit : a.noCredit = false) (hkind : a.kind = none)
    (hdrop : ∀ k p, a.dpreset = some (k, p) → ∃ d, nth1 r.drops k = some d ∧ d.isDone = false) : Amend.boundOk a r = true := by
  unfold Amend.boundOk
  cases h : a.dpreset with
  | none => simp [hprice, hnoPrice, hcredit, hnoCredit, hkind]
  | some e =>
    obtain ⟨d, hd, hdone⟩ := hdrop e.1 e.2 h
    simp [hprice, hnoPrice, hcredit, hnoCredit, hkind, hd, hdone]

theorem lineOf_eq {s : State} {l : Line} {stop : Nat} (h : (s.line l).bound = some stop) (ho : (s.line l.other).bound ≠ some stop) :
    s.lineOf stop = some l := by
  cases l
  · exact if_pos h
  · exact (if_neg ho).trans (if_pos h)

/-- The state of a line's record amended, before its limit is computed again. -/
theorem boundRec_changeRec {s : State} {l : Line} {stop : Nat} {r : Record} {f : Record → Record} (hf : ∀ r, (f r).stop = r.stop)
    (hb : (s.line l).bound = some stop) (hr : s.recOf stop = some r) : (s.changeRec stop f).boundRec l = some (f r) := by
  refine boundRec_eq (by rwa [line_changeRec]) ?_
  rw [recOf_changeRec_same s stop f hf, hr]
  rfl

@[simp] theorem stop_apply (a : Amend) (r : Record) : (Amend.apply a r).stop = r.stop := rfl

/-- An amendment of a bound record taken: behind the record's change, the line's context alone is decided anew. -/
theorem exec_boundAmend {i : Instr} {w : CmdWord} {p : Plan} {s v u : State} {l : Line} {stop : Nat} {r : Record} {f : Record → Record}
    (hw : commandWord i = some w) (hh : s.hears = true) (hs : s.settled = true) (hroom : s.roomy = true)
    (hf : ∀ r, (f r).stop = r.stop) (hr : s.recOf stop = some r) (hv : v = s.lineTaken.changeRec stop f)
    (hu : LineOnly l v u) (heq : u = { v with lines := u.lines })
    (hj : judgeCommand i s.lineTaken = .ok ⟨u, p, [.record stop]⟩) :
    ∃ t, exec i s = .next t ∧ CommitKeeps u t ∧ inProgress w p t ∧ asked t (.record stop) ∧ t.recOf stop = some (f r)
      ∧ sameRecordsBut stop s t ∧ otherThanLine l s t ∧ t.pump = s.pump := by
  subst hv
  have honly : LineOnly l s.lineTaken u := (LineOnly.changeRec l s.lineTaken stop f).trans hu
  have key : ∀ {α : Type} (g : State → α), g u = g { s.lineTaken.changeRec stop f with lines := u.lines } := fun g => congrArg g heq
  obtain ⟨t, ht, hkeeps, hprogress, hrec, hasked, hothers⟩ := exec_lineRecord hw hh hs hroom hf hr honly
    ⟨key State.slots, key State.queue⟩ hj
  have hmeter : u.meter l = s.meter l := (key (State.meter · l)).trans (congrArg (·.get l) (enqueue_meters ..))
  exact ⟨t, ht, hkeeps, hprogress, hasked, hrec, hothers, honly.frame_otherThanLine hkeeps hmeter,
    hkeeps.pump.trans ((key State.pump).trans (enqueue_pump ..))⟩

end Sys2Proof.Machine

/-- Settles O24: the amended record's limit is computed again, and in FLOWING the stage decisions follow. -/
theorem ordAmendWhileBound : Obligations.OrdAmendWhileBound := by
  intro stop a r l s hh hs hroom hstop hr hst hb hother hprice hnoPrice hcredit hnoCredit hkind hsome hdrop hpreset
  obtain ⟨hfill, hvolume, hamount⟩ := hpreset
  have hgood : goodAmend a := by
    refine ⟨by tauto, by simp [hprice], by simp [hcredit], ⟨by simp [hprice], by simp [hcredit]⟩, fun p hp => ?_, by simp [hkind],
      fun k p hk => ?_⟩
    · simp only [hp, Option.isSome_some, if_true] at hfill hvolume hamount
      cases hk : r.kind
      · exact absurd (hfill hk) nofun
      · obtain ⟨q, hq, h1, h2⟩ := hvolume hk
        cases hq
        omega
      · obtain ⟨q, hq, h1, h2⟩ := hamount hk
        cases hq
        omega
    · obtain ⟨hp, hk3, d, hd, -⟩ := hdrop k p hk
      refine ⟨⟨?_, hk3⟩, hp⟩
      cases k with
      | zero => simp [nth1] at hd
      | succ i => omega
  have hfit : amendFits a r := by
    refine ⟨?_, by simp [hkind], fun k p hk => ?_⟩
    · have hnone : (if a.preset.isSome = true then a.preset else if a.kind = some .fill then none else r.preset)
          = if a.preset.isSome = true then a.preset else r.preset := by simp [hkind]
      rw [hnone, hkind]
      show goodPreset r.kind _
      cases hk : r.kind
      · exact hfill hk
      · exact hvolume hk
      · exact hamount hk
    · obtain ⟨-, -, d, hd, -⟩ := hdrop k p hk
      simp [hd]
  have hjudge : judgeCommand (.ordAmend stop a) s.lineTaken = judgeBoundAmend l stop a r s.lineTaken := by
    refine (judgeOrdAmend_bound (s := s.lineTaken) hstop hgood hr hst hfit).trans ?_
    rw [if_pos (boundOk_of hprice hnoPrice hcredit hnoCredit hkind fun k p hk => (hdrop k p hk).2.2),
      lineOf_eq (s := s.lineTaken) hb hother]
  have hamended := presetsAmended_apply r hprice hnoPrice hcredit hnoCredit hkind
  have hf : ∀ r, (Amend.apply a r).stop = r.stop := fun _ => rfl
  obtain ⟨u, hu⟩ : ∃ u, u = s.lineTaken.changeRec stop (Amend.apply a) := ⟨_, rfl⟩
  have hbound : u.boundRec l = some (Amend.apply a r) := hu ▸ boundRec_changeRec (s := s.lineTaken) hf hb hr
  have hline : u.line l = s.line l := hu ▸ line_changeRec s.lineTaken stop _ l
  have hsettings : u.settings = s.settings := hu ▸ enqueue_settings ..
  have hlatched : u.latchedOf l = s.latchedOf l := latchedOf_congr (by rw [hline]) hsettings
  have hlimit : ∀ d, u.dropLimit l (Amend.apply a r) d
      = (Amend.apply a r).limitOf d (s.priceOf l (Amend.apply a r)) (s.rateBp l (Amend.apply a r)) := fun d => by
    rw [State.dropLimit, State.priceOf, State.rateBp, hlatched]
    rfl
  refine ⟨fun hst' => ?_, fun hst' => ?_, fun hflow hk n d hactive => ?_⟩
  · rcases hst' with h | h
    · have hj : judgeCommand (.ordAmend stop a) s.lineTaken = amendTaken u stop (Amend.apply a r) := by
        rw [hjudge, judgeBoundAmend, line_lineTaken, h, hu]
      obtain ⟨t, ht, hkeeps, hprogress, hasked, hrec, hothers, hframe, hpump⟩ :=
        exec_boundAmend rfl hh hs hroom hf hr hu (.refl l u) rfl hj
      refine ⟨t, _, _, ht, hprogress, hasked, hrec, hamended, hothers, hframe, hpump, ?_, fun n d _ hp => nomatch h.symm.trans hp⟩
      rw [hkeeps.core l, hline]
      rfl
    · have hj : judgeCommand (.ordAmend stop a) s.lineTaken = amendTaken (u.relimit l) stop (Amend.apply a r) := by
        rw [hjudge, judgeBoundAmend, line_lineTaken, h, hu]
      obtain ⟨t, ht, hkeeps, hprogress, hasked, hrec, hothers, hframe, hpump⟩ :=
        exec_boundAmend rfl hh hs hroom hf hr hu (relimit_onlyLine u l) (relimit_eq u l) hj
      have hcore := hkeeps.core l
      refine ⟨t, _, _, ht, hprogress, hasked, hrec, hamended, hothers, hframe, hpump, ?_, fun n d hd _ => ?_⟩
      · cases hactive : (Amend.apply a r).active with
        | none =>
          rw [hcore, relimit_none hbound hactive, hline]
          rfl
        | some e =>
          rw [hcore, relimit_active (n := e.1) (d := e.2) hbound hactive, line_modLine_same, hline]
          rfl
      · rw [relimit_active hbound hd, line_modLine_same] at hcore
        exact (congrArg LineCtx.limit hcore).trans (congrArg some (hlimit d))
  · refine exec_refused rfl hh hs (hjudge.trans ?_)
    rcases hst' with h | h <;> simp only [judgeBoundAmend, line_lineTaken, h]
  · obtain ⟨d', hactive'⟩ := active_apply a hactive
    obtain ⟨v, hv⟩ : ∃ v, v = u.relimit l := ⟨_, rfl⟩
    have hj : judgeCommand (.ordAmend stop a) s.lineTaken = amendTaken (v.stageDecisions l) stop (Amend.apply a r) := by
      rw [hjudge, judgeBoundAmend, line_lineTaken, hflow, hv, hu]
    have hvline : v.line l = { s.line l with limit := some ((Amend.apply a r).limitOf d' (s.priceOf l (Amend.apply a r))
        (s.rateBp l (Amend.apply a r))) } := by
      rw [hv, relimit_active hbound hactive', line_modLine_same, hline, hlimit]
    have hvbound : v.boundRec l = some (Amend.apply a r) := by
      rw [hv, relimit_active hbound hactive']
      refine boundRec_eq (stop := stop) (by rw [line_modLine_same, hline]; exact hb) ?_
      rw [hu]
      exact (recOf_changeRec_same s.lineTaken stop _ hf).trans (by rw [recOf_lineTaken, hr]; rfl)
    have hlive : v.liveNet l = r.liveNet := (liveNet_order (by rw [hvline]; exact hk) hvbound).trans (liveNet_apply a r)
    have hvlatched : v.latchedOf l = s.latchedOf l :=
      latchedOf_congr (by rw [hvline]) ((congrArg State.settings (hv.trans (relimit_eq u l))).trans hsettings)
    have hremaining : v.remaining l = ((Amend.apply a r).limitOf d' (s.priceOf l (Amend.apply a r))
        (s.rateBp l (Amend.apply a r))).less r.liveNet := by
      rw [State.remaining, hlive, hvline]
      rfl
    have hveq : v.stageDecisions l = { u with lines := (v.stageDecisions l).lines } := by
      refine (stageDecisions_eq v l).trans ?_
      generalize (v.stageDecisions l).lines = x
      rw [hv, relimit_eq]
    obtain ⟨t, ht, hkeeps, hprogress, hasked, hrec, hothers, hframe, hpump⟩ := exec_boundAmend rfl hh hs hroom hf hr
      hu ((hv ▸ relimit_onlyLine u l).trans (stageDecisions_onlyLine v l)) hveq hj
    refine ⟨t, _, d', _, _, ht, hprogress, hasked, hrec, hamended, hactive', hothers, hframe, hpump, rfl, fun habove => ?_,
      fun hbelow => ?_⟩
    · rw [hkeeps.core l, State.stageDecisions, hremaining, if_neg (by rw [hvline]; simpa using habove), line_decideHigh, hremaining, hlive,
        hvlatched, hvline]
      unfold LineCtx.decideHigh
      split
      · rfl
      · split <;> rfl
    · refine hkeeps.stopBegun ?_
      rw [State.stageDecisions, hremaining, if_pos (by rw [hvline]; exact hbelow), line_beginStop, hlive, hvlatched, hvline]
      have := stopBegun_stopped (s.latchedOf l).run .limit r.liveNet { s.line l with
        limit := some ((Amend.apply a r).limitOf d' (s.priceOf l (Amend.apply a r)) (s.rateBp l (Amend.apply a r))) }
      simpa using this
end

