-- ==== Sys2Proof/Proofs/LineCommandsRefused.lean ====
section
/-! PROOFS. The refusals of the line commands. -/

open Sys2Proof Sys2Proof.Machine

namespace Sys2Proof.Machine

/-! ## The flow checks that fail (R101, R144, R150) -/

section
variable {s : State} {l : Line} (k : Except Code Taken)

theorem flowChecks_interlock (h : s.inputs.permit = false ∨ s.inputs.ignition = false) : flowChecks s l k = .error .INTERLOCK :=
  if_pos (by rcases h with h | h <;> simp [State.interlock, h])

variable (hpermit : s.inputs.permit = true) (hignition : s.inputs.ignition = true)
include hpermit hignition

theorem flowChecks_air (hair : s.inputs.air.get l = true) : flowChecks s l k = .error .STATE := by
  rw [flowChecks, if_neg (by simp [State.interlock, hpermit, hignition]), if_pos hair]

theorem flowChecks_calLost (hair : s.inputs.air.get l = false) (hcal : s.settings.calLost = true) :
    flowChecks s l k = .error .NO_CAL := by
  rw [flowChecks, if_neg (by simp [State.interlock, hpermit, hignition]), if_neg (by simp [hair]), if_pos hcal]

end

theorem atMost_zero {x : Limit} {v : Int} (h : x = .cl v) (hv : v ≤ 0) : x.atMost 0 = true := by
  subst h
  simpa [Limit.atMost] using hv

/-! ## LN.NEXT, LN.RESUME and LN.ENDDROP behind a fault (R109, R110, R115) -/

section
variable {s : State} {l : Line} (hst : (s.line l).st = .paused) (hfault : s.faultPaused l = true)
include hst hfault

theorem judgeLnResume_fault : judgeLnResume l.num s = .error .FAULT := by
  rw [judgeLnResume, withLine_num, if_neg (by simp [hst]), if_pos hfault]

theorem judgeLnNext_fault : judgeLnNext l.num s = .error .FAULT := by
  rw [judgeLnNext, withLine_num, if_neg (by simp [hst]), if_pos hfault]

theorem judgeLnEnddrop_fault : judgeLnEnddrop l.num s = .error .FAULT := by
  rw [judgeLnEnddrop, withLine_num, hst]
  exact if_pos hfault

end

/-! ## The checks of LN.ARM that fail (R97, R132, R138) -/

section
variable {s : State} {l : Line} {stop : Nat} {r : Record} {comp : Option Nat} {purge : Bool}

/-- A compartment field that is absent or in range. -/
theorem compInRange (h : comp = none ∨ ∃ d, comp = some d ∧ 1 ≤ d ∧ d ≤ 4) : ¬ withinOpt 1 4 comp = false := by
  rw [Bool.not_eq_false, withinOpt_iff]
  rintro v rfl
  rcases h with h | ⟨d, h, hd⟩
  · cases h
  · cases h
    exact hd

theorem judgeLnArm_range (h : ∃ d, comp = some d ∧ (d = 0 ∨ 4 < d)) : judgeLnArm l.num stop comp purge s = .error .RANGE := by
  obtain ⟨d, rfl, hd⟩ := h
  rw [judgeLnArm, withLine_num]
  refine if_pos ?_
  rw [Bool.eq_false_iff, Ne, withinOpt_iff]
  intro hall
  have := hall d rfl
  omega

variable (hcomp : comp = none ∨ ∃ d, comp = some d ∧ 1 ≤ d ∧ d ≤ 4)
include hcomp

theorem judgeLnArm_notIdle (h : (s.line l).st ≠ .idle) : judgeLnArm l.num stop comp purge s = .error .STATE := by
  rw [judgeLnArm, withLine_num, if_neg (compInRange hcomp), if_pos h]

variable (hidle : (s.line l).st = .idle)
include hidle

theorem judgeLnArm_missing (h : s.recOf stop = none) : judgeLnArm l.num stop comp purge s = .error .NOT_FOUND := by
  rw [judgeLnArm, withLine_num, if_neg (compInRange hcomp), if_neg (by simp [hidle])]
  simp only [h]

variable (hr : s.recOf stop = some r)
include hr

theorem judgeLnArm_notPlanned (h : r.state ≠ .planned) : judgeLnArm l.num stop comp purge s = .error .STATE := by
  rw [judgeLnArm, withLine_num, if_neg (compInRange hcomp), if_neg (by simp [hidle])]
  simp only [hr]
  exact if_pos h

/-- With a PLANNED record the checks of R97 decide. -/
theorem judgeLnArm_checked (hplanned : r.state = .planned) {e : Code} (h : armChecks s l r comp purge = .error e) :
    judgeLnArm l.num stop comp purge s = .error e := by
  rw [judgeLnArm, withLine_num, if_neg (compInRange hcomp), if_neg (by simp [hidle])]
  simp only [hr, h]
  exact if_neg (by simp [hplanned])

end

section
variable {s : State} {l : Line} {r : Record} {comp : Option Nat} {purge : Bool}

theorem armChecks_noRoute (h : s.route.isOpen = false) : armChecks s l r comp purge = .error .NO_ROUTE := if_pos h

variable (hopen : s.route.isOpen = true)
include hopen

theorem armChecks_seal (h : s.inputs.sealOpen = true) : armChecks s l r comp purge = .error .SEAL_OPEN := by
  rw [armChecks, if_neg (by simp [hopen]), if_pos h]

variable (hseal : s.inputs.sealOpen = false)
include hseal

theorem armChecks_store (h : s.storeTrouble = true) : armChecks s l r comp purge = .error .STORE_FAIL := by
  rw [armChecks, if_neg (by simp [hopen]), if_neg (by simp [hseal]), if_pos h]

variable (hstore : s.storeTrouble = false)
include hstore

theorem armChecks_noCal (h : s.settings.calLost = true ∨ s.settings.calSet l r.product = none) :
    armChecks s l r comp purge = .error .NO_CAL := by
  rw [armChecks, if_neg (by simp [hopen]), if_neg (by simp [hseal]), if_neg (by simp [hstore]), if_pos (by simpa using h)]

variable (hcal : s.settings.calLost = false) (hset : (s.settings.calSet l r.product).isSome = true)
include hcal hset

/-- Behind the calibration the compartment, the hose and the pump decide. -/
theorem armChecks_behindCal : armChecks s l r comp purge =
    match s.chooseComp r.product comp with
    | none => .error .NO_PRODUCT
    | some c =>
      match s.hoseTest l r.product purge with
      | .error e => .error e
      | .ok p => if s.pumpGrants c then .ok (c, p) else .error .PUMP_BUSY := by
  rw [armChecks, if_neg (by simp [hopen]), if_neg (by simp [hseal]), if_neg (by simp [hstore]),
    if_neg (by simp [hcal, Option.isSome_iff_ne_none.1 hset])] <;> rfl

end

/-- No compartment is chosen where the product is undefined, the compartment named holds another, or none has any left (R132). -/
theorem chooseComp_none {s : State} {p : Nat} {comp : Option Nat}
    (h : (s.settings.product p).entry.defined = false ∨ (∃ d, comp = some d ∧ (s.load.comp d).product ≠ some p)
      ∨ (comp = none ∧ ∀ d, 1 ≤ d → d ≤ 4 → (s.load.comp d).product = some p → (s.load.comp d).loaded ≤ (s.load.comp d).drawn)) :
    s.chooseComp p comp = none := by
  unfold State.chooseComp
  rcases h with h | ⟨d, rfl, h⟩ | ⟨rfl, h⟩
  · exact if_neg (by simp [h])
  · split
    · exact if_neg (by simpa [compHolds_iff] using h)
    · rfl
  · split
    · refine List.find?_eq_none.2 fun d hd => ?_
      have hrange : 1 ≤ d ∧ d ≤ 4 := by fin_cases hd <;> decide
      rw [Bool.and_eq_true, compHolds_iff, decide_eq_true_eq, Comp.remaining]
      rintro ⟨hp, hpos⟩
      have := h d hrange.1 hrange.2 hp
      omega
    · rfl

theorem hoseTest_empty {s : State} {l : Line} {p : Nat} {purge : Bool} (h : (s.items l).hose ≠ some 0)
    (he : s.load.hoses.get l = .empty) : s.hoseTest l p purge = .error .HOSE_EMPTY := by
  rw [State.hoseTest, if_neg h, he]

theorem hoseTest_mismatch {s : State} {l : Line} {p : Nat} (h : (s.items l).hose ≠ some 0) (he : s.load.hoses.get l ≠ .empty)
    (hp : s.load.hoses.get l ≠ .product p) : s.hoseTest l p false = .error .HOSE_MISMATCH := by
  rw [State.hoseTest, if_neg h]
  cases hose : s.load.hoses.get l with
  | empty => exact absurd hose he
  | product q => exact (if_neg fun hq => hp (by rw [hose, hq])).trans (if_neg nofun)
  | mixed => rfl

theorem hoseTest_passes {s : State} {l : Line} {p : Nat} {purge : Bool} (h : (s.items l).hose = some 0
    ∨ s.load.hoses.get l = .product p ∨ (s.load.hoses.get l ≠ .empty ∧ purge = true)) : ∃ yes, s.hoseTest l p purge = .ok yes := by
  by_cases h0 : (s.items l).hose = some 0
  · exact ⟨_, hoseTest_eq (.inl ⟨h0, rfl⟩)⟩
  · by_cases hp : s.load.hoses.get l = .product p
    · exact ⟨_, hoseTest_eq (.inr (.inl ⟨h0, hp, rfl⟩))⟩
    · obtain ⟨hne, hpurge⟩ := (h.resolve_left h0).resolve_left hp
      exact ⟨_, hoseTest_eq (.inr (.inr ⟨h0, hne, hp, hpurge, rfl⟩))⟩

theorem pumpGrants_busy {s : State} {c : Nat} (h : ∃ b, s.pump = some b ∧ b.comp ≠ c) : ¬ s.pumpGrants c = true := by
  obtain ⟨b, hb, hne⟩ := h
  exact fun hg => hne ((pumpGrants_iff s c).1 hg b hb)

/-! ## The checks of LN.RUN that fail (R121, R122) -/

theorem runChecks_range {l : Line} {comp : Option Nat} {s : State} {k : Line → Nat → Except Code Taken}
    (h : comp = none ∨ ∃ d, comp = some d ∧ (d = 0 ∨ 4 < d)) : runChecks l.num comp s k = .error .RANGE := by
  rw [runChecks, withLine_num]
  rcases h with rfl | ⟨d, rfl, hd⟩
  · rfl
  · refine if_pos ?_
    rw [Bool.eq_false_iff, Ne, within_iff]
    omega

section
variable {l : Line} {c : Nat} {s : State} {k : Line → Nat → Except Code Taken} (hc : 1 ≤ c ∧ c ≤ 4)
include hc

theorem runChecks_notIdle (h : (s.line l).st ≠ .idle) : runChecks l.num (some c) s k = .error .STATE := by
  rw [runChecks, withLine_num]
  exact (if_neg (by simpa using hc)).trans (if_pos h)

theorem runChecks_idle (h : (s.line l).st = .idle) : runChecks l.num (some c) s k = k l c := by
  rw [runChecks, withLine_num]
  exact (if_neg (by simpa using hc)).trans (if_neg (by simp [h]))

end

section
variable {l : Line} {c p : Nat} {s : State} (hc : 1 ≤ c ∧ c ≤ 4)
include hc

theorem judgePrime_notIdle (h : (s.line l).st ≠ .idle) : judgeLnRunPrime l.num (some c) s = .error .STATE := runChecks_notIdle hc h

variable (hidle : (s.line l).st = .idle)
include hidle

theorem judgePrime_noRoute (h : s.route.isOpen = false) : judgeLnRunPrime l.num (some c) s = .error .NO_ROUTE :=
  (runChecks_idle hc hidle).trans (if_pos h)

variable (hopen : s.route.isOpen = true)
include hopen

theorem judgePrime_seal (h : s.inputs.sealOpen = true) : judgeLnRunPrime l.num (some c) s = .error .SEAL_OPEN :=
  (runChecks_idle hc hidle).trans ((if_neg (by simp [hopen])).trans (if_pos h))

variable (hseal : s.inputs.sealOpen = false)
include hseal

theorem judgePrime_interlock (h : s.inputs.permit = false ∨ s.inputs.ignition = false) :
    judgeLnRunPrime l.num (some c) s = .error .INTERLOCK := by
  refine (runChecks_idle hc hidle).trans ?_
  rw [if_neg (by simp [hopen]), if_neg (by simp [hseal])]
  exact if_pos (by rcases h with h | h <;> simp [State.interlock, h])

variable (hpermit : s.inputs.permit = true) (hignition : s.inputs.ignition = true)
include hpermit hignition

theorem judgePrime_air (h : s.inputs.air.get l = true) : judgeLnRunPrime l.num (some c) s = .error .STATE := by
  refine (runChecks_idle hc hidle).trans ?_
  rw [if_neg (by simp [hopen]), if_neg (by simp [hseal]), if_neg (by simp [State.interlock, hpermit, hignition]), if_pos h]

variable (hair : s.inputs.air.get l = false)
include hair

/-- Behind the inputs the compartment's product decides. -/
theorem judgePrime_product : judgeLnRunPrime l.num (some c) s =
    match (s.load.comp c).product with
    | none => .error .NO_PRODUCT
    | some p => primeChecks s l c p := by
  refine (runChecks_idle hc hidle).trans ?_
  rw [if_neg (by simp [hopen]), if_neg (by simp [hseal]), if_neg (by simp [State.interlock, hpermit, hignition]),
    if_neg (by simp [hair])] <;> rfl

end

section
variable {l : Line} {c p : Nat} {s : State}

theorem primeChecks_noCal (h : s.settings.calLost = true ∨ s.settings.calSet l p = none) : primeChecks s l c p = .error .NO_CAL :=
  if_pos (by simpa using h)

variable (hcal : s.settings.calLost = false) (hset : (s.settings.calSet l p).isSome = true)
include hcal hset

theorem primeChecks_mismatch (h : s.load.hoses.get l ≠ .empty) : primeChecks s l c p = .error .HOSE_MISMATCH := by
  rw [primeChecks, if_neg (by simp [hcal, Option.isSome_iff_ne_none.1 hset]), if_pos h]

variable (hhose : s.load.hoses.get l = .empty)
include hhose

theorem primeChecks_zero (h : (s.items l).hose = some 0) : primeChecks s l c p = .error .LIMIT_ZERO := by
  rw [primeChecks, if_neg (by simp [hcal, Option.isSome_iff_ne_none.1 hset]), if_neg (by simp [hhose]), if_pos (by simp [h])]

variable {v : Nat} (hv : (s.items l).hose = some v) (hpos : 0 < v)
include hv hpos

theorem primeChecks_pump : primeChecks s l c p = if s.pumpGrants c = false then .error .PUMP_BUSY
    else report (s.runFrom l .prime c (.cl v)) [runReply l .prime c] := by
  have hne : ¬ (s.items l).hose.getD 0 = 0 := by
    rw [hv]
    exact Nat.pos_iff_ne_zero.1 hpos
  rw [primeChecks, if_neg (by simp [hcal, Option.isSome_iff_ne_none.1 hset]), if_neg (by simp [hhose]), if_neg hne, hv]
  rfl

end

theorem judgeLnStart_checks {s : State} {l : Line} {stop n : Nat} {r : Record} {d : Drop} (hun : s.unstarted l = true)
    (hb : (s.line l).bound = some stop) (hr : s.recOf stop = some r) (hsaved : stop ∉ s.unsaved) (hpend : r.firstPending = some (n, d)) :
    judgeLnStart l.num s = flowChecks s l
      (if (s.dropLimit l r d).atMost 0 then .error .LIMIT_ZERO
       else if s.canReserve l = false then .error .TICKETS_EXHAUSTED
       else taken (s.start l r.stop r (s.dropLimit l r d)) r.stop [.kw .LIMIT, (s.dropLimit l r d).tok]) := by
  rw [judgeLnStart, withLine_num, if_neg (by simp [hun]), if_neg (by simp [boundIsUnsaved_eq hb, hsaved])]
  simp only [boundRec_eq hb hr, hpend]

section
variable {s : State} {l : Line} {stop : Nat} {r : Record} (hst : (s.line l).st = .paused) (hk : (s.line l).kind = some .order)
  (hb : (s.line l).bound = some stop) (hr : s.recOf stop = some r) (hfault : s.faultPaused l = false)
include hst hb hr hfault

theorem judgeLnNext_checks {n : Nat} {d : Drop} (hactive : r.active = none) (hpend : r.firstPending = some (n, d)) :
    judgeLnNext l.num s = flowChecks s l
      (if (s.dropLimit l r d).atMost 0 then .error .LIMIT_ZERO
       else taken (s.next l r.stop n (s.dropLimit l r d)) r.stop (item .DROP n ++ [.kw .LIMIT, (s.dropLimit l r d).tok])) := by
  rw [judgeLnNext, withLine_num, if_neg (by simp [hst]), if_neg (by simp [hfault])]
  simp only [boundRec_eq hb hr, hactive, hpend]

include hk

theorem judgeLnResume_checks (hactive : r.active.isSome = true) :
    judgeLnResume l.num s = flowChecks s l
      (if (s.remaining l).atMost 0 then .error .LIMIT_ZERO
       else report (s.enterFlowing l (s.liveNet l)) [item .LINE l.num ++ [.kw .FLOWING]]) := by
  have hresume : s.resumable l = true := (resumable_iff s l).2 (.inl ⟨hk, r, boundRec_eq hb hr, hactive⟩)
  rw [judgeLnResume, withLine_num, if_neg (by simp [hst]), if_neg (by simp [hfault]), if_neg (by simp [hresume])]

end

theorem faultPaused_eq_false {s : State} {l : Line} {stop : Nat} (hb : (s.line l).bound = some stop) (hsaved : stop ∉ s.unsaved)
    (hpulser : (s.line l).cause ≠ some .pulser) (hstore : (s.line l).cause ≠ some .store) : s.faultPaused l = false := by
  rw [Bool.eq_false_iff, Ne, faultPaused_iff, boundIsUnsaved_eq hb, decide_eq_true_eq]
  exact fun h => h.elim hpulser fun h => h.elim hstore hsaved

/-- What refuses a start, a next drop and a resumption before their own checks. -/
def FlowRefused (s : State) (l : Line) (c : Code) : Prop := ∀ k, flowChecks s l k = .error c

/-- A failing flow check refuses LN.START, LN.RESUME and LN.NEXT of a bound record with its code. -/
theorem exec_flowRefused {s : State} {l : Line} {stop : Nat} {r : Record} {c : Code} (hh : s.hears = true) (hs : s.settled = true)
    (hb : (s.line l).bound = some stop) (hr : s.recOf stop = some r) (hsaved : stop ∉ s.unsaved) (hc : FlowRefused s.lineTaken l c) :
    ((s.line l).st = .armed → r.firstPending.isSome = true → exec (.lnStart l.num) s = .next (refusedWith .LN_START c s))
    ∧ ((s.line l).st = .paused → (s.line l).kind = some .order → (s.line l).cause ≠ some .pulser → (s.line l).cause ≠ some .store →
      (r.active.isSome = true → exec (.lnResume l.num) s = .next (refusedWith .LN_RESUME c s))
      ∧ (r.active = none → r.firstPending.isSome = true → exec (.lnNext l.num) s = .next (refusedWith .LN_NEXT c s))) := by
  refine ⟨fun harmed hpend => ?_, fun hst hk hpulser hstore => ⟨fun hactive => ?_, fun hactive hpend => ?_⟩⟩
  · obtain ⟨⟨n, d⟩, hpend⟩ := Option.isSome_iff_exists.1 hpend
    have hun : s.lineTaken.unstarted l = true := (unstarted_iff ..).2 (.inl harmed)
    exact exec_refused rfl hh hs ((judgeLnStart_checks (s := s.lineTaken) hun hb hr hsaved hpend).trans (hc _))
  · have hfault := faultPaused_eq_false (s := s.lineTaken) hb hsaved hpulser hstore
    exact exec_refused rfl hh hs ((judgeLnResume_checks (s := s.lineTaken) hst hk hb hr hfault hactive).trans (hc _))
  · obtain ⟨⟨n, d⟩, hpend⟩ := Option.isSome_iff_exists.1 hpend
    have hfault := faultPaused_eq_false (s := s.lineTaken) hb hsaved hpulser hstore
    exact exec_refused rfl hh hs ((judgeLnNext_checks (s := s.lineTaken) hst hb hr hfault hactive hpend).trans (hc _))

end Sys2Proof.Machine

/-- Settles O35: each check is reached behind the ones before it. -/
theorem lineCommandsRefused : Obligations.LineCommandsRefused := by
  refine ⟨fun l stop r s hh hs hb hr hsaved => ⟨fun hst hcause => ?_, fun hinput => ?_, fun hpermit hignition hair => ?_⟩,
    fun l stop r x s hh hs hb hr hsaved hpermit hignition hair hx => ⟨fun harmed n d hpend => ⟨fun hcal => ?_, fun hcal => ⟨?_, ?_⟩⟩,
      fun hst hk hpulser hstore => ⟨fun hactive => ⟨fun hcal => ?_, fun hcal v hv hle => ?_⟩,
        fun hactive n d hpend => ⟨fun hcal => ?_, fun hcal v hv hle => ?_⟩⟩⟩,
    fun l stop c comp purge r s hh hs hidle hr hplanned hopen hseal hstore hcal hcomp => ?_,
    fun l c s hh hs hc => ?_, fun l stop comp purge r s hh hs => ?_⟩
  · have hfault : s.lineTaken.faultPaused l = true := (faultPaused_iff ..).2 (hcause.imp id .inl)
    exact ⟨exec_refused rfl hh hs (judgeLnResume_fault (s := s.lineTaken) hst hfault),
      exec_refused rfl hh hs (judgeLnNext_fault (s := s.lineTaken) hst hfault),
      exec_refused rfl hh hs (judgeLnEnddrop_fault (s := s.lineTaken) hst hfault)⟩
  · exact exec_flowRefused hh hs hb hr hsaved fun k => flowChecks_interlock (s := s.lineTaken) k hinput
  · exact exec_flowRefused hh hs hb hr hsaved fun k => flowChecks_air (s := s.lineTaken) k hpermit hignition hair
  · exact (exec_flowRefused hh hs hb hr hsaved fun k => flowChecks_calLost (s := s.lineTaken) k hpermit hignition hair hcal).1 harmed
      (by simp [hpend])
  · intro v hv hle
    have hun : s.lineTaken.unstarted l = true := (unstarted_iff ..).2 (.inl harmed)
    refine exec_refused rfl hh hs ((judgeLnStart_checks (s := s.lineTaken) hun hb hr hsaved hpend).trans ?_)
    rw [flowChecks_pass (s := s.lineTaken) _ hpermit hignition hair hcal]
    exact if_pos (atMost_zero ((dropLimit_latched (s := s.lineTaken) hx r d).trans hv) hle)
  · intro hpos hres hfull
    have hun : s.lineTaken.unstarted l = true := (unstarted_iff ..).2 (.inl harmed)
    have hlimit := dropLimit_latched (s := s.lineTaken) hx r d
    refine exec_refused rfl hh hs ((judgeLnStart_checks (s := s.lineTaken) hun hb hr hsaved hpend).trans ?_)
    rw [flowChecks_pass (s := s.lineTaken) _ hpermit hignition hair hcal, if_neg (not_atMost_zero (by rw [hlimit]; exact hpos))]
    refine if_pos ?_
    rw [Bool.eq_false_iff, Ne, canReserve_iff]
    rintro (h | h)
    · exact nomatch hres.symm.trans h
    · exact absurd h (Nat.not_lt.2 hfull)
  · exact ((exec_flowRefused hh hs hb hr hsaved fun k => flowChecks_calLost (s := s.lineTaken) k hpermit hignition hair hcal).2 hst hk
      hpulser hstore).1 hactive
  · have hfault := faultPaused_eq_false (s := s.lineTaken) hb hsaved hpulser hstore
    refine exec_refused rfl hh hs ((judgeLnResume_checks (s := s.lineTaken) hst hk hb hr hfault hactive).trans ?_)
    rw [flowChecks_pass (s := s.lineTaken) _ hpermit hignition hair hcal]
    refine if_pos (atMost_zero (v := v - r.liveNet) ?_ (by omega))
    rw [State.remaining, liveNet_order (s := s.lineTaken) hk (boundRec_eq (s := s.lineTaken) hb hr), line_lineTaken, hv]
    rfl
  · exact ((exec_flowRefused hh hs hb hr hsaved fun k => flowChecks_calLost (s := s.lineTaken) k hpermit hignition hair hcal).2 hst hk
      hpulser hstore).2 hactive (by simp [hpend])
  · have hfault := faultPaused_eq_false (s := s.lineTaken) hb hsaved hpulser hstore
    refine exec_refused rfl hh hs ((judgeLnNext_checks (s := s.lineTaken) hst hb hr hfault hactive hpend).trans ?_)
    rw [flowChecks_pass (s := s.lineTaken) _ hpermit hignition hair hcal]
    exact if_pos (atMost_zero ((dropLimit_latched (s := s.lineTaken) hx r d).trans hv) hle)
  · have hjudge : ∀ {e}, armChecks s.lineTaken l r comp purge = .error e → exec (.lnArm l.num stop comp purge) s
        = .next (refusedWith .LN_ARM e s) := fun h =>
      exec_refused rfl hh hs (judgeLnArm_checked (s := s.lineTaken) hcomp hidle hr hplanned h)
    refine ⟨fun hset => hjudge (armChecks_noCal (s := s.lineTaken) hopen hseal hstore (.inr hset)), fun hset => ?_⟩
    have hbehind := armChecks_behindCal (s := s.lineTaken) (comp := comp) (purge := purge) hopen hseal hstore hcal hset
    refine ⟨fun hnone => hjudge ?_, fun hdef hcompc hp => ?_⟩
    · rw [hbehind, chooseComp_none (s := s.lineTaken) hnone]
    · have hrange : 1 ≤ c ∧ c ≤ 4 := by
        rcases hcomp with h | ⟨d, h, hd⟩
        · exact nomatch hcompc.symm.trans h
        · cases hcompc.symm.trans h
          exact hd
      rw [chooseComp_eq (s := s.lineTaken) hdef hrange hp (.inl hcompc)] at hbehind
      refine ⟨fun h0 he => hjudge ?_, fun h0 he hne hpurge => hjudge ?_, fun hhose hpump => hjudge ?_⟩
      · rw [hbehind, hoseTest_empty (s := s.lineTaken) h0 he]
      · rw [hbehind, hpurge, hoseTest_mismatch (s := s.lineTaken) h0 he hne]
      · obtain ⟨yes, hyes⟩ := hoseTest_passes (s := s.lineTaken) hhose
        rw [hbehind, hyes]
        exact if_neg (pumpGrants_busy (s := s.lineTaken) hpump)
  · refine ⟨fun h => exec_refused rfl hh hs (judgePrime_notIdle (s := s.lineTaken) hc h), fun hidle =>
      ⟨fun h => exec_refused rfl hh hs (judgePrime_noRoute (s := s.lineTaken) hc hidle h),
        fun hopen h => exec_refused rfl hh hs (judgePrime_seal (s := s.lineTaken) hc hidle hopen h), fun hopen hseal =>
      ⟨fun h => exec_refused rfl hh hs (judgePrime_interlock (s := s.lineTaken) hc hidle hopen hseal h), fun hpermit hignition =>
      ⟨fun h => exec_refused rfl hh hs (judgePrime_air (s := s.lineTaken) hc hidle hopen hseal hpermit hignition h),
        fun hair => ?_⟩⟩⟩⟩
    have hproduct := judgePrime_product (s := s.lineTaken) hc hidle hopen hseal hpermit hignition hair
    refine ⟨fun hnone => exec_refused rfl hh hs (hproduct.trans ?_), fun p hp => ?_⟩
    · show (match (s.load.comp c).product with | none => _ | some p => _) = _
      rw [hnone]
    · have hjudge : ∀ {e}, primeChecks s.lineTaken l c p = .error e → exec (.lnRunPrime l.num (some c)) s
          = .next (refusedWith .LN_RUN e s) := fun h => exec_refused rfl hh hs (hproduct.trans (by
        show (match (s.load.comp c).product with | none => _ | some p => _) = _
        rw [hp]
        exact h))
      refine ⟨fun h => hjudge (primeChecks_noCal (s := s.lineTaken) h), fun hcal hset =>
        ⟨fun h => hjudge (primeChecks_mismatch (s := s.lineTaken) hcal hset h),
          fun hhose h => hjudge (primeChecks_zero (s := s.lineTaken) hcal hset hhose h), fun v hhose hv hpos hpump => hjudge ?_⟩⟩
      rw [primeChecks_pump (s := s.lineTaken) hcal hset hhose hv hpos]
      exact if_pos (Bool.eq_false_iff.2 (pumpGrants_busy (s := s.lineTaken) hpump))
  · refine ⟨fun n h1 h2 => exec_refused rfl hh hs (withLine_none h1 h2 _),
      fun d hd hbad => exec_refused rfl hh hs (judgeLnArm_range (s := s.lineTaken) ⟨d, hd, hbad⟩),
      fun h => ⟨exec_refused rfl hh hs (runChecks_range h), exec_refused rfl hh hs (runChecks_range h)⟩, fun hcomp =>
      ⟨fun h => exec_refused rfl hh hs (judgeLnArm_notIdle (s := s.lineTaken) hcomp h),
        fun hidle h => exec_refused rfl hh hs (judgeLnArm_missing (s := s.lineTaken) hcomp hidle h), fun hidle hr =>
      ⟨fun h => exec_refused rfl hh hs (judgeLnArm_notPlanned (s := s.lineTaken) hcomp hidle hr h), fun hplanned => ?_⟩⟩⟩
    have hjudge : ∀ {e}, armChecks s.lineTaken l r comp purge = .error e → exec (.lnArm l.num stop comp purge) s
        = .next (refusedWith .LN_ARM e s) := fun h =>
      exec_refused rfl hh hs (judgeLnArm_checked (s := s.lineTaken) hcomp hidle hr hplanned h)
    exact ⟨fun h => hjudge (armChecks_noRoute (s := s.lineTaken) h), fun hopen =>
      ⟨fun h => hjudge (armChecks_seal (s := s.lineTaken) hopen h), fun hseal =>
      ⟨fun h => hjudge (armChecks_store (s := s.lineTaken) hopen hseal h), fun hstore h =>
        hjudge (armChecks_noCal (s := s.lineTaken) hopen hseal hstore (.inl h))⟩⟩⟩
end

