-- ==== Sys2Proof/Proofs/StopCommands.lean ====
section
/-! PROOFS. LN.PAUSE, LN.ENDDROP and LN.CLOSE of a line that credits. -/

open Sys2Proof Sys2Proof.Machine

namespace Sys2Proof.Machine

/-! ## Stops begun by a command (R104, R110, R111, R113) -/

/-- A command whose outcome is decided later: it waits, and nothing is sent. -/
theorem exec_awaits {i : Instr} {w : CmdWord} {p : Plan} {s u : State} (hw : commandWord i = some w) (hh : s.hears = true)
    (hs : s.settled = true) (hj : judgeCommand i s.lineTaken = .ok ⟨u, p, []⟩) (hphase : u.phase = s.phase)
    (hflight : u.flight = s.flight) (hqueue : u.queue = s.queue) (hends : noEndDue u)
    (hplan : ∀ v : State, v.planSegments p = none) : exec i s = .next { u with cmd := some ⟨w, p, .on [], false⟩ } := by
  obtain ⟨hactive, -⟩ := (hears_iff s).1 hh
  obtain ⟨hidle, -⟩ := (settled_iff s).1 hs
  obtain ⟨v, hv⟩ : ∃ v : State, v = { u with cmd := some ⟨w, p, .on [], false⟩ } := ⟨_, rfl⟩
  have hvactive : v.isActive = true := (isActive_of_phase (s := s) (by rw [hv]; exact hphase)).trans hactive
  have hvidle : v.flight.isSome = true ∨ v.queue = [] := by
    rw [hv]
    rw [← hflight, ← hqueue] at hidle
    exact hidle
  rw [exec_command hw, take_eq w _ s (ne_restart_of_active s hactive), arrive_taken w _ s u p [] hh hj, ← hv,
    commit_active v hvactive, runStore_settled v hvidle, deliver_noEnd v hvactive (by rw [hv]; exact hends),
    deliverReply_none v (by rw [hv]; simp [State.replyDue, hplan]), trySleep_busy v (by rw [hv]; rfl)]

theorem planSegments_awaitEnd (v : State) (l : Line) : v.planSegments (.awaitEnd l) = none := rfl

/-- A stop that no limit begins was not on LOW alone. -/
theorem stopBegun_command {i : StopIntent} (hi : i ≠ .limit) (s : State) (l : Line) :
    (s.line l).stopBegun (s.latchedOf l).run i (s.liveNet l) false ((s.beginStop l i).line l) := by
  have h := stopBegun_stopped (s.latchedOf l).run i (s.liveNet l) (s.line l)
  have hlimit : (i == StopIntent.limit) = false := by simpa using hi
  rw [hlimit, Bool.and_false] at h
  rw [line_beginStop]
  exact h

/-- What a stop begun by a command leaves, whatever the command in progress and the transmitter then hold. -/
theorem beginStop_frame (s : State) (l : Line) (i : StopIntent) {t : State}
    (ht : { t with cmd := s.cmd, tx := s.tx, rx := s.rx } = s.beginStop l i) :
    t.slots = s.slots ∧ t.queue = s.queue ∧ t.pump = s.pump ∧ sameLine s t l.other ∧ sameBlocks s t ∧ sameTruck s t := by
  have key : ∀ {α : Type} (g : State → α), g { t with cmd := s.cmd, tx := s.tx, rx := s.rx } = g (s.beginStop l i) :=
    fun g => congrArg g ht
  have honly := LineOnly.beginStop s l i
  refine ⟨key State.slots, key State.queue, key State.pump, ⟨?_, key (State.attention · |>.get l.other)⟩,
    ⟨key State.settings, key State.load, key State.route, key State.counter⟩,
    ⟨key State.inputs, key State.meters, key State.clock, key State.captures, key State.areaSettings, key State.areaLoad,
      key State.areaRoute, key State.failed, key State.seq, key State.patrolCursor, key State.resetCause, key State.phase,
      key State.mode, key State.ignitionLow, key State.sleepDue⟩⟩
  exact (key (fun u => (u.line l.other).core)).trans (congrArg LineCtx.core honly.otherLine)

/-- A stop answered at once. -/
theorem exec_stopNow {j : Instr} {w : CmdWord} {s : State} {l : Line} {i : StopIntent} (hi : i ≠ .limit) (hw : commandWord j = some w)
    (hh : s.hears = true) (hs : s.settled = true) (hj : judgeCommand j s.lineTaken = stopNow s.lineTaken l i) :
    ∃ t, exec j s = .next t ∧ (s.line l).stopBegun (s.latchedOf l).run i (s.liveNet l) false (t.line l)
      ∧ t.slots = s.slots ∧ t.queue = s.queue ∧ t.pump = s.pump ∧ sameLine s t l.other ∧ sameBlocks s t ∧ sameTruck s t
      ∧ t.tx ≠ s.tx := by
  have honly := LineOnly.beginStop s l i
  obtain ⟨hslots, hqueue, hpump, hother, hblocks, htruck⟩ := beginStop_frame s l i
    (t := answered w [item .LINE l.num ++ [.kw ((s.beginStop l i).line l).st.kw]] (s.beginStop l i)) rfl
  exact ⟨_, exec_answered (u := s.beginStop l i) hw hh hs rfl rfl rfl honly.noEndDue hj, stopBegun_command hi s l, hslots, hqueue, hpump,
    hother, hblocks, htruck, answered_tx_ne _ _ (s.beginStop l i)⟩

theorem judgeLnClose_late {s : State} {l : Line} (hst : (s.line l).st = .stopping ∨ (s.line l).st = .settling)
    (hsaved : s.boundIsUnsaved l = false) :
    judgeLnClose l.num s = closeLater (s.modLine l (fun c => { c with intent := some .close })) l := by
  rw [judgeLnClose, withLine_num]
  rcases hst with h | h <;> rw [h] <;> exact if_neg (by simp [hsaved])

theorem judgeLnEnddrop_late {s : State} {l : Line} (hst : (s.line l).st = .stopping ∨ (s.line l).st = .settling)
    (hsaved : s.boundIsUnsaved l = false) : judgeLnEnddrop l.num s = .error .TOO_LATE := by
  rw [judgeLnEnddrop, withLine_num]
  rcases hst with h | h <;> rw [h] <;> exact if_neg (by simp [hsaved])

end Sys2Proof.Machine

/-- Settles O36: a stop's intent is the command's, and LN.CLOSE waits. -/
theorem commandsBeginAStop : Obligations.CommandsBeginAStop := by
  refine ⟨fun l s hh hs hst hsaved => ⟨?_, ?_, ?_⟩, fun l s hh hs hst hsaved => ⟨?_, ?_, ?_⟩⟩
  · refine exec_stopNow (by decide) rfl hh hs ?_
    exact (withLine_num ..).trans (if_pos hst)
  · refine exec_stopNow (by decide) rfl hh hs ?_
    show withLine l.num _ = _
    rw [withLine_num, line_lineTaken, hst]
    exact if_neg (show ¬ s.boundIsUnsaved l = true by simp [hsaved])
  · obtain ⟨-, -, hends, -⟩ := (settled_iff s).1 hs
    have hj : judgeCommand (.lnClose l.num) s.lineTaken = closeLater (s.lineTaken.beginStop l .close) l := by
      show withLine l.num _ = _
      rw [withLine_num, line_lineTaken, hst]
      exact if_neg (show ¬ s.boundIsUnsaved l = true by simp [hsaved])
    obtain ⟨hslots, hqueue, hpump, hother, hblocks, htruck⟩ := beginStop_frame s l .close
      (t := { s.lineTaken.beginStop l .close with cmd := some ⟨.LN_CLOSE, .awaitEnd l, .on [], false⟩ }) rfl
    exact ⟨_, exec_awaits rfl hh hs hj rfl rfl rfl ((LineOnly.beginStop s l .close).noEndDue hends) fun v => planSegments_awaitEnd v l,
      stopBegun_command (by decide) s l, ⟨_, rfl, rfl, rfl⟩, hslots, hqueue, hpump, hother, hblocks, htruck, rfl⟩
  · obtain ⟨-, -, hends, -⟩ := (settled_iff s).1 hs
    have honly := LineOnly.modLine s l (fun c => { c with intent := some .close }) fun _ => rfl
    exact ⟨_, exec_awaits rfl hh hs (judgeLnClose_late (s := s.lineTaken) hst hsaved) rfl rfl rfl (honly.noEndDue hends)
      fun v => planSegments_awaitEnd v l, line_modLine_same s l _, ⟨_, rfl, rfl, rfl⟩, rfl, honly.otherLine⟩
  · exact exec_refused rfl hh hs (judgeLnEnddrop_late (s := s.lineTaken) hst hsaved)
  · refine exec_refused rfl hh hs ((withLine_num ..).trans (if_neg ?_))
    rcases hst with h | h <;> simp [h]
end

