-- ==== Sys2Proof/Proofs/DropEnds.lean ====
section
/-! PROOFS. Changes of one record, the end of a drop, and the entry to PAUSED. -/

open Sys2Proof Sys2Proof.Machine

namespace Sys2Proof.Machine

/-! ## Changes of one record -/

/-- One record alone changes: every other is as it was, and as many slots are FREE. -/
structure OneRecord (stop : Nat) (s u : State) : Prop where
  others : ∀ m, m ≠ stop → u.recOf m = s.recOf m
  free : u.slots.any Slot.isFree = s.slots.any Slot.isFree

theorem queue_enqueue (s : State) (k : Key) : (s.enqueue k).queue = if s.queue.contains k then s.queue else s.queue ++ [k] :=
  apply_ite State.queue ..

/-- The queue behind an entry rests on the queue before it. -/
theorem queue_enqueue_congr {s u : State} (h : u.queue = s.queue) (k : Key) : (u.enqueue k).queue = (s.enqueue k).queue := by
  rw [queue_enqueue, queue_enqueue, h]

theorem queue_changeRec (s : State) (stop : Nat) (f : Record → Record) : (s.changeRec stop f).queue = (s.enqueue (.record stop)).queue :=
  queue_enqueue_congr (s := s) (u := s.modRec stop f) rfl _

namespace OneRecord
variable {stop : Nat} {s u v : State}

theorem of_slots (h : u.slots = s.slots) : OneRecord stop s u := ⟨fun m _ => recOf_of_slots h m, by rw [h]⟩

theorem trans (h : OneRecord stop s u) (k : OneRecord stop u v) : OneRecord stop s v :=
  ⟨fun m hm => (k.others m hm).trans (h.others m hm), k.free.trans h.free⟩

theorem modRec (s : State) (stop : Nat) (f : Record → Record) (hf : ∀ r, (f r).stop = r.stop) : OneRecord stop s (s.modRec stop f) :=
  ⟨fun _ hm => recOf_modRec_of_ne s stop f hf hm, by simp [List.any_map, Function.comp_def]⟩

theorem changeRec (s : State) (stop : Nat) (f : Record → Record) (hf : ∀ r, (f r).stop = r.stop) : OneRecord stop s (s.changeRec stop f) :=
  (modRec s stop f hf).trans (of_slots (enqueue_slots ..))

end OneRecord

/-! ## The end of a drop, and the entry to PAUSED (R108, R114) -/

/-- A line's context when its drop ends (R108). -/
def LineCtx.dropOver (c : LineCtx) : LineCtx := { c with limit := none, slowBase := 0, stopNet := none }

/-- A record whose ACTIVE drop ends (R108). -/
def Record.dropEnded (cause : EndCause) (r : Record) : Record := { r with drops := r.drops.map (Drop.finish cause) }

section
variable {s : State} {l : Line} {stop : Nat} (h : (s.line l).bound = some stop) (cause : EndCause)
include h

theorem endDrop_bound : s.endDrop l cause = (s.modLine l LineCtx.dropOver).modRec stop (Record.dropEnded cause) := by
  simp only [State.endDrop, h]
  rfl

theorem recOf_endDrop {r : Record} (hr : s.recOf stop = some r) : (s.endDrop l cause).recOf stop = some (r.dropEnded cause) := by
  rw [endDrop_bound h, recOf_modRec_same _ stop (Record.dropEnded cause) fun _ => rfl]
  exact congrArg (Option.map _) hr

theorem oneRecord_endDrop : OneRecord stop s (s.endDrop l cause) := by
  rw [endDrop_bound h]
  have hline : OneRecord stop s (s.modLine l LineCtx.dropOver) := .of_slots rfl
  exact hline.trans (.modRec _ stop (Record.dropEnded cause) fun _ => rfl)

end

theorem line_endDrop (s : State) (l : Line) (cause : EndCause) : (s.endDrop l cause).line l = (s.line l).dropOver := by
  unfold State.endDrop
  split <;> exact line_modLine_same s l _

/-- The end of a drop touches the line's context and the slots alone. -/
theorem endDrop_eq (s : State) (l : Line) (cause : EndCause) :
    s.endDrop l cause = { s with slots := (s.endDrop l cause).slots, lines := (s.endDrop l cause).lines } := by
  unfold State.endDrop
  split <;> rfl

section
variable {s : State} {l : Line} {stop : Nat} (h : (s.line l).bound = some stop) (cause : PauseCause)
include h

theorem enterPaused_bound : s.enterPaused l cause
    = ((s.modLine l (LineCtx.toPaused (s.latchedOf l).run cause)).changeRec stop Record.checkpointed).setAttention l := by
  have hb : ((s.modLine l (LineCtx.toPaused (s.latchedOf l).run cause)).line l).bound = some stop := by
    rw [line_modLine_same]
    exact h
  rw [State.enterPaused, State.checkpoint, hb]

theorem store_enterPaused : (s.enterPaused l cause).slots = (s.changeRec stop Record.checkpointed).slots
    ∧ (s.enterPaused l cause).queue = (s.enqueue (.record stop)).queue := by
  rw [enterPaused_bound h]
  exact ⟨(enqueue_slots ..).trans (enqueue_slots (s.modRec stop Record.checkpointed) _).symm,
    (queue_changeRec (s.modLine l (LineCtx.toPaused (s.latchedOf l).run cause)) stop _).trans (queue_enqueue_congr (s := s)
      (u := s.modLine l (LineCtx.toPaused (s.latchedOf l).run cause)) rfl _)⟩

theorem recOf_enterPaused {r : Record} (hr : s.recOf stop = some r) : (s.enterPaused l cause).recOf stop = some r.checkpointed := by
  rw [recOf_of_slots (store_enterPaused h cause).1, recOf_changeRec_same s stop Record.checkpointed fun _ => rfl, hr]
  rfl

theorem oneRecord_enterPaused : OneRecord stop s (s.enterPaused l cause) :=
  (OneRecord.changeRec s stop Record.checkpointed fun _ => rfl).trans (.of_slots (store_enterPaused h cause).1)

end

theorem line_enterPaused (s : State) (l : Line) (cause : PauseCause) :
    (s.enterPaused l cause).line l = LineCtx.toPaused (s.latchedOf l).run cause (s.line l) := by
  unfold State.enterPaused State.checkpoint
  split
  · exact (line_changeRec ..).trans (line_modLine_same ..)
  · exact line_modLine_same ..

theorem justPaused_toPaused (x : RunSettings) (cause : PauseCause) (c : LineCtx) :
    (LineCtx.toPaused x cause c).justPaused x.autoClose cause := ⟨rfl, rfl, rfl, rfl, rfl, rfl, rfl⟩

theorem attention_enterPaused (s : State) (l : Line) (cause : PauseCause) : (s.enterPaused l cause).attention.get l = true := by
  cases l <;> rfl

theorem CommitKeeps.justPaused {s t : State} {l : Line} {n : Nat} {x : PauseCause} (h : CommitKeeps s t)
    (hs : (s.line l).justPaused n x) : (t.line l).justPaused n x := by
  show (t.line l).core.justPaused n x
  rw [h.core l]
  exact hs

/-! ## LN.ENDDROP in PAUSED (R110) -/

theorem finish_active {d : Drop} {a : Acc} (h : d.st = .active a) (cause : EndCause) :
    d.finish cause = { d with st := .done a (a.gross / 10000) (a.net / 10000) cause } := by
  simp only [Drop.finish, h]
  rfl

theorem finish_other {d : Drop} (h : d.isActive = false) (cause : EndCause) : d.finish cause = d := by
  cases hd : d.st <;> simp_all [Drop.finish, Drop.isActive]

theorem nth1_map {α β : Type} (f : α → β) (xs : List α) (n : Nat) : nth1 (xs.map f) n = (nth1 xs n).map f := by
  cases n with
  | zero => rfl
  | succ i => rw [nth1_succ, nth1_succ, List.getElem?_map]

theorem onLastDrop_order {s : State} {l : Line} {r : Record} {n : Nat} {d : Drop} (hk : (s.line l).kind = some .order)
    (hr : s.boundRec l = some r) (ha : r.active = some (n, d)) : s.onLastDrop l = (n == r.drops.length) := by
  simp [State.onLastDrop, hk, hr, ha]

theorem judgeLnEnddrop_paused {s : State} {l : Line} {r : Record} (hst : (s.line l).st = .paused) (hk : (s.line l).kind = some .order)
    (hr : s.boundRec l = some r) (hfault : s.faultPaused l = false) (ha : r.active.isSome = true) :
    judgeLnEnddrop l.num s = if s.onLastDrop l then endNow (s.closeRun l .driver) l else endDropPaused s l r.stop := by
  rw [judgeLnEnddrop, withLine_num, hst]
  show endDropInPause s l = _
  rw [endDropInPause, if_neg (by simp [hfault]), if_pos hk]
  simp only [hr]
  exact if_neg (by simp [Option.isSome_iff_ne_none.1 ha])

/-- The state of LN.ENDDROP in PAUSED on a drop that is not the last. -/
theorem endDropPaused_onlyLine (s : State) (l : Line) : LineOnly l s ((s.endDrop l .driver).enterPaused l .dropEnd) :=
  (LineOnly.endDrop s l .driver).trans (LineOnly.enterPaused ..)

theorem meter_endDrop (s : State) (l k : Line) (cause : EndCause) : (s.endDrop l cause).meter k = s.meter k := by
  unfold State.endDrop
  split <;> rfl

theorem meters_enterPaused (s : State) (l : Line) (cause : PauseCause) : (s.enterPaused l cause).meters = s.meters := by
  unfold State.enterPaused State.checkpoint
  split
  · exact enqueue_meters ..
  · rfl

theorem pump_enterPaused (s : State) (l : Line) (cause : PauseCause) : (s.enterPaused l cause).pump = s.pump := by
  unfold State.enterPaused State.checkpoint
  split
  · exact enqueue_pump ..
  · rfl

/-- A command that changes one record, whatever else it does. -/
theorem exec_oneRecord {i : Instr} {w : CmdWord} {p : Plan} {s u : State} {stop : Nat} {r : Record} {ks : List Key}
    (hw : commandWord i = some w) (hh : s.hears = true) (hs : s.settled = true) (hroom : s.roomy = true)
    (hj : judgeCommand i s.lineTaken = .ok ⟨u, p, .record stop :: ks⟩) (hphase : u.phase = s.phase) (hflight : u.flight = s.flight)
    (hends : noEndDue u) (hrec : u.recOf stop = some r) (hone : OneRecord stop s u)
    (hqueue : s.queue = [] → ∃ q, u.queue = .record stop :: q) (hmem : .record stop ∈ u.queue) (hunsaved : u.unsaved = s.unsaved) :
    ∃ t, exec i s = .next t ∧ Written w p u t ∧ t.recOf stop = some r ∧ asked t (.record stop) ∧ sameRecordsBut stop s t := by
  obtain ⟨t, ht, hwritten⟩ := exec_writes hw hh hs hj hphase (by rw [hflight]) hends fun hnone hempty => by
    obtain ⟨q, hq⟩ := hqueue hempty
    refine ⟨_, q, hq, by simp, flies_record hrec ?_⟩
    have hfree : s.slots.any Slot.isFree = true := by simpa [State.roomy, hnone] using hroom
    exact hone.free.trans hfree
  exact ⟨t, ht, hwritten, (hwritten.recOf stop).trans hrec, hwritten.asked _ hmem,
    fun m hm => (hwritten.recOf m).trans (hone.others m hm), hwritten.unsaved.trans hunsaved⟩

/-- Two commands judged alike, each with its own word, leave the same but for the command in progress. -/
theorem exec_twins {i j : Instr} {w x : CmdWord} {p : Plan} {s u : State} {k : Key} {ks : List Key} (hi : commandWord i = some w)
    (hj : commandWord j = some x) (hh : s.hears = true) (hs : s.settled = true)
    (hji : judgeCommand i s.lineTaken = .ok ⟨u, p, k :: ks⟩) (hjj : judgeCommand j s.lineTaken = .ok ⟨u, p, k :: ks⟩)
    (hphase : u.phase = s.phase) (hflight : u.flight = s.flight) (hends : noEndDue u)
    (hfirst : s.flight = none → s.queue = [] → ∃ k' q, u.queue = k' :: q ∧ k' ∈ k :: ks ∧ Flies u k') :
    ∃ t v, exec i s = .next t ∧ exec j s = .next v ∧ inProgress w p t ∧ inProgress x p v ∧ { t with cmd := v.cmd } = v := by
  obtain ⟨hactive, -⟩ := (hears_iff s).1 hh
  obtain ⟨hidle, -⟩ := (settled_iff s).1 hs
  have hsome : u.flight.isSome = s.flight.isSome := by rw [hflight]
  obtain ⟨t, ht, hwt⟩ := exec_writes hi hh hs hji hphase hsome hends hfirst
  obtain ⟨v, hv, hwv⟩ := exec_writes hj hh hs hjj hphase hsome hends hfirst
  refine ⟨t, v, ht, hv, hwt.progress, hwv.progress, ?_⟩
  have hcommit : ∀ {h : Instr} {y : CmdWord} {z : State}, commandWord h = some y → judgeCommand h s.lineTaken = .ok ⟨u, p, k :: ks⟩ →
      exec h s = .next z → z = commit { u with cmd := some ⟨y, p, .on (k :: ks), false⟩ } := by
    intro h y z hy hjh hz
    rw [exec_command hy, take_eq y _ s (ne_restart_of_active s hactive), arrive_taken y _ s u p (k :: ks) hh hjh] at hz
    exact (Host.Outcome.next.inj hz).symm
  have hact : ∀ c : Option InProgress, ({ u with cmd := c } : State).isActive = true := fun c =>
    (isActive_of_phase (s := s) hphase).trans hactive
  have ht' := hcommit hi hji ht
  have hv' := hcommit hj hjj hv
  cases hf : s.flight with
  | some op =>
    have hstays : ∀ y, commit { u with cmd := some ⟨y, p, .on (k :: ks), false⟩ } = { u with cmd := some ⟨y, p, .on (k :: ks), false⟩ } := by
      intro y
      obtain ⟨z, hz⟩ : ∃ z : State, z = { u with cmd := some ⟨y, p, .on (k :: ks), false⟩ } := ⟨_, rfl⟩
      have hzactive : z.isActive = true := hz ▸ hact _
      have hbusy : z.flight.isSome = true := by
        rw [hz]
        show u.flight.isSome = true
        rw [hflight, hf]
        rfl
      rw [← hz, commit_active z hzactive, runStore_settled z (.inl hbusy), deliver_noEnd z hzactive (by rw [hz]; exact hends),
        deliverReply_none z (by rw [hz]; simp [State.replyDue, Waiter.over, Waiter.on]), trySleep_busy z (by rw [hz]; rfl)]
    rw [ht', hv', hstays, hstays]
  | none =>
    have hempty : s.queue = [] := by simpa [hf] using hidle
    obtain ⟨k', q, hqueue, hmem, f, hfly⟩ := hfirst hf hempty
    have hflies : ∀ y, commit { u with cmd := some ⟨y, p, .on (k :: ks), false⟩ }
        = { ({ ({ u with cmd := some ⟨y, p, .on (k :: ks), false⟩ } : State) with queue := q, patrolIdle := 0 } : State).mapWaiters
              (Waiter.begun k') with flight := some f } := fun y =>
      commit_flies (hact _) (hflight.trans hf) hqueue (hfly.of_same rfl rfl rfl rfl) hmem rfl hends
    rw [ht', hv', hflies, hflies]
    rfl

end Sys2Proof.Machine
end

