-- ==== Sys2Proof/Proofs/RunFrames.lean ====
section
/-! PROOFS. What the end of a run may touch, and a ticket applied to the blocks. -/

open Sys2Proof Sys2Proof.Machine

namespace Sys2Proof.Machine

/-! ## What the end of a run may touch -/

/-- One line's run ends, or what leads to its end: beside what `LineOnly` lets change, the counter, the blocks and the free draws. -/
structure RunOnly (l : Line) (s u : State) : Prop where
  eq : u = { s with
    counter := u.counter, slots := u.slots, queue := u.queue, settings := u.settings, load := u.load, route := u.route
    lines := u.lines, meters := u.meters, pump := u.pump, press := u.press, attention := u.attention, fresh := u.fresh }
  otherLine : u.line l.other = s.line l.other
  otherMeter : u.meter l.other = s.meter l.other
  otherItem : u.attention.get l.other = s.attention.get l.other
  endWaits : (u.line l).endWaits = (s.line l).endWaits

namespace RunOnly
variable {l : Line} {s u v : State}

theorem refl (l : Line) (s : State) : RunOnly l s s := ⟨rfl, rfl, rfl, rfl, rfl⟩

theorem trans (h : RunOnly l s u) (k : RunOnly l u v) : RunOnly l s v where
  eq := by
    have heq := h.eq
    rw [k.eq]
    generalize v.counter = a, v.slots = b, v.queue = c, v.settings = d, v.load = e, v.route = f, v.lines = g, v.meters = i,
      v.pump = j, v.press = m, v.attention = n, v.fresh = o
    rw [heq]
  otherLine := k.otherLine.trans h.otherLine
  otherMeter := k.otherMeter.trans h.otherMeter
  otherItem := k.otherItem.trans h.otherItem
  endWaits := k.endWaits.trans h.endWaits

theorem of_lineOnly (h : LineOnly l s u) : RunOnly l s u where
  eq := by
    have heq := h.eq
    generalize u.slots = b, u.queue = c, u.lines = g, u.meters = i, u.pump = j, u.press = m, u.attention = n at heq
    rw [heq]
  otherLine := h.otherLine
  otherMeter := h.otherMeter
  otherItem := h.otherItem
  endWaits := h.endWaits

theorem noEndDue (h : RunOnly l s u) (hs : Machine.noEndDue s) : Machine.noEndDue u := by
  obtain ⟨h1, h2⟩ := hs
  have hother := congrArg LineCtx.endWaits h.otherLine
  have hends := h.endWaits
  cases l
  · exact ⟨(congrArg (List.any · Waiter.over) hends).trans h1, (congrArg (List.any · Waiter.over) hother).trans h2⟩
  · exact ⟨(congrArg (List.any · Waiter.over) hother).trans h1, (congrArg (List.any · Waiter.over) hends).trans h2⟩

section
variable (h : RunOnly l s u)
include h

theorem read {α : Type} (g : State → α) : g u = g { s with
    counter := u.counter, slots := u.slots, queue := u.queue, settings := u.settings, load := u.load, route := u.route
    lines := u.lines, meters := u.meters, pump := u.pump, press := u.press, attention := u.attention, fresh := u.fresh } :=
  congrArg g h.eq

theorem phase : u.phase = s.phase := h.read State.phase
theorem flight : u.flight = s.flight := h.read State.flight
theorem cmd : u.cmd = s.cmd := h.read State.cmd
theorem unsaved : u.unsaved = s.unsaved := h.read State.unsaved

end

theorem drew (l : Line) (s : State) (b : Bool) : RunOnly l s (s.drew b) := by
  unfold State.drew; split <;> exact ⟨rfl, rfl, rfl, rfl, rfl⟩

theorem modLoad (l : Line) (s : State) (f : LoadBlock → LoadBlock) : RunOnly l s (s.modLoad f) := ⟨rfl, rfl, rfl, rfl, rfl⟩

theorem modRoute (l : Line) (s : State) (f : RouteBlock → RouteBlock) : RunOnly l s (s.modRoute f) := ⟨rfl, rfl, rfl, rfl, rfl⟩

theorem requeue (l : Line) (s : State) (k : Key) : RunOnly l s (s.requeue k) := ⟨rfl, rfl, rfl, rfl, rfl⟩

theorem counted (l : Line) (s : State) (n : Nat) : RunOnly l s { s with counter := n } := ⟨rfl, rfl, rfl, rfl, rfl⟩

theorem deductOrder (s : State) (l : Line) (stop : Nat) : RunOnly l s (s.deductOrder l stop) := by
  unfold State.deductOrder
  split
  · exact refl l s
  · exact (of_lineOnly (.modRec l s stop _)).trans (drew ..)

theorem restAfterRun (s : State) (l : Line) : RunOnly l s (s.restAfterRun l) :=
  of_lineOnly ((LineOnly.toRest s l _).trans (LineOnly.modMeter _ l _))

end RunOnly

/-! ## Coming to rest (R112, R135) -/

section
variable (s : State) (l : Line)

theorem line_restAfterRun : (s.restAfterRun l).line l = LineCtx.rest (s.restState l) (s.line l) := by
  rw [State.restAfterRun, line_modMeter, line_toRest]

theorem left_restAfterRun : left l s (s.restAfterRun l) :=
  left_of_pump (left_leavePump (s.modLine l (LineCtx.rest (s.restState l))) l) rfl rfl

/-- Coming to rest touches the line, its meter line and the pump binding alone. -/
theorem restAfterRun_eq : s.restAfterRun l = { s with
    lines := (s.restAfterRun l).lines, meters := (s.restAfterRun l).meters, pump := (s.restAfterRun l).pump } := by
  unfold State.restAfterRun State.toRest State.leavePump
  dsimp only
  split
  · rfl
  · split <;> rfl

theorem read_restAfterRun {α : Type} (g : State → α) : g (s.restAfterRun l) = g { s with
    lines := (s.restAfterRun l).lines, meters := (s.restAfterRun l).meters, pump := (s.restAfterRun l).pump } :=
  congrArg g (restAfterRun_eq s l)

end

theorem restState_congr {s u : State} {l : Line} (hm : u.meter l = s.meter l) (hs : u.settings = s.settings) :
    u.restState l = s.restState l := by
  unfold State.restState; rw [hm, hs]

/-! ## The reverse balance of an ORDER run (R84) -/

theorem deductOrder_zero {s : State} {l : Line} {stop : Nat} (h : (s.line l).reverse = 0) : s.deductOrder l stop = s := if_pos h

/-- A deduction touches the slots and the free draws alone. -/
theorem deductOrder_eq (s : State) (l : Line) (stop : Nat) :
    s.deductOrder l stop = { s with slots := (s.deductOrder l stop).slots, fresh := (s.deductOrder l stop).fresh } := by
  unfold State.deductOrder State.drew
  split
  · rfl
  · dsimp only
    split <;> rfl

/-- A record that a drop's end or a deduction has changed: the drops and the flags only. -/
def DropsChanged (r r' : Record) : Prop := { r' with drops := r.drops, flags := r.flags } = r

theorem DropsChanged.refl (r : Record) : DropsChanged r r := rfl

theorem DropsChanged.trans {a b c : Record} (h : DropsChanged a b) (k : DropsChanged b c) : DropsChanged a c := by
  unfold DropsChanged at *
  rw [← h, ← k]

theorem dropsChanged_dropEnded (cause : EndCause) (r : Record) : DropsChanged r (r.dropEnded cause) := rfl

/-- A record from whose last DONE drop a deduction is made (R84). -/
def Record.deducted (g n : Nat) (r : Record) : Record :=
  { r with
    drops := modLastDone (Drop.deduct g n) r.drops
    flags := { r.flags with reverseDeducted := r.flags.reverseDeducted || r.drops.any Drop.isDone } }

theorem deductOrder_balance {s : State} {l : Line} {stop : Nat} (h : (s.line l).reverse ≠ 0) :
    ∃ g n, s.deductOrder l stop = (s.modRec stop (Record.deducted g n)).drew (s.lacksFactors l) := ⟨_, _, if_neg h⟩

/-- What a deduction leaves of the records. -/
theorem record_deductOrder {s : State} {l : Line} {stop : Nat} {r : Record} (hr : s.recOf stop = some r) :
    OneRecord stop s (s.deductOrder l stop) ∧ ∃ r', (s.deductOrder l stop).recOf stop = some r' ∧ DropsChanged r r' := by
  by_cases h : (s.line l).reverse = 0
  · rw [deductOrder_zero h]
    exact ⟨.of_slots rfl, r, hr, .refl r⟩
  · obtain ⟨g, n, hd⟩ := deductOrder_balance (stop := stop) h
    rw [hd]
    refine ⟨(OneRecord.modRec s stop (Record.deducted g n) fun _ => rfl).trans (.of_slots (drew_slots ..)), r.deducted g n, ?_, rfl⟩
    rw [recOf_of_slots (drew_slots ..), recOf_modRec_same s stop (Record.deducted g n) fun _ => rfl, hr]
    rfl

/-! ## A ticket's number given and its blocks applied (R18, R172 to R174) -/

/-- The record frozen under its number, its line without the reservation (R18, R19). -/
def State.numbered (s : State) (l : Line) (stop : Nat) (k : Ticket) : State :=
  (({ s with counter := k.number } : State).changeRec stop (Record.ticketed k)).modLine l (fun c => { c with reserved := false })

/-- A ticket beyond the load block's last number applied there, its entry put behind the record's (R34, R172). -/
def State.applyLoad (s : State) (draw : Nat) (k : Ticket) : State :=
  if s.load.lastApplied < k.number then (s.modLoad (fun x => x.apply draw k)).requeue (.block .load) else s

/-- A ticket beyond the route block's last number applied there (R34, R172). -/
def State.applyRoute (s : State) (k : Ticket) : State :=
  if s.route.lastApplied < k.number then (s.modRoute (fun x => x.apply k)).requeue (.block .route) else s

theorem load_applyLoad (s : State) (draw : Nat) (k : Ticket) : (s.applyLoad draw k).load = s.load.apply draw k := by
  unfold State.applyLoad LoadBlock.apply
  split
  · next h => exact if_pos h
  · rfl

theorem route_applyRoute (s : State) (k : Ticket) : (s.applyRoute k).route = s.route.apply k := by
  unfold State.applyRoute RouteBlock.apply
  split
  · next h => exact if_pos h
  · rfl

/-- Applying to the load block touches that block and the queue alone. -/
theorem applyLoad_eq (s : State) (draw : Nat) (k : Ticket) :
    s.applyLoad draw k = { s with load := (s.applyLoad draw k).load, queue := (s.applyLoad draw k).queue } := by
  unfold State.applyLoad; split <;> rfl

theorem applyRoute_eq (s : State) (k : Ticket) :
    s.applyRoute k = { s with route := (s.applyRoute k).route, queue := (s.applyRoute k).queue } := by
  unfold State.applyRoute; split <;> rfl

section
variable (s : State) (l : Line) (stop : Nat) (k : Ticket)

theorem load_numbered : (s.numbered l stop k).load = s.load := enqueue_load ..
theorem route_numbered : (s.numbered l stop k).route = s.route := enqueue_route ..

theorem closeIntoTicket_eq : s.closeIntoTicket l stop k
    = (((s.numbered l stop k).applyLoad s.fresh k).applyRoute k).drew (s.items l).hose.isNone := by
  have hroute : ((s.numbered l stop k).applyLoad s.fresh k).route = s.route := by
    rw [applyLoad_eq]
    exact route_numbered s l stop k
  unfold State.applyRoute
  rw [hroute]
  unfold State.applyLoad
  rw [load_numbered]
  rfl

theorem RunOnly.numbered : RunOnly l s (s.numbered l stop k) :=
  ((RunOnly.counted l s k.number).trans (.of_lineOnly (.changeRec l _ stop _))).trans
    (.of_lineOnly (.modLine _ l (fun c => { c with reserved := false }) fun _ => rfl))

variable {l}

theorem RunOnly.applyLoad (draw : Nat) : RunOnly l s (s.applyLoad draw k) := by
  unfold State.applyLoad
  split
  · exact (RunOnly.modLoad ..).trans (.requeue ..)
  · exact .refl l s

theorem RunOnly.applyRoute : RunOnly l s (s.applyRoute k) := by
  unfold State.applyRoute
  split
  · exact (RunOnly.modRoute ..).trans (.requeue ..)
  · exact .refl l s

variable (l)

theorem RunOnly.closeIntoTicket : RunOnly l s (s.closeIntoTicket l stop k) := by
  rw [closeIntoTicket_eq]
  exact (((RunOnly.numbered s l stop k).trans (.applyLoad ..)).trans (.applyRoute ..)).trans (.drew ..)

/-- What a ticket's number and its application leave in the state. -/
theorem closeIntoTicket_fields :
    (s.closeIntoTicket l stop k).slots = (s.changeRec stop (Record.ticketed k)).slots
      ∧ (s.closeIntoTicket l stop k).counter = k.number ∧ (s.closeIntoTicket l stop k).load = s.load.apply s.fresh k
      ∧ (s.closeIntoTicket l stop k).route = s.route.apply k ∧ (s.closeIntoTicket l stop k).settings = s.settings
      ∧ (s.closeIntoTicket l stop k).meters = s.meters ∧ (s.closeIntoTicket l stop k).pump = s.pump
      ∧ (s.closeIntoTicket l stop k).attention = s.attention := by
  have hslots : (s.numbered l stop k).slots = (s.changeRec stop (Record.ticketed k)).slots :=
    (enqueue_slots ..).trans (enqueue_slots (s.modRec stop (Record.ticketed k)) _).symm
  have hload : ((s.numbered l stop k).applyLoad s.fresh k).load = s.load.apply s.fresh k := by rw [load_applyLoad, load_numbered]
  have hroute : (((s.numbered l stop k).applyLoad s.fresh k).applyRoute k).route = s.route.apply k := by
    rw [route_applyRoute, applyLoad_eq]
    exact congrArg (RouteBlock.apply · k) (route_numbered s l stop k)
  rw [closeIntoTicket_eq]
  simp only [drew_slots, drew_counter, drew_load, drew_route, drew_settings, drew_meters, drew_pump, drew_attention]
  refine ⟨?_, ?_, ?_, hroute, ?_, ?_, ?_, ?_⟩
  all_goals rw [applyRoute_eq]
  · rw [applyLoad_eq]
    exact hslots
  · rw [applyLoad_eq]
    exact enqueue_counter ..
  · exact hload
  · rw [applyLoad_eq]
    exact enqueue_settings ..
  · rw [applyLoad_eq]
    exact enqueue_meters ..
  · rw [applyLoad_eq]
    exact enqueue_pump ..
  · rw [applyLoad_eq]
    exact enqueue_attention ..

theorem mem_queue_requeue {s : State} {k j : Key} (h : j ∈ s.queue) : j ∈ (s.requeue k).queue := by
  by_cases hj : j = k
  · subst hj
    simp
  · simp [List.mem_erase_of_ne hj, h]

/-- What a ticket's application does with the queue. -/
theorem mem_queue_applyLoad {s : State} {draw : Nat} {k : Ticket} :
    (∀ j ∈ s.queue, j ∈ (s.applyLoad draw k).queue)
      ∧ (s.load.lastApplied < k.number → Key.block .load ∈ (s.applyLoad draw k).queue) := by
  unfold State.applyLoad
  split
  · exact ⟨fun j hj => mem_queue_requeue (s := s.modLoad _) hj, fun _ => mem_requeue ..⟩
  · next h => exact ⟨fun _ hj => hj, fun hlt => absurd hlt h⟩

theorem mem_queue_applyRoute {s : State} {k : Ticket} :
    (∀ j ∈ s.queue, j ∈ (s.applyRoute k).queue)
      ∧ (s.route.lastApplied < k.number → Key.block .route ∈ (s.applyRoute k).queue) := by
  unfold State.applyRoute
  split
  · exact ⟨fun j hj => mem_queue_requeue (s := s.modRoute _) hj, fun _ => mem_requeue ..⟩
  · next h => exact ⟨fun _ hj => hj, fun hlt => absurd hlt h⟩

/-- An entry at the head that is not the block's own stays there. -/
theorem head_queue_applyLoad {s : State} {draw : Nat} {k : Ticket} {j : Key} (hj : j ≠ .block .load) (h : ∃ q, s.queue = j :: q) :
    ∃ q, (s.applyLoad draw k).queue = j :: q := by
  obtain ⟨q, hq⟩ := h
  unfold State.applyLoad
  split
  · exact ⟨q.erase (.block .load) ++ [.block .load], by simp [hq, hj]⟩
  · exact ⟨q, hq⟩

theorem head_queue_applyRoute {s : State} {k : Ticket} {j : Key} (hj : j ≠ .block .route) (h : ∃ q, s.queue = j :: q) :
    ∃ q, (s.applyRoute k).queue = j :: q := by
  obtain ⟨q, hq⟩ := h
  unfold State.applyRoute
  split
  · exact ⟨q.erase (.block .route) ++ [.block .route], by simp [hq, hj]⟩
  · exact ⟨q, hq⟩

/-- An entry put at the tail leaves the head. -/
theorem head_queue_enqueue {s : State} {j k : Key} (h : ∃ q, s.queue = j :: q) : ∃ q, (s.enqueue k).queue = j :: q := by
  obtain ⟨q, hq⟩ := h
  rw [queue_enqueue]
  split
  · exact ⟨q, hq⟩
  · exact ⟨q ++ [k], by rw [hq]; rfl⟩

theorem queue_closeIntoTicket :
    (∀ j ∈ s.queue, j ∈ (s.closeIntoTicket l stop k).queue) ∧ .record stop ∈ (s.closeIntoTicket l stop k).queue
      ∧ (s.load.lastApplied < k.number → Key.block .load ∈ (s.closeIntoTicket l stop k).queue)
      ∧ (s.route.lastApplied < k.number → Key.block .route ∈ (s.closeIntoTicket l stop k).queue)
      ∧ (s.queue = [] → ∃ q, (s.closeIntoTicket l stop k).queue = .record stop :: q)
      ∧ ∀ j, j ≠ .block .load → j ≠ .block .route → (∃ q, s.queue = j :: q) → ∃ q, (s.closeIntoTicket l stop k).queue = j :: q := by
  have hqueue : (s.numbered l stop k).queue = (s.enqueue (.record stop)).queue :=
    (queue_changeRec ({ s with counter := k.number } : State) stop _).trans (queue_enqueue_congr (s := s) (u := { s with counter := k.number }) rfl _)
  have hloadmem := mem_queue_applyLoad (s := s.numbered l stop k) (draw := s.fresh) (k := k)
  have hroutemem := mem_queue_applyRoute (s := (s.numbered l stop k).applyLoad s.fresh k) (k := k)
  have hroute : ((s.numbered l stop k).applyLoad s.fresh k).route = s.route := by
    rw [applyLoad_eq]
    exact route_numbered s l stop k
  rw [load_numbered] at hloadmem
  rw [hroute] at hroutemem
  rw [closeIntoTicket_eq, drew_queue]
  refine ⟨fun j hj => ?_, ?_, fun h => ?_, hroutemem.2, fun h => ?_, fun j hload hroute h => ?_⟩
  · exact hroutemem.1 j (hloadmem.1 j (by rw [hqueue]; exact mem_enqueue_of_mem _ _ _ hj))
  · exact hroutemem.1 _ (hloadmem.1 _ (by rw [hqueue]; exact mem_enqueue ..))
  · exact hroutemem.1 _ (hloadmem.2 h)
  · exact head_queue_applyRoute nofun (head_queue_applyLoad nofun ⟨[], by rw [hqueue, queue_enqueue, h]; rfl⟩)
  · exact head_queue_applyRoute hroute (head_queue_applyLoad hload (by rw [hqueue]; exact head_queue_enqueue h))

end

end Sys2Proof.Machine
end

