-- ==== Sys2Proof/Proofs/OrderEnds.lean ====
section
/-! PROOFS. The end of an ORDER run. -/

open Sys2Proof Sys2Proof.Machine

namespace Sys2Proof.Machine

/-! ## The end of an ORDER run (R17, R18, R112) -/

/-- The ticket of a record whose run ends in a state (R18). -/
def State.ticketOf (s : State) (l : Line) (cause : EndCause) (r : Record) : Ticket := s.buildTicket l r (s.bindingOf l r) cause

section
variable {s : State} {l : Line} {stop : Nat} {cause : EndCause} {r : Record}
  (h : (s.deductOrder l stop).recOf stop = some r)
include h

theorem endOrder_planned (hz : r.doneNet = 0) : s.endOrder l stop cause =
    ⟨((s.deductOrder l stop).changeRec stop Record.returned).restAfterRun l, [.kw .PLANNED, .num (satAdd 255 r.attempts 1)],
      [.record stop]⟩ := by
  simp only [State.endOrder, h]
  exact if_pos hz

theorem endOrder_ticketed (hz : r.doneNet ≠ 0) : s.endOrder l stop cause =
    ⟨((s.deductOrder l stop).closeIntoTicket l stop ((s.deductOrder l stop).ticketOf l cause r)).restAfterRun l,
      [.kw .TICKETED, .num ((s.deductOrder l stop).ticketOf l cause r).number],
      (s.deductOrder l stop).closeKeys stop ((s.deductOrder l stop).ticketOf l cause r)⟩ := by
  simp only [State.endOrder, h]
  exact if_neg hz

end

/-- What the end of an ORDER run makes of its record, the counter and the blocks: `v` is the state before it, its drop ended and its balance deducted, `r` the record there. -/
structure OrderOutcome (l : Line) (stop : Nat) (cause : EndCause) (r : Record) (v u : State) : Prop where
  planned : r.doneNet = 0 → u.recOf stop = some r.returned ∧ u.counter = v.counter ∧ u.load = v.load ∧ u.route = v.route
  ticketed : r.doneNet ≠ 0 → u.recOf stop = some (r.ticketed (v.ticketOf l cause r)) ∧ u.counter = v.counter + 1
    ∧ u.load = v.load.apply v.fresh (v.ticketOf l cause r) ∧ u.route = v.route.apply (v.ticketOf l cause r)
    ∧ (v.load.lastApplied ≤ v.counter → Key.block .load ∈ u.queue) ∧ (v.route.lastApplied ≤ v.counter → Key.block .route ∈ u.queue)

/-- The end of an ORDER run, from a state whose record is `r`. -/
structure OrderEnd (l : Line) (stop : Nat) (s : State) (e : RunEnd) : Prop where
  run : RunOnly l s e.st
  rest : (e.st.line l).isAtRest (s.restState l)
  left : left l s e.st
  settings : e.st.settings = s.settings
  one : OneRecord stop s e.st
  keys : ∃ ks, e.keys = .record stop :: ks
  mem : .record stop ∈ e.st.queue
  keep : ∀ j ∈ s.queue, j ∈ e.st.queue
  first : s.queue = [] → ∃ q, e.st.queue = .record stop :: q
  head : ∀ j, j ≠ .block .load → j ≠ .block .route → (∃ q, s.queue = j :: q) → ∃ q, e.st.queue = j :: q
  faulted : e.st.line l = LineCtx.rest (s.restState l) (e.st.line l)

/-- What coming to rest adds to a run's end. -/
theorem orderEnd_of {l : Line} {stop : Nat} {s w : State} {fields : List Tok} {ks : List Key} (hrun : RunOnly l s w)
    (hsettings : w.settings = s.settings) (hmeters : w.meters = s.meters) (hpump : w.pump = s.pump) (hone : OneRecord stop s w)
    (hmem : .record stop ∈ w.queue) (hkeep : ∀ j ∈ s.queue, j ∈ w.queue) (hfirst : s.queue = [] → ∃ q, w.queue = .record stop :: q)
    (hhead : ∀ j, j ≠ .block .load → j ≠ .block .route → (∃ q, s.queue = j :: q) → ∃ q, w.queue = j :: q) :
    OrderEnd l stop s ⟨w.restAfterRun l, fields, .record stop :: ks⟩ := by
  have hstate : w.restState l = s.restState l := restState_congr (congrArg (·.get l) hmeters) hsettings
  have hqueue : (w.restAfterRun l).queue = w.queue := read_restAfterRun w l State.queue
  have hslots : (w.restAfterRun l).slots = w.slots := read_restAfterRun w l State.slots
  have hline := line_restAfterRun w l
  rw [hstate] at hline
  refine ⟨hrun.trans (.restAfterRun w l), ?_, left_of_pump (left_restAfterRun w l) hpump.symm rfl,
    (read_restAfterRun w l State.settings).trans hsettings, hone.trans (.of_slots hslots), ⟨ks, rfl⟩, ?_, ?_, ?_, ?_, ?_⟩
  · show ((w.restAfterRun l).line l).isAtRest _
    rw [hline]
    exact isAtRest_rest ..
  · exact hqueue ▸ hmem
  · exact fun j hj => hqueue ▸ hkeep j hj
  · exact fun h => hqueue ▸ hfirst h
  · exact fun j h1 h2 h => hqueue ▸ hhead j h1 h2 h
  · show (w.restAfterRun l).line l = LineCtx.rest _ ((w.restAfterRun l).line l)
    rw [hline]
    rfl

/-- The end of an ORDER run whose record stands in the table. -/
theorem endOrder_spec {s : State} {l : Line} {stop : Nat} {r : Record} (cause : EndCause) (hr : s.recOf stop = some r) :
    OrderEnd l stop s (s.endOrder l stop cause) ∧ ∃ ended, (s.deductOrder l stop).recOf stop = some ended ∧ DropsChanged r ended
      ∧ OrderOutcome l stop cause ended (s.deductOrder l stop) (s.endOrder l stop cause).st := by
  obtain ⟨v, hv⟩ : ∃ v, v = s.deductOrder l stop := ⟨_, rfl⟩
  have heq : v = { s with slots := v.slots, fresh := v.fresh } := hv ▸ deductOrder_eq s l stop
  have key : ∀ {α : Type} (g : State → α), g v = g { s with slots := v.slots, fresh := v.fresh } := fun g => congrArg g heq
  have hrun : RunOnly l s v := hv ▸ RunOnly.deductOrder s l stop
  obtain ⟨hone, ended, hended, hchanged⟩ := record_deductOrder (l := l) hr
  rw [← hv] at hone hended
  have hrec : ∀ f : Record → Record, (∀ r, (f r).stop = r.stop) → (v.changeRec stop f).recOf stop = some (f ended) := fun f hf => by
    rw [recOf_changeRec_same v stop f hf, hended]
    rfl
  by_cases hz : ended.doneNet = 0
  · have hend := endOrder_planned (cause := cause) (hv ▸ hended) hz
    rw [← hv] at hend
    obtain ⟨w, hw⟩ : ∃ w, w = v.changeRec stop Record.returned := ⟨_, rfl⟩
    rw [← hw] at hend
    have hqueue : w.queue = (s.enqueue (.record stop)).queue := by
      rw [hw, queue_changeRec]
      exact queue_enqueue_congr (s := s) (key State.queue) _
    refine ⟨?_, ended, hv ▸ hended, hchanged, ⟨fun _ => ?_, fun h => absurd hz h⟩⟩
    · rw [hend]
      refine orderEnd_of (hrun.trans (hw ▸ .of_lineOnly (.changeRec l v stop _))) ?_ ?_ ?_
        (hone.trans (hw ▸ .changeRec v stop Record.returned fun _ => rfl)) ?_ ?_ ?_ ?_
      · rw [hw]; exact (enqueue_settings ..).trans (key State.settings)
      · rw [hw]; exact (enqueue_meters ..).trans (key State.meters)
      · rw [hw]; exact (enqueue_pump ..).trans (key State.pump)
      · rw [hqueue]; exact mem_enqueue ..
      · exact fun j hj => by rw [hqueue]; exact mem_enqueue_of_mem _ _ _ hj
      · exact fun h => ⟨[], by rw [hqueue, queue_enqueue, h]; rfl⟩
      · exact fun j _ _ h => by rw [hqueue]; exact head_queue_enqueue h
    · rw [hend, ← hv]
      refine ⟨?_, ?_, ?_, ?_⟩
      · rw [recOf_of_slots (t := w.restAfterRun l) (s := w) (read_restAfterRun w l State.slots), hw]
        exact hrec Record.returned fun _ => rfl
      · exact (read_restAfterRun w l State.counter).trans (by rw [hw]; exact enqueue_counter ..)
      · exact (read_restAfterRun w l State.load).trans (by rw [hw]; exact enqueue_load ..)
      · exact (read_restAfterRun w l State.route).trans (by rw [hw]; exact enqueue_route ..)
  · have hend := endOrder_ticketed (cause := cause) (hv ▸ hended) hz
    rw [← hv] at hend
    obtain ⟨k, hk⟩ : ∃ k, k = v.ticketOf l cause ended := ⟨_, rfl⟩
    obtain ⟨w, hw⟩ : ∃ w, w = v.closeIntoTicket l stop k := ⟨_, rfl⟩
    rw [← hk, ← hw] at hend
    obtain ⟨hslots, hcounter, hload, hroute, hsettings, hmeters, hpump, -⟩ := closeIntoTicket_fields v l stop k
    obtain ⟨hkeep, hmem, hloadmem, hroutemem, hfirst, hhead⟩ := queue_closeIntoTicket v l stop k
    rw [← hw] at hslots hcounter hload hroute hsettings hmeters hpump hkeep hmem hloadmem hroutemem hfirst hhead
    have hsqueue : v.queue = s.queue := key State.queue
    have hnumber : k.number = v.counter + 1 := by rw [hk]; rfl
    refine ⟨?_, ended, hv ▸ hended, hchanged, ⟨fun h => absurd h hz, fun _ => ?_⟩⟩
    · rw [hend]
      exact orderEnd_of (hrun.trans (hw ▸ .closeIntoTicket v l stop k)) (hsettings.trans (key State.settings))
        (hmeters.trans (key State.meters)) (hpump.trans (key State.pump))
        (hone.trans ((OneRecord.changeRec v stop (Record.ticketed k) fun _ => rfl).trans (.of_slots hslots))) hmem
        (hsqueue ▸ hkeep) (hsqueue ▸ hfirst) (hsqueue ▸ hhead)
    · rw [hend, ← hv, ← hk]
      refine ⟨?_, ?_, (read_restAfterRun w l State.load).trans hload, (read_restAfterRun w l State.route).trans hroute, fun h => ?_, fun h => ?_⟩
      · rw [recOf_of_slots ((read_restAfterRun w l State.slots).trans hslots)]
        exact hrec (Record.ticketed k) fun _ => rfl
      · exact ((read_restAfterRun w l State.counter).trans hcounter).trans hnumber
      · exact by rw [show (w.restAfterRun l).queue = w.queue from read_restAfterRun w l State.queue]; exact hloadmem (by omega)
      · exact by rw [show (w.restAfterRun l).queue = w.queue from read_restAfterRun w l State.queue]; exact hroutemem (by omega)

end Sys2Proof.Machine
end

