-- ==== Sys2Proof/Proofs/ClosedRuns.lean ====
section
/-! PROOFS. A run that closes by a command, and LN.ENDDROP in PAUSED. -/

open Sys2Proof Sys2Proof.Machine

namespace Sys2Proof.Machine

/-! ## A run that closes (R111) -/

section
variable {s : State} {l : Line} {stop : Nat} (hk : (s.line l).kind = some .order) (hb : (s.line l).bound = some stop)
include hk hb

theorem endRun_order (cause : EndCause) : s.endRun l cause = s.endOrder l stop cause := by
  rw [State.endRun, hk, hb]

theorem closeRun_order (cause : EndCause) : s.closeRun l cause = (s.endDrop l cause).endOrder l stop cause :=
  endRun_order (by rw [line_endDrop]; exact hk) (by rw [line_endDrop]; exact hb) cause

/-- An ORDER run that closes: its drop ends, its balance is deducted, and its record is decided. -/
theorem closeRun_spec {r : Record} (cause : EndCause) (hr : s.recOf stop = some r) :
    OrderEnd l stop s (s.closeRun l cause) ∧ ∃ ended, ((s.endDrop l cause).deductOrder l stop).recOf stop = some ended
      ∧ DropsChanged r ended
      ∧ OrderOutcome l stop cause ended ((s.endDrop l cause).deductOrder l stop) (s.closeRun l cause).st := by
  obtain ⟨v, hv⟩ : ∃ v, v = s.endDrop l cause := ⟨_, rfl⟩
  have heq : v = { s with slots := v.slots, lines := v.lines } := hv ▸ endDrop_eq s l cause
  have key : ∀ {α : Type} (g : State → α), g v = g { s with slots := v.slots, lines := v.lines } := fun g => congrArg g heq
  have hvr : v.recOf stop = some (r.dropEnded cause) := hv ▸ recOf_endDrop hb cause hr
  have hstate : v.restState l = s.restState l :=
    restState_congr (hv ▸ meter_endDrop s l l cause) (key State.settings)
  have hqueue : v.queue = s.queue := key State.queue
  obtain ⟨hend, ended, hended, hchanged, houtcome⟩ := endOrder_spec cause hvr
  rw [closeRun_order hk hb, ← hv]
  refine ⟨⟨(hv ▸ RunOnly.of_lineOnly (.endDrop s l cause)).trans hend.run, hstate ▸ hend.rest,
    left_of_pump hend.left (key State.pump).symm rfl, hend.settings.trans (key State.settings),
    (hv ▸ oneRecord_endDrop hb cause).trans hend.one, hend.keys, hend.mem, hqueue ▸ hend.keep, hqueue ▸ hend.first,
    hqueue ▸ hend.head, hstate ▸ hend.faulted⟩, ended, hended, (dropsChanged_dropEnded cause r).trans hchanged, houtcome⟩

end

/-! ## A run's end answered by its command (R111, R193) -/

/-- The line's context waiting for one more run end. -/
def LineCtx.waiting (w : Waiter) (c : LineCtx) : LineCtx := { c with endWaits := c.endWaits ++ [w] }

/-- What a command's answer adds to a run's end: at most an item that waits for its writes. -/
theorem byCommand_eq (e : RunEnd) (l : Line) : e.byCommand l = e.st ∨ e.byCommand l = e.st.modLine l (LineCtx.waiting (.on e.keys)) := by
  unfold RunEnd.byCommand
  split
  · exact .inr rfl
  · exact .inl rfl

theorem core_waiting (s : State) (l k : Line) (w : Waiter) : ((s.modLine l (LineCtx.waiting w)).line k).core = (s.line k).core := by
  by_cases h : k = l
  · subst h
    rw [line_modLine_same]
    rfl
  · rw [line_modLine_of_ne s _ h]

theorem noEndDue_waiting {s : State} {l : Line} {w : Waiter} (h : noEndDue s) (hw : w.over = false) :
    noEndDue (s.modLine l (LineCtx.waiting w)) := by
  obtain ⟨h1, h2⟩ := h
  cases l
  · refine ⟨?_, h2⟩
    show (s.lines.one.endWaits ++ [w]).any Waiter.over = false
    simp [h1, hw]
  · refine ⟨h1, ?_⟩
    show (s.lines.two.endWaits ++ [w]).any Waiter.over = false
    simp [h2, hw]

theorem over_on_cons (k : Key) (ks : List Key) : (Waiter.on (k :: ks)).over = false := rfl

/-- What is read of a run's end, and not of who waits for it. -/
structure Answered (e : RunEnd) (l : Line) (u : State) : Prop where
  eq : u = { e.st with lines := u.lines }
  core : ∀ k, (u.line k).core = (e.st.line k).core
  ends : noEndDue e.st → noEndDue u

theorem answered_byCommand {e : RunEnd} (l : Line) (h : ∃ k ks, e.keys = k :: ks) : Answered e l (e.byCommand l) := by
  obtain ⟨k, ks, hks⟩ := h
  rcases byCommand_eq e l with h | h
  · rw [h]
    exact ⟨rfl, fun _ => rfl, id⟩
  · rw [h]
    exact ⟨rfl, fun j => core_waiting e.st l j _, fun hn => noEndDue_waiting hn (by rw [hks]; rfl)⟩

/-- A command that ends an ORDER run: what the end gives, with its writes asked for. -/
theorem exec_endNow {i : Instr} {w : CmdWord} {s : State} {l : Line} {stop : Nat} {e : RunEnd} {r : Record} (hw : commandWord i = some w)
    (hh : s.hears = true) (hs : s.settled = true) (hroom : s.roomy = true) (hend : OrderEnd l stop s.lineTaken e)
    (hrec : e.st.recOf stop = some r) (hj : judgeCommand i s.lineTaken = endNow e l) :
    ∃ t, exec i s = .next t ∧ Written w (.ready [e.fields]) (e.byCommand l) t ∧ t.recOf stop = some r ∧ asked t (.record stop)
      ∧ sameRecordsBut stop s t ∧ left l s t ∧ (t.line l).isAtRest (s.restState l) ∧ t.settings = s.settings
      ∧ sameLine s t l.other := by
  obtain ⟨-, -, hends, -⟩ := (settled_iff s).1 hs
  obtain ⟨ks, hks⟩ := hend.keys
  have hanswered := answered_byCommand l ⟨_, ks, hks⟩
  obtain ⟨u, hu⟩ : ∃ u, u = e.byCommand l := ⟨_, rfl⟩
  rw [← hu] at hanswered
  have key : ∀ {α : Type} (g : State → α), g u = g { e.st with lines := u.lines } := fun g => congrArg g hanswered.eq
  have hslots : u.slots = e.st.slots := key State.slots
  have hqueue : u.queue = e.st.queue := key State.queue
  have hj' : judgeCommand i s.lineTaken = .ok ⟨u, .ready [e.fields], .record stop :: ks⟩ := by rw [hj, endNow, hks, hu]
  obtain ⟨t, ht, hwritten, htr, hasked, hothers⟩ := exec_oneRecord hw hh hs hroom hj' ((key State.phase).trans hend.run.phase)
    ((key State.flight).trans hend.run.flight) (hanswered.ends (hend.run.noEndDue hends))
    ((recOf_of_slots hslots stop).trans hrec) (((OneRecord.of_slots rfl : OneRecord stop s s.lineTaken).trans hend.one).trans (.of_slots hslots)) (hqueue ▸ hend.first) (hqueue ▸ hend.mem)
    ((key State.unsaved).trans hend.run.unsaved)
  refine ⟨t, ht, hu ▸ hwritten, htr, hasked, hothers, left_of_pump hend.left rfl (hwritten.pump.trans (key State.pump)), ?_,
    hwritten.settings.trans ((key State.settings).trans hend.settings), ?_, ?_⟩
  · show (t.line l).core.isAtRest _
    rw [hwritten.core l, hanswered.core l]
    exact hend.rest
  · rw [hwritten.core, hanswered.core, hend.run.otherLine]
    rfl
  · rw [hwritten.attention]
    exact (congrArg (·.get l.other) (key State.attention)).trans hend.run.otherItem

theorem judgeLnClose_paused {s : State} {l : Line} (hst : (s.line l).st = .paused) (hsaved : s.boundIsUnsaved l = false) :
    judgeLnClose l.num s = endNow (s.closeRun l .driver) l := by
  rw [judgeLnClose, withLine_num, hst]
  exact if_neg (by simp [hsaved])

end Sys2Proof.Machine

/-- Settles O37: a drop ends and the line pauses anew, or the run closes as LN.CLOSE closes it. -/
theorem lnEnddropInPause : Obligations.LnEnddropInPause := by
  refine ⟨fun l stop n r d a s hh hs hroom hst hk hb hr hsaved hpulser hstore hactive hd hn honlyActive => ?_,
    fun l stop n r d s hh hs hroom hst hk hb hr hsaved hpulser hstore hactive hn => ?_⟩
  · have hfault := faultPaused_eq_false (s := s.lineTaken) hb hsaved hpulser hstore
    have hbound := boundRec_eq (s := s.lineTaken) hb hr
    have hlast : ¬ s.lineTaken.onLastDrop l = true := by
      rw [onLastDrop_order (s := s.lineTaken) hk hbound hactive, beq_iff_eq]
      omega
    have hj : judgeCommand (.lnEnddrop l.num) s.lineTaken
        = taken ((s.lineTaken.endDrop l .driver).enterPaused l .dropEnd) stop (item .LINE l.num ++ [.kw .DROP_END]) := by
      refine (judgeLnEnddrop_paused (s := s.lineTaken) hst hk hbound hfault (by simp [hactive])).trans ((if_neg hlast).trans ?_)
      rw [endDropPaused, recOf_stop s stop r hr]
    obtain ⟨v, hv⟩ : ∃ v, v = s.lineTaken.endDrop l .driver := ⟨_, rfl⟩
    have hvb : (v.line l).bound = some stop := by rw [hv, line_endDrop]; exact hb
    have honly : LineOnly l s.lineTaken (v.enterPaused l .dropEnd) := hv ▸ endDropPaused_onlyLine s.lineTaken l
    have hqueue : (v.enterPaused l .dropEnd).queue = (s.enqueue (.record stop)).queue := by
      rw [(store_enterPaused hvb .dropEnd).2, hv]
      refine queue_enqueue_congr (s := s) ?_ _
      rw [endDrop_eq]
      rfl
    obtain ⟨-, -, hends, -⟩ := (settled_iff s).1 hs
    rw [← hv] at hj
    obtain ⟨t, ht, hwritten, hrec, hasked, hothers⟩ := exec_oneRecord rfl hh hs hroom hj honly.phase honly.flight (honly.noEndDue hends)
      (recOf_enterPaused hvb .dropEnd (hv ▸ recOf_endDrop (s := s.lineTaken) hb .driver hr))
      ((hv ▸ (OneRecord.of_slots rfl : OneRecord stop s s.lineTaken).trans (oneRecord_endDrop (s := s.lineTaken) hb .driver) :
        OneRecord stop s v).trans (oneRecord_enterPaused hvb .dropEnd))
      (fun h => ⟨[], by rw [hqueue, queue_enqueue, h]; rfl⟩) (by rw [hqueue]; exact mem_enqueue ..) honly.unsaved
    have hkeeps := hwritten.toCommitKeeps
    have hcore := hkeeps.core l
    rw [line_enterPaused] at hcore
    have hlatched : v.latchedOf l = s.latchedOf l := by
      refine latchedOf_congr (by rw [hv, line_endDrop]; rfl) ?_
      rw [hv, endDrop_eq]
      rfl
    have hmeter : (v.enterPaused l .dropEnd).meter l = s.meter l :=
      (congrArg (·.get l) (meters_enterPaused ..)).trans (hv ▸ meter_endDrop s.lineTaken l l .driver)
    obtain ⟨hnth, -⟩ := nth1_of_findDrop hactive
    refine ⟨t, _, _, ht, hwritten.progress, hrec, ?_, fun j hne => ?_, rfl, rfl, congrArg LineCtx.st hcore, congrArg LineCtx.cause hcore,
      ?_, ?_, ?_, hasked, hothers, honly.frame_blocks hkeeps, honly.frame_allTruck hkeeps hmeter, honly.frame_other hkeeps, ?_⟩
    · show nth1 (r.drops.map (Drop.finish .driver)) n = _
      rw [nth1_map, hnth, ← finish_active hd]
      rfl
    · show nth1 (r.drops.map (Drop.finish .driver)) j = _
      rw [nth1_map]
      cases he : nth1 r.drops j with
      | none => rfl
      | some e =>
        have hidle : e.isActive = false := Bool.eq_false_iff.2 fun hact => hne (honlyActive j e he hact)
        exact congrArg some (finish_other hidle .driver)
    · refine (congrArg LineCtx.limit hcore).trans ?_
      rw [hv, line_endDrop]
      rfl
    · refine (congrArg LineCtx.timers hcore).trans ?_
      rw [hlatched]
      rfl
    · rw [hkeeps.attention]
      exact attention_enterPaused ..
    · refine hkeeps.pump.trans ((pump_enterPaused ..).trans ?_)
      rw [hv, endDrop_eq]
      rfl
  · have hfault := faultPaused_eq_false (s := s.lineTaken) hb hsaved hpulser hstore
    have hbound := boundRec_eq (s := s.lineTaken) hb hr
    have hlast : s.lineTaken.onLastDrop l = true := by
      rw [onLastDrop_order (s := s.lineTaken) hk hbound hactive, beq_iff_eq]
      exact hn
    obtain ⟨-, -, hends, -⟩ := (settled_iff s).1 hs
    obtain ⟨hend, ended, hended, -, houtcome⟩ := closeRun_spec (s := s.lineTaken) hk hb .driver hr
    obtain ⟨e, he⟩ : ∃ e, e = s.lineTaken.closeRun l .driver := ⟨_, rfl⟩
    rw [← he] at hend houtcome
    obtain ⟨ks, hks⟩ := hend.keys
    have hanswered := answered_byCommand l ⟨_, ks, hks⟩
    have hok : endNow e l = .ok ⟨e.byCommand l, .ready [e.fields], .record stop :: ks⟩ := by rw [endNow, hks]
    have hje : judgeCommand (.lnEnddrop l.num) s.lineTaken = .ok ⟨e.byCommand l, .ready [e.fields], .record stop :: ks⟩ := by
      rw [← hok, he]
      exact (judgeLnEnddrop_paused (s := s.lineTaken) hst hk hbound hfault (by simp [hactive])).trans (if_pos hlast)
    have hjc : judgeCommand (.lnClose l.num) s.lineTaken = .ok ⟨e.byCommand l, .ready [e.fields], .record stop :: ks⟩ := by
      rw [← hok, he]
      exact judgeLnClose_paused (s := s.lineTaken) hst ((boundIsUnsaved_eq (s := s.lineTaken) hb).trans (decide_eq_false hsaved))
    obtain ⟨u, hu⟩ : ∃ u, u = e.byCommand l := ⟨_, rfl⟩
    rw [← hu] at hanswered hje hjc
    have key : ∀ {α : Type} (g : State → α), g u = g { e.st with lines := u.lines } := fun g => congrArg g hanswered.eq
    obtain ⟨t, v, ht, hv, hpt, hpv, htwin⟩ := exec_twins (i := .lnEnddrop l.num) (j := .lnClose l.num) rfl rfl hh hs hje hjc
      ((key State.phase).trans hend.run.phase) ((key State.flight).trans hend.run.flight)
      (hanswered.ends (hend.run.noEndDue hends)) fun hnone hempty => by
        obtain ⟨q, hq⟩ := hend.first hempty
        obtain ⟨r', hr'⟩ : ∃ r', e.st.recOf stop = some r' := by
          by_cases hz : ended.doneNet = 0
          · exact ⟨_, (houtcome.planned hz).1⟩
          · exact ⟨_, (houtcome.ticketed hz).1⟩
        have hslots : u.slots = e.st.slots := key State.slots
        refine ⟨_, q, (key State.queue).trans hq, by simp, flies_record ((recOf_of_slots hslots stop).trans hr') ?_⟩
        have hfree : s.slots.any Slot.isFree = true := by simpa [State.roomy, hnone] using hroom
        rw [hslots]
        exact hend.one.free.trans hfree
    exact ⟨t, v, _, ht, hv, hpt, hpv, htwin⟩
end

