-- ==== Sys2Proof/Proofs/Tickets.lean ====
section
/-! PROOFS. A ticket and the totals, and LN.CLOSE in PAUSED. -/

open Sys2Proof Sys2Proof.Machine

namespace Sys2Proof.Machine

/-! ## A ticket's lines and the totals (R169, R172 to R174) -/

/-- A line's product names the product its figures belong to. -/
def TicketLine.owned (ordered p : Nat) (x : TicketLine) : Bool := lineOwner ordered x.product == p

theorem owned_dropLines {product price bp p : Nat} : ∀ (c : Nat) (ds : List Drop), ∀ x ∈ dropLines product price bp c ds,
    x.owned product p = x.belongs product p
  | _, [], x, hx => by simp [dropLines] at hx
  | c, d :: ds, x, hx => by
    rw [dropLines, List.mem_append] at hx
    rcases hx with hx | hx
    · split at hx
      · obtain rfl := List.mem_singleton.1 hx
        rfl
      · simp at hx
    · exact owned_dropLines 0 ds x hx

/-- On a ticket's lines the two readings agree. -/
theorem owned_ticketLines {r : Record} {purge : Bool} {hose : Nat} {content : HoseContent} {x : Latched} {price bp p : Nat} :
    ∀ y ∈ ticketLines r purge hose content x price bp, y.owned r.product p = y.belongs r.product p := by
  intro y hy
  rw [ticketLines] at hy
  rcases List.mem_append.1 hy with hy | hy
  · split at hy
    · simp at hy
    · obtain rfl := List.mem_singleton.1 hy
      show (lineOwner r.product (changeoverTerms content x price bp).1 == p) = _
      simp only [TicketLine.belongs, priced]
      cases (changeoverTerms content x price bp).1 <;> rfl
  · exact owned_dropLines _ _ y hy

/-- A ticket line's figures added to a product's totals. -/
def Totals.addTicketLine (y : Totals) (x : TicketLine) : Totals := y.add 0 x.net x.amount x.tax 0 0

theorem nth1_foldl_addLine (ordered p : Nat) : ∀ (lines : List TicketLine) (ts : List Totals),
    nth1 (lines.foldl (addLine ordered) ts) p
      = (nth1 ts p).map (fun y => (lines.filter (TicketLine.owned ordered p)).foldl Totals.addTicketLine y)
  | [], ts => by simp
  | x :: xs, ts => by
    rw [List.foldl_cons, nth1_foldl_addLine ordered p xs, addLine, nth1_modNth1]
    by_cases h : lineOwner ordered x.product = p
    · rw [if_pos h.symm, List.filter_cons_of_pos (by simp [TicketLine.owned, h]), Option.map_map]
      rfl
    · rw [if_neg fun he => h he.symm, List.filter_cons_of_neg (by simp [TicketLine.owned, h])]

/-- The figures of lines added to totals in range. -/
def Totals.raised (net amount tax : Nat) (y : Totals) : Totals :=
  { y with
    net := min 999999999999 (y.net + net), amount := min 999999999999 (y.amount + amount), tax := min 999999999999 (y.tax + tax) }

theorem addTicketLine_inRange {y : Totals} (h : y.inRange) (x : TicketLine) :
    y.addTicketLine x = y.raised x.net x.amount x.tax ∧ (y.addTicketLine x).inRange := by
  obtain ⟨h1, h2, h3, h4, h5, h6⟩ := h
  refine ⟨?_, ?_⟩
  · simp [Totals.addTicketLine, Totals.add, Totals.raised, satAdd, h1, h5, h6]
  · simp [Totals.addTicketLine, Totals.add, Totals.inRange, satAdd]

theorem foldl_addTicketLine : ∀ (lines : List TicketLine) (y : Totals), y.inRange → lines.foldl Totals.addTicketLine y
    = y.raised (sumNat (lines.map (·.net))) (sumNat (lines.map (·.amount))) (sumNat (lines.map (·.tax)))
  | [], y, h => by
    obtain ⟨-, h2, h3, h4, -, -⟩ := h
    simp [Totals.raised, sumNat, h2, h3, h4]
  | x :: xs, y, h => by
    obtain ⟨heq, hrange⟩ := addTicketLine_inRange h x
    rw [List.foldl_cons, foldl_addTicketLine xs _ hrange, heq]
    simp only [Totals.raised, sumNat, List.map_cons, List.foldr_cons, Totals.mk.injEq, true_and, and_true]
    omega

theorem inRange_add (a b c d e f : Nat) (y : Totals) : (y.add a b c d e f).inRange := by
  simp [Totals.add, Totals.inRange, satAdd]

section
variable {x : RouteBlock} {k : Ticket} (h : x.lastApplied < k.number)
include h

theorem nth1_apply_product {y : Totals} (hy : nth1 x.totals k.product = some y) :
    nth1 (x.apply k).totals k.product = some ((y.add 1 0 0 0 k.net 0).raised
      (sumNat ((k.lines.filter (TicketLine.owned k.product k.product)).map (·.net)))
      (sumNat ((k.lines.filter (TicketLine.owned k.product k.product)).map (·.amount)))
      (sumNat ((k.lines.filter (TicketLine.owned k.product k.product)).map (·.tax)))) := by
  rw [RouteBlock.apply, if_pos h]
  show nth1 (k.lines.foldl (addLine k.product) _) _ = _
  rw [nth1_foldl_addLine, nth1_modNth1, if_pos rfl, hy]
  exact congrArg some (foldl_addTicketLine _ _ (inRange_add ..))

theorem nth1_apply_other {p : Nat} {y : Totals} (hp : p ≠ k.product) (hy : nth1 x.totals p = some y) (hrange : y.inRange) :
    nth1 (x.apply k).totals p = some (y.raised (sumNat ((k.lines.filter (TicketLine.owned k.product p)).map (·.net)))
      (sumNat ((k.lines.filter (TicketLine.owned k.product p)).map (·.amount)))
      (sumNat ((k.lines.filter (TicketLine.owned k.product p)).map (·.tax)))) := by
  rw [RouteBlock.apply, if_pos h]
  show nth1 (k.lines.foldl (addLine k.product) _) _ = _
  rw [nth1_foldl_addLine, nth1_modNth1, if_neg hp, hy]
  exact congrArg some (foldl_addTicketLine _ _ hrange)

/-- The totals after a ticket whose lines read alike: the product's share of every figure. -/
theorem nth1_apply_after {p : Nat} {y : Totals} (hown : ∀ z ∈ k.lines, z.owned k.product p = z.belongs k.product p)
    (hy : nth1 x.totals p = some y) (hrange : y.inRange) : nth1 (x.apply k).totals p = some (y.after k p) := by
  have hfilter : k.lines.filter (TicketLine.owned k.product p) = k.lines.filter (TicketLine.belongs k.product p) :=
    List.filter_congr fun z hz => hown z hz
  by_cases hp : p = k.product
  · subst hp
    obtain ⟨h1, h2, h3, h4, h5, h6⟩ := hrange
    rw [nth1_apply_product h hy, hfilter]
    simp [Totals.raised, Totals.add, Totals.after, Ticket.share, satAdd, h2, h3, h4, h6]
  · obtain ⟨h1, h2, h3, h4, h5, h6⟩ := hrange
    rw [nth1_apply_other h hp hy ⟨h1, h2, h3, h4, h5, h6⟩, hfilter]
    simp [Totals.raised, Totals.after, Ticket.share, Ne.symm hp, h1, h5]

/-- The product's count of tickets and its drawn volume after a ticket. -/
theorem nth1_apply_counts {y : Totals} (hy : nth1 x.totals k.product = some y) :
    (nth1 (x.apply k).totals k.product).map (fun z => (z.tickets, z.drawn))
      = some (min 99999999 (y.tickets + 1), min 999999999999 (y.drawn + k.net)) := by
  rw [nth1_apply_product h hy]
  rfl

theorem route_apply_numbers : (x.apply k).lastApplied = k.number ∧ (x.apply k).counterCopy = k.number := by
  rw [RouteBlock.apply, if_pos h]
  exact ⟨rfl, rfl⟩

end

/-- A ticket applied to the load block: its number, the hose of its line, the drawing of its compartment. -/
theorem load_apply {x : LoadBlock} {draw : Nat} {k : Ticket} (h : x.lastApplied < k.number) :
    (x.apply draw k).lastApplied = k.number ∧ (x.apply draw k).hoses.get k.line = k.hose
      ∧ (x.apply draw k).hoses.get k.line.other = x.hoses.get k.line.other
      ∧ ∀ c, nth1 x.comps k.comp = some c → c.drawn + k.net ≤ 4000000000 →
        nth1 (x.apply draw k).comps k.comp = some { c with drawn := c.drawn + k.net } := by
  rw [LoadBlock.apply, if_pos h]
  refine ⟨rfl, by cases k.line <;> rfl, by cases k.line <;> rfl, fun c hc hle => ?_⟩
  show nth1 (modNth1 x.comps k.comp _) k.comp = _
  rw [nth1_modNth1, if_pos rfl, hc]
  simp [inRange, hle]

/-! ## The ticket of a run's end (R5 to R7, R18) -/

theorem finish_reset (cause : EndCause) (d : Drop) : (d.finish cause).reset = { d with st := .pending } := by
  unfold Drop.finish
  split <;> rfl

theorem returned_dropEnded (cause : EndCause) (r : Record) : (r.dropEnded cause).returned = { r with
    state := .planned, binding := none, restored := .none, flags := .empty, attempts := min 255 (r.attempts + 1)
    drops := r.drops.map (fun d => { d with st := .pending }) } := by
  have hdrops : (r.dropEnded cause).drops.map Drop.reset = r.drops.map (fun d => { d with st := .pending }) := by
    show (r.drops.map (Drop.finish cause)).map Drop.reset = _
    rw [List.map_map]
    exact List.map_congr_left fun d _ => finish_reset cause d
  show ({ (r.dropEnded cause).unbound with attempts := _, drops := (r.dropEnded cause).drops.map Drop.reset } : Record) = _
  rw [hdrops]
  rfl

/-- The ticket's figures, from the state it is built in. -/
theorem ticketOf_fields (s : State) (l : Line) (cause : EndCause) (r : Record) {b : Binding} (hb : r.binding = some b) :
    (s.ticketOf l cause r).number = s.counter + 1 ∧ (s.ticketOf l cause r).net = r.doneNet ∧ (s.ticketOf l cause r).gross = r.doneGross
      ∧ (s.ticketOf l cause r).comp = b.comp
      ∧ ((s.ticketOf l cause r).flags.timeUnknown = true ↔ r.flags.timeUnknown = true ∨ s.clock.valid = false)
      ∧ (∀ h, (s.items l).hose = some h → (s.ticketOf l cause r).hose
          = if b.purge = false ∨ h ≤ (s.ticketOf l cause r).net then .product r.product else .mixed)
      ∧ ∀ p, ∀ y ∈ (s.ticketOf l cause r).lines, y.owned r.product p = y.belongs r.product p := by
  have hbinding : s.bindingOf l r = b := by simp [State.bindingOf, hb]
  unfold State.ticketOf
  rw [hbinding]
  refine ⟨rfl, (ticketLinesKeepTheNet ..).1, rfl, rfl, ?_, fun h hh => ?_, fun p y hy => owned_ticketLines y hy⟩
  · simp [State.buildTicket, State.closeFlags]
  · have hhose : s.hoseOf l = h := by rw [State.hoseOf, hh]
    show hoseAfter r.product b.purge (s.hoseOf l) (s.buildTicket l r b cause).net = _
    rw [hoseAfter, hhose]

end Sys2Proof.Machine

/-- Settles O38: the close's outcome is read off the record with its drop ended. -/
theorem lnCloseEndsTheRun : Obligations.LnCloseEndsTheRun := by
  intro l stop b r r1 s hh hs hroom hst hk hb hr hsaved hreverse hbinding hr1 hload hroute
  obtain ⟨hend, ended, hended, -, houtcome⟩ := closeRun_spec (s := s.lineTaken) hk hb .driver hr
  obtain ⟨v, hv⟩ : ∃ v, v = s.lineTaken.endDrop l .driver := ⟨_, rfl⟩
  have heq : v = { s.lineTaken with slots := v.slots, lines := v.lines } := hv ▸ endDrop_eq s.lineTaken l .driver
  have key : ∀ {α : Type} (g : State → α), g v = g { s.lineTaken with slots := v.slots, lines := v.lines } := fun g => congrArg g heq
  have hzero : v.deductOrder l stop = v := deductOrder_zero (by rw [hv, line_endDrop]; exact hreverse)
  rw [← hv, hzero] at hended houtcome
  obtain rfl : r1 = ended := by
    have hvr : v.recOf stop = some (r.dropEnded .driver) := hv ▸ recOf_endDrop (s := s.lineTaken) hb .driver hr
    rw [hr1]
    exact Option.some.inj (hvr.symm.trans hended)
  obtain ⟨e, he⟩ : ∃ e, e = s.lineTaken.closeRun l .driver := ⟨_, rfl⟩
  have hj : judgeCommand (.lnClose l.num) s.lineTaken = endNow e l :=
    he ▸ judgeLnClose_paused (s := s.lineTaken) hst ((boundIsUnsaved_eq (s := s.lineTaken) hb).trans (decide_eq_false hsaved))
  rw [← he] at hend houtcome
  obtain ⟨ks, hks⟩ := hend.keys
  have hanswered := answered_byCommand l ⟨_, ks, hks⟩
  have keyU : ∀ {α : Type} (g : State → α), g (e.byCommand l) = g { e.st with lines := (e.byCommand l).lines } :=
    fun g => congrArg g hanswered.eq
  obtain ⟨planned, ticketed⟩ := houtcome
  have hcounter : v.counter = s.counter := key State.counter
  have hvload : v.load = s.load := key State.load
  have hvroute : v.route = s.route := key State.route
  rw [hcounter, hvload, hvroute] at planned ticketed
  by_cases hz : r1.doneNet = 0
  · obtain ⟨hrec, hc, hl, hro⟩ := planned hz
    obtain ⟨t, ht, hwritten, htr, hasked, hothers, hleft, hrest, hsettings, hother⟩ := exec_endNow rfl hh hs hroom hend hrec hj
    refine ⟨t, _, ht, hwritten.progress, hleft, ⟨_, hrest, rfl⟩, hasked, hothers, hsettings, hother, fun _ => ⟨?_, ?_, ?_, ?_⟩,
      fun h => absurd hz h⟩
    · exact hwritten.counter.trans ((keyU State.counter).trans hc)
    · exact hwritten.load.trans ((keyU State.load).trans hl)
    · exact hwritten.route.trans ((keyU State.route).trans hro)
    · rw [htr, hr1]
      exact congrArg some (returned_dropEnded .driver r)
  · obtain ⟨hrec, hc, hl, hro, hloadmem, hroutemem⟩ := ticketed hz
    obtain ⟨t, ht, hwritten, htr, hasked, hothers, hleft, hrest, hsettings, hother⟩ := exec_endNow rfl hh hs hroom hend hrec hj
    have hbinding1 : r1.binding = some b := by rw [hr1]; exact hbinding
    have hproduct : r1.product = r.product := by rw [hr1]
    obtain ⟨hnumber, hnet, hgross, hcomp, htime, hhose, hown⟩ := ticketOf_fields v l .driver r1 hbinding1
    obtain ⟨k, hkdef⟩ : ∃ k, k = v.ticketOf l .driver r1 := ⟨_, rfl⟩
    have hkline : k.line = l := by rw [hkdef]; rfl
    have hkproduct : k.product = r.product := by rw [hkdef, ← hproduct]; rfl
    rw [← hkdef] at hrec hl hro hnumber hnet hgross hcomp htime hhose hown htr
    rw [hcounter] at hnumber
    have htload : t.load = s.load.apply v.fresh k := hwritten.load.trans ((keyU State.load).trans hl)
    have htroute : t.route = s.route.apply k := hwritten.route.trans ((keyU State.route).trans hro)
    have hltload : s.load.lastApplied < k.number := by omega
    have hltroute : s.route.lastApplied < k.number := by omega
    obtain ⟨hload1, hload2, hload3, hload4⟩ := load_apply (draw := v.fresh) hltload
    obtain ⟨hroute1, hroute2⟩ := route_apply_numbers hltroute
    rw [hkline] at hload2 hload3
    rw [hcomp, hnet] at hload4
    have hasked' : ∀ j ∈ e.st.queue, asked t j := fun j hj => hwritten.asked j (by
      rw [show (e.byCommand l).queue = e.st.queue from keyU State.queue]
      exact hj)
    refine ⟨t, _, ht, hwritten.progress, hleft, ⟨_, hrest, rfl⟩, hasked, hothers, hsettings, hother, fun h => absurd h hz, fun _ =>
      ⟨r1.ticketed k, k, htr, rfl, rfl, rfl, rfl, hnumber, ?_, hnet, hgross, ?_, ?_, ?_, ?_, hkline, hcomp, hkproduct, ?_, ?_, ?_, ?_,
        ?_, ?_, ?_, ?_, ?_, ?_, ?_, hasked' _ (hloadmem hload), hasked' _ (hroutemem hroute)⟩⟩
    · exact hwritten.counter.trans ((keyU State.counter).trans hc)
    · rw [hkdef]; rfl
    · rw [hkdef]; rfl
    · rw [hkdef]; rfl
    · rw [hkdef]; rfl
    · rw [hkdef]
      exact congrArg Settings.calCount (key State.settings)
    · rw [htime, hr1, show v.clock = s.clock from key State.clock]
    · rw [htload, hload1, hnumber]
    · rw [htroute, hroute1, hnumber]
    · rw [htroute, hroute2, hnumber]
    · rw [htload, hload2]
    · rw [htload]
      exact hload4
    · intro y hy
      rw [htroute, ← hkproduct, ← hnet]
      exact nth1_apply_counts hltroute (by rw [hkproduct]; exact hy)
    · intro p y hy hrange
      rw [htroute]
      exact nth1_apply_after hltroute (by rw [hkproduct, ← hproduct]; exact hown p) hy hrange
    · intro h hh
      rw [← hproduct]
      exact hhose h ((congrArg LineItems.hose (key (State.items · l))).trans hh)
    · rw [htload, hload3]
end

