-- ==== Sys2Proof/Proofs/QuietCommits.lean ====
section
/-! PROOFS. What follows a change that leaves the store nothing to begin. -/

open Sys2Proof Sys2Proof.Machine

namespace Sys2Proof.Machine

/-! ## What follows a change that leaves the store nothing to begin (R191, R193) -/

theorem deliverReply_eq (s : State) : s.deliverReply = { s with cmd := s.deliverReply.cmd, tx := s.deliverReply.tx } := by
  unfold State.deliverReply
  cases s.cmd with
  | none => rfl
  | some c =>
    dsimp only
    split
    · split <;> rfl
    · rfl

theorem deliverAttention_eq (s : State) (l : Line) :
    s.deliverAttention l = { s with lines := (s.deliverAttention l).lines, attention := (s.deliverAttention l).attention } := by
  unfold State.deliverAttention
  dsimp only
  split <;> rfl

theorem core_deliverAttention (s : State) (l k : Line) : ((s.deliverAttention l).line k).core = (s.line k).core := by
  have hcore : ∀ u : State, ((u.modLine l (fun c => { c with endWaits := c.endWaits.filter (fun w => !w.over) })).line k).core
      = (u.line k).core := by
    intro u
    by_cases h : k = l
    · subst h
      rw [line_modLine_same]
      rfl
    · rw [line_modLine_of_ne u _ h]
  unfold State.deliverAttention
  dsimp only
  split
  · exact hcore _
  · exact hcore _

theorem attention_deliverAttention (s : State) (l k : Line) (h : k ≠ l ∨ (s.line l).endWaits.any Waiter.over = false) :
    (s.deliverAttention l).attention.get k = s.attention.get k := by
  unfold State.deliverAttention
  dsimp only
  rcases h with h | h
  · split
    · cases l <;> cases k <;> simp_all [State.setAttention, Pair.set, Pair.get]
    · rfl
  · rw [if_neg (by simp [h])]
    rfl

theorem trySleep_eq (s : State) : s.trySleep = { s with
    mode := s.trySleep.mode, sleepDue := s.trySleep.sleepDue, rx := s.trySleep.rx, patrolIdle := s.trySleep.patrolIdle } := by
  unfold State.trySleep State.enterSleep
  split <;> rfl

/-- What is left as it was behind a change where the store begins nothing: all but replies, items, and a sleep put off. -/
structure Quiet (s t : State) : Prop where
  eq : t = { s with
    cmd := t.cmd, tx := t.tx, lines := t.lines, attention := t.attention, mode := t.mode, sleepDue := t.sleepDue, rx := t.rx
    patrolIdle := t.patrolIdle }
  core : ∀ l, (t.line l).core = (s.line l).core
  item : ∀ l, (s.line l).endWaits.any Waiter.over = false → t.attention.get l = s.attention.get l

theorem Quiet.read {α : Type} {s t : State} (h : Quiet s t) (g : State → α) : g t = g { s with
    cmd := t.cmd, tx := t.tx, lines := t.lines, attention := t.attention, mode := t.mode, sleepDue := t.sleepDue, rx := t.rx
    patrolIdle := t.patrolIdle } := congrArg g h.eq

theorem commit_quiet {v : State} (ha : v.isActive = true) (h : v.flight.isSome = true ∨ v.queue = []) : Quiet v (commit v) := by
  rw [commit_active v ha, runStore_settled v h, State.deliver, if_pos ha]
  obtain ⟨a, hadef⟩ : ∃ a, a = v.deliverReply := ⟨_, rfl⟩
  obtain ⟨b, hb⟩ : ∃ b, b = a.deliverAttention .one := ⟨_, rfl⟩
  obtain ⟨c, hc⟩ : ∃ c, c = b.deliverAttention .two := ⟨_, rfl⟩
  have haeq : a = { v with cmd := a.cmd, tx := a.tx } := hadef ▸ deliverReply_eq v
  have hbeq : b = { a with lines := b.lines, attention := b.attention } := hb ▸ deliverAttention_eq a .one
  have hceq : c = { b with lines := c.lines, attention := c.attention } := hc ▸ deliverAttention_eq b .two
  have hlines : a.lines = v.lines := (congrArg State.lines haeq).trans rfl
  have hattention : a.attention = v.attention := (congrArg State.attention haeq).trans rfl
  have htwo : b.line .two = a.line .two := by
    rw [hb, State.deliverAttention]
    split <;> rfl
  rw [← hadef, ← hb, ← hc]
  have hsleep := trySleep_eq c
  refine ⟨?_, fun l => ?_, fun l hl => ?_⟩
  · rw [hsleep]
    generalize c.trySleep.mode = m, c.trySleep.sleepDue = n, c.trySleep.rx = o, c.trySleep.patrolIdle = p
    rw [hceq]
    generalize c.lines = q, c.attention = w
    rw [hbeq]
    generalize b.lines = x, b.attention = y
    rw [haeq]
  · have h1 : (c.trySleep).lines = c.lines := (congrArg State.lines hsleep).trans rfl
    show (c.trySleep.lines.get l).core = _
    rw [h1]
    calc (c.line l).core = (b.line l).core := by rw [hc]; exact core_deliverAttention b .two l
      _ = (a.line l).core := by rw [hb]; exact core_deliverAttention a .one l
      _ = (v.line l).core := congrArg (fun p : Pair LineCtx => (p.get l).core) hlines
  · have h1 : (c.trySleep).attention = c.attention := (congrArg State.attention hsleep).trans rfl
    have hal : (a.line l).endWaits.any Waiter.over = false := (congrArg (fun p : Pair LineCtx => (p.get l).endWaits.any Waiter.over) hlines).trans hl
    rw [h1]
    calc c.attention.get l = b.attention.get l := by
          rw [hc]
          refine attention_deliverAttention b .two l ?_
          cases l
          · exact .inl nofun
          · exact .inr (by rw [htwo]; exact hal)
      _ = a.attention.get l := by
          rw [hb]
          refine attention_deliverAttention a .one l ?_
          cases l
          · exact .inr hal
          · exact .inl nofun
      _ = v.attention.get l := by rw [hattention]

end Sys2Proof.Machine
end

