-- ==== Sys2Proof/Proofs/FreeRunEnds.lean ====
section
/-! PROOFS. The end of a run without a record. -/

open Sys2Proof Sys2Proof.Machine

namespace Sys2Proof.Machine

/-! ## The end of a run without a record (R85, R122, R140, R175) -/

/-- The end of a PRIME or PROVE run: the records and the counter stay, and only block entries are asked for. -/
structure FreeEnd (l : Line) (s : State) (e : RunEnd) : Prop where
  run : RunOnly l s e.st
  rest : (e.st.line l).isAtRest (s.restState l)
  left : left l s e.st
  settings : e.st.settings = s.settings
  slots : e.st.slots = s.slots
  counter : e.st.counter = s.counter
  keys : e.keys = [] ∧ e.st.queue = s.queue
    ∨ ∃ b ks, e.keys = .block b :: ks ∧ (∀ j ∈ e.keys, j ∈ e.st.queue) ∧ (s.queue = [] → ∃ q, e.st.queue = .block b :: q)

theorem freeEnd_of {l : Line} {s w : State} {fields : List Tok} {ks : List Key} (hrun : RunOnly l s w)
    (hsettings : w.settings = s.settings) (hmeters : w.meters = s.meters) (hpump : w.pump = s.pump) (hslots : w.slots = s.slots)
    (hcounter : w.counter = s.counter) (hkeys : ks = [] ∧ w.queue = s.queue
      ∨ ∃ b js, ks = .block b :: js ∧ (∀ j ∈ ks, j ∈ w.queue) ∧ (s.queue = [] → ∃ q, w.queue = .block b :: q)) :
    FreeEnd l s ⟨w.restAfterRun l, fields, ks⟩ := by
  have hstate : w.restState l = s.restState l := restState_congr (congrArg (·.get l) hmeters) hsettings
  have hqueue : (w.restAfterRun l).queue = w.queue := read_restAfterRun w l State.queue
  have hline := line_restAfterRun w l
  rw [hstate] at hline
  refine ⟨hrun.trans (.restAfterRun w l), ?_, left_of_pump (left_restAfterRun w l) hpump.symm rfl,
    (read_restAfterRun w l State.settings).trans hsettings, (read_restAfterRun w l State.slots).trans hslots,
    (read_restAfterRun w l State.counter).trans hcounter, ?_⟩
  · show ((w.restAfterRun l).line l).isAtRest _
    rw [hline]
    exact isAtRest_rest ..
  · show _ ∧ (w.restAfterRun l).queue = _ ∨ ∃ b js, _ ∧ (∀ j ∈ ks, j ∈ (w.restAfterRun l).queue)
      ∧ (_ → ∃ q, (w.restAfterRun l).queue = _)
    rw [hqueue]
    exact hkeys

theorem deductRun_zero {s : State} {l : Line} (h : (s.line l).reverse = 0) : s.deductRun l = s := if_pos h

/-- Booking a PRIME run touches the two blocks alone. -/
theorem bookPrime_eq (s : State) (c p net : Nat) :
    s.bookPrime c p net = { s with load := (s.bookPrime c p net).load, route := (s.bookPrime c p net).route } := by
  unfold State.bookPrime; split <;> rfl

theorem bookPrime_hoses (s : State) (c p net : Nat) : (s.bookPrime c p net).load.hoses = s.load.hoses := by
  unfold State.bookPrime; split <;> rfl

theorem bookPrime_comps (s : State) (c p net : Nat) :
    (∀ x, nth1 s.load.comps c = some x → x.drawn + net ≤ 4000000000 →
      nth1 (s.bookPrime c p net).load.comps c = some { x with drawn := x.drawn + net })
    ∧ ∀ d, d ≠ c → nth1 (s.bookPrime c p net).load.comps d = nth1 s.load.comps d := by
  unfold State.bookPrime
  split
  · next h =>
    subst h
    exact ⟨fun x hx _ => hx, fun _ _ => rfl⟩
  · refine ⟨fun x hx hle => ?_, fun d hd => ?_⟩
    · show nth1 (modNth1 s.load.comps c _) c = _
      rw [nth1_modNth1, if_pos rfl, hx]
      simp [inRange, hle]
    · show nth1 (modNth1 s.load.comps c _) d = _
      rw [nth1_modNth1, if_neg hd]

theorem bookPrime_primed (s : State) (c p net : Nat) {y : Totals} (hy : nth1 s.route.totals p = some y) (hle : y.primed ≤ 999999999999) :
    (nth1 (s.bookPrime c p net).route.totals p).map (·.primed) = some (min 999999999999 (y.primed + net)) := by
  unfold State.bookPrime
  split
  · next h =>
    subst h
    rw [hy]
    simp [hle]
  · show (nth1 (modNth1 s.route.totals p _) p).map _ = _
    rw [nth1_modNth1, if_pos rfl, hy]
    rfl

/-- The net of a run without a record, in cL (R83). -/
def State.runVolume (s : State) (l : Line) : Nat := floorCl ((s.line l).runNet.getD 0)

section
variable {v : State} {l : Line} {c p : Nat} (hreverse : (v.line l).reverse = 0) (hdrawn : v.drawnComp l = some (c, p))
include hreverse hdrawn

/-- The hose after a PRIME run (R140). -/
def State.primedHose (s : State) (l : Line) (p net : Nat) : State :=
  if s.hoseOf l ≤ net then s.modLoad (fun x => { x with hoses := x.hoses.set l (.product p) }) else s

omit hreverse hdrawn in
theorem primedHose_eq (s : State) (l : Line) (p net : Nat) :
    s.primedHose l p net = { s with load := { s.load with
      hoses := if s.hoseOf l ≤ net then s.load.hoses.set l (.product p) else s.load.hoses } } := by
  unfold State.primedHose; split <;> rfl

omit hreverse hdrawn in
theorem hoseOf_bookPrime (s : State) (l : Line) (c p net : Nat) : (s.bookPrime c p net).hoseOf l = s.hoseOf l := by
  unfold State.bookPrime; split <;> rfl

theorem endPrime_eq : v.endPrime l = if v.runVolume l = 0
    then ⟨((((v.bookPrime c p (v.runVolume l)).primedHose l p (v.runVolume l)).drew (v.items l).hose.isNone).restAfterRun l),
      (v.endPrime l).fields, []⟩
    else ⟨(((((v.bookPrime c p (v.runVolume l)).primedHose l p (v.runVolume l)).enqueue (.block .load)).enqueue (.block .route)).drew
      (v.items l).hose.isNone).restAfterRun l, (v.endPrime l).fields, [.block .load, .block .route]⟩ := by
  have hzero := deductRun_zero hreverse
  unfold State.primedHose
  rw [hoseOf_bookPrime]
  unfold State.endPrime
  rw [hzero]
  simp only [hdrawn]
  show (if floorCl ((v.line l).runNet.getD 0) = 0 then _ else _) = _
  split
  · next h => exact (if_pos h).symm
  · next h => exact (if_neg h).symm

/-- The end of a PRIME run. -/
theorem endPrime_spec : FreeEnd l v (v.endPrime l)
    ∧ (v.endPrime l).st.load = { (v.bookPrime c p (v.runVolume l)).load with
        hoses := if v.hoseOf l ≤ v.runVolume l then v.load.hoses.set l (.product p) else v.load.hoses }
    ∧ (v.endPrime l).st.route = (v.bookPrime c p (v.runVolume l)).route
    ∧ (0 < v.runVolume l → (v.endPrime l).keys = [.block .load, .block .route]) := by
  obtain ⟨w, hw⟩ : ∃ w, w = (v.bookPrime c p (v.runVolume l)).primedHose l p (v.runVolume l) := ⟨_, rfl⟩
  have hweq : w = { v with load := w.load, route := w.route } := by rw [hw, primedHose_eq, bookPrime_eq]
  have key : ∀ {α : Type} (g : State → α), g w = g { v with load := w.load, route := w.route } := fun g => congrArg g hweq
  have hload : w.load = { (v.bookPrime c p (v.runVolume l)).load with
      hoses := if v.hoseOf l ≤ v.runVolume l then v.load.hoses.set l (.product p) else v.load.hoses } := by
    rw [hw, primedHose_eq, hoseOf_bookPrime, bookPrime_hoses]
  have hroute : w.route = (v.bookPrime c p (v.runVolume l)).route := by rw [hw, primedHose_eq]
  have hrun : RunOnly l v w := by
    refine ⟨?_, key (State.line · l.other), key (State.meter · l.other), key (State.attention · |>.get l.other), key (State.line · l |>.endWaits)⟩
    rw [hweq]
  have hend := endPrime_eq hreverse hdrawn
  rw [← hw] at hend
  by_cases hz : v.runVolume l = 0
  · rw [if_pos hz] at hend
    rw [hend]
    refine ⟨freeEnd_of (hrun.trans (.drew ..)) ?_ ?_ ?_ ?_ ?_ (.inl ⟨rfl, ?_⟩), ?_, ?_, fun h => absurd hz (by omega)⟩
    · exact (drew_settings ..).trans (key State.settings)
    · exact (drew_meters ..).trans (key State.meters)
    · exact (drew_pump ..).trans (key State.pump)
    · exact (drew_slots ..).trans (key State.slots)
    · exact (drew_counter ..).trans (key State.counter)
    · exact (drew_queue ..).trans (key State.queue)
    · exact (read_restAfterRun _ l State.load).trans ((drew_load ..).trans hload)
    · exact (read_restAfterRun _ l State.route).trans ((drew_route ..).trans hroute)
  · rw [if_neg hz] at hend
    rw [hend]
    have hvqueue : w.queue = v.queue := key State.queue
    refine ⟨freeEnd_of (((hrun.trans (.of_lineOnly (.enqueue l w _))).trans (.of_lineOnly (.enqueue l _ _))).trans (.drew ..))
      ?_ ?_ ?_ ?_ ?_ (.inr ⟨.load, [.block .route], rfl, fun j hj => ?_, fun hempty => ⟨[.block .route], ?_⟩⟩), ?_, ?_, fun _ => rfl⟩
    · simpa using key State.settings
    · simpa using key State.meters
    · simpa using key State.pump
    · simpa using key State.slots
    · simpa using key State.counter
    · rw [drew_queue]
      rcases List.mem_cons.1 hj with rfl | hj
      · exact mem_enqueue_of_mem _ _ _ (mem_enqueue ..)
      · obtain rfl := List.mem_singleton.1 hj
        exact mem_enqueue ..
    · rw [drew_queue, queue_enqueue, queue_enqueue, hvqueue, hempty]
      rfl
    · refine (read_restAfterRun _ l State.load).trans ?_
      simpa using hload
    · refine (read_restAfterRun _ l State.route).trans ?_
      simpa using hroute

/-- The end of a PROVE run. -/
theorem endProve_spec : FreeEnd l v (v.endProve l)
    ∧ (v.endProve l).st.load = { v.load with
        hoses := v.load.hoses.set l (hoseAfterProve (v.load.hoses.get l) p (v.hoseOf l) (v.runVolume l)) }
    ∧ (v.endProve l).st.route = v.route ∧ (v.endProve l).keys = [.block .load]
    ∧ ((v.endProve l).st.line l).prove = some (v.proveResult l) := by
  obtain ⟨w, hw⟩ : ∃ w, w = (((v.modLine l (fun c => { c with prove := some (v.proveResult l) })).modLoad (fun b =>
      { b with hoses := b.hoses.set l (hoseAfterProve (b.hoses.get l) p (v.hoseOf l) (v.runVolume l)) })).enqueue
        (.block .load)).drew (v.items l).hose.isNone := ⟨_, rfl⟩
  have hend : v.endProve l = ⟨w.restAfterRun l, (v.proveResult l).fields, [.block .load]⟩ := by
    rw [State.endProve, deductRun_zero hreverse, hw]
    simp only [hdrawn]
    rfl
  rw [hend]
  refine ⟨freeEnd_of ?_ ?_ ?_ ?_ ?_ ?_ (.inr ⟨.load, [], rfl, fun j hj => ?_, fun hempty => ⟨[], ?_⟩⟩), ?_, ?_, rfl, ?_⟩
  · rw [hw]
    exact (((RunOnly.of_lineOnly (.modLine v l (fun c => { c with prove := some (v.proveResult l) }) fun _ => rfl)).trans
      (.modLoad ..)).trans (.of_lineOnly (.enqueue l _ _))).trans (.drew ..)
  · rw [hw]; simp
  · rw [hw]; simp
  · rw [hw]; simp
  · rw [hw]; simp
  · rw [hw]; simp
  · obtain rfl := List.mem_singleton.1 hj
    rw [hw, drew_queue]
    exact mem_enqueue ..
  · rw [hw, drew_queue, queue_enqueue]
    show (if v.queue.contains _ then v.queue else v.queue ++ [_]) = _
    rw [hempty]
    rfl
  · refine (read_restAfterRun _ l State.load).trans ?_
    rw [hw]
    simp [State.modLoad]
  · refine (read_restAfterRun _ l State.route).trans ?_
    rw [hw]
    simp
  · show ((w.restAfterRun l).line l).prove = _
    rw [line_restAfterRun]
    have hline : w.line l = ((v.modLine l (fun c => { c with prove := some (v.proveResult l) })).line l) := by
      rw [hw]
      unfold State.line
      simp
    rw [hline, line_modLine_same]
    rfl

end

end Sys2Proof.Machine
end

