-- ==== Sys2Proof/Proofs/FreeRuns.lean ====
section
/-! PROOFS. LN.RUN taken. -/

open Sys2Proof Sys2Proof.Machine

namespace Sys2Proof.Machine

/-! ## LN.RUN taken (R121, R122, R134) -/

section
variable (s : State) (l : Line) (k : RunKind) (c : Nat) (x : Limit)

theorem runFrom_lineTaken : s.lineTaken.runFrom l k c x = (s.runFrom l k c x).lineTaken := by
  have hjoin : ∀ u : State, u.lineTaken.joinPump l c = (u.joinPump l c).lineTaken := by
    intro u
    unfold State.joinPump
    rw [show u.lineTaken.pump = u.pump from rfl]
    split <;> rfl
  exact hjoin (((s.beginRun l k).modLine l (LineCtx.latching (s.items l).antic s.settings.latch x)).enterFlowing l 0)

theorem runFrom_onlyLine : LineOnly l s (s.runFrom l k c x) :=
  (((LineOnly.beginRun s l k).trans (LineOnly.modLine _ l (LineCtx.latching (s.items l).antic s.settings.latch x) fun _ => rfl)).trans
    (LineOnly.enterFlowing _ l 0)).trans (LineOnly.joinPump _ l c)

theorem line_runFrom : (s.runFrom l k c x).line l
    = LineCtx.toFlowing s.settings.run 0 (LineCtx.latching (s.items l).antic s.settings.latch x ((s.line l).forRun k)) := by
  rw [State.runFrom, line_joinPump, line_enterFlowing, line_modLine_same, line_beginRun]
  congr 1
  rw [latchedOf_of_latched (x := s.settings.latch) (by rw [line_modLine_same]; rfl)]
  rfl

theorem meter_runFrom : (s.runFrom l k c x).meter l = ((s.meter l).forRun (k != .order)).forFlowing := by
  refine (congrArg (·.get l) (meters_joinPump ..)).trans ?_
  exact (meter_enterFlowing ..).trans (congrArg Meter.forFlowing (meter_beginRun s l k))

theorem store_runFrom : (s.runFrom l k c x).slots = s.slots ∧ (s.runFrom l k c x).queue = s.queue := by
  rw [State.runFrom, (store_joinPump ..).1, (store_joinPump ..).2, (store_enterFlowing ..).1, (store_enterFlowing ..).2,
    (store_modLine ..).1, (store_modLine ..).2]
  exact store_beginRun ..

theorem press_runFrom : (s.runFrom l k c x).press.lines.get l = false := by
  have h : ∀ u : State, (u.joinPump l c).press = u.press := fun u => by unfold State.joinPump; split <;> rfl
  rw [State.runFrom, h]
  exact press_enterFlowing ..

theorem joined_runFrom (h : ∀ b, s.pump = some b → b.comp = c) : joined l c s (s.runFrom l k c x) := by
  obtain ⟨u, hu⟩ : ∃ u, u = ((s.beginRun l k).modLine l (LineCtx.latching (s.items l).antic s.settings.latch x)).enterFlowing l 0 :=
    ⟨_, rfl⟩
  have hpump : u.pump = s.pump := by rw [hu, pump_enterFlowing, modLine_pump, pump_beginRun]
  rw [State.runFrom, ← hu]
  exact joined_of_pump (joined_joinPump (hpump ▸ h)) hpump.symm rfl

end

/-- What LN.RUN leaves once taken. -/
structure RunBegun (l : Line) (k : RunKind) (c : Nat) (x : Limit) (s t : State) : Prop where
  line : t.line l = LineCtx.toFlowing s.settings.run 0 (LineCtx.latching (s.items l).antic s.settings.latch x ((s.line l).forRun k))
  meter : t.meter l = ((s.meter l).forRun (k != .order)).forFlowing
  press : t.press.lines.get l = false
  joined : joined l c s t
  slots : t.slots = s.slots
  blocks : sameBlocks s t
  others : otherLineAndTruck l s t
  queue : t.queue = s.queue
  flight : t.flight = s.flight
  answer : answeredNow .LN_RUN [runReply l k c] s t

theorem exec_runFrom {i : Instr} {l : Line} {k : RunKind} {c : Nat} {x : Limit} {s : State} (hw : commandWord i = some .LN_RUN)
    (hh : s.hears = true) (hs : s.settled = true) (hpump : ∀ b, s.pump = some b → b.comp = c)
    (hj : judgeCommand i s.lineTaken = report (s.lineTaken.runFrom l k c x) [runReply l k c]) :
    ∃ t, exec i s = .next t ∧ RunBegun l k c x s t := by
  have honly := runFrom_onlyLine s l k c x
  obtain ⟨hslots, hqueue⟩ := store_runFrom s l k c x
  rw [runFrom_lineTaken] at hj
  refine ⟨_, exec_answered hw hh hs honly.phase honly.flight hqueue honly.noEndDue hj, line_runFrom .., meter_runFrom ..,
    press_runFrom .., joined_runFrom s l k c x hpump, hslots, honly.sameBlocks, ⟨⟨congrArg LineCtx.core honly.otherLine, ?_⟩, honly.otherMeter, honly.sameTruck⟩,
    hqueue, honly.flight, rfl, ?_⟩
  · exact honly.otherItem
  · exact congrArg (· ++ _) honly.tx

/-- The tests of LN.RUN PROVE that pass. -/
theorem judgeProve_taken {l : Line} {c p : Nat} {s : State} (hc : 1 ≤ c ∧ c ≤ 4) (hidle : (s.line l).st = .idle)
    (hseal : s.inputs.sealOpen = true) (hpermit : s.inputs.permit = true) (hignition : s.inputs.ignition = true)
    (hair : s.inputs.air.get l = false) (hp : (s.load.comp c).product = some p) (hpump : ∀ b, s.pump = some b → b.comp = c) :
    judgeLnRunProve l.num (some c) s = report (s.runFrom l .prove c .unlimited) [runReply l .prove c] := by
  refine (runChecks_idle hc hidle).trans ?_
  rw [if_neg (by simp [hseal]), if_neg (by simp [State.interlock, hpermit, hignition]), if_neg (by simp [hair]),
    if_neg (by simp [hp]), if_neg (by simp [(pumpGrants_iff s c).2 hpump])]

theorem judgeProve_sealed {l : Line} {c : Nat} {s : State} (hc : 1 ≤ c ∧ c ≤ 4) (hidle : (s.line l).st = .idle)
    (hseal : s.inputs.sealOpen = false) : judgeLnRunProve l.num (some c) s = .error .SEALED :=
  (runChecks_idle hc hidle).trans (if_pos hseal)

end Sys2Proof.Machine
end

