-- ==== Sys2Proof/Proofs/FreeRunCloses.lean ====
section
/-! PROOFS. A run without a record closed by its command. -/

open Sys2Proof Sys2Proof.Machine

namespace Sys2Proof.Machine

/-! ## A run without a record closed by its command (R111, R122, R193) -/

/-- The parts of the state that the end of a run is read from, the same in two states. -/
structure EndReadsSame (l : Line) (u t : State) : Prop where
  slots : t.slots = u.slots
  unsaved : t.unsaved = u.unsaved
  settings : t.settings = u.settings
  load : t.load = u.load
  route : t.route = u.route
  counter : t.counter = u.counter
  pump : t.pump = u.pump
  core : ∀ k, (t.line k).core = (u.line k).core
  otherItem : t.attention.get l.other = u.attention.get l.other

/-- An end without writes: the reply goes at once, and in FAULT the line's item is set. -/
theorem freeEnd_atOnce {i : Instr} {w : CmdWord} {s : State} {l : Line} {e : RunEnd} (hw : commandWord i = some w) (hh : s.hears = true)
    (hs : s.settled = true) (hend : FreeEnd l s.lineTaken e) (hkeys : e.keys = []) (hqueue : e.st.queue = s.queue)
    (hj : judgeCommand i s.lineTaken = endNow e l) : ∃ t, exec i s = .next t ∧ EndReadsSame l e.st t := by
  obtain ⟨hactive, -⟩ := (hears_iff s).1 hh
  obtain ⟨hidle, -, hends, -⟩ := (settled_iff s).1 hs
  obtain ⟨u, hu⟩ : ∃ u, u = e.byCommand l := ⟨_, rfl⟩
  have hueq : u = { e.st with lines := u.lines } ∧ (∀ k, (u.line k).core = (e.st.line k).core) ∧ u.line l.other = e.st.line l.other := by
    rcases byCommand_eq e l with h | h
    · rw [hu, h]
      exact ⟨rfl, fun _ => rfl, rfl⟩
    · rw [hu, h]
      exact ⟨rfl, fun k => core_waiting .., line_modLine_of_ne e.st _ (other_ne l)⟩
  obtain ⟨heq, hcore, hother⟩ := hueq
  have key : ∀ {α : Type} (g : State → α), g u = g { e.st with lines := u.lines } := fun g => congrArg g heq
  have hexec : exec i s = .next (commit { u with cmd := some ⟨w, .ready [e.fields], .on [], false⟩ }) := by
    rw [exec_command hw, take_eq w _ s (ne_restart_of_active s hactive), arrive_taken w _ s u _ [] hh (by
      refine hj.trans ?_
      rw [endNow, hkeys, hu])]
  obtain ⟨v, hv⟩ : ∃ v : State, v = { u with cmd := some ⟨w, .ready [e.fields], .on [], false⟩ } := ⟨_, rfl⟩
  have hvactive : v.isActive = true :=
    (isActive_of_phase (s := s) (by rw [hv]; exact (key State.phase).trans hend.run.phase)).trans hactive
  have hvidle : v.flight.isSome = true ∨ v.queue = [] := by
    rw [hv]
    exact hidle.imp (fun h => (congrArg Option.isSome ((key State.flight).trans hend.run.flight)).trans h)
      (fun h => ((key State.queue).trans hqueue).trans h)
  have hquiet := commit_quiet hvactive hvidle
  have hnone : (v.line l.other).endWaits.any Waiter.over = false := by
    have hline : v.line l.other = s.line l.other := by
      rw [hv]
      exact hother.trans hend.run.otherLine
    rw [hline]
    cases l
    · exact hends.2
    · exact hends.1
  rw [hexec, ← hv]
  refine ⟨_, rfl, ?_⟩
  generalize commit v = t at hquiet ⊢
  refine ⟨(hquiet.read State.slots).trans ?_, (hquiet.read State.unsaved).trans ?_, (hquiet.read State.settings).trans ?_,
    (hquiet.read State.load).trans ?_, (hquiet.read State.route).trans ?_, (hquiet.read State.counter).trans ?_,
    (hquiet.read State.pump).trans ?_, fun k => (hquiet.core k).trans ?_, (hquiet.item l.other hnone).trans ?_⟩
  · rw [hv]; exact key State.slots
  · rw [hv]; exact key State.unsaved
  · rw [hv]; exact key State.settings
  · rw [hv]; exact key State.load
  · rw [hv]; exact key State.route
  · rw [hv]; exact key State.counter
  · rw [hv]; exact key State.pump
  · rw [hv]; exact hcore k
  · rw [hv]; exact congrArg (·.get l.other) (key State.attention)

/-- An end with block writes: they are asked for, and the reply waits for them. -/
theorem freeEnd_written {i : Instr} {w : CmdWord} {s : State} {l : Line} {e : RunEnd} {b : Block} {ks : List Key}
    (hw : commandWord i = some w) (hh : s.hears = true) (hs : s.settled = true) (hend : FreeEnd l s.lineTaken e)
    (hkeys : e.keys = .block b :: ks) (hmem : ∀ k ∈ e.keys, k ∈ e.st.queue) (hfirst : s.queue = [] → ∃ q, e.st.queue = .block b :: q)
    (hj : judgeCommand i s.lineTaken = endNow e l) :
    ∃ t, exec i s = .next t ∧ EndReadsSame l e.st t ∧ ∀ k ∈ e.keys, asked t k := by
  obtain ⟨-, -, hends, -⟩ := (settled_iff s).1 hs
  have hanswered := answered_byCommand l ⟨_, ks, hkeys⟩
  obtain ⟨u, hu⟩ : ∃ u, u = e.byCommand l := ⟨_, rfl⟩
  rw [← hu] at hanswered
  have key : ∀ {α : Type} (g : State → α), g u = g { e.st with lines := u.lines } := fun g => congrArg g hanswered.eq
  have hqueue : u.queue = e.st.queue := key State.queue
  obtain ⟨t, ht, hwritten⟩ := exec_writes (u := u) (p := .ready [e.fields]) (k := .block b) (ks := ks) hw hh hs (by rw [hj, endNow, hkeys, hu])
    ((key State.phase).trans hend.run.phase) (congrArg Option.isSome ((key State.flight).trans hend.run.flight))
    (hanswered.ends (hend.run.noEndDue hends)) fun _ hempty => by
      obtain ⟨q, hq⟩ := hfirst hempty
      exact ⟨_, q, hqueue.trans hq, by simp, flies_block u b⟩
  refine ⟨t, ht, ⟨hwritten.slots.trans (key State.slots), hwritten.unsaved.trans (key State.unsaved),
    hwritten.settings.trans (key State.settings), hwritten.load.trans (key State.load), hwritten.route.trans (key State.route),
    hwritten.counter.trans (key State.counter), hwritten.pump.trans (key State.pump), fun k => (hwritten.core k).trans (hanswered.core k),
    ?_⟩, fun k hk => hwritten.asked k (hqueue ▸ hmem k hk)⟩
  rw [hwritten.attention]
  exact congrArg (·.get l.other) (key State.attention)

/-- What a command that ends a run without a record leaves. -/
structure FreeEnded (l : Line) (s : State) (e : RunEnd) (t : State) : Prop where
  reads : EndReadsSame l e.st t
  left : left l s t
  records : sameRecords s t
  settings : t.settings = s.settings
  counter : t.counter = s.counter
  otherLine : sameLine s t l.other
  rest : (t.line l).isAtRest (s.restState l)
  asked : ∀ k ∈ e.keys, asked t k

theorem exec_freeEnd {i : Instr} {w : CmdWord} {s : State} {l : Line} {e : RunEnd} (hw : commandWord i = some w)
    (hh : s.hears = true) (hs : s.settled = true) (hend : FreeEnd l s.lineTaken e) (hj : judgeCommand i s.lineTaken = endNow e l) :
    ∃ t, exec i s = .next t ∧ FreeEnded l s e t := by
  obtain ⟨t, ht, hreads, hasked⟩ : ∃ t, exec i s = .next t ∧ EndReadsSame l e.st t ∧ ∀ k ∈ e.keys, asked t k := by
    rcases hend.keys with ⟨hkeys, hqueue⟩ | ⟨b, ks, hkeys, hmem, hfirst⟩
    · obtain ⟨t, ht, hreads⟩ := freeEnd_atOnce hw hh hs hend hkeys hqueue hj
      exact ⟨t, ht, hreads, fun k hk => by rw [hkeys] at hk; cases hk⟩
    · exact freeEnd_written hw hh hs hend hkeys hmem hfirst hj
  refine ⟨t, ht, hreads, left_of_pump hend.left rfl hreads.pump, ⟨fun n => recOf_of_slots (hreads.slots.trans hend.slots) n,
    hreads.unsaved.trans hend.run.unsaved⟩, hreads.settings.trans hend.settings, hreads.counter.trans hend.counter,
    ⟨(hreads.core l.other).trans (congrArg LineCtx.core hend.run.otherLine), hreads.otherItem.trans hend.run.otherItem⟩, ?_, hasked⟩
  show (t.line l).core.isAtRest _
  rw [hreads.core l]
  exact hend.rest

/-! ## The run of a line in PAUSED without a record -/

theorem drawnComp_eq {s : State} {l : Line} {b : PumpBinding} {p : Nat} {x : Comp} (hb : s.pump = some b) (hl : b.lines.get l = true)
    (hx : nth1 s.load.comps b.comp = some x) (hp : x.product = some p) : s.drawnComp l = some (b.comp, p) := by
  unfold State.drawnComp
  rw [hb]
  simp only [hl, LoadBlock.comp, hx, Option.getD_some, hp]
  rfl

/-- LN.CLOSE and LN.ENDDROP of a run without a record close it. -/
theorem judge_closeFree {i : Instr} {s : State} {l : Line} (hi : i = .lnClose l.num
      ∨ (i = .lnEnddrop l.num ∧ (s.line l).cause ≠ some .pulser ∧ (s.line l).cause ≠ some .store))
    (hst : (s.line l).st = .paused) (hb : (s.line l).bound = none) (hk : (s.line l).kind ≠ some .order) :
    judgeCommand i s = endNow (s.closeRun l .driver) l := by
  have hsaved : s.boundIsUnsaved l = false := by rw [State.boundIsUnsaved, hb]
  rcases hi with rfl | ⟨rfl, hpulser, hstore⟩
  · exact judgeLnClose_paused hst hsaved
  · have hfault : s.faultPaused l = false := by
      rw [Bool.eq_false_iff, Ne, faultPaused_iff]
      rintro (h | h | h)
      · exact hpulser h
      · exact hstore h
      · exact Bool.false_ne_true (hsaved.symm.trans h)
    show judgeLnEnddrop l.num s = _
    rw [judgeLnEnddrop, withLine_num, hst]
    exact (if_neg (by simp [hfault])).trans (if_neg hk)

/-- A drop's end without a record changes the line's context alone. -/
theorem endDrop_free {s : State} {l : Line} (hb : (s.line l).bound = none) (cause : EndCause) :
    s.endDrop l cause = s.modLine l LineCtx.dropOver := by
  unfold State.endDrop
  rw [hb]
  rfl

/-- The end of a run read from behind the end of its drop. -/
theorem freeEnd_dropOver {s : State} {l : Line} {e : RunEnd} (h : FreeEnd l (s.modLine l LineCtx.dropOver) e) : FreeEnd l s e :=
  ⟨(RunOnly.of_lineOnly (.modLine s l LineCtx.dropOver fun _ => rfl)).trans h.run, h.rest, left_of_pump h.left rfl rfl, h.settings,
    h.slots, h.counter, h.keys⟩

theorem closeRun_prime {s : State} {l : Line} (hb : (s.line l).bound = none) (hk : (s.line l).kind = some .prime) (cause : EndCause) :
    s.closeRun l cause = (s.modLine l LineCtx.dropOver).endPrime l := by
  rw [State.closeRun, endDrop_free hb, State.endRun, line_modLine_same]
  simp only [LineCtx.dropOver, hk]

theorem closeRun_prove {s : State} {l : Line} (hb : (s.line l).bound = none) (hk : (s.line l).kind = some .prove) (cause : EndCause) :
    s.closeRun l cause = (s.modLine l LineCtx.dropOver).endProve l := by
  rw [State.closeRun, endDrop_free hb, State.endRun, line_modLine_same]
  simp only [LineCtx.dropOver, hk]

end Sys2Proof.Machine

/-- Settles O39: a run without a record begins at once, and its close books and rests. -/
theorem primeAndProveRuns : Obligations.PrimeAndProveRuns := by
  refine ⟨fun l c p s hh hs hc hidle hpermit hignition hair hp hpump => ⟨fun h hopen hseal hcal hset hempty hhose hpos => ?_,
      fun hseal => ?_, fun hseal => ?_⟩,
    fun i l b p h g n x y s hh hs hi hst hbound hreverse hb hl hx hp hhose hg hn hy hprimed hdrawnLe => ?_⟩
  · have hgrants : ¬ s.lineTaken.pumpGrants c = false := by simp [(pumpGrants_iff s.lineTaken c).2 hpump]
    have hchecks := (primeChecks_pump (s := s.lineTaken) (c := c) hcal hset hempty hhose hpos).trans (if_neg hgrants)
    have hj : judgeCommand (.lnRunPrime l.num (some c)) s.lineTaken = _ := ((judgePrime_product (s := s.lineTaken) hc hidle hopen hseal
      hpermit hignition hair).trans (by rw [show (s.lineTaken.load.comp c).product = some p from hp])).trans hchecks
    obtain ⟨t, ht, hrun⟩ := exec_runFrom rfl hh hs hpump hj
    have hline := hrun.line
    refine ⟨t, ht, ?_, hrun.press, congrArg LineCtx.kind hline, congrArg LineCtx.limit hline, congrArg LineCtx.runGross hline,
      congrArg LineCtx.runNet hline, congrArg LineCtx.latched hline, (congrArg LineCtx.bound hline).trans rfl, ?_, congrArg Meter.fwdTotal hrun.meter,
      congrArg Meter.runGated hrun.meter, hrun.joined, hrun.slots, hrun.blocks, hrun.others, hrun.queue, hrun.flight, hrun.answer⟩
    · rw [hline]
      exact justFlowing_toFlowing ..
    · rw [hrun.meter]
      exact justFlowing_forFlowing _
  · have hj : judgeCommand (.lnRunProve l.num (some c)) s.lineTaken = _ := judgeProve_taken (s := s.lineTaken) hc hidle hseal hpermit
      hignition hair hp hpump
    obtain ⟨t, ht, hrun⟩ := exec_runFrom rfl hh hs hpump hj
    have hline := hrun.line
    refine ⟨t, ht, ?_, hrun.press, congrArg LineCtx.kind hline, congrArg LineCtx.limit hline, congrArg LineCtx.runGross hline,
      congrArg LineCtx.runNet hline, congrArg LineCtx.prove hline, congrArg LineCtx.latched hline, ?_, congrArg Meter.fwdTotal hrun.meter,
      congrArg Meter.runGated hrun.meter, hrun.joined, hrun.slots, hrun.blocks, hrun.others, hrun.queue, hrun.flight, hrun.answer⟩
    · rw [hline]
      exact justFlowing_toFlowing ..
    · rw [hrun.meter]
      exact justFlowing_forFlowing _
  · exact exec_refused rfl hh hs (judgeProve_sealed (s := s.lineTaken) hc hidle hseal)
  · have hword : ∃ w, commandWord i = some w := by
      rcases hi with rfl | ⟨rfl, -⟩ <;> exact ⟨_, rfl⟩
    obtain ⟨w, hw⟩ := hword
    obtain ⟨v, hv⟩ : ∃ v, v = s.lineTaken.modLine l LineCtx.dropOver := ⟨_, rfl⟩
    have hvline : v.line l = (s.line l).dropOver := by rw [hv, line_modLine_same]; rfl
    have hvreverse : (v.line l).reverse = 0 := by rw [hvline]; exact hreverse
    have hdrawn : v.drawnComp l = some (b.comp, p) := by
      rw [hv]
      exact drawnComp_eq hb hl hx hp
    have hvolume : v.runVolume l = n / 10000 := by
      rw [State.runVolume, hvline, LineCtx.dropOver, hn]
      rfl
    have hhoseOf : v.hoseOf l = h := by
      have : v.hoseOf l = s.hoseOf l := by rw [hv]; rfl
      rw [this, State.hoseOf, hhose]
    have hrest : ∀ {t : State}, (t.line l).isAtRest (s.restState l) → ∃ st, (t.line l).isAtRest st
        ∧ st = if (s.meter l).latched then .fault else if s.settings.calLost then .setup else .idle := fun ht => ⟨_, ht, rfl⟩
    refine ⟨fun hk => ?_, fun hk => ?_⟩
    · have hj := judge_closeFree (s := s.lineTaken) hi hst hbound (by rw [show (s.lineTaken.line l).kind = _ from hk]; nofun)
      rw [closeRun_prime (s := s.lineTaken) hbound hk, ← hv] at hj
      obtain ⟨hend, hload, hroute, hkeys⟩ := endPrime_spec hvreverse hdrawn
      rw [hvolume, hhoseOf] at hload
      rw [hvolume] at hroute hkeys
      obtain ⟨hbooked, hother⟩ := bookPrime_comps v b.comp p (n / 10000)
      have hvload : v.load = s.load := by rw [hv]; rfl
      have hvroute : v.route = s.route := by rw [hv]; rfl
      have hfree : FreeEnd l s.lineTaken (v.endPrime l) := freeEnd_dropOver (by rw [← hv]; exact hend)
      obtain ⟨t, ht, hended⟩ := exec_freeEnd hw hh hs hfree hj
      have htload := hended.reads.load.trans hload
      have htroute := hended.reads.route.trans hroute
      refine ⟨t, ht, hended.left, hended.records, ?_, fun c hc => ?_, ?_, ?_, hended.settings, hended.counter, hended.otherLine,
        fun hpos => ?_, hrest hended.rest⟩
      · rw [htload]
        exact hbooked x (by rw [hvload]; exact hx) hdrawnLe
      · rw [htload]
        exact (hother c hc).trans (by rw [hvload])
      · rw [htroute]
        exact bookPrime_primed v b.comp p (n / 10000) (by rw [hvroute]; exact hy) hprimed
      · rw [htload, hvload]
        split
        · cases l <;> rfl
        · rfl
      · have hasked := hended.asked
        rw [hkeys hpos] at hasked
        exact ⟨hasked _ (by simp), hasked _ (by simp)⟩
    · have hj := judge_closeFree (s := s.lineTaken) hi hst hbound (by rw [show (s.lineTaken.line l).kind = _ from hk]; nofun)
      rw [closeRun_prove (s := s.lineTaken) hbound hk, ← hv] at hj
      obtain ⟨hend, hload, hroute, hkeys, hprove⟩ := endProve_spec hvreverse hdrawn
      rw [hvolume, hhoseOf] at hload
      have hvload : v.load = s.load := by rw [hv]; rfl
      have hvroute : v.route = s.route := by rw [hv]; rfl
      have hfree : FreeEnd l s.lineTaken (v.endProve l) := freeEnd_dropOver (by rw [← hv]; exact hend)
      obtain ⟨t, ht, hended⟩ := exec_freeEnd hw hh hs hfree hj
      have htload := hended.reads.load.trans hload
      refine ⟨t, ht, hended.left, hended.records, ?_, (hended.reads.route.trans hroute).trans hvroute, hended.settings, hended.counter,
        ?_, ⟨v.proveResult l, ?_, ?_, ?_⟩, hended.otherLine, ?_, hrest hended.rest⟩
      · rw [htload, hvload]
      · rw [htload, hvload, hoseAfterProve]
        cases l <;> rfl
      · have hfigure := congrArg LineCtx.prove (hended.reads.core l)
        exact hfigure.trans hprove
      · rw [hv]
        rfl
      · rw [State.proveResult, hvline, LineCtx.dropOver, hg]
        rfl
      · exact hended.asked _ (by rw [hkeys]; simp)
end

