-- ==== Sys2Proof/Proofs/QuietEvents.lean ====
section
/-! PROOFS. An event behind which nothing is due, and the events of the link. -/

open Sys2Proof Sys2Proof.Machine

namespace Sys2Proof.Machine

/-! ## An event behind which nothing is due (R33, R187, R191, R193) -/

/-- A change that makes nothing due: the store, the reply, the run ends and the sleep stand as they stood. -/
structure KeepsDue (s u : State) : Prop where
  phase : u.phase = s.phase
  flight : u.flight.isSome = s.flight.isSome
  queue : u.queue = s.queue
  reply : s.replyDue = false → u.replyDue = false
  ends : noEndDue s → noEndDue u
  sleep : (s.sleepDue && s.maySleep) = false → (u.sleepDue && u.maySleep) = false

theorem KeepsDue.refl (s : State) : KeepsDue s s := ⟨rfl, rfl, rfl, id, id, id⟩

theorem KeepsDue.trans {s u v : State} (h : KeepsDue s u) (k : KeepsDue u v) : KeepsDue s v :=
  ⟨k.phase.trans h.phase, k.flight.trans h.flight, k.queue.trans h.queue, fun hr => k.reply (h.reply hr), fun hn => k.ends (h.ends hn),
    fun hs => k.sleep (h.sleep hs)⟩

section
variable {s u : State} (ha : s.isActive = true) (hs : s.settled = true)
include ha

theorem KeepsDue.active (h : KeepsDue s u) : u.isActive = true := (isActive_of_phase h.phase).trans ha

include hs

theorem KeepsDue.settled (h : KeepsDue s u) : u.settled = true := by
  obtain ⟨hidle, hreply, hends, hsleep⟩ := (settled_iff s).1 hs
  rw [comesUp_active s ha] at hsleep
  refine (settled_iff u).2 ⟨?_, h.reply hreply, h.ends hends, ?_⟩
  · rw [h.flight, h.queue]
    exact hidle
  · rw [comesUp_active u (h.active ha)]
    exact h.sleep hsleep

/-- Behind such a change there is nothing to do. -/
theorem KeepsDue.commit (h : KeepsDue s u) : commit u = u := commit_settled u (h.active ha) (h.settled ha hs)

theorem event_keeps {f : State → State} (hf : f s = u) (h : KeepsDue s u) : event f s = .next u := by
  rw [event, comesUp_active s ha, hf, h.commit ha hs]

theorem activeEvent_keeps {f : State → State} (hf : f s = u) (h : KeepsDue s u) : activeEvent f s = .next u :=
  event_keeps ha hs ((if_pos ha).trans hf) h

end

/-- The reply that is due is the command's in progress. -/
theorem replyDue_congr {s u : State} (h : u.cmd = s.cmd) : u.replyDue = s.replyDue := by
  unfold State.replyDue
  rw [h]
  cases s.cmd with
  | none => rfl
  | some c => cases hp : c.plan <;> simp [hp, State.planSegments]

/-- The parts of a state that decide what is due. -/
structure SameDue (s u : State) : Prop where
  phase : u.phase = s.phase
  flight : u.flight = s.flight
  queue : u.queue = s.queue
  cmd : u.cmd = s.cmd
  ends : ∀ l, (u.line l).endWaits = (s.line l).endWaits
  crediting : u.anyCrediting = s.anyCrediting
  mode : u.mode = s.mode
  ignition : u.inputs.ignition = s.inputs.ignition
  sleepDue : u.sleepDue = s.sleepDue

theorem SameDue.keeps {s u : State} (h : SameDue s u) : KeepsDue s u where
  phase := h.phase
  flight := congrArg Option.isSome h.flight
  queue := h.queue
  reply := fun hr => (replyDue_congr h.cmd).trans hr
  ends := fun ⟨h1, h2⟩ => ⟨(congrArg (List.any · Waiter.over) (h.ends .one)).trans h1, (congrArg (List.any · Waiter.over) (h.ends .two)).trans h2⟩
  sleep := fun hs => by
    have hmay : u.maySleep = s.maySleep := by
      unfold State.maySleep
      rw [isActive_of_phase h.phase, h.mode, h.ignition, h.crediting, h.cmd]
    rw [hmay, h.sleepDue]
    exact hs

/-- A change of the link's receiver, its transmitter, the clock or the presses makes nothing due. -/
theorem SameDue.link {s : State} (rx : Receiver) (tx : List ReplyLine) (p : PressMark) : SameDue s { s with rx := rx, tx := tx, press := p } :=
  ⟨rfl, rfl, rfl, rfl, fun _ => rfl, rfl, rfl, rfl, rfl⟩

/-! ## Characters, replies sent and breaks (R182, R189, R191) -/

theorem linkOpen_iff (s : State) : s.linkOpen = true ↔ s.isActive = true ∧ s.mode = .run ∧ s.rx.brk = none := by
  simp only [State.linkOpen, Bool.and_eq_true, Option.isNone_iff_eq_none, beq_iff_eq, and_assoc]

theorem exec_character {s : State} {c : Byte} (ha : s.isActive = true) (hs : s.settled = true) (hm : s.mode = .run)
    (hb : s.rx.brk = none) (hc : c ≠ 13#8) : exec (.characterReceived c) s = .next { s with rx := s.rx.add c } := by
  have hopen := (linkOpen_iff s).2 ⟨ha, hm, hb⟩
  show execCharacterReceived c s = _
  rw [execCharacterReceived]
  refine event_keeps ha hs ?_ (SameDue.link (s.rx.add c) s.tx s.press).keeps
  rw [if_pos hopen, if_neg hc]

theorem add_start {r : Receiver} (hd : r.discard = false) : r.add 62#8 = { r with buf := some [62#8], gap := 0 } := by
  rw [Receiver.add, if_neg (by simp [hd]), if_pos rfl]

theorem add_early {r : Receiver} {c : Byte} (hd : r.discard = false) (hb : r.buf = none) (hc : c ≠ 62#8) : r.add c = { r with gap := 0 } := by
  rw [Receiver.add, if_neg (by simp [hd]), if_neg hc, hb]

theorem add_joins {r : Receiver} {c : Byte} {xs : List Byte} (hd : r.discard = false) (hb : r.buf = some xs) (hc : c ≠ 62#8) :
    r.add c = if c = 10#8 ∨ 160 ≤ xs.length then { r with gap := 0 } else { r with buf := some (xs ++ [c]), gap := 0 } := by
  rw [Receiver.add, if_neg (by simp [hd]), if_neg hc, hb]

theorem lineSent_eq {s : State} {x : ReplyLine} {xs : List ReplyLine} (htx : s.tx = x :: xs) :
    s.lineSent = { s with tx := xs, cmd := if x.ends then none else s.cmd } := by
  rw [State.lineSent, htx]

/-- A line sent makes nothing due where it ends no command or no sleep was put off. -/
theorem keepsDue_lineSent {s : State} {x : ReplyLine} {xs : List ReplyLine} (hx : x.ends = false ∨ s.sleepDue = false) :
    KeepsDue s { s with tx := xs, cmd := if x.ends then none else s.cmd } := by
  cases he : x.ends with
  | false => exact (SameDue.link s.rx xs s.press).keeps
  | true =>
    have hsleep : s.sleepDue = false := hx.resolve_left (by simp [he])
    exact ⟨rfl, rfl, rfl, fun _ => rfl, id, fun _ => by simp [hsleep]⟩

end Sys2Proof.Machine

/-- Settles O45: the events of the link, each behind which nothing else is due. -/
theorem linkCharactersAndBreaks : Obligations.LinkCharactersAndBreaks := by
  intro s ha hs hm
  refine ⟨fun hb hd => ⟨?_, fun hbuf c h62 h13 => ?_, fun xs hbuf c h62 h13 => ⟨fun h10 hlen => ?_, fun h => ?_⟩⟩, ?_,
    fun x xs htx => ⟨fun hx => ?_, fun hx hsleep => ?_⟩, fun wake hb => ?_, fun hb => ?_⟩
  · rw [exec_character ha hs hm hb (by decide), add_start hd]
  · rw [exec_character ha hs hm hb h13, add_early hd hbuf h62]
  · rw [exec_character ha hs hm hb h13, add_joins hd hbuf h62, if_neg (by simp [h10, hlen])]
  · rw [exec_character ha hs hm hb h13, add_joins hd hbuf h62, if_pos h]
  · show execLineGapTimeout s = _
    rw [execLineGapTimeout]
    exact activeEvent_keeps ha hs rfl (SameDue.link _ _ _).keeps
  · have hsent := lineSent_eq htx
    have hkeeps := keepsDue_lineSent (s := s) (xs := xs) (.inl hx)
    rw [hx] at hsent hkeeps
    exact activeEvent_keeps ha hs hsent hkeeps
  · have hsent := lineSent_eq htx
    have hkeeps := keepsDue_lineSent (s := s) (xs := xs) (x := x) (.inr hsleep)
    rw [hx] at hsent hkeeps
    exact activeEvent_keeps ha hs hsent hkeeps
  · show execBreakBegin wake s = _
    rw [execBreakBegin]
    refine activeEvent_keeps ha hs ((if_neg (by simp [hb])).trans ?_) (SameDue.link ⟨none, false, 0, some 0⟩ s.tx s.press).keeps
    rw [State.beginBreak, if_neg (by simp [hm])]
    rfl
  · show execBreakEnd s = _
    rw [execBreakEnd]
    exact activeEvent_keeps ha hs (if_pos hb) (SameDue.link ⟨none, false, 0, none⟩ s.tx s.press).keeps
end

