-- ==== Sys2Proof/Proofs/LinkLines.lean ====
section
/-! PROOFS. A completed line and its six checks. -/

open Sys2Proof Sys2Proof.Machine

namespace Sys2Proof.Machine

/-! ## A completed line (R190, R191) -/

section
variable {s : State}

theorem exec_carriageReturn {i : Instr} (hi : i = .commandLine ∨ i = .characterReceived 13#8) (hh : s.hears = true) :
    exec i s = .next (commit s.carriageReturn) := by
  obtain ⟨ha, hm, hb, -⟩ := (hears_iff s).1 hh
  have hopen := (linkOpen_iff s).2 ⟨ha, hm, hb⟩
  rcases hi with rfl | rfl
  · show execCommandLine s = _
    rw [execCommandLine, event, comesUp_active s ha, if_pos hopen]
  · show execCharacterReceived 13#8 s = _
    rw [execCharacterReceived, event, comesUp_active s ha, if_pos hopen, if_pos rfl]

theorem carriageReturn_none (hd : s.rx.discard = false) (hb : s.rx.buf = none) : s.carriageReturn = s.lineTaken := by
  rw [State.carriageReturn, hd, hb] <;> rfl

theorem carriageReturn_some {chars : List Byte} (hd : s.rx.discard = false) (hb : s.rx.buf = some chars) :
    s.carriageReturn = judgeLine chars s.lineTaken := by
  rw [State.carriageReturn, hd, hb] <;> rfl

end

section
variable {s : State} {chars : List Byte}

theorem judgeLine_long (hlen : 160 ≤ chars.length) (hword : wordReadable (splitWord (chars.drop 1)).1 = true) :
    judgeLine chars s = s.turnAway (splitWord (chars.drop 1)).1 .FORMAT := by
  unfold judgeLine
  dsimp only
  rw [if_pos hlen, if_pos hword]

variable (hlen : chars.length < 160)
include hlen

theorem judgeLine_unreadable (hword : wordReadable (splitWord (chars.drop 1)).1 = false) :
    judgeLine chars s = s.turnAway [63#8] .FORMAT := by
  unfold judgeLine
  dsimp only
  rw [if_neg (by omega), if_pos hword, if_neg (Bool.eq_false_iff.1 hword)]

variable (hword : wordReadable (splitWord (chars.drop 1)).1 = true)
include hword

theorem judgeLine_unchecked (hcheck : checkedBody (chars.drop 1) = none) :
    judgeLine chars s = s.turnAway (splitWord (chars.drop 1)).1 .CHECK := by
  unfold judgeLine
  dsimp only
  rw [if_neg (by omega), if_neg (fun h => Bool.false_ne_true (h.symm.trans hword)), if_pos hword, hcheck]

variable {body : List Byte} (hcheck : checkedBody (chars.drop 1) = some body) (hcmd : s.cmd = none)
include hcheck hcmd

theorem judgeLine_unknown (hfind : findWord (splitWord (chars.drop 1)).1 = none) :
    judgeLine chars s = s.turnAway (splitWord (chars.drop 1)).1 .UNKNOWN := by
  unfold judgeLine
  dsimp only
  rw [if_neg (by omega), if_neg (fun h => Bool.false_ne_true (h.symm.trans hword)), if_pos hword, hcheck]
  dsimp only
  rw [if_neg (by simp [hcmd]), hfind]

theorem judgeLine_command {w : CmdWord} {fs : List Field} {c : Instr} (hfind : findWord (splitWord (chars.drop 1)).1 = some w)
    (hfields : fieldsOf (body.drop (splitWord (chars.drop 1)).1.length) = some fs) (hparse : parseCommand w fs = some c) :
    judgeLine chars s = s.judged w (judgeCommand c s) := by
  unfold judgeLine
  dsimp only
  rw [if_neg (by omega), if_neg (fun h => Bool.false_ne_true (h.symm.trans hword)), hcheck]
  dsimp only
  rw [if_neg (by simp [hcmd]), hfind]
  dsimp only
  rw [hfields]
  dsimp only
  rw [judgeFields, hparse]

end

/-- A command whose line is judged as R190 says arrives as the command itself. -/
theorem commit_judged {s : State} (hh : s.hears = true) (w : CmdWord) (c : Instr) :
    Host.Outcome.next (commit (s.lineTaken.judged w (judgeCommand c s.lineTaken))) = take w (judgeCommand c) s := by
  obtain ⟨ha, hm, hb, hd, hcmd⟩ := (hears_iff s).1 hh
  rw [take, comesUp_active s ha, arrive, if_pos ((linkOpen_iff s).2 ⟨ha, hm, hb⟩), if_neg (by simp [hd]), if_neg (by simp [hcmd])]
  rfl

/-- The characters of ">STATUS*14". -/
def statusLine : List Byte := charBytes ['>', 'S', 'T', 'A', 'T', 'U', 'S', '*', '1', '4']

theorem statusLine_reads : statusLine.length < 160 ∧ wordReadable (splitWord (statusLine.drop 1)).1 = true
    ∧ ∃ body, checkedBody (statusLine.drop 1) = some body ∧ findWord (splitWord (statusLine.drop 1)).1 = some .STATUS
      ∧ fieldsOf (body.drop (splitWord (statusLine.drop 1)).1.length) = some [] ∧ parseCommand .STATUS [] = some .status :=
  ⟨by decide, by decide, charBytes ['S', 'T', 'A', 'T', 'U', 'S'], by decide, by decide, by decide, by decide⟩

end Sys2Proof.Machine

/-- Settles O46: what the six checks of a completed line give. -/
theorem completedLines : Obligations.CompletedLines := by
  intro s hh hs i hi
  obtain ⟨ha, -, -, hd, hcmd⟩ := (hears_iff s).1 hh
  have haway : ∀ {u : State} (word : List Byte) (c : Code), u = s.lineTaken.turnAway word c → commit u = s.lineTaken.turnAway word c := by
    rintro u word c rfl
    exact (SameDue.link .waiting (s.tx ++ [⟨word, .no c, [], false⟩]) s.press).keeps.commit ha hs
  rw [exec_carriageReturn hi hh]
  refine ⟨fun hb => ?_, fun chars hb => ?_⟩
  · rw [carriageReturn_none hd hb]
    exact congrArg _ ((SameDue.link .waiting s.tx s.press).keeps.commit ha hs)
  · rw [carriageReturn_some hd hb]
    refine ⟨fun hlen hword => congrArg _ (haway _ _ (judgeLine_long hlen hword)),
      fun hlen hword => congrArg _ (haway _ _ (judgeLine_unreadable hlen hword)),
      fun hlen hword => ⟨fun hcheck => congrArg _ (haway _ _ (judgeLine_unchecked hlen hword hcheck)), fun body hcheck =>
        ⟨fun hfind => congrArg _ (haway _ _ (judgeLine_unknown (s := s.lineTaken) hlen hword hcheck hcmd hfind)),
          fun w fs c hfind hfields hparse => ?_⟩⟩, fun hchars => ?_⟩
    · rw [judgeLine_command (s := s.lineTaken) hlen hword hcheck hcmd hfind hfields hparse]
      exact commit_judged hh w c
    · obtain ⟨hlen, hword, body, hcheck, hfind, hfields, hparse⟩ := statusLine_reads
      rw [hchars]
      refine (congrArg (fun u => Host.Outcome.next (commit u))
        (judgeLine_command (s := s.lineTaken) hlen hword hcheck hcmd hfind hfields hparse)).trans ?_
      exact commit_judged hh .STATUS .status
end

