-- ==== Sys2Proof/Proofs/Edges.lean ====
section
/-! PROOFS. What commit never touches, and a meter line at an edge. -/

open Sys2Proof Sys2Proof.Machine

namespace Sys2Proof.Machine

/-! ## What follows an event in a working part leaves these alone -/

theorem delivered_eq {v : State} (ha : v.isActive = true) : v.deliver.trySleep = { v with
    cmd := v.deliver.trySleep.cmd, tx := v.deliver.trySleep.tx, lines := v.deliver.trySleep.lines
    attention := v.deliver.trySleep.attention, mode := v.deliver.trySleep.mode, sleepDue := v.deliver.trySleep.sleepDue
    rx := v.deliver.trySleep.rx, patrolIdle := v.deliver.trySleep.patrolIdle } := by
  rw [trySleep_eq v.deliver]
  generalize v.deliver.trySleep.mode = m, v.deliver.trySleep.sleepDue = n, v.deliver.trySleep.rx = o, v.deliver.trySleep.patrolIdle = p
  rw [State.deliver, if_pos ha, deliverAttention_eq (v.deliverReply.deliverAttention .one) .two]
  generalize ((v.deliverReply.deliverAttention .one).deliverAttention .two).lines = q,
    ((v.deliverReply.deliverAttention .one).deliverAttention .two).attention = w
  rw [deliverAttention_eq v.deliverReply .one]
  generalize (v.deliverReply.deliverAttention .one).lines = x, (v.deliverReply.deliverAttention .one).attention = y
  rw [deliverReply_eq v]

/-- What is never touched behind an event: the records, the blocks, the meters, the truck. -/
structure CommitFrame (u t : State) : Prop where
  pending : t.pending = u.pending
  recOf : ∀ n, t.recOf n = u.recOf n
  settings : t.settings = u.settings
  load : t.load = u.load
  route : t.route = u.route
  counter : t.counter = u.counter
  meters : t.meters = u.meters
  press : t.press = u.press
  pump : t.pump = u.pump
  clock : t.clock = u.clock
  inputs : t.inputs = u.inputs
  phase : t.phase = u.phase
  fresh : t.fresh = u.fresh

theorem commit_frame {u : State} (ha : u.isActive = true) : CommitFrame u (commit u) := by
  have hkeeps := runStore_keeps u
  have hactive : u.runStore.isActive = true := (isActive_of_phase hkeeps.phase).trans ha
  rw [commit_active u ha, delivered_eq hactive]
  exact ⟨hkeeps.pending, hkeeps.recOf, hkeeps.settings, hkeeps.load, hkeeps.route, hkeeps.counter, hkeeps.meters, hkeeps.press,
    hkeeps.pump, hkeeps.clock, hkeeps.inputs, hkeeps.phase, hkeeps.fresh⟩

/-! ## A meter line at an edge (R55, R58, R60, R64, R68) -/

theorem elapse_eq (us : Nat) (m : Meter) :
    m.elapse us = { m with period := (m.elapse us).period, rate := (m.elapse us).rate, band := (m.elapse us).band } := by
  unfold Meter.elapse
  split
  · split <;> rfl
  · split <;> rfl
  · rfl

theorem measureEdge_eq (forward rise : Bool) (pr : Nat) (band : Nat → Nat) (m : Meter) :
    m.measureEdge forward rise pr band = { m with
      period := (m.measureEdge forward rise pr band).period, rate := (m.measureEdge forward rise pr band).rate
      band := (m.measureEdge forward rise pr band).band } := by
  unfold Meter.measureEdge
  split
  · rfl
  · split
    · split <;> rfl
    · rfl

theorem batchEdge_eq (forward : Bool) (m : Meter) : m.batchEdge forward = { m with
    batchFwd := if forward then m.batchFwd + 1 else m.batchFwd, batchRev := if forward then m.batchRev else m.batchRev + 1 } := by
  unfold Meter.batchEdge
  cases forward <;> rfl

theorem toggle_eq (p : PulserPhase) (m : Meter) : m.toggle p = { m with
    levelA := if p = .a then !m.levelA else m.levelA, levelB := if p = .b then !m.levelB else m.levelB } := by
  cases p <;> rfl

theorem isForward_eq (p : PulserPhase) (m : Meter) :
    m.isForward p = if p = .a then m.levelA == m.levelB else m.levelA != m.levelB := by
  cases p
  · show (!m.levelA != m.levelB) = (m.levelA == m.levelB)
    cases m.levelA <;> cases m.levelB <;> rfl
  · show (!m.levelB == m.levelA) = (m.levelA != m.levelB)
    cases m.levelA <;> cases m.levelB <;> rfl

/-- The meter line of a crediting line behind an edge. -/
def State.creditedMeter (s : State) (l : Line) (p : PulserPhase) (us : Nat) : Meter :=
  let m := ((s.meter l).toggle p).elapse (max us 1)
  if s.inputs.air.get l then m.gateEdge
  else (m.batchEdge ((s.meter l).isForward p)).measureEdge ((s.meter l).isForward p) ((s.meter l).isRise p) (s.prOf l) (s.bandFor l)

/-- The meter line of a line at rest behind an edge, before a latch. -/
def State.restedMeter (s : State) (l : Line) (p : PulserPhase) : Meter := ((s.meter l).toggle p).creepEdge ((s.meter l).isForward p)

/-- An edge changes its line's meter line, and its moment is its own. -/
def State.edged (s : State) (l : Line) (m : Meter) : State := { s with meters := s.meters.set l m, press := s.press.row (.edge l) }

theorem modMeter_edged (s : State) (l : Line) (m : Meter) (f : Meter → Meter) : (s.edged l m).modMeter l f = s.edged l (f m) := by
  cases l <;> rfl

theorem toggled_edged (s : State) (l : Line) (p : PulserPhase) :
    (s.timeRow (.edge l)).modMeter l (Meter.toggle p) = s.edged l ((s.meter l).toggle p) := by
  cases l <;> rfl

@[simp] theorem meter_edged (s : State) (l : Line) (m : Meter) : (s.edged l m).meter l = m := by cases l <;> rfl

@[simp] theorem meter_edged_other (s : State) (l : Line) (m : Meter) : (s.edged l m).meter l.other = s.meter l.other := by cases l <;> rfl

section
variable {s : State} {l : Line} (p : PulserPhase) (us : Nat)

theorem edge_setup (h : (s.line l).st = .setup) : s.edge l p us = s.edged l ((s.meter l).toggle p) := by
  rw [State.edge, if_pos h, toggled_edged]

theorem drew_false (u : State) : u.drew false = u := rfl

theorem edge_crediting (h : (s.line l).st.crediting = true) (hpr : (s.items l).pr.isSome = true) :
    s.edge l p us = s.edged l (s.creditedMeter l p us) := by
  have hsetup : (s.line l).st ≠ .setup := fun he => by rw [he] at h; cases h
  have hnone : (s.items l).pr.isNone = false := by rw [← Option.not_isSome, hpr]; rfl
  rw [State.edge, if_neg hsetup, if_pos h, toggled_edged, modMeter_edged]
  unfold State.creditedMeter
  cases hair : s.inputs.air.get l with
  | true =>
    rw [if_pos rfl, if_pos rfl, modMeter_edged]
  | false =>
    rw [if_neg Bool.false_ne_true, if_neg Bool.false_ne_true, State.creditEdge, modMeter_edged,
      show ((s.edged l (((s.meter l).toggle p).elapse (max us 1))).items l).pr.isNone = false from hnone, Bool.and_false, drew_false]
    rfl

variable (hsetup : (s.line l).st ≠ .setup) (hcredit : (s.line l).st.crediting = false) {pr : Nat} (hpr : (s.items l).pr = some pr)
include hsetup hcredit hpr

theorem edge_resting : s.edge l p us =
    if (s.meter l).isForward p = true ∧ pr < (s.restedMeter l p).creep ∧ (s.restedMeter l p).latchCreep = false then
      (s.edged l { s.restedMeter l p with latchCreep := true }).faultLatched l false
    else s.edged l (s.restedMeter l p) := by
  have hprOf : (s.edged l ((s.meter l).toggle p)).prOf l = pr := by
    show s.prOf l = pr
    rw [State.prOf, hpr]
  have hnone : ((s.edged l ((s.meter l).toggle p)).items l).pr.isNone = false := congrArg Option.isNone hpr
  rw [State.edge, if_neg hsetup, if_neg (Bool.eq_false_iff.1 hcredit), toggled_edged, State.restEdge, hprOf, hnone]
  simp only [modMeter_edged, meter_edged, drew_false]
  rfl

end

end Sys2Proof.Machine
end

