-- ==== Sys2Proof/Proofs/EdgeEvents.lean ====
section
/-! PROOFS. The event of an edge, and a fault that is latched. -/

open Sys2Proof Sys2Proof.Machine

namespace Sys2Proof.Machine

/-! ## What an edge leaves of a meter line (R55) -/

/-- Behind an edge the levels follow, and the totals, the counts of phase errors and quiet, the sample and the latch stand. -/
structure EdgeKept (p : PulserPhase) (m x : Meter) : Prop where
  levelA : x.levelA = if p = .a then !m.levelA else m.levelA
  levelB : x.levelB = if p = .b then !m.levelB else m.levelB
  fwdTotal : x.fwdTotal = m.fwdTotal
  revTotal : x.revTotal = m.revTotal
  phaseErrors : x.phaseErrors = m.phaseErrors
  quiet : x.quiet = m.quiet
  sample : x.sample = m.sample
  latchPulser : x.latchPulser = m.latchPulser

theorem edgeKept_toggle (p : PulserPhase) (m : Meter) : EdgeKept p m (m.toggle p) := by
  rw [toggle_eq]
  exact ⟨rfl, rfl, rfl, rfl, rfl, rfl, rfl, rfl⟩

theorem edgeKept_rested (s : State) (l : Line) (p : PulserPhase) (b : Bool) :
    EdgeKept p (s.meter l) { s.restedMeter l p with latchCreep := b } := by
  rw [State.restedMeter, toggle_eq]
  exact ⟨rfl, rfl, rfl, rfl, rfl, rfl, rfl, rfl⟩

/-- What a credited edge adds: to the batch, or to the gated count; the measurement follows it. -/
structure EdgeCredited (air forward : Bool) (m x : Meter) : Prop where
  creep : x.creep = m.creep
  latchCreep : x.latchCreep = m.latchCreep
  batchFwd : x.batchFwd = if air = false ∧ forward = true then m.batchFwd + 1 else m.batchFwd
  batchRev : x.batchRev = if air = false ∧ forward = false then m.batchRev + 1 else m.batchRev
  batchGated : x.batchGated = if air then min 65535 (m.batchGated + 1) else m.batchGated

theorem edge_creditedMeter (s : State) (l : Line) (p : PulserPhase) (us : Nat) :
    EdgeKept p (s.meter l) (s.creditedMeter l p us)
      ∧ EdgeCredited (s.inputs.air.get l) ((s.meter l).isForward p) (s.meter l) (s.creditedMeter l p us) := by
  unfold State.creditedMeter
  rw [elapse_eq, toggle_eq]
  generalize (Meter.elapse _ _).period = a, (Meter.elapse _ _).rate = b, (Meter.elapse _ _).band = c
  cases s.inputs.air.get l with
  | true => exact ⟨⟨rfl, rfl, rfl, rfl, rfl, rfl, rfl, rfl⟩, rfl, rfl, rfl, rfl, rfl⟩
  | false =>
    rw [if_neg Bool.false_ne_true, measureEdge_eq, batchEdge_eq]
    generalize (Meter.measureEdge _ _ _ _ _).period = d, (Meter.measureEdge _ _ _ _ _).rate = e, (Meter.measureEdge _ _ _ _ _).band = f
    cases (s.meter l).isForward p <;> exact ⟨⟨rfl, rfl, rfl, rfl, rfl, rfl, rfl, rfl⟩, rfl, rfl, rfl, rfl, rfl⟩

/-! ## The event of an edge (R55, R57) -/

section
variable {s : State} {l : Line} (ha : s.isActive = true) (hs : s.settled = true)

theorem sameDue_edged (s : State) (l : Line) (m : Meter) : SameDue s (s.edged l m) := ⟨rfl, rfl, rfl, rfl, fun _ => rfl, rfl, rfl, rfl, rfl⟩

include ha

theorem exec_edge (p : PulserPhase) (us : Nat) : exec (.pulserEdge l p us) s = .next (commit (s.edge l p us)) := by
  show execPulserEdge l p us s = _
  rw [execPulserEdge, event, comesUp_active s ha, if_pos ha]

include hs

theorem commit_edged (m : Meter) : commit (s.edged l m) = s.edged l m := (sameDue_edged s l m).keeps.commit ha hs

end

theorem press_leavePump (s : State) (l : Line) : (s.leavePump l).press = s.press := by
  unfold State.leavePump
  split
  · rfl
  · split <;> rfl

theorem meters_disarm (s : State) (l : Line) (st : LineState) : (s.disarm l st).meters = s.meters := by
  unfold State.disarm
  split
  · exact (meters_leavePump ..).trans (enqueue_meters ..)
  · exact meters_leavePump ..

theorem press_disarm (s : State) (l : Line) (st : LineState) : (s.disarm l st).press = s.press := by
  unfold State.disarm
  split
  · exact (press_leavePump ..).trans (enqueue_press ..)
  · exact press_leavePump ..

/-- A fault latched on a line changes no meter line and no mark of a press. -/
theorem faultLatched_keeps (s : State) (l : Line) (b : Bool) :
    LineOnly l s (s.faultLatched l b) ∧ (s.faultLatched l b).meters = s.meters ∧ (s.faultLatched l b).press = s.press := by
  have hline : ∀ f : LineCtx → LineCtx, (∀ c, (f c).endWaits = c.endWaits) → LineOnly l s (if b then s.modLine l f else s)
      ∧ (if b then s.modLine l f else s).meters = s.meters ∧ (if b then s.modLine l f else s).press = s.press := by
    intro f hf
    cases b
    · exact ⟨.refl l s, rfl, rfl⟩
    · exact ⟨.modLine s l f hf, rfl, rfl⟩
  have hcut : ∀ c, (LineCtx.cutOrRecord .pulser c).endWaits = c.endWaits := by
    intro c
    unfold LineCtx.cutOrRecord
    split
    all_goals rfl
  unfold State.faultLatched
  split
  · exact ⟨((LineOnly.modLine s l (LineCtx.rest .fault) fun _ => rfl).trans (.leavePump _ l)).trans (.setAttention _ l),
      meters_leavePump _ l, press_leavePump _ l⟩
  · exact ⟨(LineOnly.disarm s l .fault).trans (.setAttention _ l), meters_disarm .., press_disarm ..⟩
  · exact hline _ hcut
  · exact hline _ hcut
  · exact hline _ hcut
  · exact hline _ fun _ => rfl
  · exact ⟨.refl l s, rfl, rfl⟩

end Sys2Proof.Machine

/-- Settles O47: what an edge adds, by the state of its line. -/
theorem edgesGoToTheirDestination : Obligations.EdgesGoToTheirDestination := by
  intro l p us pr fwd m s ha hs hm hpr hfwd
  subst hm
  replace hfwd : fwd = (s.meter l).isForward p := by
    rw [isForward_eq]
    cases p <;> exact hfwd
  rw [exec_edge ha]
  have hlevels : ∀ {t : State} {x : Meter}, t.meters = s.meters.set l x → t.meter l = x ∧ t.meter l.other = s.meter l.other := by
    intro t x h
    unfold State.meter
    rw [h]
    cases l <;> exact ⟨rfl, rfl⟩
  by_cases hsetup : (s.line l).st = .setup
  · have hedge := edge_setup p us hsetup
    rw [hedge, commit_edged ha hs]
    have hkept := edgeKept_toggle p (s.meter l)
    refine ⟨_, rfl, meter_edged_other .., rfl, ?_⟩
    rw [meter_edged]
    refine ⟨hkept.levelA, hkept.levelB, hkept.fwdTotal, hkept.revTotal, hkept.phaseErrors, hkept.quiet, hkept.sample, hkept.latchPulser,
      fun _ => ⟨rfl, ?_⟩, fun hcredit => ?_, fun hne => absurd hsetup hne⟩
    · rw [toggle_eq]
    · rw [hsetup] at hcredit
      cases hcredit
  by_cases hcredit : (s.line l).st.crediting = true
  · have hedge := edge_crediting p us hcredit (by rw [hpr]; rfl)
    rw [hedge, commit_edged ha hs]
    obtain ⟨hkept, hcredited⟩ := edge_creditedMeter s l p us
    rw [← hfwd] at hcredited
    refine ⟨_, rfl, meter_edged_other .., rfl, ?_⟩
    rw [meter_edged]
    refine ⟨hkept.levelA, hkept.levelB, hkept.fwdTotal, hkept.revTotal, hkept.phaseErrors, hkept.quiet, hkept.sample, hkept.latchPulser,
      fun h => absurd h hsetup, fun _ => ⟨rfl, hcredited.creep, hcredited.latchCreep, fun hair => ?_, fun hair => ?_⟩,
      fun _ h => absurd hcredit (by simp [h])⟩
    · rw [hcredited.batchFwd, hcredited.batchRev, hcredited.batchGated, hair]
      exact ⟨rfl, rfl, rfl⟩
    · rw [hcredited.batchFwd, hcredited.batchRev, hcredited.batchGated, hair]
      cases fwd <;> exact ⟨rfl, rfl, rfl⟩
  · have hrest := edge_resting p us hsetup (by simpa using hcredit) hpr
    rw [← hfwd] at hrest
    obtain ⟨x, hx⟩ : ∃ x, x = s.restedMeter l p := ⟨_, rfl⟩
    have hcreep : x.creep = if fwd then min 65535 ((s.meter l).creep + 1) else (s.meter l).creep - 1 := by
      rw [hx, hfwd, State.restedMeter, toggle_eq]
      rfl
    have hbatch : x.batchFwd = (s.meter l).batchFwd ∧ x.batchRev = (s.meter l).batchRev ∧ x.batchGated = (s.meter l).batchGated
        ∧ x.latchCreep = (s.meter l).latchCreep := by
      rw [hx, State.restedMeter, toggle_eq]
      exact ⟨rfl, rfl, rfl, rfl⟩
    obtain ⟨hbf, hbr, hbg, hlatch⟩ := hbatch
    rw [← hx] at hrest
    by_cases hfault : fwd = true ∧ pr < x.creep ∧ x.latchCreep = false
    · rw [hrest, if_pos hfault]
      obtain ⟨honly, hmeters, hpress⟩ := faultLatched_keeps (s.edged l { x with latchCreep := true }) l false
      have hframe := commit_frame ((isActive_of_phase (s := s) honly.phase).trans ha)
      obtain ⟨hml, hmo⟩ := hlevels (hframe.meters.trans hmeters)
      have hkept := edgeKept_rested s l p true
      rw [← hx] at hkept
      refine ⟨_, rfl, hmo, hframe.press.trans hpress, ?_⟩
      rw [hml]
      refine ⟨hkept.levelA, hkept.levelB, hkept.fwdTotal, hkept.revTotal, hkept.phaseErrors, hkept.quiet, hkept.sample,
        hkept.latchPulser, fun h => absurd h hsetup, fun h => absurd h hcredit, fun _ _ => ⟨hbf, hbr, hbg, hcreep, fun h => ?_⟩⟩
      obtain ⟨hf, hlt, hl⟩ := hfault
      rw [hcreep, if_pos hf] at hlt
      rw [hlatch] at hl
      rcases h with h | h | h
      · rw [hf] at h; cases h
      · omega
      · rw [hl] at h; cases h
    · rw [hrest, if_neg hfault, commit_edged ha hs]
      have hkept := edgeKept_rested s l p (s.restedMeter l p).latchCreep
      rw [← hx] at hkept
      refine ⟨_, rfl, meter_edged_other .., rfl, ?_⟩
      rw [meter_edged]
      exact ⟨hkept.levelA, hkept.levelB, hkept.fwdTotal, hkept.revTotal, hkept.phaseErrors, hkept.quiet, hkept.sample,
        hkept.latchPulser, fun h => absurd h hsetup, fun h => absurd h hcredit, fun _ _ => ⟨hbf, hbr, hbg, hcreep, fun _ => ⟨rfl, hlatch⟩⟩⟩
end

