-- ==== Sys2Proof/Proofs/Periods.lean ====
section
/-! PROOFS. The measurement of a period, and the samples. -/

open Sys2Proof Sys2Proof.Machine

namespace Sys2Proof.Machine

/-! ## The measurement of a period (R68, R70, R71) -/

section
variable {m : Meter} {us n : Nat}

theorem elapse_measure (h : m.period = .measure n) (hlt : n + us < 16777216) : m.elapse us = { m with period := .measure (n + us) } := by
  unfold Meter.elapse
  rw [h]
  exact if_neg (by omega)

theorem elapse_discard (h : m.period = .discard n) (hlt : n + us < 16777216) : m.elapse us = { m with period := .discard (n + us) } := by
  unfold Meter.elapse
  rw [h]
  exact if_neg (by omega)

theorem elapse_overflow (h : m.period = .measure n ∨ m.period = .discard n) (hge : 16777216 ≤ n + us) : m.elapse us = m.overflow := by
  unfold Meter.elapse
  rcases h with h | h
  · rw [h]
    exact if_pos hge
  · rw [h]
    exact if_pos hge

theorem elapse_seek (h : m.period = .seek ∨ m.period = .seekDiscard) : m.elapse us = m := by
  unfold Meter.elapse
  rcases h with h | h <;> rw [h]

end

section
variable {m : Meter} {pr : Nat} {band : Nat → Nat} {rise : Bool}

theorem measureEdge_reverse : m.measureEdge false rise pr band = { m with period := .seekDiscard } := if_pos rfl

theorem measureEdge_level : m.measureEdge true false pr band = m := rfl

theorem measureEdge_seekDiscard (h : m.period = .seekDiscard) : m.measureEdge true true pr band = { m with period := .discard 0 } := by
  unfold Meter.measureEdge
  rw [h]
  rfl

theorem measureEdge_reference (h : m.period = .seek ∨ ∃ n, m.period = .discard n) :
    m.measureEdge true true pr band = { m with period := .measure 0 } := by
  unfold Meter.measureEdge
  rcases h with h | ⟨n, h⟩
  · rw [h]
    rfl
  · rw [h]
    rfl

theorem measureEdge_completes {n : Nat} (h : m.period = .measure n) :
    m.measureEdge true true pr band = { m with period := .measure 0, rate := rateOf pr n, band := band (rateOf pr n) } := by
  unfold Meter.measureEdge
  rw [h]
  rfl

/-- An edge that completes no period leaves rate and band. -/
theorem measureEdge_rate {forward : Bool} (h : m.period = .seek) :
    (m.measureEdge forward rise pr band).rate = m.rate ∧ (m.measureEdge forward rise pr band).band = m.band := by
  cases forward with
  | false =>
    rw [measureEdge_reverse]
    exact ⟨rfl, rfl⟩
  | true =>
    cases rise with
    | false => exact ⟨rfl, rfl⟩
    | true =>
      rw [measureEdge_reference (.inl h)]
      exact ⟨rfl, rfl⟩

end

theorem isRise_iff (m : Meter) (p : PulserPhase) : m.isRise p = true ↔ p = .a ∧ m.levelA = false ∧ m.levelB = false := by
  cases p <;> simp [Meter.isRise]

/-- The first row of R55's table is forward. -/
theorem isForward_of_rise {m : Meter} {p : PulserPhase} (h : m.isRise p = true) : m.isForward p = true := by
  obtain ⟨rfl, hA, hB⟩ := (isRise_iff m p).1 h
  simp [isForward_eq, hA, hB]

/-- The credited meter line, its measurement behind the time and the batch. -/
theorem creditedMeter_eq {s : State} {l : Line} {p : PulserPhase} {us pr : Nat} (hair : s.inputs.air.get l = false)
    (hpr : (s.items l).pr = some pr) (hus : 1 ≤ us) : s.creditedMeter l p us
      = ((((s.meter l).toggle p).elapse us).batchEdge ((s.meter l).isForward p)).measureEdge ((s.meter l).isForward p)
          ((s.meter l).isRise p) pr (s.bandFor l) := by
  unfold State.creditedMeter State.prOf
  rw [if_neg (by simp [hair]), hpr, Nat.max_eq_left hus]

/-- A change of one meter line with a moment of its own makes nothing due. -/
theorem sameDue_meter (s : State) (l : Line) (f : Meter → Meter) (k : TimeRow) : SameDue s ((s.modMeter l f).timeRow k) :=
  ⟨rfl, rfl, rfl, rfl, fun _ => rfl, rfl, rfl, rfl, rfl⟩

/-! ## The latest sample (R72, R73) -/

theorem take_valid {v : Int} (h : -4000 ≤ v ∧ v ≤ 6000) (m : Meter) :
    m.take (.temp v) = { m with sample := some (.temp v), lastValid := some v } := by
  have hvalid : validTemp (.temp v) = some v := if_pos h
  unfold Meter.take
  rw [hvalid]

theorem take_invalid {r : Reading} (h : validTemp r = none) (m : Meter) : m.take r = { m with sample := some r } := by
  unfold Meter.take
  rw [h]

theorem exec_sample {s : State} {l : Line} {r : Reading} {f : Meter → Meter} (ha : s.isActive = true) (hs : s.settled = true)
    (hm : s.mode = .run) (hf : ∀ m, m.take r = f m) :
    exec (.temperatureSample l r) s = .next { s with meters := s.meters.modify l f, press := s.press.row (.sample l) } := by
  obtain rfl : (fun m => m.take r) = f := funext hf
  show execTemperatureSample l r s = _
  rw [execTemperatureSample]
  exact activeEvent_keeps ha hs (if_pos hm) (sameDue_meter s l (fun m => m.take r) (.sample l)).keeps

end Sys2Proof.Machine

/-- Settles O48: the measurement of a period, its overflow, and the samples. -/
theorem periodsAndSamples : Obligations.PeriodsAndSamples := by
  refine ⟨⟨fun l p us pr fwd m s ha hs hm hpr hcredit hair hus hfwd => ?_, fun l s ha hs hcredit htimed => ?_⟩,
    fun l s ha hs => ⟨?_, fun hrun => ⟨fun v hlo hhi => ?_, fun v hv => ?_, ?_, ?_⟩, fun hsleep r => ?_⟩⟩
  · subst hm
    replace hfwd : fwd = (s.meter l).isForward p := by
      rw [isForward_eq]
      cases p <;> exact hfwd
    rw [exec_edge ha, edge_crediting p us hcredit (by rw [hpr]; rfl), commit_edged ha hs]
    refine ⟨_, rfl, ?_⟩
    rw [meter_edged, creditedMeter_eq hair hpr hus, ← hfwd]
    obtain ⟨x, hx⟩ : ∃ x, x = (s.meter l).toggle p := ⟨_, rfl⟩
    have hperiod : x.period = (s.meter l).period ∧ x.rate = (s.meter l).rate ∧ x.band = (s.meter l).band := by
      rw [hx, toggle_eq]
      exact ⟨rfl, rfl, rfl⟩
    obtain ⟨hp, hr, hb⟩ := hperiod
    have hrise : p = .a → (s.meter l).levelA = false → (s.meter l).levelB = false → (s.meter l).isRise p = true ∧ fwd = true := by
      intro h hA hB
      have h := (isRise_iff (s.meter l) p).2 ⟨h, hA, hB⟩
      exact ⟨h, hfwd.trans (isForward_of_rise h)⟩
    have hnoRise : ¬ (p = .a ∧ (s.meter l).levelA = false) → (s.meter l).isRise p = false := by
      intro h
      rw [Bool.eq_false_iff, Ne, isRise_iff]
      rintro ⟨h1, h2, -⟩
      exact h ⟨h1, h2⟩
    rw [← hx]
    have hbatch : ∀ y : Meter, (y.batchEdge fwd).period = y.period ∧ (y.batchEdge fwd).rate = y.rate ∧ (y.batchEdge fwd).band = y.band := by
      intro y
      rw [batchEdge_eq]
      exact ⟨rfl, rfl, rfl⟩
    obtain ⟨y, hy⟩ : ∃ y, y = (x.elapse us).batchEdge fwd := ⟨_, rfl⟩
    obtain ⟨hyp, hyr, hyb⟩ := hbatch (x.elapse us)
    rw [← hy] at hyp hyr hyb ⊢
    refine ⟨fun hf => ?_, fun n hn hlt h hA hB => ?_, fun n hn hlt h hA hB => ?_, fun hn h hA hB => ?_, fun hn h hA hB => ?_,
      fun n hn hlt hf h => ?_, fun n hn hge => ?_⟩
    · rw [hf, measureEdge_reverse]
    · obtain ⟨hr1, hf1⟩ := hrise h hA hB
      rw [elapse_measure (hp.trans hn) hlt] at hyp
      rw [hr1, hf1, measureEdge_completes hyp]
      exact ⟨rfl, rfl, rfl⟩
    · obtain ⟨hr1, hf1⟩ := hrise h hA hB
      rw [elapse_discard (hp.trans hn) hlt] at hyp hyr hyb
      rw [hr1, hf1, measureEdge_reference (.inr ⟨_, hyp⟩)]
      exact ⟨rfl, hyr.trans hr, hyb.trans hb⟩
    · obtain ⟨hr1, hf1⟩ := hrise h hA hB
      rw [elapse_seek (.inr (hp.trans hn))] at hyp hyr hyb
      rw [hr1, hf1, measureEdge_seekDiscard (hyp.trans (hp.trans hn))]
      exact ⟨rfl, hyr.trans hr, hyb.trans hb⟩
    · obtain ⟨hr1, hf1⟩ := hrise h hA hB
      rw [elapse_seek (.inl (hp.trans hn))] at hyp hyr hyb
      rw [hr1, hf1, measureEdge_reference (.inl (hyp.trans (hp.trans hn)))]
      exact ⟨rfl, hyr.trans hr, hyb.trans hb⟩
    · rw [hf, hnoRise h, measureEdge_level]
      rcases hn with hn | hn
      · rw [elapse_measure (hp.trans hn) hlt] at hyp hyr hyb
        refine ⟨hyr.trans hr, hyb.trans hb, fun hm => ?_, fun hd => absurd (hn.symm.trans hd) nofun⟩
        exact hyp
      · rw [elapse_discard (hp.trans hn) hlt] at hyp hyr hyb
        exact ⟨hyr.trans hr, hyb.trans hb, fun hm => absurd (hn.symm.trans hm) nofun, fun _ => hyp⟩
    · rw [elapse_overflow (hn.imp hp.trans hp.trans) hge] at hyp hyr hyb
      obtain ⟨hrate, hband⟩ := measureEdge_rate (pr := pr) (band := s.bandFor l) (rise := (s.meter l).isRise p) (forward := fwd) hyp
      refine ⟨hrate.trans hyr, hband.trans hyb, fun hf h => ?_⟩
      rw [hf, hnoRise h, measureEdge_level]
      exact hyp
  · have htime : (s.meter l).period.timed = true := by
      obtain ⟨n, h | h⟩ := htimed <;> rw [h] <;> rfl
    show execPeriodOverflow l s = _
    rw [execPeriodOverflow]
    exact activeEvent_keeps ha hs (if_pos ⟨hcredit, htime⟩) (sameDue_meter s l Meter.overflow (.overflow l)).keeps
  · show execQuietTimerExpiry l s = _
    rw [execQuietTimerExpiry]
    exact activeEvent_keeps ha hs rfl (sameDue_meter s l (fun m => { m with quiet := 1000000 }) (.quiet l)).keeps
  · exact exec_sample ha hs hrun (take_valid ⟨hlo, hhi⟩)
  · exact exec_sample ha hs hrun (take_invalid (if_neg (by omega)))
  · exact exec_sample ha hs hrun (take_invalid rfl)
  · exact exec_sample ha hs hrun (take_invalid rfl)
  · show execTemperatureSample l r s = _
    rw [execTemperatureSample]
    exact activeEvent_keeps ha hs (if_neg (by rw [hsleep]; nofun)) (.refl s)
end

