-- ==== Sys2Proof/Proofs/LineEvents.lean ====
section
/-! PROOFS. Changes of one line behind an event, and a fault that is latched. -/

open Sys2Proof Sys2Proof.Machine

namespace Sys2Proof.Machine

/-! ## Changes of one line behind an event -/

/-- A change of one line that asks for nothing and credits as before makes nothing due. -/
theorem LineOnly.sameDue {l : Line} {s u : State} (h : LineOnly l s u) (hq : u.queue = s.queue)
    (hc : (u.line l).st.crediting = (s.line l).st.crediting) : SameDue s u where
  phase := h.phase
  flight := h.flight
  queue := hq
  cmd := h.cmd
  ends := forall_line l h.endWaits (congrArg LineCtx.endWaits h.otherLine)
  crediting := by
    have ho := congrArg (fun c : LineCtx => c.st.crediting) h.otherLine
    unfold State.anyCrediting
    cases l
    · exact congrArg₂ (· || ·) hc ho
    · exact congrArg₂ (· || ·) ho hc
  mode := h.read State.mode
  ignition := congrArg Inputs.ignition h.inputs
  sleepDue := h.read State.sleepDue

/-- An event that changes one record and asks for its write, in a part where the write finds a slot. -/
theorem commit_oneRecord {s u : State} {stop : Nat} {r : Record} (ha : s.isActive = true) (hs : s.settled = true)
    (hroom : s.roomy = true) (hphase : u.phase = s.phase) (hflight : u.flight = s.flight) (hcmd : u.cmd = s.cmd)
    (hends : noEndDue s → noEndDue u) (hrec : u.recOf stop = some r) (hone : OneRecord stop s u)
    (hqueue : s.queue = [] → ∃ q, u.queue = .record stop :: q) (hmem : .record stop ∈ u.queue) (hunsaved : u.unsaved = s.unsaved) :
    EventKeeps u (commit u) ∧ (commit u).recOf stop = some r ∧ asked (commit u) (.record stop) ∧ sameRecordsBut stop s (commit u)
      ∧ ∀ k ∈ u.queue, asked (commit u) k := by
  obtain ⟨hidle, hreply, hnone, -⟩ := (settled_iff s).1 hs
  have hactive : u.isActive = true := (isActive_of_phase hphase).trans ha
  obtain ⟨hkeeps, hasked⟩ := commit_event u hactive (by
    rw [hflight]
    cases hf : s.flight with
    | some f => exact .inl (.inl rfl)
    | none =>
      have hempty : s.queue = [] := by simpa [hf] using hidle
      have hfree : s.slots.any Slot.isFree = true := by simpa [State.roomy, hf] using hroom
      obtain ⟨q, hq⟩ := hqueue hempty
      exact .inr ⟨_, q, rfl, hq, startable_record u stop r hrec, hone.free.trans hfree⟩) (hends hnone)
    ((replyDue_congr hcmd).trans hreply)
  have hrecs := (commit_frame hactive).recOf
  exact ⟨hkeeps, (hrecs stop).trans hrec, hasked _ hmem, ⟨fun m hm => (hrecs m).trans (hone.others m hm), hkeeps.unsaved.trans hunsaved⟩, hasked⟩

/-! ## A fault that is latched (R62, R65, R66) -/

/-- The meter lines and the mark of a press alone change. -/
def MeterOnly (s v : State) : Prop := v = { s with meters := v.meters, press := v.press }

theorem MeterOnly.read {α : Type} {s v : State} (h : MeterOnly s v) (g : State → α) :
    g v = g { s with meters := v.meters, press := v.press } := congrArg g h

section
variable {v : State} {l : Line} (b : Bool)

theorem faultLatched_idle (h : (v.line l).st = .idle) :
    v.faultLatched l b = ((v.modLine l (LineCtx.rest .fault)).leavePump l).setAttention l := by
  rw [State.faultLatched, h]

theorem faultLatched_armed (h : (v.line l).st = .armed) : v.faultLatched l b = (v.disarm l .fault).setAttention l := by
  rw [State.faultLatched, h]

theorem faultLatched_crediting (h : (v.line l).st.crediting = true) :
    v.faultLatched l b = if b then v.modLine l (LineCtx.cutOrRecord .pulser) else v := by
  unfold State.faultLatched
  cases hst : (v.line l).st with
  | flowing => rfl
  | stopping => rfl
  | settling => rfl
  | _ =>
    rw [hst] at h
    cases h

theorem faultLatched_paused (h : (v.line l).st = .paused) :
    v.faultLatched l b = if b then v.modLine l (fun c => { c with cause := some .pulser }) else v := by
  rw [State.faultLatched, h]

theorem faultLatched_fault (h : (v.line l).st = .fault) : v.faultLatched l b = v := by
  rw [State.faultLatched, h]

end

/-- A cut as R104 and R143 make it. -/
theorem cutOrRecord_cutOrRecorded (x : CutCause) (c : LineCtx) : c.cutOrRecorded x (LineCtx.cutOrRecord x c) := by
  refine ⟨fun h => ?_, fun h => ?_, fun h1 h2 h3 => ?_⟩
  · unfold LineCtx.cutOrRecord
    rcases h with h | h <;> rw [h] <;> rfl
  · have hrecord : LineCtx.cutOrRecord x c = c.recordCut x := by
      unfold LineCtx.cutOrRecord
      rw [h]
    exact hrecord
  · unfold LineCtx.cutOrRecord
    split
    · contradiction
    · contradiction
    · contradiction
    · rfl

theorem endWaits_cutOrRecord (x : CutCause) (c : LineCtx) : (LineCtx.cutOrRecord x c).endWaits = c.endWaits := by
  unfold LineCtx.cutOrRecord
  split
  all_goals rfl

theorem crediting_cutOrRecord (x : CutCause) (c : LineCtx) : (LineCtx.cutOrRecord x c).st.crediting = c.st.crediting := by
  unfold LineCtx.cutOrRecord
  split
  · next h => rw [h]; rfl
  · next h => rw [h]; rfl
  · rfl
  · rfl

/-- What a PULSER latch does to a line that is neither armed nor in SETUP. -/
def LineCtx.pulserLatched (before after : LineCtx) : Prop :=
  (before.st = .flowing ∨ before.st = .stopping → before.justCut .pulser after)
    ∧ (before.st = .settling → after = { before with cut := some .pulser })
    ∧ (before.st = .paused → after = { before with cause := some .pulser })
    ∧ (before.st = .idle → after.isAtRest .fault)
    ∧ (before.st = .fault → after = before)

/-- Behind a latch on a line that is not armed nothing is due, and the records stay. -/
theorem faultLatched_pulser {v : State} {l : Line} (hsetup : (v.line l).st ≠ .setup) (harmed : (v.line l).st ≠ .armed) :
    (v.faultLatched l true).queue = v.queue ∧ (v.faultLatched l true).slots = v.slots
      ∧ ((v.faultLatched l true).line l).st.crediting = (v.line l).st.crediting
      ∧ (v.line l).pulserLatched ((v.faultLatched l true).line l)
      ∧ ((v.line l).st = .idle → (v.faultLatched l true).attention.get l = true) := by
  have hcrediting : (v.line l).st.crediting = true → v.faultLatched l true = v.modLine l (LineCtx.cutOrRecord .pulser) :=
    fun h => (faultLatched_crediting true h).trans (if_pos rfl)
  have hcut : (v.line l).st.crediting = true → (v.line l).st ≠ .idle ∧ (v.line l).st ≠ .paused ∧ (v.line l).st ≠ .fault := by
    intro h
    refine ⟨?_, ?_, ?_⟩ <;> · intro he; rw [he] at h; cases h
  by_cases hc : (v.line l).st.crediting = true
  · obtain ⟨h1, h2, h3⟩ := hcut hc
    rw [hcrediting hc, line_modLine_same]
    obtain ⟨hflow, hsettle, -⟩ := cutOrRecord_cutOrRecorded .pulser (v.line l)
    exact ⟨rfl, rfl, crediting_cutOrRecord .., ⟨hflow, fun h => (hsettle h).trans (by simp), fun h => absurd h h2, fun h => absurd h h1,
      fun h => absurd h h3⟩, fun h => absurd h h1⟩
  · cases hst : (v.line l).st with
    | setup => exact absurd hst hsetup
    | armed => exact absurd hst harmed
    | flowing => exact absurd (by rw [hst]; rfl) hc
    | stopping => exact absurd (by rw [hst]; rfl) hc
    | settling => exact absurd (by rw [hst]; rfl) hc
    | idle =>
      rw [faultLatched_idle true hst]
      obtain ⟨hslots, hqueue⟩ := store_leavePump (v.modLine l (LineCtx.rest .fault)) l
      have hline : (((v.modLine l (LineCtx.rest .fault)).leavePump l).setAttention l).line l = LineCtx.rest .fault (v.line l) :=
        (line_leavePump ..).trans (line_modLine_same ..)
      rw [hline]
      refine ⟨hqueue, hslots, rfl, ⟨by simp [hst], by simp [hst], by simp [hst], fun _ => isAtRest_rest .., by simp [hst]⟩, fun _ => ?_⟩
      cases l <;> rfl
    | paused =>
      rw [faultLatched_paused true hst, if_pos rfl, line_modLine_same]
      exact ⟨rfl, rfl, congrArg LineState.crediting hst, ⟨by simp [hst], by simp [hst], fun _ => rfl, by simp [hst], by simp [hst]⟩, nofun⟩
    | fault =>
      rw [faultLatched_fault true hst]
      exact ⟨rfl, rfl, congrArg LineState.crediting hst, ⟨by simp [hst], by simp [hst], by simp [hst], by simp [hst], fun _ => rfl⟩, nofun⟩

end Sys2Proof.Machine
end

