-- ==== Sys2Proof/Proofs/Faults.lean ====
section
/-! PROOFS. A fault latched on an armed line, and phase errors. -/

open Sys2Proof Sys2Proof.Machine

namespace Sys2Proof.Machine

/-! ## A fault latched on an armed line (R62, R65, R66) -/

section
variable {s v : State} {l : Line}

/-- A latched fault releases an armed line as LN.DISARM does. -/
theorem faultLatched_release (b : Bool) (h : (v.line l).st = .armed) (hm : (v.meter l).latched = true) : v.faultLatched l b = v.release l := by
  rw [faultLatched_armed b h, State.release, if_pos hm]

/-- What a fault latched on an armed line leaves. -/
structure FaultReleased (l : Line) (stop : Nat) (r : Record) (s v t : State) : Prop where
  rest : (t.line l).isAtRest .fault
  record : t.recOf stop = some r.unbound
  attention : t.attention.get l = true
  left : left l s t
  asked : asked t (.record stop)
  others : sameRecordsBut stop s t
  blocks : sameBlocks s t
  meters : t.meters = v.meters

theorem commit_faultReleased (ha : s.isActive = true) (hs : s.settled = true) (hroom : s.roomy = true) (hv : MeterOnly s v)
    (hmeter : (v.meter l).latched = true) {stop : Nat} {r : Record} (b : Bool) (hst : (s.line l).st = .armed)
    (hb : (s.line l).bound = some stop) (hr : s.recOf stop = some r) : FaultReleased l stop r s v (commit (v.faultLatched l b)) := by
  have hline : v.line l = s.line l := hv.read (State.line · l)
  have hvb : (v.line l).bound = some stop := by rw [hline]; exact hb
  have hvst : (v.line l).st = .armed := by rw [hline]; exact hst
  have hvr : v.recOf stop = some r := (recOf_of_slots (hv.read State.slots) stop).trans hr
  have honly := release_onlyLine v l
  obtain ⟨hslots, hqueue⟩ := store_release hvb
  have hchanged : OneRecord stop v (v.release l) := (OneRecord.changeRec v stop Record.unbound fun _ => rfl).trans (.of_slots hslots)
  rw [queue_changeRec, queue_enqueue_congr (s := s) (hv.read State.queue)] at hqueue
  obtain ⟨hkeeps, hrec, hasked, hothers, -⟩ := commit_oneRecord (u := v.release l) (r := r.unbound) (stop := stop) ha hs hroom
    (honly.phase.trans (hv.read State.phase)) (honly.flight.trans (hv.read State.flight)) (honly.cmd.trans (hv.read State.cmd))
    (fun h => honly.noEndDue ⟨(congrArg (·.one.endWaits.any Waiter.over) (hv.read State.lines)).trans h.1,
      (congrArg (·.two.endWaits.any Waiter.over) (hv.read State.lines)).trans h.2⟩)
    (by rw [recOf_of_slots hslots, recOf_changeRec_same v stop Record.unbound (fun _ => rfl), hvr]; rfl)
    (OneRecord.trans (u := v) (.of_slots (hv.read State.slots)) hchanged)
    (fun h => ⟨[], by rw [hqueue, queue_enqueue, h]; rfl⟩) (by rw [hqueue]; exact mem_enqueue ..)
    (honly.unsaved.trans (hv.read State.unsaved))
  rw [faultLatched_release b hvst hmeter]
  refine ⟨?_, hrec, ?_, left_of_pump (left_release hvb) (hv.read State.pump).symm hkeeps.pump, hasked, hothers, ?_, ?_⟩
  · show ((commit (v.release l)).line l).core.isAtRest _
    rw [hkeeps.core, line_release hvb, if_pos hmeter]
    exact isAtRest_rest .fault (v.line l)
  · rw [hkeeps.attention, attention_release hvb, hmeter, Bool.true_or]
  · exact sameBlocks.trans (b := v.release l) (sameBlocks.trans (b := v)
      ⟨hv.read State.settings, hv.read State.load, hv.read State.route, hv.read State.counter⟩ honly.sameBlocks)
      ⟨hkeeps.settings, hkeeps.load, hkeeps.route, hkeeps.counter⟩
  · refine hkeeps.meters.trans ?_
    rw [← faultLatched_release b hvst hmeter]
    exact (faultLatched_keeps v l b).2.1

end

/-! ## A phase error (R56, R61, R62) -/

/-- The meter line behind a phase error that counts. -/
def Meter.erred (m : Meter) : Meter :=
  { m with levelA := !m.levelA, levelB := !m.levelB, quiet := 0, phaseErrors := min 65535 (m.phaseErrors + 1) }

/-- A state with one meter line set. -/
def State.metered (s : State) (l : Line) (m : Meter) : State := { s with meters := s.meters.set l m }

theorem modMeter_metered (s : State) (l : Line) (m : Meter) (f : Meter → Meter) : (s.metered l m).modMeter l f = s.metered l (f m) := by
  cases l <;> rfl

theorem modMeter_eq (s : State) (l : Line) (f : Meter → Meter) : s.modMeter l f = s.metered l (f (s.meter l)) := rfl

@[simp] theorem meter_metered (s : State) (l : Line) (m : Meter) : (s.metered l m).meter l = m := by cases l <;> rfl

theorem sameDue_metered (s : State) (l : Line) (m : Meter) : SameDue s (s.metered l m) := ⟨rfl, rfl, rfl, rfl, fun _ => rfl, rfl, rfl, rfl, rfl⟩

theorem lineOnly_metered (s : State) (l : Line) (m : Meter) : LineOnly l s (s.metered l m) :=
  ⟨rfl, rfl, rfl, by cases l <;> rfl, rfl, rfl⟩

theorem lineOnly_edged (s : State) (l : Line) (m : Meter) : LineOnly l s (s.edged l m) :=
  ⟨rfl, rfl, rfl, meter_edged_other s l m, rfl, rfl⟩

section
variable {s : State} {l : Line}

theorem phaseError_setup (h : (s.line l).st = .setup) :
    s.phaseError l = s.metered l { s.meter l with levelA := !(s.meter l).levelA, levelB := !(s.meter l).levelB, quiet := 0 } := by
  rw [State.phaseError, if_pos h]
  rfl

theorem phaseError_counts (h : (s.line l).st ≠ .setup) : s.phaseError l =
    if 16 < (s.meter l).erred.phaseErrors ∧ (s.meter l).latchPulser = false then
      (s.metered l { (s.meter l).erred with latchPulser := true }).faultLatched l true
    else s.metered l (s.meter l).erred := by
  rw [State.phaseError, if_neg h]
  simp only [modMeter_eq s, modMeter_metered, meter_metered]
  rfl

theorem exec_phaseError (ha : s.isActive = true) : exec (.phaseError l) s = .next (commit (s.phaseError l)) := by
  show execPhaseError l s = _
  rw [execPhaseError, event, comesUp_active s ha, if_pos ha]

end

end Sys2Proof.Machine

/-- Settles O49: a fault is counted, latched, and answered by its line's state. -/
theorem latchedFaults : Obligations.LatchedFaults := by
  refine ⟨fun l m s ha hs hm => ⟨fun hsetup => ?_, fun hsetup hfew => ?_, fun hsetup harmed hmany hlatch => ?_,
      fun stop r harmed hmany hlatch hroom hb hr => ?_⟩,
    fun l p us pr s ha hs hpr hlatch hover hforward => ?_⟩
  · subst hm
    rw [exec_phaseError ha, phaseError_setup hsetup, (sameDue_metered ..).keeps.commit ha hs]
    rfl
  · subst hm
    rw [exec_phaseError ha, phaseError_counts hsetup, if_neg ?_, (sameDue_metered ..).keeps.commit ha hs]
    · rfl
    · rintro ⟨h1, h2⟩
      have h1 : 16 < min 65535 ((s.meter l).phaseErrors + 1) := h1
      rcases hfew with h | h
      · omega
      · rw [h2] at h; cases h
  · subst hm
    have hover : 16 < min 65535 ((s.meter l).phaseErrors + 1) := by omega
    rw [exec_phaseError ha, phaseError_counts hsetup, if_pos ⟨hover, hlatch⟩]
    obtain ⟨v, hv⟩ : ∃ v, v = s.metered l { (s.meter l).erred with latchPulser := true } := ⟨_, rfl⟩
    have hvonly : LineOnly l s v := hv ▸ lineOnly_metered ..
    have hvline : v.line l = s.line l := by rw [hv]; rfl
    obtain ⟨honly, hmeters, hpress⟩ := faultLatched_keeps v l true
    obtain ⟨hqueue, hslots, hcredit, hline, hitem⟩ := faultLatched_pulser (v := v) (l := l) (by rw [hvline]; exact hsetup)
      (by rw [hvline]; exact harmed)
    have hall := hvonly.trans honly
    rw [hvline] at hcredit hline hitem
    rw [← hv, (hall.sameDue (hqueue.trans (by rw [hv]; rfl)) hcredit).keeps.commit ha hs]
    obtain ⟨hflow, hsettle, hpaused, hidle, hfault⟩ := hline
    refine ⟨_, rfl, hmeters.trans (by rw [hv]; rfl), ⟨fun n => recOf_of_slots (hslots.trans (by rw [hv]; rfl)) n, hall.unsaved⟩,
      ⟨congrArg LineCtx.core hall.otherLine, hall.otherItem⟩, hall.sameBlocks, hall.sameTruck, hflow, hsettle, hpaused,
      fun h => ⟨hidle h, hitem h⟩, hfault⟩
  · subst hm
    have hover : 16 < min 65535 ((s.meter l).phaseErrors + 1) := by omega
    rw [exec_phaseError ha, phaseError_counts (by rw [harmed]; nofun), if_pos ⟨hover, hlatch⟩]
    obtain ⟨v, hv⟩ : ∃ v, v = s.metered l { (s.meter l).erred with latchPulser := true } := ⟨_, rfl⟩
    have hmeter : v.meter l = { (s.meter l).erred with latchPulser := true } := by rw [hv, meter_metered]
    have hvonly : MeterOnly s v := by rw [hv]; rfl
    rw [← hv]
    have hreleased := commit_faultReleased ha hs hroom hvonly (by rw [hmeter]; simp [Meter.latched]) true harmed hb hr
    refine ⟨_, rfl, ?_, hreleased.rest, hreleased.record, hreleased.attention, hreleased.left, hreleased.asked, hreleased.others,
      hreleased.blocks⟩
    have := congrArg (·.get l) hreleased.meters
    exact (congrArg Meter.latchPulser this).trans (congrArg Meter.latchPulser hmeter)
  · have hcond : ∀ x, x = s.restedMeter l p → (s.meter l).isForward p = true ∧ pr < x.creep ∧ x.latchCreep = false := by
      rintro x rfl
      refine ⟨hforward, ?_, ?_⟩
      · rw [State.restedMeter, toggle_eq, hforward]
        exact hover
      · rw [State.restedMeter, toggle_eq]
        exact hlatch
    obtain ⟨v, hv⟩ : ∃ v, v = s.edged l { s.restedMeter l p with latchCreep := true } := ⟨_, rfl⟩
    have hedge : (s.line l).st ≠ .setup → (s.line l).st.crediting = false →
        exec (.pulserEdge l p us) s = .next (commit (v.faultLatched l false)) := by
      intro hsetup hcredit
      rw [exec_edge ha, edge_resting p us hsetup hcredit hpr, if_pos (hcond _ rfl), hv]
    have hvonly : LineOnly l s v := hv ▸ lineOnly_edged ..
    have hvline : v.line l = s.line l := by rw [hv]; rfl
    have hmeter : v.meter l = { s.restedMeter l p with latchCreep := true } := by rw [hv, meter_edged]
    obtain ⟨honly, hmeters, -⟩ := faultLatched_keeps v l false
    have hall := hvonly.trans honly
    have hcreep : ∀ {t : State}, t.meters = v.meters → (t.meter l).latchCreep = true := fun ht =>
      (congrArg (fun q : Pair Meter => (q.get l).latchCreep) ht).trans (congrArg Meter.latchCreep hmeter)
    refine ⟨fun hst => ?_, fun hst => ?_, fun stop r hst hroom hb hr => ?_⟩
    · rw [hedge (by rw [hst]; nofun) (by rw [hst]; rfl)]
      have hidle := faultLatched_idle (v := v) (l := l) false (by rw [hvline]; exact hst)
      obtain ⟨hslots, hqueue⟩ := store_leavePump (v.modLine l (LineCtx.rest .fault)) l
      have hline : (v.faultLatched l false).line l = LineCtx.rest .fault (v.line l) := by
        rw [hidle]
        exact (line_leavePump ..).trans (line_modLine_same ..)
      have hq : (v.faultLatched l false).queue = s.queue := by
        rw [hidle]
        exact hqueue.trans (by rw [hv]; rfl)
      have hsl : (v.faultLatched l false).slots = s.slots := by
        rw [hidle]
        exact hslots.trans (by rw [hv]; rfl)
      rw [(hall.sameDue hq (by rw [hline, hst]; rfl)).keeps.commit ha hs]
      refine ⟨_, rfl, hcreep hmeters, by rw [hline]; exact isAtRest_rest .., ?_, ⟨congrArg LineCtx.core hall.otherLine, hall.otherItem⟩,
        ⟨fun n => recOf_of_slots hsl n, hall.unsaved⟩, hall.sameBlocks⟩
      rw [hidle]
      cases l <;> rfl
    · rw [hedge (by rw [hst]; nofun) (by rw [hst]; rfl), faultLatched_paused false (by rw [hvline]; exact hst), if_neg Bool.false_ne_true,
        hv, commit_edged ha hs]
      exact ⟨_, rfl, by rw [meter_edged], rfl, ⟨fun _ => rfl, rfl⟩, ⟨rfl, rfl, rfl, rfl⟩⟩
    · rw [hedge (by rw [hst]; nofun) (by rw [hst]; rfl)]
      have hreleased := commit_faultReleased (v := v) ha hs hroom (by rw [hv]; rfl) (by rw [hmeter]; simp [Meter.latched]) false hst hb hr
      exact ⟨_, rfl, hcreep hreleased.meters, hreleased.rest, hreleased.record, hreleased.attention, hreleased.left, hreleased.asked,
        hreleased.others, hreleased.blocks⟩
end

