-- ==== Sys2Proof/Proofs/Batches.lean ====
section
/-! PROOFS. A batch taken and converted, and what it may touch. -/

open Sys2Proof Sys2Proof.Machine

namespace Sys2Proof.Machine

/-! ## What a conversion and the decisions behind it may touch (R58, R102) -/

/-- One line credits: it, its meter line, the records, the marks of presses and the free values change, and nothing else. -/
structure CreditOnly (l : Line) (s u : State) : Prop where
  eq : u = { s with slots := u.slots, lines := u.lines, meters := u.meters, press := u.press, fresh := u.fresh }
  otherLine : u.line l.other = s.line l.other
  otherMeter : u.meter l.other = s.meter l.other
  endWaits : (u.line l).endWaits = (s.line l).endWaits

namespace CreditOnly
variable {l : Line} {s u v : State}

theorem refl (l : Line) (s : State) : CreditOnly l s s := ⟨rfl, rfl, rfl, rfl⟩

theorem trans (h : CreditOnly l s u) (k : CreditOnly l u v) : CreditOnly l s v where
  eq := by
    have heq := h.eq
    rw [k.eq]
    generalize v.slots = a, v.lines = b, v.meters = c, v.press = d, v.fresh = e
    rw [heq]
  otherLine := k.otherLine.trans h.otherLine
  otherMeter := k.otherMeter.trans h.otherMeter
  endWaits := k.endWaits.trans h.endWaits

theorem modLine (s : State) (l : Line) (f : LineCtx → LineCtx) (hf : ∀ c, (f c).endWaits = c.endWaits) : CreditOnly l s (s.modLine l f) :=
  ⟨rfl, line_modLine_of_ne s f (other_ne l), rfl, by rw [line_modLine_same, hf]⟩

theorem modMeter (s : State) (l : Line) (f : Meter → Meter) : CreditOnly l s (s.modMeter l f) :=
  ⟨rfl, rfl, meter_modMeter_of_ne s f (other_ne l), rfl⟩

theorem modRec (l : Line) (s : State) (stop : Nat) (f : Record → Record) : CreditOnly l s (s.modRec stop f) := ⟨rfl, rfl, rfl, rfl⟩

theorem drew (l : Line) (s : State) (b : Bool) : CreditOnly l s (s.drew b) := by
  unfold State.drew; split <;> exact ⟨rfl, rfl, rfl, rfl⟩

theorem timeRow (l : Line) (s : State) (k : TimeRow) : CreditOnly l s (s.timeRow k) := ⟨rfl, rfl, rfl, rfl⟩

theorem convert (s : State) (l : Line) : CreditOnly l s (s.convert l) := by
  have h : CreditOnly l s ((s.modMeter l (fun m => m.handedOver ((s.line l).kind != some .order))).modLine l (s.batchCtx l)) :=
    (modMeter ..).trans (modLine _ l (s.batchCtx l) fun _ => rfl)
  unfold State.convert
  dsimp only
  split
  · exact (h.trans (modRec ..)).trans (drew ..)
  · exact h.trans (drew ..)

section
variable (h : CreditOnly l s u)
include h

theorem read {α : Type} (g : State → α) :
    g u = g { s with slots := u.slots, lines := u.lines, meters := u.meters, press := u.press, fresh := u.fresh } := congrArg g h.eq

theorem sameBlocks : sameBlocks s u := ⟨h.read State.settings, h.read State.load, h.read State.route, h.read State.counter⟩

theorem sameTruck : sameTruck s { u with meters := s.meters } :=
  ⟨h.read State.inputs, rfl, h.read State.clock, h.read State.captures, h.read State.areaSettings, h.read State.areaLoad,
    h.read State.areaRoute, h.read State.failed, h.read State.seq, h.read State.patrolCursor, h.read State.resetCause, h.read State.phase,
    h.read State.mode, h.read State.ignitionLow, h.read State.sleepDue⟩

theorem sameOther : sameLine s u l.other :=
  ⟨congrArg LineCtx.core h.otherLine, congrArg (·.get l.other) (h.read State.attention)⟩

/-- A line that goes on crediting makes nothing due. -/
theorem sameDue (hc : (u.line l).st.crediting = (s.line l).st.crediting) : SameDue s u where
  phase := h.read State.phase
  flight := h.read State.flight
  queue := h.read State.queue
  cmd := h.read State.cmd
  ends := forall_line l h.endWaits (congrArg LineCtx.endWaits h.otherLine)
  crediting := by
    have ho := congrArg (fun c : LineCtx => c.st.crediting) h.otherLine
    unfold State.anyCrediting
    cases l
    · exact congrArg₂ (· || ·) hc ho
    · exact congrArg₂ (· || ·) ho hc
  mode := h.read State.mode
  ignition := congrArg Inputs.ignition (h.read State.inputs)
  sleepDue := h.read State.sleepDue

end

end CreditOnly

/-! ## A batch taken (R58, R59, R78 to R82) -/

theorem line_convert (s : State) (l : Line) : (s.convert l).line l = s.batchCtx l (s.line l) := by
  have hdrew : ∀ (u : State) (b : Bool), (u.drew b).line l = u.line l := fun u b => congrArg (·.get l) (drew_lines (s := u) b)
  unfold State.convert
  dsimp only
  rw [hdrew]
  split
  · exact line_modLine_same ..
  · exact line_modLine_same ..

theorem meter_convert (s : State) (l : Line) :
    (s.convert l).meter l = (s.meter l).handedOver ((s.line l).kind != some .order) := by
  have hdrew : ∀ (u : State) (b : Bool), (u.drew b).meter l = u.meter l := fun u b => congrArg (·.get l) (drew_meters (s := u) b)
  unfold State.convert
  dsimp only
  rw [hdrew]
  split
  · exact meter_modMeter_same ..
  · exact meter_modMeter_same ..

/-- A record behind a batch of its line (R60, R74, R81, R82). -/
def State.credit (s : State) (l : Line) (r : Record) : Record :=
  { r.modActive (Acc.credit (s.batchGross l).1 (s.batchNet l).1 (s.meter l).batchGated) with flags := s.batchFlags l r.flags }

theorem slots_convert_order {s : State} {l : Line} {stop : Nat} (hk : (s.line l).kind = some .order) (hb : (s.line l).bound = some stop) :
    (s.convert l).slots = (s.modRec stop (s.credit l)).slots := by
  unfold State.convert
  rw [hk, hb]
  exact drew_slots ..

theorem slots_convert_free {s : State} {l : Line} (h : (s.line l).kind ≠ some .order ∨ (s.line l).bound = none) :
    (s.convert l).slots = s.slots := by
  unfold State.convert
  dsimp only
  rw [drew_slots]
  split
  · next hk hb =>
    rcases h with h | h
    · exact absurd hk h
    · rw [hb] at h; cases h
  · rfl

theorem recOf_convert {s : State} {l : Line} {stop : Nat} {r : Record} (hk : (s.line l).kind = some .order)
    (hb : (s.line l).bound = some stop) (hr : s.recOf stop = some r) : (s.convert l).recOf stop = some (s.credit l r) := by
  rw [recOf_of_slots (slots_convert_order hk hb), recOf_modRec_same s stop (s.credit l) (fun _ => rfl), hr]
  rfl

theorem oneRecord_convert {s : State} {l : Line} {stop : Nat} (hb : (s.line l).bound = some stop) : OneRecord stop s (s.convert l) := by
  by_cases hk : (s.line l).kind = some .order
  · exact (OneRecord.modRec s stop (s.credit l) fun _ => rfl).trans (.of_slots (slots_convert_order hk hb))
  · exact .of_slots (slots_convert_free (.inl hk))

theorem latchedOf_convert (s : State) (l : Line) : (s.convert l).latchedOf l = s.latchedOf l :=
  latchedOf_congr (by rw [line_convert]; rfl) ((CreditOnly.convert s l).read State.settings)

theorem nth1_credit {s : State} {l : Line} {r : Record} {n : Nat} {d : Drop} {a : Acc} (hn : nth1 r.drops n = some d) (hd : d.st = .active a) :
    nth1 (s.credit l r).drops n
      = some { d with st := .active (a.credit (s.batchGross l).1 (s.batchNet l).1 (s.meter l).batchGated) } := by
  show nth1 (r.drops.map _) n = _
  rw [nth1_map, hn]
  simp [hd]

/-! ## The factors of an ORDER run (R77) -/

section
variable {s : State} {l : Line} {stop pr : Nat} {r : Record} {x : CalSet} (hk : (s.line l).kind = some .order)
  (hb : (s.line l).bound = some stop) (hr : s.recOf stop = some r)
include hk hb hr

theorem runProduct_order : s.runProduct l = some r.product := by
  unfold State.runProduct
  rw [hk]
  simp only [boundRec_eq hb hr, Option.map_some]

theorem batchVcf_order : s.batchVcf l
    = vcfOf (s.settings.product r.product).alpha (s.settings.product r.product).compOn (s.meter l).batchTemp.1 := by
  unfold State.batchVcf State.vcfAt
  rw [runProduct_order hk hb hr]

theorem batchGross_order (hpr : (s.items l).pr = some pr) (hx : s.settings.calSet l r.product = some x) :
    s.batchGross l = grossStage pr (factorIn x (s.meter l).band) (s.line l).grossRem (s.credited l) := by
  have hset : s.runSet l = some x := by
    unfold State.runSet
    rw [runProduct_order hk hb hr]
    exact hx
  have hfactor : s.factorOf l (s.meter l).band = factorIn x (s.meter l).band := by
    unfold State.factorOf
    rw [if_neg (by rw [hk]; nofun), hset]
  unfold State.batchGross State.prOf
  rw [hfactor, hpr]

end

/-! ## Live net and remaining volume (R83, R100) -/

theorem liveNet_congr {s u : State} {l : Line} (hslots : u.slots = s.slots) (hk : (u.line l).kind = (s.line l).kind)
    (hb : (u.line l).bound = (s.line l).bound) (hn : (u.line l).runNet = (s.line l).runNet) : u.liveNet l = s.liveNet l := by
  have hrec : u.boundRec l = s.boundRec l := by
    unfold State.boundRec
    rw [hb]
    exact congrArg _ (funext fun n => recOf_of_slots hslots n)
  unfold State.liveNet
  rw [hk, hrec, hn]

theorem remaining_congr {s u : State} {l : Line} (hlive : u.liveNet l = s.liveNet l) (hlimit : (u.line l).limit = (s.line l).limit) :
    u.remaining l = s.remaining l := by
  unfold State.remaining
  rw [hlive, hlimit]

end Sys2Proof.Machine
end

