-- ==== Sys2Proof/Proofs/WindowSteps.lean ====
section
/-! PROOFS. The steps of a window's expiry. -/

open Sys2Proof Sys2Proof.Machine

namespace Sys2Proof.Machine

/-! ## The window's expiry (R102, R103) -/

/-- The line's context once its window's batch has been credited and its timers loaded. -/
def State.windowCtx (s : State) (l : Line) : LineCtx :=
  { s.batchCtx l (s.line l) with
    timers := { (s.line l).timers with
      window := some 100000
      noFlow := if 0 < s.credited l ∧ (s.line l).st = .flowing then some ((s.latchedOf l).run.noFlow * 1000000)
        else (s.line l).timers.noFlow } }

/-- A stop at the limit (R102). -/
def LineCtx.limitStopped (x : RunSettings) (live : Nat) (rem : Limit) (c : LineCtx) : LineCtx :=
  if c.st = .flowing ∧ rem.atMost c.antic = true then c.stopped x .limit live else c

/-- A cut at a reverse excess (R102). -/
def LineCtx.reverseCut (excess : Bool) (c : LineCtx) : LineCtx := if excess then c.cutOrRecord .reverse else c

/-- The decisions behind the batch: a stop at the limit, a cut at a reverse excess, HIGH. -/
def LineCtx.decided (x : RunSettings) (live : Nat) (rem : Limit) (excess : Bool) (c : LineCtx) : LineCtx :=
  if ((c.limitStopped x live rem).reverseCut excess).st = .flowing then
    ((c.limitStopped x live rem).reverseCut excess).decideHigh x live rem
  else (c.limitStopped x live rem).reverseCut excess

/-- What the decisions leave of a line's context: its run, its limit, its volumes, its window. -/
structure RunKept (c d : LineCtx) : Prop where
  kind : d.kind = c.kind
  bound : d.bound = c.bound
  limit : d.limit = c.limit
  runNet : d.runNet = c.runNet
  latched : d.latched = c.latched
  reverse : d.reverse = c.reverse
  window : d.timers.window = c.timers.window
  endWaits : d.endWaits = c.endWaits
  crediting : d.st.crediting = c.st.crediting

theorem RunKept.refl (c : LineCtx) : RunKept c c := ⟨rfl, rfl, rfl, rfl, rfl, rfl, rfl, rfl, rfl⟩

theorem RunKept.trans {c d e : LineCtx} (h : RunKept c d) (k : RunKept d e) : RunKept c e :=
  ⟨k.kind.trans h.kind, k.bound.trans h.bound, k.limit.trans h.limit, k.runNet.trans h.runNet, k.latched.trans h.latched,
    k.reverse.trans h.reverse, k.window.trans h.window, k.endWaits.trans h.endWaits, k.crediting.trans h.crediting⟩

theorem runKept_stopped {c : LineCtx} (h : c.st = .flowing) (x : RunSettings) (i : StopIntent) (live : Nat) :
    RunKept c (c.stopped x i live) := by
  unfold LineCtx.stopped
  split
  · exact ⟨rfl, rfl, rfl, rfl, rfl, rfl, rfl, rfl, by rw [h]; rfl⟩
  · exact ⟨rfl, rfl, rfl, rfl, rfl, rfl, rfl, rfl, by rw [h]; rfl⟩

theorem runKept_cutOrRecord (x : CutCause) (c : LineCtx) : RunKept c (c.cutOrRecord x) := by
  unfold LineCtx.cutOrRecord
  split
  · next h => exact ⟨rfl, rfl, rfl, rfl, rfl, rfl, rfl, rfl, by rw [h]; rfl⟩
  · next h => exact ⟨rfl, rfl, rfl, rfl, rfl, rfl, rfl, rfl, by rw [h]; rfl⟩
  · exact ⟨rfl, rfl, rfl, rfl, rfl, rfl, rfl, rfl, rfl⟩
  · exact .refl c

theorem runKept_decideHigh (x : RunSettings) (live : Nat) (rem : Limit) (c : LineCtx) : RunKept c (c.decideHigh x live rem) := by
  unfold LineCtx.decideHigh
  split
  · exact ⟨rfl, rfl, rfl, rfl, rfl, rfl, rfl, rfl, rfl⟩
  · split
    · exact ⟨rfl, rfl, rfl, rfl, rfl, rfl, rfl, rfl, rfl⟩
    · exact .refl c

theorem runKept_limitStopped (x : RunSettings) (live : Nat) (rem : Limit) (c : LineCtx) : RunKept c (c.limitStopped x live rem) := by
  unfold LineCtx.limitStopped
  split
  · next h => exact runKept_stopped h.1 x .limit live
  · exact .refl c

theorem runKept_reverseCut (excess : Bool) (c : LineCtx) : RunKept c (c.reverseCut excess) := by
  unfold LineCtx.reverseCut
  split
  · exact runKept_cutOrRecord .reverse c
  · exact .refl c

theorem runKept_decided (x : RunSettings) (live : Nat) (rem : Limit) (excess : Bool) (c : LineCtx) :
    RunKept c (c.decided x live rem excess) := by
  have hcut := (runKept_limitStopped x live rem c).trans (runKept_reverseCut excess _)
  unfold LineCtx.decided
  split
  · exact hcut.trans (runKept_decideHigh ..)
  · exact hcut

/-! ### The line behind the window -/

section
variable (s : State) (l : Line)

/-- The state behind the first step of R102, its timers loaded. -/
def State.windowed : State :=
  if 0 < s.credited l ∧ (s.line l).st = .flowing then
    ((s.convert l).modTimers l (fun t => { t with window := some 100000 })).modTimers l
      (fun t => { t with noFlow := some ((s.latchedOf l).run.noFlow * 1000000) })
  else (s.convert l).modTimers l (fun t => { t with window := some 100000 })

/-- The state behind the second step: a stop where the limit is reached. -/
def State.windowStopped : State :=
  if (s.line l).st = .flowing ∧ ((s.windowed l).remaining l).atMost ((s.windowed l).line l).antic = true then
    (s.windowed l).beginStop l .limit
  else s.windowed l

/-- The state behind the third step: a cut where the batch reports a reverse excess. -/
def State.windowCut : State :=
  if s.excess l then (s.windowStopped l).modLine l (LineCtx.cutOrRecord .reverse) else s.windowStopped l

theorem windowEnd_eq : s.windowEnd l =
    if ((s.windowCut l).line l).st = .flowing then (s.windowCut l).decideHigh l else s.windowCut l := rfl

theorem line_windowed : (s.windowed l).line l = s.windowCtx l := by
  unfold State.windowed State.windowCtx
  split
  · unfold State.modTimers
    rw [line_modLine_same, line_modLine_same, line_convert]
    rfl
  · unfold State.modTimers
    rw [line_modLine_same, line_convert]
    rfl

theorem creditOnly_windowed : CreditOnly l s (s.windowed l) := by
  have hwindow := (CreditOnly.convert s l).trans
    (CreditOnly.modLine _ l (fun c => { c with timers := { c.timers with window := some 100000 } }) fun _ => rfl)
  unfold State.windowed
  split
  · exact hwindow.trans (CreditOnly.modLine _ l (fun c => { c with timers :=
      { c.timers with noFlow := some ((s.latchedOf l).run.noFlow * 1000000) } }) fun _ => rfl)
  · exact hwindow

theorem slots_windowed : (s.windowed l).slots = (s.convert l).slots := by
  unfold State.windowed
  split <;> rfl

theorem meters_windowed : (s.windowed l).meters = (s.convert l).meters := by
  unfold State.windowed
  split <;> rfl

theorem latchedOf_windowed : (s.windowed l).latchedOf l = s.latchedOf l :=
  latchedOf_congr (by rw [line_windowed]; rfl) ((creditOnly_windowed s l).read State.settings)

end

/-- A line's context set. -/
def State.lined (s : State) (l : Line) (c : LineCtx) : State := { s with lines := s.lines.set l c }

@[simp] theorem line_lined (s : State) (l : Line) (c : LineCtx) : (s.lined l c).line l = c := by cases l <;> rfl

theorem modLine_eq (s : State) (l : Line) (f : LineCtx → LineCtx) : s.modLine l f = s.lined l (f (s.line l)) := rfl

theorem modLine_lined (s : State) (l : Line) (c : LineCtx) (f : LineCtx → LineCtx) : (s.lined l c).modLine l f = s.lined l (f c) := by
  cases l <;> rfl

theorem lined_self (s : State) (l : Line) : s.lined l (s.line l) = s := by cases l <;> rfl

section
variable {s : State} {l : Line} {c : LineCtx} (h : RunKept (s.line l) c)
include h

theorem liveNet_lined : (s.lined l c).liveNet l = s.liveNet l :=
  liveNet_congr rfl (by rw [line_lined]; exact h.kind) (by rw [line_lined]; exact h.bound) (by rw [line_lined]; exact h.runNet)

theorem remaining_lined : (s.lined l c).remaining l = s.remaining l :=
  remaining_congr (liveNet_lined h) (by rw [line_lined]; exact h.limit)

theorem latchedOf_lined : (s.lined l c).latchedOf l = s.latchedOf l := latchedOf_congr (by rw [line_lined]; exact h.latched) rfl

end

/-- Behind the batch only the line's context changes: it is the one the decisions give. -/
theorem windowEnd_lined (s : State) (l : Line) : s.windowEnd l = (s.windowed l).lined l ((s.windowCtx l).decided (s.latchedOf l).run
    ((s.windowed l).liveNet l) ((s.windowed l).remaining l) (s.excess l)) := by
  have hline := line_windowed s l
  obtain ⟨live, hlive⟩ : ∃ n, n = (s.windowed l).liveNet l := ⟨_, rfl⟩
  obtain ⟨rem, hrem⟩ : ∃ x, x = (s.windowed l).remaining l := ⟨_, rfl⟩
  have hstopped : s.windowStopped l = (s.windowed l).lined l ((s.windowCtx l).limitStopped (s.latchedOf l).run live rem) := by
    unfold State.windowStopped LineCtx.limitStopped
    rw [← hrem, hline, show (s.line l).st = (s.windowCtx l).st from rfl]
    split
    · rw [State.beginStop, latchedOf_windowed, modLine_eq, hline, hlive]
    · rw [← hline, lined_self]
  have hcut : s.windowCut l = (s.windowed l).lined l (((s.windowCtx l).limitStopped (s.latchedOf l).run live rem).reverseCut (s.excess l)) := by
    unfold State.windowCut LineCtx.reverseCut
    rw [hstopped]
    split
    · exact modLine_lined ..
    · rfl
  have hkept := (runKept_limitStopped (s.latchedOf l).run live rem (s.windowCtx l)).trans (runKept_reverseCut (s.excess l) _)
  rw [← hline] at hkept
  unfold LineCtx.decided
  rw [windowEnd_eq, hcut, line_lined, ← hlive, ← hrem, ← hline]
  split
  · rw [State.decideHigh, latchedOf_lined hkept, liveNet_lined hkept, remaining_lined hkept, latchedOf_windowed, modLine_lined, ← hlive, ← hrem]
  · rfl

end Sys2Proof.Machine
end

