-- ==== Sys2Proof/Proofs/Windows.lean ====
section
/-! PROOFS. The outcome of a window. -/

open Sys2Proof Sys2Proof.Machine

namespace Sys2Proof.Machine

/-! ## The outcome of a window (R102, R103) -/

section
variable {x : RunSettings} {live : Nat} {rem : Limit} {c : LineCtx}

theorem decided_limit (hst : c.st = .flowing) (hrem : rem.atMost c.antic = true) :
    c.decided x live rem false = c.stopped x .limit live := by
  have hnot : ¬ (c.stopped x .limit live).st = .flowing := by
    unfold LineCtx.stopped
    split <;> exact nofun
  have hstopped : c.limitStopped x live rem = c.stopped x .limit live := if_pos ⟨hst, hrem⟩
  unfold LineCtx.decided
  rw [hstopped]
  exact if_neg hnot

theorem decided_flows (hst : c.st = .flowing) (hrem : rem.atMost c.antic = false) : c.decided x live rem false = c.decideHigh x live rem := by
  have hgoes : c.limitStopped x live rem = c := if_neg fun h => Bool.false_ne_true (hrem.symm.trans h.2)
  unfold LineCtx.decided
  rw [hgoes]
  exact if_pos hst

theorem decided_stays (hst : c.st ≠ .flowing) : c.decided x live rem false = c := by
  have hgoes : c.limitStopped x live rem = c := if_neg fun h => hst h.1
  unfold LineCtx.decided
  rw [hgoes]
  exact if_neg hst

/-- A reverse excess cuts the line, whatever was decided before. -/
theorem decided_excess : c.decided x live rem true = (c.limitStopped x live rem).cutOrRecord .reverse := by
  have hnot : ¬ ((c.limitStopped x live rem).cutOrRecord .reverse).st = .flowing := by
    unfold LineCtx.cutOrRecord
    split
    · exact nofun
    · exact nofun
    · next h => exact fun hf => absurd (h.symm.trans hf) nofun
    · assumption
  exact if_neg hnot

/-- A line that credits is cut to SETTLING, its commands closed where they were not closed before. -/
theorem excess_cuts (hc : c.st.crediting = true) : ((c.limitStopped x live rem).cutOrRecord .reverse).st = .settling
    ∧ ((c.limitStopped x live rem).cutOrRecord .reverse).cut = (if c.cut = some .pulser then some .pulser else some .reverse)
    ∧ (c.st ≠ .settling → ((c.limitStopped x live rem).cutOrRecord .reverse).cmdLow = false
        ∧ ((c.limitStopped x live rem).cutOrRecord .reverse).cmdHigh = false) := by
  obtain ⟨d, hd⟩ : ∃ d, d = c.limitStopped x live rem := ⟨_, rfl⟩
  have hcut : d.cut = c.cut := by
    rw [hd]
    unfold LineCtx.limitStopped LineCtx.stopped
    split
    · split <;> rfl
    · rfl
  have hcredit : d.st.crediting = true := hd ▸ (runKept_limitStopped x live rem c).crediting.trans hc
  have hclosed : d.st = .settling → c.st ≠ .settling → d.cmdLow = false ∧ d.cmdHigh = false := by
    rw [hd]
    unfold LineCtx.limitStopped LineCtx.stopped
    split
    · split
      · exact fun h => nomatch h
      · exact fun _ _ => ⟨rfl, rfl⟩
    · exact fun h hne => absurd h hne
  rw [← hd]
  obtain ⟨hflow, hsettle, -⟩ := cutOrRecord_cutOrRecorded .reverse d
  cases hst : d.st with
  | flowing =>
    rw [hflow (.inl hst), ← hcut]
    exact ⟨rfl, rfl, fun _ => ⟨rfl, rfl⟩⟩
  | stopping =>
    rw [hflow (.inr hst), ← hcut]
    exact ⟨rfl, rfl, fun _ => ⟨rfl, rfl⟩⟩
  | settling =>
    rw [hsettle hst, ← hcut]
    exact ⟨hst, rfl, hclosed hst⟩
  | _ =>
    rw [hst] at hcredit
    cases hcredit

end

theorem exec_window {s : State} {l : Line} (ha : s.isActive = true) (hs : s.settled = true)
    (hw : (s.line l).timers.window.isSome = true) (hc : (s.line l).st.crediting = true) :
    CreditOnly l s (s.windowEnd l) ∧ exec (.windowExpiry l) s = .next ((s.windowEnd l).timeRow (.window l)) := by
  have hdecided := runKept_decided (s.latchedOf l).run ((s.windowed l).liveNet l) ((s.windowed l).remaining l) (s.excess l) (s.windowCtx l)
  have hwindowed := creditOnly_windowed s l
  have honly : CreditOnly l s (s.windowEnd l) := by
    rw [windowEnd_lined]
    have hends := hwindowed.endWaits
    rw [line_windowed] at hends
    exact hwindowed.trans ⟨rfl, line_modLine_of_ne (s.windowed l) (fun _ => _) (other_ne l), rfl, by
      rw [line_lined, line_windowed]
      exact hdecided.endWaits⟩
  refine ⟨honly, ?_⟩
  show execWindowExpiry l s = _
  rw [execWindowExpiry]
  have hcredit : (((s.windowEnd l).timeRow (.window l)).line l).st.crediting = (s.line l).st.crediting := by
    show ((s.windowEnd l).line l).st.crediting = _
    rw [windowEnd_lined, line_lined]
    exact hdecided.crediting
  exact activeEvent_keeps ha hs (if_pos ⟨hw, hc⟩) ((honly.trans (.timeRow l _ _)).sameDue hcredit).keeps

end Sys2Proof.Machine

/-- Settles O50: the batch is credited, then the line's context alone is decided. -/
theorem windowConvertsAndDecides : Obligations.WindowConvertsAndDecides := by
  intro l m s ha hs hw hc hm
  subst hm
  obtain ⟨honly, hexec⟩ := exec_window ha hs hw hc
  obtain ⟨x, hx⟩ : ∃ x, x = (s.latchedOf l).run := ⟨_, rfl⟩
  obtain ⟨live, hlive⟩ : ∃ n, n = (s.windowed l).liveNet l := ⟨_, rfl⟩
  obtain ⟨rem, hrem⟩ : ∃ x, x = (s.windowed l).remaining l := ⟨_, rfl⟩
  have hlined := windowEnd_lined s l
  rw [← hx, ← hlive, ← hrem] at hlined
  have hkept := runKept_decided x live rem (s.excess l) (s.windowCtx l)
  obtain ⟨t, ht⟩ : ∃ t, t = (s.windowEnd l).timeRow (.window l) := ⟨_, rfl⟩
  rw [← ht] at hexec
  have hline : t.line l = (s.windowCtx l).decided x live rem (s.excess l) := by
    rw [ht]
    show (s.windowEnd l).line l = _
    rw [hlined, line_lined]
  have hslots : t.slots = (s.convert l).slots := by
    rw [ht]
    show (s.windowEnd l).slots = _
    rw [hlined]
    exact slots_windowed s l
  have hmeter : t.meter l = (s.meter l).handedOver ((s.line l).kind != some .order) := by
    rw [← meter_convert, ht]
    show (s.windowEnd l).meter l = _
    rw [hlined]
    exact congrArg (·.get l) (meters_windowed s l)
  have hall : CreditOnly l s t := by
    rw [ht]
    exact honly.trans (.timeRow l _ _)
  have hlivet : t.liveNet l = live := by
    rw [hlive]
    refine liveNet_congr (hslots.trans (slots_windowed s l).symm) ?_ ?_ ?_ <;> rw [hline, line_windowed]
    · exact hkept.kind
    · exact hkept.bound
    · exact hkept.runNet
  have hremt : t.remaining l = rem := by
    rw [hrem]
    refine remaining_congr (hlivet.trans hlive) ?_
    rw [hline, line_windowed]
    exact hkept.limit
  refine ⟨t, hexec, ?_⟩
  rw [hlivet, hremt, hline, hmeter]
  refine ⟨hkept.window, hkept.kind, hkept.bound, hkept.limit, rfl, rfl, rfl, rfl, rfl, hkept.reverse, hall.sameOther,
    hall.otherMeter, hall.sameBlocks, hall.read State.queue, hall.read State.pump, hall.read State.tx, hall.sameTruck,
    fun stop r n d a pr y hk hb hr hn hd hpr hy => ?_, fun hst hex => ?_, fun hst hex => ?_, fun hex => ?_⟩
  · have hgross := batchGross_order hk hb hr hpr hy
    refine ⟨s.credit l r, _, _, (recOf_of_slots hslots stop).trans (recOf_convert hk hb hr), nth1_credit hn hd, rfl,
      congrArg (fun g : Nat × Nat => a.gross + g.1) hgross, ?_, rfl,
      fun k hk' => (recOf_of_slots hslots k).trans ((oneRecord_convert hb).others k hk'), hall.read State.unsaved⟩
    show a.net + (s.batchNet l).1 = _
    unfold State.batchNet
    rw [batchVcf_order hk hb hr, hgross]
    rfl
  · rw [hex]
    refine ⟨fun hatMost => ?_, fun hatMost => ?_⟩
    · rw [decided_limit (c := s.windowCtx l) hst hatMost]
      obtain ⟨hintent, hnet, -, hhigh, -, -, -, hstop, hsettle⟩ := stopBegun_stopped x .limit live (s.windowCtx l)
      refine ⟨hintent, hnet, hhigh, ?_⟩
      cases hcmd : (s.line l).cmdHigh with
      | true => exact (hstop hcmd).1
      | false => exact (hsettle hcmd).1
    · rw [decided_flows (c := s.windowCtx l) hst hatMost, hx]
      have hnoFlow : (s.windowCtx l).timers.noFlow = if 0 < s.credited l then some ((s.latchedOf l).run.noFlow * 1000000)
          else (s.line l).timers.noFlow := by simp [State.windowCtx, hst]
      unfold LineCtx.decideHigh
      split
      · exact ⟨hst, rfl, rfl, rfl, hnoFlow⟩
      · split
        · next h => exact ⟨hst, rfl, rfl, (if_pos h).symm, hnoFlow⟩
        · next h => exact ⟨hst, rfl, rfl, (if_neg h).symm, hnoFlow⟩
  · rw [hex, decided_stays (c := s.windowCtx l) hst]
    exact ⟨rfl, rfl⟩
  · rw [hex, decided_excess]
    exact excess_cuts hc
end

