-- ==== Sys2Proof/Proofs/SettleStarts.lean ====
section
/-! PROOFS. The state that the outcome of a settle starts from. -/

open Sys2Proof Sys2Proof.Machine

namespace Sys2Proof.Machine

/-! ## What the end of a settle may touch before its outcome (R106, R107) -/

/-- One line, its meter line and its item change, and with them the slots, the queue, the settings, the marks of presses and the free values. -/
structure SettleOnly (l : Line) (s u : State) : Prop where
  eq : u = { s with
    slots := u.slots, queue := u.queue, settings := u.settings, lines := u.lines, meters := u.meters, press := u.press
    attention := u.attention, fresh := u.fresh }
  otherLine : u.line l.other = s.line l.other
  otherMeter : u.meter l.other = s.meter l.other
  otherItem : u.attention.get l.other = s.attention.get l.other
  endWaits : (u.line l).endWaits = (s.line l).endWaits

namespace SettleOnly
variable {l : Line} {s u v : State}

theorem refl (l : Line) (s : State) : SettleOnly l s s := ⟨rfl, rfl, rfl, rfl, rfl⟩

theorem trans (h : SettleOnly l s u) (k : SettleOnly l u v) : SettleOnly l s v where
  eq := by
    have heq := h.eq
    rw [k.eq]
    generalize v.slots = a, v.queue = b, v.settings = c, v.lines = d, v.meters = e, v.press = f, v.attention = g, v.fresh = i
    rw [heq]
  otherLine := k.otherLine.trans h.otherLine
  otherMeter := k.otherMeter.trans h.otherMeter
  otherItem := k.otherItem.trans h.otherItem
  endWaits := k.endWaits.trans h.endWaits

theorem of_credit (h : CreditOnly l s u) : SettleOnly l s u where
  eq := by
    have heq := h.eq
    generalize u.slots = a, u.lines = b, u.meters = c, u.press = d, u.fresh = e at heq
    rw [heq]
  otherLine := h.otherLine
  otherMeter := h.otherMeter
  otherItem := congrArg (·.get l.other) (h.read State.attention)
  endWaits := h.endWaits

theorem of_lineOnly (h : LineOnly l s u) (hp : u.pump = s.pump) : SettleOnly l s u where
  eq := by
    have heq := h.eq
    rw [hp] at heq
    generalize u.slots = a, u.queue = b, u.lines = c, u.meters = d, u.press = e, u.attention = f at heq
    rw [heq]
  otherLine := h.otherLine
  otherMeter := h.otherMeter
  otherItem := h.otherItem
  endWaits := h.endWaits

theorem modLine (s : State) (l : Line) (f : LineCtx → LineCtx) (hf : ∀ c, (f c).endWaits = c.endWaits) : SettleOnly l s (s.modLine l f) :=
  .of_credit (.modLine s l f hf)

theorem modMeter (s : State) (l : Line) (f : Meter → Meter) : SettleOnly l s (s.modMeter l f) := .of_credit (.modMeter s l f)

theorem modSettings (l : Line) (s : State) (f : Settings → Settings) : SettleOnly l s (s.modSettings f) := ⟨rfl, rfl, rfl, rfl, rfl⟩

theorem enqueue (l : Line) (s : State) (k : Key) : SettleOnly l s (s.enqueue k) := .of_lineOnly (.enqueue l s k) (enqueue_pump s k)

section
variable (h : SettleOnly l s u)
include h

theorem read {α : Type} (g : State → α) : g u = g { s with
    slots := u.slots, queue := u.queue, settings := u.settings, lines := u.lines, meters := u.meters, press := u.press
    attention := u.attention, fresh := u.fresh } := congrArg g h.eq

theorem sameOther : sameLine s u l.other := ⟨congrArg LineCtx.core h.otherLine, h.otherItem⟩

theorem noEndDue (hs : Machine.noEndDue s) : Machine.noEndDue u := by
  obtain ⟨h1, h2⟩ := hs
  have hother := congrArg LineCtx.endWaits h.otherLine
  have hends := h.endWaits
  cases l
  · exact ⟨(congrArg (List.any · Waiter.over) hends).trans h1, (congrArg (List.any · Waiter.over) hother).trans h2⟩
  · exact ⟨(congrArg (List.any · Waiter.over) hother).trans h1, (congrArg (List.any · Waiter.over) hends).trans h2⟩

end

end SettleOnly

/-! ## Learning (R107) -/

/-- A line's working anticipation set. -/
def LineCtx.taught (a : Nat) (c : LineCtx) : LineCtx := { c with antic := a }

/-- A line's anticipation set in the settings. -/
def Settings.taught (l : Line) (a : Nat) (x : Settings) : Settings := { x with lines := x.lines.modify l (fun i => { i with antic := a }) }

/-- An anticipation taught: the line follows it, and the settings block is written. -/
def State.taught (s : State) (l : Line) (a : Nat) : State :=
  ((s.modLine l (LineCtx.taught a)).modSettings (Settings.taught l a)).enqueue (.block .settings)

section
variable (s : State) (l : Line)

theorem learn_low (h : (s.line l).lowAlone = false) : s.learn l = s := by
  unfold State.learn
  rw [h]

theorem learn_taught {began : Nat} (hlow : (s.line l).lowAlone = true) (hbegan : (s.line l).stopNet = some began)
    (hk : (s.line l).kind = some .order) :
    s.learn l = s.taught l (learned (s.line l).antic ((s.liveNet l : Int) - (began : Int))) := by
  unfold State.learn
  rw [hlow, hbegan, hk]
  exact if_neg nofun

theorem learn_cases : s.learn l = s ∨ ∃ a, s.learn l = s.taught l a := by
  unfold State.learn
  split
  · dsimp only
    split
    · exact .inl rfl
    · exact .inr ⟨_, rfl⟩
  · exact .inl rfl

variable (a : Nat)

theorem settleOnly_taught : SettleOnly l s (s.taught l a) :=
  ((SettleOnly.modLine s l (LineCtx.taught a) fun _ => rfl).trans (.modSettings l _ _)).trans (.enqueue l _ _)

theorem line_taught : (s.taught l a).line l = (s.line l).taught a :=
  (congrArg (·.get l) (enqueue_lines ((s.modLine l (LineCtx.taught a)).modSettings (Settings.taught l a)) _)).trans
    (line_modLine_same s l (LineCtx.taught a))

theorem slots_taught : (s.taught l a).slots = s.slots := enqueue_slots ..

theorem meters_taught : (s.taught l a).meters = s.meters := enqueue_meters ..

theorem settings_taught : (s.taught l a).settings = s.settings.taught l a := enqueue_settings ..

theorem queue_taught : (s.taught l a).queue = (s.enqueue (.block .settings)).queue := 
  queue_enqueue_congr (s := s) (u := (s.modLine l (LineCtx.taught a)).modSettings (Settings.taught l a)) rfl _

theorem fresh_taught : (s.taught l a).fresh = s.fresh := enqueue_fresh ..

theorem latchedOf_taught : (s.taught l a).latchedOf l = s.latchedOf l := by
  unfold State.latchedOf
  rw [line_taught, settings_taught]
  rfl

end

/-! ## The state behind the last batch and the learning (R106) -/

/-- The cut of a settle that ends: a reverse excess of its last batch is recorded (R102, R106). -/
def State.settleCut (s : State) (l : Line) : Option CutCause :=
  if s.excess l then (if (s.line l).cut = some .pulser then some .pulser else some .reverse) else (s.line l).cut

/-- The state behind the last batch. -/
def State.lastBatch (s : State) (l : Line) : State :=
  if s.excess l then (s.convert l).modLine l (LineCtx.cutOrRecord .reverse) else s.convert l

/-- The state that the outcome of a settle starts from. -/
def State.leftSettle (s : State) (l : Line) : State :=
  (((s.lastBatch l).learn l).modLine l LineCtx.leftSettling).modMeter l Meter.leftSettling

section
variable {s : State} {l : Line} (hst : (s.line l).st = .settling)
include hst

theorem line_lastBatch : (s.lastBatch l).line l = { s.batchCtx l (s.line l) with cut := s.settleCut l } := by
  unfold State.lastBatch State.settleCut
  split
  · rw [line_modLine_same, line_convert]
    obtain ⟨-, hsettle, -⟩ := cutOrRecord_cutOrRecorded .reverse (s.batchCtx l (s.line l))
    exact hsettle hst
  · rw [line_convert]
    rfl

omit hst in
theorem creditOnly_lastBatch : CreditOnly l s (s.lastBatch l) := by
  unfold State.lastBatch
  split
  · exact (CreditOnly.convert s l).trans (CreditOnly.modLine _ l _ (endWaits_cutOrRecord .reverse))
  · exact .convert s l

omit hst in
theorem store_lastBatch : (s.lastBatch l).slots = (s.convert l).slots ∧ (s.lastBatch l).meters = (s.convert l).meters
    ∧ (s.lastBatch l).fresh = (s.convert l).fresh := by
  unfold State.lastBatch
  split <;> exact ⟨rfl, rfl, rfl⟩

theorem liveNet_lastBatch : (s.lastBatch l).liveNet l = (s.convert l).liveNet l := by
  refine liveNet_congr store_lastBatch.1 ?_ ?_ ?_ <;> rw [line_lastBatch hst, line_convert]

theorem latchedOf_lastBatch : (s.lastBatch l).latchedOf l = s.latchedOf l :=
  latchedOf_congr (by rw [line_lastBatch hst]; rfl) ((creditOnly_lastBatch (s := s) (l := l)).read State.settings)

/-- What the outcome of a settle starts from: its line, its records, its queue. -/
structure SettleStart (l : Line) (s v : State) : Prop where
  only : SettleOnly l s v
  line : ∃ a, v.line l = ({ s.batchCtx l (s.line l) with cut := s.settleCut l, antic := a } : LineCtx).leftSettling
  slots : v.slots = (s.convert l).slots
  meter : v.meter l = ((s.meter l).handedOver ((s.line l).kind != some .order)).leftSettling
  latched : v.latchedOf l = s.latchedOf l
  low : (s.line l).lowAlone = false → v.settings = s.settings ∧ v.queue = s.queue
  queue : v.queue = s.queue ∨ v.queue = (s.enqueue (.block .settings)).queue
  settings : v.settings = s.settings ∨ ∃ a, v.settings = s.settings.taught l a
  fresh : v.fresh = (s.convert l).fresh
  teaches : ∀ began, (s.line l).lowAlone = true → (s.line l).stopNet = some began → (s.line l).kind = some .order →
    (v.settings.lines.get l).antic = learned (s.line l).antic (((s.convert l).liveNet l : Int) - (began : Int))
      ∧ .block .settings ∈ v.queue

theorem settleStart_leftSettle : SettleStart l s (s.leftSettle l) := by
  obtain ⟨w, hw⟩ : ∃ w, w = (s.lastBatch l).learn l := ⟨_, rfl⟩
  have hbatch := creditOnly_lastBatch (s := s) (l := l)
  have hline := line_lastBatch hst
  have hsettings : (s.lastBatch l).settings = s.settings := hbatch.read State.settings
  have hqueue : (s.lastBatch l).queue = s.queue := hbatch.read State.queue
  have hlearn : SettleOnly l s w ∧ (∃ a, w.line l = { s.batchCtx l (s.line l) with cut := s.settleCut l, antic := a })
      ∧ w.slots = (s.convert l).slots ∧ w.meters = (s.convert l).meters ∧ w.latchedOf l = s.latchedOf l
      ∧ (w.queue = s.queue ∨ w.queue = (s.enqueue (.block .settings)).queue)
      ∧ (w.settings = s.settings ∨ ∃ a, w.settings = s.settings.taught l a) ∧ w.fresh = (s.convert l).fresh := by
    obtain ⟨hslots, hmeters, hfresh⟩ := store_lastBatch (s := s) (l := l)
    rcases learn_cases (s.lastBatch l) l with h | ⟨a, h⟩
    · rw [hw, h]
      exact ⟨.of_credit hbatch, ⟨(s.line l).antic, hline⟩, hslots, hmeters, latchedOf_lastBatch hst, .inl hqueue, .inl hsettings, hfresh⟩
    · rw [hw, h]
      refine ⟨(SettleOnly.of_credit hbatch).trans (settleOnly_taught ..), ⟨a, ?_⟩, (slots_taught ..).trans hslots,
        (meters_taught ..).trans hmeters, (latchedOf_taught ..).trans (latchedOf_lastBatch hst),
        .inr ((queue_taught ..).trans (queue_enqueue_congr hqueue _)), .inr ⟨a, ?_⟩, (fresh_taught ..).trans hfresh⟩
      · rw [line_taught, hline]
        rfl
      · rw [settings_taught, hsettings]
  obtain ⟨honly, ⟨a, hwline⟩, hslots, hmeters, hlatched, hq, hset, hfresh⟩ := hlearn
  have hvline : (s.leftSettle l).line l = (w.line l).leftSettling := by
    unfold State.leftSettle
    rw [← hw]
    exact line_modLine_same ..
  refine ⟨?_, ⟨a, by rw [hvline, hwline]⟩, ?_, ?_, ?_, fun hlow => ?_, ?_, ?_, ?_, fun began hlow hbegan hk => ?_⟩
  · unfold State.leftSettle
    rw [← hw]
    exact (honly.trans (.modLine w l LineCtx.leftSettling fun _ => rfl)).trans (.modMeter _ l _)
  · unfold State.leftSettle
    rw [← hw]
    exact hslots
  · unfold State.leftSettle
    rw [← hw, meter_modMeter_same, ← meter_convert]
    exact congrArg (fun p : Pair Meter => (p.get l).leftSettling) hmeters
  · refine (latchedOf_congr (s := w) (by rw [hvline]; rfl) ?_).trans hlatched
    unfold State.leftSettle
    rw [← hw]
    rfl
  · have hlow' : (s.lastBatch l).learn l = s.lastBatch l := learn_low _ l (by rw [hline]; exact hlow)
    unfold State.leftSettle
    rw [hlow']
    exact ⟨hsettings, hqueue⟩
  · unfold State.leftSettle
    rw [← hw]
    exact hq
  · unfold State.leftSettle
    rw [← hw]
    exact hset
  · unfold State.leftSettle
    rw [← hw]
    exact hfresh
  · have htaught := learn_taught (s.lastBatch l) l (by rw [hline]; exact hlow) (began := began) (by rw [hline]; exact hbegan)
      (by rw [hline]; exact hk)
    rw [liveNet_lastBatch hst, hline] at htaught
    unfold State.leftSettle
    rw [htaught]
    refine ⟨?_, ?_⟩
    · show (((s.lastBatch l).taught l _).settings.lines.get l).antic = _
      rw [settings_taught, hsettings]
      cases l <;> rfl
    · show _ ∈ ((s.lastBatch l).taught l _).queue
      rw [queue_taught]
      exact mem_enqueue ..

/-- The settle's end is its outcome from there. -/
theorem settleEnd_eq : s.settleEnd l = (s.leftSettle l).settleOutcome l (s.line l).intent (s.settleCut l) := by
  have hread : (((s.lastBatch l).learn l).line l).intent = (s.line l).intent ∧ (((s.lastBatch l).learn l).line l).cut = s.settleCut l := by
    rcases learn_cases (s.lastBatch l) l with h | ⟨a, h⟩
    · rw [h, line_lastBatch hst]
      exact ⟨rfl, rfl⟩
    · rw [h, line_taught, line_lastBatch hst]
      exact ⟨rfl, rfl⟩
  obtain ⟨hintent, hcut⟩ := hread
  show ((((s.lastBatch l).learn l).modLine l LineCtx.leftSettling).modMeter l Meter.leftSettling).settleOutcome l
    (((s.lastBatch l).learn l).line l).intent (((s.lastBatch l).learn l).line l).cut = _
  rw [hintent, hcut]
  rfl

end

end Sys2Proof.Machine
end

