-- ==== Sys2Proof/Proofs/StrandedSettles.lean ====
section
/-! PROOFS. A settle of a line bound to no record. -/

open Sys2Proof Sys2Proof.Machine

namespace Sys2Proof.Machine

/-! ## A settle of a line bound to no record (R106, R193) -/

/-- A settled working part with nothing in flight: line 1 settles with intent PAUSE, bound to a stop that no slot holds; a run end of line 2 waits for an operation that is not in flight. -/
def strandedSettle : State := { State.reset with
  queue := [], flight := none
  lines := ⟨{ LineCtx.atRest .settling 50 with
      bound := some 1, intent := some .pause, timers := { Timers.stopped with settle := some 1 } },
    { LineCtx.atRest .idle 50 with endWaits := [⟨[], true⟩] }⟩ }

theorem strandedSettle_settled :
    strandedSettle.isActive = true ∧ strandedSettle.settled = true ∧ strandedSettle.roomy = true ∧ strandedSettle.attention.two = false := by
  decide

/-- The checkpoint's entry begins nothing and lands at once, and line 2's waiter lands with it. -/
theorem strandedSettle_lands : (commit ((strandedSettle.settleEnd .one).timeRow (.settle .one))).attention.two = true := by
  decide

theorem exec_settle {s : State} {l : Line} (ha : s.isActive = true) (ht : (s.line l).timers.settle.isSome = true)
    (hst : (s.line l).st = .settling) : exec (.settleExpiry l) s = .next (commit ((s.settleEnd l).timeRow (.settle l))) := by
  show execSettleExpiry l s = _
  rw [execSettleExpiry, activeEvent, event, comesUp_active s ha, if_pos ha, if_pos ⟨ht, hst⟩]

end Sys2Proof.Machine

/-- Refutes O51: the settle's end of a line bound to a stop that no slot holds asks for a checkpoint that lands at once, and a run end of the other line that waits for an operation although none is in flight then sets the other line's item. -/
theorem not_stepAndSettleEnd : ¬ Obligations.StepAndSettleEnd := by
  intro h
  obtain ⟨hactive, hsettled, hroomy, hitem⟩ := strandedSettle_settled
  obtain ⟨-, hsettle⟩ := h
  obtain ⟨hpause, -⟩ := hsettle .one _ strandedSettle hactive hsettled hroomy rfl rfl rfl
  obtain ⟨t, ht, -, -, -, -, -, -, -, -, -, -, -, -, -, ⟨-, hother⟩, -⟩ := hpause .driver (.inl ⟨rfl, by decide⟩)
  rw [exec_settle hactive rfl rfl] at ht
  obtain rfl := Host.Outcome.next.inj ht
  have hlands : (commit ((strandedSettle.settleEnd .one).timeRow (.settle .one))).attention.two = false := hother.trans hitem
  rw [strandedSettle_lands] at hlands
  cases hlands
end

