-- ==== Sys2Proof/Proofs/ReportedEnds.lean ====
section
/-! PROOFS. An event that asks for writes, a run's end reported, and what a deduction reads. -/

open Sys2Proof Sys2Proof.Machine

namespace Sys2Proof.Machine

/-! ## An event that asks for writes (R32, R33) -/

/-- Behind an event whose first entry can begin, in a part where the write finds a slot. -/
theorem commit_asks {s u : State} (ha : s.isActive = true) (hs : s.settled = true) (hroom : s.roomy = true) (hphase : u.phase = s.phase)
    (hflight : u.flight = s.flight) (hreply : s.replyDue = false → u.replyDue = false) (hends : noEndDue s → noEndDue u)
    (hfree : u.slots.any Slot.isFree = s.slots.any Slot.isFree)
    (hqueue : s.queue = [] → u.queue = [] ∨ ∃ k q, u.queue = k :: q ∧ startable u k) :
    EventKeeps u (commit u) ∧ ∀ k ∈ u.queue, asked (commit u) k := by
  obtain ⟨hidle, hdue, hnone, -⟩ := (settled_iff s).1 hs
  refine commit_event u ((isActive_of_phase hphase).trans ha) ?_ (hends hnone) (hreply hdue)
  rw [hflight]
  cases hf : s.flight with
  | some f => exact .inl (.inl rfl)
  | none =>
    have hempty : s.queue = [] := by simpa [hf] using hidle
    have hslot : s.slots.any Slot.isFree = true := by simpa [State.roomy, hf] using hroom
    rcases hqueue hempty with h | ⟨k, q, hq, hk⟩
    · exact .inl (.inr h)
    · exact .inr ⟨k, q, rfl, hq, hk, hfree.trans hslot⟩

/-! ## A run's end reported (R111, R193) -/

/-- What is read of a run's end, and not of who waits for it or of the command that it answers. -/
structure Reported (e : RunEnd) (u : State) : Prop where
  eq : u = { e.st with lines := u.lines, cmd := u.cmd }
  core : ∀ k, (u.line k).core = (e.st.line k).core
  ends : noEndDue e.st → noEndDue u
  reply : e.st.replyDue = false → u.replyDue = false

theorem Reported.read {α : Type} {e : RunEnd} {u : State} (h : Reported e u) (g : State → α) :
    g u = g { e.st with lines := u.lines, cmd := u.cmd } := congrArg g h.eq

theorem reported_report {e : RunEnd} (l : Line) (always : Bool) (h : ∃ k ks, e.keys = k :: ks) : Reported e (e.report l always) := by
  obtain ⟨k, ks, hks⟩ := h
  obtain ⟨a, haw⟩ : ∃ a : State, a = if e.st.closeAwaits l then
      { e.st with cmd := e.st.cmd.map (fun c => { c with plan := .ready [e.fields], waits := .on e.keys }) } else e.st := ⟨_, rfl⟩
  have haeq : a = { e.st with cmd := a.cmd } ∧ (e.st.replyDue = false → a.replyDue = false) := by
    rw [haw]
    split
    · refine ⟨rfl, fun _ => ?_⟩
      unfold State.replyDue
      cases e.st.cmd with
      | none => rfl
      | some c => simp [hks, Waiter.over, Waiter.on]
    · exact ⟨rfl, id⟩
  obtain ⟨heq, hreply⟩ := haeq
  have hlines : a.lines = e.st.lines := (congrArg State.lines heq).trans rfl
  have hreport : e.report l always = a ∨ e.report l always = a.modLine l (LineCtx.waiting (.on e.keys)) := by
    rw [haw]
    unfold RunEnd.report
    dsimp only
    split
    · exact .inr rfl
    · exact .inl rfl
  have hends : noEndDue e.st → noEndDue a := fun ⟨h1, h2⟩ => ⟨by rw [hlines]; exact h1, by rw [hlines]; exact h2⟩
  rcases hreport with h | h
  · rw [h]
    refine ⟨?_, fun k => congrArg (fun p : Pair LineCtx => (p.get k).core) hlines, hends, hreply⟩
    rw [hlines]
    exact heq
  · rw [h]
    refine ⟨congrArg (fun b : State => { b with lines := (a.modLine l (LineCtx.waiting (.on e.keys))).lines }) heq,
      fun j => (core_waiting a l j _).trans (congrArg (fun p : Pair LineCtx => (p.get j).core) hlines),
      fun hn => noEndDue_waiting (hends hn) (by rw [hks]; rfl), fun hr => (replyDue_congr rfl).trans (hreply hr)⟩

/-! ## The end of a drop made twice (R108) -/

theorem dropEnded_idem (cause : EndCause) (r : Record) : (r.dropEnded cause).dropEnded cause = r.dropEnded cause := by
  have hfinish : ∀ d : Drop, (d.finish cause).finish cause = d.finish cause := by
    intro d
    cases hd : d.st <;> simp [Drop.finish, hd]
  show ({ r with drops := (r.drops.map (Drop.finish cause)).map (Drop.finish cause) } : Record) = _
  rw [List.map_map]
  exact congrArg (fun ds => ({ r with drops := ds } : Record)) (List.map_congr_left fun d _ => hfinish d)

theorem modRecord_idem {stop : Nat} {f : Record → Record} (hf : ∀ r, (f r).stop = r.stop) (hff : ∀ r, f (f r) = f r) (x : Slot) :
    Slot.modRecord stop f (Slot.modRecord stop f x) = Slot.modRecord stop f x := by
  unfold Slot.modRecord
  cases hx : x.st with
  | inUse c =>
    cases c with
    | record r =>
      by_cases h : r.stop = stop
      · simp [h, hf, hff]
      · simp [h, hx]
    | damaged n a => simp [hx]
  | condemned r =>
    by_cases h : r.stop = stop
    · simp [h, hf, hff]
    · simp [h, hx]
  | free => simp [hx]
  | retired => simp [hx]

theorem modRec_idem {s : State} {stop : Nat} {f : Record → Record} (hf : ∀ r, (f r).stop = r.stop) (hff : ∀ r, f (f r) = f r) :
    (s.modRec stop f).modRec stop f = s.modRec stop f := by
  unfold State.modRec
  simp only [List.map_map]
  congr 1
  exact List.map_congr_left fun x _ => modRecord_idem hf hff x

theorem endDrop_idem {s : State} {l : Line} {stop : Nat} (h : (s.line l).bound = some stop) (cause : EndCause) :
    (s.endDrop l cause).endDrop l cause = s.endDrop l cause := by
  have hb : ((s.endDrop l cause).line l).bound = some stop := by rw [line_endDrop]; exact h
  rw [endDrop_bound hb cause, endDrop_bound h cause]
  have hswap : (((s.modLine l LineCtx.dropOver).modRec stop (Record.dropEnded cause)).modLine l LineCtx.dropOver)
      = (s.modLine l LineCtx.dropOver).modRec stop (Record.dropEnded cause) := by
    have hline : (s.modLine l LineCtx.dropOver).modLine l LineCtx.dropOver = s.modLine l LineCtx.dropOver := by
      rw [modLine_eq s, modLine_lined]
      rfl
    exact congrArg (State.modRec · stop (Record.dropEnded cause)) hline
  rw [hswap, modRec_idem (f := Record.dropEnded cause) (fun _ => rfl) (dropEnded_idem cause)]

theorem closeRun_endDrop {s : State} {l : Line} {stop : Nat} (h : (s.line l).bound = some stop) (cause : EndCause) :
    (s.endDrop l cause).closeRun l cause = s.closeRun l cause := by
  unfold State.closeRun
  rw [endDrop_idem h]

/-! ## What a reverse deduction reads (R84) -/

/-- Two states that a deduction reads alike. -/
structure DeductAlike (l : Line) (s u : State) : Prop where
  slots : u.slots = s.slots
  reverse : (u.line l).reverse = (s.line l).reverse
  lastVcf : (u.line l).lastVcf = (s.line l).lastVcf
  kind : (u.line l).kind = (s.line l).kind
  bound : (u.line l).bound = (s.line l).bound
  pump : u.pump = s.pump
  load : u.load = s.load
  fresh : u.fresh = s.fresh
  calSet : ∀ p, u.settings.calSet l p = s.settings.calSet l p
  pr : (u.items l).pr = (s.items l).pr

theorem slots_deductOrder {l : Line} {s u : State} (h : DeductAlike l s u) (stop : Nat) :
    (u.deductOrder l stop).slots = (s.deductOrder l stop).slots := by
  have hrec : u.boundRec l = s.boundRec l := by
    unfold State.boundRec
    rw [h.bound]
    exact congrArg _ (funext fun n => recOf_of_slots h.slots n)
  have hset : u.runSet l = s.runSet l := by
    unfold State.runSet State.runProduct
    rw [h.kind, hrec, h.pump, h.load, funext h.calSet]
  have hfactor : u.factorOf l 1 = s.factorOf l 1 := by
    unfold State.factorOf
    rw [h.kind, hset, h.fresh]
  have hpr : u.prOf l = s.prOf l := by
    unfold State.prOf
    rw [h.pr, h.fresh]
  unfold State.deductOrder
  rw [h.reverse]
  split
  · exact h.slots
  · dsimp only
    rw [drew_slots, drew_slots, hfactor, hpr, h.lastVcf]
    unfold State.modRec
    rw [h.slots]

end Sys2Proof.Machine
end

