-- ==== Sys2Proof/Proofs/ClosedByEvents.lean ====
section
/-! PROOFS. A run that an event closes. -/

open Sys2Proof Sys2Proof.Machine

namespace Sys2Proof.Machine

/-! ## A run that an event closes (R17, R18, R112) -/

/-- What an event leaves that closes an ORDER run from a state `v`. -/
structure RunClosed (l : Line) (stop : Nat) (cause : EndCause) (s v t : State) : Prop where
  left : left l s t
  asked : asked t (.record stop)
  rest : (t.line l).isAtRest (v.restState l)
  others : sameRecordsBut stop s t
  otherLine : sameLine s t l.other
  settings : t.settings = v.settings
  recOf : t.recOf stop = (v.closeRun l cause).st.recOf stop
  counter : t.counter = (v.closeRun l cause).st.counter
  waiting : ∀ k ∈ v.queue, Machine.asked t k

section
variable {s v : State} {l : Line} {stop : Nat} {r : Record} {cause : EndCause}
  (ha : s.isActive = true) (hs : s.settled = true) (hroom : s.roomy = true) (hv : SettleOnly l s v) (hone : OneRecord stop s v)
  (hqueue : v.queue = s.queue ∨ v.queue = (s.enqueue (.block .settings)).queue)
  (hk : (v.line l).kind = some .order) (hb : (v.line l).bound = some stop) (hr : v.recOf stop = some r)
include ha hs hroom hv hone hqueue hk hb hr

theorem commit_closeRun (always : Bool) (k : TimeRow) :
    RunClosed l stop cause s v (commit (((v.closeRun l cause).report l always).timeRow k)) := by
  obtain ⟨hend, ended, -, -, houtcome⟩ := closeRun_spec hk hb cause hr
  obtain ⟨e, he⟩ : ∃ e, e = v.closeRun l cause := ⟨_, rfl⟩
  rw [← he] at hend houtcome
  obtain ⟨ks, hks⟩ := hend.keys
  have hreported := reported_report (e := e) l always ⟨_, ks, hks⟩
  obtain ⟨a, haw⟩ : ∃ a, a = e.report l always := ⟨_, rfl⟩
  rw [← haw] at hreported
  have hslots : a.slots = e.st.slots := hreported.read State.slots
  have haqueue : a.queue = e.st.queue := hreported.read State.queue
  obtain ⟨r', hr'⟩ : ∃ r', e.st.recOf stop = some r' := by
    by_cases hz : ended.doneNet = 0
    · exact ⟨_, (houtcome.planned hz).1⟩
    · exact ⟨_, (houtcome.ticketed hz).1⟩
  have har : a.recOf stop = some r' := (recOf_of_slots hslots stop).trans hr'
  have hoverall : OneRecord stop s a := (hone.trans hend.one).trans (.of_slots hslots)
  obtain ⟨hkeeps, hasked⟩ := commit_asks (u := a.timeRow k) ha hs hroom
    ((hreported.read State.phase).trans (hend.run.phase.trans (hv.read State.phase)))
    ((hreported.read State.flight).trans (hend.run.flight.trans (hv.read State.flight)))
    (fun h => hreported.reply ((replyDue_congr (s := s) (hend.run.cmd.trans (hv.read State.cmd))).trans h))
    (fun h => hreported.ends (hend.run.noEndDue (hv.noEndDue h))) hoverall.free fun hempty => by
      right
      rcases hqueue with hq | hq
      · obtain ⟨q, hfirst⟩ := hend.first (hq.trans hempty)
        exact ⟨_, q, haqueue.trans hfirst, startable_record a stop r' har⟩
      · obtain ⟨q, hhead⟩ := hend.head (.block .settings) nofun nofun ⟨[], by rw [hq, queue_enqueue, hempty]; rfl⟩
        exact ⟨_, q, haqueue.trans hhead, trivial⟩
  have hframe : ∀ m, (commit (a.timeRow k)).recOf m = a.recOf m := fun m =>
    (recOf_of_slots hkeeps.slots m).trans rfl
  rw [← he, ← haw]
  refine ⟨left_of_pump hend.left (hv.read State.pump).symm (hkeeps.pump.trans (hreported.read State.pump)),
    hasked _ (haqueue ▸ hend.mem), ?_, ⟨fun m hm => (hframe m).trans (hoverall.others m hm), ?_⟩, ⟨?_, ?_⟩,
    hkeeps.settings.trans ((hreported.read State.settings).trans hend.settings), ?_, ?_, fun j hj => hasked _ (haqueue ▸ hend.keep j hj)⟩
  · show ((commit (a.timeRow k)).line l).core.isAtRest _
    rw [hkeeps.core l]
    show (a.line l).core.isAtRest _
    rw [hreported.core l]
    exact hend.rest
  · exact hkeeps.unsaved.trans ((hreported.read State.unsaved).trans (hend.run.unsaved.trans (hv.read State.unsaved)))
  · refine (hkeeps.core l.other).trans ((hreported.core l.other).trans ?_)
    rw [hend.run.otherLine, hv.otherLine]
  · rw [hkeeps.attention]
    exact (congrArg (·.get l.other) (hreported.read State.attention)).trans (hend.run.otherItem.trans hv.otherItem)
  · rw [← he]
    exact (hframe stop).trans (recOf_of_slots hslots stop)
  · rw [← he]
    exact hkeeps.counter.trans (hreported.read State.counter)

end

theorem DropsChanged.kept {r r' : Record} (h : DropsChanged r r') : r'.attempts = r.attempts ∧ r'.product = r.product := by
  unfold DropsChanged at h
  rw [← h]
  exact ⟨rfl, rfl⟩

/-- The record of a closed run, read from the state that it was closed in. -/
theorem runEnded_of_closed {s v t : State} {l : Line} {stop : Nat} {r r1 ended : Record} {cause : EndCause}
    (hclosed : RunClosed l stop cause s v t) (hk : (v.line l).kind = some .order) (hb : (v.line l).bound = some stop)
    (hr : v.recOf stop = some r1) (hended : ((v.endDrop l cause).deductOrder l stop).recOf stop = some ended)
    (hcounter : v.counter = s.counter) (hattempts : r1.attempts = r.attempts) (hproduct : r1.product = r.product) :
    runEnded l stop cause r ended s t := by
  obtain ⟨-, ended', hended', hchanged, houtcome⟩ := closeRun_spec hk hb cause hr
  obtain rfl : ended' = ended := Option.some.inj (hended'.symm.trans hended)
  have hsame := hchanged.kept
  obtain ⟨d, hd⟩ : ∃ d, d = (v.endDrop l cause).deductOrder l stop := ⟨_, rfl⟩
  have hdcounter : d.counter = s.counter := by
    have h1 : d.counter = (v.endDrop l cause).counter := by rw [hd, deductOrder_eq]
    have h2 : (v.endDrop l cause).counter = v.counter := by rw [endDrop_eq]
    rw [h1, h2, hcounter]
  rw [← hd] at houtcome
  by_cases hz : ended'.doneNet = 0
  · obtain ⟨hrec, hcount, -⟩ := houtcome.planned hz
    refine ⟨_, hclosed.recOf.trans hrec, fun _ => ⟨rfl, rfl, ?_, fun x hx => ?_, hclosed.counter.trans (hcount.trans hdcounter)⟩,
      fun h => absurd hz h⟩
    · show min 255 (ended'.attempts + 1) = _
      rw [hsame.1, hattempts]
    · obtain ⟨y, -, rfl⟩ := List.mem_map.1 hx
      rfl
  · obtain ⟨hrec, hcount, -⟩ := houtcome.ticketed hz
    refine ⟨_, hclosed.recOf.trans hrec, fun h => absurd h hz, fun _ => ⟨d.ticketOf l cause ended', rfl, rfl, rfl, ?_, ?_, ?_, rfl, rfl, rfl, ?_⟩⟩
    · rw [← hdcounter]
      rfl
    · rw [hclosed.counter, hcount, hdcounter]
    · exact (ticketLinesKeepTheNet ..).1
    · exact hsame.2.trans hproduct

end Sys2Proof.Machine
end

