-- ==== Sys2Proof/Proofs/SettleEnds.lean ====
section
/-! PROOFS. A settle that ends the run, and the entry to PAUSED behind an event. -/

open Sys2Proof Sys2Proof.Machine

namespace Sys2Proof.Machine

/-! ## A settle that ends the run (R106, R111, R119) -/

theorem findDrop_map {p : Drop → Bool} {f : Drop → Drop} (h : ∀ d, p (f d) = p d) : ∀ (ds : List Drop) (k : Nat),
    findDrop p (ds.map f) k = (findDrop p ds k).map (fun x => (x.1, f x.2))
  | [], _ => rfl
  | d :: ds, k => by
    rw [List.map_cons, findDrop, findDrop, h]
    split
    · rfl
    · exact findDrop_map h ds (k + 1)

/-- A batch leaves the ACTIVE drop's place and the count of drops. -/
theorem active_credit (s : State) (l : Line) (r : Record) :
    (s.credit l r).active.map (·.1) = r.active.map (·.1) ∧ (s.credit l r).drops.length = r.drops.length := by
  refine ⟨?_, List.length_map ..⟩
  show (findDrop Drop.isActive (r.drops.map _) 1).map _ = (findDrop Drop.isActive r.drops 1).map _
  rw [findDrop_map]
  · rw [Option.map_map]
    rfl
  · intro d
    cases hd : d.st <;> simp [Drop.isActive, hd]

section
variable {v : State} {l : Line} {stop : Nat} (hb : (v.line l).bound = some stop) (cause : EndCause) (dropEnds : Bool)
include hb

theorem settleClose_saved (h : stop ∉ v.unsaved) : v.settleClose l cause dropEnds = (v.closeRun l cause).report l false := by
  have hsaved : v.boundIsUnsaved l = false := by rw [boundIsUnsaved_eq hb]; exact decide_eq_false h
  unfold State.settleClose
  dsimp only
  rw [hsaved, if_neg Bool.false_ne_true]
  cases dropEnds with
  | false => rfl
  | true => rw [if_pos rfl, closeRun_endDrop hb]

theorem settleClose_unsaved (h : stop ∈ v.unsaved) : v.settleClose l cause dropEnds
    = (((if dropEnds then v.endDrop l cause else v).modLine l (fun c => { c with held := some cause })).enterPaused l .store) := by
  have hunsaved : v.boundIsUnsaved l = true := by rw [boundIsUnsaved_eq hb]; exact decide_eq_true h
  unfold State.settleClose
  dsimp only
  rw [hunsaved, if_pos rfl]

end

/-- An intent that ends the run where its drop is the last. -/
theorem settleOutcome_closes {v : State} {l : Line} {i : StopIntent} {cause : EndCause} (cut : Option CutCause)
    (h : (i = .close ∧ cause = .driver)
      ∨ (v.onLastDrop l = true ∧ ((i = .limit ∧ cause = .limit) ∨ (i = .enddrop ∧ cause = .driver)))) :
    ∃ b, v.settleOutcome l (some i) cut = v.settleClose l cause b := by
  rcases h with ⟨rfl, rfl⟩ | ⟨hlast, ⟨rfl, rfl⟩ | ⟨rfl, rfl⟩⟩
  · exact ⟨false, rfl⟩
  · exact ⟨true, if_pos hlast⟩
  · exact ⟨true, if_pos hlast⟩

section
variable {s v : State} {l : Line} {stop : Nat} {r : Record} (hstart : SettleStart l s v) (hk : (s.line l).kind = some .order)
  (hb : (s.line l).bound = some stop)
include hstart hk hb

theorem settleStart_run : (v.line l).kind = some .order ∧ (v.line l).bound = some stop := by
  obtain ⟨a, hline⟩ := hstart.line
  rw [hline]
  exact ⟨hk, hb⟩

theorem settleStart_record (hr : s.recOf stop = some r) : v.recOf stop = some (s.credit l r) ∧ OneRecord stop s v :=
  ⟨(recOf_of_slots hstart.slots stop).trans (recOf_convert hk hb hr), (oneRecord_convert hb).trans (.of_slots hstart.slots)⟩

/-- A deduction at the outcome reads what it would read behind the last batch. -/
theorem settleStart_deducts (cause : EndCause) :
    ((v.endDrop l cause).deductOrder l stop).slots = (((s.convert l).endDrop l cause).deductOrder l stop).slots := by
  obtain ⟨hvk, hvb⟩ := settleStart_run hstart hk hb
  obtain ⟨a, hline⟩ := hstart.line
  have hcline := line_convert s l
  have hcb : ((s.convert l).line l).bound = some stop := by rw [hcline]; exact hb
  have hset : ∀ p, v.settings.calSet l p = (s.convert l).settings.calSet l p := by
    rw [(CreditOnly.convert s l).read State.settings]
    rcases hstart.settings with h | ⟨b, h⟩
    · rw [h]
      exact fun _ => rfl
    · rw [h]
      exact fun _ => rfl
  have hpr : (v.items l).pr = ((s.convert l).items l).pr := by
    unfold State.items
    rw [(CreditOnly.convert s l).read State.settings]
    rcases hstart.settings with h | ⟨b, h⟩
    · rw [h]
    · rw [h]
      cases l <;> rfl
  refine slots_deductOrder ⟨?_, ?_, ?_, ?_, ?_, ?_, ?_, ?_, ?_, ?_⟩ stop
  · rw [endDrop_bound hvb, endDrop_bound hcb]
    unfold State.modRec
    show v.slots.map _ = (s.convert l).slots.map _
    rw [hstart.slots]
  · rw [line_endDrop, line_endDrop, hline, hcline]
    rfl
  · rw [line_endDrop, line_endDrop, hline, hcline]
    rfl
  · rw [line_endDrop, line_endDrop, hline, hcline]
    rfl
  · rw [line_endDrop, line_endDrop, hline, hcline]
    rfl
  · rw [endDrop_eq, endDrop_eq (s.convert l)]
    exact (hstart.only.read State.pump).trans ((CreditOnly.convert s l).read State.pump).symm
  · rw [endDrop_eq, endDrop_eq (s.convert l)]
    exact (hstart.only.read State.load).trans ((CreditOnly.convert s l).read State.load).symm
  · rw [endDrop_eq, endDrop_eq (s.convert l)]
    exact hstart.fresh
  · rw [endDrop_eq, endDrop_eq (s.convert l)]
    exact hset
  · rw [endDrop_eq, endDrop_eq (s.convert l)]
    exact hpr

end

theorem restState_settleStart {s v : State} {l : Line} (hstart : SettleStart l s v) : v.restState l = s.restState l := by
  have hlatched : (v.meter l).latched = (s.meter l).latched := by rw [hstart.meter]; rfl
  have hcal : v.settings.calLost = s.settings.calLost := by
    rcases hstart.settings with h | ⟨a, h⟩ <;> rw [h] <;> rfl
  unfold State.restState
  rw [hlatched, hcal]

/-! ## A close that is held (R119) -/

/-- What an event leaves that enters PAUSED from a state `w` with a record bound. -/
structure PauseEntered (l : Line) (stop : Nat) (cause : PauseCause) (s w t : State) : Prop where
  paused : (t.line l).justPaused (s.latchedOf l).run.autoClose cause
  core : (t.line l).core = (LineCtx.toPaused (s.latchedOf l).run cause (w.line l)).core
  record : ∃ r, w.recOf stop = some r ∧ t.recOf stop = some r.checkpointed
  asked : asked t (.record stop)
  others : sameRecordsBut stop s t
  otherLine : sameLine s t l.other
  item : t.attention.get l = true
  settings : t.settings = w.settings
  load : t.load = s.load
  route : t.route = s.route
  counter : t.counter = s.counter
  pump : t.pump = s.pump
  meters : t.meters = w.meters
  waiting : ∀ k ∈ w.queue, Machine.asked t k

theorem settleOnly_enterPaused (s : State) (l : Line) (cause : PauseCause) : SettleOnly l s (s.enterPaused l cause) :=
  .of_lineOnly (.enterPaused s l cause) (pump_enterPaused ..)

theorem commit_enterPaused {s w : State} {l : Line} {stop : Nat} {r : Record} (ha : s.isActive = true) (hs : s.settled = true)
    (hroom : s.roomy = true) (hw : SettleOnly l s w) (hone : OneRecord stop s w)
    (hqueue : w.queue = s.queue ∨ w.queue = (s.enqueue (.block .settings)).queue) (hlatched : w.latchedOf l = s.latchedOf l)
    (hb : (w.line l).bound = some stop) (hr : w.recOf stop = some r) (cause : PauseCause) (k : TimeRow) :
    PauseEntered l stop cause s w (commit ((w.enterPaused l cause).timeRow k)) := by
  have hall := hw.trans (settleOnly_enterPaused w l cause)
  obtain ⟨hslots, hwqueue⟩ := store_enterPaused hb cause
  have hrec := recOf_enterPaused hb cause hr
  have hoverall := hone.trans (oneRecord_enterPaused hb cause)
  obtain ⟨hkeeps, hasked⟩ := commit_asks (u := (w.enterPaused l cause).timeRow k) ha hs hroom (hall.read State.phase) (hall.read State.flight)
    (fun h => (replyDue_congr (s := s) (hall.read State.cmd)).trans h) hall.noEndDue hoverall.free fun hempty => by
      right
      rcases hqueue with hq | hq
      · exact ⟨.record stop, [], hwqueue.trans (by rw [queue_enqueue, hq, hempty]; rfl), startable_record _ stop _ hrec⟩
      · exact ⟨.block .settings, [.record stop], hwqueue.trans (by rw [queue_enqueue, hq, queue_enqueue, hempty]; rfl), trivial⟩
  have hline := line_enterPaused w l cause
  rw [hlatched] at hline
  have hcore := hkeeps.core l
  change _ = ((w.enterPaused l cause).line l).core at hcore
  rw [hline] at hcore
  have hframe : ∀ m, (commit ((w.enterPaused l cause).timeRow k)).recOf m = (w.enterPaused l cause).recOf m := fun m =>
    (recOf_of_slots hkeeps.slots m).trans rfl
  have hlineOnly := LineOnly.enterPaused w l cause
  refine ⟨?_, hcore, ⟨r, hr, (hframe stop).trans hrec⟩, hasked _ ?_, ⟨fun m hm => (hframe m).trans (hoverall.others m hm), ?_⟩,
    ⟨?_, ?_⟩, ?_, hkeeps.settings.trans (hlineOnly.read State.settings), hkeeps.load.trans (hall.read State.load),
    hkeeps.route.trans (hall.read State.route), hkeeps.counter.trans (hall.read State.counter), hkeeps.pump.trans (hall.read State.pump),
    hkeeps.meters.trans (meters_enterPaused ..), fun j hj => hasked j ?_⟩
  · show ((commit ((w.enterPaused l cause).timeRow k)).line l).core.justPaused _ _
    rw [hcore]
    exact justPaused_toPaused _ _ (w.line l)
  · show _ ∈ (w.enterPaused l cause).queue
    rw [hwqueue]
    exact mem_enqueue ..
  · exact hkeeps.unsaved.trans (hall.read State.unsaved)
  · exact (hkeeps.core l.other).trans (congrArg LineCtx.core hall.otherLine)
  · rw [hkeeps.attention]
    exact hall.otherItem
  · rw [hkeeps.attention]
    exact attention_enterPaused ..
  · show _ ∈ (w.enterPaused l cause).queue
    rw [hwqueue]
    exact mem_enqueue_of_mem _ _ _ hj

end Sys2Proof.Machine

/-- Settles O52: a settle that ends the run closes it, or holds the close while the record is unsaved. -/
theorem settleEndsTheRun : Obligations.SettleEndsTheRun := by
  intro l stop r i cause s ha hs hroom hst htimer hk hb hr hi hcause
  have hstart := settleStart_leftSettle hst
  obtain ⟨v, hv⟩ : ∃ v, v = s.leftSettle l := ⟨_, rfl⟩
  rw [← hv] at hstart
  obtain ⟨hvk, hvb⟩ := settleStart_run hstart hk hb
  obtain ⟨hvr, hone⟩ := settleStart_record hstart hk hb hr
  have hunsaved : v.unsaved = s.unsaved := hstart.only.read State.unsaved
  have hlast : r.active.map (·.1) = some r.drops.length → v.onLastDrop l = true := by
    intro h
    obtain ⟨hfst, hlen⟩ := active_credit s l r
    rw [h] at hfst
    obtain ⟨⟨n, d⟩, hact, rfl⟩ := Option.map_eq_some_iff.1 hfst
    rw [onLastDrop_order hvk (boundRec_eq hvb hvr) hact, hlen, beq_self_eq_true]
  obtain ⟨b, houtcome⟩ := settleOutcome_closes (v := v) (l := l) (i := i) (cause := cause) (s.settleCut l)
    (hcause.imp_right fun h => ⟨hlast h.1, h.2⟩)
  have hexec : exec (.settleExpiry l) s = .next (commit ((v.settleClose l cause b).timeRow (.settle l))) := by
    rw [exec_settle ha htimer hst, settleEnd_eq hst, hi, ← hv, houtcome]
  have hlearns : ∀ {t : State}, t.settings = v.settings → (∀ k ∈ v.queue, asked t k) →
      (∀ began, (s.line l).lowAlone = true → (s.line l).stopNet = some began →
          (t.settings.lines.get l).antic = learned (s.line l).antic (((s.convert l).liveNet l : Int) - (began : Int))
          ∧ asked t (.block .settings))
        ∧ ((s.line l).lowAlone = false → t.settings = s.settings) := by
    intro t hset hasked
    refine ⟨fun began hlow hbegan => ?_, fun hlow => hset.trans (hstart.low hlow).1⟩
    obtain ⟨hantic, hmem⟩ := hstart.teaches began hlow hbegan hk
    rw [hset]
    exact ⟨hantic, hasked _ hmem⟩
  by_cases hsaved : stop ∈ s.unsaved
  · rw [settleClose_unsaved hvb cause b (hunsaved ▸ hsaved)] at hexec
    obtain ⟨d, hd⟩ : ∃ d, d = if b = true then v.endDrop l cause else v := ⟨_, rfl⟩
    have hdrop : SettleOnly l v d ∧ OneRecord stop v d ∧ d.queue = v.queue ∧ d.settings = v.settings
        ∧ (d.line l).latched = (v.line l).latched ∧ (d.line l).bound = some stop ∧ ∃ r, d.recOf stop = some r := by
      rw [hd]
      split
      · have heq := endDrop_eq v l cause
        refine ⟨.of_lineOnly (.endDrop v l cause) ?_, oneRecord_endDrop hvb cause, ?_, ?_, ?_, ?_, _, recOf_endDrop hvb cause hvr⟩
        · rw [heq]
        · rw [heq]
        · rw [heq]
        · rw [line_endDrop]; rfl
        · rw [line_endDrop]; exact hvb
      · exact ⟨.refl l v, .of_slots rfl, rfl, rfl, rfl, hvb, _, hvr⟩
    obtain ⟨honly, hdone, hdq, hdset, hdl, hdb, r', hdr⟩ := hdrop
    rw [← hd] at hexec
    obtain ⟨w, hw⟩ : ∃ w, w = d.modLine l (fun c => { c with held := some cause }) := ⟨_, rfl⟩
    have hwline : w.line l = { d.line l with held := some cause } := by rw [hw, line_modLine_same]
    have hentered := commit_enterPaused (w := w) (stop := stop) ha hs hroom
      ((hstart.only.trans honly).trans (hw ▸ .modLine d l (fun c => { c with held := some cause }) fun _ => rfl))
      ((hone.trans hdone).trans (.of_slots (by rw [hw]; rfl)))
      (by rw [hw]; exact hdq ▸ hstart.queue)
      ((latchedOf_congr (s := v) (by rw [hwline]; exact hdl) (by rw [hw]; exact hdset)).trans hstart.latched)
      (by rw [hwline]; exact hdb) ((recOf_of_slots (by rw [hw]; rfl) stop).trans hdr) .store (.settle l)
    rw [← hw] at hexec
    have hcore := hentered.core
    rw [hwline] at hcore
    refine ⟨_, hexec, hentered.others, hentered.otherLine, fun h => absurd hsaved h, fun _ => ⟨hentered.paused,
      (congrArg LineCtx.held hcore).trans rfl, (congrArg LineCtx.bound hcore).trans hdb, hentered.counter⟩, ?_⟩
    exact hlearns (hentered.settings.trans (by rw [hw]; exact hdset)) fun j hj => hentered.waiting j (by rw [hw]; exact hdq ▸ hj)
  · rw [settleClose_saved hvb cause b (hunsaved ▸ hsaved)] at hexec
    have hclosed := commit_closeRun (cause := cause) ha hs hroom hstart.only hone hstart.queue hvk hvb hvr false (.settle l)
    obtain ⟨-, ended, hended, -⟩ := closeRun_spec hvk hvb cause hvr
    have hrest := hclosed.rest
    rw [restState_settleStart hstart] at hrest
    refine ⟨_, hexec, hclosed.others, hclosed.otherLine, fun _ => ⟨hclosed.left, hclosed.asked, ⟨_, hrest, rfl⟩,
      ended, (recOf_of_slots (settleStart_deducts hstart hk hb cause) stop).symm.trans hended,
      runEnded_of_closed hclosed hvk hvb hvr hended (hstart.only.read State.counter) rfl rfl⟩, fun h => absurd h hsaved, ?_⟩
    exact hlearns hclosed.settings hclosed.waiting
end

