-- ==== Sys2Proof/Proofs/PressAndFreeEnds.lean ====
section
/-! PROOFS. The deadman timer's press, and the ends of runs without a record. -/

open Sys2Proof Sys2Proof.Machine

namespace Sys2Proof.Machine

/-! ## The deadman timer (R148, R149) -/

section
variable {s : State} {l : Line} (ha : s.isActive = true) (hs : s.settled = true)

/-- A timer loaded anew makes nothing due. -/
theorem sameDue_reloadDeadman (s : State) (l : Line) : SameDue s (s.reloadDeadman l) := by
  unfold State.reloadDeadman State.modTimers
  refine (CreditOnly.modLine s l (fun c => { c with timers := c.timers.reload (s.latchedOf l).run.deadman }) fun _ => rfl).sameDue ?_
  rw [line_modLine_same]

theorem keepsDue_pressDeadman (s : State) : KeepsDue s s.pressDeadman :=
  ((sameDue_reloadDeadman s .one).keeps.trans (sameDue_reloadDeadman _ .two).keeps).trans
    (SameDue.keeps ⟨rfl, rfl, rfl, rfl, fun _ => rfl, rfl, rfl, rfl, rfl⟩)

theorem keepsDue_pressed (s : State) : KeepsDue s ({ s with inputs := { s.inputs with deadman := true } } : State).pressDeadman := by
  obtain ⟨v, hv⟩ : ∃ v : State, v = { s with inputs := { s.inputs with deadman := true } } := ⟨_, rfl⟩
  have hlevel : SameDue s v := by
    rw [hv]
    exact ⟨rfl, rfl, rfl, rfl, fun _ => rfl, rfl, rfl, rfl, rfl⟩
  rw [← hv]
  exact hlevel.keeps.trans (keepsDue_pressDeadman v)

include ha hs

theorem exec_press (h : s.inputs.deadman = false) :
    exec .deadmanPress s = .next ({ s with inputs := { s.inputs with deadman := true } } : State).pressDeadman := by
  show execDeadmanPress s = _
  rw [execDeadmanPress]
  refine event_keeps ha hs ?_ (keepsDue_pressed s)
  rw [inputEvent, if_pos (by simp [h]), if_pos ha]
  rfl

theorem exec_release_deadman (h : s.inputs.deadman = true) :
    exec .deadmanRelease s = .next { s with inputs := { s.inputs with deadman := false } } := by
  show execDeadmanRelease s = _
  rw [execDeadmanRelease]
  refine event_keeps ha hs ?_ (SameDue.keeps ⟨rfl, rfl, rfl, rfl, fun _ => rfl, rfl, rfl, rfl, rfl⟩)
  rw [inputEvent, if_pos h, if_pos ha]
  rfl

theorem exec_expiry_pressed (hr : (s.line l).timers.deadman.isSome = true) (h : s.press.lines.get l = true) :
    exec (.deadmanExpiry l) s = .next { s with press := { s.press with lines := s.press.lines.set l false } } := by
  refine (execDeadmanExpiry_pressed l s hr h ha).trans ?_
  exact event_keeps ha hs rfl (SameDue.link s.rx s.tx _).keeps

end

theorem line_pressDeadman (s : State) (l : Line) :
    s.pressDeadman.line l = { s.line l with timers := (s.line l).timers.reload (s.latchedOf l).run.deadman } := by
  cases l <;> rfl

theorem press_pressDeadman (s : State) (l : Line) :
    s.pressDeadman.press.lines.get l = (s.line l).timers.deadman.isSome ∧ s.pressDeadman.press.seen = [] := by
  cases l <;> exact ⟨rfl, rfl⟩

/-- A mark that no row has followed stands one row of a kind, and not two. -/
theorem row_of_fresh {m : PressMark} (k : TimeRow) (hl : (m.lines.one || m.lines.two) = true) (hseen : m.seen = []) :
    (m.row k).lines = m.lines ∧ ((m.row k).row k).lines = ⟨false, false⟩ := by
  rw [PressMark.row_twice, PressMark.row_first k m hl (by rw [hseen]; rfl)]
  exact ⟨rfl, rfl⟩

theorem or_of_get {p : Pair Bool} (l : Line) (h : p.get l = true) : (p.one || p.two) = true := by
  cases l
  · exact Bool.or_eq_true_iff.2 (.inl h)
  · exact Bool.or_eq_true_iff.2 (.inr h)

/-! ## The ends of a run without a record, whatever it drew from (R85, R122, R140) -/

/-- A line's run volumes behind a deduction (R85). -/
def LineCtx.runDeducted (g n : Nat) (c : LineCtx) : LineCtx :=
  { c with runGross := c.runGross.map (· - g), runNet := c.runNet.map (· - n) }

theorem deductRun_cases (s : State) (l : Line) : s.deductRun l = s
    ∨ ∃ g n, s.deductRun l = (s.modLine l (LineCtx.runDeducted g n)).drew (s.lacksFactors l) := by
  unfold State.deductRun
  split
  · exact .inl rfl
  · exact .inr ⟨_, _, rfl⟩

/-- What the end of a run without a record changes before its line comes to rest. -/
structure FreeBooked (l : Line) (s w : State) : Prop where
  run : RunOnly l s w
  settings : w.settings = s.settings
  meters : w.meters = s.meters
  pump : w.pump = s.pump
  slots : w.slots = s.slots
  counter : w.counter = s.counter
  queue : w.queue = s.queue

namespace FreeBooked
variable {l : Line} {s u v : State}

theorem refl (l : Line) (s : State) : FreeBooked l s s := ⟨.refl l s, rfl, rfl, rfl, rfl, rfl, rfl⟩

theorem trans (h : FreeBooked l s u) (k : FreeBooked l u v) : FreeBooked l s v :=
  ⟨h.run.trans k.run, k.settings.trans h.settings, k.meters.trans h.meters, k.pump.trans h.pump, k.slots.trans h.slots,
    k.counter.trans h.counter, k.queue.trans h.queue⟩

theorem modLine (s : State) (l : Line) (f : LineCtx → LineCtx) (hf : ∀ c, (f c).endWaits = c.endWaits) : FreeBooked l s (s.modLine l f) :=
  ⟨.of_lineOnly (.modLine s l f hf), rfl, rfl, rfl, rfl, rfl, rfl⟩

theorem modLoad (l : Line) (s : State) (f : LoadBlock → LoadBlock) : FreeBooked l s (s.modLoad f) :=
  ⟨.modLoad l s f, rfl, rfl, rfl, rfl, rfl, rfl⟩

theorem modRoute (l : Line) (s : State) (f : RouteBlock → RouteBlock) : FreeBooked l s (s.modRoute f) :=
  ⟨.modRoute l s f, rfl, rfl, rfl, rfl, rfl, rfl⟩

theorem drew (l : Line) (s : State) (b : Bool) : FreeBooked l s (s.drew b) :=
  ⟨.drew l s b, drew_settings s b, drew_meters s b, drew_pump s b, drew_slots s b, drew_counter s b, drew_queue s b⟩

theorem deductRun (s : State) (l : Line) : FreeBooked l s (s.deductRun l) := by
  rcases deductRun_cases s l with h | ⟨g, n, h⟩
  · rw [h]
    exact refl l s
  · rw [h]
    exact (modLine s l (LineCtx.runDeducted g n) fun _ => rfl).trans (drew ..)

theorem bookPrime (l : Line) (s : State) (c p net : Nat) : FreeBooked l s (s.bookPrime c p net) := by
  unfold State.bookPrime
  split
  · exact refl l s
  · exact (modLoad ..).trans (modRoute ..)

/-- With nothing asked for. -/
theorem ends (h : FreeBooked l s v) (fields : List Tok) : FreeEnd l s ⟨v.restAfterRun l, fields, []⟩ :=
  freeEnd_of h.run h.settings h.meters h.pump h.slots h.counter (.inl ⟨rfl, h.queue⟩)

/-- With the load block's write asked for. -/
theorem endsLoad (h : FreeBooked l s v) (b : Bool) (fields : List Tok) :
    FreeEnd l s ⟨((v.enqueue (.block .load)).drew b).restAfterRun l, fields, [.block .load]⟩ := by
  refine freeEnd_of ((h.run.trans (.of_lineOnly (.enqueue l v _))).trans (.drew ..)) ?_ ?_ ?_ ?_ ?_
    (.inr ⟨.load, [], rfl, fun j hj => ?_, fun hempty => ⟨[], ?_⟩⟩)
  · simpa using h.settings
  · simpa using h.meters
  · simpa using h.pump
  · simpa using h.slots
  · simpa using h.counter
  · obtain rfl := List.mem_singleton.1 hj
    rw [drew_queue]
    exact mem_enqueue ..
  · rw [drew_queue, queue_enqueue, h.queue, hempty]
    rfl

/-- With the load block's write asked for, then the route block's. -/
theorem endsBoth (h : FreeBooked l s v) (b : Bool) (fields : List Tok) :
    FreeEnd l s ⟨(((v.enqueue (.block .load)).enqueue (.block .route)).drew b).restAfterRun l, fields, [.block .load, .block .route]⟩ := by
  refine freeEnd_of (((h.run.trans (.of_lineOnly (.enqueue l v _))).trans (.of_lineOnly (.enqueue l _ _))).trans (.drew ..)) ?_ ?_ ?_ ?_ ?_
    (.inr ⟨.load, [.block .route], rfl, fun j hj => ?_, fun hempty => ⟨[.block .route], ?_⟩⟩)
  · simpa using h.settings
  · simpa using h.meters
  · simpa using h.pump
  · simpa using h.slots
  · simpa using h.counter
  · rw [drew_queue]
    rcases List.mem_cons.1 hj with rfl | hj
    · exact mem_enqueue_of_mem _ _ _ (mem_enqueue ..)
    · obtain rfl := List.mem_singleton.1 hj
      exact mem_enqueue ..
  · rw [drew_queue, queue_enqueue, queue_enqueue, h.queue, hempty]
    rfl

end FreeBooked

theorem freeEnd_endPrime (s : State) (l : Line) : FreeEnd l s (s.endPrime l) := by
  have hbase := FreeBooked.deductRun s l
  unfold State.endPrime
  dsimp only
  split
  · exact hbase.ends _
  · next c p _ =>
    have hbooked := hbase.trans (.bookPrime l (s.deductRun l) c p (floorCl (((s.deductRun l).line l).runNet.getD 0)))
    have hhose : FreeBooked l s (if (s.deductRun l).hoseOf l ≤ floorCl (((s.deductRun l).line l).runNet.getD 0) then
        ((s.deductRun l).bookPrime c p (floorCl (((s.deductRun l).line l).runNet.getD 0))).modLoad
          (fun x => { x with hoses := x.hoses.set l (.product p) })
        else (s.deductRun l).bookPrime c p (floorCl (((s.deductRun l).line l).runNet.getD 0))) := by
      split
      · exact hbooked.trans (.modLoad ..)
      · exact hbooked
    split
    · exact (hhose.trans (.drew ..)).ends _
    · exact hhose.endsBoth ..

theorem freeEnd_endProve (s : State) (l : Line) : FreeEnd l s (s.endProve l) := by
  have hbase := (FreeBooked.deductRun s l).trans (.modLine _ l (fun c => { c with prove := some ((s.deductRun l).proveResult l) }) fun _ => rfl)
  unfold State.endProve
  dsimp only
  split
  · exact hbase.ends _
  · exact (hbase.trans (.modLoad ..)).endsLoad ..

theorem freeEnd_closeRun {s : State} {l : Line} (hb : (s.line l).bound = none)
    (hk : (s.line l).kind = some .prime ∨ (s.line l).kind = some .prove) (cause : EndCause) : FreeEnd l s (s.closeRun l cause) := by
  rcases hk with hk | hk
  · rw [closeRun_prime hb hk]
    exact freeEnd_dropOver (freeEnd_endPrime _ l)
  · rw [closeRun_prove hb hk]
    exact freeEnd_dropOver (freeEnd_endProve _ l)

end Sys2Proof.Machine
end

