-- ==== Sys2Proof/Proofs/LinesBehindEvents.lean ====
section
/-! PROOFS. The lines and the mode behind an event, and the timers of a line. -/

open Sys2Proof Sys2Proof.Machine

namespace Sys2Proof.Machine

/-! ## The lines behind an event (R187, R193) -/

theorem core_delivered {v : State} (ha : v.isActive = true) (l : Line) : (v.deliver.trySleep.line l).core = (v.line l).core := by
  have hsleep : v.deliver.trySleep.lines = v.deliver.lines := (congrArg State.lines (trySleep_eq v.deliver)).trans rfl
  have hreply : v.deliverReply.lines = v.lines := (congrArg State.lines (deliverReply_eq v)).trans rfl
  show (v.deliver.trySleep.lines.get l).core = _
  rw [hsleep, State.deliver, if_pos ha]
  calc (((v.deliverReply.deliverAttention .one).deliverAttention .two).line l).core
      = ((v.deliverReply.deliverAttention .one).line l).core := core_deliverAttention _ .two l
    _ = (v.deliverReply.line l).core := core_deliverAttention _ .one l
    _ = (v.line l).core := congrArg (fun p : Pair LineCtx => (p.get l).core) hreply

/-- Where the store goes on with what it does, or begins a block, the lines stay but for their waiters, and the records stay saved. -/
theorem commit_blockFirst {v : State} (ha : v.isActive = true)
    (hq : (v.flight.isSome = true ∨ v.queue = []) ∨ v.flight = none ∧ ∃ b q, v.queue = .block b :: q) :
    (∀ l, ((commit v).line l).core = (v.line l).core) ∧ (commit v).unsaved = v.unsaved := by
  have hrun : v.runStore.isActive = true ∧ (∀ l, (v.runStore.line l).core = (v.line l).core) ∧ v.runStore.unsaved = v.unsaved := by
    refine ⟨(isActive_of_phase (runStore_keeps v).phase).trans ha, ?_⟩
    rcases hq with hq | ⟨hf, b, q, hq⟩
    · rw [runStore_settled v hq]
      exact ⟨fun _ => rfl, rfl⟩
    · obtain ⟨f, hfly⟩ := flies_block v b
      rw [runStore_flies ha hf hq hfly]
      exact ⟨fun l => by cases l <;> rfl, rfl⟩
  obtain ⟨hactive, hcore, hunsaved⟩ := hrun
  rw [commit_active v ha]
  exact ⟨fun l => (core_delivered hactive l).trans (hcore l), (congrArg State.unsaved (delivered_eq hactive)).trans hunsaved⟩

/-- While a line credits no sleep is entered. -/
theorem commit_awake {u : State} (ha : u.isActive = true) (hc : u.anyCrediting = true)
    (hcore : ∀ l, ((commit u).line l).core = (u.line l).core) : (commit u).mode = u.mode ∧ (commit u).sleepDue = u.sleepDue := by
  have hkeeps := runStore_keeps u
  have hactive : u.runStore.isActive = true := (isActive_of_phase hkeeps.phase).trans ha
  obtain ⟨x, hx⟩ : ∃ x, x = u.runStore.deliver := ⟨_, rfl⟩
  have hcommit : commit u = x.trySleep := by rw [commit_active u ha, hx]
  have hlines : (commit u).lines = x.lines := by
    rw [hcommit]
    exact (congrArg State.lines (trySleep_eq x)).trans rfl
  have hst : ∀ l, (x.line l).st = (u.line l).st := fun l =>
    (congrArg (fun p : Pair LineCtx => (p.get l).st) hlines).symm.trans
      (show ((commit u).line l).core.st = (u.line l).core.st from congrArg LineCtx.st (hcore l))
  have hcrediting : x.anyCrediting = true := by
    have h : x.anyCrediting = u.anyCrediting :=
      congrArg₂ (fun a b : LineState => a.crediting || b.crediting) (hst .one) (hst .two)
    exact h.trans hc
  have hsame : x.trySleep = x := by
    unfold State.trySleep State.maySleep
    rw [hcrediting]
    simp
  have hmode : x.mode = u.runStore.mode ∧ x.sleepDue = u.runStore.sleepDue := by
    rw [hx, State.deliver, if_pos hactive, deliverAttention_eq (u.runStore.deliverReply.deliverAttention .one) .two,
      deliverAttention_eq u.runStore.deliverReply .one, deliverReply_eq u.runStore]
    exact ⟨rfl, rfl⟩
  rw [hcommit, hsame]
  exact ⟨hmode.1.trans hkeeps.mode, hmode.2.trans hkeeps.sleepDue⟩

/-! ## The timers of a line (R116 to R118) -/

section
variable {s : State} {l : Line}

/-- A timer's expiry that changes the line's context alone. -/
theorem sameDue_lined (f : LineCtx → LineCtx) (k : TimeRow) (hends : ∀ c, (f c).endWaits = c.endWaits)
    (hc : (f (s.line l)).st.crediting = (s.line l).st.crediting) : SameDue s ((s.modLine l f).timeRow k) :=
  ((CreditOnly.modLine s l f hends).trans (.timeRow l _ k)).sameDue (by
    show ((s.modLine l f).line l).st.crediting = _
    rw [line_modLine_same]
    exact hc)

/-- A line's context with its no-flow timer stopped. -/
def LineCtx.noFlowOver (c : LineCtx) : LineCtx := { c with timers := { c.timers with noFlow := none } }

/-- A line's context with its auto-close timer stopped. -/
def LineCtx.autoCloseOver (c : LineCtx) : LineCtx := { c with timers := { c.timers with autoClose := none } }

/-- A line's context with its checkpoint timer loaded anew. -/
def LineCtx.checkpointLoaded (c : LineCtx) : LineCtx := { c with timers := { c.timers with checkpoint := some 5000000 } }

theorem noFlowEnd_flowing (hst : (s.line l).st = .flowing) :
    s.noFlowEnd l = s.modLine l (fun c => c.noFlowOver.stopped (s.latchedOf l).run .noFlow (s.liveNet l)) := by
  unfold State.noFlowEnd
  rw [hst]
  show (s.modLine l LineCtx.noFlowOver).beginStop l .noFlow = _
  have hlive : (s.modLine l LineCtx.noFlowOver).liveNet l = s.liveNet l :=
    liveNet_congr rfl (by rw [line_modLine_same]; rfl) (by rw [line_modLine_same]; rfl) (by rw [line_modLine_same]; rfl)
  have hlatched : (s.modLine l LineCtx.noFlowOver).latchedOf l = s.latchedOf l := latchedOf_congr (by rw [line_modLine_same]; rfl) rfl
  rw [State.beginStop, hlive, hlatched, modLine_eq s, modLine_lined]
  rfl

theorem noFlowEnd_stopping (hst : (s.line l).st = .stopping) : s.noFlowEnd l = s.modLine l (fun c =>
    { c with
      intent := if c.intent = some .pause then some .noFlow else c.intent
      timers := { c.timers with noFlow := none } }) := by
  unfold State.noFlowEnd
  rw [hst]
  show (if (s.line l).intent = some .pause then (s.modLine l LineCtx.noFlowOver).modLine l _ else s.modLine l LineCtx.noFlowOver) = _
  rw [modLine_eq s, modLine_lined]
  split
  · next h => rw [modLine_eq s, if_pos h]; rfl
  · next h => rw [modLine_eq s, if_neg h]; rfl

theorem deadmanEnd_cuts (hst : (s.line l).st = .flowing ∨ (s.line l).st = .stopping) :
    CreditOnly l s (s.deadmanEnd l) ∧ (s.line l).justCut .deadman ((s.deadmanEnd l).line l)
      ∧ { s.deadmanEnd l with lines := s.lines, press := s.press } = s ∧ (s.deadmanEnd l).press = .none := by
  have hends : ∀ c : LineCtx, (LineCtx.cutNow .deadman c).endWaits = c.endWaits := by
    intro c
    unfold LineCtx.cutNow
    split
    all_goals rfl
  refine ⟨((CreditOnly.modLine s l (fun c => { c with timers := { c.timers with deadman := none } }) fun _ => rfl).trans
    (.modLine _ l (LineCtx.cutNow .deadman) hends)).trans ⟨rfl, rfl, rfl, rfl⟩, ?_, rfl, rfl⟩
  show ((s.modTimers l (fun t => { t with deadman := none })).modLine l (LineCtx.cutNow .deadman)).line l = _
  unfold State.modTimers
  rw [line_modLine_same, line_modLine_same]
  unfold LineCtx.cutNow
  rcases hst with h | h <;> rw [h] <;> rfl

end

end Sys2Proof.Machine
end

