-- ==== Sys2Proof/Proofs/TimerEvents.lean ====
section
/-! PROOFS. The events of a line's no-flow, deadman and checkpoint timers. -/

open Sys2Proof Sys2Proof.Machine

namespace Sys2Proof.Machine

/-! ## A run without a record that an event closes (R117, R122) -/

/-- The report of a run's end changes who waits, and nothing else. -/
theorem report_waits (e : RunEnd) (l : Line) (always : Bool) :
    e.report l always = { e.st with lines := (e.report l always).lines, cmd := (e.report l always).cmd }
      ∧ ∀ k, ((e.report l always).line k).core = (e.st.line k).core := by
  obtain ⟨a, haw⟩ : ∃ a : State, a = if e.st.closeAwaits l then
      { e.st with cmd := e.st.cmd.map (fun c => { c with plan := .ready [e.fields], waits := .on e.keys }) } else e.st := ⟨_, rfl⟩
  have heq : a = { e.st with cmd := a.cmd } := by
    rw [haw]
    split
    all_goals rfl
  have hlines : a.lines = e.st.lines := (congrArg State.lines heq).trans rfl
  have hcore : ∀ k, (a.line k).core = (e.st.line k).core := fun k => congrArg (fun p : Pair LineCtx => (p.get k).core) hlines
  have hreport : e.report l always = a ∨ e.report l always = a.modLine l (LineCtx.waiting (.on e.keys)) := by
    rw [haw]
    unfold RunEnd.report
    dsimp only
    split
    · exact .inr rfl
    · exact .inl rfl
  rcases hreport with h | h
  · rw [h]
    refine ⟨?_, hcore⟩
    rw [hlines]
    exact heq
  · rw [h]
    exact ⟨congrArg (fun b : State => { b with lines := (a.modLine l (LineCtx.waiting (.on e.keys))).lines }) heq,
      fun k => (core_waiting a l k _).trans (hcore k)⟩

theorem commit_freeReport {s : State} {l : Line} {e : RunEnd} (ha : s.isActive = true) (hs : s.settled = true) (hend : FreeEnd l s e)
    (always : Bool) (k : TimeRow) {t : State} (ht : t = commit ((e.report l always).timeRow k)) :
    left l s t ∧ sameRecords s t ∧ t.counter = s.counter ∧ (t.line l).isAtRest (s.restState l) := by
  obtain ⟨hidle, -⟩ := (settled_iff s).1 hs
  obtain ⟨u, hu⟩ : ∃ u, u = (e.report l always).timeRow k := ⟨_, rfl⟩
  obtain ⟨heq, hcore⟩ := report_waits e l always
  have key : ∀ {α : Type} (g : State → α), g (e.report l always) = g { e.st with
      lines := (e.report l always).lines, cmd := (e.report l always).cmd } := fun g => congrArg g heq
  have hphase : u.phase = s.phase := by rw [hu]; exact (key State.phase).trans hend.run.phase
  have hflight : u.flight = s.flight := by rw [hu]; exact (key State.flight).trans hend.run.flight
  have hqueue : u.queue = e.st.queue := by rw [hu]; exact key State.queue
  have hactive : u.isActive = true := (isActive_of_phase hphase).trans ha
  have hstarts : (u.flight.isSome = true ∨ u.queue = []) ∨ u.flight = none ∧ ∃ b q, u.queue = .block b :: q := by
    rw [hflight, hqueue]
    cases hf : s.flight with
    | some f => exact .inl (.inl rfl)
    | none =>
      have hempty : s.queue = [] := by simpa [hf] using hidle
      rcases hend.keys with ⟨-, hq⟩ | ⟨b, -, -, -, hq⟩
      · exact .inl (.inr (hq.trans hempty))
      · obtain ⟨q, hfirst⟩ := hq hempty
        exact .inr ⟨rfl, b, q, hfirst⟩
  have hframe := commit_frame hactive
  obtain ⟨hlines, hunsaved⟩ := commit_blockFirst hactive hstarts
  have hrecs : ∀ n, u.recOf n = s.recOf n := by
    intro n
    rw [hu]
    exact recOf_of_slots ((key State.slots).trans hend.slots) n
  rw [ht, ← hu]
  refine ⟨left_of_pump hend.left rfl (hframe.pump.trans ?_), ⟨fun n => (hframe.recOf n).trans (hrecs n), hunsaved.trans ?_⟩,
    hframe.counter.trans ?_, ?_⟩
  · rw [hu]
    exact key State.pump
  · rw [hu]
    exact (key State.unsaved).trans hend.run.unsaved
  · rw [hu]
    exact (key State.counter).trans hend.counter
  · show ((commit u).line l).core.isAtRest _
    rw [hlines l, hu]
    show ((e.report l always).line l).core.isAtRest _
    rw [hcore l]
    exact hend.rest

/-! ## The events of a line's timers (R116 to R118) -/

theorem checkpoint_bound {s : State} {l : Line} {stop : Nat} (h : (s.line l).bound = some stop) :
    s.checkpoint l = s.changeRec stop Record.checkpointed := by
  rw [State.checkpoint, h]

section
variable {s : State} {l : Line} (ha : s.isActive = true) (hs : s.settled = true)
include ha hs

theorem exec_noFlow {f : LineCtx → LineCtx} (hr : (s.line l).timers.noFlow.isSome = true) (hf : s.noFlowEnd l = s.modLine l f)
    (hends : ∀ c, (f c).endWaits = c.endWaits) (hc : (f (s.line l)).st.crediting = (s.line l).st.crediting) :
    exec (.noFlowExpiry l) s = .next ((s.modLine l f).timeRow (.noFlow l)) := by
  show execNoFlowExpiry l s = _
  rw [execNoFlowExpiry]
  exact activeEvent_keeps ha hs ((if_pos hr).trans (congrArg (State.timeRow · (.noFlow l)) hf)) (sameDue_lined f _ hends hc).keeps

theorem exec_deadman_cuts (hr : (s.line l).timers.deadman.isSome = true) (hpress : s.press.lines.get l = false)
    (hst : (s.line l).st = .flowing ∨ (s.line l).st = .stopping) : exec (.deadmanExpiry l) s = .next (s.deadmanEnd l) := by
  show execDeadmanExpiry l s = _
  rw [execDeadmanExpiry]
  obtain ⟨honly, hcut, -⟩ := deadmanEnd_cuts hst
  refine activeEvent_keeps ha hs ?_ (honly.sameDue ?_).keeps
  · rw [if_neg (by cases h : (s.line l).timers.deadman <;> simp [h] at hr ⊢), if_neg (by simp [hpress])]
  · rw [LineCtx.justCut] at hcut
    rw [hcut]
    rcases hst with h | h <;> rw [h] <;> rfl

/-- A running no-flow timer's stop (R116). -/
theorem exec_noFlow_flowing (hr : (s.line l).timers.noFlow.isSome = true) (hst : (s.line l).st = .flowing) :
    ∃ t, exec (.noFlowExpiry l) s = .next t
      ∧ (s.line l).noFlowOver.stopBegun (s.latchedOf l).run .noFlow (s.liveNet l) false (t.line l)
      ∧ { t with lines := s.lines, press := s.press } = s ∧ t.press = s.press.row (.noFlow l) ∧ t.line l.other = s.line l.other := by
  have hstopped : ∀ c : LineCtx, (c.noFlowOver.stopped (s.latchedOf l).run .noFlow (s.liveNet l)).endWaits = c.endWaits := by
    intro c
    unfold LineCtx.stopped
    split
    all_goals rfl
  refine ⟨_, exec_noFlow ha hs hr (noFlowEnd_flowing hst) hstopped ?_, ?_, rfl, rfl, line_modLine_of_ne s _ (other_ne l)⟩
  · exact (runKept_stopped (c := (s.line l).noFlowOver) hst _ .noFlow _).crediting
  · show (s.line l).noFlowOver.stopBegun _ _ _ _ ((s.modLine l _).line l)
    rw [line_modLine_same]
    have h := stopBegun_stopped (s.latchedOf l).run .noFlow (s.liveNet l) (s.line l).noFlowOver
    rw [show (StopIntent.noFlow == StopIntent.limit) = false from rfl, Bool.and_false] at h
    exact h

/-- The record written at a checkpoint (R118). -/
theorem exec_checkpoint {stop : Nat} {r : Record} (hr : (s.line l).timers.checkpoint.isSome = true)
    (hst : (s.line l).st.crediting = true) (hroom : s.roomy = true) (hb : (s.line l).bound = some stop) (hrec : s.recOf stop = some r) :
    ∃ t, exec (.checkpointExpiry l) s = .next t ∧ t.press = s.press.row (.checkpoint l)
      ∧ t.recOf stop = some { r with restored := .checkpoint }
      ∧ asked t (.record stop) ∧ sameRecordsBut stop s t ∧ sameBlocks s t ∧ sameTruck s t ∧ sameLine s t l.other
      ∧ (t.line l).core = { (s.line l).core with timers := { (s.line l).timers with checkpoint := some 5000000 } } := by
  obtain ⟨v, hv⟩ : ∃ v, v = s.modLine l LineCtx.checkpointLoaded := ⟨_, rfl⟩
  have hvline : v.line l = (s.line l).checkpointLoaded := by rw [hv, line_modLine_same]
  have hvother : v.line l.other = s.line l.other := by rw [hv, line_modLine_of_ne s _ (other_ne l)]
  have hvb : (v.line l).bound = some stop := by rw [hvline]; exact hb
  obtain ⟨u, hu⟩ : ∃ u, u = (v.changeRec stop Record.checkpointed).timeRow (.checkpoint l) := ⟨_, rfl⟩
  have hexec : exec (.checkpointExpiry l) s = .next (commit u) := by
    have hevent : (if (s.line l).timers.checkpoint.isSome = true ∧ (s.line l).st.crediting = true then
        ((s.modTimers l (fun t => { t with checkpoint := some 5000000 })).checkpoint l).timeRow (.checkpoint l) else s) = u := by
      rw [if_pos ⟨hr, hst⟩, hu, ← checkpoint_bound hvb, hv]
      rfl
    show execCheckpointExpiry l s = _
    rw [execCheckpointExpiry, activeEvent, event, comesUp_active s ha, if_pos ha, hevent]
  have hlines : u.lines = v.lines := by rw [hu]; exact enqueue_lines ..
  have hline : ∀ k, u.line k = v.line k := fun k => congrArg (fun p : Pair LineCtx => p.get k) hlines
  have hsame : SettleOnly l s u := by
    rw [hu, hv]
    exact ((SettleOnly.modLine s l LineCtx.checkpointLoaded fun _ => rfl).trans
      (.of_lineOnly (.changeRec l _ stop Record.checkpointed) (enqueue_pump ..))).trans (.of_credit (.timeRow l _ _))
  have hqueue : u.queue = (s.enqueue (.record stop)).queue := by
    rw [hu, hv]
    exact (queue_enqueue ..).trans (queue_enqueue s _).symm
  have hone : OneRecord stop s u := by
    rw [hu, hv]
    exact .trans (.of_slots (u := s.modLine l LineCtx.checkpointLoaded) rfl)
      ((OneRecord.changeRec _ stop Record.checkpointed fun _ => rfl).trans (.of_slots rfl))
  have hrecu : u.recOf stop = some r.checkpointed := by
    have h := recOf_changeRec_same v stop Record.checkpointed fun _ => rfl
    rw [show v.recOf stop = some r from (by rw [hv]; exact hrec)] at h
    rw [hu]
    exact h
  obtain ⟨hkeeps, hrect, hasked, hothers, -⟩ := commit_oneRecord (u := u) ha hs hroom (hsame.read State.phase) (hsame.read State.flight)
    (hsame.read State.cmd) hsame.noEndDue hrecu hone
    (fun hempty => ⟨[], by rw [hqueue, queue_enqueue, hempty]; rfl⟩) (hqueue ▸ mem_enqueue ..) (hsame.read State.unsaved)
  have hcrediting : u.anyCrediting = true := by
    have h : (u.line l).st.crediting = true := by rw [hline, hvline]; exact hst
    unfold State.anyCrediting
    cases l
    · exact Bool.or_eq_true_iff.2 (.inl h)
    · exact Bool.or_eq_true_iff.2 (.inr h)
  have hactive : u.isActive = true := (isActive_of_phase (hsame.read State.phase)).trans ha
  obtain ⟨hmode, hsleep⟩ := commit_awake hactive hcrediting hkeeps.core
  have hframe := commit_frame hactive
  refine ⟨_, hexec, hframe.press.trans ?_, hrect, hasked, hothers, ?_, ?_, ⟨?_, ?_⟩, ?_⟩
  · rw [hu, hv]
    exact congrArg (PressMark.row (.checkpoint l)) (enqueue_press ..)
  · exact ⟨hkeeps.settings.trans (by rw [hu, hv]; exact enqueue_settings ..), hkeeps.load.trans (hsame.read State.load),
      hkeeps.route.trans (hsame.read State.route), hkeeps.counter.trans (hsame.read State.counter)⟩
  · exact ⟨hkeeps.inputs.trans (hsame.read State.inputs), hkeeps.meters.trans (by rw [hu, hv]; exact enqueue_meters ..),
      hkeeps.clock.trans (hsame.read State.clock), hkeeps.captures.trans (hsame.read State.captures),
      hkeeps.areaSettings.trans (hsame.read State.areaSettings), hkeeps.areaLoad.trans (hsame.read State.areaLoad),
      hkeeps.areaRoute.trans (hsame.read State.areaRoute), hkeeps.failed.trans (hsame.read State.failed),
      hkeeps.seq.trans (hsame.read State.seq), hkeeps.patrolCursor.trans (hsame.read State.patrolCursor),
      hkeeps.resetCause.trans (hsame.read State.resetCause), hframe.phase.trans (hsame.read State.phase),
      hmode.trans (hsame.read State.mode), hkeeps.ignitionLow.trans (hsame.read State.ignitionLow),
      hsleep.trans (hsame.read State.sleepDue)⟩
  · rw [hkeeps.core, hsame.otherLine]
  · rw [hkeeps.attention]
    exact hsame.otherItem
  · rw [hkeeps.core, hline, hvline]
    rfl

end

end Sys2Proof.Machine
end

