-- ==== Sys2Proof/Proofs/AutoClose.lean ====
section
/-! PROOFS. The auto-close timer, and O53. -/

open Sys2Proof Sys2Proof.Machine

namespace Sys2Proof.Machine

/-! ## The auto-close timer (R117, R119) -/

section
variable {s : State} {l : Line} (ha : s.isActive = true) (hs : s.settled = true)
  (hr : (s.line l).timers.autoClose.isSome = true) (hst : (s.line l).st = .paused) (hmode : s.mode = .run)

/-- A line's context with the close by the auto-close timer held (R119). -/
def LineCtx.timeoutHeld (c : LineCtx) : LineCtx := { c.autoCloseOver with held := some (c.held.getD .timeout) }

theorem autoCloseEnd_unsaved (h : s.boundIsUnsaved l = true) : s.autoCloseEnd l = s.modLine l LineCtx.timeoutHeld := by
  unfold State.autoCloseEnd
  rw [h, if_pos rfl]
  show (s.modLine l LineCtx.autoCloseOver).modLine l _ = _
  rw [modLine_eq s, modLine_lined]
  rfl

theorem autoCloseEnd_saved (h : s.boundIsUnsaved l = false) :
    s.autoCloseEnd l = ((s.modLine l LineCtx.autoCloseOver).closeRun l .timeout).report l false := by
  unfold State.autoCloseEnd
  rw [h, if_neg Bool.false_ne_true]
  rfl

include ha hr hst hmode

theorem exec_autoClose : exec (.autoCloseExpiry l) s = .next (commit ((s.autoCloseEnd l).timeRow (.autoClose l))) := by
  show execAutoCloseExpiry l s = _
  rw [execAutoCloseExpiry, activeEvent, event, comesUp_active s ha, if_pos ha, if_pos ⟨hr, hst, hmode⟩]

include hs

theorem exec_autoClose_held (h : s.boundIsUnsaved l = true) :
    exec (.autoCloseExpiry l) s = .next ((s.modLine l LineCtx.timeoutHeld).timeRow (.autoClose l)) := by
  have hsame : SameDue s ((s.modLine l LineCtx.timeoutHeld).timeRow (.autoClose l)) := sameDue_lined LineCtx.timeoutHeld _ (fun _ => rfl) rfl
  rw [exec_autoClose ha hr hst hmode, autoCloseEnd_unsaved h, hsame.keeps.commit ha hs]

theorem exec_autoClose_order {stop : Nat} {r : Record} (hk : (s.line l).kind = some .order) (hb : (s.line l).bound = some stop)
    (hrec : s.recOf stop = some r) (hsaved : stop ∉ s.unsaved) (hroom : s.roomy = true) :
    ∃ t, exec (.autoCloseExpiry l) s = .next t ∧ left l s t ∧ asked t (.record stop) ∧ sameRecordsBut stop s t
      ∧ (t.line l).isAtRest (s.restState l)
      ∧ ∃ ended, ((s.endDrop l .timeout).deductOrder l stop).recOf stop = some ended ∧ runEnded l stop .timeout r ended s t := by
  obtain ⟨v, hv⟩ : ∃ v, v = s.modLine l LineCtx.autoCloseOver := ⟨_, rfl⟩
  have hvline : v.line l = (s.line l).autoCloseOver := by rw [hv, line_modLine_same]
  have hvslots : v.slots = s.slots := by rw [hv]; rfl
  have hvk : (v.line l).kind = some .order := by rw [hvline]; exact hk
  have hvb : (v.line l).bound = some stop := by rw [hvline]; exact hb
  have hvrec : v.recOf stop = some r := (recOf_of_slots hvslots stop).trans hrec
  have hunsaved : s.boundIsUnsaved l = false := by rw [boundIsUnsaved_eq hb]; exact decide_eq_false hsaved
  have hexec := exec_autoClose ha hr hst hmode
  rw [autoCloseEnd_saved hunsaved, ← hv] at hexec
  have hclosed := commit_closeRun (s := s) (v := v) (cause := .timeout) ha hs hroom
    (by rw [hv]; exact .modLine s l LineCtx.autoCloseOver fun _ => rfl) (.of_slots hvslots) (.inl (by rw [hv]; rfl)) hvk hvb hvrec false
    (.autoClose l)
  have hdeducts : ((v.endDrop l .timeout).deductOrder l stop).slots = ((s.endDrop l .timeout).deductOrder l stop).slots := by
    refine slots_deductOrder ⟨?_, ?_, ?_, ?_, ?_, ?_, ?_, ?_, ?_, ?_⟩ stop
    · rw [endDrop_bound hvb, endDrop_bound hb]
      unfold State.modRec
      show v.slots.map _ = s.slots.map _
      rw [hvslots]
    · rw [line_endDrop, line_endDrop, hvline]
      rfl
    · rw [line_endDrop, line_endDrop, hvline]
      rfl
    · rw [line_endDrop, line_endDrop, hvline]
      rfl
    · rw [line_endDrop, line_endDrop, hvline]
      rfl
    · rw [endDrop_eq, endDrop_eq s, hv]
      rfl
    · rw [endDrop_eq, endDrop_eq s, hv]
      rfl
    · rw [endDrop_eq, endDrop_eq s, hv]
      rfl
    · rw [endDrop_eq, endDrop_eq s, hv]
      exact fun _ => rfl
    · rw [endDrop_eq, endDrop_eq s, hv]
      rfl
  obtain ⟨-, ended, hended, -⟩ := closeRun_spec hk hb .timeout hrec
  have hrest := hclosed.rest
  rw [show v.restState l = s.restState l from (by rw [hv]; rfl)] at hrest
  exact ⟨_, hexec, hclosed.left, hclosed.asked, hclosed.others, hrest, ended, hended,
    runEnded_of_closed hclosed hvk hvb hvrec ((recOf_of_slots hdeducts stop).trans hended) (by rw [hv]; rfl) rfl rfl⟩

theorem exec_autoClose_free (hb : (s.line l).bound = none) (hk : (s.line l).kind = some .prime ∨ (s.line l).kind = some .prove) :
    ∃ t, exec (.autoCloseExpiry l) s = .next t ∧ left l s t ∧ sameRecords s t ∧ t.counter = s.counter
      ∧ (t.line l).isAtRest (s.restState l) := by
  obtain ⟨v, hv⟩ : ∃ v, v = s.modLine l LineCtx.autoCloseOver := ⟨_, rfl⟩
  have hvline : v.line l = (s.line l).autoCloseOver := by rw [hv, line_modLine_same]
  have hvend : FreeEnd l v (v.closeRun l .timeout) :=
    freeEnd_closeRun (by rw [hvline]; exact hb) (by rw [hvline]; exact hk) .timeout
  have hend : FreeEnd l s (v.closeRun l .timeout) := by
    rw [hv] at hvend ⊢
    exact ⟨(RunOnly.of_lineOnly (.modLine s l LineCtx.autoCloseOver fun _ => rfl)).trans hvend.run, hvend.rest,
      left_of_pump hvend.left rfl rfl, hvend.settings, hvend.slots, hvend.counter, hvend.keys⟩
  have hunsaved : s.boundIsUnsaved l = false := by rw [State.boundIsUnsaved, hb]
  have hexec := exec_autoClose ha hr hst hmode
  rw [autoCloseEnd_saved hunsaved, ← hv] at hexec
  exact ⟨_, hexec, commit_freeReport ha hs hend false (.autoClose l) rfl⟩

end

end Sys2Proof.Machine

/-- Settles O53: the other timers of a line expire as their rules say. -/
theorem otherTimersExpire : Obligations.OtherTimersExpire := by
  intro l s ha hs
  refine ⟨fun hr => ⟨exec_noFlow_flowing ha hs hr, fun hst => ?_⟩, fun hr => ?_, exec_expiry_pressed ha hs, fun hr hlevel => ?_,
    fun hr hpress hst => ?_, fun stop r hr hst hroom hb hrec => exec_checkpoint ha hs hr hst hroom hb hrec,
    fun stop r hr hst hmode hk hb hrec => ⟨fun hunsaved => ?_, fun hsaved hroom => ?_⟩, fun hr hst hmode hb hk => ?_⟩
  · exact exec_noFlow ha hs hr (noFlowEnd_stopping hst) (fun _ => rfl) rfl
  · show execDeadmanExpiry l s = _
    rw [execDeadmanExpiry]
    exact activeEvent_keeps ha hs (if_pos (by rw [hr]; rfl)) (KeepsDue.refl s)
  · obtain ⟨t, ht⟩ : ∃ t, t = ({ s with inputs := { s.inputs with deadman := true } } : State).pressDeadman := ⟨_, rfl⟩
    have hkeeps := keepsDue_pressed s
    rw [← ht] at hkeeps
    have hta := hkeeps.active ha
    have hts := hkeeps.settled ha hs
    obtain ⟨u, hu⟩ : ∃ u : State, u = { t with inputs := { t.inputs with deadman := false } } := ⟨_, rfl⟩
    have hline : (t.line l).timers.deadman = some ((s.latchedOf l).run.deadman * 1000000) := by
      rw [ht, line_pressDeadman]
      exact congrArg Timers.deadman (Timers.reload_running (s.latchedOf l).run.deadman (s.line l).timers hr)
    obtain ⟨hmark, hseen⟩ : t.press.lines.get l = true ∧ t.press.seen = [] := by
      obtain ⟨h1, h2⟩ := press_pressDeadman ({ s with inputs := { s.inputs with deadman := true } } : State) l
      rw [ht]
      exact ⟨h1.trans hr, h2⟩
    have hrel : exec .deadmanRelease t = .next u := by
      rw [hu]
      exact exec_release_deadman hta hts (by rw [ht]; rfl)
    have hukeeps : SameDue t u := by
      rw [hu]
      exact ⟨rfl, rfl, rfl, rfl, fun _ => rfl, rfl, rfl, rfl, rfl⟩
    have hexpires : ∀ v, v.isActive = true → v.settled = true → v.lines = t.lines → v.press = t.press →
        (v.line l).timers.deadman = some ((s.latchedOf l).run.deadman * 1000000)
          ∧ exec (.deadmanExpiry l) v = .next { v with press := { v.press with lines := v.press.lines.set l false } }
          ∧ ∀ k, (v.press.row k).lines = v.press.lines ∧ ((v.press.row k).row k).lines = ⟨false, false⟩ := by
      intro v hva hvs hlines hpress
      have hvline : (v.line l).timers.deadman = some ((s.latchedOf l).run.deadman * 1000000) :=
        (congrArg (fun p : Pair LineCtx => (p.get l).timers.deadman) hlines).trans hline
      rw [← hpress] at hmark hseen
      exact ⟨hvline, exec_expiry_pressed hva hvs (by rw [hvline]; rfl) hmark, fun k => row_of_fresh k (or_of_get l hmark) hseen⟩
    refine ⟨t, u, ?_, hrel, fun v hv => ?_⟩
    · rw [ht]
      exact exec_press ha hs hlevel
    · rcases List.mem_cons.1 hv with rfl | hv
      · exact hexpires v hta hts rfl rfl
      · obtain rfl := List.mem_singleton.1 hv
        exact hexpires v (hukeeps.keeps.active hta) (hukeeps.keeps.settled hta hts) (by rw [hu]) (by rw [hu])
  · obtain ⟨honly, hcut, heq, hnone⟩ := deadmanEnd_cuts hst
    exact ⟨_, exec_deadman_cuts ha hs hr hpress hst, hcut, heq, hnone, honly.otherLine⟩
  · refine ⟨_, exec_autoClose_held ha hs hr hst hmode (by rw [boundIsUnsaved_eq hb]; exact decide_eq_true hunsaved), rfl, rfl,
      line_modLine_of_ne s _ (other_ne l), line_modLine_same ..⟩
  · obtain ⟨t, ht, hleft, hasked, hothers, hrest, hended⟩ := exec_autoClose_order ha hs hr hst hmode hk hb hrec hsaved hroom
    exact ⟨t, ht, hleft, hasked, hothers, ⟨_, hrest, rfl⟩, hended⟩
  · obtain ⟨t, ht, hleft, hrecs, hcounter, hrest⟩ := exec_autoClose_free ha hs hr hst hmode hb hk
    exact ⟨t, ht, hleft, hrecs, hcounter, _, hrest, rfl⟩
end

