-- ==== Sys2Proof/Proofs/SafetyInputs.lean ====
section
/-! PROOFS. The safety inputs and the seal, and O54. -/

open Sys2Proof Sys2Proof.Machine

namespace Sys2Proof.Machine

/-! ## An event whose first entry begins (R33) -/

theorem replyDue_begun {s : State} (k : Key) (h : s.replyDue = false) : (s.mapWaiters (Waiter.begun k)).replyDue = false := by
  unfold State.replyDue at h ⊢
  cases hc : s.cmd with
  | none => simp [State.mapWaiters, hc]
  | some c =>
    rw [hc] at h
    simp only [State.mapWaiters, hc, Option.map_some]
    cases ho : c.waits.over with
    | false => simp [begun_not_over k c.waits ho]
    | true =>
      simp only [ho, Bool.and_true] at h
      rcases Bool.and_eq_false_iff.1 h with hsent | hplan
      · simp [hsent]
      · have hsame : ∀ p : Plan, ((s.mapWaiters (Waiter.begun k)).planSegments p).isSome = (s.planSegments p).isSome := by
          intro p
          cases p <;> rfl
        simp only [Bool.and_eq_false_iff]
        exact .inr ((hsame c.plan).trans hplan)

/-- Behind an event that makes no reply and no item due, and whose first entry begins where the store does nothing. -/
theorem commit_begins {u : State} (ha : u.isActive = true) (he : noEndDue u) (hd : u.replyDue = false)
    (hq : (u.flight.isSome = true ∨ u.queue = []) ∨ u.flight = none ∧ ∃ k q, u.queue = k :: q ∧ Flies u k) :
    EventKeeps u (commit u) ∧ ∀ k ∈ u.queue, asked (commit u) k := by
  rcases hq with hq | ⟨hf, k, q, hq, f, hfly⟩
  · exact commit_event u ha (.inl hq) he hd
  · obtain ⟨y, hy⟩ : ∃ y : State,
      y = { ({ u with queue := q, patrolIdle := 0 } : State).mapWaiters (Waiter.begun k) with flight := some f } := ⟨_, rfl⟩
    have hactive : y.isActive = true := by rw [hy]; exact ha
    have hends : noEndDue y := by
      rw [hy]
      exact ⟨begun_any_over _ _ he.1, begun_any_over _ _ he.2⟩
    have hreply : y.replyDue = false := by
      rw [hy]
      exact (replyDue_congr (s := ({ u with queue := q, patrolIdle := 0 } : State).mapWaiters (Waiter.begun k)) rfl).trans
        (replyDue_begun k ((replyDue_congr rfl).trans hd))
    have hkeeps : EventKeeps u y := by
      rw [hy]
      exact ⟨rfl, rfl, rfl, rfl, rfl, rfl, rfl, rfl, rfl, rfl, rfl, rfl, rfl, rfl, rfl, rfl, rfl, rfl, rfl, rfl, rfl, rfl, rfl, rfl, rfl,
        fun l => by cases l <;> rfl⟩
    have hsleep := EventKeeps.trySleep y
    have hstore : y.trySleep.flight = y.flight ∧ y.trySleep.queue = y.queue :=
      ⟨(congrArg State.flight (trySleep_eq y)).trans rfl, (congrArg State.queue (trySleep_eq y)).trans rfl⟩
    rw [commit_active u ha, runStore_flies ha hf hq hfly, ← hy, deliver_noEnd y hactive hends, deliverReply_none y hreply]
    refine ⟨⟨hsleep.pending.trans hkeeps.pending, hsleep.counter.trans hkeeps.counter, hsleep.slots.trans hkeeps.slots,
      hsleep.unsaved.trans hkeeps.unsaved, hsleep.captures.trans hkeeps.captures, hsleep.seq.trans hkeeps.seq,
      hsleep.patrolCursor.trans hkeeps.patrolCursor, hsleep.areaSettings.trans hkeeps.areaSettings,
      hsleep.areaLoad.trans hkeeps.areaLoad, hsleep.areaRoute.trans hkeeps.areaRoute, hsleep.failed.trans hkeeps.failed,
      hsleep.settings.trans hkeeps.settings, hsleep.load.trans hkeeps.load, hsleep.route.trans hkeeps.route,
      hsleep.meters.trans hkeeps.meters, hsleep.pump.trans hkeeps.pump, hsleep.inputs.trans hkeeps.inputs,
      hsleep.ignitionLow.trans hkeeps.ignitionLow, hsleep.clock.trans hkeeps.clock, hsleep.phase.trans hkeeps.phase,
      hsleep.resetCause.trans hkeeps.resetCause, hsleep.tx.trans hkeeps.tx, hsleep.attention.trans hkeeps.attention,
      hsleep.press.trans hkeeps.press, hsleep.fresh.trans hkeeps.fresh, fun l => (hsleep.core l).trans (hkeeps.core l)⟩, fun x hx => ?_⟩
    rw [hq] at hx
    rcases List.mem_cons.1 hx with rfl | hx
    · right
      rw [hstore.1, hy]
      exact hfly.1
    · left
      rw [hstore.2, hy]
      exact hx

/-! ## The inputs (R142 to R151) -/

theorem line_modBothLines (s : State) (f : LineCtx → LineCtx) (l : Line) : (s.modBothLines f).line l = f (s.line l) := by
  cases l <;> rfl

/-- A change of both lines' cuts makes nothing due. -/
theorem sameDue_cutBoth (s : State) (x : CutCause) : SameDue s (s.modBothLines (LineCtx.cutOrRecord x)) where
  phase := rfl
  flight := rfl
  queue := rfl
  cmd := rfl
  ends := fun l => by
    rw [line_modBothLines]
    exact endWaits_cutOrRecord ..
  crediting := congrArg₂ (· || ·) (crediting_cutOrRecord x (s.line .one)) (crediting_cutOrRecord x (s.line .two))
  mode := rfl
  ignition := rfl
  sleepDue := rfl

theorem cutNow_cut {x : CutCause} {c : LineCtx} (h : c.st = .flowing ∨ c.st = .stopping) : c.justCut x (LineCtx.cutNow x c) := by
  unfold LineCtx.cutNow
  rcases h with h | h <;> rw [h] <;> rfl

theorem cutNow_other {x : CutCause} {c : LineCtx} (h1 : c.st ≠ .flowing) (h2 : c.st ≠ .stopping) : LineCtx.cutNow x c = c := by
  unfold LineCtx.cutNow
  split
  · contradiction
  · contradiction
  · rfl

theorem endWaits_cutNow (x : CutCause) (c : LineCtx) : (LineCtx.cutNow x c).endWaits = c.endWaits := by
  unfold LineCtx.cutNow
  split
  all_goals rfl

theorem crediting_cutNow (x : CutCause) (c : LineCtx) : (LineCtx.cutNow x c).st.crediting = c.st.crediting := by
  unfold LineCtx.cutNow
  split
  · next h => rw [h]; rfl
  · next h => rw [h]; rfl
  · rfl

/-- A level that makes no sleep due. -/
theorem sameDue_levels {s : State} (f : Inputs → Inputs) (h : (f s.inputs).ignition = s.inputs.ignition) :
    SameDue s (s.modInputs f) := ⟨rfl, rfl, rfl, rfl, fun _ => rfl, rfl, rfl, h, rfl⟩

theorem sameDue_refl (s : State) : SameDue s s := ⟨rfl, rfl, rfl, rfl, fun _ => rfl, rfl, rfl, rfl, rfl⟩

/-- Where no sleep is put off, an event that leaves none due. -/
theorem noSleep_keeps {s u v : State} (hv : v.sleepDue = false) (h : SameDue s u) {i : Inputs} :
    KeepsDue s { u with inputs := i, ignitionLow := 0, sleepDue := v.sleepDue } :=
  ⟨h.phase, h.keeps.flight, h.queue, fun hr => (replyDue_congr rfl).trans (h.keeps.reply hr), h.keeps.ends, fun _ => by
    show (v.sleepDue && _) = false
    rw [hv, Bool.false_and]⟩

section
variable {s : State} (ha : s.isActive = true) (hs : s.settled = true)
include ha

theorem inputEvent_changed {changes : Bool} (hc : changes = true) (f : Inputs → Inputs) (acts : State → State) :
    inputEvent changes f acts s = acts (s.modInputs f) := by
  rw [inputEvent, if_pos hc, if_pos ha]

include hs

/-- An event of an input that changes its level and makes nothing due. -/
theorem inputEvent_keeps {i : Instr} {u : State} {changes : State → Bool} {f : Inputs → Inputs} {acts : State → State}
    (hi : exec i s = event (fun s => inputEvent (changes s) f acts s) s) (hc : changes s = true) (hu : acts (s.modInputs f) = u)
    (h : KeepsDue s u) : exec i s = .next u := by
  rw [hi]
  exact event_keeps ha hs ((inputEvent_changed ha hc f acts).trans hu) h

end

theorem pressDeadman_eq (s : State) : s.pressDeadman = { s with lines := s.pressDeadman.lines, press := s.pressDeadman.press } := rfl

/-! ## The seal (R158) -/

theorem sealClosed_eq (x : Settings) : x.sealClosed = if x.session then
    { x with
      calCount := min 65535 (x.calCount + 1), session := false, countLost := false
      calLost := if x.anySet .one || x.anySet .two then false else x.calLost }
    else { x with countLost := false } := by
  unfold Settings.sealClosed
  cases h : x.session
  · simp
  · simp [satAdd]

theorem closeSession_changes {s : State} (h : s.settings.session = true ∨ s.settings.countLost = true) :
    s.closeSession = (s.modSettings Settings.sealClosed).enqueue (.block .settings) := by
  have hne : s.settings.sealClosed ≠ s.settings := by
    intro he
    rcases h with h | h
    · exact Bool.false_ne_true ((congrArg Settings.session he).trans h)
    · exact Bool.false_ne_true ((congrArg Settings.countLost he).trans h)
  rw [State.closeSession, if_neg hne]

theorem closeSession_same {s : State} (h1 : s.settings.session = false) (h2 : s.settings.countLost = false) : s.closeSession = s := by
  refine if_pos ?_
  rw [sealClosed_eq, h1, if_neg Bool.false_ne_true]
  obtain ⟨x, hx⟩ : ∃ x, x = s.settings := ⟨_, rfl⟩
  rw [← hx] at h1 h2 ⊢
  cases x
  subst h1 h2
  rfl

/-- The seal's closing with a session or a lost count asks for the settings block's write. -/
theorem exec_sealCloses {s : State} (ha : s.isActive = true) (hs : s.settled = true) (h : s.inputs.sealOpen = true)
    (hchanges : s.settings.session = true ∨ s.settings.countLost = true) :
    ∃ t, exec .sealCloses s = .next t ∧ t.inputs = { s.inputs with sealOpen := false }
      ∧ t.settings = (if s.settings.session then
          { s.settings with
            calCount := min 65535 (s.settings.calCount + 1), session := false, countLost := false
            calLost := if s.settings.anySet .one || s.settings.anySet .two then false else s.settings.calLost }
        else { s.settings with countLost := false })
      ∧ asked t (.block .settings) ∧ sameLines s t ∧ sameRecords s t ∧ t.load = s.load ∧ t.route = s.route ∧ t.meters = s.meters := by
  obtain ⟨v, hv⟩ : ∃ v, v = (s.modInputs (fun i => { i with sealOpen := false })).modSettings Settings.sealClosed := ⟨_, rfl⟩
  obtain ⟨u, hu⟩ : ∃ u, u = v.enqueue (.block .settings) := ⟨_, rfl⟩
  have hexec : exec .sealCloses s = .next (commit u) := by
    show execSealCloses s = _
    rw [execSealCloses, event, comesUp_active s ha, inputEvent_changed ha h,
      closeSession_changes (s := s.modInputs (fun i => { i with sealOpen := false })) hchanges, hu, hv]
  obtain ⟨hidle, hreply, hnone, -⟩ := (settled_iff s).1 hs
  have hlines : u.lines = s.lines := by rw [hu, hv]; exact enqueue_lines ..
  have hslots : u.slots = s.slots := by rw [hu, hv]; exact enqueue_slots ..
  have hqueue : u.queue = (s.enqueue (.block .settings)).queue := by
    rw [hu, hv]
    exact (queue_enqueue ..).trans (queue_enqueue s _).symm
  have hflight : u.flight = s.flight := by rw [hu, hv]; exact enqueue_flight ..
  obtain ⟨hkeeps, hasked⟩ := commit_begins (u := u) ((isActive_of_phase (by rw [hu, hv]; exact enqueue_phase ..)).trans ha)
    ⟨by rw [hlines]; exact hnone.1, by rw [hlines]; exact hnone.2⟩
    ((replyDue_congr (by rw [hu, hv]; exact enqueue_cmd ..)).trans hreply) (by
      rw [hflight, hqueue]
      cases hf : s.flight with
      | some f => exact .inl (.inl rfl)
      | none =>
        have hempty : s.queue = [] := by simpa [hf] using hidle
        exact .inr ⟨rfl, .block .settings, [], by rw [queue_enqueue, hempty]; rfl, flies_block u .settings⟩)
  have hline : ∀ l, sameLine s (commit u) l := fun l =>
    ⟨(hkeeps.core l).trans (congrArg (fun p : Pair LineCtx => (p.get l).core) hlines), by
      rw [hkeeps.attention, hu, hv, enqueue_attention]
      rfl⟩
  refine ⟨_, hexec, hkeeps.inputs.trans (by rw [hu, hv]; exact enqueue_inputs ..), hkeeps.settings.trans ?_,
    hasked _ (by rw [hqueue]; exact mem_enqueue ..), ⟨hline .one, hline .two, hkeeps.pump.trans (by rw [hu, hv]; exact enqueue_pump ..)⟩,
    ⟨fun n => recOf_of_slots (hkeeps.slots.trans hslots) n, hkeeps.unsaved.trans (by rw [hu, hv]; exact enqueue_unsaved ..)⟩,
    hkeeps.load.trans (by rw [hu, hv]; exact enqueue_load ..), hkeeps.route.trans (by rw [hu, hv]; exact enqueue_route ..),
    hkeeps.meters.trans (by rw [hu, hv]; exact enqueue_meters ..)⟩
  rw [hu, hv, enqueue_settings]
  exact sealClosed_eq s.settings

end Sys2Proof.Machine

/-- Settles O54: the safety inputs cut and mark as their rules say, and the seal's closing counts a session of changes. -/
theorem inputsAndSeal : Obligations.InputsAndSeal := by
  intro s ha hs
  refine ⟨fun h => ?_, fun h => ?_, fun h hsleep => ?_, fun h hmode wake => ?_, fun l h => ?_, fun l h => ?_, fun h => ?_, fun h => ?_,
    fun h => ?_, fun h => ⟨fun hchanges => ?_, fun hsession hlost => ?_⟩⟩
  · refine ⟨_, inputEvent_keeps ha hs (changes := fun s => s.inputs.permit) rfl h rfl
      ((sameDue_levels _ rfl).keeps.trans (sameDue_cutBoth _ _).keeps), rfl, fun l => ?_⟩
    rw [line_modBothLines]
    exact cutOrRecord_cutOrRecorded ..
  · exact inputEvent_keeps ha hs (changes := fun s => !s.inputs.permit) rfl (by simp [h]) rfl
      (sameDue_levels (fun i => { i with permit := true }) rfl).keeps
  · have hcut := sameDue_cutBoth s .ignition
    refine ⟨_, inputEvent_keeps ha hs (changes := fun s => s.inputs.ignition) rfl h rfl (noSleep_keeps hsleep hcut), rfl, fun l => ?_⟩
    have hline := cutOrRecord_cutOrRecorded .ignition (s.line l)
    rw [← line_modBothLines s (LineCtx.cutOrRecord .ignition) l] at hline
    exact hline
  · refine inputEvent_keeps ha hs (changes := fun s => !s.inputs.ignition) rfl (by simp [h]) (if_neg ?_) (noSleep_keeps (v := { s with sleepDue := false }) rfl (sameDue_refl s))
    show ¬ s.mode = .sleep
    rw [hmode]
    nofun
  · obtain ⟨v, hv⟩ : ∃ v, v = s.modInputs (fun i => { i with air := i.air.set l true }) := ⟨_, rfl⟩
    have hlevels : SameDue s v := by
      rw [hv]
      exact sameDue_levels _ rfl
    have hsame : SameDue v (v.modLine l (LineCtx.cutNow .air)) :=
      (CreditOnly.modLine v l (LineCtx.cutNow .air) (endWaits_cutNow .air)).sameDue (by rw [line_modLine_same]; exact crediting_cutNow ..)
    have hexec : exec (.airAsserted l) s = .next (v.modLine l (LineCtx.cutNow .air)) :=
      inputEvent_keeps ha hs (changes := fun s => !s.inputs.air.get l) rfl (by simp [h]) (by rw [hv]) (hlevels.keeps.trans hsame.keeps)
    have hline : v.line l = s.line l := by rw [hv]; rfl
    refine ⟨_, hexec, by rw [hv]; rfl, (line_modLine_of_ne v _ (other_ne l)).trans (by rw [hv]; rfl), fun hst => ?_, fun h1 h2 => ?_⟩
    · rw [line_modLine_same, hline]
      exact cutNow_cut hst
    · rw [line_modLine_same, hline]
      exact cutNow_other h1 h2
  · exact inputEvent_keeps ha hs (changes := fun s => s.inputs.air.get l) rfl h rfl
      (sameDue_levels (fun i => { i with air := i.air.set l false }) rfl).keeps
  · obtain ⟨v, hv⟩ : ∃ v : State, v = { s with inputs := { s.inputs with deadman := true } } := ⟨_, rfl⟩
    have hlatched : ∀ l, v.latchedOf l = s.latchedOf l := fun l => by rw [hv]; rfl
    have hvline : ∀ l, v.line l = s.line l := fun l => by rw [hv]; rfl
    have hexec := exec_press ha hs h
    rw [← hv] at hexec
    have hlink : ({ v.pressDeadman with lines := s.lines, press := s.press } : State) = v := by
      rw [pressDeadman_eq v, hv]
    refine ⟨_, hexec, hlink.trans hv, (press_pressDeadman v .one).2, fun l => ?_⟩
    rw [line_pressDeadman v l, (press_pressDeadman v l).1, hvline l, hlatched l]
    refine ⟨fun hstopped => ⟨?_, ?_⟩, fun hr => ⟨hr, ?_⟩⟩
    · rw [Timers.reload_stopped _ _ hstopped]
    · rw [hstopped]
      rfl
    · rw [Timers.reload_running _ _ hr]
  · exact exec_release_deadman ha hs h
  · exact inputEvent_keeps ha hs (changes := fun s => !s.inputs.sealOpen) rfl (by simp [h]) rfl
      (sameDue_levels (fun i => { i with sealOpen := true }) rfl).keeps
  · exact exec_sealCloses ha hs h hchanges
  · refine inputEvent_keeps ha hs (changes := fun s => s.inputs.sealOpen) rfl h ?_
      (sameDue_levels (fun i => { i with sealOpen := false }) rfl).keeps
    exact closeSession_same hsession hlost
end

