-- ==== Sys2Proof/Proofs/FlushPlaces.lean ====
section
/-! PROOFS. Where a record's write finds a place, and the beginning of a record's entry in a flush. -/

open Sys2Proof Sys2Proof.Machine

namespace Sys2Proof.Machine

/-! ## Where a record's write finds a place (R35, R36, R43) -/

theorem homeOf_eq_some_iff {s : State} {stop n : Nat} : s.homeOf stop = some n ↔ s.isHome n stop ∧ ∀ m, m < n → ¬ s.isHome m stop := by
  refine ⟨homeOf_some s stop n, fun ⟨hhome, hfirst⟩ => ?_⟩
  cases hk : s.homeOf stop with
  | none =>
    obtain ⟨x, hx, hholds⟩ := hhome
    have hmem : x ∈ s.slots := by
      cases n with
      | zero => simp at hx
      | succ i => exact List.mem_of_getElem? (by rwa [slot_succ] at hx)
    rw [(findSlot_none _ s.slots 1).1 hk x hmem] at hholds
    cases hholds
  | some k =>
    obtain ⟨hk1, hk2⟩ := homeOf_some s stop k hk
    rcases Nat.lt_trichotomy k n with h | h | h
    · exact absurd hk1 (hfirst k h)
    · rw [h]
    · exact absurd hhome (hk2 n h)

theorem homeOf_congr {s u : State} {stop : Nat} (h : ∀ n, u.isHome n stop ↔ s.isHome n stop) : u.homeOf stop = s.homeOf stop := by
  ext n
  rw [homeOf_eq_some_iff, homeOf_eq_some_iff, h n]
  exact and_congr_right fun _ => forall_congr' fun m => imp_congr_right fun _ => not_congr (h m)

/-- A home may be written in place (R35). -/
def Slot.writable (x : Slot) : Bool := x.isInUse && !x.due && !x.relocate

theorem Slot.writable_iff (x : Slot) : x.writable = true ↔ x.isInUse = true ∧ x.due = false ∧ x.relocate = false := by
  simp [Slot.writable, and_assoc]

theorem findsPlace_iff (s : State) (stop : Nat) : s.findsPlace stop ↔ (s.recOf stop).isSome = true ∧ (s.slots.any Slot.isFree = true
    ∨ ∃ n x, s.homeOf stop = some n ∧ s.slot n = some x ∧ x.writable = true) := by
  simp only [State.findsPlace, Slot.writable_iff]

theorem findsPlace_of_slots {s u : State} (h : u.slots = s.slots) (stop : Nat) : u.findsPlace stop ↔ s.findsPlace stop := by
  unfold State.findsPlace State.slot
  rw [recOf_of_slots h, homeOf_of_slots h, h]

theorem slot_modRec (s : State) (m : Nat) (f : Record → Record) (n : Nat) :
    (s.modRec m f).slot n = (s.slot n).map (Slot.modRecord m f) := nth1_map ..

theorem writable_modRecord (m : Nat) (f : Record → Record) (x : Slot) : (Slot.modRecord m f x).writable = x.writable := by
  unfold Slot.modRecord
  split
  · next r h =>
    split
    · simp [Slot.writable, Slot.isInUse, Slot.due, h]
    · rfl
  · next r h =>
    split
    · simp [Slot.writable, Slot.isInUse, h]
    · rfl
  · rfl

/-- A record's change leaves where the writes find their places. -/
theorem findsPlace_modRec (s : State) (m : Nat) {f : Record → Record} (hf : ∀ r, (f r).stop = r.stop) (stop : Nat) :
    (s.modRec m f).findsPlace stop ↔ s.findsPlace stop := by
  have hrec : ((s.modRec m f).recOf stop).isSome = (s.recOf stop).isSome := by
    by_cases h : stop = m
    · rw [h, recOf_modRec_same s m f hf, Option.isSome_map]
    · rw [recOf_modRec_of_ne s m f hf h]
  have hfree : (s.modRec m f).slots.any Slot.isFree = s.slots.any Slot.isFree := by
    simp [List.any_map, Function.comp_def]
  rw [findsPlace_iff, findsPlace_iff, hrec, hfree, homeOf_modRec s m f hf]
  simp only [slot_modRec]
  refine and_congr_right fun _ => or_congr_right ⟨?_, ?_⟩
  · rintro ⟨n, x, hn, hx, hw⟩
    obtain ⟨y, hy, rfl⟩ := Option.map_eq_some_iff.1 hx
    exact ⟨n, y, hn, hy, (writable_modRecord ..).symm.trans hw⟩
  · rintro ⟨n, y, hn, hy, hw⟩
    exact ⟨n, _, hn, by rw [hy]; rfl, (writable_modRecord ..).trans hw⟩

/-- Without a FREE slot there is nothing to allocate. -/
theorem allocate_full {s : State} (h : s.slots.any Slot.isFree = false) : s.allocate none = none := by
  have key : ∀ (xs : List Slot) (n : Nat), xs.any Slot.isFree = false → bestFree none xs n none = none := by
    intro xs
    induction xs with
    | nil => intro n _; rfl
    | cons x xs ih =>
      intro n hx
      obtain ⟨hhead, htail⟩ : x.isFree = false ∧ xs.any Slot.isFree = false := by simpa using hx
      unfold bestFree
      rw [if_neg (by simp [hhead])]
      exact ih _ htail
  exact key s.slots 1 h

theorem any_isFree_iff (s : State) : s.slots.any Slot.isFree = true ↔ ∃ n x, s.slot n = some x ∧ x.isFree = true := by
  rw [List.any_eq_true]
  constructor
  · rintro ⟨x, hx, hfree⟩
    obtain ⟨i, hi⟩ := List.getElem?_of_mem hx
    exact ⟨i + 1, x, by rw [slot_succ, hi], hfree⟩
  · rintro ⟨n, x, hx, hfree⟩
    cases n with
    | zero => simp at hx
    | succ i => exact ⟨x, List.mem_of_getElem? (by rwa [slot_succ] at hx), hfree⟩

/-- Condemning the home of a record that finds no place moves no place. -/
theorem findsPlace_condemn {s : State} {stop home : Nat} {r : Record} {x : Slot} (hhome : s.homeOf stop = some home)
    (hr : s.recOf stop = some r) (hx : s.slot home = some x) (hw : x.writable = false) (hfull : s.slots.any Slot.isFree = false) (m : Nat) :
    (s.modSlot home (Slot.condemn r)).findsPlace m ↔ s.findsPlace m := by
  obtain ⟨y, hy, hyr, -⟩ := record?_of_homeOf s stop home r hhome hr
  obtain rfl : y = x := Option.some.inj (hy.symm.trans hx)
  have hisHome : ∀ n, (s.modSlot home (Slot.condemn r)).isHome n m ↔ s.isHome n m := by
    intro n
    by_cases hn : n = home
    · subst hn
      unfold State.isHome
      rw [slot_modSlot, if_pos rfl, hy]
      simp [Slot.holds, hyr]
    · exact isHome_modSlot_of_ne s _ hn m
  have hfree : (s.modSlot home (Slot.condemn r)).slots.any Slot.isFree = false := by
    rw [Bool.eq_false_iff, Ne, any_isFree_iff]
    rintro ⟨n, z, hz, hf⟩
    rw [slot_modSlot] at hz
    split at hz
    · obtain ⟨y', -, rfl⟩ := Option.map_eq_some_iff.1 hz
      cases hf
    · rw [Bool.eq_false_iff, Ne, any_isFree_iff] at hfull
      exact hfull ⟨n, z, hz, hf⟩
  rw [findsPlace_iff, findsPlace_iff, recOf_condemn s stop home r hhome hr, hfree, hfull, homeOf_congr hisHome]
  refine and_congr_right fun _ => or_congr_right ⟨?_, ?_⟩
  · rintro ⟨n, z, hn, hz, hzw⟩
    rw [slot_modSlot] at hz
    split at hz
    · obtain ⟨y', -, rfl⟩ := Option.map_eq_some_iff.1 hz
      cases hzw
    · exact ⟨n, z, hn, hz, hzw⟩
  · rintro ⟨n, z, hn, hz, hzw⟩
    refine ⟨n, z, hn, ?_, hzw⟩
    rw [slot_modSlot, if_neg]
    · exact hz
    · rintro rfl
      obtain rfl : y = z := Option.some.inj (hy.symm.trans hz)
      rw [hw] at hzw
      cases hzw

/-! ## The store in a flush (R179, R180) -/

/-- What the store's taking of record entries keeps in a flush. -/
structure FlushKept (v u : State) : Prop where
  keeps : StoreKeeps v u
  core : ∀ l, (u.line l).core = (v.line l).core
  cmd : v.cmd = none → u.cmd = none
  unsaved : ∀ n ∈ v.unsaved, n ∈ u.unsaved
  places : ∀ n, u.findsPlace n ↔ v.findsPlace n

theorem FlushKept.refl (v : State) : FlushKept v v := ⟨.refl v, fun _ => rfl, id, fun _ h => h, fun _ => Iff.rfl⟩

theorem FlushKept.trans {v u w : State} (h : FlushKept v u) (k : FlushKept u w) : FlushKept v w :=
  ⟨h.keeps.trans k.keeps, fun l => (k.core l).trans (h.core l), fun hc => k.cmd (h.cmd hc), fun n hn => k.unsaved n (h.unsaved n hn),
    fun n => (k.places n).trans (h.places n)⟩

theorem FlushKept.mapWaiters (v : State) (f : Waiter → Waiter) : FlushKept v (v.mapWaiters f) :=
  ⟨.mapWaiters v f, fun l => by cases l <;> rfl, fun hc => by rw [mapWaiters_cmd, hc]; rfl, fun _ h => h, fun n => findsPlace_of_slots rfl n⟩

/-- A change of the queue, the operation in flight and the idle time alone. -/
theorem FlushKept.of_store (v : State) (q : List Key) (f : Option Flight) (i : Nat) :
    FlushKept v { v with queue := q, flight := f, patrolIdle := i } :=
  ⟨⟨rfl, rfl, rfl, rfl, rfl, rfl, rfl, rfl, rfl, rfl, rfl, rfl, rfl, rfl, rfl, rfl, rfl, rfl, rfl, rfl, rfl, rfl, rfl, rfl, rfl, rfl,
    fun _ => rfl⟩, fun _ => rfl, id, fun _ h => h, fun n => findsPlace_of_slots rfl n⟩

theorem becomeUnsaved_down {v : State} (h : v.isUp = false) (stop : Nat) : v.becomeUnsaved stop
    = { v with unsaved := if v.isUnsaved stop then v.unsaved else v.unsaved ++ [stop] } := by
  unfold State.becomeUnsaved State.tellBound
  split
  · rfl
  · exact if_neg (by simpa [State.isUp] using h)

/-- A record's entry begun in a flush: the write flies where it finds a place, else the record is unsaved (R43, R180). -/
theorem beginRecord_down {v : State} (h : v.isUp = false) (hf : v.flight = none) (stop : Nat) :
    FlushKept v (v.beginRecord stop) ∧ (v.beginRecord stop).queue = v.queue ∧ (v.beginRecord stop).isUp = false
      ∧ (v.findsPlace stop → ∃ w, (v.beginRecord stop).flight = some (.record w) ∧ w.stop = stop)
      ∧ (¬ v.findsPlace stop → (v.beginRecord stop).flight = none
          ∧ ((v.recOf stop).isSome = true → stop ∈ (v.beginRecord stop).unsaved)) := by
  cases hr : v.recOf stop with
  | none =>
    have hsame : v.beginRecord stop = v := by
      unfold State.beginRecord
      rw [hr]
      split
      · next h => cases h
      · rfl
    rw [hsame]
    refine ⟨.refl v, rfl, h, fun hp => ?_, fun _ => ⟨hf, nofun⟩⟩
    rw [findsPlace_iff, hr] at hp
    cases hp.1
  | some r =>
    obtain ⟨home, r', x, hhome, hr', hx⟩ := startable_record v stop r hr
    have hstop := recOf_stop v stop r hr
    have hbegin : v.beginRecord stop = if x.isInUse = true ∧ x.due = false ∧ x.relocate = false then v.flyRecord r home .inPlace
        else match v.allocate none with
          | some t => v.flyRecord r t (if x.isInUse = true ∧ x.due = true then .move else .relocation)
          | none => (v.modSlot home (Slot.condemn r)).becomeUnsaved stop := by
      unfold State.beginRecord
      rw [hhome, hr]
      simp only [hx] <;> rfl
    have hflies : ∀ t k, FlushKept v (v.flyRecord r t k) ∧ (v.flyRecord r t k).queue = v.queue ∧ (v.flyRecord r t k).isUp = false
        ∧ ∃ w, (v.flyRecord r t k).flight = some (.record w) ∧ w.stop = stop := fun t k =>
      ⟨.of_store v v.queue _ v.patrolIdle, rfl, h, _, rfl, hstop⟩
    by_cases hw : x.writable = true
    · have hplace : v.findsPlace stop := (findsPlace_iff v stop).2 ⟨by rw [hr]; rfl, .inr ⟨home, x, hhome, hx, hw⟩⟩
      rw [hbegin, if_pos ((Slot.writable_iff x).1 hw)]
      obtain ⟨h1, h2, h3, h4⟩ := hflies home .inPlace
      exact ⟨h1, h2, h3, fun _ => h4, fun hn => absurd hplace hn⟩
    · rw [hbegin, if_neg fun hp => hw ((Slot.writable_iff x).2 hp)]
      cases hfree : v.slots.any Slot.isFree with
      | true =>
        have hplace : v.findsPlace stop := (findsPlace_iff v stop).2 ⟨by rw [hr]; rfl, .inl hfree⟩
        obtain ⟨a, ha⟩ := Option.isSome_iff_exists.1 (allocate_isSome v hfree)
        rw [ha]
        obtain ⟨h1, h2, h3, h4⟩ := hflies a (if x.isInUse = true ∧ x.due = true then .move else .relocation)
        exact ⟨h1, h2, h3, fun _ => h4, fun hn => absurd hplace hn⟩
      | false =>
        have hno : ¬ v.findsPlace stop := by
          rw [findsPlace_iff, hfree]
          rintro ⟨-, hc | ⟨n, y, hn, hy, hyw⟩⟩
          · cases hc
          · obtain rfl : home = n := Option.some.inj (hhome.symm.trans hn)
            obtain rfl : x = y := Option.some.inj (hx.symm.trans hy)
            exact hw hyw
        have hplaces := findsPlace_condemn hhome hr hx (Bool.eq_false_iff.2 hw) hfree
        have hrecs := recOf_condemn v stop home r hhome hr
        rw [allocate_full hfree]
        dsimp only
        rw [becomeUnsaved_down (v := v.modSlot home (Slot.condemn r)) h]
        refine ⟨⟨⟨rfl, rfl, rfl, rfl, rfl, rfl, rfl, rfl, rfl, rfl, rfl, rfl, rfl, rfl, rfl, rfl, rfl, rfl, rfl, rfl, rfl, rfl, rfl, rfl,
          rfl, rfl, fun n => hrecs n⟩, fun _ => rfl, id, fun n hn => ?_, fun n => (findsPlace_of_slots rfl n).trans (hplaces n)⟩,
          rfl, h, fun hp => absurd hp hno, fun _ => ⟨hf, fun _ => ?_⟩⟩
        · show n ∈ (if _ then _ else _ : List Nat)
          split
          · exact hn
          · exact List.mem_append_left _ hn
        · show stop ∈ (if _ then _ else _ : List Nat)
          split
          · next hu => exact List.contains_iff_mem.1 hu
          · exact List.mem_append_right _ (List.mem_singleton.2 rfl)

end Sys2Proof.Machine
end

