-- ==== Sys2Proof/Proofs/FlushStore.lean ====
section
/-! PROOFS. The store in a flush, and the order of its FINAL writes. -/

open Sys2Proof Sys2Proof.Machine

namespace Sys2Proof.Machine

/-! ## The store takes the FINAL writes (R179, R180) -/

theorem takeRecord_down {v : State} (h : v.isUp = false) (hf : v.flight = none) (stop : Nat) (q : List Key) :
    FlushKept v (v.takeEntry (.record stop) q) ∧ (v.takeEntry (.record stop) q).queue = q
      ∧ (v.findsPlace stop → ∃ w, (v.takeEntry (.record stop) q).flight = some (.record w) ∧ w.stop = stop)
      ∧ (¬ v.findsPlace stop → (v.takeEntry (.record stop) q).flight = none
          ∧ ((v.recOf stop).isSome = true → stop ∈ (v.takeEntry (.record stop) q).unsaved)) := by
  obtain ⟨a, ha⟩ : ∃ a : State, a = ({ v with queue := q, patrolIdle := 0 } : State).mapWaiters (Waiter.begun (.record stop)) := ⟨_, rfl⟩
  have hva : FlushKept v a := by
    rw [ha]
    exact (FlushKept.of_store v q v.flight 0).trans (.mapWaiters _ _)
  obtain ⟨hkept, hqueue, -, hflies, hlost⟩ := beginRecord_down (v := a) (by rw [ha]; exact h) (by rw [ha]; exact hf) stop
  have htake : v.takeEntry (.record stop) q
      = if (a.beginRecord stop).flight.isNone then (a.beginRecord stop).mapWaiters Waiter.landed else a.beginRecord stop := by
    rw [ha]
    rfl
  rw [htake]
  have haq : a.queue = q := by rw [ha]; rfl
  by_cases hp : v.findsPlace stop
  · obtain ⟨w, hw, hstop⟩ := hflies ((hva.places stop).2 hp)
    rw [if_neg (by simp [hw])]
    exact ⟨hva.trans hkept, hqueue.trans haq, fun _ => ⟨w, hw, hstop⟩, fun hn => absurd hp hn⟩
  · obtain ⟨hnone, hunsaved⟩ := hlost fun h => hp ((hva.places stop).1 h)
    rw [if_pos (by simp [hnone])]
    exact ⟨(hva.trans hkept).trans (.mapWaiters _ _), hqueue.trans haq, fun h => absurd h hp,
      fun _ => ⟨hnone, fun hr => hunsaved (by rw [hva.keeps.recOf]; exact hr)⟩⟩

theorem storeRun_busy {v : State} (h : v.flight.isSome = true) : ∀ n, storeRun n v = v
  | 0 => rfl
  | n + 1 => by
    unfold storeRun
    cases hf : v.flight with
    | none => rw [hf] at h; cases h
    | some f => rfl

/-- The store in a flush that lets slot writes begin, with entries of records alone. -/
theorem storeRun_records : ∀ (ks : List Nat) (n : Nat) (v : State), ks.length ≤ n → v.flight = none → v.queue = ks.map Key.record →
    v.mayTake .slot = true → v.isUp = false →
    FlushKept v (storeRun n v) ∧ ((∃ stop ∈ ks, v.findsPlace stop) → (storeRun n v).flight.isSome = true)
      ∧ ((∀ stop ∈ ks, ¬ v.findsPlace stop) → (storeRun n v).flight = none ∧ (storeRun n v).queue = [])
      ∧ ∀ stop ∈ ks, (v.findsPlace stop → asked (storeRun n v) (.record stop))
          ∧ ((v.recOf stop).isSome = true → asked (storeRun n v) (.record stop) ∨ stop ∈ (storeRun n v).unsaved)
  | [], n, v, _, hf, hq, _, _ => by
    have hsame : storeRun n v = v := by
      cases n with
      | zero => rfl
      | succ n =>
        unfold storeRun
        rw [hf, hq]
        rfl
    rw [hsame]
    exact ⟨.refl v, nofun, fun _ => ⟨hf, hq⟩, nofun⟩
  | stop :: ks, 0, v, hn, _, _, _, _ => absurd hn (Nat.not_succ_le_zero _)
  | stop :: ks, n + 1, v, hn, hf, hq, hmay, hup => by
    have hstep : storeRun (n + 1) v = storeRun n (v.takeEntry (.record stop) (ks.map Key.record)) := by
      rw [storeRun, hf, hq]
      exact if_pos hmay
    obtain ⟨u, hu⟩ : ∃ u, u = v.takeEntry (.record stop) (ks.map Key.record) := ⟨_, rfl⟩
    obtain ⟨hkept, hqueue, hflies, hlost⟩ := takeRecord_down hup hf stop (ks.map Key.record)
    rw [hstep]
    rw [← hu] at hkept hqueue hflies hlost ⊢
    by_cases hp : v.findsPlace stop
    · obtain ⟨w, hw, hstop⟩ := hflies hp
      rw [storeRun_busy (by rw [hw]; rfl)]
      have hasked : ∀ m ∈ stop :: ks, asked u (.record m) := by
        intro m hm
        rcases List.mem_cons.1 hm with rfl | hm
        · right
          rw [hw]
          exact hstop
        · left
          rw [hqueue]
          exact List.mem_map_of_mem hm
      exact ⟨hkept, fun _ => by rw [hw]; rfl, fun hn => absurd hp (hn stop (List.mem_cons_self ..)),
        fun m hm => ⟨fun _ => hasked m hm, fun _ => .inl (hasked m hm)⟩⟩
    · obtain ⟨hnone, hunsaved⟩ := hlost hp
      have hphase : u.phase = v.phase := hkept.keeps.phase
      obtain ⟨hrest, hflying, hended, hall⟩ := storeRun_records ks n u (Nat.le_of_succ_le_succ hn) hnone hqueue
        (by unfold State.mayTake State.mayBegin; rw [hphase]; exact hmay) (by unfold State.isUp; rw [hphase]; exact hup)
      refine ⟨hkept.trans hrest, ?_, fun hn => hended fun m hm hpm => hn m (List.mem_cons_of_mem _ hm) ((hkept.places m).1 hpm), ?_⟩
      · rintro ⟨m, hm, hpm⟩
        rcases List.mem_cons.1 hm with rfl | hm
        · exact absurd hpm hp
        · exact hflying ⟨m, hm, (hkept.places m).2 hpm⟩
      · intro m hm
        rcases List.mem_cons.1 hm with rfl | hm
        · exact ⟨fun hpm => absurd hpm hp, fun hr => .inr (hrest.unsaved m (hunsaved hr))⟩
        · obtain ⟨h1, h2⟩ := hall m hm
          exact ⟨fun hpm => h1 ((hkept.places m).2 hpm), fun hr => h2 (by rw [hkept.keeps.recOf]; exact hr)⟩

/-! ## The order of the flush (R179, R180) -/

theorem mem_cutBehind {k : Key} : ∀ (xs a b : List Key), cutBehind k xs = some (a, b) → k ∈ a
  | [], _, _, h => by simp [cutBehind] at h
  | x :: xs, a, b, h => by
    unfold cutBehind at h
    split at h
    · next hx =>
      simp only [Option.some.injEq, Prod.mk.injEq] at h
      obtain ⟨rfl, rfl⟩ := h
      simp [hx]
    · obtain ⟨⟨c, d⟩, hc, he⟩ := Option.map_eq_some_iff.1 h
      simp only [Prod.mk.injEq] at he
      obtain ⟨rfl, rfl⟩ := he
      exact List.mem_cons_of_mem _ (mem_cutBehind xs c d hc)

/-- The stop whose record's entry a key is. -/
def Key.stop? : Key → Option Nat
  | .record stop => some stop
  | _ => none

theorem mem_finalFor (bound : Option Nat) (p : List Key × List Key) (k : Key) :
    k ∈ (finalFor bound p).1 ++ (finalFor bound p).2 ↔ k ∈ p.1 ++ p.2 ∨ ∃ stop, bound = some stop ∧ k = .record stop := by
  cases bound with
  | none =>
    show k ∈ p.1 ++ p.2 ↔ _
    simp
  | some stop =>
    unfold finalFor
    dsimp only
    split
    · next a b hab =>
      have hcut := cutBehind_some _ _ _ _ hab
      have hmem : Key.record stop ∈ p.2 := by
        rw [← hcut]
        exact List.mem_append_left _ (mem_cutBehind _ _ _ hab)
      rw [← hcut]
      constructor
      · intro h
        exact .inl (by simpa using h)
      · rintro (h | ⟨m, hm, rfl⟩)
        · simpa using h
        · obtain rfl := Option.some.inj hm
          rw [← hcut] at hmem
          simpa using Or.inr hmem
    · next hcut =>
      split
      · next hin =>
        refine ⟨.inl, ?_⟩
        rintro (h | ⟨m, hm, rfl⟩)
        · exact h
        · obtain rfl := Option.some.inj hm
          exact List.mem_append_left _ (List.contains_iff_mem.1 hin)
      · constructor
        · intro h
          simp only [List.mem_append, List.mem_singleton] at h ⊢
          rcases h with (h | h) | h
          · exact .inl (.inl h)
          · exact .inr ⟨stop, rfl, h⟩
          · exact .inl (.inr h)
        · rintro (h | ⟨m, hm, rfl⟩)
          · simp only [List.mem_append, List.mem_singleton] at h ⊢
            exact h.imp_left .inl
          · obtain rfl := Option.some.inj hm
            simp

theorem mem_finalOrder {one two : Option Nat} {queue : List Key} (k : Key) : k ∈ finalOrder one two queue
    ↔ k ∈ queue ∨ ∃ stop, (one = some stop ∨ two = some stop) ∧ k = .record stop := by
  unfold finalOrder
  rw [mem_finalFor, mem_finalFor]
  simp only [List.nil_append]
  constructor
  · rintro ((h | ⟨m, h, hk⟩) | ⟨m, h, hk⟩)
    · exact .inl h
    · exact .inr ⟨m, .inl h, hk⟩
    · exact .inr ⟨m, .inr h, hk⟩
  · rintro (h | ⟨m, h | h, hk⟩)
    · exact .inl (.inl h)
    · exact .inl (.inr ⟨m, h, hk⟩)
    · exact .inr ⟨m, h, hk⟩

/-- Into an empty queue the flush puts entries of bound records alone. -/
theorem finalOrder_records (one two : Option Nat) : ∃ ks : List Nat, finalOrder one two [] = ks.map Key.record
    ∧ ∀ stop, stop ∈ ks ↔ one = some stop ∨ two = some stop := by
  have hall : ∀ k ∈ finalOrder one two [], ∃ stop, (one = some stop ∨ two = some stop) ∧ k = .record stop := by
    intro k hk
    exact ((mem_finalOrder k).1 hk).resolve_left List.not_mem_nil
  refine ⟨(finalOrder one two []).filterMap Key.stop?, ?_, fun stop => ?_⟩
  · rw [List.map_filterMap]
    refine ((List.filterMap_congr fun k hk => ?_).trans (List.filterMap_some ..)).symm
    obtain ⟨stop, -, rfl⟩ := hall k hk
    rfl
  · rw [List.mem_filterMap]
    constructor
    · rintro ⟨k, hk, he⟩
      obtain ⟨m, hm, rfl⟩ := hall k hk
      obtain rfl := Option.some.inj he
      exact hm
    · intro h
      exact ⟨.record stop, (mem_finalOrder _).2 (.inr ⟨stop, h, rfl⟩), rfl⟩

end Sys2Proof.Machine
end

