-- ==== Sys2Proof/Proofs/FlushHalts.lean ====
section
/-! PROOFS. The lines halted and the records marked at the beginning of a flush. -/

open Sys2Proof Sys2Proof.Machine

namespace Sys2Proof.Machine

/-! ## Records behind changes of their images -/

/-- Every record keeps its state and its place. -/
structure RecordsKept (s u : State) : Prop where
  places : ∀ n, u.findsPlace n ↔ s.findsPlace n
  recs : ∀ n, (u.recOf n).map Record.state = (s.recOf n).map Record.state

namespace RecordsKept
variable {s u v : State}

theorem of_slots (h : u.slots = s.slots) : RecordsKept s u := ⟨findsPlace_of_slots h, fun n => by rw [recOf_of_slots h]⟩

theorem trans (h : RecordsKept s u) (k : RecordsKept u v) : RecordsKept s v :=
  ⟨fun n => (k.places n).trans (h.places n), fun n => (k.recs n).trans (h.recs n)⟩

theorem modRec (s : State) (m : Nat) {f : Record → Record} (hf : ∀ r, (f r).stop = r.stop) (hstate : ∀ r, (f r).state = r.state) :
    RecordsKept s (s.modRec m f) := by
  refine ⟨findsPlace_modRec s m hf, fun n => ?_⟩
  by_cases h : n = m
  · rw [h, recOf_modRec_same s m f hf, Option.map_map]
    exact congrArg (Option.map · (s.recOf m)) (funext hstate)
  · rw [recOf_modRec_of_ne s m f hf h]

theorem isSome (h : RecordsKept s u) (n : Nat) : (u.recOf n).isSome = (s.recOf n).isSome := by
  have := congrArg Option.isSome (h.recs n)
  simpa using this

theorem found (h : RecordsKept s u) {n : Nat} {r : Record} (hr : s.recOf n = some r) : ∃ r', u.recOf n = some r' ∧ r'.state = r.state := by
  have := h.recs n
  rw [hr] at this
  exact Option.map_eq_some_iff.1 this

theorem convert (s : State) (l : Line) : RecordsKept s (s.convert l) := by
  by_cases hk : (s.line l).kind = some .order
  · cases hb : (s.line l).bound with
    | none => exact .of_slots (slots_convert_free (.inr hb))
    | some stop =>
      exact (RecordsKept.modRec s stop (f := s.credit l) (fun _ => rfl) fun _ => rfl).trans (.of_slots (slots_convert_order hk hb))
  · exact .of_slots (slots_convert_free (.inl hk))

end RecordsKept

/-! ## The lines halted and the records marked (R178, R180) -/

/-- What the halting of the lines and the marking of their records change. -/
structure HaltOnly (s u : State) : Prop where
  eq : u = { s with slots := u.slots, lines := u.lines, meters := u.meters, press := u.press, fresh := u.fresh }
  records : RecordsKept s u

namespace HaltOnly
variable {s u v : State}

theorem refl (s : State) : HaltOnly s s := ⟨rfl, .of_slots rfl⟩

theorem trans (h : HaltOnly s u) (k : HaltOnly u v) : HaltOnly s v := by
  refine ⟨?_, h.records.trans k.records⟩
  have heq := h.eq
  rw [k.eq]
  generalize v.slots = a, v.lines = b, v.meters = c, v.press = d, v.fresh = e
  rw [heq]

theorem read {α : Type} (h : HaltOnly s u) (g : State → α) : g u = g { s with
    slots := u.slots, lines := u.lines, meters := u.meters, press := u.press, fresh := u.fresh } := congrArg g h.eq

theorem of_credit {l : Line} (h : CreditOnly l s u) (hr : RecordsKept s u) : HaltOnly s u := ⟨h.eq, hr⟩

end HaltOnly

section
variable (s : State) (l : Line)

theorem haltLine_crediting (h : (s.line l).st.crediting = true) :
    s.haltLine l = (s.convert l).modLine l (fun c => { c with timers := .stopped }) := by
  rw [State.haltLine, if_pos h]
  rfl

theorem haltLine_other (h : (s.line l).st.crediting = false) : s.haltLine l = s := by
  rw [State.haltLine, if_neg (by simp [h])]

theorem haltLine_only : HaltOnly s (s.haltLine l) ∧ (s.haltLine l).line l.other = s.line l.other
    ∧ (s.haltLine l).meter l.other = s.meter l.other := by
  cases h : (s.line l).st.crediting with
  | false =>
    rw [haltLine_other s l h]
    exact ⟨.refl s, rfl, rfl⟩
  | true =>
    rw [haltLine_crediting s l h]
    have honly := (CreditOnly.convert s l).trans (.modLine _ l (fun c => { c with timers := .stopped }) fun _ => rfl)
    exact ⟨.of_credit honly ((RecordsKept.convert s l).trans (.of_slots rfl)), honly.otherLine, honly.otherMeter⟩

/-- A line as the flush leaves it: its state and its record kept, halted where it credits. -/
structure LineHalted (s u : State) (l : Line) : Prop where
  st : (u.line l).st = (s.line l).st
  bound : (u.line l).bound = (s.line l).bound
  crediting : (s.line l).st.crediting = true → (u.line l).timers = .stopped ∧ (u.meter l).batchFwd = 0 ∧ (u.meter l).batchRev = 0
  other : (s.line l).st.crediting = false → u.line l = s.line l ∧ u.meter l = s.meter l

theorem lineHalted_of_eq {s u v : State} {l : Line} (h : LineHalted s u l) (hl : v.line l = u.line l) (hm : v.meter l = u.meter l) :
    LineHalted s v l :=
  ⟨by rw [hl]; exact h.st, by rw [hl]; exact h.bound, by rw [hl, hm]; exact h.crediting, by rw [hl, hm]; exact h.other⟩

theorem haltLine_halted : LineHalted s (s.haltLine l) l := by
  cases h : (s.line l).st.crediting with
  | false =>
    rw [haltLine_other s l h]
    exact ⟨rfl, rfl, fun hc => absurd (h.symm.trans hc) Bool.false_ne_true, fun _ => ⟨rfl, rfl⟩⟩
  | true =>
    rw [haltLine_crediting s l h]
    have hline := line_modLine_same (s.convert l) l (fun c => { c with timers := .stopped })
    have hmeter : ((s.convert l).modLine l (fun c => { c with timers := .stopped })).meter l = _ := meter_convert s l
    rw [line_convert] at hline
    refine ⟨by rw [hline]; rfl, by rw [hline]; rfl, fun _ => ⟨by rw [hline], ?_, ?_⟩, fun hc => absurd (hc.symm.trans h) Bool.false_ne_true⟩
    · rw [hmeter]
      rfl
    · rw [hmeter]
      rfl

end

/-- A record with the FINAL marker (R180). -/
def Record.finalMarked (r : Record) : Record := { r with restored := .final }

theorem markFinal_bound {s : State} {l : Line} {stop : Nat} (h : (s.line l).bound = some stop) :
    s.markFinal l = s.modRec stop Record.finalMarked := by
  rw [State.markFinal, h]
  rfl

theorem markFinal_unbound {s : State} {l : Line} (h : (s.line l).bound = none) : s.markFinal l = s := by
  rw [State.markFinal, h]

theorem markFinal_only (s : State) (l : Line) : HaltOnly s (s.markFinal l) ∧ (s.markFinal l).lines = s.lines
    ∧ (s.markFinal l).meters = s.meters := by
  cases h : (s.line l).bound with
  | none =>
    rw [markFinal_unbound h]
    exact ⟨.refl s, rfl, rfl⟩
  | some stop =>
    rw [markFinal_bound h]
    exact ⟨⟨rfl, .modRec s stop (fun _ => rfl) fun _ => rfl⟩, rfl, rfl⟩

theorem recOf_markFinal_same {s : State} {l : Line} {stop : Nat} (h : (s.line l).bound = some stop) :
    (s.markFinal l).recOf stop = (s.recOf stop).map Record.finalMarked := by
  rw [markFinal_bound h]
  exact recOf_modRec_same s stop _ fun _ => rfl

/-- A FINAL marker set stays. -/
theorem recOf_markFinal_final {s : State} {l : Line} {n : Nat} {r : Record} (hr : s.recOf n = some r) (hfinal : r.restored = .final) :
    ∃ r', (s.markFinal l).recOf n = some r' ∧ r'.restored = .final := by
  cases h : (s.line l).bound with
  | none =>
    rw [markFinal_unbound h]
    exact ⟨r, hr, hfinal⟩
  | some stop =>
    by_cases hn : n = stop
    · rw [hn, recOf_markFinal_same h, ← hn, hr]
      exact ⟨_, rfl, rfl⟩
    · rw [markFinal_bound h, recOf_modRec_of_ne s stop Record.finalMarked (fun _ => rfl) hn]
      exact ⟨r, hr, hfinal⟩

/-- The state whose lines are halted and whose bound records are marked. -/
def State.halted (s : State) : State := (((s.haltLine .one).haltLine .two).markFinal .one).markFinal .two

theorem beginFlush_eq (s : State) (k : FlushKind) : s.beginFlush k = { s.halted with
    queue := finalOrder s.lines.one.bound s.lines.two.bound s.queue
    cmd := none, tx := [], rx := .waiting
    phase := .flush ⟨k, 0, false, false, false⟩ } := rfl

/-- What the flush finds of the state it begins in. -/
structure Halted (s u : State) : Prop where
  only : HaltOnly s u
  lines : ∀ l, LineHalted s u l
  final : ∀ l stop r, (s.line l).bound = some stop → s.recOf stop = some r →
    ∃ r', u.recOf stop = some r' ∧ r'.restored = .final ∧ r'.state = r.state

theorem halted_halted (s : State) : Halted s s.halted := by
  obtain ⟨a, ha⟩ : ∃ a, a = s.haltLine .one := ⟨_, rfl⟩
  obtain ⟨b, hb⟩ : ∃ b, b = a.haltLine .two := ⟨_, rfl⟩
  obtain ⟨c, hc⟩ : ∃ c, c = b.markFinal .one := ⟨_, rfl⟩
  obtain ⟨d, hd⟩ : ∃ d, d = c.markFinal .two := ⟨_, rfl⟩
  have hhalted : s.halted = d := by rw [hd, hc, hb, ha]; rfl
  obtain ⟨hsa, hsaLine, hsaMeter⟩ := haltLine_only s .one
  obtain ⟨hab, habLine, habMeter⟩ := haltLine_only a .two
  obtain ⟨hbc, hbcLines, hbcMeters⟩ := markFinal_only b .one
  obtain ⟨hcd, hcdLines, hcdMeters⟩ := markFinal_only c .two
  have hone := haltLine_halted s .one
  have htwo := haltLine_halted a .two
  rw [← ha] at hsa hsaLine hsaMeter hone
  rw [← hb] at hab habLine habMeter htwo
  rw [← hc] at hbc hbcLines hbcMeters
  rw [← hd] at hcd hcdLines hcdMeters
  have hlines : d.lines = b.lines := hcdLines.trans hbcLines
  have hmeters : d.meters = b.meters := hcdMeters.trans hbcMeters
  have honly := ((hsa.trans hab).trans hbc).trans hcd
  have hall : ∀ l, LineHalted s b l := by
    intro l
    cases l with
    | one => exact lineHalted_of_eq hone habLine habMeter
    | two =>
      have hl : a.line .two = s.line .two := hsaLine
      have hm : a.meter .two = s.meter .two := hsaMeter
      exact ⟨by rw [← hl]; exact htwo.st, by rw [← hl]; exact htwo.bound, by rw [← hl]; exact htwo.crediting,
        by rw [← hl, ← hm]; exact htwo.other⟩
  rw [hhalted]
  refine ⟨honly, fun l => lineHalted_of_eq (hall l) (congrArg (·.get l) hlines) (congrArg (·.get l) hmeters), fun l stop r hbound hr => ?_⟩
  obtain ⟨rb, hrb, -⟩ := (hsa.trans hab).records.found hr
  obtain ⟨r', hr', hstate⟩ := honly.records.found hr
  have hbb : (b.line l).bound = some stop := (hall l).bound.trans hbound
  have hfinal : ∃ r', d.recOf stop = some r' ∧ r'.restored = .final := by
    rw [hd]
    cases l with
    | one =>
      have hcr : c.recOf stop = some rb.finalMarked := by
        rw [hc, recOf_markFinal_same hbb, hrb]
        rfl
      exact recOf_markFinal_final hcr rfl
    | two =>
      have hcb : (c.line .two).bound = some stop := (congrArg (fun p : Pair LineCtx => (p.get .two).bound) hbcLines).trans hbb
      obtain ⟨rc, hrc, -⟩ := hbc.records.found hrb
      exact ⟨_, by rw [recOf_markFinal_same hcb, hrc]; rfl, rfl⟩
  obtain ⟨r'', hr'', hfin⟩ := hfinal
  obtain rfl : r' = r'' := Option.some.inj (hr'.symm.trans hr'')
  exact ⟨r', hr', hfin, hstate⟩

end Sys2Proof.Machine
end

