-- ==== Sys2Proof/Proofs/FlushBegins.lean ====
section
/-! PROOFS. What follows a row in a flush, and the beginning of a flush. -/

open Sys2Proof Sys2Proof.Machine

namespace Sys2Proof.Machine

/-! ## What follows a row in a flush (R179, R181, R182) -/

theorem deliver_down {v : State} (h : v.isActive = false) : v.deliver = v := by
  rw [State.deliver, if_neg (by simp [h])]

theorem trySleep_down {v : State} (h : v.isActive = false) : v.trySleep = v := by
  rw [State.trySleep, if_neg (by simp [State.maySleep, h])]

section
variable {v : State} {f : Flush} (hp : v.phase = .flush f)
include hp

theorem commit_flush : commit v = v.runStore.finishFlush.runStore.deliver.trySleep := by
  have hphase : v.runStore.phase = .flush f := (runStore_keeps v).phase.trans hp
  have hdown : v.runStore.isActive = false := by simp [State.isActive, hphase]
  rw [commit, State.settleFlush, if_neg (by simp [hdown])]

/-- Where an operation is in flight the flush goes on. -/
theorem commit_flushGoesOn (h : v.runStore.flight.isSome = true) : commit v = v.runStore := by
  have hphase : v.runStore.phase = .flush f := (runStore_keeps v).phase.trans hp
  have hdown : v.runStore.isActive = false := by simp [State.isActive, hphase]
  have hsame : v.runStore.finishFlush = v.runStore := by
    obtain ⟨x, hx⟩ := Option.isSome_iff_exists.1 h
    unfold State.finishFlush
    rw [hphase, hx]
  rw [commit_flush hp, hsame, runStore_settled v.runStore (.inl h), deliver_down hdown, trySleep_down hdown]

/-- Where none is, a power-fail flush ends in the hold. -/
theorem commit_flushHolds (hk : f.kind = .powerFail none) (h : v.runStore.flight = none) : commit v = v.runStore.holdInReset := by
  have hphase : v.runStore.phase = .flush f := (runStore_keeps v).phase.trans hp
  have hends : v.runStore.finishFlush = v.runStore.holdInReset := by
    unfold State.finishFlush
    rw [hphase, h]
    simp only [hk]
  rw [commit_flush hp, hends, runStore_settled v.runStore.holdInReset (.inr rfl), deliver_down rfl, trySleep_down rfl]

/-- With an operation in flight nothing follows. -/
theorem commit_flushBusy (h : v.flight.isSome = true) : commit v = v := by
  have hsame := runStore_settled v (.inl h)
  rw [commit_flushGoesOn hp (by rw [hsame]; exact h), hsame]

theorem comesUp_flush : v.comesUp = v := by
  unfold State.comesUp
  rw [hp]

end

/-! ## The beginning of a flush (R178, R180) -/

/-- The levels of a part behind POWER-FAIL, with the rest as it was. -/
theorem exec_beginFlush {i : Instr} {k : FlushKind} {s : State} (ha : s.isActive = true)
    (hi : (i = .powerFailAsserted ∧ k = .powerFail none) ∨ ∃ reads, i = .linkReset reads ∧ k = .linkReset reads) :
    exec i s = .next (commit (({ s with inputs := if i = .powerFailAsserted then { s.inputs with powerFail := true } else s.inputs } :
      State).beginFlush k)) := by
  have hphase : s.phase = .active := by
    unfold State.isActive at ha
    split at ha
    · assumption
    · cases ha
  rcases hi with ⟨rfl, rfl⟩ | ⟨reads, rfl, rfl⟩
  · show execPowerFailAsserted s = _
    rw [execPowerFailAsserted, State.powerFails, hphase]
    rfl
  · show execLinkReset reads s = _
    rw [execLinkReset, event, comesUp_active s ha, State.linkResets, if_pos ha]
    rfl

section
variable {w : State} (hidle : w.flight.isSome = true ∨ w.queue = []) (k : FlushKind)

theorem flushBegun_of_kept {k : FlushKind} {t : State} (h : FlushKept (w.beginFlush k) t) : flushBegun k w t := by
  obtain ⟨honly, hlines, -⟩ := halted_halted w
  have hdown : t.isUp = false ∧ t.isActive = false := by
    have hphase := h.keeps.phase
    rw [beginFlush_eq] at hphase
    exact ⟨by simp [State.isUp, hphase], by simp [State.isActive, hphase]⟩
  have henabled : t.outputsEnabled = false := by rw [State.outputsEnabled, hdown.2, Bool.and_false]
  have hkeeps := h.keeps
  have hcore := h.core
  have hcmd := h.cmd
  rw [beginFlush_eq] at hkeeps hcore hcmd
  refine ⟨hkeeps.phase, hcmd rfl, hkeeps.tx, by rw [State.outPump, henabled, Bool.false_and, Bool.false_and],
    fun c => by rw [State.outOutlet, hdown.1, Bool.and_false, Bool.false_and, Bool.false_and],
    ⟨hkeeps.settings.trans (honly.read State.settings), hkeeps.load.trans (honly.read State.load),
      hkeeps.route.trans (honly.read State.route), hkeeps.counter.trans (honly.read State.counter)⟩,
    hkeeps.clock.trans (honly.read State.clock), hkeeps.pump.trans (honly.read State.pump),
    hkeeps.attention.trans (honly.read State.attention), fun l => ?_⟩
  have hl := hlines l
  have hmeter : t.meter l = w.halted.meter l := congrArg (fun p : Pair Meter => p.get l) hkeeps.meters
  refine ⟨by rw [State.outLow, henabled, Bool.false_and, Bool.false_and], by rw [State.outHigh, henabled, Bool.false_and, Bool.false_and],
    (congrArg LineCtx.st (hcore l)).trans hl.st, (congrArg LineCtx.bound (hcore l)).trans hl.bound, fun hc => ?_, fun hc => ?_⟩
  · obtain ⟨h1, h2, h3⟩ := hl.crediting hc
    exact ⟨(congrArg LineCtx.timers (hcore l)).trans h1, (congrArg Meter.batchFwd hmeter).trans h2, (congrArg Meter.batchRev hmeter).trans h3⟩
  · obtain ⟨h1, h2⟩ := hl.other hc
    exact ⟨(hcore l).trans (congrArg LineCtx.core h1), hmeter.trans h2⟩

/-- The FINAL marker of every bound record stands behind the store's taking of entries. -/
theorem final_of_kept {k : FlushKind} {t : State} (h : FlushKept (w.beginFlush k) t) {l : Line} {stop : Nat} {r : Record}
    (hb : (w.line l).bound = some stop) (hr : w.recOf stop = some r) :
    ∃ r', t.recOf stop = some r' ∧ r'.restored = .final ∧ r'.state = r.state := by
  obtain ⟨r', hr', hfinal⟩ := (halted_halted w).final l stop r hb hr
  exact ⟨r', (h.keeps.recOf stop).trans hr', hfinal⟩

theorem boundTo_iff (w : State) (stop : Nat) :
    (w.lines.one.bound = some stop ∨ w.lines.two.bound = some stop) ↔ ∃ l, (w.line l).bound = some stop := by
  constructor
  · rintro (h | h)
    · exact ⟨.one, h⟩
    · exact ⟨.two, h⟩
  · rintro ⟨_ | _, h⟩
    · exact .inl h
    · exact .inr h

theorem flightOf_beginFlush : (w.beginFlush k).flight = w.flight := by
  rw [beginFlush_eq]
  exact (halted_halted w).only.read State.flight

theorem findsPlace_beginFlush (n : Nat) : (w.beginFlush k).findsPlace n ↔ w.findsPlace n := by
  rw [beginFlush_eq]
  exact (findsPlace_of_slots rfl n).trans ((halted_halted w).only.records.places n)

theorem recOf_beginFlush_isSome (n : Nat) : ((w.beginFlush k).recOf n).isSome = (w.recOf n).isSome := by
  rw [beginFlush_eq]
  exact (congrArg Option.isSome (recOf_of_slots rfl n)).trans ((halted_halted w).only.records.isSome n)

theorem mayTake_beginFlush : (w.beginFlush k).mayTake .slot = true := by
  cases k <;> rfl

include hidle

/-- The store behind the beginning of a flush. -/
theorem runStore_beginFlush : FlushKept (w.beginFlush k) (w.beginFlush k).runStore
    ∧ (w.flight.isSome = true → (w.beginFlush k).runStore.flight = w.flight)
    ∧ (w.flight.isSome = true ∨ (∃ l stop, (w.line l).bound = some stop ∧ w.findsPlace stop) → (w.beginFlush k).runStore.flight.isSome = true)
    ∧ (w.flight = none → (∀ l stop, (w.line l).bound = some stop → ¬ w.findsPlace stop) →
        (w.beginFlush k).runStore.flight = none ∧ (w.beginFlush k).runStore.queue = [])
    ∧ ∀ l stop, (w.line l).bound = some stop →
        (w.flight.isSome = true ∨ w.findsPlace stop → asked (w.beginFlush k).runStore (.record stop))
        ∧ ((w.recOf stop).isSome = true → asked (w.beginFlush k).runStore (.record stop) ∨ stop ∈ (w.beginFlush k).runStore.unsaved) := by
  obtain ⟨v, hv⟩ : ∃ v, v = w.beginFlush k := ⟨_, rfl⟩
  have hflight := flightOf_beginFlush (w := w) k
  have hplaces := findsPlace_beginFlush (w := w) k
  have hrecs := recOf_beginFlush_isSome (w := w) k
  have hmay := mayTake_beginFlush (w := w) k
  have hup : v.isUp = false := by rw [hv]; rfl
  have hqueue : v.queue = finalOrder w.lines.one.bound w.lines.two.bound w.queue := by rw [hv]; rfl
  rw [← hv] at hflight hplaces hrecs hmay ⊢
  cases hf : w.flight with
  | some x =>
    have hbusy : v.flight.isSome = true := by rw [hflight, hf]; rfl
    have hasked : ∀ l stop, (w.line l).bound = some stop → asked v (.record stop) := fun l stop hb =>
      .inl (by rw [hqueue]; exact (mem_finalOrder _).2 (.inr ⟨stop, (boundTo_iff w stop).2 ⟨l, hb⟩, rfl⟩))
    rw [runStore_settled v (.inl hbusy)]
    exact ⟨.refl v, fun _ => hflight.trans hf, fun _ => hbusy, nofun, fun l stop hb => ⟨fun _ => hasked l stop hb, fun _ => .inl (hasked l stop hb)⟩⟩
  | none =>
    have hempty : w.queue = [] := by simpa [hf] using hidle
    obtain ⟨ks, hks, hmem⟩ := finalOrder_records w.lines.one.bound w.lines.two.bound
    rw [hempty, hks] at hqueue
    have hbound : ∀ {l stop}, (w.line l).bound = some stop → stop ∈ ks := fun {l stop} hb =>
      (hmem stop).2 ((boundTo_iff w stop).2 ⟨l, hb⟩)
    obtain ⟨hkept, hflies, hends, hall⟩ := storeRun_records ks (v.queue.length + 1) v (by rw [hqueue]; simp) (hflight.trans hf) hqueue hmay hup
    refine ⟨hkept, nofun, ?_, fun _ hn => hends fun stop hstop hp => ?_, fun l stop hb => ?_⟩
    · rintro (h | ⟨l, stop, hb, hp⟩)
      · cases h
      · exact hflies ⟨stop, hbound hb, (hplaces stop).2 hp⟩
    · obtain ⟨l, hb⟩ := (boundTo_iff w stop).1 ((hmem stop).1 hstop)
      exact hn l stop hb ((hplaces stop).1 hp)
    · obtain ⟨h1, h2⟩ := hall stop (hbound hb)
      exact ⟨fun h => h1 ((hplaces stop).2 (h.resolve_left Bool.false_ne_true)), fun h => h2 (by rw [hrecs]; exact h)⟩

end

end Sys2Proof.Machine
end

