-- ==== Sys2Proof/Proofs/FlushEnds.lean ====
section
/-! PROOFS. The steps of a restart, completions in a flush, and O55. -/

open Sys2Proof Sys2Proof.Machine

namespace Sys2Proof.Machine

/-! ## What the steps of a restart leave (R183) -/

/-- Steps 2 to 9 of a restart change the store's images, the lines, the meters and the pump. -/
structure PathOnly (s u : State) : Prop where
  eq : u = { s with
    counter := u.counter, slots := u.slots, queue := u.queue, captures := u.captures, seq := u.seq, failed := u.failed
    settings := u.settings, load := u.load, route := u.route, meters := u.meters, lines := u.lines, pump := u.pump
    resetCause := u.resetCause, attention := u.attention }
  cause : u.resetCause.cause = s.resetCause.cause

namespace PathOnly
variable {s u v : State}

theorem refl (s : State) : PathOnly s s := ⟨rfl, rfl⟩

theorem trans (h : PathOnly s u) (k : PathOnly u v) : PathOnly s v := by
  refine ⟨?_, k.cause.trans h.cause⟩
  have heq := h.eq
  rw [k.eq]
  generalize v.counter = a, v.slots = b, v.queue = c, v.captures = d, v.seq = e, v.failed = f, v.settings = g, v.load = i, v.route = j,
    v.meters = k1, v.lines = k2, v.pump = k3, v.resetCause = k4, v.attention = k5
  rw [heq]

theorem read {α : Type} (h : PathOnly s u) (g : State → α) : g u = g { s with
    counter := u.counter, slots := u.slots, queue := u.queue, captures := u.captures, seq := u.seq, failed := u.failed
    settings := u.settings, load := u.load, route := u.route, meters := u.meters, lines := u.lines, pump := u.pump
    resetCause := u.resetCause, attention := u.attention } := congrArg g h.eq

theorem enqueue (s : State) (k : Key) : PathOnly s (s.enqueue k) := by
  unfold State.enqueue
  split
  all_goals exact ⟨rfl, rfl⟩

theorem enqueueIf (s : State) (b : Bool) (k : Key) : PathOnly s (if b then s.enqueue k else s) := by
  cases b
  · exact refl s
  · exact enqueue s k

theorem enqueueUnless (s : State) (b : Bool) (k : Key) : PathOnly s (if b then s else s.enqueue k) := by
  cases b
  · exact enqueue s k
  · exact refl s

theorem modLine (s : State) (l : Line) (f : LineCtx → LineCtx) : PathOnly s (s.modLine l f) := ⟨rfl, rfl⟩

theorem modRec (s : State) (m : Nat) (f : Record → Record) : PathOnly s (s.modRec m f) := ⟨rfl, rfl⟩

theorem changeRec (s : State) (m : Nat) (f : Record → Record) : PathOnly s (s.changeRec m f) := (modRec s m f).trans (enqueue _ _)

theorem closeSession (s : State) : PathOnly s s.closeSession := by
  unfold State.closeSession
  split
  · exact refl s
  · exact trans (u := s.modSettings Settings.sealClosed) ⟨rfl, rfl⟩ (enqueue _ _)

theorem readSettings (s : State) (found : Option Settings) (r : AreaRead) : PathOnly s (s.readSettings found r) := by
  have hseal : ∀ u, PathOnly s u →
      PathOnly s (if u.settings.session = true ∧ u.inputs.sealOpen = false then u.closeSession else u) := by
    intro u hu
    split
    · exact hu.trans (closeSession u)
    · exact hu
  exact hseal _ (trans (u := { s with settings := found.getD .default, failed := { s.failed with settings := found.isNone } })
    ⟨rfl, rfl⟩ (enqueueIf _ _ _))

theorem enqueueAll (xs : List Nat) : ∀ s : State, PathOnly s (xs.foldl (fun t stop => t.enqueue (.record stop)) s) := by
  induction xs with
  | nil => exact refl
  | cons x xs ih => exact fun s => (enqueue s _).trans (ih _)

theorem scan (s : State) (reads : List SlotReads) : PathOnly s (s.scan reads) :=
  trans (u := { s with
    slots := settleSlots (scanSlots reads 1 s.slots) 1 (scanSlots reads 1 s.slots)
    captures := scanCaptures reads 1 (scanSlots reads 1 s.slots) s.captures
    seq := 1 + ((scanSlots reads 1 s.slots).map (fun p => p.2.seq)).foldr max 0 }) ⟨rfl, rfl⟩ (enqueueAll _ _)

theorem readBlocks (s : State) (load : Option LoadBlock) (route : Option RouteBlock) (rl rr : AreaRead) :
    PathOnly s (s.readBlocks load route rl rr) :=
  trans (trans (u := { s with
      counter := recoverCounter load route s.tickets
      load := load.getD (rebuiltLoad s.tickets (recoverCounter load route s.tickets))
      route := route.getD (rebuiltRoute (s.records.any (fun r => r.state == .bound)) s.tickets (recoverCounter load route s.tickets))
      failed := { s.failed with load := load.isNone, route := route.isNone } }) ⟨rfl, rfl⟩ (enqueueIf _ (areaNeedsWrite load rl) _))
    (enqueueIf _ (areaNeedsWrite route rr) _)

theorem reapply (s : State) : PathOnly s s.reapply := by
  unfold State.reapply
  dsimp only
  refine trans (trans ?_ (enqueueUnless _ _ _)) (enqueueUnless _ _ _)
  exact ⟨rfl, rfl⟩

theorem restartMeters (s : State) : PathOnly s s.restartMeters := ⟨rfl, rfl⟩

theorem checkpoint (s : State) (l : Line) : PathOnly s (s.checkpoint l) := by
  unfold State.checkpoint
  split
  · exact changeRec s _ _
  · exact refl s

theorem enterPaused (s : State) (l : Line) (cause : PauseCause) : PathOnly s (s.enterPaused l cause) :=
  ((modLine s l _).trans (checkpoint _ l)).trans ⟨rfl, rfl⟩

theorem upUnbound (s : State) (l : Line) : PathOnly s (s.upUnbound l) := modLine s l _

theorem upBound (s : State) (l : Line) (r : Record) : PathOnly s (s.upBound l r) :=
  (((modRec s _ _).trans (modLine _ l _)).trans (modLine _ l _)).trans (enterPaused _ l _)

theorem bringUp (s : State) (l : Line) : PathOnly s (s.bringUp l) := by
  unfold State.bringUp
  split
  · exact (upBound s l _).trans ⟨rfl, rfl⟩
  · exact upUnbound s l

theorem yieldLineTwo (s : State) (stop : Nat) : PathOnly s (s.yieldLineTwo stop) :=
  ((changeRec s stop _).trans (upUnbound _ .two)).trans ⟨rfl, rfl⟩

theorem rebuildPump (s : State) : PathOnly s s.rebuildPump := by
  have hp : ∀ p, PathOnly s { s with pump := p } := fun p => ⟨rfl, rfl⟩
  unfold State.rebuildPump
  split
  · exact hp _
  · exact hp _
  · exact hp _
  · split
    · exact hp _
    · split
      · exact (hp _).trans (yieldLineTwo _ _)
      · exact hp _

theorem restart (s : State) (cause : RestartCause) (r : RestartReads) : PathOnly (s.restartBegin cause) (s.restart cause r) :=
  (((((((readSettings _ _ _).trans (scan _ _)).trans (readBlocks _ _ _ _ _)).trans (reapply _)).trans
    (restartMeters _)).trans (bringUp _ _)).trans (bringUp _ _)).trans (rebuildPump _)

end PathOnly

/-! ## Completions in a flush that both deadlines have passed (R179, R181) -/

theorem askMove_flight (s : State) (n : Nat) : (s.askMove n).flight = s.flight := by
  unfold State.askMove
  split
  · split
    · split
      · rfl
      · exact enqueue_flight ..
    · rfl
  · rfl

theorem queueUnsaved_flight (s : State) : s.queueUnsaved.flight = s.flight := by
  unfold State.queueUnsaved
  split
  · split
    · exact enqueue_flight ..
    · rfl
  · rfl

theorem becomeSaved_down {s : State} (h : s.isUp = false) (stop : Nat) : (s.becomeSaved stop).flight = s.flight := by
  unfold State.becomeSaved
  split
  · have hup : ({ s with unsaved := s.unsaved.erase stop } : State).queueUnsaved.isUp = false :=
      (isUp_of_phase (Lawful.queueUnsaved _).phase).trans h
    rw [State.tellBound, if_neg (by simp [hup])]
    exact queueUnsaved_flight _
  · rfl

theorem recordVerified_down {s : State} (hup : s.isUp = false) (w : SlotWrite) (ask : Bool) : (s.recordVerified w ask).flight = none := by
  have hsaved : ∀ u : State, u.isUp = false → u.flight = none →
      ((if ask then u.askMove w.target else u).becomeSaved w.stop).flight = none := by
    intro u hu hf
    cases ask
    · exact (becomeSaved_down hu w.stop).trans hf
    · exact (becomeSaved_down ((isUp_of_phase (Lawful.askMove u w.target).phase).trans hu) w.stop).trans ((askMove_flight u _).trans hf)
  unfold State.recordVerified
  split
  · dsimp only
    refine hsaved _ ?_ rfl
    split
    · exact hup
    · exact hup
  · rfl

theorem becomeUnsaved_flight_down {s : State} (h : s.isUp = false) (stop : Nat) : (s.becomeUnsaved stop).flight = s.flight := by
  rw [becomeUnsaved_down h]

theorem exhausted_down {s : State} (hup : s.isUp = false) (w : SlotWrite) (home : Nat) (r : Record) :
    (s.exhausted w home r).flight = none := by
  unfold State.exhausted
  dsimp only
  rw [becomeUnsaved_flight_down]
  · rfl
  · split
    · split
      · exact hup
      · exact hup
    · exact hup

section
variable {s : State} (hslot : s.mayBegin .slot = false)
include hslot

theorem tryNext_refused (w : SlotWrite) (n : Nat) (k : WriteKind) {u : State} (hu : u.phase = s.phase) : (u.tryNext w n k).flight = none := by
  have hmay : u.mayBegin .slot = false := by
    unfold State.mayBegin at hslot ⊢
    rw [hu]
    exact hslot
  rw [State.tryNext, if_neg (by simp [hmay])]
  rfl

theorem recordFailed_down (hup : s.isUp = false) (w : SlotWrite) : (s.recordFailed w).flight = none := by
  unfold State.recordFailed
  split
  · split
    · split
      · exact tryNext_refused hslot w _ _ rfl
      · exact exhausted_down hup w _ _
    · split
      · exact tryNext_refused hslot w _ _ rfl
      · exact exhausted_down hup w _ _
  · rfl

theorem recordWriteEnd_down (hup : s.isUp = false) (w : SlotWrite) (read : ReadResult) (agrees : Bool) :
    (s.recordWriteEnd w read agrees).flight = none := by
  have hphase : (s.countRead w.target read).phase = s.phase := (Lawful.countRead s w.target read).phase
  have hcup := (isUp_of_phase hphase).trans hup
  have hcslot : (s.countRead w.target read).mayBegin .slot = false := by
    unfold State.mayBegin at hslot ⊢
    rw [hphase]
    exact hslot
  unfold State.recordWriteEnd
  dsimp only
  split
  · exact recordVerified_down hcup w _
  · exact recordFailed_down hcslot hcup w

end

theorem blockWriteEnd_down {s : State} (h : s.mayBegin .block = false) (b : BlockImage) (second agrees : Bool) :
    (s.blockWriteEnd b second agrees).flight = none := by
  unfold State.blockWriteEnd
  split
  · rfl
  · split
    · rfl
    · rw [if_neg (by simp [h])]
      rfl

theorem releaseEnd_flight (s : State) (n : Nat) : (s.releaseEnd n).flight = none := by
  have hfreed : ∀ u : State, u.flight = none →
      (if (u.slot n).elim false Slot.isFree = true then u.queueUnsaved else u).flight = none := by
    intro u hu
    split
    · exact (queueUnsaved_flight u).trans hu
    · exact hu
  exact hfreed _ rfl

theorem patrolEnd_flight (s : State) (n : Nat) (read : ReadResult) : (s.patrolEnd n read).flight = none := by
  unfold State.patrolEnd
  dsimp only
  split
  · rfl
  · split
    · exact askMove_flight ..
    · rfl
  · exact askMove_flight ..

/-- With both deadlines past a power-fail flush lets nothing begin (R179). -/
theorem mayBegin_past {v : State} {f : Flush} {next : Option RestartReads} (hp : v.phase = .flush f) (hk : f.kind = .powerFail next)
    (hblocks : f.blocksPast = true) (hslots : f.slotsPast = true) (k : OpKind) : v.mayBegin k = false := by
  unfold State.mayBegin
  rw [hp]
  cases k
  · simp [hk, hslots]
  · simp [hk, hblocks]

theorem runStore_refused {v : State} (h : ∀ k, v.mayBegin k = false) : v.runStore = v := by
  unfold State.runStore storeRun
  split
  · exact if_neg (by simp [State.mayTake, h])
  · rfl

/-- A row that leaves nothing in flight ends a power-fail flush whose deadlines have passed. -/
theorem commit_pastHolds {v : State} {f : Flush} (hp : v.phase = .flush f) (hk : f.kind = .powerFail none)
    (hblocks : f.blocksPast = true) (hslots : f.slotsPast = true) (hf : v.flight = none) : commit v = v.holdInReset := by
  have hsame := runStore_refused (mayBegin_past hp hk hblocks hslots)
  rw [commit_flushHolds hp hk (by rw [hsame]; exact hf), hsame]

theorem commit_pastRestarts {v : State} {f : Flush} {reads : RestartReads} (hp : v.phase = .flush f) (hk : f.kind = .powerFail (some reads))
    (hblocks : f.blocksPast = true) (hslots : f.slotsPast = true) (hf : v.flight = none) :
    commit v = (v.restart .powerOn reads).runStore := by
  have hsame := runStore_refused (mayBegin_past hp hk hblocks hslots)
  have hends : v.finishFlush = v.restart .powerOn reads := by
    unfold State.finishFlush
    rw [hp, hf]
    simp only [hk]
  have hphase : (v.restart .powerOn reads).runStore.phase = .restart := (runStore_keeps _).phase.trans (restart_phase ..)
  have hdown : (v.restart .powerOn reads).runStore.isActive = false := by simp [State.isActive, hphase]
  rw [commit_flush hp, hsame, hends, deliver_down hdown, trySleep_down hdown]

/-- What a restart leaves of the path's first step, whatever the store takes behind it. -/
theorem restart_runStore (v : State) (cause : RestartCause) (reads : RestartReads) {t : State}
    (ht : t = (v.restart cause reads).runStore) : t.phase = .restart ∧ t.mode = .run ∧ t.resetCause.cause = cause
      ∧ t.clock = (if cause = .powerOn then .powerOn else v.clock) ∧ t.inputs = { v.inputs with powerFail := false } := by
  have hkeeps := runStore_keeps (v.restart cause reads)
  have hpath := PathOnly.restart v cause reads
  rw [ht]
  exact ⟨hkeeps.phase.trans (restart_phase ..), hkeeps.mode.trans (hpath.read State.mode),
    (congrArg ResetCause.cause hkeeps.resetCause).trans hpath.cause, hkeeps.clock.trans (hpath.read State.clock),
    hkeeps.inputs.trans (hpath.read State.inputs)⟩

/-- The operation in flight completes, verified or failed. -/
def completes (i : Instr) (x : Flight) : Prop :=
  (∃ w read agrees, x = .record w ∧ i = .recordWriteComplete read agrees)
    ∨ (∃ b second agrees, x = .block b second ∧ i = .blockWriteComplete agrees)
    ∨ (∃ n, x = .release n ∧ i = .releaseComplete) ∨ ∃ n read, x = .patrol n ∧ i = .patrolReadComplete read

/-- A completion in a flush in which nothing may begin leaves nothing in flight. -/
theorem exec_completes {i : Instr} {x : Flight} {s : State} {f : Flush} (hp : s.phase = .flush f) (hx : s.flight = some x)
    (hi : completes i x) (hmay : ∀ k, s.mayBegin k = false) : ∃ u, exec i s = .next (commit u) ∧ u.phase = .flush f ∧ u.flight = none := by
  have hup : s.isUp = false := by simp [State.isUp, hp]
  rcases hi with ⟨w, read, agrees, rfl, rfl⟩ | ⟨b, second, agrees, rfl, rfl⟩ | ⟨n, rfl, rfl⟩ | ⟨n, read, rfl, rfl⟩
  · refine ⟨s.recordWriteEnd w read agrees, ?_, (Lawful.recordWriteEnd s w read agrees).phase.trans hp,
      recordWriteEnd_down (hmay .slot) hup w read agrees⟩
    show execRecordWriteComplete read agrees s = _
    rw [execRecordWriteComplete, event, comesUp_flush hp]
    simp only [hx]
  · refine ⟨s.blockWriteEnd b second agrees, ?_, ?_, blockWriteEnd_down (hmay .block) b second agrees⟩
    · show execBlockWriteComplete agrees s = _
      rw [execBlockWriteComplete, event, comesUp_flush hp]
      simp only [hx]
    · exact (Lawful.blockWriteEnd s b second agrees hx).phase.trans hp
  · refine ⟨s.releaseEnd n, ?_, (Lawful.releaseEnd s n).phase.trans hp, releaseEnd_flight s n⟩
    show execReleaseComplete s = _
    rw [execReleaseComplete, event, comesUp_flush hp]
    simp only [hx]
  · refine ⟨s.patrolEnd n read, ?_, (Lawful.patrolEnd s n read).phase.trans hp, patrolEnd_flight s n read⟩
    show execPatrolReadComplete read s = _
    rw [execPatrolReadComplete, event, comesUp_flush hp]
    simp only [hx]

theorem completes_of_rows {i : Instr} {s : State}
    (h : (∃ w read agrees, s.flight = some (.record w) ∧ i = .recordWriteComplete read agrees)
      ∨ (∃ b second agrees, s.flight = some (.block b second) ∧ i = .blockWriteComplete agrees)
      ∨ (∃ n, s.flight = some (.release n) ∧ i = .releaseComplete)
      ∨ ∃ n read, s.flight = some (.patrol n) ∧ i = .patrolReadComplete read) : ∃ x, s.flight = some x ∧ completes i x := by
  rcases h with ⟨w, read, agrees, hx, hi⟩ | ⟨b, second, agrees, hx, hi⟩ | ⟨n, hx, hi⟩ | ⟨n, read, hx, hi⟩
  · exact ⟨_, hx, .inl ⟨w, read, agrees, rfl, hi⟩⟩
  · exact ⟨_, hx, .inr (.inl ⟨b, second, agrees, rfl, hi⟩)⟩
  · exact ⟨_, hx, .inr (.inr (.inl ⟨n, rfl, hi⟩))⟩
  · exact ⟨_, hx, .inr (.inr (.inr ⟨n, read, rfl, hi⟩))⟩

section
variable {s : State} {f : Flush} (hp : s.phase = .flush f) (d : Deadline)
include hp

theorem deadlinePasses_flush :
    s.deadlinePasses d = { s with phase := .flush { f with blocksPast := true, slotsPast := f.slotsPast || d == .slots } } := by
  rw [State.deadlinePasses, hp]

theorem deadline_phase : (s.deadlinePasses d).phase = .flush { f with blocksPast := true, slotsPast := f.slotsPast || d == .slots } := by
  rw [deadlinePasses_flush hp]

theorem exec_deadline : exec (.flushDeadline d) s = .next (commit (s.deadlinePasses d)) := by
  show execFlushDeadline d s = _
  rw [execFlushDeadline, event, comesUp_flush hp]

end

section
variable {t : State} (h : t.isUp = false)
include h

theorem isActive_down : t.isActive = false := by
  unfold State.isUp at h
  unfold State.isActive
  cases hp : t.phase with
  | active => rw [hp] at h; cases h
  | _ => rfl

theorem outputs_down : t.outputsEnabled = false := by rw [State.outputsEnabled, isActive_down h, Bool.and_false]

theorem outPump_down : t.outPump = false := by rw [State.outPump, outputs_down h, Bool.false_and, Bool.false_and]

theorem outLow_down (l : Line) : t.outLow l = false := by rw [State.outLow, outputs_down h, Bool.false_and, Bool.false_and]

theorem outHigh_down (l : Line) : t.outHigh l = false := by rw [State.outHigh, outputs_down h, Bool.false_and, Bool.false_and]

theorem outOutlet_down (c : Nat) : t.outOutlet c = false := by rw [State.outOutlet, h, Bool.and_false, Bool.false_and, Bool.false_and]

end

end Sys2Proof.Machine

/-- Settles O55: a power failure and a link reset begin a flush, and the flush ends in the hold or a restart. -/
theorem powerFailFlushes : Obligations.PowerFailFlushes := by
  refine ⟨fun i k s ha hs hi => ?_, fun f s hp hf => ⟨?_, ?_⟩, fun f s hp hf hk hblocks hslots => ?_,
    fun i f s hp hblocks hslots hi => ⟨fun hk => ?_, fun reads hk => ?_⟩, fun f next s hp hk hf => ⟨fun reads => ?_, ?_⟩⟩
  · obtain ⟨hidle, -⟩ := (settled_iff s).1 hs
    have hexec := exec_beginFlush ha hi
    obtain ⟨w, hw⟩ : ∃ w : State, w = { s with inputs := if i = .powerFailAsserted then { s.inputs with powerFail := true } else s.inputs } :=
      ⟨_, rfl⟩
    rw [← hw] at hexec
    have hwidle : w.flight.isSome = true ∨ w.queue = [] := by rw [hw]; exact hidle
    have hplaces : ∀ n, w.findsPlace n ↔ s.findsPlace n := fun n => by rw [hw]; exact findsPlace_of_slots rfl n
    have hflight : w.flight = s.flight := by rw [hw]
    have hrecs : ∀ n, w.recOf n = s.recOf n := fun n => by rw [hw]; rfl
    have hline : ∀ l, w.line l = s.line l := fun l => by rw [hw]; rfl
    obtain ⟨hkept, hsame, hflies, hends, hall⟩ := runStore_beginFlush hwidle k
    rw [hflight] at hsame hflies hends hall
    refine ⟨fun hgoes => ?_, fun hpower hnone hno => ?_⟩
    · have hbusy := hflies (hgoes.imp_right fun ⟨l, stop, hb, hp⟩ => ⟨l, stop, by rw [hline]; exact hb, (hplaces stop).2 hp⟩)
      have hcommit := commit_flushGoesOn (v := w.beginFlush k) rfl hbusy
      rw [hcommit] at hexec
      have hbegun := flushBegun_of_kept hkept
      refine ⟨_, hexec, ?_, hbusy, hsame, ?_, fun l stop r hb hr => ?_⟩
      · rw [hw] at hbegun ⊢
        exact hbegun
      · rw [hkept.keeps.inputs, beginFlush_eq]
        exact ((halted_halted w).only.read State.inputs).trans (by rw [hw])
      · have hwb : (w.line l).bound = some stop := by rw [hline]; exact hb
        have hwr : w.recOf stop = some r := by rw [hrecs]; exact hr
        obtain ⟨h1, h2⟩ := hall l stop hwb
        exact ⟨final_of_kept hkept hwb hwr, fun h => h1 (h.imp_right (hplaces stop).2), h2 (by rw [hwr]; rfl)⟩
    · have hkind : k = .powerFail none := by
        rcases hi with ⟨-, hk⟩ | ⟨reads, hreset, -⟩
        · exact hk
        · rw [hpower] at hreset
          cases hreset
      obtain ⟨hnothing, hqueue⟩ := hends hnone fun l stop hb hp => hno l stop (by rw [← hline]; exact hb) ((hplaces stop).1 hp)
      have hcommit := commit_flushHolds (v := w.beginFlush k) rfl hkind hnothing
      rw [hcommit] at hexec
      refine ⟨_, hexec, rfl, fun l stop hb hr => ?_⟩
      obtain ⟨-, h2⟩ := hall l stop (by rw [hline]; exact hb)
      rcases h2 (by rw [hrecs]; exact hr) with (h | h) | h
      · rw [hqueue] at h
        cases h
      · rw [hnothing] at h
        cases h
      · exact h
  · rw [exec_deadline hp, commit_flushBusy (v := s.deadlinePasses .blocks) (deadline_phase hp _) (by rw [deadlinePasses_flush hp]; exact hf), deadlinePasses_flush hp,
      show (Deadline.blocks == Deadline.slots) = false from rfl, Bool.or_false]
  · rw [exec_deadline hp, commit_flushBusy (v := s.deadlinePasses .slots) (deadline_phase hp _) (by rw [deadlinePasses_flush hp]; exact hf), deadlinePasses_flush hp,
      show (Deadline.slots == Deadline.slots) = true from rfl, Bool.or_true]
  · rw [exec_deadline hp, commit_pastHolds (deadline_phase hp .slots) hk rfl (Bool.or_true _) (by rw [deadlinePasses_flush hp]; exact hf)]
    exact ⟨_, rfl, rfl, rfl⟩
  · obtain ⟨x, hx, hcompletes⟩ := completes_of_rows hi
    obtain ⟨u, hexec, huphase, huflight⟩ := exec_completes hp hx hcompletes (mayBegin_past hp hk hblocks hslots)
    rw [commit_pastHolds huphase hk hblocks hslots huflight] at hexec
    exact ⟨_, hexec, rfl, rfl, rfl, by rw [outPump_down rfl], fun l c => ⟨outLow_down rfl l, outHigh_down rfl l, outOutlet_down rfl c⟩⟩
  · obtain ⟨x, hx, hcompletes⟩ := completes_of_rows hi
    obtain ⟨u, hexec, huphase, huflight⟩ := exec_completes hp hx hcompletes (mayBegin_past hp hk hblocks hslots)
    rw [commit_pastRestarts huphase hk hblocks hslots huflight] at hexec
    obtain ⟨h1, h2, h3, h4, h5⟩ := restart_runStore u .powerOn reads rfl
    exact ⟨_, hexec, h1, h2, h3, h4, congrArg Inputs.powerFail h5⟩
  · show execPowerOnRestart reads s = _
    rw [execPowerOnRestart, event, comesUp_flush hp, State.powerOn, hp]
    simp only [hk]
    exact congrArg Host.Outcome.next (commit_flushBusy rfl hf)
  · show execPowerFailAsserted s = _
    rw [execPowerFailAsserted, State.powerFails, hp]
    simp only [hk]
    exact congrArg Host.Outcome.next (commit_flushBusy rfl hf)
end

