-- ==== Sys2Proof/Proofs/SleepAndClock.lean ====
section
/-! PROOFS. SLEEP, waking and the clock, and O57. -/

open Sys2Proof Sys2Proof.Machine

namespace Sys2Proof.Machine

/-! ## SLEEP and waking (R187, R188) -/

/-- Behind a change of the mode, the inputs, the meters and the link no sleep is due where none is put off. -/
theorem keepsDue_awake {s u : State} (hphase : u.phase = s.phase) (hflight : u.flight = s.flight) (hqueue : u.queue = s.queue)
    (hcmd : u.cmd = s.cmd) (hlines : u.lines = s.lines) (hsleep : u.sleepDue = false) : KeepsDue s u where
  phase := hphase
  flight := congrArg Option.isSome hflight
  queue := hqueue
  reply := fun h => (replyDue_congr hcmd).trans h
  ends := fun ⟨h1, h2⟩ => ⟨by rw [hlines]; exact h1, by rw [hlines]; exact h2⟩
  sleep := fun _ => by rw [hsleep, Bool.false_and]

theorem anyCrediting_false {s : State} (h : ∀ l, (s.line l).st.crediting = false) : s.anyCrediting = false :=
  Bool.or_eq_false_iff.2 ⟨h .one, h .two⟩

theorem anyCrediting_true {s : State} {l : Line} (h : (s.line l).st.crediting = true) : s.anyCrediting = true := by
  cases l
  · exact Bool.or_eq_true_iff.2 (.inl h)
  · exact Bool.or_eq_true_iff.2 (.inr h)

theorem sample_take (m : Meter) (r : Reading) : (m.take r).sample = some r := rfl

section
variable {s : State} (ha : s.isActive = true) (hs : s.settled = true)
include ha

theorem maySleep_now (hm : s.mode = .run) (hi : s.inputs.ignition = false) (hc : ∀ l, (s.line l).st.crediting = false) (hcmd : s.cmd = none) :
    s.maySleep = true := by
  simp [State.maySleep, ha, hm, hi, anyCrediting_false hc, hcmd]

include hs

theorem exec_sleepEntry_now (hm : s.mode = .run) (hi : s.inputs.ignition = false) (hc : ∀ l, (s.line l).st.crediting = false)
    (hcmd : s.cmd = none) : exec .sleepEntry s = .next s.enterSleep := by
  show execSleepEntry s = _
  rw [execSleepEntry]
  exact activeEvent_keeps ha hs (if_pos (maySleep_now ha hm hi hc hcmd)) (keepsDue_awake rfl rfl rfl rfl rfl rfl)

theorem exec_sleepEntry_off (hm : s.mode = .run) (hi : s.inputs.ignition = false)
    (hbusy : (∃ l, (s.line l).st.crediting = true) ∨ s.cmd ≠ none) : exec .sleepEntry s = .next { s with sleepDue := true } := by
  have hmay : s.maySleep = false := by
    rcases hbusy with ⟨l, hl⟩ | hc
    · simp [State.maySleep, anyCrediting_true hl]
    · cases h : s.cmd with
      | none => exact absurd h hc
      | some c => simp [State.maySleep, h]
  have hmay' : ({ s with sleepDue := true } : State).maySleep = false := hmay
  show execSleepEntry s = _
  rw [execSleepEntry]
  refine activeEvent_keeps ha hs ?_ ⟨rfl, rfl, rfl, fun h => (replyDue_congr rfl).trans h, id, fun _ => by rw [hmay', Bool.and_false]⟩
  rw [State.sleepTime, if_neg (by simp [hmay]), if_pos ⟨hm, hi⟩]

/-- A sleep put off is entered behind the command's last line (R187). -/
theorem exec_replySent_sleeps (hm : s.mode = .run) (hi : s.inputs.ignition = false) (hdue : s.sleepDue = true)
    (hc : ∀ l, (s.line l).st.crediting = false) {x : ReplyLine} (htx : s.tx = [x]) (hx : x.ends = true) :
    ∃ t, exec .replyLineSent s = .next t ∧ t.mode = .sleep ∧ t.cmd = none ∧ t.tx = [] := by
  obtain ⟨hidle, -, hends, -⟩ := (settled_iff s).1 hs
  obtain ⟨u, hu⟩ : ∃ u : State, u = { s with tx := [], cmd := none } := ⟨_, rfl⟩
  have hua : u.isActive = true := by rw [hu]; exact ha
  have hsent : s.lineSent = u := by rw [lineSent_eq htx, hx, hu, if_pos rfl]
  have hexec : exec .replyLineSent s = .next (commit u) := by
    show execReplyLineSent s = _
    rw [execReplyLineSent, activeEvent, event, comesUp_active s ha, if_pos ha, hsent]
  have hcommit : commit u = u.enterSleep := by
    have hmay : u.maySleep = true := maySleep_now hua (by rw [hu]; exact hm) (by rw [hu]; exact hi) (fun l => by rw [hu]; exact hc l) (by rw [hu])
    rw [commit_active u hua, runStore_settled u (by rw [hu]; exact hidle), deliver_noEnd u hua (by rw [hu]; exact hends),
      deliverReply_none u (by rw [hu]; rfl), State.trySleep, if_pos ⟨by rw [hu]; exact hdue, hmay⟩]
  rw [hexec, hcommit]
  exact ⟨_, rfl, rfl, by rw [hu]; rfl, by rw [hu]; rfl⟩

section
variable (hm : s.mode = .sleep)
include hm

theorem exec_ignition_wakes (wake : Pair Reading) (hi : s.inputs.ignition = false) : exec (.ignitionHigh wake) s
    = .next (({ s with inputs := { s.inputs with ignition := true }, sleepDue := false } : State).wake wake) := by
  refine inputEvent_keeps ha hs (changes := fun s => !s.inputs.ignition) rfl (by simp [hi]) (if_pos hm)
    (keepsDue_awake rfl rfl rfl rfl rfl rfl)

theorem exec_linkWake (wake : Pair Reading) (hdue : s.sleepDue = false) : exec (.linkWake wake) s = .next (s.wakeByCharacter wake) := by
  show execLinkWake wake s = _
  rw [execLinkWake]
  exact activeEvent_keeps ha hs (if_pos hm) (keepsDue_awake rfl rfl rfl rfl rfl hdue)

theorem exec_character_wakes (hdue : s.sleepDue = false) {i : Instr} (hi : i = .commandLine ∨ ∃ c, i = .characterReceived c) :
    exec i s = .next s.wakeByCharacterUnseen := by
  have hclosed : ¬ s.linkOpen = true := by
    rw [linkOpen_iff, hm]
    rintro ⟨-, h, -⟩
    cases h
  have hkeeps : KeepsDue s s.wakeByCharacterUnseen := keepsDue_awake rfl rfl rfl rfl rfl hdue
  rcases hi with rfl | ⟨c, rfl⟩
  · show execCommandLine s = _
    rw [execCommandLine]
    exact event_keeps ha hs ((if_neg hclosed).trans (if_pos ⟨ha, hm⟩)) hkeeps
  · show execCharacterReceived c s = _
    rw [execCharacterReceived]
    exact event_keeps ha hs ((if_neg hclosed).trans (if_pos ⟨ha, hm⟩)) hkeeps

end

theorem exec_clockTick : exec .clockTick s
    = .next { s with clock := { s.clock with now := nextSecond s.clock.now }, press := s.press.row .clock } := by
  have hruns : s.clockRuns = true := by
    unfold State.isActive at ha
    unfold State.clockRuns
    cases hp : s.phase with
    | active => rfl
    | _ => simp [hp] at ha
  show execClockTick s = _
  rw [execClockTick]
  exact event_keeps ha hs (if_pos hruns) (SameDue.keeps ⟨rfl, rfl, rfl, rfl, fun _ => rfl, rfl, rfl, rfl, rfl⟩)

end

/-! ## The clock (R186, R197) -/

theorem dateValid_iff (d : DateTime) : dateValid d = true ↔ (2000 ≤ d.year ∧ d.year ≤ 2099) ∧ (1 ≤ d.month ∧ d.month ≤ 12)
    ∧ (1 ≤ d.day ∧ d.day ≤ daysIn d.year d.month) ∧ d.hour ≤ 23 ∧ d.minute ≤ 59 ∧ d.second ≤ 59 := by
  simp [dateValid, within, and_assoc]

theorem one_le_daysIn (y m : Nat) : 1 ≤ daysIn y m := by
  unfold daysIn
  split
  · split <;> omega
  · split <;> omega

/-- The second behind a valid date is a valid date, but for the last. -/
theorem dateValid_nextSecond {d : DateTime} (h : dateValid d = true) (hlast : d ≠ ⟨2099, 12, 31, 23, 59, 59⟩) :
    dateValid (nextSecond d) = true := by
  rw [dateValid_iff] at h ⊢
  obtain ⟨⟨hy1, hy2⟩, ⟨hm1, hm2⟩, ⟨hd1, hd2⟩, hh, hmin, hs⟩ := h
  unfold nextSecond
  split
  · exact ⟨⟨hy1, hy2⟩, ⟨hm1, hm2⟩, ⟨hd1, hd2⟩, hh, hmin, by show d.second + 1 ≤ 59; omega⟩
  · split
    · exact ⟨⟨hy1, hy2⟩, ⟨hm1, hm2⟩, ⟨hd1, hd2⟩, hh, by show d.minute + 1 ≤ 59; omega, Nat.zero_le _⟩
    · split
      · exact ⟨⟨hy1, hy2⟩, ⟨hm1, hm2⟩, ⟨hd1, hd2⟩, by show d.hour + 1 ≤ 23; omega, Nat.zero_le _, Nat.zero_le _⟩
      · split
        · next hday =>
          exact ⟨⟨hy1, hy2⟩, ⟨hm1, hm2⟩, ⟨Nat.le_add_left .., hday⟩, Nat.zero_le _, Nat.zero_le _, Nat.zero_le _⟩
        · split
          · next hmonth =>
            exact ⟨⟨hy1, hy2⟩, ⟨Nat.le_add_left .., hmonth⟩, ⟨Nat.le_refl 1, one_le_daysIn ..⟩, Nat.zero_le _, Nat.zero_le _, Nat.zero_le _⟩
          · split
            · next hyear =>
              exact ⟨⟨by show 2000 ≤ d.year + 1; omega, hyear⟩, ⟨Nat.le_refl 1, Nat.le_add_left 1 11⟩, ⟨Nat.le_refl 1, one_le_daysIn ..⟩,
                Nat.zero_le _, Nat.zero_le _, Nat.zero_le _⟩
            · next hsecond hminute hhour hday hmonth hyear =>
              have hm : d.month = 12 := by omega
              have hdays : daysIn d.year d.month = 31 := by rw [hm]; rfl
              refine absurd ?_ hlast
              obtain ⟨year, month, day, hour, minute, second⟩ := d
              simp only [DateTime.mk.injEq] at *
              omega

end Sys2Proof.Machine

/-- Settles O57: SLEEP, waking, and the clock's second. -/
theorem sleepWakeAndClock : Obligations.SleepWakeAndClock := by
  refine ⟨fun s ha hs => ⟨fun hm hi => ⟨exec_sleepEntry_now ha hs hm hi, exec_sleepEntry_off ha hs hm hi,
      fun x hdue hc _ htx hx => exec_replySent_sleeps ha hs hm hi hdue hc htx hx⟩,
    fun hm wake => ⟨fun hi => ?_, fun hdue => ?_⟩, fun hm hdue i hi => ?_, exec_clockTick ha hs⟩,
    fun d hd => if_pos hd, by decide, by decide, by decide, fun d => dateValid_nextSecond⟩
  · refine ⟨_, exec_ignition_wakes ha hs hm wake hi, rfl, rfl, fun l => ?_, rfl⟩
    cases l <;> rfl
  · refine ⟨_, exec_linkWake ha hs hm wake hdue, rfl, rfl, fun l => ?_, rfl, rfl, rfl⟩
    cases l <;> rfl
  · exact ⟨_, exec_character_wakes ha hs hm hdue hi, rfl, rfl, rfl, rfl, rfl⟩
end

