-- ==== Sys2Proof/Proofs/RecordWrites.lean ====
section
/-! PROOFS. Completions in a working part: record writes, and O58. -/

open Sys2Proof Sys2Proof.Machine

namespace Sys2Proof.Machine

/-! ## A completion in a working part (R33) -/

theorem slot_of_slots {s u : State} (h : u.slots = s.slots) (n : Nat) : u.slot n = s.slot n := by rw [State.slot, h]; rfl

theorem slot_modSlot_same {s : State} {n : Nat} {x : Slot} (h : s.slot n = some x) (f : Slot → Slot) : (s.modSlot n f).slot n = some (f x) := by
  rw [slot_modSlot, if_pos rfl, h]
  rfl

theorem slot_modSlot_of_ne (s : State) {n m : Nat} (h : m ≠ n) (f : Slot → Slot) : (s.modSlot n f).slot m = s.slot m := by
  rw [slot_modSlot, if_neg h]

/-- What a completion leaves behind which the store begins nothing. -/
structure Completed (u t : State) : Prop where
  flight : t.flight = u.flight
  queue : t.queue = u.queue
  slots : t.slots = u.slots
  unsaved : t.unsaved = u.unsaved
  seq : t.seq = u.seq
  captures : t.captures = u.captures
  patrolCursor : t.patrolCursor = u.patrolCursor
  blocks : sameBlocks u t
  areas : t.areaSettings = u.areaSettings ∧ t.areaLoad = u.areaLoad ∧ t.areaRoute = u.areaRoute
  failed : t.failed = u.failed
  meters : t.meters = u.meters
  pump : t.pump = u.pump

theorem commit_completed {u : State} (ha : u.isActive = true) (h : u.flight.isSome = true ∨ u.queue = []) : Completed u (commit u) := by
  have hquiet := commit_quiet ha h
  exact ⟨hquiet.read State.flight, hquiet.read State.queue, hquiet.read State.slots, hquiet.read State.unsaved, hquiet.read State.seq,
    hquiet.read State.captures, hquiet.read State.patrolCursor, ⟨hquiet.read State.settings, hquiet.read State.load, hquiet.read State.route,
    hquiet.read State.counter⟩, ⟨hquiet.read State.areaSettings, hquiet.read State.areaLoad, hquiet.read State.areaRoute⟩,
    hquiet.read State.failed, hquiet.read State.meters, hquiet.read State.pump⟩

theorem Completed.slot {u t : State} (h : Completed u t) (n : Nat) : t.slot n = u.slot n := slot_of_slots h.slots n

section
variable {s : State} (ha : s.isActive = true)
include ha

theorem exec_recordWrite {w : SlotWrite} (hf : s.flight = some (.record w)) (read : ReadResult) (agrees : Bool) :
    exec (.recordWriteComplete read agrees) s = .next (commit (s.recordWriteEnd w read agrees)) := by
  show execRecordWriteComplete read agrees s = _
  rw [execRecordWriteComplete, event, comesUp_active s ha]
  simp only [hf]

theorem mayBegin_active (k : OpKind) : s.mayBegin k = true := by
  unfold State.isActive at ha
  unfold State.mayBegin
  cases hp : s.phase with
  | active => rfl
  | _ => simp [hp] at ha

end

/-! ## A record write that verifies (R29, R35, R36) -/

theorem recordWriteEnd_verified (s : State) (w : SlotWrite) : s.recordWriteEnd w .clean true = s.recordVerified w false := rfl

theorem recordWriteEnd_failed (s : State) (w : SlotWrite) : s.recordWriteEnd w .clean false = s.recordFailed w := rfl

theorem inRange_of_le {top draw n : Nat} (h : n ≤ top) : inRange top draw n = n := if_pos h

/-- With no image unsaved a saved record is told to nobody. -/
theorem becomeSaved_none {s : State} (h : s.unsaved = []) (stop : Nat) : s.becomeSaved stop = s := by
  rw [State.becomeSaved, State.isUnsaved, h]
  rfl

section
variable {s : State} {w : SlotWrite} {n : Nat} {r : Record} (hhome : s.homeOf w.stop = some n) (hr : s.recOf w.stop = some r)
  (hunsaved : s.unsaved = [])
include hhome hr

section
include hunsaved

theorem recordVerified_inPlace (h : n = w.target) : s.recordVerified w false = (s.verifiedInPlace w r).landed := by
  unfold State.recordVerified
  rw [hhome, hr]
  simp only [if_pos h, Bool.false_eq_true, if_false]
  exact becomeSaved_none (s := (s.verifiedInPlace w r).landed) hunsaved _

theorem recordVerified_new (h : n ≠ w.target) :
    s.recordVerified w false = (s.verifiedNew w n ((s.slot n).elim false (·.leaving)) r).landed := by
  unfold State.recordVerified
  rw [hhome, hr]
  simp only [if_neg h, Bool.false_eq_true, if_false]
  exact becomeSaved_none (s := (s.verifiedNew w n ((s.slot n).elim false (·.leaving)) r).landed) hunsaved _

end

theorem recordFailed_inPlace {a : Nat} (h : n = w.target) (hnext : s.allocate none = some a) :
    s.recordFailed w = (s.modSlot n (fun x => { x with relocate := true })).tryNext w a .relocation := by
  unfold State.recordFailed
  rw [hhome, hr]
  simp only [if_pos h, hnext]

theorem recordFailed_elsewhere {a : Nat} (h : n ≠ w.target) (hnext : s.allocate (some w.target) = some a) :
    s.recordFailed w = (s.modSlot w.target Slot.retire).tryNext w a w.kind := by
  unfold State.recordFailed
  rw [hhome, hr]
  simp only [if_neg h, hnext]

theorem recordFailed_exhausted (h : n = w.target) (hnext : s.allocate none = none) :
    s.recordFailed w = (s.modSlot n (Slot.condemn r)).landed.becomeUnsaved w.stop := by
  unfold State.recordFailed
  rw [hhome, hr]
  simp only [if_pos h, hnext]
  unfold State.exhausted
  rw [if_pos (.inl h), if_pos h]

end

/-- A record that becomes unsaved changes the list and the lines alone. -/
theorem becomeUnsaved_eq (s : State) (stop : Nat) : s.becomeUnsaved stop
    = { s with unsaved := (s.becomeUnsaved stop).unsaved, lines := (s.becomeUnsaved stop).lines } := by
  have hline : ∀ (u : State) (l : Line), u.lineUnsaved l = { u with lines := (u.lineUnsaved l).lines } := by
    intro u l
    unfold State.lineUnsaved State.beginStop
    split
    · rfl
    · split <;> rfl
    · split <;> rfl
    · rfl
    · rfl
  have hboth : ∀ (u : State) (l : Line), u.lineUnsaved l = { u with unsaved := (u.lineUnsaved l).unsaved, lines := (u.lineUnsaved l).lines } := by
    intro u l
    rw [hline u l]
  unfold State.becomeUnsaved State.tellBound
  split
  · rfl
  · split
    · split
      · exact hboth _ _
      · split
        · exact hboth _ _
        · rfl
    · rfl

theorem unsaved_becomeUnsaved {s : State} {stop : Nat} (h : s.isUnsaved stop = false) : (s.becomeUnsaved stop).unsaved = s.unsaved ++ [stop] := by
  have hline : ∀ (u : State) (l : Line), (u.lineUnsaved l).unsaved = u.unsaved := by
    intro u l
    unfold State.lineUnsaved State.beginStop
    split
    · rfl
    · split <;> rfl
    · split <;> rfl
    · rfl
    · rfl
  unfold State.becomeUnsaved State.tellBound
  rw [if_neg (by simp [h])]
  split
  · split
    · exact hline _ _
    · split
      · exact hline _ _
      · rfl
  · rfl

/-- The slot that a verified write makes a record's home (R29, R35). -/
theorem receive_eq {y : Slot} (hprogram : y.program < 100000) (stop seq draw : Nat) (image r : Record) :
    Slot.receive stop seq draw image r y = { y with
      st := .inUse (.record r), program := y.program + 1, relocate := false, content := some image
      headers := ⟨⟨y.program + 1, y.corr, .inUse stop seq⟩, ⟨y.program + 1, y.corr, .inUse stop seq⟩, ⟨y.program + 1, y.corr, .inUse stop seq⟩⟩ } := by
  unfold Slot.receive Slot.writeHeader
  rw [inRange_of_le (Nat.succ_le_of_lt hprogram)]

section
variable {s : State} {w : SlotWrite} {n : Nat} {r : Record} {x y : Slot} (ha : s.isActive = true) (hq : s.queue = [])
  (hf : s.flight = some (.record w)) (hunsaved : s.unsaved = []) (hhome : s.homeOf w.stop = some n) (hr : s.recOf w.stop = some r)
include ha hf hhome hr

section
variable (hy : s.slot w.target = some y) (hprogram : y.program < 100000)
include hq hunsaved hy hprogram

theorem exec_verifiedInPlace (hseq : s.seq < 4294967295) (h : n = w.target) :
    ∃ t z, exec (.recordWriteComplete .clean true) s = .next t ∧ t.flight = none ∧ t.seq = s.seq + 1
      ∧ t.slot n = some z ∧ z.st = .inUse (.record r) ∧ z.program = y.program + 1 ∧ z.corr = y.corr
      ∧ z.content = some w.image ∧ z.relocate = false ∧ z.headers.first = ⟨y.program + 1, y.corr, .inUse w.stop s.seq⟩
      ∧ (∀ m, m ≠ n → t.slot m = s.slot m) ∧ sameBlocks s t ∧ t.meters = s.meters ∧ t.pump = s.pump := by
  obtain ⟨u, hu⟩ : ∃ u, u = (s.verifiedInPlace w r).landed := ⟨_, rfl⟩
  have hexec : exec (.recordWriteComplete .clean true) s = .next (commit u) := by
    rw [exec_recordWrite ha hf, recordWriteEnd_verified, recordVerified_inPlace hhome hr hunsaved h, hu]
  have hdone := commit_completed (u := u) (by rw [hu]; exact ha) (.inr (by rw [hu]; exact hq))
  have hslots : u.slots = (s.modSlot w.target (Slot.receive w.stop s.seq s.fresh w.image r)).slots := by rw [hu]; rfl
  refine ⟨_, Slot.receive w.stop s.seq s.fresh w.image r y, hexec, hdone.flight.trans (by rw [hu]; rfl), hdone.seq.trans ?_,
    ?_, ?_⟩
  · rw [hu]
    exact inRange_of_le (Nat.succ_le_of_lt hseq)
  · rw [hdone.slot, slot_of_slots hslots, h]
    exact slot_modSlot_same hy _
  · rw [receive_eq hprogram]
    refine ⟨rfl, rfl, rfl, rfl, rfl, rfl, fun m hm => ?_, ?_, hdone.meters.trans (by rw [hu]; rfl), hdone.pump.trans (by rw [hu]; rfl)⟩
    · rw [hdone.slot, slot_of_slots hslots]
      exact slot_modSlot_of_ne s (by rw [← h]; exact hm) _
    · have hblocks := hdone.blocks
      rw [hu] at hblocks ⊢
      exact hblocks

theorem exec_verifiedNew (hx : s.slot n = some x) (h : n ≠ w.target) :
    ∃ t z u, exec (.recordWriteComplete .clean true) s = .next t ∧ t.flight = none
      ∧ t.slot w.target = some z ∧ z.st = .inUse (.record r) ∧ z.program = y.program + 1 ∧ z.content = some w.image
      ∧ t.slot n = some u ∧ u.st = .retired ∧ (∀ m, m ≠ n → m ≠ w.target → t.slot m = s.slot m) ∧ sameBlocks s t := by
  obtain ⟨leaving, hleaving⟩ : ∃ b, b = (s.slot n).elim false (·.leaving) := ⟨_, rfl⟩
  obtain ⟨u, hu⟩ : ∃ u, u = (s.verifiedNew w n leaving r).landed := ⟨_, rfl⟩
  have hexec : exec (.recordWriteComplete .clean true) s = .next (commit u) := by
    rw [exec_recordWrite ha hf, recordWriteEnd_verified, recordVerified_new hhome hr hunsaved h, hu, hleaving]
  have hqueue : u.queue = [] := by
    rw [hu]
    show (if s.queue.contains (Key.release w.target) then s.queue.erase (.release n)
      else s.queue.map (fun k => if k = Key.release n then Key.release w.target else k)) = []
    rw [hq]
    rfl
  have hdone := commit_completed (u := u) (by rw [hu]; exact ha) (.inr hqueue)
  obtain ⟨a, haw⟩ : ∃ a, a = s.modSlot w.target (Slot.receive w.stop s.seq s.fresh w.image r) := ⟨_, rfl⟩
  obtain ⟨b, hb⟩ : ∃ b, b = a.modSlot w.target (fun x => { x with leaving := leaving }) := ⟨_, rfl⟩
  have hslots : u.slots = (b.modSlot n Slot.retire).slots := by rw [hu, hb, haw]; rfl
  have haSlot : a.slot w.target = some (Slot.receive w.stop s.seq s.fresh w.image r y) := by rw [haw]; exact slot_modSlot_same hy _
  have hbSlot : b.slot w.target = some { Slot.receive w.stop s.seq s.fresh w.image r y with leaving := leaving } := by
    rw [hb]
    exact slot_modSlot_same haSlot _
  have hothers : ∀ m, m ≠ w.target → b.slot m = s.slot m := by
    intro m hm
    rw [hb, slot_modSlot_of_ne a hm, haw, slot_modSlot_of_ne s hm]
  have htarget : (commit u).slot w.target = some { Slot.receive w.stop s.seq s.fresh w.image r y with leaving := leaving } := by
    rw [hdone.slot, slot_of_slots hslots, slot_modSlot_of_ne b (Ne.symm h)]
    exact hbSlot
  have hold : (commit u).slot n = some x.retire := by
    rw [hdone.slot, slot_of_slots hslots]
    exact slot_modSlot_same ((hothers n h).trans hx) _
  rw [receive_eq hprogram] at htarget
  refine ⟨_, _, _, hexec, hdone.flight.trans (by rw [hu]; rfl), htarget, rfl, rfl, rfl, hold, rfl, fun m hm hmt => ?_, ?_⟩
  · rw [hdone.slot, slot_of_slots hslots, slot_modSlot_of_ne b hm]
    exact hothers m hmt
  · have hblocks := hdone.blocks
    rw [hu] at hblocks ⊢
    exact hblocks

end

omit hhome hr in
/-- A failed write that goes on in a further slot (R36). -/
theorem exec_writesNext {v : State} {a : Nat} {k : WriteKind} (hend : s.recordFailed w = v.tryNext w a k) (hv : v.isActive = true)
    (hsame : ∃ xs, v = { s with slots := xs }) : ∃ t, exec (.recordWriteComplete .clean false) s = .next t
      ∧ t.flight = some (.record { w with target := a, kind := k }) ∧ (∀ m, t.slot m = v.slot m) ∧ t.unsaved = s.unsaved ∧ sameBlocks s t := by
  obtain ⟨xs, hxs⟩ := hsame
  obtain ⟨u, hu⟩ : ∃ u : State, u = { v with flight := some (.record { w with target := a, kind := k }) } := ⟨_, rfl⟩
  have hexec : exec (.recordWriteComplete .clean false) s = .next (commit u) := by
    rw [exec_recordWrite ha hf, recordWriteEnd_failed, hend, State.tryNext, if_pos (mayBegin_active hv .slot), hu]
  have hdone := commit_completed (u := u) (by rw [hu]; exact hv) (.inl (by rw [hu]; rfl))
  refine ⟨_, hexec, hdone.flight.trans (by rw [hu]), fun m => (hdone.slot m).trans (by rw [hu]; rfl),
    hdone.unsaved.trans (by rw [hu, hxs]), ?_⟩
  have hblocks := hdone.blocks
  rw [hu, hxs] at hblocks
  rw [hu, hxs]
  exact hblocks

/-- A failed write behind which no FREE slot is left (R36, R43). -/
theorem exec_exhausted (hq : s.queue = []) (hunsaved : s.unsaved = []) (hx : s.slot n = some x) (h : n = w.target)
    (hnext : s.allocate none = none) : ∃ t z, exec (.recordWriteComplete .clean false) s = .next t
      ∧ t.flight = none ∧ t.slot n = some z ∧ z.st = .condemned r ∧ t.unsaved = [w.stop] ∧ sameBlocks s t := by
  obtain ⟨v, hv⟩ : ∃ v, v = (s.modSlot n (Slot.condemn r)).landed := ⟨_, rfl⟩
  obtain ⟨u, hu⟩ : ∃ u, u = v.becomeUnsaved w.stop := ⟨_, rfl⟩
  have hexec : exec (.recordWriteComplete .clean false) s = .next (commit u) := by
    rw [exec_recordWrite ha hf, recordWriteEnd_failed, recordFailed_exhausted hhome hr h hnext, hu, hv]
  have heq : u = { v with unsaved := u.unsaved, lines := u.lines } := by
    rw [hu]
    exact becomeUnsaved_eq v w.stop
  have key : ∀ {α : Type} (g : State → α), g u = g { v with unsaved := u.unsaved, lines := u.lines } := fun g => congrArg g heq
  have hvunsaved : v.unsaved = [] := by rw [hv]; exact hunsaved
  have huunsaved : u.unsaved = [w.stop] := by
    rw [hu, unsaved_becomeUnsaved (by rw [State.isUnsaved, hvunsaved]; rfl), hvunsaved]
    rfl
  have hdone := commit_completed (u := u) ((key State.isActive).trans (by rw [hv]; exact ha)) (.inr ((key State.queue).trans (by rw [hv]; exact hq)))
  refine ⟨_, Slot.condemn r x, hexec, hdone.flight.trans ((key State.flight).trans (by rw [hv]; rfl)), ?_, rfl, hdone.unsaved.trans huunsaved, ?_⟩
  · rw [hdone.slot, slot_of_slots (key State.slots), hv]
    exact slot_modSlot_same hx _
  · obtain ⟨h1, h2, h3, h4⟩ := hdone.blocks
    exact ⟨(h1.trans (key State.settings)).trans (by rw [hv]; rfl), (h2.trans (key State.load)).trans (by rw [hv]; rfl),
      (h3.trans (key State.route)).trans (by rw [hv]; rfl), (h4.trans (key State.counter)).trans (by rw [hv]; rfl)⟩

end

end Sys2Proof.Machine

/-- Settles O58: what the completion of a record write leaves. -/
theorem recordWritesComplete : Obligations.RecordWritesComplete := by
  intro w n r x y s ha hq hf hunsaved hhome hr hx hy hprogram hseq hinUse hstop
  refine ⟨exec_verifiedInPlace ha hq hf hunsaved hhome hr hy hprogram hseq,
    fun h _ => exec_verifiedNew ha hq hf hunsaved hhome hr hy hprogram hx h, fun a h hnext => ?_, fun a h hfree hnext => ?_, fun h hnext => ?_⟩
  · obtain ⟨t, ht, hflight, hslot, hun, hblocks⟩ := exec_writesNext (v := s.modSlot n (fun x => { x with relocate := true })) ha hf
      (recordFailed_inPlace hhome hr h hnext) ha ⟨_, rfl⟩
    exact ⟨t, _, ht, hflight, (hslot n).trans (slot_modSlot_same hx _), rfl, fun m hm => (hslot m).trans (slot_modSlot_of_ne s hm _),
      hun.trans hunsaved, hblocks⟩
  · obtain ⟨t, ht, hflight, hslot, hun, hblocks⟩ := exec_writesNext (v := s.modSlot w.target Slot.retire) ha hf
      (recordFailed_elsewhere hhome hr h hnext) ha ⟨_, rfl⟩
    exact ⟨t, _, ht, hflight, (hslot w.target).trans (slot_modSlot_same hy _), rfl, fun m hm => (hslot m).trans (slot_modSlot_of_ne s hm _),
      hun.trans hunsaved, hblocks⟩
  · exact exec_exhausted ha hf hhome hr hq hunsaved hx h hnext
end

