-- ==== Sys2Proof/Proofs/BlockWrites.lean ====
section
/-! PROOFS. Completions of block writes and releases, and O59. -/

open Sys2Proof Sys2Proof.Machine

namespace Sys2Proof.Machine

/-! ## Block writes (R46, R50, R155) -/

section
variable {s : State} (ha : s.isActive = true) (hq : s.queue = [])
include ha

theorem exec_blockWrite {b : BlockImage} {second : Bool} (hf : s.flight = some (.block b second)) (agrees : Bool) :
    exec (.blockWriteComplete agrees) s = .next (commit (s.blockWriteEnd b second agrees)) := by
  show execBlockWriteComplete agrees s = _
  rw [execBlockWriteComplete, event, comesUp_active s ha]
  simp only [hf]

theorem exec_releaseComplete {n : Nat} (hf : s.flight = some (.release n)) : exec .releaseComplete s = .next (commit (s.releaseEnd n)) := by
  show execReleaseComplete s = _
  rw [execReleaseComplete, event, comesUp_active s ha]
  simp only [hf]

include hq

/-- The end of a block write, verified or failed twice. -/
theorem exec_blockEnds {b : BlockImage} {second agrees : Bool} {v : State} (hf : s.flight = some (.block b second))
    (hend : s.blockWriteEnd b second agrees = v.landed) (hva : v.isActive = true) (hvq : v.queue = s.queue) (hvslots : v.slots = s.slots)
    (hvblocks : sameBlocks s v) : ∃ t, exec (.blockWriteComplete agrees) s = .next t ∧ t.flight = none ∧ t.slots = s.slots
      ∧ sameBlocks s t ∧ t.areaSettings = v.areaSettings ∧ t.areaLoad = v.areaLoad ∧ t.areaRoute = v.areaRoute ∧ t.failed = v.failed := by
  have hexec : exec (.blockWriteComplete agrees) s = .next (commit v.landed) := by rw [exec_blockWrite ha hf, hend]
  have hdone := commit_completed (u := v.landed) hva (.inr (hvq.trans hq))
  obtain ⟨h1, h2, h3⟩ := hdone.areas
  obtain ⟨g1, g2, g3, g4⟩ := hdone.blocks
  obtain ⟨k1, k2, k3, k4⟩ := hvblocks
  exact ⟨_, hexec, hdone.flight, hdone.slots.trans hvslots, ⟨g1.trans k1, g2.trans k2, g3.trans k3, g4.trans k4⟩, h1, h2, h3, hdone.failed⟩

theorem exec_blockRetried {b : BlockImage} (hf : s.flight = some (.block b false)) :
    ∃ t, exec (.blockWriteComplete false) s = .next t ∧ t.flight = some (.block b true) ∧ t.slots = s.slots ∧ sameBlocks s t
      ∧ t.failed = s.failed ∧ t.areaSettings = s.areaSettings ∧ t.areaLoad = s.areaLoad ∧ t.areaRoute = s.areaRoute := by
  obtain ⟨u, hu⟩ : ∃ u : State, u = { s with flight := some (.block b true) } := ⟨_, rfl⟩
  have hexec : exec (.blockWriteComplete false) s = .next (commit u) := by
    rw [exec_blockWrite ha hf, State.blockWriteEnd, if_neg Bool.false_ne_true, if_neg Bool.false_ne_true,
      if_pos (mayBegin_active ha .block), hu]
  have hdone := commit_completed (u := u) (by rw [hu]; exact ha) (.inr (by rw [hu]; exact hq))
  obtain ⟨h1, h2, h3⟩ := hdone.areas
  have hblocks := hdone.blocks
  rw [hu] at hblocks
  refine ⟨_, hexec, hdone.flight.trans ?_, hdone.slots.trans ?_, ?_, hdone.failed.trans ?_, h1.trans ?_, h2.trans ?_, h3.trans ?_⟩
  rotate_left 2
  · rw [hu]
    exact hblocks
  all_goals rw [hu]

end

/-! ## Releases (R37) -/

theorem release_due {x : Slot} {r : Record} (draw : Nat) (hst : x.st = .inUse (.record r)) (h : x.due = true) : x.release draw = x.retire := by
  unfold Slot.release
  rw [hst]
  exact if_pos h

theorem release_free {x : Slot} {r : Record} (draw : Nat) (hst : x.st = .inUse (.record r)) (h : x.due = false) : x.release draw =
    { x with st := .free, program := inRange 100000 draw (x.program + 1), relocate := false, leaving := false }.writeHeader .free := by
  unfold Slot.release
  rw [hst]
  exact if_neg (by simp [h])

theorem release_damaged {x : Slot} {stop account : Nat} (draw : Nat) (hst : x.st = .inUse (.damaged stop account)) :
    x.release draw = x.retire := by
  unfold Slot.release
  rw [hst]

/-- With no image unsaved nothing is asked for behind a release. -/
theorem queueUnsaved_none {s : State} (h : s.unsaved = []) : s.queueUnsaved = s := by
  rw [State.queueUnsaved, h]

theorem releaseEnd_eq {s : State} (n : Nat) (h : s.unsaved = []) : s.releaseEnd n = (s.modSlot n (Slot.release s.fresh)).landed := by
  have hfreed : ∀ u : State, u.unsaved = [] → (if (u.slot n).elim false Slot.isFree = true then u.queueUnsaved else u) = u := by
    intro u hu
    split
    · exact queueUnsaved_none hu
    · rfl
  have herase : ∀ stop, ({ s with unsaved := s.unsaved.erase stop } : State) = s := by
    intro stop
    rw [h, List.erase_nil, ← h]
  unfold State.releaseEnd
  dsimp only
  split
  · rw [herase]
    exact hfreed _ h
  · exact hfreed _ h

theorem due_iff (x : Slot) : x.due = true ↔ 100000 ≤ x.program ∨ 2 ≤ x.corr := by simp [Slot.due]

end Sys2Proof.Machine

/-- Settles O59: what the completions of block writes and releases leave. -/
theorem blockWritesAndReleasesComplete : Obligations.BlockWritesAndReleasesComplete := by
  refine ⟨fun b second s ha hq hf => ⟨?_, fun hsecond => ?_, fun hsecond => ?_⟩,
    fun n x s ha hq hf hunsaved hx => ?_⟩
  · obtain ⟨t, ht, hflight, hslots, hblocks, h1, h2, h3, h4⟩ := exec_blockEnds (v := (s.setArea b).setFailed b false) ha hq hf
      (if_pos rfl) (by cases b <;> exact ha) (by cases b <;> rfl) (by cases b <;> rfl) (by cases b <;> exact ⟨rfl, rfl, rfl, rfl⟩)
    refine ⟨t, ht, hflight, hslots, hblocks, h1.trans ?_, h2.trans ?_, h3.trans ?_, (congrArg (·.settings) h4).trans ?_,
      (congrArg (·.load) h4).trans ?_, (congrArg (·.route) h4).trans ?_⟩
    all_goals cases b <;> rfl
  · rw [hsecond] at hf
    exact exec_blockRetried ha hq hf
  · rw [hsecond] at hf
    obtain ⟨t, ht, hflight, hslots, hblocks, h1, h2, h3, h4⟩ := exec_blockEnds (v := s.setFailed b true) ha hq hf
      ((if_neg Bool.false_ne_true).trans (if_pos rfl)) (by cases b <;> exact ha) (by cases b <;> rfl) (by cases b <;> rfl)
      (by cases b <;> exact ⟨rfl, rfl, rfl, rfl⟩)
    refine ⟨t, ht, hflight, hslots, hblocks, h1.trans ?_, h2.trans ?_, h3.trans ?_, (congrArg (·.settings) h4).trans ?_,
      (congrArg (·.load) h4).trans ?_, (congrArg (·.route) h4).trans ?_⟩
    all_goals cases b <;> rfl
  · obtain ⟨u, hu⟩ : ∃ u, u = (s.modSlot n (Slot.release s.fresh)).landed := ⟨_, rfl⟩
    have hexec : exec .releaseComplete s = .next (commit u) := by
      rw [exec_releaseComplete ha hf, releaseEnd_eq n hunsaved, hu]
    have hdone := commit_completed (u := u) (by rw [hu]; exact ha) (.inr (by rw [hu]; exact hq))
    have hslots : u.slots = (s.modSlot n (Slot.release s.fresh)).slots := by rw [hu]; rfl
    have hblocks := hdone.blocks
    rw [hu] at hblocks
    refine ⟨_, x.release s.fresh, hexec, hdone.flight.trans (by rw [hu]; rfl), ?_, fun m hm => ?_, ?_, fun r hst hprogram hcorr => ?_,
      fun r hst hdue => ?_, fun stop account hst => ?_⟩
    · rw [hdone.slot, slot_of_slots hslots]
      exact slot_modSlot_same hx _
    · rw [hdone.slot, slot_of_slots hslots]
      exact slot_modSlot_of_ne s hm _
    · rw [hu]
      exact hblocks
    · have hdue : x.due = false := by
        rw [Bool.eq_false_iff, Ne, due_iff]
        omega
      rw [release_free s.fresh hst hdue, inRange_of_le (Nat.succ_le_of_lt hprogram)]
      exact ⟨rfl, rfl, rfl, rfl⟩
    · rw [release_due s.fresh hst ((due_iff x).2 hdue)]
      rfl
    · rw [release_damaged s.fresh hst]
      rfl
end

