-- ==== Sys2Proof/Proofs/Patrol.lean ====
section
/-! PROOFS. Where the patrol goes, and the beginning of its reads. -/

open Sys2Proof Sys2Proof.Machine

namespace Sys2Proof.Machine

/-! ## Where the patrol goes (R40) -/

theorem patrolled_iff (x : Slot) : x.patrolled = true ↔ ∃ r, x.st = .inUse (.record r) := by
  unfold Slot.patrolled
  split
  · next r h => exact ⟨fun _ => ⟨r, h⟩, fun _ => rfl⟩
  · next h => exact ⟨nofun, fun ⟨r, hr⟩ => absurd hr (h r)⟩

theorem patrols_iff (s : State) (n : Nat) : s.patrols n ↔ ∃ x, s.slot n = some x ∧ x.patrolled = true := by
  simp only [State.patrols, patrolled_iff]
  exact ⟨fun ⟨x, r, h⟩ => ⟨x, h.1, r, h.2⟩, fun ⟨x, h, r, hr⟩ => ⟨x, r, h, hr⟩⟩

/-- A search from an index finds the first patrolled slot from there on. -/
theorem findPatrolled_some {s : State} {k m : Nat} (h : findSlot Slot.patrolled (s.slots.drop k) (k + 1) = some m) :
    s.patrols m ∧ k < m ∧ ∀ j, k < j → j < m → ¬ s.patrols j := by
  obtain ⟨i, x, rfl, hx, hp, hfirst⟩ := findSlot_some _ _ _ _ h
  rw [List.getElem?_drop] at hx
  refine ⟨(patrols_iff s _).2 ⟨x, ?_, hp⟩, by omega, fun j hkj hjm hpj => ?_⟩
  · rw [show k + 1 + i = k + i + 1 by omega, slot_succ, hx]
  · obtain ⟨y, hy, hpy⟩ := (patrols_iff s j).1 hpj
    obtain ⟨a, rfl⟩ : ∃ a, j = k + a + 1 := ⟨j - k - 1, by omega⟩
    rw [slot_succ] at hy
    rw [hfirst a y (by omega) (by rw [List.getElem?_drop]; exact hy)] at hpy
    cases hpy

theorem findPatrolled_none {s : State} {k : Nat} (h : findSlot Slot.patrolled (s.slots.drop k) (k + 1) = none) (j : Nat) (hj : k < j) :
    ¬ s.patrols j := by
  intro hpj
  obtain ⟨y, hy, hpy⟩ := (patrols_iff s j).1 hpj
  obtain ⟨a, rfl⟩ : ∃ a, j = k + a + 1 := ⟨j - k - 1, by omega⟩
  rw [slot_succ] at hy
  rw [(findSlot_none _ _ _).1 h y (List.mem_of_getElem? (by rw [List.getElem?_drop]; exact hy))] at hpy
  cases hpy

theorem not_patrols_zero (s : State) : ¬ s.patrols 0 := by
  rw [patrols_iff]
  rintro ⟨x, hx, -⟩
  simp at hx

theorem patrolFrom_spec (s : State) (n : Nat) : (s.patrolFrom n = none ↔ ∀ m, ¬ s.patrols m)
    ∧ ∀ m, s.patrolFrom n = some m → s.patrols m
      ∧ ((n ≤ m ∧ ∀ j, n ≤ j → j < m → ¬ s.patrols j)
        ∨ (m < n ∧ (∀ j, n ≤ j → ¬ s.patrols j) ∧ ∀ j, j < m → ¬ s.patrols j)) := by
  have hbelow : ∀ j, n ≤ j → s.patrols j → n - 1 < j := by
    intro j hj hp
    by_contra hle
    obtain rfl : j = 0 := by omega
    exact not_patrols_zero s hp
  have hpos : ∀ j, s.patrols j → 0 < j := fun j hp => Nat.pos_of_ne_zero fun h0 => not_patrols_zero s (h0 ▸ hp)
  unfold State.patrolFrom
  cases hfirst : findSlot Slot.patrolled (s.slots.drop (n - 1)) (n - 1 + 1) with
  | some k =>
    obtain ⟨hk, hlt, hnone⟩ := findPatrolled_some hfirst
    refine ⟨⟨nofun, fun h => absurd hk (h k)⟩, ?_⟩
    rintro m ⟨⟩
    exact ⟨hk, .inl ⟨by omega, fun j hj hjm hp => hnone j (hbelow j hj hp) hjm hp⟩⟩
  | none =>
    have habove : ∀ j, n ≤ j → ¬ s.patrols j := fun j hj hp => findPatrolled_none hfirst j (hbelow j hj hp) hp
    dsimp only
    refine ⟨⟨fun h m hp => ?_, fun h => ?_⟩, fun m hm => ?_⟩
    · exact findPatrolled_none (k := 0) h m (hpos m hp) hp
    · cases hall : findSlot Slot.patrolled s.slots 1 with
      | none => rfl
      | some k => exact absurd (findPatrolled_some (k := 0) hall).1 (h k)
    · obtain ⟨hk, -, hnone⟩ := findPatrolled_some (k := 0) hm
      refine ⟨hk, .inr ⟨?_, habove, fun j hj hp => hnone j (hpos j hp) hj hp⟩⟩
      by_contra hle
      exact habove m (by omega) hk

/-! ## The beginning of a patrol read (R40) -/

section
variable {s : State} (ha : s.isActive = true) (hs : s.settled = true) (hm : s.mode = .run) (hq : s.queue = []) (hf : s.flight = none)
include ha hs hm hq hf

theorem exec_patrolBegins {n : Nat} (hn : s.patrolFrom s.patrolCursor = some n) : exec .patrolIdleExpiry s =
    .next { s with flight := some (.patrol n), patrolIdle := 0, press := s.press.row .patrolIdle } := by
  obtain ⟨u, hu⟩ : ∃ u : State, u = { s with flight := some (.patrol n), patrolIdle := 0, press := s.press.row .patrolIdle } := ⟨_, rfl⟩
  have hbegin : s.patrolBegin = u := by
    rw [State.patrolBegin, if_pos ⟨ha, hm, hq, hf⟩, hn, hu]
    rfl
  have hua : u.isActive = true := by rw [hu]; exact ha
  have hus : u.settled = true := by
    obtain ⟨-, hreply, hends, hsleep⟩ := (settled_iff s).1 hs
    rw [comesUp_active s ha] at hsleep
    refine (settled_iff u).2 ⟨.inl (by rw [hu]; rfl), (replyDue_congr (by rw [hu])).trans hreply, by rw [hu]; exact hends, ?_⟩
    rw [comesUp_active u hua, hu]
    exact hsleep
  show execPatrolIdleExpiry s = _
  rw [execPatrolIdleExpiry, event, comesUp_active s ha, hbegin, commit_settled u hua hus, hu]

theorem exec_patrolRests (hn : s.patrolFrom s.patrolCursor = none) : exec .patrolIdleExpiry s =
    .next { s with patrolIdle := 0, press := s.press.row .patrolIdle } := by
  show execPatrolIdleExpiry s = _
  rw [execPatrolIdleExpiry]
  refine event_keeps ha hs ?_ (SameDue.keeps ⟨rfl, rfl, rfl, rfl, fun _ => rfl, rfl, rfl, rfl, rfl⟩)
  rw [State.patrolBegin, if_pos ⟨ha, hm, hq, hf⟩, hn]
  rfl

end

/-! ## The end of a patrol read (R38, R40) -/

/-- Where the store has taken what it can, a second look finds the same. -/
theorem commit_runStore {u : State} (ha : u.isActive = true) (h : u.runStore.flight.isSome = true ∨ u.runStore.queue = []) :
    commit u = commit u.runStore := by
  have hactive : u.runStore.isActive = true := (isActive_of_phase (runStore_keeps u).phase).trans ha
  rw [commit_active u ha, commit_active _ hactive, runStore_settled _ h]

/-- Behind a row that leaves one record's entry waiting, in a part where its write finds a slot. -/
theorem commit_oneEntry {u : State} {stop : Nat} {r : Record} (ha : u.isActive = true) (hf : u.flight = none) (hq : u.queue = [.record stop])
    (hr : u.recOf stop = some r) (hfree : u.slots.any Slot.isFree = true) :
    (commit u).slots = u.slots ∧ (commit u).patrolCursor = u.patrolCursor ∧ asked (commit u) (.record stop) := by
  obtain ⟨f, hfly⟩ := flies_record hr hfree
  have hrun := runStore_flies ha hf hq hfly
  obtain ⟨y, hy⟩ : ∃ y, y = u.runStore := ⟨_, rfl⟩
  have hbusy : y.flight.isSome = true := by rw [hy, hrun]; rfl
  have hya : y.isActive = true := by rw [hy, hrun]; exact ha
  have hdone := commit_completed hya (.inl hbusy)
  rw [commit_runStore ha (.inl (by rw [← hy]; exact hbusy)), ← hy]
  refine ⟨hdone.slots.trans ?_, hdone.patrolCursor.trans ?_, .inr ?_⟩
  · rw [hy, hrun]
    rfl
  · rw [hy, hrun]
    rfl
  · rw [hdone.flight, hy, hrun]
    exact hfly.1

section
variable {s : State} {n : Nat} {x : Slot} {r : Record} (ha : s.isActive = true) (hq : s.queue = [])
  (hf : s.flight = some (.patrol n))
include ha hf

theorem exec_patrolEnd (read : ReadResult) : exec (.patrolReadComplete read) s = .next (commit (s.patrolEnd n read)) := by
  show execPatrolReadComplete read s = _
  rw [execPatrolReadComplete, event, comesUp_active s ha]
  simp only [hf]

end

theorem askMove_record {s : State} {n : Nat} {x : Slot} {r : Record} (hx : s.slot n = some x) (hr : x.record? = some r)
    (hleaving : x.leaving = false) : s.askMove n = s.enqueue (.record r.stop) := by
  unfold State.askMove
  rw [hx]
  simp only [hr]
  exact if_neg (by simp [hleaving])

/-- A stop whose record stands in a slot is found. -/
theorem recOf_of_slot {s : State} {n : Nat} {x : Slot} {r : Record} (hx : s.slot n = some x) (hr : x.record? = some r) :
    ∃ r', s.recOf r.stop = some r' := by
  cases h : s.recOf r.stop with
  | some r' => exact ⟨r', rfl⟩
  | none => exact absurd ⟨x, hx, (slot_holds_iff r.stop x).2 ⟨r, hr, rfl⟩⟩ ((recOf_none_iff s r.stop).1 h n)

end Sys2Proof.Machine

end

