-- ==== Sys2Proof/Proofs/PatrolEnds.lean ====
section
/-! PROOFS. Patrol reads by what they find, and O60. -/

open Sys2Proof Sys2Proof.Machine

namespace Sys2Proof.Machine

/-! ## Patrol reads by what they find (R38, R39, R40) -/

/-- A slot that is not FREE changed: the FREE slots stay. -/
theorem any_isFree_modSlot {s : State} {n : Nat} {x : Slot} (hx : s.slot n = some x) (hused : x.isFree = false) (f : Slot → Slot)
    (h : s.slots.any Slot.isFree = true) : (s.modSlot n f).slots.any Slot.isFree = true := by
  obtain ⟨m, y, hy, hfree⟩ := (any_isFree_iff s).1 h
  refine (any_isFree_iff _).2 ⟨m, y, ?_, hfree⟩
  rw [slot_modSlot_of_ne s _ f]
  · exact hy
  · rintro rfl
    obtain rfl : x = y := Option.some.inj (hx.symm.trans hy)
    rw [hused] at hfree
    cases hfree

theorem modNth_modNth {α : Type} (f g : α → α) : ∀ (xs : List α) (n : Nat), modNth (modNth xs n f) n g = modNth xs n (fun x => g (f x))
  | [], _ => rfl
  | _ :: _, 0 => rfl
  | x :: xs, n + 1 => congrArg (x :: ·) (modNth_modNth f g xs n)

theorem modNth1_modNth1 {α : Type} (xs : List α) (n : Nat) (f g : α → α) :
    modNth1 (modNth1 xs n f) n g = modNth1 xs n (fun x => g (f x)) := by
  unfold modNth1
  split
  · rfl
  · exact modNth_modNth f g xs _

/-- A slot behind a corrected read, its header written anew (R38). -/
def Slot.corrected (x : Slot) : Slot := { x with corr := min 2 (x.corr + 1) }.writeHeader x.headerCond

/-- The state behind a patrol read, before what it found is entered. -/
def State.patrolPassed (s : State) (n : Nat) : State := (s.patrolMove n).landed

theorem patrolEnd_clean (s : State) (n : Nat) : s.patrolEnd n .clean = s.patrolPassed n := rfl

section
variable {s : State} {n : Nat} {x : Slot} {r : Record} (hx : s.slot n = some x) (offset : Nat)
include hx

theorem patrolEnd_corrected : ∃ u, u.slots = (s.modSlot n Slot.corrected).slots
    ∧ u = { s.patrolPassed n with slots := u.slots, captures := s.captures.record n offset }
    ∧ s.patrolEnd n (.corrected offset) = if x.corr == 1 then u.askMove n else u := by
  refine ⟨((s.patrolPassed n).countCorrection n offset).modSlot n (fun x => x.writeHeader x.headerCond), ?_, rfl, ?_⟩
  · show modNth1 (modNth1 s.slots n _) n _ = modNth1 s.slots n _
    exact modNth1_modNth1 s.slots n _ _
  · have hraised : s.raisedToTwo n (.corrected offset) = (x.corr == 1) := by
      unfold State.raisedToTwo
      rw [hx]
    unfold State.patrolEnd
    dsimp only
    rw [hraised]
    rfl

end

section
variable {s : State} {n : Nat} {x : Slot} {r : Record} (ha : s.isActive = true) (hq : s.queue = []) (hf : s.flight = some (.patrol n))
  (hx : s.slot n = some x) (hst : x.st = .inUse (.record r))
include ha hq hf

theorem exec_patrolClean : ∃ t, exec (.patrolReadComplete .clean) s = .next t ∧ t.flight = none ∧ t.slots = s.slots
    ∧ t.captures = s.captures ∧ t.patrolCursor = (s.patrolFrom (n + 1)).getD 1 := by
  have hdone := commit_completed (u := s.patrolPassed n) ha (.inr hq)
  exact ⟨_, exec_patrolEnd ha hf .clean, hdone.flight, hdone.slots, hdone.captures, hdone.patrolCursor⟩

include hx

/-- A corrected read that raises the count to 1. -/
theorem exec_patrolCorrected (offset : Nat) (hcorr : x.corr = 0) : ∃ t, exec (.patrolReadComplete (.corrected offset)) s = .next t
    ∧ t.flight = none ∧ t.slot n = some x.corrected ∧ t.captures.latest = some (n, offset % 256)
    ∧ t.patrolCursor = (s.patrolFrom (n + 1)).getD 1 := by
  obtain ⟨u, hslots, heq, hend⟩ := patrolEnd_corrected hx offset
  have hexec := exec_patrolEnd ha hf (.corrected offset)
  rw [hend, hcorr, if_neg (by decide)] at hexec
  have key : ∀ {α : Type} (g : State → α), g u = g { s.patrolPassed n with slots := u.slots, captures := s.captures.record n offset } :=
    fun g => congrArg g heq
  have hdone := commit_completed (u := u) ((key State.isActive).trans ha) (.inr ((key State.queue).trans hq))
  refine ⟨_, hexec, hdone.flight.trans (key State.flight), ?_, ?_, hdone.patrolCursor.trans (key State.patrolCursor)⟩
  · rw [hdone.slot, slot_of_slots hslots]
    exact slot_modSlot_same hx _
  · rw [hdone.captures, key State.captures]
    rfl

include hst

omit ha hq hf in
/-- A read that asks for the record: a FREE slot takes its write. -/
theorem patrol_asks {u : State} {y : Slot} {f : Slot → Slot} (hua : u.isActive = true) (huq : u.queue = []) (huf : u.flight = none)
    (hslots : u.slots = (s.modSlot n f).slots) (hy : f x = y) (hyst : y.st = x.st) (hleaving : y.leaving = false)
    (hfree : s.slots.any Slot.isFree = true) : (commit (u.askMove n)).slot n = some y
      ∧ (commit (u.askMove n)).patrolCursor = u.patrolCursor ∧ asked (commit (u.askMove n)) (.record r.stop) := by
  have huy : u.slot n = some y := by rw [slot_of_slots hslots, slot_modSlot_same hx, hy]
  have hyr : y.record? = some r := by
    unfold Slot.record?
    rw [hyst, hst]
  obtain ⟨r', hr'⟩ := recOf_of_slot huy hyr
  have hused : x.isFree = false := by
    unfold Slot.isFree
    rw [hst]
  have hufree : u.slots.any Slot.isFree = true := by
    rw [hslots]
    exact any_isFree_modSlot hx hused f hfree
  rw [askMove_record huy hyr hleaving]
  obtain ⟨h1, h2, h3⟩ := commit_oneEntry (u := u.enqueue (.record r.stop)) (stop := r.stop) (r := r')
    ((isActive_of_phase (enqueue_phase ..)).trans hua) ((enqueue_flight ..).trans huf) (by rw [queue_enqueue, huq]; rfl)
    ((recOf_of_slots (enqueue_slots ..) _).trans hr') (by rw [enqueue_slots]; exact hufree)
  exact ⟨(slot_of_slots (h1.trans (enqueue_slots ..)) n).trans huy, h2.trans (enqueue_patrolCursor ..), h3⟩

/-- A corrected read that raises the count to 2. -/
theorem exec_patrolRaised (offset : Nat) (hcorr : x.corr = 1) (hleaving : x.leaving = false) (hfree : s.slots.any Slot.isFree = true) :
    ∃ t, exec (.patrolReadComplete (.corrected offset)) s = .next t ∧ t.slot n = some x.corrected := by
  obtain ⟨u, hslots, heq, hend⟩ := patrolEnd_corrected hx offset
  have hexec := exec_patrolEnd ha hf (.corrected offset)
  rw [hend, hcorr, if_pos (by decide)] at hexec
  have key : ∀ {α : Type} (g : State → α), g u = g { s.patrolPassed n with slots := u.slots, captures := s.captures.record n offset } :=
    fun g => congrArg g heq
  exact ⟨_, hexec, (patrol_asks hx hst ((key State.isActive).trans ha) ((key State.queue).trans hq) (key State.flight) hslots rfl rfl
    hleaving hfree).1⟩

/-- A read that cannot be corrected. -/
theorem exec_patrolLost (hleaving : x.leaving = false) (hfree : s.slots.any Slot.isFree = true) :
    ∃ t, exec (.patrolReadComplete .uncorrectable) s = .next t ∧ t.slot n = some { x with relocate := true }
      ∧ asked t (.record r.stop) ∧ t.patrolCursor = (s.patrolFrom (n + 1)).getD 1 := by
  have hexec := exec_patrolEnd ha hf .uncorrectable
  obtain ⟨h1, h2, h3⟩ := patrol_asks (u := (s.patrolPassed n).modSlot n (fun x => { x with relocate := true })) hx hst ha hq rfl rfl
    rfl rfl hleaving hfree
  exact ⟨_, hexec, h1, h3, h2⟩

end

end Sys2Proof.Machine

/-- Settles O60: where the patrol goes, and what its reads leave. -/
theorem patrolReads : Obligations.PatrolReads := by
  refine ⟨patrolFrom_spec, fun s ha hs hm hq hf => ⟨fun n hn => ⟨exec_patrolBegins ha hs hm hq hf hn, ((patrolFrom_spec s _).2 n hn).1⟩,
    exec_patrolRests ha hs hm hq hf⟩, fun n x r s ha hq hf hx hst => ⟨exec_patrolClean ha hq hf, fun offset hcorr => ?_,
      fun offset hcorr hleaving hfree => ?_, fun hleaving hfree => ?_⟩⟩
  · obtain ⟨t, ht, hflight, hslot, hlatest, hcursor⟩ := exec_patrolCorrected ha hq hf hx offset hcorr
    have hone : x.corrected.corr = 1 := by
      show min 2 (x.corr + 1) = 1
      rw [hcorr]
      rfl
    refine ⟨t, _, ht, hflight, hslot, hone, rfl, rfl, fun h hmajority => ?_, hlatest, hcursor⟩
    have hcond : x.headerCond = h.cond := by
      unfold Slot.headerCond
      rw [hmajority]
      rfl
    unfold Slot.corrected Slot.writeHeader
    rw [hcond, hcorr]
    rfl
  · obtain ⟨t, ht, hslot⟩ := exec_patrolRaised ha hq hf hx hst offset hcorr hleaving hfree
    refine ⟨t, _, ht, hslot, ?_, rfl⟩
    show min 2 (x.corr + 1) = 2
    rw [hcorr]
    rfl
  · obtain ⟨t, ht, hslot, hasked, hcursor⟩ := exec_patrolLost ha hq hf hx hst hleaving hfree
    exact ⟨t, _, ht, hslot, rfl, rfl, hasked, hcursor⟩
end

