-- ==== Sys2Proof/Proofs/RestartPath.lean ====
section
/-! PROOFS. The restart path's end, and POWER-FAIL on it. -/

open Sys2Proof Sys2Proof.Machine

namespace Sys2Proof.Machine

/-! ## The restart path: its end, and POWER-FAIL on it (R181, R183) -/

theorem take_congr {s u : State} (h : s.comesUp = u.comesUp) (w : CmdWord) (judge : State → Except Code Taken) :
    take w judge s = take w judge u := by
  rw [take, take, h]

/-- Every row but POWER_FAIL_ASSERTED begins with the restart's last step (log 44). -/
theorem exec_congr_comesUp {s u : State} (h : s.comesUp = u.comesUp) {i : Instr} (hi : i ≠ .powerFailAsserted) : exec i s = exec i u := by
  cases i
  case powerFailAsserted => exact absurd rfl hi
  case ordNew | ordDrop | ordDropClear | ordGet | ordFind | ordList | ordAmend | ordHold | ordRelease | ordCancel | ordRetire |
    tktGet | tktIssue | lnArm | lnDisarm | lnStart | lnNext | lnResume | lnPause | lnEnddrop | lnClose | lnRunPrime |
    lnRunProve | lnSetup | lnAck | lnStat | cmpLoad | cmpGet | hoseEmpty | prdPut | prdGet | setPut | setGet | calPutPr |
    calPutHose | calPutSet | calPutAlpha | calPutComp | calPutCap | calGet | rteOpen | rteClose | rteTotals | clkSet | clkGet |
    status | ident | store | capClear =>
    exact take_congr h _ _
  all_goals simp only [exec, activeEvent, event, h,
    execCommandLine, execLineGapTimeout, execReplyLineSent, execBreakBegin, execLinkReset, execLinkWake, execPulserEdge,
    execPhaseError, execPeriodOverflow, execQuietTimerExpiry, execTemperatureSample, execWindowExpiry, execStepExpiry, execSettleExpiry,
    execNoFlowExpiry, execDeadmanExpiry, execAutoCloseExpiry, execCheckpointExpiry, execPermitDeasserted, execPermitAsserted,
    execIgnitionLow, execIgnitionHigh, execAirAsserted, execAirDeasserted, execDeadmanPress, execSealOpens, execSealCloses,
    execFlushDeadline, execPowerOnRestart, execSleepEntry, execClockTick, execRecordWriteComplete, execBlockWriteComplete,
    execReleaseComplete, execPatrolIdleExpiry, execPatrolReadComplete, execCharacterReceived, execBreakEnd, execDeadmanRelease]

theorem comesUp_setActive {s : State} (h : s.phase = .restart) : s.comesUp = ({ s with phase := .active } : State).comesUp :=
  comesUp_restart s h

theorem tick_restart {s : State} (h : s.phase = .restart) : tick s = tick { s with phase := .active } := by
  rw [tick, h]
  show s.comesUp.passActive = State.passActive _
  rw [comesUp_restart s h]

theorem step_restart {s : State} (h : s.phase = .restart) (hp : s.pending = []) : step s = step { s with phase := .active } := by
  have hidle : ∀ u : State, u.pending = [] → step u = .next (tick u) := by
    intro u hu
    rw [step, hu]
  exact (hidle s hp).trans ((congrArg Host.Outcome.next (tick_restart h)).trans (hidle { s with phase := .active } hp).symm)

section
variable {s : State} (h : s.phase = .restart)
include h

theorem exec_powerFail_restart : exec .powerFailAsserted s
    = .next (commit ({ s with inputs := { s.inputs with powerFail := true } } : State).stopRestart) := by
  show execPowerFailAsserted s = _
  rw [execPowerFailAsserted, State.powerFails, h]

theorem exec_powerFail_restartBusy (hf : s.flight.isSome = true) : exec .powerFailAsserted s = .next { s with
    inputs := { s.inputs with powerFail := true }, queue := [], cmd := none, tx := [], rx := .waiting
    phase := .flush ⟨.powerFail none, 0, false, false, true⟩ } := by
  rw [exec_powerFail_restart h]
  exact congrArg Host.Outcome.next (commit_flushBusy (v := ({ s with inputs := { s.inputs with powerFail := true } } : State).stopRestart) rfl hf)

theorem exec_powerFail_restartIdle (hf : s.flight = none) : exec .powerFailAsserted s = .next { s with
    inputs := { s.inputs with powerFail := true }, queue := [], cmd := none, tx := [], rx := .waiting, phase := .hold } := by
  obtain ⟨v, hv⟩ : ∃ v, v = ({ s with inputs := { s.inputs with powerFail := true } } : State).stopRestart := ⟨_, rfl⟩
  have hidle : v.runStore = v := runStore_settled v (.inr (by rw [hv]; rfl))
  have hnone : v.flight = none := by rw [hv]; exact hf
  rw [exec_powerFail_restart h, ← hv, commit_flushHolds (v := v) (by rw [hv]; rfl) rfl (by rw [hidle]; exact hnone), hidle, hv,
    State.holdInReset, State.stopRestart]
  dsimp only
  rw [hf]

end

/-! ## The completion that a stopped restart waits for (R181) -/

theorem runStore_only {v : State} {f : Flush} (hp : v.phase = .flush f) (h : f.only = true) : v.runStore = v := by
  unfold State.runStore storeRun
  split
  · exact if_neg (by simp [State.mayTake, hp, h])
  · rfl

/-- The operation in flight completes and verifies. -/
theorem exec_verifies {i : Instr} {s : State} {f : Flush} (hp : s.phase = .flush f)
    (hi : (∃ w, s.flight = some (.record w) ∧ i = .recordWriteComplete .clean true)
      ∨ (∃ b second, s.flight = some (.block b second) ∧ i = .blockWriteComplete true)
      ∨ ∃ n, s.flight = some (.release n) ∧ i = .releaseComplete) :
    ∃ u, exec i s = .next (commit u) ∧ u.phase = .flush f ∧ u.flight = none := by
  have hup : s.isUp = false := by simp [State.isUp, hp]
  rcases hi with ⟨w, hf, rfl⟩ | ⟨b, second, hf, rfl⟩ | ⟨n, hf, rfl⟩
  · refine ⟨s.recordWriteEnd w .clean true, ?_, (Lawful.recordWriteEnd s w .clean true).phase.trans hp, ?_⟩
    · show execRecordWriteComplete .clean true s = _
      rw [execRecordWriteComplete, event, comesUp_flush hp]
      simp only [hf]
    · exact recordVerified_down (s := s.countRead w.target .clean) hup w _
  · refine ⟨s.blockWriteEnd b second true, ?_, (Lawful.blockWriteEnd s b second true hf).phase.trans hp, rfl⟩
    show execBlockWriteComplete true s = _
    rw [execBlockWriteComplete, event, comesUp_flush hp]
    simp only [hf]
  · refine ⟨s.releaseEnd n, ?_, (Lawful.releaseEnd s n).phase.trans hp, releaseEnd_flight s n⟩
    show execReleaseComplete s = _
    rw [execReleaseComplete, event, comesUp_flush hp]
    simp only [hf]

/-- The flush that stopped a restart takes no further entry: its one completion ends it in the hold. -/
theorem exec_stoppedHolds {i : Instr} {s : State} {f : Flush} (hp : s.phase = .flush f) (hk : f.kind = .powerFail none) (ho : f.only = true)
    (hi : (∃ w, s.flight = some (.record w) ∧ i = .recordWriteComplete .clean true)
      ∨ (∃ b second, s.flight = some (.block b second) ∧ i = .blockWriteComplete true)
      ∨ ∃ n, s.flight = some (.release n) ∧ i = .releaseComplete) :
    ∃ t, exec i s = .next t ∧ t.phase = .hold ∧ t.flight = none ∧ t.queue = [] := by
  obtain ⟨u, hexec, huphase, huflight⟩ := exec_verifies hp hi
  have hsame := runStore_only huphase ho
  rw [commit_flushHolds huphase hk (by rw [hsame]; exact huflight)] at hexec
  exact ⟨_, hexec, rfl, rfl, rfl⟩

end Sys2Proof.Machine
end

