-- ==== Sys2Proof/Proofs/HomesBehindRecords.lean ====
section
/-! PROOFS. Slots behind changes of the records they hold, and an entry's beginning case by case. -/

open Sys2Proof Sys2Proof.Machine

namespace Sys2Proof.Machine

/-! ## Slots behind changes of the records they hold -/

/-- A slot that holds no record is as it was; another holds a record of the same stop. -/
def Slot.sameHome (x y : Slot) : Prop := (x.record? = none → y = x) ∧ ∀ stop, y.holds stop = x.holds stop

/-- Every slot holds what it held. -/
structure HomesKept (s u : State) : Prop where
  absent : ∀ n, s.slot n = none → u.slot n = none
  present : ∀ n x, s.slot n = some x → ∃ y, u.slot n = some y ∧ x.sameHome y

namespace HomesKept
variable {s u v : State}

theorem of_slots (h : u.slots = s.slots) : HomesKept s u :=
  ⟨fun n hn => (slot_of_slots h n).trans hn, fun n x hx => ⟨x, (slot_of_slots h n).trans hx, fun _ => rfl, fun _ => rfl⟩⟩

theorem holds_same {x y : Slot} (h : x.sameHome y) (hx : x.record? = none) : y.record? = none := by rw [h.1 hx]; exact hx

theorem trans (h : HomesKept s u) (k : HomesKept u v) : HomesKept s v := by
  refine ⟨fun n hn => k.absent n (h.absent n hn), fun n x hx => ?_⟩
  obtain ⟨y, hy, hxy⟩ := h.present n x hx
  obtain ⟨z, hz, hyz⟩ := k.present n y hy
  exact ⟨z, hz, fun hr => (hyz.1 (holds_same hxy hr)).trans (hxy.1 hr), fun m => (hyz.2 m).trans (hxy.2 m)⟩

theorem isHome_iff (h : HomesKept s u) (n stop : Nat) : u.isHome n stop ↔ s.isHome n stop := by
  constructor
  · rintro ⟨y, hy, hholds⟩
    cases hx : s.slot n with
    | none => rw [h.absent n hx] at hy; cases hy
    | some x =>
      obtain ⟨z, hz, hxz⟩ := h.present n x hx
      obtain rfl := Option.some.inj (hz.symm.trans hy)
      exact ⟨x, hx, (hxz.2 stop).symm.trans hholds⟩
  · rintro ⟨x, hx, hholds⟩
    obtain ⟨y, hy, hxy⟩ := h.present n x hx
    exact ⟨y, hy, (hxy.2 stop).trans hholds⟩

theorem homeOf (h : HomesKept s u) (stop : Nat) : u.homeOf stop = s.homeOf stop := homeOf_congr fun n => h.isHome_iff n stop

theorem modRec (s : State) (m : Nat) {f : Record → Record} (hf : ∀ r, (f r).stop = r.stop) : HomesKept s (s.modRec m f) := by
  refine ⟨fun n hn => by rw [slot_modRec, hn]; rfl, fun n x hx => ⟨x.modRecord m f, by rw [slot_modRec, hx]; rfl, fun hr => ?_,
    fun stop => holds_modRecord m f hf x stop⟩⟩
  unfold Slot.record? at hr
  unfold Slot.modRecord
  split
  · next r h => simp [h] at hr
  · next r h => simp [h] at hr
  · rfl

theorem changeRec (s : State) (m : Nat) {f : Record → Record} (hf : ∀ r, (f r).stop = r.stop) : HomesKept s (s.changeRec m f) :=
  (modRec s m hf).trans (.of_slots (enqueue_slots ..))

/-- A home condemned holds its record still (R43). -/
theorem condemn {stop home : Nat} {r : Record} (hhome : s.homeOf stop = some home) (hr : s.recOf stop = some r) :
    HomesKept s (s.modSlot home (Slot.condemn r)) := by
  obtain ⟨x, hx, hxr, -⟩ := record?_of_homeOf s stop home r hhome hr
  constructor
  · intro n hn
    rw [slot_modSlot]
    split
    · rw [hn]; rfl
    · exact hn
  · intro n y hy
    by_cases hn : n = home
    · subst hn
      obtain rfl := Option.some.inj (hx.symm.trans hy)
      refine ⟨_, slot_modSlot_same hx _, fun h => ?_, fun m => ?_⟩
      · rw [hxr] at h; cases h
      · simp [Slot.holds, hxr]
    · exact ⟨y, (slot_modSlot_of_ne s hn _).trans hy, fun _ => rfl, fun _ => rfl⟩

end HomesKept

/-! ## An entry's beginning, case by case (R33, R43) -/

/-- An entry begins its operation, has no record left, or its record's home is condemned and the record is unsaved. -/
inductive Begins (s : State) (k : Key) : State → Prop where
  | flies {f : Flight} (hf : flightIs k (some f)) : Begins s k { s with flight := some f }
  | gone {stop : Nat} (hk : k = .record stop) (hr : s.recOf stop = none) : Begins s k s
  | lost {stop home : Nat} {r : Record} (hk : k = .record stop) (hhome : s.homeOf stop = some home) (hr : s.recOf stop = some r) :
      Begins s k ((s.modSlot home (Slot.condemn r)).becomeUnsaved stop)

theorem begins_beginKey (s : State) (k : Key) : Begins s k (s.beginKey k) := by
  cases k with
  | block b => exact .flies (by cases b <;> trivial)
  | release n => exact .flies rfl
  | record stop =>
    show Begins s _ (s.beginRecord stop)
    cases hr : s.recOf stop with
    | none =>
      have hsame : s.beginRecord stop = s := by
        unfold State.beginRecord
        rw [hr]
        split
        · next h => cases h
        · rfl
      rw [hsame]
      exact .gone rfl hr
    | some r =>
      obtain ⟨home, r', x, hhome, hr', hx⟩ := startable_record s stop r hr
      have hstop : r.stop = stop := recOf_stop s stop r hr
      unfold State.beginRecord
      rw [hhome, hr]
      simp only [hx]
      split
      · exact .flies hstop
      · split
        · exact .flies hstop
        · exact .lost rfl hhome hr

/-! ## A line told that its record is unsaved, on the restart path (R119, log 46) -/

/-- A paused line's context where its record may be unsaved: the cause is then STORE. -/
def LineCtx.heard (unsaved : List Nat) (c : LineCtx) : LineCtx :=
  match c.bound with
  | some stop => if stop ∈ unsaved then { c with cause := some .store } else c
  | none => c

theorem LineCtx.heard_bound (unsaved : List Nat) (c : LineCtx) : (c.heard unsaved).bound = c.bound := by
  unfold LineCtx.heard
  split
  · split <;> rfl
  · rfl

theorem LineCtx.heard_st (unsaved : List Nat) (c : LineCtx) : (c.heard unsaved).st = c.st := by
  unfold LineCtx.heard
  split
  · split <;> rfl
  · rfl

theorem LineCtx.heard_unbound {unsaved : List Nat} {c : LineCtx} (h : c.bound = none) : c.heard unsaved = c := by
  unfold LineCtx.heard
  rw [h]

theorem LineCtx.heard_of_not_mem {unsaved : List Nat} {c : LineCtx} {stop : Nat} (h : c.bound = some stop) (hn : stop ∉ unsaved) :
    c.heard unsaved = c := by
  simp [LineCtx.heard, h, hn]

theorem LineCtx.heard_of_mem {unsaved : List Nat} {c : LineCtx} {stop : Nat} (h : c.bound = some stop) (hm : stop ∈ unsaved) :
    c.heard unsaved = { c with cause := some .store } := by
  simp [LineCtx.heard, h, hm]

end Sys2Proof.Machine
end

