-- ==== Sys2Proof/Proofs/StoreOnPath.lean ====
section
/-! PROOFS. The store's run on the restart path. -/

open Sys2Proof Sys2Proof.Machine

namespace Sys2Proof.Machine

/-- A line's context with the cause STORE. -/
def LineCtx.causeStore (c : LineCtx) : LineCtx := { c with cause := some .store }

theorem LineCtx.heard_append (unsaved : List Nat) (stop : Nat) (c : LineCtx) :
    c.heard (unsaved ++ [stop]) = if c.bound = some stop then (c.heard unsaved).causeStore else c.heard unsaved := by
  cases hb : c.bound with
  | none => rw [heard_unbound hb, heard_unbound hb, if_neg nofun]
  | some m =>
    by_cases hm : m = stop
    · subst hm
      rw [if_pos rfl, heard_of_mem hb (by simp)]
      by_cases hu : m ∈ unsaved
      · rw [heard_of_mem hb hu]
        rfl
      · rw [heard_of_not_mem hb hu]
        rfl
    · rw [if_neg (by simpa using hm)]
      by_cases hu : m ∈ unsaved
      · rw [heard_of_mem hb hu, heard_of_mem hb (by simp [hu])]
      · rw [heard_of_not_mem hb hu, heard_of_not_mem hb (by simp [hu, hm])]

/-- Every line that holds a record stands in PAUSED, and no record is held by both. -/
structure State.Restored (s : State) : Prop where
  paused : ∀ l stop, (s.line l).bound = some stop → (s.line l).st = .paused
  apart : ∀ stop, (s.line .one).bound = some stop → (s.line .two).bound ≠ some stop

theorem State.Restored.of_lines {s u : State} (h : s.Restored) (hl : ∀ l, (u.line l).bound = (s.line l).bound ∧ (u.line l).st = (s.line l).st) :
    u.Restored :=
  ⟨fun l stop hb => (hl l).2.trans (h.paused l stop ((hl l).1.symm.trans hb)),
    fun stop hb hc => h.apart stop ((hl .one).1.symm.trans hb) ((hl .two).1.symm.trans hc)⟩

section
variable {s : State} (hup : s.isUp = true) (h : s.Restored)
include hup h

theorem tellBound_restored (stop : Nat) (l : Line) : (s.tellBound stop State.lineUnsaved).line l
    = if (s.line l).bound = some stop then (s.line l).causeStore else s.line l := by
  have hpaused : ∀ k, (s.line k).bound = some stop → s.lineUnsaved k = s.modLine k LineCtx.causeStore := by
    intro k hk
    rw [State.lineUnsaved, h.paused k stop hk]
    rfl
  have htell : s.tellBound stop State.lineUnsaved = if (s.line .one).bound = some stop then s.lineUnsaved .one
      else if (s.line .two).bound = some stop then s.lineUnsaved .two else s := if_pos hup
  rw [htell]
  by_cases hone : (s.line .one).bound = some stop
  · rw [if_pos hone, hpaused .one hone]
    cases l with
    | one => rw [if_pos hone, line_modLine_same]
    | two => rw [if_neg (h.apart stop hone), line_modLine_of_ne s _ (show Line.two ≠ .one by decide)]
  · rw [if_neg hone]
    by_cases htwo : (s.line .two).bound = some stop
    · rw [if_pos htwo, hpaused .two htwo]
      cases l with
      | one => rw [if_neg hone, line_modLine_of_ne s _ (show Line.one ≠ .two by decide)]
      | two => rw [if_pos htwo, line_modLine_same]
    · rw [if_neg htwo]
      cases l with
      | one => rw [if_neg hone]
      | two => rw [if_neg htwo]

end

/-! ## The store's run on the restart path (R33, R43, R119) -/

theorem isSome_of_flightIs {k : Key} {f : Option Flight} (h : flightIs k f) : f.isSome = true := by
  cases f with
  | some x => rfl
  | none => simp [flightIs] at h

/-- What the store's taking of entries keeps of a restart's state `b` in which nothing is unsaved. -/
structure KeptUp (b u : State) : Prop where
  up : u.isUp = true
  homes : HomesKept b u
  recs : ∀ n, u.recOf n = b.recOf n
  line : ∀ l, (u.line l).core = (b.line l).core.heard u.unsaved

namespace KeptUp
variable {b u v : State}

theorem refl (hup : b.isUp = true) (hnone : b.unsaved = []) : KeptUp b b := by
  refine ⟨hup, .of_slots rfl, fun _ => rfl, fun l => ?_⟩
  rw [hnone]
  cases hb : (b.line l).core.bound with
  | none => exact (LineCtx.heard_unbound hb).symm
  | some stop => exact (LineCtx.heard_of_not_mem hb List.not_mem_nil).symm

theorem restored (h : KeptUp b u) (hb : b.Restored) : u.Restored := by
  refine hb.of_lines fun l => ⟨?_, ?_⟩
  · exact (congrArg LineCtx.bound (h.line l)).trans (LineCtx.heard_bound ..)
  · exact (congrArg LineCtx.st (h.line l)).trans (LineCtx.heard_st ..)

/-- A change that leaves the slots, the lists of what is unsaved, the path and the lines but for their waiters. -/
theorem step (h : KeptUp b u) (hphase : v.phase = u.phase) (hslots : v.slots = u.slots) (hunsaved : v.unsaved = u.unsaved)
    (hcore : ∀ l, (v.line l).core = (u.line l).core) : KeptUp b v :=
  ⟨(isUp_of_phase hphase).trans h.up, h.homes.trans (.of_slots hslots), fun n => (recOf_of_slots hslots n).trans (h.recs n),
    fun l => (hcore l).trans ((h.line l).trans (by rw [hunsaved]))⟩

theorem mapWaiters (h : KeptUp b u) (f : Waiter → Waiter) : KeptUp b (u.mapWaiters f) :=
  h.step rfl rfl rfl fun l => by cases l <;> rfl

theorem condemn (h : KeptUp b u) {stop home : Nat} {r : Record} (hhome : u.homeOf stop = some home) (hr : u.recOf stop = some r) :
    KeptUp b (u.modSlot home (Slot.condemn r)) :=
  ⟨h.up, h.homes.trans (.condemn hhome hr), fun n => (recOf_condemn u stop home r hhome hr n).trans (h.recs n), h.line⟩

theorem becomeUnsaved (h : KeptUp b u) (hb : b.Restored) (stop : Nat) :
    KeptUp b (u.becomeUnsaved stop) ∧ stop ∈ (u.becomeUnsaved stop).unsaved ∧ ∀ n ∈ u.unsaved, n ∈ (u.becomeUnsaved stop).unsaved := by
  cases hu : u.isUnsaved stop with
  | true =>
    have hsame : u.becomeUnsaved stop = u := if_pos hu
    rw [hsame]
    exact ⟨h, List.contains_iff_mem.1 hu, fun _ hn => hn⟩
  | false =>
    have hunsaved := unsaved_becomeUnsaved hu
    have hkeeps := StoreKeeps.becomeUnsaved u stop
    have htells : u.becomeUnsaved stop = ({ u with unsaved := u.unsaved ++ [stop] } : State).tellBound stop State.lineUnsaved :=
      if_neg (by simp [hu])
    have hslots : (u.becomeUnsaved stop).slots = u.slots := by rw [becomeUnsaved_eq]
    refine ⟨⟨(isUp_of_phase hkeeps.phase).trans h.up, h.homes.trans (.of_slots hslots),
      fun n => (hkeeps.recOf n).trans (h.recs n), fun l => ?_⟩, by rw [hunsaved]; simp, fun n hn => by rw [hunsaved]; simp [hn]⟩
    have hline : (u.becomeUnsaved stop).line l = if (u.line l).bound = some stop then (u.line l).causeStore else u.line l := by
      rw [htells]
      exact tellBound_restored (s := { u with unsaved := u.unsaved ++ [stop] }) h.up
        ((h.restored hb).of_lines fun _ => ⟨rfl, rfl⟩) stop l
    have hbound : (u.line l).bound = (b.line l).core.bound :=
      (congrArg LineCtx.bound (h.line l)).trans (LineCtx.heard_bound ..)
    rw [hunsaved, LineCtx.heard_append, hline, ← h.line l, hbound]
    split
    · rfl
    · rfl

/-- The first entry taken: it flies, or its record is unsaved or gone. -/
theorem takeEntry (h : KeptUp b u) (hb : b.Restored) (k : Key) (q : List Key) : KeptUp b (u.takeEntry k q)
    ∧ (∀ n ∈ u.unsaved, n ∈ (u.takeEntry k q).unsaved)
    ∧ (asked (u.takeEntry k q) k ∨ ∃ stop, k = .record stop ∧ (stop ∈ (u.takeEntry k q).unsaved ∨ b.recOf stop = none)) := by
  obtain ⟨a, ha⟩ : ∃ a : State, a = ({ u with queue := q, patrolIdle := 0 } : State).mapWaiters (Waiter.begun k) := ⟨_, rfl⟩
  have hka : KeptUp b a := by
    rw [ha]
    exact (h.step (v := { u with queue := q, patrolIdle := 0 }) rfl rfl rfl fun _ => rfl).mapWaiters _
  have hua : a.unsaved = u.unsaved := by rw [ha]; rfl
  obtain ⟨x, hx⟩ : ∃ x, x = a.beginKey k := ⟨_, rfl⟩
  have hbegins : Begins a k x := by rw [hx]; exact begins_beginKey a k
  have htake : u.takeEntry k q = if x.flight.isNone then x.mapWaiters Waiter.landed else x := by
    rw [hx, ha]
    rfl
  have hends : KeptUp b x → KeptUp b (u.takeEntry k q) := by
    intro hk
    rw [htake]
    split
    · exact hk.mapWaiters _
    · exact hk
  have hunsaved : (u.takeEntry k q).unsaved = x.unsaved := by
    rw [htake]
    split <;> rfl
  rw [hunsaved, ← hua]
  cases hbegins with
  | flies hf =>
    have hfly : (u.takeEntry k q).flight = some _ := (congrArg State.flight htake).trans rfl
    exact ⟨hends (hka.step rfl rfl rfl fun _ => rfl), fun _ hn => hn, .inl (.inr (by rw [hfly]; exact hf))⟩
  | gone hk hr => exact ⟨hends hka, fun _ hn => hn, .inr ⟨_, hk, .inr ((hka.recs _).symm.trans hr)⟩⟩
  | lost hk hhome hr =>
    obtain ⟨h1, h2, h3⟩ := (hka.condemn hhome hr).becomeUnsaved hb _
    exact ⟨hends h1, h3, .inr ⟨_, hk, .inl h2⟩⟩

/-- What every entry of the queue comes to: it waits or flies, or its record is unsaved or gone. -/
theorem storeRun (hb : b.Restored) : ∀ (n : Nat) (u : State), KeptUp b u → KeptUp b (Machine.storeRun n u)
    ∧ (∀ m ∈ u.unsaved, m ∈ (Machine.storeRun n u).unsaved)
    ∧ ∀ k ∈ u.queue, asked (Machine.storeRun n u) k
        ∨ ∃ stop, k = .record stop ∧ (stop ∈ (Machine.storeRun n u).unsaved ∨ b.recOf stop = none)
  | 0, u, h => ⟨h, fun _ hm => hm, fun k hk => .inl (.inl hk)⟩
  | n + 1, u, h => by
    cases hf : u.flight with
    | some f =>
      rw [storeRun_busy (by rw [hf]; rfl)]
      exact ⟨h, fun _ hm => hm, fun k hk => .inl (.inl hk)⟩
    | none =>
      cases hq : u.queue with
      | nil =>
        have hsame : Machine.storeRun (n + 1) u = u := by
          rw [Machine.storeRun, hf, hq]
        rw [hsame]
        exact ⟨h, fun _ hm => hm, nofun⟩
      | cons k q =>
        have hstep : Machine.storeRun (n + 1) u = Machine.storeRun n (u.takeEntry k q) := by
          rw [Machine.storeRun, hf, hq]
          exact if_pos (mayTake_of_isUp h.up _)
        obtain ⟨hkept, hmore, hfirst⟩ := h.takeEntry hb k q
        obtain ⟨hrest, hmore', hall⟩ := storeRun hb n (u.takeEntry k q) hkept
        rw [hstep]
        refine ⟨hrest, fun m hm => hmore' m (hmore m hm), fun j hj => ?_⟩
        rcases List.mem_cons.1 hj with rfl | hj
        · rcases hfirst with (hqueued | hflies) | ⟨stop, hk, hlost | hgone⟩
          · exact hall j hqueued
          · rw [storeRun_busy (isSome_of_flightIs hflies)]
            exact .inl (.inr hflies)
          · exact .inr ⟨stop, hk, .inl (hmore' stop hlost)⟩
          · exact .inr ⟨stop, hk, .inr hgone⟩
        · exact hall j (by rw [queue_takeEntry]; exact hj)

end KeptUp

end Sys2Proof.Machine
end

