-- ==== Sys2Proof/Proofs/ScanLeaves.lean ====
section
/-! PROOFS. What the scan of a restart finds and leaves. -/

open Sys2Proof Sys2Proof.Machine

namespace Sys2Proof.Machine

/-! ## What the scan finds and leaves in a slot (R47, R48) -/

/-- The header a slot's read gives. -/
def headerRead (reads : List SlotReads) (n : Nat) (x : Slot) : Option Header :=
  Headers.majority ((readsOf n reads).headers.getD x.headers)

/-- What the scan finds in slot `n`. -/
def foundAt (reads : List SlotReads) (n : Nat) (x : Slot) : Found := (scanSlot n reads x).2

theorem foundAt_eq (reads : List SlotReads) (n : Nat) (x : Slot) :
    foundAt reads n x = foundIn x (headerRead reads n x) (readsOf n reads) := rfl

section
variable {reads : List SlotReads} {n : Nat} {x : Slot} {h : Header}

theorem foundAt_none (hh : headerRead reads n x = none) : foundAt reads n x = .retired := by
  rw [foundAt_eq, hh]
  rfl

theorem foundAt_free (hh : headerRead reads n x = some h) (hc : h.cond = .free) : foundAt reads n x = .free := by
  rw [foundAt_eq, hh, foundIn, hc]

theorem foundAt_retired (hh : headerRead reads n x = some h) (hc : h.cond = .retired) : foundAt reads n x = .retired := by
  rw [foundAt_eq, hh, foundIn, hc]

theorem foundAt_uncorrectable {stop seq : Nat} (hh : headerRead reads n x = some h) (hc : h.cond = .inUse stop seq)
    (hr : (readsOf n reads).content = .uncorrectable) : foundAt reads n x = .damaged stop (readsOf n reads).account seq := by
  rw [foundAt_eq, hh]
  simp only [foundIn, hc, hr]

theorem foundAt_good_iff {c : Record} {q : Nat} : foundAt reads n x = .good c q
    ↔ x.content = some c ∧ (readsOf n reads).content ≠ .uncorrectable
      ∧ ∃ h stop, headerRead reads n x = some h ∧ h.cond = .inUse stop q := by
  rw [foundAt_eq]
  cases hh : headerRead reads n x with
  | none => simp [foundIn]
  | some h =>
    cases hc : h.cond with
    | free => simp [foundIn, hc]
    | retired => simp [foundIn, hc]
    | inUse stop seq =>
      cases hr : (readsOf n reads).content <;> cases hx : x.content <;> simp [foundIn, hc, hr, hx, and_comm]

end

theorem goodCopy_iff (reads : List SlotReads) (s : State) (n : Nat) (c : Record) (q : Nat) :
    goodCopy reads s n c q ↔ ∃ x, s.slot n = some x ∧ foundAt reads n x = .good c q := by
  constructor
  · rintro ⟨x, h, stop, hx, hcontent, hread, hmaj, hcond⟩
    exact ⟨x, hx, foundAt_good_iff.2 ⟨hcontent, hread, h, stop, hmaj, hcond⟩⟩
  · rintro ⟨x, hx, hfound⟩
    obtain ⟨hcontent, hread, h, stop, hmaj, hcond⟩ := foundAt_good_iff.1 hfound
    exact ⟨x, h, stop, hx, hcontent, hread, hmaj, hcond⟩

/-- A slot holds one good copy at most. -/
theorem goodCopy_unique {reads : List SlotReads} {s : State} {n : Nat} {c d : Record} {q p : Nat} (h : goodCopy reads s n c q)
    (k : goodCopy reads s n d p) : d = c ∧ p = q := by
  obtain ⟨x, hx, hf⟩ := (goodCopy_iff ..).1 h
  obtain ⟨y, hy, hg⟩ := (goodCopy_iff ..).1 k
  obtain rfl := Option.some.inj (hx.symm.trans hy)
  exact (Found.good.inj (hf.symm.trans hg)).imp Eq.symm Eq.symm

theorem slot_pos {s : State} {n : Nat} {x : Slot} (h : s.slot n = some x) : ∃ i, n = i + 1 ∧ s.slots[i]? = some x := by
  cases n with
  | zero => simp at h
  | succ i => exact ⟨i, rfl, (slot_succ s i).symm.trans h⟩

/-- Some good copy of a stop stands before one of a sequence number in slot `n`. -/
theorem newerGood_scanned (reads : List SlotReads) (s : State) (stop seq n : Nat) :
    newerGood stop seq n 1 (scanSlots reads 1 s.slots) = true
      ↔ ∃ m d q, goodCopy reads s m d q ∧ d.stop = stop ∧ (seq < q ∨ (seq = q ∧ m < n)) := by
  rw [newerGood_iff]
  constructor
  · rintro ⟨i, x, r, q, hi, hstop, hq⟩
    rw [getElem?_scanSlots] at hi
    obtain ⟨y, hy, he⟩ := Option.map_eq_some_iff.1 hi
    have hfound : foundAt reads (1 + i) y = .good r q := congrArg Prod.snd he
    refine ⟨1 + i, r, q, (goodCopy_iff ..).2 ⟨y, ?_, hfound⟩, hstop, hq⟩
    rw [Nat.add_comm, slot_succ, hy]
  · rintro ⟨m, d, q, hgood, hstop, hq⟩
    obtain ⟨y, hy, hfound⟩ := (goodCopy_iff ..).1 hgood
    obtain ⟨i, rfl, hi⟩ := slot_pos hy
    refine ⟨i, (scanSlot (i + 1) reads y).1, d, q, ?_, hstop, by omega⟩
    rw [getElem?_scanSlots, hi, Nat.add_comm 1 i]
    exact congrArg some (Prod.ext rfl hfound)

/-- The copy that becomes the record is the good one that the scan puts no other before (R48, log 51). -/
theorem newestCopy_iff (reads : List SlotReads) (s : State) (n : Nat) (c : Record) (q : Nat) :
    newestCopy reads s n c q ↔ goodCopy reads s n c q ∧ newerGood c.stop q n 1 (scanSlots reads 1 s.slots) = false := by
  rw [← Bool.not_eq_true, newerGood_scanned]
  refine and_congr_right fun hgood => ⟨fun h => ?_, fun h m d p hd hstop hm => ?_⟩
  · rintro ⟨m, d, p, hd, hstop, hp⟩
    by_cases hm : m = n
    · subst hm
      obtain ⟨-, rfl⟩ := goodCopy_unique hgood hd
      omega
    · have := h m d p hd hstop hm
      omega
  · have : ¬ (q < p ∨ (q = p ∧ m < n)) := fun hp => h ⟨m, d, p, hd, hstop, hp⟩
    omega

/-- Slot `n` as the scan of slots leaves it. -/
def settledSlot (reads : List SlotReads) (xs : List Slot) (n : Nat) (x : Slot) : Slot :=
  settleSlot (scanSlots reads 1 xs) n (scanSlot n reads x)

section
variable {reads : List SlotReads} {s u : State} (hu : u.slots = scannedSlots reads s.slots)
include hu

theorem slot_scanned (n : Nat) : u.slot n = (s.slot n).map (settledSlot reads s.slots n) := by
  cases n with
  | zero => simp
  | succ i =>
    rw [slot_succ, slot_succ, hu, getElem?_scannedSlots]
    rfl

theorem isHome_scanned (n stop : Nat) : u.isHome n stop ↔ ∃ c q, newestCopy reads s n c q ∧ c.stop = stop := by
  constructor
  · rintro ⟨y, hy, hholds⟩
    rw [slot_scanned hu] at hy
    obtain ⟨x, hx, rfl⟩ := Option.map_eq_some_iff.1 hy
    obtain ⟨r, hr, hstop⟩ := (slot_holds_iff stop _).1 hholds
    obtain ⟨q, hfound, hnewer⟩ := (record?_settleSlot _ n _ r).1 hr
    exact ⟨r, q, (newestCopy_iff ..).2 ⟨(goodCopy_iff ..).2 ⟨x, hx, hfound⟩, hnewer⟩, hstop⟩
  · rintro ⟨c, q, hnew, hstop⟩
    obtain ⟨hgood, hnewer⟩ := (newestCopy_iff ..).1 hnew
    obtain ⟨x, hx, hfound⟩ := (goodCopy_iff ..).1 hgood
    refine ⟨settledSlot reads s.slots n x, by rw [slot_scanned hu, hx]; rfl, (slot_holds_iff stop _).2 ⟨c, ?_, hstop⟩⟩
    exact (record?_settleSlot _ n _ c).2 ⟨q, hfound, hnewer⟩

theorem homeOf_scanned {n : Nat} {c : Record} {q : Nat} (h : newestCopy reads s n c q) : u.homeOf c.stop = some n := by
  refine homeOf_eq_some_iff.2 ⟨(isHome_scanned hu n c.stop).2 ⟨c, q, h, rfl⟩, fun m hm hhome => ?_⟩
  obtain ⟨d, p, hd, hstop⟩ := (isHome_scanned hu m c.stop).1 hhome
  have h1 := h.2 m d p hd.1 hstop (Nat.ne_of_lt hm)
  have h2 := hd.2 n c q h.1 hstop.symm (Nat.ne_of_gt hm)
  omega

theorem recOf_scanned {n : Nat} {c : Record} {q : Nat} (h : newestCopy reads s n c q) : u.recOf c.stop = some c := by
  have hhome := homeOf_scanned hu h
  obtain ⟨hgood, hnewer⟩ := (newestCopy_iff ..).1 h
  obtain ⟨x, hx, hfound⟩ := (goodCopy_iff ..).1 hgood
  have hslot : u.slot n = some (settledSlot reads s.slots n x) := by rw [slot_scanned hu, hx]; rfl
  have hrec : (settledSlot reads s.slots n x).record? = some c := (record?_settleSlot _ n _ c).2 ⟨q, hfound, hnewer⟩
  obtain ⟨r, hr⟩ := recOf_of_slot hslot hrec
  obtain ⟨y, hy, hyr, -⟩ := record?_of_homeOf u c.stop n r hhome hr
  obtain rfl := Option.some.inj (hslot.symm.trans hy)
  exact hr.trans (hyr.symm.trans hrec)

/-- A slot that the scan leaves with no record stays as it left it. -/
theorem slot_settled {t : State} (ht : HomesKept u t) {n : Nat} {x : Slot} (hx : s.slot n = some x)
    (hr : (settledSlot reads s.slots n x).record? = none) : t.slot n = some (settledSlot reads s.slots n x) := by
  obtain ⟨y, hy, hsame⟩ := ht.present n _ (by rw [slot_scanned hu, hx]; rfl)
  rw [hy, hsame.1 hr]

/-- What the scan leaves stands in every state whose slots hold what the scan found. -/
theorem scanned_of_homes {t : State} (ht : HomesKept u t)
    (hrec : ∀ stop r, u.recOf stop = some r → r.state ≠ .bound → t.recOf stop = some r) : scanned reads s t := by
  refine ⟨fun n x hx => ?_, fun n c q hnew => ⟨(ht.homeOf _).trans (homeOf_scanned hu hnew), hrec _ c (recOf_scanned hu hnew)⟩,
    fun n c q hgood hnot => ?_⟩
  · obtain ⟨y, hy, -⟩ := ht.present n (settledSlot reads s.slots n x) (by rw [slot_scanned hu, hx]; rfl)
    have hstands : (settledSlot reads s.slots n x).record? = none → y = settledSlot reads s.slots n x := fun hr =>
      Option.some.inj (hy.symm.trans (slot_settled hu ht hx hr))
    have hretired : foundAt reads n x = .retired → y.st = .retired := by
      intro hf
      have hslot : settledSlot reads s.slots n x = { (scanSlot n reads x).1 with st := .retired } := by
        unfold settledSlot settleSlot
        rw [show (scanSlot n reads x).2 = .retired from hf]
      rw [hstands (by rw [hslot]; rfl), hslot]
    refine ⟨y, hy, fun hall => ?_, fun h hh => ⟨fun hc => ?_, fun stop seq hc hread => ?_⟩⟩
    · cases hm : headerRead reads n x with
      | none => exact hretired (foundAt_none hm)
      | some h => exact hretired (foundAt_retired hm (hall h hm))
    · have hslot : settledSlot reads s.slots n x = { (scanSlot n reads x).1 with st := .free } := by
        unfold settledSlot settleSlot
        rw [show (scanSlot n reads x).2 = .free from foundAt_free hh hc]
      rw [hstands (by rw [hslot]; rfl), hslot]
    · have hslot : settledSlot reads s.slots n x = if newerGood stop seq 0 1 (scanSlots reads 1 s.slots) then (scanSlot n reads x).1.retire
          else { (scanSlot n reads x).1 with st := .inUse (.damaged stop (readsOf n reads).account) } := by
        unfold settledSlot settleSlot
        rw [show (scanSlot n reads x).2 = .damaged stop (readsOf n reads).account seq from foundAt_uncorrectable hh hc hread]
      have hnorec : (settledSlot reads s.slots n x).record? = none := by
        rw [hslot]
        split <;> rfl
      rw [hstands hnorec, hslot]
      refine ⟨fun hle => ?_, fun ⟨m, d, q, hd, hstop, hq⟩ => ?_⟩
      · rw [if_neg]
        rw [newerGood_scanned]
        rintro ⟨m, d, q, hd, hstop, hq⟩
        have := hle m d q hd hstop
        omega
      · rw [if_pos ((newerGood_scanned ..).2 ⟨m, d, q, hd, hstop, .inl hq⟩)]
        rfl
  · obtain ⟨x, hx, hfound⟩ := (goodCopy_iff ..).1 hgood
    have hnewer : newerGood c.stop q n 1 (scanSlots reads 1 s.slots) = true := by
      rw [← Bool.not_eq_false]
      exact fun h => hnot ((newestCopy_iff ..).2 ⟨hgood, h⟩)
    have hslot : settledSlot reads s.slots n x = (scanSlot n reads x).1.scanRelease := by
      unfold settledSlot settleSlot
      rw [show (scanSlot n reads x).2 = .good c q from hfound]
      exact if_pos hnewer
    refine ⟨_, slot_settled hu ht hx (by rw [hslot]; exact record?_scanRelease _), ?_, fun z h hz hh => ?_⟩
    · rw [hslot, Slot.scanRelease]
      split
      · exact .inr rfl
      · exact .inl rfl
    · obtain rfl := Option.some.inj (hx.symm.trans hz)
      have hprogram : (scanSlot n reads x).1.program = h.program := by
        show (headerCounts n (headerRead reads n x)).1 = h.program
        rw [show headerRead reads n x = some h from hh]
        rfl
      rw [hslot, Slot.scanRelease, ← hprogram]
      split <;> rfl

end

end Sys2Proof.Machine
end

