-- ==== Sys2Proof/Proofs/ReadBacks.lean ====
section
/-! PROOFS. Steps 1 to 6 of a restart. -/

open Sys2Proof Sys2Proof.Machine

namespace Sys2Proof.Machine

/-! ## Steps 1 to 6 of a restart (R54, R156, R158, R183, R184) -/

/-- Entries are added to the queue, and nothing else changes. -/
structure EntriesOnly (s u : State) : Prop where
  eq : u = { s with queue := u.queue }
  grows : ∀ k ∈ s.queue, k ∈ u.queue

namespace EntriesOnly
variable {s u v : State}

theorem refl (s : State) : EntriesOnly s s := ⟨rfl, fun _ h => h⟩

theorem trans (h : EntriesOnly s u) (k : EntriesOnly u v) : EntriesOnly s v := by
  refine ⟨?_, fun x hx => k.grows x (h.grows x hx)⟩
  have heq := h.eq
  rw [k.eq]
  generalize v.queue = a
  rw [heq]

theorem read {α : Type} (h : EntriesOnly s u) (g : State → α) : g u = g { s with queue := u.queue } := congrArg g h.eq

theorem enqueue (s : State) (k : Key) : EntriesOnly s (s.enqueue k) := by
  refine ⟨?_, fun x hx => mem_enqueue_of_mem s k x hx⟩
  unfold State.enqueue
  split <;> rfl

theorem enqueueIf (s : State) (b : Bool) (k : Key) : EntriesOnly s (if b then s.enqueue k else s) := by
  cases b
  · exact refl s
  · exact enqueue s k

theorem enqueueUnless (s : State) (b : Bool) (k : Key) : EntriesOnly s (if b then s else s.enqueue k) := by
  cases b
  · exact enqueue s k
  · exact refl s

theorem enqueueAll (xs : List Nat) : ∀ s : State, EntriesOnly s (xs.foldl (fun t stop => t.enqueue (.record stop)) s) := by
  induction xs with
  | nil => exact refl
  | cons x xs ih => exact fun s => (enqueue s _).trans (ih _)

end EntriesOnly

/-- The settings a restart comes up with, from what their area reads as (R155, R158). -/
def settingsUp (found : Option Settings) (sealOpen : Bool) : Settings :=
  if (found.getD .default).session = true ∧ sealOpen = false then (found.getD .default).sealClosed else found.getD .default

theorem closeSession_entries (s : State) : EntriesOnly { s with settings := s.settings.sealClosed } s.closeSession := by
  unfold State.closeSession
  split
  · next h =>
    rw [h]
    exact .refl s
  · exact .enqueue (s.modSettings Settings.sealClosed) _

theorem readSettings_entries (s : State) (found : Option Settings) (r : AreaRead) :
    EntriesOnly { s with settings := settingsUp found s.inputs.sealOpen, failed := { s.failed with settings := found.isNone } }
      (s.readSettings found r) ∧ (found = none → Key.block .settings ∈ (s.readSettings found r).queue) := by
  obtain ⟨a, ha⟩ : ∃ a : State, a = { s with settings := found.getD .default, failed := { s.failed with settings := found.isNone } } :=
    ⟨_, rfl⟩
  obtain ⟨u, hu⟩ : ∃ u, u = if areaNeedsWrite found r then a.enqueue (.block .settings) else a := ⟨_, rfl⟩
  have hau : EntriesOnly a u := by
    rw [hu]
    exact .enqueueIf a _ _
  have hread : s.readSettings found r = if u.settings.session = true ∧ u.inputs.sealOpen = false then u.closeSession else u := by
    rw [hu, ha]
    rfl
  have hset : u.settings = found.getD .default := (hau.read State.settings).trans (by rw [ha])
  have hinputs : u.inputs = s.inputs := (hau.read State.inputs).trans (by rw [ha])
  have hwrites : found = none → Key.block .settings ∈ u.queue := by
    rintro rfl
    rw [hu]
    exact mem_enqueue a _
  rw [hread, hset, hinputs]
  have heq := hau.eq
  unfold settingsUp
  split
  · next h =>
    have hclosed := closeSession_entries u
    refine ⟨?_, fun hf => hclosed.grows _ (hwrites hf)⟩
    refine EntriesOnly.trans ⟨?_, ?_⟩ hclosed
    · rw [hset, heq, ha]
    · intro k hk
      exact hau.grows k (by rw [ha]; exact hk)
  · exact ⟨by rw [← ha]; exact hau, hwrites⟩

theorem scan_entries (s : State) (reads : List SlotReads) :
    EntriesOnly { s with
      slots := scannedSlots reads s.slots, captures := scanCaptures reads 1 (scanSlots reads 1 s.slots) s.captures
      seq := 1 + ((scanSlots reads 1 s.slots).map (fun p => p.2.seq)).foldr max 0 } (s.scan reads) := .enqueueAll _ _

theorem readBlocks_entries (s : State) (load : Option LoadBlock) (route : Option RouteBlock) (rl rr : AreaRead) :
    EntriesOnly { s with
      counter := recoverCounter load route s.tickets
      load := load.getD (rebuiltLoad s.tickets (recoverCounter load route s.tickets))
      route := route.getD (rebuiltRoute (s.records.any (fun r => r.state == .bound)) s.tickets (recoverCounter load route s.tickets))
      failed := { s.failed with load := load.isNone, route := route.isNone } } (s.readBlocks load route rl rr) :=
  (EntriesOnly.enqueueIf _ (areaNeedsWrite load rl) _).trans (.enqueueIf _ (areaNeedsWrite route rr) _)

theorem reapply_entries (s : State) : ∃ (load : LoadBlock) (route : RouteBlock) (a b : Nat),
    EntriesOnly { s with load := load, route := route, resetCause := { s.resetCause with loadApplied := a, routeApplied := b } } s.reapply := by
  unfold State.reapply
  exact ⟨_, _, _, _, (EntriesOnly.enqueueUnless _ _ _).trans (.enqueueUnless _ _ _)⟩

/-- The state behind steps 1 to 6 of a restart: the areas read, the slots settled, the meters at their restart values. -/
def State.readBack (v : State) (cause : RestartCause) (r : RestartReads) : State :=
  (((((v.restartBegin cause).readSettings (readArea .settings v.areaSettings r.settings) r.settings).scan r.slots).readBlocks
    (readArea .load v.areaLoad r.load) (readArea .route v.areaRoute r.route) r.load r.route).reapply).restartMeters

theorem restart_eq (v : State) (cause : RestartCause) (r : RestartReads) :
    v.restart cause r = (((v.readBack cause r).bringUp .one).bringUp .two).rebuildPump := rfl

/-- What steps 1 to 6 of a restart leave. -/
structure ReadBack (v : State) (cause : RestartCause) (r : RestartReads) (b : State) : Prop where
  slots : b.slots = scannedSlots r.slots v.slots
  lines : b.lines = ⟨.atRest .setup 0, .atRest .setup 0⟩
  attention : b.attention = ⟨false, false⟩
  pump : b.pump = none
  phase : b.phase = .restart
  unsaved : b.unsaved = []
  flight : b.flight = none
  restored : b.resetCause.restoredLines = 0
  meter : ∀ l, b.meter l = .restart (v.meter l).levelA (v.meter l).levelB
  settings : b.settings = settingsUp (readArea .settings v.areaSettings r.settings) v.inputs.sealOpen
  failed : b.failed.settings = (readArea .settings v.areaSettings r.settings).isNone
  writes : readArea .settings v.areaSettings r.settings = none → Key.block .settings ∈ b.queue
  captures : b.captures = scanCaptures r.slots 1 (scanSlots r.slots 1 v.slots) (v.restartBegin cause).captures
  counter : b.counter = recoverCounter (readArea .load v.areaLoad r.load) (readArea .route v.areaRoute r.route) b.tickets

theorem tickets_of_slots {s u : State} (h : u.slots = s.slots) : u.tickets = s.tickets := by
  unfold State.tickets State.records
  rw [h]

theorem readBack_readBack (v : State) (cause : RestartCause) (r : RestartReads) : ReadBack v cause r (v.readBack cause r) := by
  obtain ⟨a, ha⟩ : ∃ a, a = v.restartBegin cause := ⟨_, rfl⟩
  obtain ⟨b, hb⟩ : ∃ b, b = a.readSettings (readArea .settings v.areaSettings r.settings) r.settings := ⟨_, rfl⟩
  obtain ⟨c, hc⟩ : ∃ c, c = b.scan r.slots := ⟨_, rfl⟩
  obtain ⟨d, hd⟩ : ∃ d, d = c.readBlocks (readArea .load v.areaLoad r.load) (readArea .route v.areaRoute r.route) r.load r.route := ⟨_, rfl⟩
  obtain ⟨e, he⟩ : ∃ e, e = d.reapply := ⟨_, rfl⟩
  have hends : v.readBack cause r = e.restartMeters := by
    rw [he, hd, hc, hb, ha]
    rfl
  obtain ⟨hab, hwrites⟩ := readSettings_entries a (readArea .settings v.areaSettings r.settings) r.settings
  have hbc := scan_entries b r.slots
  have hcd := readBlocks_entries c (readArea .load v.areaLoad r.load) (readArea .route v.areaRoute r.route) r.load r.route
  obtain ⟨load, route, x, y, hde⟩ := reapply_entries d
  rw [← hb] at hab hwrites
  rw [← hc] at hbc
  rw [← hd] at hcd
  rw [← he] at hde
  have hslots : ∀ {s : State}, s = e ∨ s = d ∨ s = c → s.slots = scannedSlots r.slots v.slots := by
    have hcs : c.slots = scannedSlots r.slots v.slots := by
      rw [hbc.read State.slots]
      exact congrArg (scannedSlots r.slots) ((hab.read State.slots).trans (by rw [ha]; rfl))
    have hds : d.slots = c.slots := hcd.read State.slots
    have hes : e.slots = d.slots := hde.read State.slots
    rintro s (rfl | rfl | rfl)
    · rw [hes, hds, hcs]
    · rw [hds, hcs]
    · exact hcs
  have hpath {α : Type} (g : State → α) (hq : ∀ (s : State) (q : List Key), g { s with queue := q } = g s := by intros; rfl)
      (h1 : ∀ (s : State) x y, g { s with settings := x, failed := y } = g s := by intros; rfl)
      (h2 : ∀ (s : State) x y z, g { s with slots := x, captures := y, seq := z } = g s := by intros; rfl)
      (h3 : ∀ (s : State) x y z w, g { s with counter := x, load := y, route := z, failed := w } = g s := by intros; rfl)
      (h4 : ∀ (s : State) x y z, g { s with load := x, route := y, resetCause := z } = g s := by intros; rfl) : g e = g a := by
    rw [hde.read g, hq, h4, hcd.read g, hq, h3, hbc.read g, hq, h2, hab.read g, hq, h1]
  have hsettings : e.settings = b.settings := (hde.read State.settings).trans ((hcd.read State.settings).trans (hbc.read State.settings))
  have hfailed : e.failed.settings = b.failed.settings :=
    (hde.read (fun s => s.failed.settings)).trans
      ((hcd.read (fun s => s.failed.settings)).trans (hbc.read (fun s => s.failed.settings)))
  have hcaptures : e.captures = c.captures := (hde.read State.captures).trans (hcd.read State.captures)
  have hinputs : a.inputs.sealOpen = v.inputs.sealOpen := by rw [ha]; rfl
  have hbslots : b.slots = v.slots := (hab.read State.slots).trans (by rw [ha]; rfl)
  have hbcaptures : b.captures = a.captures := hab.read State.captures
  rw [hends]
  refine ⟨hslots (s := e) (.inl rfl), (hpath State.lines).trans (by rw [ha]; rfl), (hpath State.attention).trans (by rw [ha]; rfl),
    (hpath State.pump).trans (by rw [ha]; rfl), (hpath State.phase).trans (by rw [ha]; rfl), (hpath State.unsaved).trans (by rw [ha]; rfl),
    (hpath State.flight).trans (by rw [ha]; rfl), ?_, fun l => ?_, ?_, ?_, fun hnone => ?_, ?_, ?_⟩
  · calc e.resetCause.restoredLines = d.resetCause.restoredLines := hde.read (fun s => s.resetCause.restoredLines)
      _ = c.resetCause.restoredLines := hcd.read (fun s => s.resetCause.restoredLines)
      _ = b.resetCause.restoredLines := hbc.read (fun s => s.resetCause.restoredLines)
      _ = a.resetCause.restoredLines := hab.read (fun s => s.resetCause.restoredLines)
      _ = 0 := by rw [ha]; rfl
  · have hmeters : e.meters = v.meters := (hpath State.meters).trans (by rw [ha]; rfl)
    show (e.meters.map fun m => Meter.restart m.levelA m.levelB).get l = .restart (v.meters.get l).levelA (v.meters.get l).levelB
    rw [hmeters]
    cases l <;> rfl
  · exact hsettings.trans ((hab.read State.settings).trans (congrArg (settingsUp _) hinputs))
  · exact hfailed.trans (hab.read (fun s => s.failed.settings))
  · exact hde.grows _ (hcd.grows _ (hbc.grows _ (hwrites hnone)))
  · show e.captures = _
    rw [hcaptures, hbc.read State.captures, ← ha]
    show scanCaptures r.slots 1 (scanSlots r.slots 1 b.slots) b.captures = _
    rw [hbslots, hbcaptures]
  · have htickets : e.restartMeters.tickets = c.tickets :=
      tickets_of_slots ((hslots (s := e) (.inl rfl)).trans (hslots (s := c) (.inr (.inr rfl))).symm)
    rw [htickets]
    exact (hde.read State.counter).trans (hcd.read State.counter)

end Sys2Proof.Machine
end

