-- ==== Sys2Proof/Proofs/CounterRecovered.lean ====
section
/-! PROOFS. The counter recovered at a restart, its captures and its settings. -/

open Sys2Proof Sys2Proof.Machine

namespace Sys2Proof.Machine

/-! ## The counter recovered (R184) -/

theorem readArea_eq_some {α : Type} {image : α → BlockImage} {area : Option (Stored α)} {r : AreaRead} {b : α} :
    readArea image area r = some b ↔ r ≠ .bad ∧ ∃ c, area = some c ∧ c.matched image ∧ c.block = b := by
  unfold readArea
  by_cases hr : r = .bad
  · simp [hr]
  · rw [if_neg hr]
    simp [hr, Stored.good, Stored.matched, Option.filter_eq_some_iff, and_assoc]

theorem readArea_eq_none {α : Type} {image : α → BlockImage} {area : Option (Stored α)} {r : AreaRead} :
    readArea image area r = none ↔ r = .bad ∨ ∀ c, area = some c → ¬ c.matched image := by
  rw [Option.eq_none_iff_forall_ne_some]
  constructor
  · intro h
    by_cases hr : r = .bad
    · exact .inl hr
    · exact .inr fun c hc hm => h c.block (readArea_eq_some.2 ⟨hr, c, hc, hm, rfl⟩)
  · rintro h b hb
    obtain ⟨hr, c, hc, hm, -⟩ := readArea_eq_some.1 hb
    exact h.elim hr fun h => h c hc hm

theorem mem_insertTicket (x t : Ticket) : ∀ xs : List Ticket, x ∈ insertTicket t xs ↔ x = t ∨ x ∈ xs
  | [] => by simp [insertTicket]
  | y :: ys => by
    unfold insertTicket
    split
    · simp
    · rw [List.mem_cons, mem_insertTicket x t ys, List.mem_cons]
      tauto

theorem mem_tickets (s : State) (x : Ticket) :
    x ∈ s.tickets ↔ ∃ r ∈ s.records, (r.state = .ticketed ∨ r.state = .issued) ∧ r.ticket = some x := by
  have hsorted : ∀ xs : List Ticket, x ∈ xs.foldr insertTicket [] ↔ x ∈ xs := by
    intro xs
    induction xs with
    | nil => rfl
    | cons y ys ih => rw [List.foldr_cons, mem_insertTicket, ih, List.mem_cons]
  unfold State.tickets
  rw [hsorted, List.mem_filterMap]
  refine exists_congr fun r => and_congr_right fun _ => ?_
  split
  · next h => simp [h]
  · next h => simp [h]

theorem le_foldr_max {k : Nat} : ∀ {xs : List Nat}, k ∈ xs → k ≤ xs.foldr max 0
  | x :: xs, h => by
    rcases List.mem_cons.1 h with rfl | h
    · exact Nat.le_max_left ..
    · exact Nat.le_trans (le_foldr_max h) (Nat.le_max_right ..)

theorem foldr_max_mem : ∀ xs : List Nat, xs.foldr max 0 = 0 ∨ xs.foldr max 0 ∈ xs
  | [] => .inl rfl
  | x :: xs => by
    rw [List.foldr_cons]
    rcases Nat.le_total x (xs.foldr max 0) with h | h
    · rw [Nat.max_eq_right h]
      exact (foldr_max_mem xs).imp_right (List.mem_cons_of_mem _)
    · rw [Nat.max_eq_left h]
      exact .inr (List.mem_cons_self ..)

/-- The records that the scan keeps are those of the newest good copies. -/
theorem mem_records_scanned {reads : List SlotReads} {s u : State} (hu : u.slots = scannedSlots reads s.slots) (r : Record) :
    r ∈ u.records ↔ ∃ n q, newestCopy reads s n r q := by
  unfold State.records
  rw [List.mem_filterMap]
  constructor
  · rintro ⟨x, hx, hr⟩
    obtain ⟨i, hi⟩ := List.getElem?_of_mem hx
    have hslot : u.slot (i + 1) = some x := (slot_succ u i).trans hi
    rw [slot_scanned hu] at hslot
    obtain ⟨y, hy, rfl⟩ := Option.map_eq_some_iff.1 hslot
    obtain ⟨q, hfound, hnewer⟩ := (record?_settleSlot _ _ _ r).1 hr
    exact ⟨i + 1, q, (newestCopy_iff ..).2 ⟨(goodCopy_iff ..).2 ⟨y, hy, hfound⟩, hnewer⟩⟩
  · rintro ⟨n, q, hnew⟩
    obtain ⟨hgood, hnewer⟩ := (newestCopy_iff ..).1 hnew
    obtain ⟨y, hy, hfound⟩ := (goodCopy_iff ..).1 hgood
    obtain ⟨i, rfl, -⟩ := slot_pos hy
    have hslot : u.slot (i + 1) = some (settledSlot reads s.slots (i + 1) y) := by rw [slot_scanned hu, hy]; rfl
    exact ⟨_, List.mem_of_getElem? ((slot_succ u i).symm.trans hslot), (record?_settleSlot _ _ _ r).2 ⟨q, hfound, hnewer⟩⟩

theorem max_three (a b c : Nat) : max (max a b) c = a ∨ max (max a b) c = b ∨ max (max a b) c = c := by omega

/-- The figures a restart recovers its counter from (R184). -/
def counterFigure (load : Option LoadBlock) (route : Option RouteBlock) (tickets : List Ticket) (k : Nat) : Prop :=
  (∃ b, route = some b ∧ k = b.counterCopy) ∨ (∃ b, load = some b ∧ k = b.lastApplied) ∨ ∃ x ∈ tickets, k = x.number

theorem recoverCounter_greatest (load : Option LoadBlock) (route : Option RouteBlock) (tickets : List Ticket) :
    (∀ k, counterFigure load route tickets k → k ≤ recoverCounter load route tickets)
      ∧ (recoverCounter load route tickets = 0 ∨ counterFigure load route tickets (recoverCounter load route tickets)) := by
  obtain ⟨a, ha⟩ : ∃ a, a = (route.map (·.counterCopy)).getD 0 := ⟨_, rfl⟩
  obtain ⟨b, hb⟩ : ∃ b, b = (load.map (·.lastApplied)).getD 0 := ⟨_, rfl⟩
  obtain ⟨c, hc⟩ : ∃ c, c = (tickets.map (·.number)).foldr max 0 := ⟨_, rfl⟩
  have hsum : recoverCounter load route tickets = max (max a b) c := by rw [ha, hb, hc]; rfl
  have hroute : a = 0 ∨ ∃ x, route = some x ∧ a = x.counterCopy := by
    cases route with
    | none => exact .inl ha
    | some x => exact .inr ⟨x, rfl, ha⟩
  have hload : b = 0 ∨ ∃ x, load = some x ∧ b = x.lastApplied := by
    cases load with
    | none => exact .inl hb
    | some x => exact .inr ⟨x, rfl, hb⟩
  have htickets : c = 0 ∨ ∃ x ∈ tickets, c = x.number := by
    rcases foldr_max_mem (tickets.map (·.number)) with h | h
    · exact .inl (hc.trans h)
    · obtain ⟨x, hx, he⟩ := List.mem_map.1 h
      exact .inr ⟨x, hx, hc.trans he.symm⟩
  rw [hsum]
  constructor
  · rintro k (⟨x, rfl, rfl⟩ | ⟨x, rfl, rfl⟩ | ⟨x, hx, rfl⟩)
    · exact Nat.le_trans (Nat.le_of_eq ha.symm) (Nat.le_trans (Nat.le_max_left a b) (Nat.le_max_left ..))
    · exact Nat.le_trans (Nat.le_of_eq hb.symm) (Nat.le_trans (Nat.le_max_right a b) (Nat.le_max_left ..))
    · exact Nat.le_trans (hc ▸ le_foldr_max (List.mem_map_of_mem hx)) (Nat.le_max_right ..)
  · rcases max_three a b c with h | h | h
    · rw [h]
      exact hroute.imp_right .inl
    · rw [h]
      exact hload.imp_right fun hx => .inr (.inl hx)
    · rw [h]
      exact htickets.imp_right fun hx => .inr (.inr hx)

theorem recovered_of_readBack {v b t : State} {cause : RestartCause} {reads : RestartReads} (hb : ReadBack v cause reads b)
    (ht : t.counter = b.counter) : recovered reads v t := by
  have hcounter := ht.trans hb.counter
  obtain ⟨hle, hmem⟩ := recoverCounter_greatest (readArea .load v.areaLoad reads.load) (readArea .route v.areaRoute reads.route) b.tickets
  have hfigure : ∀ k, counterFigure (readArea .load v.areaLoad reads.load) (readArea .route v.areaRoute reads.route) b.tickets k
      ↔ (∃ c, reads.route ≠ .bad ∧ v.areaRoute = some c ∧ c.matched .route ∧ k = c.block.counterCopy)
        ∨ (∃ c, reads.load ≠ .bad ∧ v.areaLoad = some c ∧ c.matched .load ∧ k = c.block.lastApplied)
        ∨ ∃ n c seq x, newestCopy reads.slots v n c seq ∧ (c.state = .ticketed ∨ c.state = .issued) ∧ c.ticket = some x
            ∧ k = x.number := by
    intro k
    unfold counterFigure
    refine or_congr ?_ (or_congr ?_ ?_)
    · constructor
      · rintro ⟨x, hx, rfl⟩
        obtain ⟨hr, c, hc, hm, rfl⟩ := readArea_eq_some.1 hx
        exact ⟨c, hr, hc, hm, rfl⟩
      · rintro ⟨c, hr, hc, hm, rfl⟩
        exact ⟨_, readArea_eq_some.2 ⟨hr, c, hc, hm, rfl⟩, rfl⟩
    · constructor
      · rintro ⟨x, hx, rfl⟩
        obtain ⟨hr, c, hc, hm, rfl⟩ := readArea_eq_some.1 hx
        exact ⟨c, hr, hc, hm, rfl⟩
      · rintro ⟨c, hr, hc, hm, rfl⟩
        exact ⟨_, readArea_eq_some.2 ⟨hr, c, hc, hm, rfl⟩, rfl⟩
    · constructor
      · rintro ⟨x, hx, rfl⟩
        obtain ⟨r, hr, hstate, hticket⟩ := (mem_tickets b x).1 hx
        obtain ⟨n, q, hnew⟩ := (mem_records_scanned hb.slots r).1 hr
        exact ⟨n, r, q, x, hnew, hstate, hticket, rfl⟩
      · rintro ⟨n, r, q, x, hnew, hstate, hticket, rfl⟩
        exact ⟨x, (mem_tickets b x).2 ⟨r, (mem_records_scanned hb.slots r).2 ⟨n, q, hnew⟩, hstate, hticket⟩, rfl⟩
  rw [← hcounter] at hle hmem
  exact ⟨fun k hk => hle k ((hfigure k).2 hk), hmem.imp_right (hfigure _).1⟩

/-! ## Captures and settings -/

/-- Where every slot reads clean, nothing is captured (R39, R47). -/
theorem scanCaptures_clean : ∀ (n : Nat) (ps : List (Slot × Found)) (c : Captures), scanCaptures [] n ps c = c
  | _, [], _ => rfl
  | n, (x, f) :: ps, c => by
    have hclean : correctedAt f (readsOf n []).content = none := by cases f <;> rfl
    rw [scanCaptures, hclean]
    exact scanCaptures_clean (n + 1) ps c

theorem settingsUp_none (sealOpen : Bool) : settingsUp none sealOpen = .default := if_neg (by simp [Settings.default])

end Sys2Proof.Machine
end

