-- ==== Sys2Proof/Proofs/LineRestored.lean ====
section
/-! PROOFS. One line restored with its record. -/

open Sys2Proof Sys2Proof.Machine

namespace Sys2Proof.Machine

/-! ## Step 7 of a restart: one line brought up (R94, R114, R183) -/

/-- A step of one line and of one record at most, with the queue, the pump and the restart record. -/
structure StepAt (l : Line) (stop : Option Nat) (s u : State) : Prop where
  eq : u = { s with
    slots := u.slots, queue := u.queue, lines := u.lines, attention := u.attention, resetCause := u.resetCause, pump := u.pump }
  homes : HomesKept s u
  grows : ∀ k ∈ s.queue, k ∈ u.queue
  other : ∀ k, k ≠ l → u.line k = s.line k ∧ u.attention.get k = s.attention.get k
  recs : ∀ m, stop ≠ some m → u.recOf m = s.recOf m

theorem attention_setAttention_of_ne (s : State) {l k : Line} (h : k ≠ l) : (s.setAttention l).attention.get k = s.attention.get k := by
  cases l with
  | one => cases k with
    | one => exact absurd rfl h
    | two => rfl
  | two => cases k with
    | one => rfl
    | two => exact absurd rfl h

namespace StepAt
variable {l : Line} {stop : Option Nat} {s u v : State}

theorem refl (s : State) : StepAt l stop s s := ⟨rfl, .of_slots rfl, fun _ h => h, fun _ _ => ⟨rfl, rfl⟩, fun _ _ => rfl⟩

theorem trans (h : StepAt l stop s u) (k : StepAt l stop u v) : StepAt l stop s v := by
  refine ⟨?_, h.homes.trans k.homes, fun x hx => k.grows x (h.grows x hx), fun m hm => ?_, fun m hm => (k.recs m hm).trans (h.recs m hm)⟩
  · have heq := h.eq
    rw [k.eq]
    generalize v.slots = a, v.queue = b, v.lines = c, v.attention = d, v.resetCause = e, v.pump = f
    rw [heq]
  · obtain ⟨h1, h2⟩ := h.other m hm
    obtain ⟨k1, k2⟩ := k.other m hm
    exact ⟨k1.trans h1, k2.trans h2⟩

theorem read {α : Type} (h : StepAt l stop s u) (g : State → α) : g u = g { s with
    slots := u.slots, queue := u.queue, lines := u.lines, attention := u.attention, resetCause := u.resetCause, pump := u.pump } :=
  congrArg g h.eq

theorem modLine (s : State) (l : Line) (stop : Option Nat) (f : LineCtx → LineCtx) : StepAt l stop s (s.modLine l f) :=
  ⟨rfl, .of_slots rfl, fun _ h => h, fun _ hk => ⟨line_modLine_of_ne s f hk, rfl⟩, fun _ _ => rfl⟩

theorem modRec (s : State) (l : Line) (stop : Nat) {f : Record → Record} (hf : ∀ r, (f r).stop = r.stop) :
    StepAt l (some stop) s (s.modRec stop f) :=
  ⟨rfl, .modRec s stop hf, fun _ h => h, fun _ _ => ⟨rfl, rfl⟩,
    fun _ hm => recOf_modRec_of_ne s stop f hf fun h => hm (congrArg some h.symm)⟩

theorem enqueue (s : State) (l : Line) (stop : Option Nat) (k : Key) : StepAt l stop s (s.enqueue k) := by
  have hentries := EntriesOnly.enqueue s k
  have heq := hentries.eq
  refine ⟨?_, .of_slots (enqueue_slots ..), hentries.grows, fun m _ => ?_, fun m _ => recOf_of_slots (enqueue_slots ..) m⟩
  · rw [heq]
  · rw [heq]
    exact ⟨rfl, rfl⟩

theorem changeRec (s : State) (l : Line) (stop : Nat) {f : Record → Record} (hf : ∀ r, (f r).stop = r.stop) :
    StepAt l (some stop) s (s.changeRec stop f) := (modRec s l stop hf).trans (enqueue _ _ _ _)

theorem setAttention (s : State) (l : Line) (stop : Option Nat) : StepAt l stop s (s.setAttention l) :=
  ⟨rfl, .of_slots rfl, fun _ h => h, fun _ hk => ⟨rfl, attention_setAttention_of_ne s hk⟩, fun _ _ => rfl⟩

theorem enterPaused {m : Nat} (h : (s.line l).bound = some m) (cause : PauseCause) : StepAt l (some m) s (s.enterPaused l cause) := by
  rw [enterPaused_bound h]
  exact ((modLine s l _ _).trans (changeRec _ l m (f := Record.checkpointed) fun _ => rfl)).trans (setAttention _ l _)

end StepAt

/-- The context that a restored line enters PAUSED with, its drop limit still to come (R94, R114). -/
def LineCtx.restoring (x : Settings) (antic stop : Nat) : LineCtx :=
  { LineCtx.atRest .paused antic with kind := some .order, bound := some stop, latched := some x.latch, reserved := true }

section
variable (s : State) (l : Line) (r : Record)

/-- The state in which a restored line holds its record, before its drop limit and its pause. -/
def State.rebound : State :=
  (s.modRec r.stop Record.restoredFlags).modLine l (fun _ => .restoring s.settings (s.items l).antic r.stop)

/-- The same, with the drop limit (R100). -/
def State.relimited : State :=
  (s.rebound l r).modLine l (fun c => { c with limit := r.active.map (fun d => (s.rebound l r).dropLimit l r d.2) })

theorem upBound_eq : s.upBound l r = (s.relimited l r).enterPaused l .power := rfl

theorem line_rebound : (s.rebound l r).line l = .restoring s.settings (s.items l).antic r.stop := line_modLine_same ..

theorem line_relimited : (s.relimited l r).line l = { LineCtx.restoring s.settings (s.items l).antic r.stop with
    limit := r.active.map (fun d => (s.rebound l r).dropLimit l r d.2) } := by
  unfold State.relimited
  rw [line_modLine_same, line_rebound]

theorem bound_relimited : ((s.relimited l r).line l).bound = some r.stop := by rw [line_relimited]; rfl

theorem dropLimit_rebound (d : Drop) : (s.rebound l r).dropLimit l r d
    = r.limitOf d (r.price.getD (s.settings.latch.entry r.product).price) (s.settings.latch.entry r.product).tax := by
  have hlatched : (s.rebound l r).latchedOf l = s.settings.latch := by rw [State.latchedOf, line_rebound]; rfl
  rw [State.dropLimit, State.priceOf, State.rateBp, hlatched]

theorem latchedOf_relimited : (s.relimited l r).latchedOf l = s.settings.latch := by
  rw [State.latchedOf, line_relimited]
  rfl

theorem stepAt_upBound : StepAt l (some r.stop) s (s.upBound l r) := by
  rw [upBound_eq]
  have hlimited : StepAt l (some r.stop) s (s.relimited l r) :=
    ((StepAt.modRec s l r.stop (f := Record.restoredFlags) fun _ => rfl).trans (.modLine _ l _ _)).trans (.modLine _ l _ _)
  exact hlimited.trans (.enterPaused (bound_relimited s l r) .power)

theorem line_upBound : (s.upBound l r).line l = LineCtx.toPaused s.settings.latch.run .power { LineCtx.restoring s.settings (s.items l).antic r.stop with
    limit := r.active.map (fun d => r.limitOf d.2 (r.price.getD (s.settings.latch.entry r.product).price)
      (s.settings.latch.entry r.product).tax) } := by
  rw [upBound_eq, line_enterPaused, latchedOf_relimited, line_relimited]
  simp only [dropLimit_rebound]

theorem recOf_upBound (hr : s.recOf r.stop = some r) : (s.upBound l r).recOf r.stop = some r.asRestored := by
  have hlimited : (s.relimited l r).recOf r.stop = some r.restoredFlags := by
    have hmod := recOf_modRec_same s r.stop Record.restoredFlags fun _ => rfl
    rw [hr] at hmod
    exact hmod
  exact recOf_enterPaused (bound_relimited s l r) .power hlimited

theorem queued_upBound : Key.record r.stop ∈ (s.upBound l r).queue := by
  rw [upBound_eq, (store_enterPaused (bound_relimited s l r) .power).2]
  exact mem_enqueue _ _

end

end Sys2Proof.Machine
end

