-- ==== Sys2Proof/Proofs/LineBroughtUp.lean ====
section
/-! PROOFS. One line brought up, and the record read BOUND for a line. -/

open Sys2Proof Sys2Proof.Machine

namespace Sys2Proof.Machine

/-! ## Step 7 of a restart: both lines (R94, R183) -/

/-- A line restored with its record, before the store has taken what the restart queued. -/
structure RestoredAt (l : Line) (c : Record) (u : State) : Prop where
  paused : (u.line l).justPaused u.settings.run.autoClose .power
  kind : (u.line l).kind = some .order
  bound : (u.line l).bound = some c.stop
  reserved : (u.line l).reserved = true
  latched : (u.line l).latched = some u.settings.latch
  attention : u.attention.get l = true
  limited : ∀ n d, c.active = some (n, d) → (u.line l).limit = some (c.limitOf d
    (c.price.getD (u.settings.latch.entry c.product).price) (u.settings.latch.entry c.product).tax)
  unlimited : c.active = none → (u.line l).limit = none
  recOf : u.recOf c.stop = some c.asRestored
  queued : Key.record c.stop ∈ u.queue

section
variable {l : Line} {u v : State} (hline : v.line l = u.line l) (hattention : v.attention.get l = u.attention.get l)
  (hsettings : v.settings = u.settings)
include hline hattention hsettings

theorem RestoredAt.keep {c : Record} (h : RestoredAt l c u) (hrec : v.recOf c.stop = u.recOf c.stop) (hgrows : ∀ k ∈ u.queue, k ∈ v.queue) :
    RestoredAt l c v := by
  obtain ⟨h1, h2, h3, h4, h5, h6, h7, h8, h9, h10⟩ := h
  rw [← hline, ← hsettings] at h1 h5 h7
  rw [← hline] at h2 h3 h4 h8
  exact ⟨h1, h2, h3, h4, h5, hattention.trans h6, h7, h8, hrec.trans h9, hgrows _ h10⟩

theorem upLine_keep (h : upLine l u) : upLine l v := by
  obtain ⟨h1, h2⟩ := h
  rw [← hline, ← hsettings] at h1
  exact ⟨h1, hattention.trans h2⟩

end

theorem StepAt.cause (s : State) (l : Line) (stop : Option Nat) (x : ResetCause) : StepAt l stop s { s with resetCause := x } :=
  ⟨rfl, .of_slots rfl, fun _ h => h, fun _ _ => ⟨rfl, rfl⟩, fun _ _ => rfl⟩

theorem StepAt.ofPump (s : State) (l : Line) (stop : Option Nat) (p : Option PumpBinding) : StepAt l stop s { s with pump := p } :=
  ⟨rfl, .of_slots rfl, fun _ h => h, fun _ _ => ⟨rfl, rfl⟩, fun _ _ => rfl⟩

theorem RestoredAt.cause {l : Line} {c : Record} {u : State} (h : RestoredAt l c u) (x : ResetCause) :
    RestoredAt l c { u with resetCause := x } :=
  RestoredAt.keep (u := u) (v := { u with resetCause := x }) rfl rfl rfl h rfl fun _ hk => hk

section
variable {s : State} {l : Line}

theorem attention_upBound (r : Record) : (s.upBound l r).attention.get l = true := attention_enterPaused ..

theorem restoredAt_upBound {r : Record} (hr : s.recOf r.stop = some r) : RestoredAt l r (s.upBound l r) := by
  have hsettings : (s.upBound l r).settings = s.settings := (stepAt_upBound s l r).read State.settings
  have hline := line_upBound s l r
  refine ⟨?_, ?_, ?_, ?_, ?_, attention_upBound r, fun n d hd => ?_, fun hnone => ?_, recOf_upBound s l r hr, queued_upBound s l r⟩
  · rw [hline, hsettings]
    exact justPaused_toPaused ..
  · rw [hline]
    rfl
  · rw [hline]
    rfl
  · rw [hline]
    rfl
  · rw [hline, hsettings]
    rfl
  · rw [hline, hsettings]
    show r.active.map _ = _
    rw [hd]
    rfl
  · rw [hline]
    show r.active.map _ = _
    rw [hnone]
    rfl

/-- What step 7 of a restart makes of a line with a record read BOUND for it. -/
theorem bringUp_record {r : Record} (h : s.recordFor l = some r) (hr : s.recOf r.stop = some r) : StepAt l (some r.stop) s (s.bringUp l)
    ∧ RestoredAt l r (s.bringUp l) ∧ (s.bringUp l).resetCause.restoredLines = s.resetCause.restoredLines + 1
    ∧ (s.bringUp l).pump = s.pump ∧ (s.bringUp l).slots = (s.upBound l r).slots := by
  have hrestored := restoredAt_upBound (l := l) hr
  have hstep := stepAt_upBound s l r
  have hsame : (s.upBound l r).resetCause = s.resetCause ∧ (s.upBound l r).pump = s.pump := by
    rw [upBound_eq, enterPaused_bound (bound_relimited s l r)]
    exact ⟨enqueue_resetCause .., enqueue_pump ..⟩
  have hup : s.bringUp l = { s.upBound l r with resetCause :=
      { (s.upBound l r).resetCause with restoredLines := (s.upBound l r).resetCause.restoredLines + 1 } } := by
    rw [State.bringUp, h]
  rw [hup]
  refine ⟨hstep.trans (.cause _ _ _ _), hrestored.cause _, ?_, hsame.2, rfl⟩
  exact congrArg (fun x : ResetCause => x.restoredLines + 1) hsame.1

theorem upLine_upUnbound (h : s.attention.get l = false) : upLine l (s.upUnbound l) := by
  refine ⟨?_, h⟩
  have hline : (s.upUnbound l).line l = .atRest (s.upState l) (s.items l).antic := line_modLine_same ..
  have hstate : s.upState l = if s.settings.calLost = true ∨ s.settings.anySet l = false then .setup else .idle := by
    simp only [State.upState, Bool.or_eq_true, Bool.not_eq_true']
  rw [hline, hstate]
  exact ⟨rfl, rfl, rfl, rfl, rfl, rfl, rfl, rfl, rfl, rfl, rfl, rfl, rfl, rfl, rfl, rfl, rfl⟩

/-- What it makes of another. -/
theorem bringUp_none (h : s.recordFor l = none) (hattention : s.attention.get l = false) : StepAt l none s (s.bringUp l)
    ∧ upLine l (s.bringUp l) ∧ ((s.bringUp l).line l).bound = none
    ∧ (s.bringUp l).resetCause = s.resetCause ∧ (s.bringUp l).pump = s.pump ∧ (s.bringUp l).slots = s.slots := by
  have hup : s.bringUp l = s.upUnbound l := by rw [State.bringUp, h]
  rw [hup]
  refine ⟨.modLine s l none _, upLine_upUnbound hattention, ?_, rfl, rfl, rfl⟩
  exact congrArg LineCtx.bound (line_modLine_same s l fun _ => .atRest (s.upState l) (s.items l).antic)

end

/-! ## The record read BOUND for a line (R94, log 63) -/

theorem recordFor_of_slots {s u : State} (h : u.slots = s.slots) (l : Line) : u.recordFor l = s.recordFor l := by
  unfold State.recordFor State.records
  rw [h]

theorem recordFor_some {s : State} {l : Line} {r : Record} (h : s.recordFor l = some r) :
    r ∈ s.records ∧ r.state = .bound ∧ ∃ b, r.binding = some b ∧ b.line = l := by
  have hp := List.find?_some h
  simp only [Bool.and_eq_true, beq_iff_eq, Option.any_eq_true] at hp
  exact ⟨List.mem_of_find?_eq_some h, hp⟩

theorem records_modRec (s : State) (m : Nat) (f : Record → Record) :
    (s.modRec m f).records = s.records.map (fun r => if r.stop = m then f r else r) := by
  unfold State.records State.modRec
  rw [List.filterMap_map, List.map_filterMap]
  exact List.filterMap_congr fun x _ => record?_modRecord m f x

/-- The records behind a restored line's step: its own as restored. -/
theorem records_upBound (s : State) (l : Line) (r : Record) :
    (s.upBound l r).records = s.records.map (fun c => if c.stop = r.stop then c.asRestored else c) := by
  have hslots : (s.upBound l r).slots = ((s.modRec r.stop Record.restoredFlags).modRec r.stop Record.checkpointed).slots := by
    rw [upBound_eq, (store_enterPaused (bound_relimited s l r) .power).1]
    exact enqueue_slots ..
  have hrecords : (s.upBound l r).records = ((s.modRec r.stop Record.restoredFlags).modRec r.stop Record.checkpointed).records :=
    congrArg (List.filterMap Slot.record?) hslots
  rw [hrecords, records_modRec, records_modRec, List.map_map]
  refine List.map_congr_left fun c _ => ?_
  by_cases h : c.stop = r.stop
  · simp [h, Record.restoredFlags, Record.checkpointed, Record.asRestored]
  · simp [h]

/-- The record read BOUND for a line is the same behind the other line's step. -/
theorem recordFor_bringUp {s : State} {l k : Line} (hunique : ∀ r ∈ s.records, s.recOf r.stop = some r) (hk : k ≠ l) :
    (s.bringUp l).recordFor k = s.recordFor k := by
  cases h : s.recordFor l with
  | none =>
    rw [State.bringUp, h]
    exact recordFor_of_slots rfl k
  | some r =>
    obtain ⟨hmem, -, b, hb, hbl⟩ := recordFor_some h
    obtain ⟨-, -, -, -, hslots⟩ := bringUp_record h (hunique r hmem)
    have hsame : ∀ c : Record, ((fun r : Record => r.state == .bound && r.binding.any (fun b => b.line == k)) ∘
        fun c : Record => if c.stop = r.stop then c.asRestored else c) c = (c.state == .bound && c.binding.any (fun b => b.line == k)) := by
      intro c
      show (fun r : Record => r.state == .bound && r.binding.any (fun b => b.line == k)) (if c.stop = r.stop then _ else _) = _
      split <;> rfl
    rw [recordFor_of_slots hslots]
    unfold State.recordFor
    rw [records_upBound, List.find?_map, funext hsame]
    cases hc : s.records.find? (fun c => c.state == .bound && c.binding.any (fun b => b.line == k)) with
    | none => rfl
    | some c =>
      have hne : c.stop ≠ r.stop := by
        intro hstop
        obtain ⟨hmem', -, b', hb', hbl'⟩ := recordFor_some (s := s) (l := k) hc
        have h1 := hunique r hmem
        have h2 := hunique c hmem'
        rw [hstop] at h2
        obtain rfl := Option.some.inj (h1.symm.trans h2)
        obtain rfl := Option.some.inj (hb.symm.trans hb')
        exact hk (hbl'.symm.trans hbl)
      exact congrArg some (if_neg hne)

end Sys2Proof.Machine
end

