-- ==== Sys2Proof/Proofs/LinesBroughtUp.lean ====
section
/-! PROOFS. Both lines brought up, and line 2's record returned. -/

open Sys2Proof Sys2Proof.Machine

namespace Sys2Proof.Machine

/-! ## Steps 7 and 8 of a restart (R94, R135) -/

/-- Steps 7 and 8 of a restart change the slots' records, the queue, the lines, their attention, the restart record and the pump. -/
structure UpOnly (s u : State) : Prop where
  eq : u = { s with
    slots := u.slots, queue := u.queue, lines := u.lines, attention := u.attention, resetCause := u.resetCause, pump := u.pump }
  homes : HomesKept s u
  grows : ∀ k ∈ s.queue, k ∈ u.queue

theorem StepAt.upOnly {l : Line} {stop : Option Nat} {s u : State} (h : StepAt l stop s u) : UpOnly s u := ⟨h.eq, h.homes, h.grows⟩

namespace UpOnly
variable {s u v : State}

theorem trans (h : UpOnly s u) (k : UpOnly u v) : UpOnly s v := by
  refine ⟨?_, h.homes.trans k.homes, fun x hx => k.grows x (h.grows x hx)⟩
  have heq := h.eq
  rw [k.eq]
  generalize v.slots = a, v.queue = b, v.lines = c, v.attention = d, v.resetCause = e, v.pump = f
  rw [heq]

theorem read {α : Type} (h : UpOnly s u) (g : State → α) : g u = g { s with
    slots := u.slots, queue := u.queue, lines := u.lines, attention := u.attention, resetCause := u.resetCause, pump := u.pump } :=
  congrArg g h.eq

end UpOnly

/-- A line brought up without a record holds none. -/
def freeLine (l : Line) (u : State) : Prop := upLine l u ∧ (u.line l).bound = none

section
variable {l : Line} {stop : Option Nat} {u v : State} (h : StepAt l stop u v) {k : Line} (hk : k ≠ l)
include h hk

/-- A step of the other line leaves a restored line as it is. -/
theorem StepAt.restoredAt {c : Record} (hc : RestoredAt k c u) (hne : stop ≠ some c.stop) : RestoredAt k c v := by
  obtain ⟨h1, h2⟩ := h.other k hk
  exact RestoredAt.keep h1 h2 (h.read State.settings) hc (h.recs c.stop hne) h.grows

theorem StepAt.freeLine (hc : freeLine k u) : Machine.freeLine k v := by
  obtain ⟨h1, h2⟩ := h.other k hk
  exact ⟨upLine_keep h1 h2 (h.read State.settings) hc.1, (congrArg LineCtx.bound h1).trans hc.2⟩

end

/-- What step 7 leaves of a line, by the record read BOUND for it. -/
def lineUp (l : Line) (f : Option Record) (u : State) : Prop :=
  (∀ c, f = some c → RestoredAt l c u) ∧ (f = none → freeLine l u)

/-- What a restart's steps leave of the records that are not the lines'. -/
def othersKept (s u : State) : Prop := ∀ m, (∀ l c, s.recordFor l = some c → c.stop ≠ m) → u.recOf m = s.recOf m

/-- A state whose lines have not come up and whose records have stops of their own. -/
structure Unraised (b : State) : Prop where
  unique : ∀ r ∈ b.records, b.recOf r.stop = some r
  quiet : ∀ l, b.attention.get l = false
  count : b.resetCause.restoredLines = 0

theorem Unraised.stop_ne {b : State} (hb : Unraised b) {c d : Record} (hc : b.recordFor .one = some c) (hd : b.recordFor .two = some d) :
    c.stop ≠ d.stop := by
  intro hstop
  obtain ⟨hmem, -, x, hx, hxl⟩ := recordFor_some hc
  obtain ⟨hmem', -, y, hy, hyl⟩ := recordFor_some hd
  have h1 := hb.unique c hmem
  rw [hstop, hb.unique d hmem'] at h1
  obtain rfl := Option.some.inj h1
  obtain rfl := Option.some.inj (hx.symm.trans hy)
  cases hxl.symm.trans hyl

/-- Step 7 of a restart for one line. -/
theorem lineUp_bringUp {b s : State} (hb : Unraised b) {l : Line} (hfor : s.recordFor l = b.recordFor l)
    (hrec : ∀ c, b.recordFor l = some c → s.recOf c.stop = b.recOf c.stop) (hquiet : s.attention.get l = false) :
    StepAt l ((b.recordFor l).map (·.stop)) s (s.bringUp l) ∧ lineUp l (b.recordFor l) (s.bringUp l)
      ∧ (s.bringUp l).resetCause.restoredLines = s.resetCause.restoredLines + (if (b.recordFor l).isSome then 1 else 0)
      ∧ (s.bringUp l).pump = s.pump := by
  cases h : b.recordFor l with
  | none =>
    have hnone : s.recordFor l = none := hfor.trans h
    obtain ⟨h1, h2, h3, h4, h5, -⟩ := bringUp_none hnone hquiet
    exact ⟨h1, ⟨fun c hc => absurd hc.symm (Option.some_ne_none c), fun _ => ⟨h2, h3⟩⟩, by rw [h4]; exact (Nat.add_zero _).symm, h5⟩
  | some r =>
    obtain ⟨hmem, -, -⟩ := recordFor_some h
    obtain ⟨h1, h2, h3, h4, -⟩ := bringUp_record (hfor.trans h) ((hrec r h).trans (hb.unique r hmem))
    refine ⟨h1, ⟨fun c hc => ?_, fun hc => absurd hc (Option.some_ne_none r)⟩, by rw [h3]; rfl, h4⟩
    obtain rfl := Option.some.inj hc
    exact h2

/-- What step 7 of a restart leaves. -/
structure Raised (b u : State) : Prop where
  only : UpOnly b u
  lines : ∀ l, lineUp l (b.recordFor l) u
  others : othersKept b u
  count : u.resetCause.restoredLines
    = (if (b.recordFor .one).isSome then 1 else 0) + (if (b.recordFor .two).isSome then 1 else 0)
  pump : u.pump = b.pump

theorem raised_bringUp {b : State} (hb : Unraised b) : Raised b ((b.bringUp .one).bringUp .two) := by
  obtain ⟨u, hu⟩ : ∃ u, u = b.bringUp .one := ⟨_, rfl⟩
  obtain ⟨v, hv⟩ : ∃ v, v = u.bringUp .two := ⟨_, rfl⟩
  obtain ⟨hstep, hone, hcount, hpump⟩ := lineUp_bringUp hb (l := .one) rfl (fun _ _ => rfl) (hb.quiet .one)
  have hne : ∀ {c d : Record}, b.recordFor .one = some c → b.recordFor .two = some d → (b.recordFor .one).map (·.stop) ≠ some d.stop := by
    intro c d hc hd h
    rw [hc] at h
    exact hb.stop_ne hc hd (Option.some.inj h)
  have hfor := recordFor_bringUp hb.unique (show Line.two ≠ .one by decide)
  rw [← hu] at hstep hone hcount hpump hfor
  have hrec : ∀ d, b.recordFor .two = some d → u.recOf d.stop = b.recOf d.stop := by
    intro d hd
    refine hstep.recs d.stop fun h => ?_
    obtain ⟨c, hc, -⟩ := Option.map_eq_some_iff.1 h
    exact hne hc hd h
  have hquiet : u.attention.get .two = false := (hstep.other .two (by decide)).2.trans (hb.quiet .two)
  obtain ⟨hstep', htwo, hcount', hpump'⟩ := lineUp_bringUp hb (s := u) hfor hrec hquiet
  rw [← hv] at hstep' htwo hcount' hpump'
  rw [← hu, ← hv]
  refine ⟨hstep.upOnly.trans hstep'.upOnly, fun l => ?_, fun m hm => ?_, ?_, hpump'.trans hpump⟩
  · cases l with
    | two => exact htwo
    | one =>
      refine ⟨fun c hc => hstep'.restoredAt (by decide) (hone.1 c hc) fun h => ?_, fun h => hstep'.freeLine (by decide) (hone.2 h)⟩
      obtain ⟨d, hd, hstop⟩ := Option.map_eq_some_iff.1 h
      exact hb.stop_ne hc hd hstop.symm
  · have hother : ∀ l, (b.recordFor l).map (·.stop) ≠ some m := by
      intro l h
      obtain ⟨c, hc, hstop⟩ := Option.map_eq_some_iff.1 h
      exact hm l c hc hstop
    exact (hstep'.recs m (hother .two)).trans (hstep.recs m (hother .one))
  · rw [hcount', hcount, hb.count, Nat.zero_add]

/-! ## Line 2's record returned to PLANNED (R135) -/

theorem stepAt_yieldLineTwo (s : State) (stop : Nat) : StepAt .two (some stop) s (s.yieldLineTwo stop) := by
  refine ((StepAt.changeRec s .two stop (f := Record.returned) fun _ => rfl).trans
    (.modLine _ .two _ fun _ => .atRest _ _)).trans ⟨rfl, .of_slots rfl, fun _ h => h, fun k hk => ⟨rfl, ?_⟩, fun _ _ => rfl⟩
  cases k with
  | one => rfl
  | two => exact absurd rfl hk

theorem freeLine_yieldLineTwo (s : State) (stop : Nat) : freeLine .two (s.yieldLineTwo stop) := by
  obtain ⟨u, hu⟩ : ∃ u, u = ({ s.changeRec stop Record.returned with
    attention := (s.changeRec stop Record.returned).attention.set .two false } : State) := ⟨_, rfl⟩
  have hyield : s.yieldLineTwo stop = u.upUnbound .two := by
    rw [hu]
    rfl
  rw [hyield]
  exact ⟨upLine_upUnbound (by rw [hu]; rfl), congrArg LineCtx.bound (line_modLine_same u .two fun _ => .atRest (u.upState .two) (u.items .two).antic)⟩

theorem recOf_yieldLineTwo {s : State} {stop : Nat} {r : Record} (h : s.recOf stop = some r) :
    (s.yieldLineTwo stop).recOf stop = some r.returned := by
  have hrec := recOf_changeRec_same s stop Record.returned fun _ => rfl
  rw [h] at hrec
  exact hrec

end Sys2Proof.Machine
end

