-- ==== Sys2Proof/Proofs/PumpRebuilt.lean ====
section
/-! PROOFS. The pump rebuilt. -/

open Sys2Proof Sys2Proof.Machine

namespace Sys2Proof.Machine

/-! ## Step 8 of a restart: the pump rebuilt (R135) -/

theorem boundComp_none_iff (b : State) (l : Line) : b.boundComp l = none ↔ b.recordFor l = none := by
  cases h : b.recordFor l with
  | none => simp [State.boundComp, h]
  | some c =>
    obtain ⟨-, -, x, hx, -⟩ := recordFor_some h
    simp [State.boundComp, h, hx]

theorem restoredComp_raised {b u : State} (h : Raised b u) (l : Line) : u.restoredComp l = b.boundComp l := by
  cases hc : b.recordFor l with
  | none =>
    obtain ⟨-, hbound⟩ := (h.lines l).2 hc
    rw [(boundComp_none_iff b l).2 hc, State.restoredComp, State.boundRec, hbound]
    rfl
  | some c =>
    have hup := (h.lines l).1 c hc
    rw [State.restoredComp, State.boundRec, hup.bound, State.boundComp, hc]
    show ((u.recOf c.stop).bind _).map _ = _
    rw [hup.recOf]
    rfl

/-- The pump for the compartments of the records read BOUND for the lines. -/
def pumpUp : Option Nat → Option Nat → Option PumpBinding
  | none, none => none
  | some c, none => some ⟨c, ⟨true, false⟩⟩
  | none, some d => some ⟨d, ⟨false, true⟩⟩
  | some c, some d => some ⟨c, ⟨true, c == d⟩⟩

/-- Line 2's record is returned: the two records name different compartments. -/
def State.yields (b : State) : Prop := b.boundComp .one ≠ none ∧ b.boundComp .two ≠ none ∧ b.boundComp .one ≠ b.boundComp .two

section
variable {b u : State} (h : Raised b u)
include h

theorem rebuildPump_same (hno : ¬ b.yields) : u.rebuildPump = { u with pump := pumpUp (b.boundComp .one) (b.boundComp .two) } := by
  have hone := restoredComp_raised h .one
  have htwo := restoredComp_raised h .two
  unfold State.yields at hno
  unfold State.rebuildPump
  rw [hone, htwo]
  cases hc : b.boundComp .one with
  | none => cases hd : b.boundComp .two with
    | none => rfl
    | some d => rfl
  | some c => cases hd : b.boundComp .two with
    | none => rfl
    | some d =>
      have hcd : c = d := by
        rw [hc, hd] at hno
        simpa using hno
      rw [← hcd]
      simp [pumpUp]

theorem rebuildPump_yields (hy : b.yields) {c : Record} (hc : b.recordFor .two = some c) :
    u.rebuildPump = ({ u with pump := pumpUp (b.boundComp .one) (b.boundComp .two) } : State).yieldLineTwo c.stop := by
  have hone := restoredComp_raised h .one
  have htwo := restoredComp_raised h .two
  obtain ⟨h1, h2, h3⟩ := hy
  have hbound : u.lines.two.bound = some c.stop := ((h.lines .two).1 c hc).bound
  unfold State.rebuildPump
  rw [hone, htwo]
  obtain ⟨x, hx⟩ := Option.ne_none_iff_exists'.1 h1
  obtain ⟨y, hy⟩ := Option.ne_none_iff_exists'.1 h2
  rw [hx, hy] at h3 ⊢
  have hxy : x ≠ y := fun he => h3 (congrArg some he)
  simp only [hbound, if_neg hxy, pumpUp]
  rw [show (x == y) = false from beq_eq_false_iff_ne.2 hxy]

end

/-- Line 2's record as a restart returns it to PLANNED (R17, R135). -/
def returnedAt (c : Record) (u : State) : Prop :=
  ∃ r, u.recOf c.stop = some r ∧ r.state = .planned ∧ r.binding = none ∧ r.restored = .none
    ∧ r.attempts = min 255 (c.attempts + 1) ∧ ∀ d ∈ r.drops, d.st = .pending

theorem returnedAt_of_recOf {c : Record} {u : State} (h : u.recOf c.stop = some c.asRestored.returned) : returnedAt c u := by
  refine ⟨_, h, rfl, rfl, rfl, rfl, fun d hd => ?_⟩
  obtain ⟨x, -, rfl⟩ := List.mem_map.1 hd
  rfl

/-- What steps 7 and 8 of a restart leave. -/
structure BroughtUp (b u : State) : Prop where
  only : UpOnly b u
  one : lineUp .one (b.recordFor .one) u
  two : ¬ b.yields → lineUp .two (b.recordFor .two) u
  yields : b.yields → freeLine .two u ∧ ∀ c, b.recordFor .two = some c → returnedAt c u
  others : othersKept b u
  count : u.resetCause.restoredLines
    = (if (b.recordFor .one).isSome then 1 else 0) + (if (b.recordFor .two).isSome then 1 else 0)
  pump : u.pump = pumpUp (b.boundComp .one) (b.boundComp .two)

theorem lineUp_keep {l : Line} {f : Option Record} {u v : State} {stop : Option Nat} {k : Line} (h : StepAt k stop u v) (hk : l ≠ k)
    (hne : ∀ c, f = some c → stop ≠ some c.stop) (hu : lineUp l f u) : lineUp l f v :=
  ⟨fun c hc => h.restoredAt hk (hu.1 c hc) (hne c hc), fun hn => h.freeLine hk (hu.2 hn)⟩

theorem lineUp_pump {l : Line} {f : Option Record} {u : State} (h : lineUp l f u) (p : Option PumpBinding) : lineUp l f { u with pump := p } :=
  ⟨fun c hc => RestoredAt.keep (u := u) (v := { u with pump := p }) rfl rfl rfl (h.1 c hc) rfl fun _ hk => hk, h.2⟩

theorem broughtUp {b : State} (hb : Unraised b) : BroughtUp b (((b.bringUp .one).bringUp .two).rebuildPump) := by
  obtain ⟨u, hu⟩ : ∃ u, u = (b.bringUp .one).bringUp .two := ⟨_, rfl⟩
  have hraised := raised_bringUp hb
  rw [← hu] at hraised ⊢
  obtain ⟨w, hw⟩ : ∃ w : State, w = { u with pump := pumpUp (b.boundComp .one) (b.boundComp .two) } := ⟨_, rfl⟩
  have hstep : StepAt .two none u w := by
    rw [hw]
    exact .ofPump u _ _ _
  have hlines : ∀ l, lineUp l (b.recordFor l) w := by
    intro l
    rw [hw]
    exact lineUp_pump (hraised.lines l) _
  have hpump : w.pump = pumpUp (b.boundComp .one) (b.boundComp .two) := by rw [hw]
  have hcount : w.resetCause = u.resetCause := by rw [hw]
  have honly := hraised.only.trans hstep.upOnly
  have hothers : othersKept b w := fun m hm => (hstep.recs m nofun).trans (hraised.others m hm)
  by_cases hy : b.yields
  · obtain ⟨c, hc⟩ := Option.ne_none_iff_exists'.1 (mt (boundComp_none_iff b .two).2 hy.2.1)
    have hpumped := rebuildPump_yields hraised hy hc
    rw [← hw] at hpumped
    obtain ⟨v, hv⟩ : ∃ v, v = w.yieldLineTwo c.stop := ⟨_, rfl⟩
    have hyield := stepAt_yieldLineTwo w c.stop
    have hfree := freeLine_yieldLineTwo w c.stop
    have hrec := recOf_yieldLineTwo ((hlines .two).1 c hc).recOf
    have hsame : v.pump = w.pump ∧ v.resetCause = w.resetCause := by
      rw [hv]
      exact ⟨enqueue_pump .., enqueue_resetCause ..⟩
    rw [hpumped, ← hv]
    rw [← hv] at hyield hfree hrec
    refine ⟨honly.trans hyield.upOnly, lineUp_keep hyield (by decide) (fun d hd h => ?_) (hlines .one), fun hn => absurd hy hn,
      fun _ => ⟨hfree, fun d hd => ?_⟩, fun m hm => ?_, ?_, hsame.1.trans hpump⟩
    · exact hb.stop_ne hd hc (Option.some.inj h).symm
    · obtain rfl := Option.some.inj (hc.symm.trans hd)
      exact returnedAt_of_recOf hrec
    · exact (hyield.recs m fun h => hm .two c hc (Option.some.inj h)).trans (hothers m hm)
    · rw [hsame.2, hcount]
      exact hraised.count
  · have hpumped := rebuildPump_same hraised hy
    rw [← hw] at hpumped
    rw [hpumped]
    exact ⟨honly, hlines .one, fun _ => hlines .two, fun h => absurd h hy, hothers, by rw [hcount]; exact hraised.count, hpump⟩

end Sys2Proof.Machine
end

