-- ==== Sys2Proof/Proofs/RestartKept.lean ====
section
/-! PROOFS. What the store takes behind a restart. -/

open Sys2Proof Sys2Proof.Machine

namespace Sys2Proof.Machine

/-! ## What the store takes behind a restart (R33, R94, R119) -/

/-- What a restart reads of a state stands alike in both. -/
structure SameStore (s v : State) : Prop where
  slots : v.slots = s.slots
  inputs : v.inputs = s.inputs
  clock : v.clock = s.clock
  captures : v.captures = s.captures
  areaSettings : v.areaSettings = s.areaSettings
  areaLoad : v.areaLoad = s.areaLoad
  areaRoute : v.areaRoute = s.areaRoute
  levels : ∀ l, (v.meter l).levelA = (s.meter l).levelA ∧ (v.meter l).levelB = (s.meter l).levelB

theorem ReadBack.congr {s v b : State} {cause : RestartCause} {r : RestartReads} (h : ReadBack v cause r b) (hs : SameStore s v) :
    ReadBack s cause r b := by
  obtain ⟨hslots, hinputs, -, hcaptures, hset, hload, hroute, hlevels⟩ := hs
  have hbegin : (v.restartBegin cause).captures = (s.restartBegin cause).captures := by
    show (if cause = .powerOn then _ else v.captures) = if cause = .powerOn then _ else s.captures
    rw [hcaptures]
  refine ⟨by rw [h.slots, hslots], h.lines, h.attention, h.pump, h.phase, h.unsaved, h.flight, h.restored, fun l => ?_,
    by rw [h.settings, hset, hinputs], by rw [h.failed, hset], by rw [← hset]; exact h.writes, by rw [h.captures, hslots, hbegin],
    by rw [h.counter, hload, hroute]⟩
  obtain ⟨h1, h2⟩ := hlevels l
  rw [h.meter, h1, h2]

section
variable {s b : State} {cause : RestartCause} {reads : RestartReads} (hb : ReadBack s cause reads b)
include hb

theorem ReadBack.unraised : Unraised b := by
  refine ⟨fun r hr => ?_, fun l => ?_, hb.restored⟩
  · obtain ⟨n, q, hnew⟩ := (mem_records_scanned hb.slots r).1 hr
    exact recOf_scanned hb.slots hnew
  · rw [hb.attention]
    cases l <;> rfl

theorem ReadBack.recordFor (l : Line) : (s.scan reads.slots).recordFor l = b.recordFor l :=
  recordFor_of_slots (((scan_entries s reads.slots).read State.slots).trans hb.slots.symm) l

end

section
variable {b u : State} (hu : BroughtUp b u)
include hu

/-- Each line either holds the record read BOUND for it, restored, or holds none. -/
theorem line_broughtUp (l : Line) : freeLine l u ∨ ∃ c, b.recordFor l = some c ∧ RestoredAt l c u := by
  have hline : ∀ {k : Line}, lineUp k (b.recordFor k) u → freeLine k u ∨ ∃ c, b.recordFor k = some c ∧ RestoredAt k c u := by
    intro k hk
    cases hc : b.recordFor k with
    | none => exact .inl (hk.2 hc)
    | some c => exact .inr ⟨c, rfl, hk.1 c hc⟩
  cases l with
  | one => exact hline hu.one
  | two =>
    by_cases hy : b.yields
    · exact .inl (hu.yields hy).1
    · exact hline (hu.two hy)

theorem restored_broughtUp (hb : Unraised b) : u.Restored := by
  refine ⟨fun l stop hbound => ?_, fun stop hone htwo => ?_⟩
  · rcases line_broughtUp hu l with hfree | ⟨c, -, hc⟩
    · rw [hfree.2] at hbound
      cases hbound
    · exact hc.paused.1
  · rcases line_broughtUp hu .one with hfree | ⟨c, hc, hcu⟩
    · rw [hfree.2] at hone
      cases hone
    · rcases line_broughtUp hu .two with hfree | ⟨d, hd, hdu⟩
      · rw [hfree.2] at htwo
        cases htwo
      · rw [hcu.bound] at hone
        rw [hdu.bound] at htwo
        exact hb.stop_ne hc hd ((Option.some.inj hone).trans (Option.some.inj htwo).symm)

end

section
variable {u t : State} (hk : KeptUp u t) (hs : StoreKeeps u t) {l : Line}
include hk hs

theorem upLine_kept (h : freeLine l u) : upLine l t := by
  obtain ⟨⟨hrest, hattention⟩, hbound⟩ := h
  have hcore : (t.line l).core = (u.line l).core := (hk.line l).trans (LineCtx.heard_unbound hbound)
  refine ⟨?_, by rw [hs.attention]; exact hattention⟩
  show (t.line l).core.isAtRest _
  rw [hcore, hs.settings]
  exact hrest

theorem restoredLine_kept {c : Record} {s : State} (h : RestoredAt l c u) (hasked : asked t (.record c.stop) ∨ c.stop ∈ t.unsaved)
    (hmeter : t.meter l = .restart (s.meter l).levelA (s.meter l).levelB) : restoredLine l c s t := by
  obtain ⟨hpaused, hkind, hbound, hreserved, hlatched, hattention, hlimited, hunlimited, hrec, -⟩ := h
  obtain ⟨h1, h2, h3, h4, h5, h6, h7⟩ := hpaused
  have hcore : (t.line l).core = { (u.line l).core with cause := some (if c.stop ∈ t.unsaved then .store else .power) } := by
    rw [hk.line l]
    by_cases hm : c.stop ∈ t.unsaved
    · rw [LineCtx.heard_of_mem (c := (u.line l).core) hbound hm, if_pos hm]
    · rw [LineCtx.heard_of_not_mem (c := (u.line l).core) hbound hm, if_neg hm, ← h2]
      rfl
  have hfield : ∀ {α : Type} (g : LineCtx → α), (∀ x, g x.core = g x) → (∀ (x : LineCtx) y, g { x with cause := y } = g x) →
      g (t.line l) = g (u.line l) := by
    intro α g hg hc
    rw [← hg, hcore, hc, hg]
  have hset := hs.settings
  refine ⟨?_, ?_, ?_, ?_, ?_, by rw [hs.attention]; exact hattention, fun n d hd => ?_, fun hn => ?_, (hs.recOf _).trans hrec, hasked, hmeter⟩
  · show (t.line l).core.justPaused _ _
    rw [hcore, hset]
    exact ⟨h1, rfl, h3, h4, h5, h6, h7⟩
  · exact (hfield LineCtx.kind (fun _ => rfl) fun _ _ => rfl).trans hkind
  · exact (hfield LineCtx.bound (fun _ => rfl) fun _ _ => rfl).trans hbound
  · exact (hfield LineCtx.reserved (fun _ => rfl) fun _ _ => rfl).trans hreserved
  · rw [hset]
    exact (hfield LineCtx.latched (fun _ => rfl) fun _ _ => rfl).trans hlatched
  · rw [hset]
    exact (hfield LineCtx.limit (fun _ => rfl) fun _ _ => rfl).trans (hlimited n d hd)
  · exact (hfield LineCtx.limit (fun _ => rfl) fun _ _ => rfl).trans (hunlimited hn)

end

end Sys2Proof.Machine
end

