-- ==== Sys2Proof/Proofs/RestartLeaves.lean ====
section
/-! PROOFS. What a restart leaves, claim by claim. -/

open Sys2Proof Sys2Proof.Machine

namespace Sys2Proof.Machine

/-! ## A restart and what the store takes behind it (R94, R135, R183) -/

/-- Steps 1 to 9 of a restart of `s`, with the store's taking of what they queued. -/
structure Restarts (s : State) (cause : RestartCause) (reads : RestartReads) (b u t : State) : Prop where
  back : ReadBack s cause reads b
  brought : BroughtUp b u
  kept : KeptUp u t
  store : StoreKeeps u t
  queued : ∀ k ∈ u.queue, asked t k ∨ ∃ stop, k = .record stop ∧ (stop ∈ t.unsaved ∨ u.recOf stop = none)

theorem restarts_runStore {s v : State} (hs : SameStore s v) (cause : RestartCause) (reads : RestartReads) :
    ∃ b u, Restarts s cause reads b u (v.restart cause reads).runStore ∧ u = v.restart cause reads := by
  obtain ⟨b, hb⟩ : ∃ b, b = v.readBack cause reads := ⟨_, rfl⟩
  have hback := (readBack_readBack v cause reads).congr hs
  have hbrought := broughtUp hback.unraised
  obtain ⟨u, hu⟩ : ∃ u, u = v.restart cause reads := ⟨_, rfl⟩
  rw [← restart_eq, ← hu, ← hb] at hbrought
  rw [← hb] at hback
  have hup : u.isUp = true := by
    have hphase : u.phase = .restart := (hbrought.only.read State.phase).trans hback.phase
    simp [State.isUp, hphase]
  have hnone : u.unsaved = [] := (hbrought.only.read State.unsaved).trans hback.unsaved
  obtain ⟨hkept, -, hqueued⟩ := KeptUp.storeRun (restored_broughtUp hbrought hback.unraised) (u.queue.length + 1) u (.refl hup hnone)
  rw [← hu]
  exact ⟨b, u, ⟨hback, hbrought, hkept, runStore_keeps u, hqueued⟩, rfl⟩

namespace Restarts
variable {s b u t : State} {cause : RestartCause} {reads : RestartReads} (h : Restarts s cause reads b u t)
include h

theorem settings : t.settings = settingsUp (readArea .settings s.areaSettings reads.settings) s.inputs.sealOpen :=
  h.store.settings.trans ((h.brought.only.read State.settings).trans h.back.settings)

theorem failed : t.failed.settings = (readArea .settings s.areaSettings reads.settings).isNone :=
  (congrArg FailedMarks.settings h.store.failed).trans ((h.brought.only.read (fun x => x.failed.settings)).trans h.back.failed)

theorem meter (l : Line) : t.meter l = .restart (s.meter l).levelA (s.meter l).levelB := by
  have hmeters : t.meters = b.meters := h.store.meters.trans (h.brought.only.read State.meters)
  have hb := h.back.meter l
  unfold State.meter at hb ⊢
  rw [hmeters]
  exact hb

theorem counter : t.counter = b.counter := h.store.counter.trans (h.brought.only.read State.counter)

theorem captures (hclean : reads.slots = []) : t.captures = if cause = .powerOn then ⟨none, []⟩ else s.captures := by
  have hb := h.back.captures
  rw [hclean, scanCaptures_clean] at hb
  exact h.store.captures.trans ((h.brought.only.read State.captures).trans hb)

/-- The settings' write stands asked for where they could not be read. -/
theorem writes (hbad : readArea .settings s.areaSettings reads.settings = none) : asked t (.block .settings) := by
  rcases h.queued _ (h.brought.only.grows _ (h.back.writes hbad)) with hasked | ⟨stop, hk, -⟩
  · exact hasked
  · cases hk

theorem recs_other {m : Nat} {r : Record} (hr : b.recOf m = some r) (hstate : r.state ≠ .bound) : t.recOf m = some r := by
  refine (h.store.recOf m).trans ((h.brought.others m fun l c hc hstop => ?_).trans hr)
  obtain ⟨hmem, hbound, -⟩ := recordFor_some hc
  rw [← hstop, h.back.unraised.unique c hmem] at hr
  obtain rfl := Option.some.inj hr
  exact hstate hbound

theorem scanned : scanned reads.slots s t :=
  scanned_of_homes h.back.slots (h.brought.only.homes.trans h.kept.homes) fun _ _ => h.recs_other

theorem restoredLine {l : Line} {c : Record} (hc : RestoredAt l c u) : Machine.restoredLine l c s t := by
  refine restoredLine_kept h.kept h.store hc ?_ (h.meter l)
  rcases h.queued _ hc.queued with hasked | ⟨stop, hk, hlost | hgone⟩
  · exact .inl hasked
  · cases hk
    exact .inr hlost
  · cases hk
    rw [hc.recOf] at hgone
    cases hgone

theorem upLine {l : Line} (hl : freeLine l u) : Machine.upLine l t := upLine_kept h.kept h.store hl

theorem linesUp : linesUp (s.scan reads.slots) s t := by
  have hfor := h.back.recordFor
  have hcomp : ∀ l, (s.scan reads.slots).boundComp l = b.boundComp l := fun l => by rw [State.boundComp, hfor]; rfl
  have hpump : t.pump = pumpUp (b.boundComp .one) (b.boundComp .two) := h.store.pump.trans h.brought.pump
  have hcount : t.resetCause.restoredLines = u.resetCause.restoredLines := congrArg ResetCause.restoredLines h.store.resetCause
  unfold Machine.linesUp
  rw [hfor, hfor, hcomp, hcomp, hpump, hcount]
  refine ⟨fun c hc => h.restoredLine (h.brought.one.1 c hc), fun hn => h.upLine (h.brought.one.2 hn), fun hn => ?_, fun c hc => ⟨fun hsame => ?_,
    fun h1 h2 => ?_⟩, ?_, h.brought.count⟩
  · have hno : ¬ b.yields := fun hy => hy.2.1 ((boundComp_none_iff b .two).2 hn)
    exact h.upLine ((h.brought.two hno).2 hn)
  · have hno : ¬ b.yields := fun hy => hsame.elim hy.1 hy.2.2
    exact h.restoredLine ((h.brought.two hno).1 c hc)
  · have hy : b.yields := ⟨h1, fun hn => Option.some_ne_none c (hc.symm.trans ((boundComp_none_iff b .two).1 hn)), h2⟩
    obtain ⟨hfree, hreturned⟩ := h.brought.yields hy
    obtain ⟨r, hr, hfields⟩ := hreturned c hc
    exact ⟨h.upLine hfree, r, (h.store.recOf _).trans hr, hfields⟩
  · cases b.boundComp .one with
    | none => cases b.boundComp .two with
      | none => rfl
      | some d => rfl
    | some c => cases b.boundComp .two with
      | none => rfl
      | some d => rfl

end Restarts

/-! ## The outputs and the link on the restart path -/

theorem outputs_inactive {t : State} (h : t.isActive = false) :
    t.outPump = false ∧ ∀ l, t.outLow l = false ∧ t.outHigh l = false := by
  have hoff : t.outputsEnabled = false := by rw [State.outputsEnabled, h, Bool.and_false]
  exact ⟨by rw [State.outPump, hoff, Bool.false_and, Bool.false_and],
    fun l => ⟨by rw [State.outLow, hoff, Bool.false_and, Bool.false_and], by rw [State.outHigh, hoff, Bool.false_and, Bool.false_and]⟩⟩

theorem outOutlet_up {t : State} (hup : t.isUp = true) (hm : t.mode = .run) (hp : t.inputs.powerFail = false) (c : Nat) :
    t.outOutlet c = true ↔ ∃ b, t.pump = some b ∧ b.comp = c := by
  unfold State.outOutlet
  rw [hup, hm, hp]
  cases t.pump with
  | none => simp
  | some b => simp

theorem attnOut_up {t : State} (hup : t.isUp = true) (h : t.attentionSet ≠ []) : t.attnOut = t.settings.attnHigh := by
  have hon : t.attnActive = true := by
    rw [State.attnActive, hup, Bool.true_and, Bool.not_eq_true', List.isEmpty_eq_false_iff]
    exact h
  rw [State.attnOut, hon]
  cases t.settings.attnHigh <;> rfl

/-- What a restart leaves with what the store takes behind it. -/
theorem restarted_runStore {s v : State} (hs : SameStore s v) (cause : RestartCause) (reads : RestartReads) :
    restarted cause reads s (v.restart cause reads).runStore := by
  obtain ⟨t, ht⟩ : ∃ t, t = (v.restart cause reads).runStore := ⟨_, rfl⟩
  obtain ⟨b, u, hr, hu⟩ := restarts_runStore hs cause reads
  obtain ⟨hphase, hmode, hcause, hclock, hinputs⟩ := restart_runStore v cause reads ht
  have hpath := PathOnly.restart v cause reads
  have hunasked : t.Unasked := by
    rw [ht]
    exact (AsksNothing.storeRun _ _).keep (unasked_restart v cause reads)
  rw [← hu] at hpath
  rw [← ht] at hr ⊢
  have hup : t.isUp = true := hr.kept.up
  have hactive : t.isActive = false := by simp [State.isActive, hphase]
  have hpower : t.inputs.powerFail = false := by rw [hinputs]
  obtain ⟨hpump, hstages⟩ := outputs_inactive hactive
  refine ⟨hmode, hphase, hcause, hunasked.cmd, hr.store.tx.trans (hpath.read State.tx), by rw [hinputs, hs.inputs],
    hr.store.rx.trans (hpath.read State.rx), hr.store.press.trans (hpath.read State.press), ?_, hr.captures, fun hbad => ?_,
    fun c hgood hc hm => ?_, hr.scanned, recovered_of_readBack hr.back hr.counter, hr.linesUp,
    fun l => ⟨hr.meter l, (hstages l).1, (hstages l).2, hpump, outOutlet_up hup hmode hpower, attnOut_up hup⟩⟩
  · rw [hclock, hs.clock]
    rfl
  · have hnone := readArea_eq_none.2 hbad
    have hsettings := hr.settings
    have hfailed := hr.failed
    rw [hnone] at hsettings hfailed
    exact ⟨hsettings.trans (settingsUp_none _), hfailed, hr.writes hnone⟩
  · have hread : readArea .settings s.areaSettings reads.settings = some c.block := readArea_eq_some.2 ⟨hgood, c, hc, hm, rfl⟩
    have hsettings := hr.settings
    have hfailed := hr.failed
    rw [hread] at hsettings hfailed
    exact ⟨hfailed, hsettings⟩

end Sys2Proof.Machine
end

