-- ==== Sys2Proof/Proofs/RestartRows.lean ====
section
/-! PROOFS. The rows that restart the part, and O56. -/

open Sys2Proof Sys2Proof.Machine

namespace Sys2Proof.Machine

/-! ## What a restart reads, behind the restart path's end and behind a flush with nothing to write -/

theorem SameStore.of_eq {s v : State} (hslots : v.slots = s.slots) (hmeters : v.meters = s.meters) (hinputs : v.inputs = s.inputs)
    (hclock : v.clock = s.clock) (hcaptures : v.captures = s.captures) (hset : v.areaSettings = s.areaSettings)
    (hload : v.areaLoad = s.areaLoad) (hroute : v.areaRoute = s.areaRoute) : SameStore s v :=
  ⟨hslots, hinputs, hclock, hcaptures, hset, hload, hroute, fun l => by unfold State.meter; rw [hmeters]; exact ⟨rfl, rfl⟩⟩

theorem SameStore.trans {s u v : State} (h : SameStore s u) (k : SameStore u v) : SameStore s v :=
  ⟨k.slots.trans h.slots, k.inputs.trans h.inputs, k.clock.trans h.clock, k.captures.trans h.captures, k.areaSettings.trans h.areaSettings,
    k.areaLoad.trans h.areaLoad, k.areaRoute.trans h.areaRoute,
    fun l => ⟨(k.levels l).1.trans (h.levels l).1, (k.levels l).2.trans (h.levels l).2⟩⟩

theorem sameStore_comesUp (s : State) : SameStore s s.comesUp := by
  unfold State.comesUp
  split
  · exact .of_eq rfl rfl rfl rfl rfl rfl rfl rfl
  · exact .of_eq rfl rfl rfl rfl rfl rfl rfl rfl

theorem slots_haltLine {s : State} {l : Line} (h : (s.line l).bound = none) : (s.haltLine l).slots = s.slots := by
  cases hc : (s.line l).st.crediting with
  | false => rw [haltLine_other s l hc]
  | true =>
    rw [haltLine_crediting s l hc]
    exact slots_convert_free (.inr h)

theorem levels_haltLine (s : State) (l : Line) :
    ((s.haltLine l).meter l).levelA = (s.meter l).levelA ∧ ((s.haltLine l).meter l).levelB = (s.meter l).levelB := by
  cases hc : (s.line l).st.crediting with
  | false =>
    rw [haltLine_other s l hc]
    exact ⟨rfl, rfl⟩
  | true =>
    rw [haltLine_crediting s l hc]
    show ((s.convert l).meter l).levelA = _ ∧ ((s.convert l).meter l).levelB = _
    rw [meter_convert]
    exact ⟨rfl, rfl⟩

/-- The halt of a line that holds no record leaves what a restart reads. -/
theorem sameStore_haltLine {s : State} {l : Line} (h : (s.line l).bound = none) : SameStore s (s.haltLine l) := by
  obtain ⟨honly, -, hother⟩ := haltLine_only s l
  refine ⟨slots_haltLine h, honly.read State.inputs, honly.read State.clock, honly.read State.captures, honly.read State.areaSettings,
    honly.read State.areaLoad, honly.read State.areaRoute, fun k => ?_⟩
  by_cases hk : k = l
  · rw [hk]
    exact levels_haltLine s l
  · have hkl : k = l.other := by
      cases k with
      | one => cases l with
        | one => exact absurd rfl hk
        | two => rfl
      | two => cases l with
        | one => rfl
        | two => exact absurd rfl hk
    rw [hkl, hother]
    exact ⟨rfl, rfl⟩

section
variable {s : State} (h : ∀ l, (s.line l).bound = none)
include h

theorem sameStore_halted : SameStore s s.halted := by
  obtain ⟨u, hu⟩ : ∃ u, u = s.haltLine .one := ⟨_, rfl⟩
  have hone := sameStore_haltLine (h .one)
  have hline : u.line .two = s.line .two := by
    rw [hu]
    exact (haltLine_only s .one).2.1
  rw [← hu] at hone
  have htwo := sameStore_haltLine (s := u) (l := .two) (by rw [hline]; exact h .two)
  obtain ⟨v, hv⟩ : ∃ v, v = u.haltLine .two := ⟨_, rfl⟩
  have hbound : ∀ l, (v.line l).bound = none := by
    intro l
    have hvtwo := (haltLine_halted u .two).bound
    have hvone := (haltLine_only u .two).2.1
    have huone := (haltLine_halted s .one).bound
    rw [← hv] at hvtwo hvone
    rw [← hu] at huone
    cases l with
    | one => exact (congrArg LineCtx.bound hvone).trans (huone.trans (h .one))
    | two => exact hvtwo.trans ((congrArg LineCtx.bound hline).trans (h .two))
  have hhalted : s.halted = v := by
    have hsame : s.halted = (v.markFinal .one).markFinal .two := by
      rw [hv, hu]
      rfl
    rw [hsame, markFinal_unbound (hbound .one), markFinal_unbound (hbound .two)]
  rw [hhalted, hv]
  exact hone.trans htwo

theorem sameStore_beginFlush (k : FlushKind) : SameStore s (s.beginFlush k) := by
  rw [beginFlush_eq]
  exact (sameStore_halted h).trans (.of_eq rfl rfl rfl rfl rfl rfl rfl rfl)

end

/-! ## What follows a row that restarts the part -/

theorem commit_restart (v : State) (cause : RestartCause) (reads : RestartReads) :
    commit (v.restart cause reads) = (v.restart cause reads).runStore := by
  have hphase := restart_phase v cause reads
  obtain ⟨w, hw⟩ : ∃ w, w = v.restart cause reads := ⟨_, rfl⟩
  rw [← hw] at hphase ⊢
  have hrun : w.runStore.phase = .restart := (runStore_keeps w).phase.trans hphase
  have hdown : w.runStore.isActive = false := by simp [State.isActive, hrun]
  have hfinish : w.runStore.finishFlush = w.runStore := by simp [State.finishFlush, hrun]
  have hdrained : w.runStore.runStore = w.runStore := runStore_settled _ (runStore_drains (by simp [State.isUp, hphase]))
  rw [commit, State.settleFlush, if_neg (by simp [hdown]), hfinish, hdrained, deliver_down hdown, trySleep_down hdown]

/-- A flush for a link reset with nothing in flight and nothing to write restarts the part. -/
theorem commit_linkRestart {v : State} {f : Flush} {reads : RestartReads} (hp : v.phase = .flush f) (hk : f.kind = .linkReset reads)
    (hf : v.flight = none) (hq : v.queue = []) : commit v = (v.restart .linkReset reads).runStore := by
  have hends : v.finishFlush = v.restart .linkReset reads := by
    unfold State.finishFlush
    rw [hp, hf]
    simp only [hk]
  have hphase : (v.restart .linkReset reads).runStore.phase = .restart := (runStore_keeps _).phase.trans (restart_phase ..)
  have hdown : (v.restart .linkReset reads).runStore.isActive = false := by simp [State.isActive, hphase]
  rw [commit_flush hp, runStore_settled v (.inr hq), hends, deliver_down hdown, trySleep_down hdown]

theorem exec_powerOn {s : State} (h : s.phase = .active ∨ s.phase = .restart ∨ s.phase = .hold) (reads : RestartReads) :
    exec (.powerOnRestart reads) s = .next (commit (s.comesUp.restart .powerOn reads)) := by
  show execPowerOnRestart reads s = _
  have hphase : ∀ f, s.comesUp.phase ≠ .flush f := by
    intro f hf
    rcases h with h | h | h
    · rw [comesUp_of_ne s (by simp [h]), h] at hf
      cases hf
    · rw [comesUp_restart s h] at hf
      cases hf
    · rw [comesUp_of_ne s (by simp [h]), h] at hf
      cases hf
  rw [execPowerOnRestart, event, State.powerOn]
  split
  · next f hf => exact absurd hf (hphase f)
  · rfl

theorem exec_linkRestart {s : State} (ha : s.isActive = true) (hs : s.settled = true) (hf : s.flight = none)
    (hb : ∀ l, (s.line l).bound = none) (reads : RestartReads) :
    exec (.linkReset reads) s = .next (((s.beginFlush (.linkReset reads)).restart .linkReset reads).runStore) := by
  have hqueue : s.queue = [] := (((settled_iff s).1 hs).1).resolve_left (by simp [hf])
  have hentries : (s.beginFlush (.linkReset reads)).queue = [] := by
    have hone : s.lines.one.bound = none := hb .one
    have htwo : s.lines.two.bound = none := hb .two
    show finalOrder s.lines.one.bound s.lines.two.bound s.queue = []
    rw [hone, htwo, hqueue]
    rfl
  show execLinkReset reads s = _
  rw [execLinkReset, event, comesUp_active s ha, State.linkResets, if_pos ha]
  exact congrArg Host.Outcome.next (commit_linkRestart (v := s.beginFlush (.linkReset reads)) rfl rfl
    ((flightOf_beginFlush (.linkReset reads)).trans hf) hentries)

end Sys2Proof.Machine

/-- Settles O56: what a restart brings up, and how POWER-FAIL stops one. -/
theorem restartBringsUp : Obligations.RestartBringsUp := by
  refine ⟨fun reads s hp => ?_, fun s hp => ⟨fun i hi => exec_congr_comesUp (comesUp_setActive hp) hi, step_restart hp,
      exec_powerFail_restartBusy hp, exec_powerFail_restartIdle hp⟩,
    fun i f s hp hk ho hi => exec_stoppedHolds hp hk ho hi, fun reads s ha hs hf hb => ?_⟩
  · rw [exec_powerOn hp, commit_restart]
    exact ⟨_, rfl, restarted_runStore (sameStore_comesUp s) .powerOn reads⟩
  · rw [exec_linkRestart ha hs hf hb]
    exact ⟨_, rfl, restarted_runStore (sameStore_beginFlush hb (.linkReset reads)) .linkReset reads⟩
end
